-- ==== Sys2Proof/Word.lean ====
section
/-!
DEFINITION. The word types of the BX1280: bytes, 64-bit words, 128-bit instruction words, 2,048-bit vector registers.
Everything is little-endian (R2): bit 0 is the least significant, the lowest address holds the least significant byte.
-/
namespace Sys2Proof

/-- One byte of memory. -/
abbrev Byte := BitVec 8
/-- A 64-bit register, address or token value. -/
abbrev Word := BitVec 64
/-- A 128-bit instruction word (R2, R89). -/
abbrev IWord := BitVec 128
/-- A vector register: 64 lanes of 32 bits (R20). -/
abbrev Vec := BitVec 2048

end Sys2Proof
end

