-- ==== Sys2Proof/Machine/Table.lean ====
section
/-!
DEFINITION. Sparse tables: lists of key and value pairs with rising keys. They hold the many like parts of the device
(512 tiles, 16,384 contexts of cores, 4,096 contexts, …), of which a run touches few.
-/
namespace Sys2Proof

/-- A sparse table; a key that is not listed has the default that the reader names. -/
abbrev Tbl (α : Type) := List (Nat × α)

/-- The entry of `k`, if listed. -/
def Tbl.find? {α : Type} : Tbl α → Nat → Option α
  | [], _ => none
  | (j, a) :: r, k => if j = k then some a else Tbl.find? r k

/-- The entry of `k`, or the default `d`. -/
def Tbl.get {α : Type} (t : Tbl α) (d : α) (k : Nat) : α := (Tbl.find? t k).getD d

/-- `t` with `k` holding `a`; keys stay rising. -/
def Tbl.set {α : Type} : Tbl α → Nat → α → Tbl α
  | [], k, a => [(k, a)]
  | (j, b) :: r, k, a =>
    if j = k then (k, a) :: r else if k < j then (k, a) :: (j, b) :: r else (j, b) :: Tbl.set r k a

/-- `t` without `k`. -/
def Tbl.erase {α : Type} : Tbl α → Nat → Tbl α
  | [], _ => []
  | (j, b) :: r, k => if j = k then r else (j, b) :: Tbl.erase r k

/-- `t` with the entry of `k` changed by `f`. -/
def Tbl.upd {α : Type} (t : Tbl α) (d : α) (k : Nat) (f : α → α) : Tbl α := Tbl.set t k (f (Tbl.get t d k))

end Sys2Proof
end

