-- ==== Sys2Proof/Syntax.lean ====
section
/-!
DEFINITION. The instructions of the BX1280 as syntax: the fields of a C bundle (Table 05-2), of a graph word (Table 05-12),
and one constructor of `Instr` per row of the opcode table. The first 146 rows are instructions; the other 106 rows are the
device's and the host's own steps ("each whole and indivisible", chapter 95), which carry what the environment supplies.
-/
namespace Sys2Proof

/-- The fields of a C bundle above `OPC` and `CLS` (Table 05-2). `cls` is the class, 0 to 7; the opcode is the constructor's. -/
structure CForm where
  cls  : BitVec 4
  d    : BitVec 6
  a    : BitVec 6
  b    : BitVec 6
  c    : BitVec 6
  md   : BitVec 12
  prd  : BitVec 4
  imm  : BitVec 44
  hold : BitVec 4
  tkn  : BitVec 4
  need : BitVec 8
  keep : BitVec 4
  park : BitVec 1
  fem  : BitVec 3
  rsv  : BitVec 8
deriving DecidableEq, Repr

/-- The fields of a graph instruction word above `OPC` and `CLS` (Table 05-12). -/
structure GForm where
  nopnd : BitVec 2
  pmode : BitVec 2
  urg   : BitVec 1
  t0    : BitVec 10
  t1    : BitVec 10
  lsid  : BitVec 5
  md    : BitVec 6
  imm   : BitVec 48
  place : BitVec 7
  rsv   : BitVec 25
deriving DecidableEq, Repr

/-- An opcode that both encodings accept is decoded from a C bundle or from a graph word (Table 05-11). -/
inductive Form where
  | c (f : CForm)
  | g (f : GForm)
deriving DecidableEq, Repr

/-- Where a host register access goes: an offset of the function's `PW0` (R416) or `PW4` (R330), or of the firmware mailbox
(R429: 0 FWADDR, 8 FWLEN, 16 FWCMD, 24 FWSTAT), by 8 bytes; an access of another size to `PW0` (R416); the DVSEC header before the mailbox, by 4 bytes. -/
inductive HostReg where
  | pw0 (offset : Nat)
  | pw4 (offset : Nat)
  | mailbox (offset : Nat)
  | sized (offset bytes : Nat)
  | dvsec (offset : Nat)
deriving DecidableEq, Repr

/-- One constructor per row of spec/opcode_table.json. -/
inductive Instr where
  /-- `nop` (R142), OPC 0x00. -/
  | nop (f : Form)
  /-- `add` (R137), OPC 0x01. -/
  | add (f : Form)
  /-- `sub` (R137), OPC 0x02. -/
  | sub (f : Form)
  /-- `mul` (R137), OPC 0x03. -/
  | mul (f : Form)
  /-- `mulh` (R137), OPC 0x04. -/
  | mulh (f : Form)
  /-- `div` (R138), OPC 0x05. -/
  | div (f : Form)
  /-- `rem` (R138), OPC 0x06. -/
  | rem (f : Form)
  /-- `madd` (R137), OPC 0x07. -/
  | madd (f : Form)
  /-- `and` (R137), OPC 0x08. -/
  | and (f : Form)
  /-- `or` (R137), OPC 0x09. -/
  | or (f : Form)
  /-- `xor` (R137), OPC 0x0A. -/
  | xor (f : Form)
  /-- `andn` (R137), OPC 0x0B. -/
  | andn (f : Form)
  /-- `shl` (R137), OPC 0x0C. -/
  | shl (f : Form)
  /-- `shr` (R137), OPC 0x0D. -/
  | shr (f : Form)
  /-- `rot` (R137), OPC 0x0E. -/
  | rot (f : Form)
  /-- `min` (R137), OPC 0x0F. -/
  | min (f : Form)
  /-- `max` (R137), OPC 0x10. -/
  | max (f : Form)
  /-- `cmp` (R139), OPC 0x11. -/
  | cmp (f : Form)
  /-- `sel` (R139), OPC 0x12. -/
  | sel (f : Form)
  /-- `clz` (R137), OPC 0x13. -/
  | clz (f : Form)
  /-- `popc` (R137), OPC 0x14. -/
  | popc (f : Form)
  /-- `brev` (R137), OPC 0x15. -/
  | brev (f : Form)
  /-- `bfx` (R140), OPC 0x16. -/
  | bfx (f : Form)
  /-- `bfi` (R140), OPC 0x17. -/
  | bfi (f : Form)
  /-- `sext` (R140), OPC 0x18. -/
  | sext (f : Form)
  /-- `zext` (R140), OPC 0x19. -/
  | zext (f : Form)
  /-- `mov` (R137), OPC 0x1A. -/
  | mov (f : Form)
  /-- `li` (R141), OPC 0x1B. -/
  | li (f : Form)
  /-- `lih` (R141), OPC 0x1C. -/
  | lih (f : Form)
  /-- `adr` (R141), OPC 0x1D. -/
  | adr (f : Form)
  /-- `abs` (R137), OPC 0x1E. -/
  | abs (f : Form)
  /-- `fadd` (R167), OPC 0x20. -/
  | fadd (f : Form)
  /-- `fsub` (R167), OPC 0x21. -/
  | fsub (f : Form)
  /-- `fmul` (R167), OPC 0x22. -/
  | fmul (f : Form)
  /-- `fma` (R167), OPC 0x23. -/
  | fma (f : Form)
  /-- `fmin` (R168), OPC 0x24. -/
  | fmin (f : Form)
  /-- `fmax` (R168), OPC 0x25. -/
  | fmax (f : Form)
  /-- `fcmp` (R168), OPC 0x26. -/
  | fcmp (f : Form)
  /-- `fsgn` (R167), OPC 0x27. -/
  | fsgn (f : Form)
  /-- `fcvt` (R170), OPC 0x28. -/
  | fcvt (f : Form)
  /-- `fcls` (R169), OPC 0x29. -/
  | fcls (f : Form)
  /-- `frnd` (R167), OPC 0x2A. -/
  | frnd (f : Form)
  /-- `fdiv` (R167), OPC 0x2B. -/
  | fdiv (f : Form)
  /-- `fsqrt` (R167), OPC 0x2C. -/
  | fsqrt (f : Form)
  /-- `frcp` (R171), OPC 0x30. -/
  | frcp (f : Form)
  /-- `frsq` (R171), OPC 0x31. -/
  | frsq (f : Form)
  /-- `fex2` (R171), OPC 0x32. -/
  | fex2 (f : Form)
  /-- `flg2` (R171), OPC 0x33. -/
  | flg2 (f : Form)
  /-- `fsin` (R171), OPC 0x34. -/
  | fsin (f : Form)
  /-- `fcos` (R171), OPC 0x35. -/
  | fcos (f : Form)
  /-- `ftanh` (R171), OPC 0x36. -/
  | ftanh (f : Form)
  /-- `fsigm` (R171), OPC 0x37. -/
  | fsigm (f : Form)
  /-- `fgelu` (R171), OPC 0x38. -/
  | fgelu (f : Form)
  /-- `fsilu` (R171), OPC 0x39. -/
  | fsilu (f : Form)
  /-- `vbcast` (R172), OPC 0x40. -/
  | vbcast (f : CForm)
  /-- `vperm` (R172), OPC 0x41. -/
  | vperm (f : CForm)
  /-- `vred` (R173), OPC 0x42. -/
  | vred (f : CForm)
  /-- `vscan` (R174), OPC 0x43. -/
  | vscan (f : CForm)
  /-- `vcmp` (R172), OPC 0x44. -/
  | vcmp (f : CForm)
  /-- `vmerge` (R172), OPC 0x45. -/
  | vmerge (f : CForm)
  /-- `vcomp` (R175), OPC 0x46. -/
  | vcomp (f : CForm)
  /-- `vspread` (R175), OPC 0x47. -/
  | vspread (f : CForm)
  /-- `vlane` (R172), OPC 0x48. -/
  | vlane (f : CForm)
  /-- `vins` (R172), OPC 0x49. -/
  | vins (f : CForm)
  /-- `vext` (R172), OPC 0x4A. -/
  | vext (f : CForm)
  /-- `mlog` (R172), OPC 0x4B. -/
  | mlog (f : CForm)
  /-- `mpop` (R172), OPC 0x4C. -/
  | mpop (f : CForm)
  /-- `mfirst` (R172), OPC 0x4D. -/
  | mfirst (f : CForm)
  /-- `vnarrow` (R176), OPC 0x4E. -/
  | vnarrow (f : CForm)
  /-- `vwiden` (R176), OPC 0x4F. -/
  | vwiden (f : CForm)
  /-- `vdot` (R177), OPC 0x50. -/
  | vdot (f : CForm)
  /-- `vrev` (R172), OPC 0x51. -/
  | vrev (f : CForm)
  /-- `vrot` (R172), OPC 0x52. -/
  | vrot (f : CForm)
  /-- `ld` (R145), OPC 0x60. -/
  | ld (f : Form)
  /-- `st` (R147), OPC 0x61. -/
  | st (f : Form)
  /-- `prf` (R148), OPC 0x68. -/
  | prf (f : Form)
  /-- `vld` (R179), OPC 0x62. -/
  | vld (f : CForm)
  /-- `vst` (R179), OPC 0x63. -/
  | vst (f : CForm)
  /-- `vgat` (R181), OPC 0x64. -/
  | vgat (f : CForm)
  /-- `vsct` (R181), OPC 0x65. -/
  | vsct (f : CForm)
  /-- `vlds` (R180), OPC 0x66. -/
  | vlds (f : CForm)
  /-- `vsts` (R180), OPC 0x67. -/
  | vsts (f : CForm)
  /-- `cwb` (R184), OPC 0x69. -/
  | cwb (f : CForm)
  /-- `cinv` (R184), OPC 0x6A. -/
  | cinv (f : CForm)
  /-- `amo` (R224), OPC 0x70. -/
  | amo (f : Form)
  /-- `cas` (R225), OPC 0x71. -/
  | cas (f : Form)
  /-- `fence` (R227), OPC 0x72. -/
  | fence (f : Form)
  /-- `pub` (R228), OPC 0x73. -/
  | pub (f : Form)
  /-- `syn.post` (R229), OPC 0x74. -/
  | synPost (f : Form)
  /-- `syn.read` (R230), OPC 0x76. -/
  | synRead (f : Form)
  /-- `syn.wait` (R231), OPC 0x75. -/
  | synWait (f : CForm)
  /-- `ctr.add` (R232), OPC 0x78. -/
  | ctrAdd (f : Form)
  /-- `ctr.wait` (R233), OPC 0x77. -/
  | ctrWait (f : CForm)
  /-- `sem.sig` (R234), OPC 0x79. -/
  | semSig (f : CForm)
  /-- `sem.wait` (R234), OPC 0x7A. -/
  | semWait (f : CForm)
  /-- `bar.arr` (R235), OPC 0x7B. -/
  | barArr (f : CForm)
  /-- `bar.wait` (R235), OPC 0x7C. -/
  | barWait (f : CForm)
  /-- `gbar.arr` (R236), OPC 0x7D. -/
  | gbarArr (f : CForm)
  /-- `gbar.wait` (R236), OPC 0x7D. -/
  | gbarWait (f : CForm)
  /-- `cmode.coh` (R237), OPC 0x7E. -/
  | cmodeCoh (f : CForm)
  /-- `cmode.soft` (R237), OPC 0x7E. -/
  | cmodeSoft (f : CForm)
  /-- `tfence` (R238), OPC 0x7F. -/
  | tfence (f : CForm)
  /-- `br` (R149), OPC 0x80. -/
  | br (f : Form)
  /-- `jmp` (R149), OPC 0x81. -/
  | jmp (f : Form)
  /-- `jmpr` (R150), OPC 0x82. -/
  | jmpr (f : Form)
  /-- `call` (R151), OPC 0x83. -/
  | call (f : Form)
  /-- `callr` (R151), OPC 0x84. -/
  | callr (f : Form)
  /-- `ret` (R154), OPC 0x85. -/
  | ret (f : Form)
  /-- `exit` (R205), OPC 0x86. -/
  | exit (f : GForm)
  /-- `steer` (R206), OPC 0x87. -/
  | steer (f : GForm)
  /-- `fan` (R207), OPC 0x88. -/
  | fan (f : GForm)
  /-- `null` (R208), OPC 0x89. -/
  | null (f : GForm)
  /-- `gate` (R209), OPC 0x8A. -/
  | gate (f : GForm)
  /-- `fwr` (R210), OPC 0x8B. -/
  | fwr (f : GForm)
  /-- `acc` (R211), OPC 0x8C. -/
  | acc (f : GForm)
  /-- `merge` (R212), OPC 0x8D. -/
  | merge (f : GForm)
  /-- `mm` (R261), OPC 0x90. -/
  | mm (f : CForm)
  /-- `mmb` (R260), OPC 0x91. -/
  | mmb (f : CForm)
  /-- `rstep` (R262), OPC 0x92. -/
  | rstep (f : CForm)
  /-- `cp` (R266), OPC 0x93. -/
  | cp (f : Form)
  /-- `gath` (R267), OPC 0x95. -/
  | gath (f : Form)
  /-- `cps` (R269), OPC 0x94. -/
  | cps (f : CForm)
  /-- `slot.free` (R270), OPC 0x97. -/
  | slotFree (f : Form)
  /-- `coll` (R271), OPC 0x96. -/
  | coll (f : CForm)
  /-- `sbind` (R272), OPC 0x98. -/
  | sbind (f : CForm)
  /-- `sbar` (R273), OPC 0x99. -/
  | sbar (f : CForm)
  /-- `e.wait` (R276), OPC 0xA0. -/
  | eWait (f : Form)
  /-- `e.test` (R277), OPC 0xA1. -/
  | eTest (f : Form)
  /-- `e.cancel` (R278), OPC 0xA2. -/
  | eCancel (f : CForm)
  /-- `e.detach` (R279), OPC 0xA3. -/
  | eDetach (f : CForm)
  /-- `e.adopt` (R279), OPC 0xA4. -/
  | eAdopt (f : CForm)
  /-- `e.prio` (R280), OPC 0xA5. -/
  | ePrio (f : CForm)
  /-- `e.fault` (R281), OPC 0xA6. -/
  | eFault (f : CForm)
  /-- `ctx.start` (R239), OPC 0xB0. -/
  | ctxStart (f : CForm)
  /-- `ctx.reap` (R240), OPC 0xB1. -/
  | ctxReap (f : CForm)
  /-- `getsr` (R242), OPC 0xB2. -/
  | getsr (f : CForm)
  /-- `setsr` (R242), OPC 0xB3. -/
  | setsr (f : CForm)
  /-- `yield` (R243), OPC 0xB4. -/
  | yield (f : CForm)
  /-- `halt` (R241), OPC 0xB5. -/
  | halt (f : CForm)
  /-- `trap` (R244), OPC 0xB6. -/
  | trap (f : CForm)
  /-- `brk` (R244), OPC 0xB7. -/
  | brk (f : CForm)
  /-- `task.post` (R245), OPC 0xB8. -/
  | taskPost (f : CForm)
  /-- `chan.blk` (R246), OPC 0xB9. -/
  | chanBlk (f : CForm)
  /-- `meas` (R248), OPC 0xBA. -/
  | meas (f : CForm)
  /-- `eret` (R252), OPC 0xBB. -/
  | eret (f : CForm)
  /-- `task.cancel` (R247), OPC 0xBC. -/
  | taskCancel (f : CForm)
  /-- `FETCH_TRAP` (R90). -/
  | fetchTrap (thread : Nat)
  /-- `LONG_LATENCY_FILL` (R94). -/
  | longLatencyFill (thread : Nat) (idx : Nat)
  /-- `STORE_ACCEPT` (R96). -/
  | storeAccept (thread : Nat) (idx : Nat)
  /-- `ERROR_REPLY` (R421). -/
  | errorReply (thread : Nat) (store : Bool) (idx : Nat)
  /-- `CROSS_CALL_RETURN` (R152). -/
  | crossCallReturn (thread : Nat)
  /-- `LINE_POISONING` (R17). -/
  | linePoisoning (line : Nat)
  /-- `BLOCK_LOAD` (R189). -/
  | blockLoad (act : Nat)
  /-- `INSTANCE_START` (R190). -/
  | instanceStart (act : Nat)
  /-- `TOKEN_ARRIVAL` (R193). -/
  | tokenArrival (idx : Nat)
  /-- `INSTANCE_QUIESCENT` (R191). -/
  | instanceQuiescent (inst : Nat)
  /-- `INSTANCE_COMMIT` (R202). -/
  | instanceCommit (inst : Nat)
  /-- `INSTANCE_TIMEOUT` (R203). -/
  | instanceTimeout (inst : Nat)
  /-- `GRAPH_FAULT_TAKEN` (R219). -/
  | graphFaultTaken (inst : Nat)
  /-- `GRAPH_HANDLER_START` (R221). -/
  | graphHandlerStart (act : Nat)
  /-- `GRAPH_CALL_RETURN` (R158). -/
  | graphCallReturn (inst : Nat)
  /-- `STREAM_PORT_EMIT` (R215). -/
  | streamPortEmit (tile : Nat) (port : Nat)
  /-- `PORT_FETCH_FAULT` (R222). -/
  | portFetchFault (tile : Nat) (port : Nat)
  /-- `ERRAND_QUEUED` (R380). -/
  | errandQueued (tile : Nat) (slot : Nat)
  /-- `ERRAND_START` (R257). -/
  | errandStart (tile : Nat) (slot : Nat)
  /-- `ERRAND_PREEMPTION_POINT` (R385). -/
  | errandPreemptionPoint (tile : Nat) (slot : Nat)
  /-- `ERRAND_RESUME` (R380). -/
  | errandResume (tile : Nat) (slot : Nat)
  /-- `ERRAND_CHUNK_DONE` (R266). -/
  | errandChunkDone (tile : Nat) (slot : Nat)
  /-- `ERRAND_PUBLISH` (R258). -/
  | errandPublish (tile : Nat) (slot : Nat)
  /-- `OPERAND_FETCH_FAULT` (R387). -/
  | operandFetchFault (tile : Nat) (slot : Nat)
  /-- `FETCH_REPLAY` (R387). -/
  | fetchReplay (tile : Nat) (slot : Nat)
  /-- `REPLAY_TIMEOUT` (R387). -/
  | replayTimeout (tile : Nat) (slot : Nat)
  /-- `GROUP_PLACEMENT` (R352). -/
  | groupPlacement
  /-- `GROUP_START` (R353). -/
  | groupStart (kernel : Nat)
  /-- `LAUNCH_STARVATION` (R359). -/
  | launchStarvation (kernel : Nat)
  /-- `TASK_DISPATCH` (R345). -/
  | taskDispatch (die : Nat)
  /-- `KERNEL_COMPLETION` (R355). -/
  | kernelCompletion (kernel : Nat)
  /-- `PREEMPT_REQUEST` (R319). -/
  | preemptRequest (tile : Nat)
  /-- `SAVE_COMPLETE` (R312). -/
  | saveComplete (tile : Nat)
  /-- `GROUP_EVICTION` (R322). -/
  | groupEviction (tile : Nat)
  /-- `RESTORE_REQUEST` (R319). -/
  | restoreRequest (kernel : Nat) (rank : Nat) (tile : Nat)
  /-- `RESTORE_COMPLETE` (R319). -/
  | restoreComplete (tile : Nat)
  /-- `BUDGET_PERIOD` (R370). -/
  | budgetPeriod
  /-- `HEADROOM_UPDATE` (R372). -/
  | headroomUpdate (h0 : BitVec 24) (h1 : BitVec 24) (h2 : BitVec 24) (h3 : BitVec 24)
  /-- `BELL_SLOT` (R367). -/
  | bellSlot (die : Nat)
  /-- `THERMAL_SAMPLE` (R30). -/
  | thermalSample (dies : List Nat) (stackTemps : List Nat) (hub : Nat)
  /-- `THERMAL_TRIP` (R30). -/
  | thermalTrip (die : Nat)
  /-- `COLD_RESET` (R423). -/
  | coldReset
  /-- `SELF_CHECK_TIMEOUT` (R425). -/
  | selfCheckTimeout
  /-- `IMAGE_READY` (R423). -/
  | imageReady
  /-- `DIE_ADMIT` (R428). -/
  | dieAdmit (die : Nat)
  /-- `FWCMD_STORE` (R429). -/
  | fwcmdStore
  /-- `FWCMD_HANDOVER` (R430). -/
  | fwcmdHandover
  /-- `FWCMD_STORE_HANDOVER` (R429). -/
  | fwcmdStoreHandover
  /-- `HANDOVER_COMMIT` (R430). -/
  | handoverCommit
  /-- `RECEIPT_SIGNED` (R326). -/
  | receiptSigned
  /-- `CREATE` (R313); `blocks`: the blocks beside the root that the reeve column finds in the allotment tree (R315; log 18). -/
  | create (queue : Nat) (blocks : List Word)
  /-- `DESTROY` (R329). -/
  | destroy (queue : Nat)
  /-- `TEARDOWN_COMPLETE` (R329). -/
  | teardownComplete (ctx : Nat)
  /-- `ALLOT` (R315); `blocks` as for `CREATE`. -/
  | allot (queue : Nat) (blocks : List Word)
  /-- `LOAD` (R335). -/
  | load (queue : Nat)
  /-- `LAUNCH` (R350). -/
  | launch (queue : Nat)
  /-- `COPY` (R335). -/
  | copy (queue : Nat)
  /-- `RECEIPT` (R325). -/
  | receipt (queue : Nat)
  /-- `BARRIER` (R336). -/
  | barrier (queue : Nat)
  /-- `SIGNAL` (R336). -/
  | signal (queue : Nat)
  /-- `PREEMPT` (R335). -/
  | preempt (queue : Nat)
  /-- `RESTORE` (R335). -/
  | restore (queue : Nat)
  /-- `GROUPTAB` (R337). -/
  | grouptab (queue : Nat)
  /-- `PEERTAB` (R338). -/
  | peertab (queue : Nat)
  /-- `BADKIND` (R340). -/
  | badkind (queue : Nat)
  /-- `COMPLETION_ENTRY_WRITE` (R340). -/
  | completionEntryWrite (queue : Nat)
  /-- `QCFG` (R331). -/
  | qcfg (queue : Nat) (value : Word)
  /-- `QTAIL` (R332). -/
  | qtail (queue : Nat) (value : Word)
  /-- `CHEAD` (R340). -/
  | chead (queue : Nat) (value : Word)
  /-- `RINGERR` (R455). -/
  | ringerr (queue : Nat) (value : Word)
  /-- `PLIMIT` (R29). -/
  | plimit (value : Word)
  /-- `DIERST` (R420). -/
  | dierst (value : Word)
  /-- `DIE_RESET` (R420). -/
  | dieReset (die : Nat)
  /-- `DIE_READMIT` (R420). -/
  | dieReadmit (die : Nat)
  /-- `QUIESCE` (R411). -/
  | quiesce (link : Nat)
  /-- `RESUME` (R411). -/
  | resume (link : Nat)
  /-- `RETRAIN` (R411). -/
  | retrain (link : Nat)
  /-- `LERR` (R416). -/
  | lerr (link : Nat)
  /-- `PW2ERR` (R417). -/
  | pw2err (func : Nat)
  /-- `LMAX` (R403). -/
  | lmax (ctx : Nat) (value : Word)
  /-- `MAPSEQ` (R403). -/
  | mapseq (ctx : Nat) (value : Word)
  /-- `MAPDONE_ADVANCE` (R403). -/
  | mapdoneAdvance (ctx : Nat)
  /-- `REGISTER_WRITE` (R8). -/
  | registerWrite (func : Nat) (reg : HostReg) (value : Word)
  /-- `HOST_PW2_READ` (R417). -/
  | hostPw2Read (func : Nat) (offset : Nat) (bytes : Nat)
  /-- `HOST_PW2_WRITE` (R417). -/
  | hostPw2Write (func : Nat) (offset : Nat) (data : List Byte)
  /-- `FUNCTION_LEVEL_RESET` (R341). -/
  | functionLevelReset (func : Nat)
  /-- `LINK_TRAINED` (R411). -/
  | linkTrained (link : Nat) (lanes : BitVec 8) (rate : BitVec 12)
  /-- `TRAINING_FAILURE` (R411). -/
  | trainingFailure (link : Nat)
  /-- `LINK_QUIESCED` (R411). -/
  | linkQuiesced (link : Nat)
  /-- `RETRAIN_COMPLETE` (R411). -/
  | retrainComplete (link : Nat)
  /-- `RETRAIN_TIMEOUT` (R411). -/
  | retrainTimeout (link : Nat)
  /-- `FLIT_RECEIVE` (R414). -/
  | flitReceive (link : Nat) (flit : BitVec 2048) (good : Bool)
  /-- `ACK_TIMEOUT` (R414). -/
  | ackTimeout (link : Nat)
  /-- `LANE_LOCK_LOSS` (R414). -/
  | laneLockLoss (link : Nat)
  /-- `OWNERSHIP_REQUEST` (R302). -/
  | ownershipRequest (peer : Nat) (page : Nat) (mine : Bool)
  /-- `OWNERSHIP_TRANSFER` (R302). -/
  | ownershipTransfer (peer : Nat) (page : Nat) (mine : Bool) (data : List Host.Cell)
  /-- `OWNER_UNREACHABLE` (R408). -/
  | ownerUnreachable (peer : Nat)
  /-- `WALK_COMPLETE` (R401). -/
  | walkComplete (idx : Nat)
  /-- `WALK_INSTALL_TIMEOUT` (R402). -/
  | walkInstallTimeout (idx : Nat)
  /-- `LEASE_EXPIRY` (R402). -/
  | leaseExpiry (unit : Nat) (idx : Nat)
  /-- `POWER_LOSS` (R424). -/
  | powerLoss
  /-- `LINE_EVICTION` (R285). -/
  | lineEviction (tile : Nat) (line : Nat)
  /-- `CORRECTED_ERROR` (R17). -/
  | correctedError (channel : Nat)
  /-- `DIE_FATAL_ERROR` (R420). -/
  | dieFatalError (die : Nat)
  /-- `HOME_MOVE` (R421). -/
  | homeMove (die : Nat)
  /-- `SELF_CHECK_COMPLETE` (R430). -/
  | selfCheckComplete (pass : Bool)
deriving DecidableEq, Repr

end Sys2Proof
end

