-- ==== Sys2Proof/Machine/State.lean ====
section
/-!
DEFINITION. The state of the BX1280: every piece of state the spec gives the machine, as plain data, and its value after a
cold reset. INVENTORY.md lists each field with the rule that names it; log entries 1, 2 and 20 to 25 name the values for which the
spec states no reset value.
-/
namespace Sys2Proof.Machine
open Sys2Proof

/-! ### Threads -/

/-- States of a thread's context (Table 17-2). -/
inductive TStat where | free | live | handler | ended | stopped
deriving DecidableEq, Repr

/-- What started the thread: member threads are leads and workers (R388); the others are R346, R221, R134 and R423. -/
inductive Role where | lead | worker | task | faultHandler (act : Nat) | callee | firmware
deriving DecidableEq, Repr

/-- A poison mark of a register: the cause its first reader traps (`POISON` or `LINK_ERR`) and the address of the load
(R146, R421). -/
structure PoisonInfo where
  cause : BitVec 6
  addr  : Word
deriving DecidableEq, Repr

/-- What a pending fill of a register waits for (R94): a result already on its way, an errand's end (R276), a thread's end
(R240), or a cross-encoding return (R152). `status`: the errand has been reaped for another, and its status word is due (R276). `from_`: the address of
the `e.wait.t` that waits, and whether a handler executed it. -/
inductive FillKind where
  | value
  | errand (handle : Word) (from_ : Option (Word × Bool))
  | status (handle word : Word) (from_ : Option (Word × Bool))
  | reap (thread : Nat)
  | call (frame : Word)
deriving DecidableEq, Repr

/-- An outstanding long-latency result. `reg` is 0–63 for `x`, 64–95 for `v`. `err` says an error reply is due (R421). `via`: the links that its request
crosses (R15), and `addr` its address. -/
structure Fill where
  reg    : Nat
  val    : Vec
  pois   : Option PoisonInfo
  ticket : Option Nat
  kind   : FillKind
  err    : Bool
  via    : BitVec 21 := 0
  addr   : Word := 0
deriving DecidableEq, Repr

/-- A store, write-back or engine bundle whose acceptance is outstanding (R96): the ticket it took, and the address of an
error reply that is due (R421). `via`: the links that it crosses (R15), and `addr` its address. -/
structure StoreWait where
  ticket : Option Nat
  err    : Option Word
  via    : BitVec 21 := 0
  addr   : Word := 0
deriving DecidableEq, Repr

/-- An error to be reported at the next fence, release, `pub`, `halt` or pre-emption (R249). -/
structure Deferred where
  cause : BitVec 6
  addr  : Word
  info  : Word
deriving DecidableEq, Repr

/-- A bundle that has issued and holds its thread waiting (R365 condition 6). Scopes are those of the completing acquire. -/
inductive Wait where
  | none
  | semWait (j : Nat)
  | semSig (j : Nat)
  | barArr (b : Nat)
  | barWait (b gen : Nat)
  | gbarArr (g : Nat)
  | gbarWait (g gen : Nat)
  | syn (ea : Word) (gen : BitVec 24)
  /-- `place`: where its address leads, by the translation of its thread's last turn, made at hub time `ns` (R233, R403) -/
  | ctr (ea v : Word) (scope : Nat) (place : Option Nat) (ns : Nat)
  /-- an update has met the condition of a `syn.wait` or `ctr.wait` (R231, R233) -/
  | met
  | yield (turns : Nat)
  | call
deriving DecidableEq, Repr

/-- A trap that an `e.wait.t` owes its thread since the errand's status has come (R276): what it leaves in the trap registers, and whether the bundle ran in a
handler. -/
structure OwedTrap where
  cause : BitVec 6
  tepc  : Word
  addr  : Word
  info  : Word
  inh   : Bool
deriving DecidableEq, Repr

/-- What a meaning has to work with: the thread, its place and context, the bundle's address and fields, the values of `A`, `B`
(under class I, `IMM`) and `C` as x-registers or as vectors, the lane mask, and the ticket that the bundle takes. -/
structure CEnv where
  k    : Nat
  tile : Nat
  ctx  : Nat
  allot : Nat
  pc   : Word
  f    : CForm
  a    : Word
  b    : Word
  c    : Word
  va   : Vec
  vb   : Vec
  vc   : Vec
  mask : Word
  ticket : Option Nat
deriving DecidableEq, Repr

/-- A request to memory that waits after its bundle has issued, for a spent meter or for an open path, with its destination empty (R365, R370, R412): the
opcode and what its meaning works with. -/
structure HeldReq where
  opc : Nat
  env : CEnv
deriving DecidableEq, Repr

/-- One barrel context (R19, R129 to R130, Table 10-2, Table 14-4). -/
structure Thread where
  stat     : TStat
  role     : Role
  ctx      : Nat
  kernel   : Nat
  allot    : Nat
  x        : Vector Word 64
  v        : Vector Vec 32
  /-- full/empty bits: `x` in 0–63, `v` in 64–95 (R94) -/
  full     : BitVec 96
  /-- poison marks by register, 0–63 `x`, 64–95 `v` (R146) -/
  pois     : Tbl PoisonInfo
  p        : BitVec 8
  m        : Vector Word 8
  pc       : Word
  tickets  : Vector Nat 8
  hold     : Nat
  wait     : Wait
  /-- what the thread waits for once its handler has returned: the trap came while an issued bundle held it (R251) -/
  hwait    : Wait
  fills    : List Fill
  stores   : List StoreWait
  deferred : List Deferred
  owed     : List OwedTrap := []
  held     : Option HeldReq := none
  fstat    : BitVec 13
  warn     : BitVec 16
  cancelq  : Bool
  cmconf   : Nat
  issued   : Nat
  tcause   : BitVec 6
  tepc     : Word
  taddr    : Word
  tinfo    : Word
  tvec     : Word
  tframe   : Word
  telem    : Word
  inh      : Bool
  tsave    : Vector Word 4
  stackBase : Word
  /-- the frame of a cross-encoding callee (R154) -/
  frame    : Option Word
  /-- header byte 6 and 7, and TRAPS (R92, R126); SCRATCH claimed by a task and where it begins (R345, R346) -/
  xregs    : Nat
  vregs    : Nat
  traps    : Word
  scratch  : Nat
  scratchAt : Nat
  /-- the id of the task it runs, and the device cycle of its start (R247) -/
  task     : Word
  started  : Nat
  /-- one more than the cycle of its last turn (R364) -/
  turned   : Nat := 0
deriving DecidableEq, Repr

/-! ### The fabric -/

/-- A token (R193). -/
structure Token where
  val  : Word
  ends : BitVec 3
  null : Bool
  strm : Bool
  idx  : BitVec 32
  /-- the port whose element a stream token stems from (R220) -/
  port : Nat := 0
deriving DecidableEq, Repr

/-- A token on its way to an operand slot: 0 A, 1 B, 2 C, 3 predicate (R191, R193). -/
structure Transit where
  inst : Nat
  node : Nat
  slot : Nat
  tok  : Token
deriving DecidableEq, Repr

/-- A validated block held by a plane (R189, R192). -/
structure Block where
  entry : Word
  ctx   : Nat
  hdr0  : IWord
  hdr1  : IWord
  words : List IWord
deriving DecidableEq, Repr

/-- A fault found in an instance (R219, R220). -/
structure GFault where
  cause : BitVec 6
  addr  : Word
  node  : Nat
  multi : Bool
  strm  : Bool
  port  : Nat
  elem  : BitVec 32
deriving DecidableEq, Repr

/-- A buffered effect of an instance, performed at commit in memory order (R199, R200): a store's bytes, or the release part
of a `fence` or `pub` (then `data` is empty and `len` is the range). -/
structure GStore where
  lsid  : Nat
  node  : Nat
  elem  : Nat
  op    : BitVec 8
  addr  : Word
  place : Nat
  data  : List Byte
  len   : Nat
  ord   : Nat
  scope : Nat
  /-- hub time of its translation (R403) -/
  ns    : Nat := 0
deriving DecidableEq, Repr

/-- An outstanding `e.wait` of an instance (R213): its instruction and errand, the token that led its firing (R216), and the status, once another waiter has
reaped the errand (R276). -/
structure LateWait where
  node   : Nat
  handle : Word
  lead   : Token
  due    : Option Word
deriving DecidableEq, Repr

/-- State of a `gate` (R209). -/
inductive Gate where | closed | opened | nulled
deriving DecidableEq, Repr

/-- One execution of a block (R189 to R203). Tables over nodes are keyed by instruction index. -/
structure Inst where
  act     : Nat
  seq     : BitVec 32
  block   : Block
  plane   : Nat
  /-- operand tokens, keyed node × 4 + slot, oldest first -/
  slots   : Tbl (List Token)
  fired   : BitVec 128
  /-- performed or nullified memory instructions, and those nullified -/
  done    : BitVec 128
  fwr     : Tbl (Option Word)
  fwrs    : Nat
  stores  : List GStore
  exits   : Nat
  exitTo  : Word
  rets    : Nat
  retv    : Word
  irrev   : Bool
  accs    : Tbl Word
  latch   : Tbl Token
  gates   : Tbl Gate
  /-- the outstanding call: its instruction, the callee's frame, and the token that led its firing (R158, R216) -/
  call    : Option (Nat × Word × Token)
  /-- slots of the tokens that wait at a joining `merge`, in arrival order (R212) -/
  arrivals : Tbl (List Nat)
  /-- ports whose final element it has received (R215) -/
  ports   : BitVec 16
  ewaits  : List LateWait
  fault   : Option GFault
  /-- an instance whose port's fetch faulted is held, not discarded (R222) -/
  held    : Bool
  quiet   : Bool
  /-- the frame registers as this instance first read them (R221) -/
  fregs   : Vector Word 64
  /-- the cycles that its timeout has counted (R203) -/
  ran     : Nat := 0
deriving DecidableEq, Repr

inductive AStat where | live | faulted | handling | stopped | ended
deriving DecidableEq, Repr

/-- One invocation of a G function (R187). -/
structure Act where
  stat    : AStat
  ctx     : Nat
  kernel  : Nat
  allot   : Nat
  tile    : Nat
  planes  : BitVec 4
  tag     : BitVec 16
  frame   : Word
  f       : Vector Word 64
  next    : Word
  seq     : BitVec 32
  base    : Word
  root    : Bool
  /-- the uncommitted instances, oldest first -/
  insts   : List Nat
  /-- the fault delivered and its registers (R220), with the port of R222 -/
  fault   : Option GFault
  tinfo   : Word
  held    : Option Nat
  /-- the plane that holds it (R134), the frame of a callee whose calling instance has been discarded (R158), and the task that it serves with the cycle of its dispatch (R247) -/
  plane   : Nat := 0
  callee  : Option Word := none
  task    : Option (Word × Nat) := none
  /-- the scratchpad bytes that its task claims and where they begin (R345) -/
  scratch : Nat := 0
  scratchAt : Nat := 0
deriving DecidableEq, Repr

/-- A stream port (R214, R215, R272): the errand (tile × 256 + slot) that binds it, its pattern, the next element, the consuming instance and the element at which
that instance began (R222). `redo`: the activation that consumed the final element of an errand now DONE, whose instance may still be discarded (R222). -/
structure Port where
  bound  : Option Nat
  pat    : BitVec 512
  elem   : Nat
  start  : Nat
  inst   : Option Nat
  redo   : Option Nat := none
deriving DecidableEq, Repr

/-! ### Errands -/

inductive EState where
  | issued | waiting | running | parked | publishing | done | failed | cancelled
deriving DecidableEq, Repr

/-- The owner of an errand (R378). -/
inductive Owner where
  | thread (k : Nat)
  | group (kernel tile : Nat)
  | orphan (kernel : Nat)
deriving DecidableEq, Repr

/-- A member entry of a collective group (R337). -/
structure Member where
  dev : Nat
  ctx : Nat
deriving DecidableEq, Repr

/-- One slot of an errand table (R254, R376 to R387). -/
structure Errand where
  serial  : Nat
  op      : BitVec 8
  engine  : Nat
  st      : EState
  ctx     : Nat
  kernel  : Nat
  rank    : Nat
  allot   : Nat
  prio    : Nat
  owner   : Owner
  issuer  : Nat
  order   : Nat
  md      : BitVec 12
  imm     : BitVec 44
  a       : Word
  b       : Word
  c       : Word
  ctr     : Word
  syn     : Word
  after   : Word
  /-- the shape record's DIM0 and PART0 at issue, with `.mine` (R259) -/
  dim0    : Nat
  part0   : BitVec 8
  /-- format registers of the banks of `a`, `b`, `c` and of RBANK, sampled at the start (R69) -/
  regs    : List Word
  /-- the descriptor as read at the start (Tables 11-6, 11-9 to 11-11) -/
  desc    : List Byte
  unit    : Nat
  progress : Nat
  step    : Nat
  cause   : BitVec 6
  sub     : BitVec 8
  addr    : Word
  /-- the twin object held: its place in face 0, log2 of its page size, its size and virtual address (R75, R76) -/
  twin    : Option Nat
  tbits   : Nat
  tsize   : Nat
  tva     : Word
  /-- bytes of the hidden face written so far, by virtual address -/
  hidden  : List (Nat × Byte)
  /-- w42 accumulators, or the rows of B read so far (R54, R260) -/
  accs    : List (BitVec 42)
  /-- the staged carried state of an `rstep`, and the rows that it freezes and thaws, a row by the first entry of its state (R264) -/
  staged  : List (Nat × BitVec 42)
  frozen  : BitVec 4096
  thawed  : BitVec 4096 := 0
  cancel  : Option (BitVec 6)
  park    : Bool
  /-- the member entries of a `coll`'s GROUP as they stood at its issue (R337) -/
  ctab    : Option (List Member) := none
  stalled : Option Word
  /-- hub time of the fault that stalls it (R387) -/
  stallNs : Nat
  failAtStart : Option (BitVec 6 × Nat × Word)
  /-- busy ring slots of a `cps`, ring × 16 + slot (R269) -/
  busy    : List Nat
  finished : Bool
  /-- the kernel on whose group's tile it was issued, where it runs whoever holds it (R279, R379), and the thread that takes its warnings (R101) -/
  hkern   : Nat := 0
  warnTo  : Option Nat := none
  /-- the errand that it names with `after` had failed already at its issue (R257) -/
  depBad  : Bool := false
  /-- the tile whose engines run it: that of its table, or the one on which its group was restored (R386); and that its owner thread has ended (R383) -/
  at_     : Nat := 0
  gone    : Bool := false
  /-- the bytes that the engine has fetched for the unit at work, by virtual address, which a replay does not fetch again (R387); and the bytes of an `mm`'s
  destination, once it is written (R258) -/
  got     : List (Nat × Byte) := []
  total   : Nat := 0
  /-- hub time of the translation that gave its twin object (R403) -/
  twinNs  : Nat := 0
deriving DecidableEq, Repr

/-- A residency set (R260): the w42 values of B by k × N + j, its class and the groups it occupies. -/
structure ResSet where
  k     : Nat
  n     : Nat
  wb    : Nat
  groups : Nat
  cells : List (BitVec 42)
  valid : Bool
deriving DecidableEq, Repr

/-! ### Tiles -/

/-- A cached line of 128 bytes with a dirty bit per byte (R406); `old` tells a line of a twin object's face that a publish has hidden (R309). `part`: an acquire
has dropped its clean bytes, and the line holds its dirty ones alone (R300). -/
structure L1Line where
  data  : BitVec 1024
  dirty : BitVec 128
  old   : Bool
  part  : Bool := false
deriving DecidableEq, Repr

/-- A TLB entry (R400, R402). `bits` is log2 of the page size; its lease runs for `lease` µs from `ns`, the hub time at which its walk read it. -/
structure TlbEntry where
  ctx   : Nat
  page  : Nat
  bits  : Nat
  leaf  : Word
  ns    : Nat
  lease : Nat
deriving DecidableEq, Repr

/-- A barrier (R390): its generation and the participants that have arrived. -/
structure Bar where
  gen     : Nat
  arrived : List Nat
deriving DecidableEq, Repr

/-- States of a group (Table 17-1) and residency (Table 14-3). -/
inductive GStat where | reserved | live | ended
deriving DecidableEq, Repr
inductive Resid where | resident | preempting | saved | restoring
deriving DecidableEq, Repr

/-- The group that holds a tile (R352, R358). -/
structure Group where
  kernel  : Nat
  rank    : Nat
  stat    : GStat
  resid   : Resid
  restoreReq : Bool
  preemptReq : Bool
deriving DecidableEq, Repr

/-- One tile (Table 01-2). Its scratchpad and vault are bytes of `State.mem`. -/
structure Tile where
  group   : Option Group
  /-- the context the scratchpad, and the vault, is assigned to (R62) -/
  spOwner : Nat
  vault   : Nat
  bfmt    : Vector Word 16
  spmap   : Vector Word 16
  spFilled : BitVec 8192
  spDirty : BitVec 8192
  sems    : Vector Nat 32
  semQ    : List (Nat × Nat × Bool)
  /-- one more than the cycle of the last write of a work core, by format register (R69) -/
  bfmtAt  : Tbl Nat := []
  bars    : Vector Bar 16
  l1      : Tbl L1Line
  /-- the lines that the 64 KiB instruction cache keeps (Table 01-2; log 92) -/
  icache  : Tbl (BitVec 1024)
  tlb     : List TlbEntry
  macros  : Vector (Option ResSet) 4
  carried : Tbl (BitVec 42)
  frozen  : BitVec 4096
  errands : Tbl Errand
  planes  : Vector (Option Block) 4
  ports   : Vector Port 16
  fwall   : BitVec 9
  /-- the GENs of the firmware images in a reeve tile's instruction memory, the one that it runs and the spare (R423, R430); 0 for none -/
  image   : Nat := 0
  spare   : Nat := 0
  /-- the kernel of the last group placed on it, whose mapping entries it keeps until that kernel completes (R355) -/
  last    : Option Nat := none
  /-- the context whose errand last wrote the fault record of a slot, or may write it (R281, R329) -/
  records : Tbl Nat
deriving DecidableEq, Repr

/-! ### Contexts, kernels, queues -/

inductive CStat where | free | created | measured | running | faulted | teardown
deriving DecidableEq, Repr

/-- An allotment block as read (Table 14-2), its meters (Table 17-5) and whether it is stopped (R317). -/
structure Allot where
  parent : Option Nat
  hbm    : Nat
  mirfer : Nat
  ecyc   : Nat
  energy : Nat
  slots  : Nat
  prio   : Nat
  flags  : BitVec 8
  taskq  : Word
  mHbm    : Nat
  mMirfer : Nat
  mEcyc   : Nat
  mEnergy : Nat
  mSlots  : Nat
  stopped : Bool
deriving DecidableEq, Repr

/-- A placement entry (R122). -/
structure Placement where
  fn     : Word
  mode   : Nat
  planes : BitVec 4
  delta  : Int
deriving DecidableEq, Repr

/-- A loaded code object (R335, R348): its load base, its gp, its code segments with their kind, its kernel entries with their placement entries, and the
ranges that its segments take. -/
structure CodeObj where
  base   : Word
  gp     : Word
  segs   : List (Word × Nat × Bool)
  kerns  : List (Word × List Placement)
  parts  : List (Nat × Nat) := []
deriving DecidableEq, Repr

/-- A MAPSEQ value that MAPDONE has not yet taken (R403): the hub time of its write, the largest lease among the context's entries unexpired then, and the twin
objects that were unmapped then (R405). -/
structure MapReq where
  value : Word
  ns    : Nat
  lease : Nat
  gone  : List Nat
deriving DecidableEq, Repr

/-- A context (R313 to R329). `h` is the measurement chain (R323), `mapq` holds the MAPSEQ values in the order of their writes. -/
structure Ctx where
  st      : CStat
  owner   : Nat
  ptRoot  : Nat
  logBase : Word
  logL    : Nat
  seq     : Nat
  h       : BitVec 256
  allots  : Tbl Allot
  pending : Option (Tbl Allot)
  groups  : Tbl (List Member)
  objs    : List CodeObj
  results : List (Nat × Word × BitVec 256)
  lmax    : Nat
  mapseq  : Word
  mapdone : Word
  mapq    : List MapReq
  lastTag : Nat
  tags    : List Nat
  taskNo  : Nat
  serials : Tbl Nat
deriving DecidableEq, Repr

inductive KStat where | queued | placed | running | draining | complete | failed
deriving DecidableEq, Repr

/-- A buffer list entry (Table 15-5). -/
structure Buf where
  addr : Word
  len  : Nat
  mode : Nat
  measure : Bool
deriving DecidableEq, Repr

/-- One launch of a kernel entry (R349). -/
structure Kernel where
  st      : KStat
  ctx     : Nat
  hdrAddr : Word
  hdr     : BitVec 512
  argAddr : Word
  argLen  : Nat
  allot   : Nat
  groups  : Nat
  dies    : BitVec 4
  bufs    : List Buf
  shape   : BitVec 512
  gp      : Word
  places  : List Placement
  queue   : Nat
  pkt     : Nat
  tag     : Nat
  notify  : Bool
  /-- tiles by rank, and the ranks whose groups have not ended (R352, R389) -/
  tiles   : List Nat
  live    : List Nat
  /-- hub time of its acceptance, and whether 200 µs have passed QUEUED (R359) -/
  since   : Nat
  starve  : Bool
  cause   : BitVec 6
  gbars   : Vector Bar 4
  root    : Option Nat
  written : Bool
  /-- where each group's stack regions and barn begin, by rank (R353) -/
  stackAt : List Nat := []
deriving DecidableEq, Repr

/-- A queued task (R343 to R347), or a call task (R345) with its frame and the caller's kernel. -/
structure Task where
  id     : Word
  ctx    : Nat
  allot  : Nat
  record : BitVec 256
  call   : Option (Word × Nat)
  tile   : Nat
  order  : Nat
  /-- the launch whose group must start the callee on the tile that a placement entry names (R357); 0 for any group of the context -/
  kern   : Nat := 0
deriving DecidableEq, Repr

inductive QStat where | disabled | idle | busy | held | draining
deriving DecidableEq, Repr

/-- A completion waiting to be written (R340). -/
structure Compl where
  tag    : Nat
  ctx    : Nat
  status : Nat
  value  : Word
  index  : Nat
  notify : Bool
deriving DecidableEq, Repr

/-- What a taken packet waits for: groups (kernel, rank) all SAVED or all RESIDENT, a context FREE, or the CREATE event of a new context (R335,
Table 14-1). -/
inductive Pend where
  | move (groups : List (Nat × Nat)) (restore : Bool)
  | free (ctx : Nat)
  | measure (ctx : Nat)
deriving DecidableEq, Repr

/-- A host queue (Tables 15-1 to 15-3, 15-7). `opened` lists the ring indices of packets taken and not completed, `pends` those of them that wait. -/
structure Queue where
  st     : QStat
  qbase  : Word
  vec    : BitVec 8
  loc    : Bool
  en     : Bool
  logn   : BitVec 5
  qhead  : BitVec 32
  qtail  : BitVec 32
  cbase  : Word
  ctail  : BitVec 32
  chead  : BitVec 32
  ringerr : Bool
  dberr  : Bool
  cfgerr : Bool
  opened : List Nat
  barrier : Option (Nat × Compl)
  compls : List Compl
  pends  : List (Pend × Compl)
deriving DecidableEq, Repr

/-- Per-function registers (Table 21-4) and the last value its host read returned (none: Completer Abort). -/
structure Func where
  pw2ctx  : BitVec 12
  pw2base : Word
  pw2err  : BitVec 32
  reply   : List (Option (List Byte))
deriving DecidableEq, Repr

/-- A peer-table entry (R338). `up`: one of its links has been UP to the device that it names, and since then not every one has FAILED. -/
structure Peer where
  valid  : Bool
  links  : BitVec 12
  devser : Word
  up     : Bool := false
deriving DecidableEq, Repr

/-! ### Links, firmware, device -/

inductive LStat where | down | training | up | quiescing | quiesced | retraining | failed
deriving DecidableEq, Repr

/-- A link (Tables 21-2, 21-5, 21-6) with the flit state of R414. `fails` are the hub times of failed training attempts, `since` that of its last entry into
RETRAINING or FAILED, `ackNs` that of the last acknowledgement, or of the first flit after it. -/
structure Link where
  st      : LStat
  trainFail : BitVec 8
  lanes   : BitVec 8
  rate    : BitVec 12
  quiescePending : Bool
  retrain : BitVec 16
  replay  : BitVec 24
  crcErr  : BitVec 24
  txSeq   : BitVec 12
  rxSeq   : BitVec 12
  retry   : List (BitVec 2048)
  /-- flits that wait for room in the retry buffer, or for the link to be UP: kind and payload -/
  unsent  : List (Nat × BitVec 1920) := []
  naks    : Nat
  nakSeq  : BitVec 12
  outbox  : List (BitVec 2048)
  inbox   : List (BitVec 2048)
  lctl    : BitVec 2
  fails   : List Nat
  since   : Nat
  ackNs   : Nat
deriving DecidableEq, Repr

/-- A segment record (Table 22-1). `signedGen` is the GEN in the bytes that its signature covers. -/
structure Seg where
  kind   : Nat
  gen    : Nat
  signedGen : Nat
  arg    : Word
  payload : List Byte
  digest : BitVec 256
  sig    : List Byte
  /-- the COMMIT field -/
  commit : BitVec 128
deriving DecidableEq, Repr

/-- COMMIT of a committed record: 16 bytes of 0xC3 (R424). -/
def Seg.mark : BitVec 128 := 0xC3C3C3C3C3C3C3C3C3C3C3C3C3C3C3C3
/-- A record counts only once its COMMIT field holds them. -/
def Seg.committed (g : Seg) : Bool := g.commit = Seg.mark

/-- A receipt request taken and not yet signed (R325 to R328). -/
structure ReceiptReq where
  queue  : Nat
  compl  : Compl
  ctx    : Nat
  nonce  : Word
  n      : Nat
  out    : Word
  seq    : Nat
  chain  : BitVec 256
  digs   : List (Nat × Word × BitVec 256)
deriving DecidableEq, Repr

/-- Firmware and the key store (chapter 22). -/
structure Firm where
  booted  : Option Nat
  version : Word
  meas    : BitVec 256
  running : Bool
  /-- when the booting image was loaded and started in the reeve tiles (R423, R425) -/
  bootNs  : Option Nat := none
  column  : Nat
  width   : Nat
  roles   : List (BitVec 4)
  segs    : List Seg
  failedGens : List Nat
  staged  : Option Seg
  checked : Bool
  window  : Bool
  held    : List ReceiptReq
  pend    : List ReceiptReq
  fwaddr  : Word
  fwlen   : Word
  fwstat  : BitVec 8
  fwgen   : Nat
  fwmin   : Word
  devser  : Word
  /-- one-time indices left in the reserved block (R431) -/
  keyNext : Nat
  keyEnd  : Nat
deriving DecidableEq, Repr

/-- A die's headroom register (Table 17-6): HEAD, EPOCH, and THR as it was last rewritten (R372). -/
structure Headroom where
  head  : BitVec 24
  epoch : BitVec 8
  thr   : Bool := false
deriving DecidableEq, Repr

/-- A `task.cancel`: its cycle, the id, the thread, its destination register and the status written there (R247, R347). -/
structure Cancel where
  cycle  : Nat
  id     : Word
  thread : Nat
  reg    : Nat
  status : Word
deriving DecidableEq, Repr

/-- The device's own registers and conditions. -/
structure Device where
  powered : Bool
  dieup   : BitVec 4
  hbmset  : BitVec 4
  service : BitVec 2
  plimit  : Nat
  active  : Nat
  headroom : Vector Headroom 4
  frame   : Vector (Vector (BitVec 16) 64) 4
  slot    : Vector Nat 4
  cycles  : Nat
  hubNs   : Nat
  thStopped : BitVec 4
  thThrottled : BitVec 4
  stackHalf : BitVec 16
  stackStop : BitVec 16
  hubHalf : Bool
  hubStop : Bool
  msix    : List (Nat × Nat)
  events  : List (Nat × Nat × Nat)
  /-- the queue from which the last packet was taken (R333) -/
  lastQ   : Nat
  /-- the cancels of tasks made in the last cycle that saw one (R347) -/
  cancels : List Cancel := []
  /-- the cycle up to which the timeouts of instances have counted (R203) -/
  counted : Nat := 0
deriving DecidableEq, Repr

/-- DIERST (Table 21-7: `stat`, `sel`) and the warm reset in progress (R420): its die and steps. `lost` are the dies whose targets give error replies (R421). -/
structure DieReset where
  stat   : BitVec 8
  sel    : BitVec 2
  die    : BitVec 2
  active : Bool
  moved  : Bool
  zeroed : Bool
  lost   : BitVec 4
deriving DecidableEq, Repr

/-- A coherence region's state (Table 20-5). -/
inductive RStat where
  | home | held (tile : Nat) | soft | switching
  | moving (peer : Nat) (soft out : Bool) | remote (peer : Nat) (soft : Bool)
deriving DecidableEq, Repr

/-- A twin object's face bit (R74, R405), with the context and virtual address that first reached it, log2 of its page's size and of its own; `gone`: it has
been unmapped since (R405). -/
structure Face where
  bit  : Bool
  ctx  : Nat
  va   : Nat
  bits : Nat
  size : Nat
  gone : Bool := false
deriving DecidableEq, Repr


/-- A collective (R271): the context and group of its first member, how many of its ranks are on this device, the errands of those that have issued, by
rank, what each has contributed, whether a member has failed or been cancelled, and whether every member has reached PUBLISHING. -/
structure Coll where
  ctx    : Nat
  group  : Nat
  nrank  : Nat
  members : List (Nat × Nat)
  failed : Bool
  src    : Tbl (List Byte) := []
  /-- the group table as it stood when the collective was formed (R337) -/
  table  : List Member := []
  ready  : Bool := false
deriving DecidableEq, Repr

/-- Which agent moves: a thread's turn, the firing of one graph instruction of an instance, a step of the device or the host, the host's read of a register
(R8), or the host's own write to its memory, which the device does not snoop (R304). -/
inductive Move where
  | thread (k : Nat)
  | node (inst ix : Nat)
  | event (i : Instr)
  | hostRead (func : Nat) (reg : HostReg)
  | hostMem (addr : Nat) (data : List Byte)
deriving DecidableEq, Repr, Inhabited

/-- Whose access a page walk or a request for a page serves (R401, R408): a thread's, a graph instruction's, an errand's, one of another step of the device, one
of the host; a prefetch waits for nothing. -/
inductive Mover where
  | thread (k : Nat)
  | node (inst ix : Nat)
  | errand (tile slot : Nat)
  | event (i : Instr)
  | host
  | nobody
deriving DecidableEq, Repr

/-- The agent that a move belongs to: the steps of one errand are those of one agent. -/
def Move.mover (m : Move) : Mover :=
  match m with
  | .thread k => .thread k
  | .node i ix => .node i ix
  | .hostRead _ _ => .host
  | .hostMem _ _ => .host
  | .event i => match i with
    | .errandQueued t n => .errand t n
    | .errandStart t n => .errand t n
    | .errandPreemptionPoint t n => .errand t n
    | .errandResume t n => .errand t n
    | .errandChunkDone t n => .errand t n
    | .errandPublish t n => .errand t n
    | .operandFetchFault t n => .errand t n
    | .fetchReplay t n => .errand t n
    | .replayTimeout t n => .errand t n
    | .hostPw2Read _ _ _ => .host
    | .hostPw2Write _ _ _ => .host
    | i => .event i

/-- A line to be prefetched: for a tile, or only into the L2 slice (`nt`), at the cost of an allotment (R148, R370). -/
structure Prefetch where
  tile  : Nat
  addr  : Word
  nt    : Bool
  allot : Option Nat
deriving DecidableEq, Repr

/-- A page walk, running or queued (R401): an address of its page and log2 of that one's size, the tiles that prefetch lines of it and those lines (R148), the
accesses that wait for it with their tiles, and its failure once it has ended, until they have had their turn. -/
structure Walk where
  die   : Nat
  ctx   : Nat
  va    : Word
  bits  : Nat := 16
  tiles : List Nat
  lines : List Prefetch
  waiting : List (Nat × Mover) := []
  res   : Option (BitVec 6 × Nat) := none
deriving DecidableEq, Repr

/-- An access that waits for a page that another device owns, or that an error reply awaits (R302, R408). -/
structure PageReq where
  tile : Nat
  ctx  : Nat
  page : Nat
  who  : Mover
deriving DecidableEq, Repr

/-- A request for the ownership of a page that a Mirfer link has carried and that is not answered yet: to this device's peer (`mine`), or from it (R302, R411,
R415). -/
structure Carry where
  link : Nat
  peer : Nat
  page : Nat
  mine : Bool
deriving DecidableEq, Repr

/-- A request of the host that has arrived and waits for an earlier one (R304). -/
inductive HostReq where
  | pw2Write (func off : Nat) (data : List Byte)
  | pw2Read (func off bytes : Nat)
  | regWrite (func : Nat) (reg : HostReg) (value : Word)
  | regRead (func : Nat) (reg : HostReg)
deriving DecidableEq, Repr

/-- The machine. Threads are keyed tile × 32 + tp (work-core context n: n; stage-core context n: 16 + n), tiles die × 128 + tile, and 1024 + kernel × 512 + rank for the
eviction area of a group (R322),
queues function × 16 + queue, poison and L2 lines by physical line address, faces by physical address of
the object's face 0, regions by physical address ÷ 65,536
(`softBy`: the context whose `cmode.soft` switched it). `owned`: pages of peer memory that this device owns; `grants`: hub time of a page's
last grant; `ownReqs`, `ownLost`: accesses that wait for a page, or that an error reply awaits; `carried`: requests for pages on the Mirfer links; `peerReqs`: queued requests for
regions of this device, in arrival order, by peer, 256 for this device itself (R302, R408); `hubWait`: set while a step of the hub finds that it must wait;
`posted`: the host's requests that wait, in order of arrival (R304); `mover`: the agent of the last move. -/
structure State where
  dev     : Device
  links   : Vector Link 21
  dierst  : DieReset
  queues  : Tbl Queue
  funcs   : Tbl Func
  peers   : Tbl Peer
  fw      : Firm
  ctxs    : Tbl Ctx
  kernels : Tbl Kernel
  tiles   : Tbl Tile
  threads : Tbl Thread
  acts    : Tbl Act
  insts   : Tbl Inst
  transit : List Transit
  tasks   : List Task
  colls   : Tbl Coll
  mem     : List Host.Cell
  poison  : Tbl (BitVec 128)
  hbmCorr : Tbl Nat
  hbmUnc  : Tbl Nat
  l2      : Tbl (BitVec 1024)
  regions : Tbl RStat
  softBy  : Tbl Nat
  excl    : Tbl Nat
  mapped  : Tbl Nat
  faces   : Tbl Face
  owned   : List Nat
  grants  : Tbl Nat
  ownReqs : List PageReq
  ownLost : List PageReq
  carried : List Carry
  peerReqs : List (Nat × Nat)
  hubWait : Bool
  posted  : List HostReq
  walks   : List Walk
  walkCache : List (Nat × TlbEntry)
  nextId  : Nat
  tick    : Nat
  agenda  : List Move
  mover   : Mover
  curThread : Nat
  curNode : Nat × Nat
deriving DecidableEq, Repr

/-- The faults that stop the machine: none of the spec's traps is one (they are taken as next states). -/
inductive Fault where
  /-- Raised by `step` when module power is gone (thermal trip or power loss, R30, R424) and the move is not a cold reset: the
  device does nothing more until then. Safe. -/
  | noPower
deriving DecidableEq, Repr

/-- The refusals. -/
inductive Refusal where
  /-- Raised by an arm of `exec` whose instruction has no meaning yet. Safe. -/
  | notModelled (mnemonic : String)
deriving DecidableEq, Repr

/-! ### Reset -/

/-- A free context of a core: registers zero and full, predicates and masks zero (R130; before any start log 1). -/
def Thread.reset : Thread :=
  { stat := .free, role := .lead, ctx := 0, kernel := 0, allot := 0
    x := Vector.replicate 64 0, v := Vector.replicate 32 0, full := BitVec.allOnes 96, pois := []
    p := 0, m := Vector.replicate 8 0, pc := 0, tickets := Vector.replicate 8 0, hold := 0, wait := .none, hwait := .none
    fills := [], stores := [], deferred := [], fstat := 0, warn := 0, cancelq := false, cmconf := 0, issued := 0
    tcause := 0, tepc := 0, taddr := 0, tinfo := 0, tvec := 0, tframe := 0, telem := 0, inh := false
    tsave := Vector.replicate 4 0, stackBase := 0, frame := none, xregs := 64, vregs := 32, traps := 0, scratch := 0, scratchAt := 0
    task := 0, started := 0 }

def Port.reset : Port := { bound := none, pat := 0, elem := 0, start := 0, inst := none }

/-- A tile with nothing placed on it (R67, R71, R234, R260, R265; FWALL Table 22-2). -/
def Tile.reset : Tile :=
  { group := none, spOwner := 0, vault := 0, bfmt := Vector.replicate 16 0, spmap := Vector.replicate 16 0
    spFilled := 0, spDirty := 0, sems := Vector.replicate 32 0, semQ := []
    bars := Vector.replicate 16 { gen := 0, arrived := [] }, l1 := [], icache := [], tlb := []
    macros := Vector.replicate 4 none, carried := [], frozen := 0, errands := []
    planes := Vector.replicate 4 none, ports := Vector.replicate 16 Port.reset, fwall := 0, records := [] }

/-- A free context number (Table 14-1; LMAX, MAPSEQ, MAPDONE Table 20-3). -/
def Ctx.reset : Ctx :=
  { st := .free, owner := 0, ptRoot := 0, logBase := 0, logL := 0, seq := 0, h := 0, allots := [], pending := none
    groups := [], objs := [], results := [], lmax := 16, mapseq := 0, mapdone := 0, mapq := [], lastTag := 0, tags := []
    taskNo := 0, serials := [] }

/-- A disabled queue, its registers zero (Table 15-1). -/
def Queue.reset : Queue :=
  { st := .disabled, qbase := 0, vec := 0, loc := false, en := false, logn := 0, qhead := 0, qtail := 0, cbase := 0
    ctail := 0, chead := 0, ringerr := false, dberr := false, cfgerr := false, opened := [], barrier := none, compls := [], pends := [] }

def Func.reset : Func := { pw2ctx := 0, pw2base := 0, pw2err := 0, reply := [] }
def Peer.reset : Peer := { valid := false, links := 0, devser := 0 }

/-- A link that is DOWN (Tables 21-5, 21-6; flit state log 24). -/
def Link.reset : Link :=
  { st := .down, trainFail := 0, lanes := 0, rate := 0, quiescePending := false, retrain := 0, replay := 0, crcErr := 0
    txSeq := 0, rxSeq := 0, retry := [], naks := 0, nakSeq := 0, outbox := [], inbox := [], lctl := 0, fails := [], since := 0, ackNs := 0 }

/-- Firmware state before the boot ROM has chosen an image (log 25). -/
def Firm.reset : Firm :=
  { booted := none, version := 0, meas := 0, running := false, column := 15, width := 4, roles := [1, 2, 4, 8]
    segs := [], failedGens := [], staged := none, checked := false, window := false, held := [], pend := []
    fwaddr := 0, fwlen := 0, fwstat := 0, fwgen := 0, fwmin := 0, devser := 0, keyNext := 0, keyEnd := 0 }

/-- The device's registers after a cold reset: DIEUP 0, HBMSET 0xF (Table 01-7), service level 0 (R428), 2,800 W (R29),
headroom zero (Table 17-6), every frame-table entry 0x00E4 (Table 17-4). -/
def Device.reset : Device :=
  { powered := true, dieup := 0, hbmset := 0xF, service := 0, plimit := 2800, active := 2800
    headroom := Vector.replicate 4 { head := 0, epoch := 0 }
    frame := Vector.replicate 4 (Vector.replicate 64 0x00E4), slot := Vector.replicate 4 0
    cycles := 0, hubNs := 0, thStopped := 0, thThrottled := 0, stackHalf := 0, stackStop := 0, hubHalf := false
    hubStop := false, msix := [], events := [], lastQ := 1023 }

/-- The machine right after a cold reset, before the boot ROM's first step (R423). -/
def State.reset : State :=
  { dev := Device.reset, links := Vector.replicate 21 Link.reset
    dierst := { stat := 0, sel := 0, die := 0, active := false, moved := false, zeroed := false, lost := 0 }
    queues := [], funcs := [], peers := [], fw := Firm.reset, ctxs := [], kernels := [], tiles := [], threads := []
    acts := [], insts := [], transit := [], tasks := [], colls := [], mem := [], poison := []
    hbmCorr := [], hbmUnc := [], l2 := [], regions := [], softBy := [], excl := [], mapped := [], faces := [], owned := [], grants := []
    ownReqs := [], ownLost := [], carried := [], peerReqs := [], hubWait := false, posted := []
    walks := [], walkCache := [], nextId := 1, tick := 0, agenda := [], mover := .nobody, curThread := 0, curNode := (0, 0) }

end Sys2Proof.Machine
end

