-- ==== Sys2Proof/Config.lean ====
section
/-!
DEFINITION. What the spec leaves open, as constants without a body: nothing in Lean can evaluate one or prove a value of one.
Each is named in the assumption log.
-/
namespace Sys2Proof.Config
open Sys2Proof

/-- Which agent moves next, when nothing is queued in `agenda` (log 3): the environment's free choice at each tick. -/
opaque nextMove : Nat → Machine.Move

/-- Core cycles and hub nanoseconds that pass in a step (R6, Table 10-2; log 4): free amounts. -/
opaque cyclesTaken : Nat → Nat
opaque nsTaken : Nat → Nat

/-- Which value within the bound of Table 08-2 a special function returns, and which side a correctly rounded result falls on
where the fixed-point enclosure cannot tell (R171; logs 9 and 10): a fixed function of opcode, format, rounding code, operand. -/
opaque specialPick : (opc fmt rm : Nat) → (bits : Nat) → Nat

/-- The device's HSS key pair (R326, R327; log 11): the 32 secret bytes of hash chain `chain` of one-time key `leaf` of tree `tree`, a tree's 16-byte
identifier, and the 32-byte randomiser of each signature. Tree 0 is the top one, tree 1 + i the one below its leaf i. -/
opaque hssSecret : (tree leaf chain : Nat) → BitVec 256
opaque hssId : (tree : Nat) → BitVec 128
opaque hssRandom : (tree leaf : Nat) → BitVec 256

/-- Whether an HSS signature verifies under Caerrek's image key (R424, R425; log 11). -/
opaque imageSigOk : (body sig : List Byte) → Bool

/-- Whether the reservations of isolated contexts, whose sums the device can supply, fit each die, controller and link too (R318; log 18). -/
opaque isolFits : Nat → Bool

/-- Address that firmware or a dispatcher would choose for its `nth` area at a step, in W0 memory of the context (R335, R351, R353; log 13). -/
opaque areaAt : (tick nth : Nat) → Nat

/-- What a unit of work costs in engine cycles and in µJ, and the bytes that HBM itself moves for a line that an agent fetches, writes or writes back, where its
L2 slice does not serve it (R370, Table 17-5; log 15). -/
opaque unitCycles : Nat → Nat
opaque unitEnergy : Nat → Nat
opaque lineBytes : (tick line : Nat) → Nat

/-- The pseudo-channel of an HBM line among the 256 of its die (R17; log 21). -/
opaque channelOf : Nat → Nat

/-- Frame registers of a tile's activations that its frame cache has spilled to the barn (R187, R194; log 95). -/
opaque frameSpill : (tick tile : Nat) → Nat

/-- What an atomic at system scope finds in a word that another device owns (R302; log 17): a free value. -/
opaque peerWord : Nat → Nat

/-- The host answers a request for a queue's ring with a completion error or Completer Abort (R455; log 107). -/
opaque hostFails : Nat → Bool

/-- What a peer's atomic at system scope on a word of this device is: its address, the word that it leaves, and the reply, to a word that is poisoned too (R17, R302, R413; log 17). -/
opaque peerAtomicAt : BitVec 1920 → Nat
opaque peerAtomicWord : BitVec 1920 → Nat → Nat
opaque peerAtomicReply : BitVec 1920 → Option Nat → BitVec 1920

/-- Serial that the device at the far end of a Mirfer link reports (R338; log 17). -/
opaque farSerial : Nat → Word

/-- The home device of a page that comes here has its region in the software-managed mode (R406; log 17). -/
opaque peerSoft : (page tick : Nat) → Bool

/-- Byte `i` of what rank `r` of a peer device contributes to a collective, and whether the peers' members fail (R271; log 103). -/
opaque collPeer : (coll r i : Nat) → Byte
opaque collPeerFails : Nat → Bool

/-- Which line a full L1, instruction cache or slice of the L2 gives up, and whether a fetch is served from a line that the instruction cache kept (logs 5
and 92). -/
opaque l1Victim : Nat → Nat
opaque icacheServes : Nat → Bool

/-- CRC of a flit's bytes 0 to 243, and the payloads of an ownership request, of a request, and of a part of a collective: R413 gives neither the polynomial nor
the layouts (log 24). -/
opaque flitCheck : BitVec 1952 → BitVec 64
opaque flitPayload : Nat → BitVec 1920
opaque requestPayload : (place tick : Nat) → BitVec 1920
opaque collPayload : (coll rank tick : Nat) → BitVec 1920

/-- Sources that the boot ROM lets through a reeve tile's firewall; the headroom to which firmware throttles a hot die, before it is bounded; the entries
that it writes into a frame table (R368); whether the flash has no room for a record of a length (R427, R30, R429; logs 16, 25 and 106). -/
opaque fwallBits : Nat → BitVec 4
opaque throttledHead : Nat → BitVec 24
opaque frameEntry : (tick die slot : Nat) → BitVec 16
opaque storeFull : (tick len : Nat) → Bool

/-- One less than the stores that a thread's store buffer holds (R365; log 5). -/
opaque storeRoom : Nat

/-- Entry address of a firmware image by its GEN; whether the flash controller erases a record that it may erase, by its GEN; what a DVSEC header holds beside the
IDs that R429 gives, by offset, and the vendor ID (R423, R424, R429; log 25). -/
opaque imageEntry : Nat → Word
opaque flashErases : (tick gen : Nat) → Bool
opaque dvsecRest : Nat → BitVec 16
opaque vendorId : BitVec 16

end Sys2Proof.Config
end

