-- ==== Sys2Proof/Decode.lean ====
section
/-!
DEFINITION. The decoder of C bundles and graph words, total on any 128 bits and rejecting by name, and the encoder beside it.
Encodings: Tables 05-2, 05-5, 05-6, 05-11, 05-12, 09-2, 11-1 to 11-3; checks of R90 steps 5 and 6, R92, R98, R106, R192.
-/
namespace Sys2Proof

/-! ### Fields -/

/-- Bits `lo` to `lo + n - 1` of a number. -/
def bitsOf (w lo n : Nat) : Nat := (w >>> lo) % 2 ^ n

namespace CForm
/-- `FMT`, MOD[40:36] (Table 05-5). -/
def fmt (f : CForm) : Nat := bitsOf f.md.toNat 0 5
/-- MOD[43:41]: `VAR` or `RND`. -/
def var (f : CForm) : Nat := bitsOf f.md.toNat 5 3
/-- MOD[44]: `SAT`. -/
def sat (f : CForm) : Bool := f.md.getLsbD 8
/-- MOD[45]: `SGN` or `FTZ`. -/
def sgn (f : CForm) : Bool := f.md.getLsbD 9
/-- MOD[46]: `ZRO`. -/
def zro (f : CForm) : Bool := f.md.getLsbD 10
/-- MOD[47:46]: `ORD` (memory and sync groups). -/
def ord (f : CForm) : Nat := bitsOf f.md.toNat 10 2
/-- MOD[45:44]: `SCOPE` (memory, sync and system groups). -/
def scope (f : CForm) : Nat := bitsOf f.md.toNat 8 2
/-- MOD[41]: `NT` (memory group). -/
def nt (f : CForm) : Bool := f.md.getLsbD 5
/-- `imm44()` (R111). -/
def simm (f : CForm) : Word := f.imm.signExtend 64
/-- The 128 bits of the bundle (Table 05-2). -/
def word (f : CForm) (opc : BitVec 8) : IWord :=
  f.rsv ++ f.fem ++ f.park ++ f.keep ++ f.need ++ f.tkn ++ f.hold ++ f.imm ++ f.prd ++ f.md ++ f.c ++ f.b ++ f.a ++ f.d ++ opc ++ f.cls
end CForm

namespace GForm
/-- `FMT`, MOD[46:42], and `SAT`, MOD[47] (Table 05-12). -/
def fmt (f : GForm) : Nat := bitsOf f.md.toNat 0 5
def sat (f : GForm) : Bool := f.md.getLsbD 5
/-- `XMOD`, IMM[47:40] (R106). -/
def xmod (f : GForm) : Nat := bitsOf f.imm.toNat 40 8
def var (f : GForm) : Nat := bitsOf f.xmod 0 3
def sgn (f : GForm) : Bool := f.imm.getLsbD 43
def scope (f : GForm) : Nat := bitsOf f.xmod 4 2
def ord (f : GForm) : Nat := bitsOf f.xmod 6 2
/-- `sext(IMM[39:0], 40)` and `sext(IMM, 48)`. -/
def imm40 (f : GForm) : Word := (f.imm.extractLsb' 0 40).signExtend 64
def imm48 (f : GForm) : Word := f.imm.signExtend 64
/-- The 128 bits of the graph word (Table 05-12). -/
def word (f : GForm) (opc : BitVec 8) : IWord :=
  f.rsv ++ f.place ++ f.imm ++ f.md ++ f.lsid ++ f.t1 ++ f.t0 ++ f.urg ++ f.pmode ++ f.nopnd ++ opc ++ (12#4)
end GForm

/-- The fields of a 128-bit word read as a C bundle. -/
def cFields (w : IWord) : CForm :=
  { cls := w.extractLsb' 0 4, d := w.extractLsb' 12 6, a := w.extractLsb' 18 6, b := w.extractLsb' 24 6
    c := w.extractLsb' 30 6, md := w.extractLsb' 36 12, prd := w.extractLsb' 48 4, imm := w.extractLsb' 52 44
    hold := w.extractLsb' 96 4, tkn := w.extractLsb' 100 4, need := w.extractLsb' 104 8, keep := w.extractLsb' 112 4
    park := w.extractLsb' 116 1, fem := w.extractLsb' 117 3, rsv := w.extractLsb' 120 8 }

/-- The fields of a 128-bit word read as a graph word. -/
def gFields (w : IWord) : GForm :=
  { nopnd := w.extractLsb' 12 2, pmode := w.extractLsb' 14 2, urg := w.extractLsb' 16 1, t0 := w.extractLsb' 17 10
    t1 := w.extractLsb' 27 10, lsid := w.extractLsb' 37 5, md := w.extractLsb' 42 6, imm := w.extractLsb' 48 48
    place := w.extractLsb' 96 7, rsv := w.extractLsb' 103 25 }

/-! ### What each opcode uses -/

/-- Register kinds a field may name (R91). -/
inductive Kind where | no | x | v | p | m
deriving DecidableEq, Repr

/-- The fields a C opcode uses: register kinds, whether `D` is also read, the `IMM` and `MOD` bits that are not reserved, and
whether `PRD` is used (R91, R92, Tables 05-5, 11-2, 11-3). -/
structure Use where
  d   : Kind := .no
  dRd : Bool := false
  a   : Kind := .no
  b   : Kind := .no
  c   : Kind := .no
  imm : Nat := 0
  md  : Nat := 0
  prd : Bool := true
deriving DecidableEq, Repr

/-- All 44 bits of `IMM`. -/
def immAll : Nat := 2 ^ 44 - 1

/-- Opcode groups of Table 05-5. -/
inductive Grp where | int | flt | vec | mem | syn | ctl | eng | sys | bad
deriving DecidableEq, Repr

def grpOf (opc : Nat) : Grp :=
  if opc ≤ 0x1E then .int
  else if 0x20 ≤ opc && opc ≤ 0x2C || 0x30 ≤ opc && opc ≤ 0x39 then .flt
  else if 0x40 ≤ opc && opc ≤ 0x52 then .vec
  else if 0x60 ≤ opc && opc ≤ 0x6A then .mem
  else if 0x70 ≤ opc && opc ≤ 0x7F then .syn
  else if 0x80 ≤ opc && opc ≤ 0x85 then .ctl
  else if 0x90 ≤ opc && opc ≤ 0x99 || 0xA0 ≤ opc && opc ≤ 0xA6 then .eng
  else if 0xB0 ≤ opc && opc ≤ 0xBC then .sys
  else .bad

/-- Number of register or immediate sources of opcodes 0x00 to 0x39 (Tables 07-1, 08-1, 08-2). -/
def arity (opc : Nat) : Nat :=
  match opc with
  | 0x00 => 0 | 0x07 => 3 | 0x12 => 3 | 0x13 => 1 | 0x14 => 1 | 0x15 => 1 | 0x17 => 3 | 0x1A => 1 | 0x1B => 0 | 0x1C => 1
  | 0x1D => 0 | 0x1E => 1 | 0x23 => 3 | 0x28 => 1 | 0x29 => 1 | 0x2A => 1 | 0x2C => 1
  | _ => if 0x30 ≤ opc then 1 else 2

/-- Fields used by the integer, float and special-function opcodes in class R (0), I (1) or V (4). -/
def useArith (opc : Nat) (f : CForm) : Use :=
  let v := f.cls = 4
  let r : Kind := if v then .v else .x
  let pm : Kind := if v then .m else .p
  let md := if opc = 0x00 then 0x01F else 0x7FF
  let n := if opc = 0x27 && f.var ≠ 2 then 1 else arity opc
  let i := f.cls = 1
  { d := if opc = 0x00 then .no else if opc = 0x11 || opc = 0x26 then pm else r
    dRd := opc = 0x1C
    a := if opc = 0x1B || opc = 0x1C || opc = 0x1D || n = 0 then .no else r
    b := if n ≥ 2 && !i then r else .no
    c := if n ≥ 3 then (if opc = 0x12 then pm else r) else .no
    imm := if opc = 0x28 then 0x3F
           else if opc = 0x1C then 0xFFFFF
           else if opc = 0x1B || opc = 0x1D then immAll
           else if i && n ≥ 2 then immAll else 0
    md := md }

/-- Fields used by the vector opcodes (Table 08-3, R173 to R177). -/
def useVec (opc : Nat) (f : CForm) : Use :=
  match opc with
  | 0x40 => { d := .v, a := .x, md := 0x7FF }
  | 0x41 => { d := .v, a := .v, b := .v, md := 0x7FF }
  | 0x42 => { d := .x, a := .v, imm := 7, md := 0x7FF }
  | 0x43 => { d := .v, a := .v, imm := 7, md := 0x7FF }
  | 0x44 => { d := .m, a := .v, b := .v, md := 0x7FF }
  | 0x45 => { d := .v, a := .v, b := .v, md := 0x7FF }
  | 0x46 => { d := .v, a := .v, md := 0x7FF }
  | 0x47 => { d := .v, a := .v, md := 0x7FF }
  | 0x48 => { d := .v, md := 0x7FF }
  | 0x49 => { d := .v, dRd := true, a := .x, b := .x, md := 0x7FF, prd := false }
  | 0x4A => { d := .x, a := .v, b := .x, md := 0x7FF, prd := false }
  | 0x4B => { d := .m, a := .m, b := if f.var = 4 then .no else .m, md := 0x7FF, prd := false }
  | 0x4C => { d := .x, a := .m, md := 0x7FF }
  | 0x4D => { d := .x, a := .m, md := 0x7FF }
  | 0x4E => { d := .v, a := .v, b := .v, imm := 0x1F, md := 0x7FF }
  | 0x4F => { d := .v, a := .v, imm := 0x5F, md := 0x7FF }
  | 0x50 => { d := .v, a := .v, b := .v, c := .v, md := 0x7FF }
  | 0x51 => { d := .v, a := .v, md := 0x7FF }
  | _    => { d := .v, a := .v, b := .x, md := 0x7FF }

/-- Fields used by the memory, sync, control, engine, handle and system opcodes. -/
def useRest (opc : Nat) (f : CForm) : Use :=
  match opc with
  | 0x60 => { d := .x, a := .x, imm := immAll, md := 0xF3F }
  | 0x61 => { a := .x, b := .x, imm := immAll, md := 0xF3F }
  | 0x62 => { d := .v, a := .x, imm := immAll, md := 0xF3F }
  | 0x63 => { a := .x, b := .v, imm := immAll, md := 0xF3F }
  | 0x64 => { d := .v, a := .x, b := .v, imm := immAll, md := 0xF3F }
  | 0x65 => { a := .x, b := .v, c := .v, imm := immAll, md := 0xF3F }
  | 0x66 => { d := .v, a := .x, b := .x, imm := immAll, md := 0xF3F }
  | 0x67 => { a := .x, b := .x, c := .v, imm := immAll, md := 0xF3F }
  | 0x68 => { a := .x, imm := immAll, md := 0xF3F }
  | 0x69 => { a := .x, b := .x, imm := immAll, md := 0xF3F }
  | 0x6A => { a := .x, b := .x, imm := immAll, md := 0xF3F }
  | 0x70 => { d := .x, a := .x, b := .x, imm := immAll, md := 0xFFF }
  | 0x71 => { d := .x, a := .x, b := .x, c := .x, imm := immAll, md := 0xFFF }
  | 0x72 => { md := 0xFFF }
  | 0x73 => { a := .x, b := .x, imm := immAll, md := 0xFFF }
  | 0x74 => { a := .x, b := .x, imm := immAll, md := 0xFFF }
  | 0x75 => { a := .x, b := .x, imm := immAll, md := 0xFFF }
  | 0x76 => { d := .x, a := .x, imm := immAll, md := 0xFFF }
  | 0x77 => { a := .x, b := .x, imm := immAll, md := 0xFFF }
  | 0x78 => { a := .x, b := .x, imm := immAll, md := 0xFFF }
  | 0x7E => { a := .x, b := .x, md := 0xFFF }
  | 0x7F => {}
  | 0x80 => { imm := immAll - 15 }
  | 0x81 => { a := .x, imm := immAll }
  | 0x82 => { a := .x }
  | 0x83 => { imm := immAll }
  | 0x84 => { a := .x }
  | 0x85 => {}
  | 0x90 => { d := .x, a := .x, b := .x, c := if f.imm.getLsbD 43 then .x else .no, imm := 0x8FFFFFFFFFF, md := 0xFFF }
  | 0x91 => { d := .x, a := .x, imm := 0x7FFFFFF000, md := 0x09F }
  | 0x92 => { d := .x, a := .x, b := .x, c := .x, imm := 0x3FFFF, md := 0xFFF }
  | 0x93 => { d := .x, a := .x, b := .x, c := .x, imm := 0x3FFFF, md := 0xFFF }
  | 0x94 => { d := .x, a := .x, b := .x, imm := 0x3FFFF, md := 0xC40 }
  | 0x95 => { d := .x, a := .x, b := .x, c := .x, imm := 0x3FFFFFFFFFF, md := 0xFFF }
  | 0x96 => { d := .x, a := .x, b := .x, c := .x, imm := 0x3FFFF, md := 0xCFF }
  | 0x97 => { a := .x, b := .x, imm := 0xC0000 }
  | 0x98 => { d := .x, a := .x, imm := 0x3C0000 }
  | 0x99 => { d := .x }
  | 0xA0 => { d := .x, a := .x, md := 0x020 }
  | 0xA5 => { d := .x, a := .x, b := .x }
  | 0xB0 => { a := .x, b := .x, c := .x, md := 0x300 }
  | 0xB1 => { d := .x, a := .x, md := 0x300 }
  | 0xB2 => { d := .x, imm := 0xFFF, md := 0x300 }
  | 0xB3 => { a := .x, imm := 0xFFF, md := 0x300 }
  | 0xB4 => { a := .x, imm := immAll, md := 0x300 }
  | 0xB5 => { md := 0x300 }
  | 0xB6 => { imm := 0xFFFF, md := 0x300 }
  | 0xB7 => { imm := 0xFFFF, md := 0x300 }
  | 0xB8 => { d := .x, a := .x, md := 0x300 }
  | 0xB9 => { a := .x, b := .x, md := 0x300 }
  | 0xBA => { d := .x, a := .x, b := .x, md := 0x300 }
  | 0xBB => { md := 0x300 }
  | 0xBC => { d := .x, a := .x, md := 0x300 }
  | _ => if 0x79 ≤ opc && opc ≤ 0x7D then { a := .x, imm := immAll, md := 0xFFF } else { d := .x, a := .x }

/-- The fields a C opcode uses under the form's class. -/
def useOf (opc : Nat) (f : CForm) : Use :=
  match grpOf opc with
  | .int | .flt => useArith opc f
  | .vec => useVec opc f
  | _ => useRest opc f

/-! ### Legality -/

/-- Classes under which a C bundle accepts an opcode (Table 05-11). -/
def classOk (opc cls : Nat) : Bool :=
  match grpOf opc with
  | .int => if opc = 0x1A then cls = 0 || cls = 4
            else if 0x1B ≤ opc && opc ≤ 0x1D then cls = 1
            else if opc = 0x00 then cls = 0 || cls = 1 || cls = 4
            else cls = 0 || cls = 1 || cls = 4
  | .flt => cls = 0 || cls = 4
  | .vec => cls = 4
  | .mem => cls = 2
  | .syn => cls = 6
  | .ctl => cls = 3
  | .eng => cls = 5
  | .sys => cls = 7
  | .bad => false

/-- Largest `VAR` accepted, for opcodes with a `VAR` in [43:41] (Table 05-6, R237); none where [43:41] holds `RND`, is not a
modifier, or is reserved. -/
def varMax (opc : Nat) : Option Nat :=
  match opc with
  | 0x04 => some 2 | 0x11 => some 5 | 0x26 => some 5 | 0x44 => some 5 | 0x27 => some 2 | 0x4B => some 4
  | 0x42 => some 5 | 0x43 => some 5 | 0x70 => some 7 | 0x7D => some 1 | 0x7E => some 1 | 0x7F => none
  | _ => if 0x71 ≤ opc && opc ≤ 0x7C then some 0 else none

/-- The opcode's group has an `FMT` (Table 05-5; for engines, Table 11-2). -/
def hasFmt (opc : Nat) : Bool :=
  match grpOf opc with
  | .int | .flt | .vec | .mem => true
  | .syn => opc ≠ 0x7F
  | .eng => opc = 0x90 || opc = 0x91 || opc = 0x92 || opc = 0x93 || opc = 0x95 || opc = 0x96
  | _ => false

/-- Formats by kind (Table 02-1): integers 0–11, IEEE 12–15. -/
def isIntFmt (k : Nat) : Bool := k ≤ 11
def isIeee (k : Nat) : Bool := 12 ≤ k && k ≤ 15
/-- 64-bit containers (R160). -/
def is64 (k : Nat) : Bool := k = 6 || k = 7 || k = 15 || k = 23
/-- Formats that have a scaled form (R50): i4, i8, t2, e4m3, e5m2, the tapered formats. -/
def scalable (k : Nat) : Bool := k = 0 || k = 8 || k = 11 || 16 ≤ k && k ≤ 22
/-- Formats with a width class (Table 02-1). -/
def hasClass (k : Nat) : Bool := k ≤ 3 || 8 ≤ k && k ≤ 14 || 16 ≤ k && k ≤ 22
/-- Formats whose packed elements are not whole bytes of their own (Table 07-5). -/
def isPacked (k : Nat) : Bool := 8 ≤ k && k ≤ 11 || k = 21 || k = 22

/-- `fcvt`'s use of `FMT` and `IMM[5:0]` is one that R170 allows. -/
def fcvtOk (dst src : Nat) (sc vec : Bool) : Bool :=
  src ≤ 23 && (!sc || scalable src || scalable dst) && (!vec || (is64 dst = is64 src))

/-- The state registers of Table 10-2. -/
def srKnown (n : Nat) : Bool :=
  n ≤ 4 || 8 ≤ n && n ≤ 10 || 0x10 ≤ n && n ≤ 0x1F || 0x20 ≤ n && n ≤ 0x2F || 0x30 ≤ n && n ≤ 0x3B ||
  n = 0x40 || n = 0x41 || 0x50 ≤ n && n ≤ 0x52

/-- `FMT` (and the source format) is one the C opcode accepts at decode. -/
def fmtOk (opc : Nat) (f : CForm) : Bool :=
  let k := f.fmt
  let s := bitsOf f.imm.toNat 0 5
  if !hasFmt opc then true
  else if k ≥ 24 then false
  else match opc with
  | 0x28 => fcvtOk k s (f.imm.getLsbD 5) (f.cls = 4)
  | 0x42 => (isIntFmt k || isIeee k) && (isIntFmt k || f.var ≤ 2)
  | 0x43 => (isIntFmt k || isIeee k) && (isIntFmt k || f.var ≤ 2)
  | 0x4E => s ≤ 23 && is64 s && !is64 k && !f.imm.getLsbD 5 && bitsOf f.imm.toNat 7 37 = 0
  | 0x4F => s ≤ 23 && !is64 s && is64 k && !f.imm.getLsbD 5 && bitsOf f.imm.toNat 7 37 = 0
  | 0x50 => k ≤ 3 || k = 8 || k = 9 || k = 12 || k = 13 || 16 ≤ k && k ≤ 20
  | 0x60 => !isPacked k
  | 0x61 => !isPacked k
  | 0x64 => !isPacked k
  | 0x65 => !isPacked k
  | 0x66 => !isPacked k
  | 0x67 => !isPacked k
  | 0x70 => if f.var = 7 then k = 14 || k = 15 else 4 ≤ k && k ≤ 7
  | 0x71 => 4 ≤ k && k ≤ 7
  | 0x90 => k = 23 || hasClass k
  | 0x91 => k = 23 || hasClass k
  | 0x92 => k = 23 || hasClass k
  | 0x95 => 4 ≤ k && k ≤ 7
  | _ => true

/-- A register field names a register of its kind (R92). -/
def fieldOk (k : Kind) (r : BitVec 6) : Bool :=
  match k with
  | .v => r.toNat < 32
  | .p | .m => r.toNat < 8
  | _ => true

/-- The C bundle passes R90 step 6 for a thread with all registers: opcode under its class, `VAR`, formats, register fields. -/
def legalC (opc : Nat) (f : CForm) : Bool :=
  let u := useOf opc f
  classOk opc f.cls.toNat && fmtOk opc f &&
  (match varMax opc with | some n => f.var ≤ n | none => true) &&
  fieldOk u.d f.d && fieldOk u.a f.a && fieldOk u.b f.b && fieldOk u.c f.c &&
  ((opc ≠ 0xB2 && opc ≠ 0xB3) || srKnown (bitsOf f.imm.toNat 0 12))

/-- Opcodes accepted in a graph word (Table 05-11). -/
def gOk (opc : Nat) : Bool :=
  opc ≤ 0x1E || grpOf opc = .flt || opc = 0x60 || opc = 0x61 || opc = 0x68 || 0x70 ≤ opc && opc ≤ 0x74 || opc = 0x76 || opc = 0x78 ||
  0x80 ≤ opc && opc ≤ 0x8D || opc = 0x93 || opc = 0x95 || opc = 0x97 || opc = 0xA0 || opc = 0xA1

/-- `NOPND` values accepted (Table 09-2; R155 to R159, R226, R227, R282; Table 07-1 for the rest). -/
def nopndOk (opc n : Nat) : Bool :=
  match opc with
  | 0x1B => n ≤ 1 | 0x1C => n = 1 | 0x1D => n ≤ 1
  | 0x60 => n ≤ 2 | 0x61 => n = 2 || n = 3 | 0x68 => n ≤ 2
  | 0x70 => n ≤ 2 | 0x71 => n ≤ 3 | 0x72 => n ≤ 1 | 0x73 => n ≤ 2 | 0x74 => n ≤ 2 | 0x76 => n ≤ 1 | 0x78 => n ≤ 3
  | 0x80 => n = 0 | 0x81 => n = 1 | 0x82 => n = 1 | 0x83 => n ≤ 1 | 0x84 => n = 1 || n = 2 | 0x85 => n = 1
  | 0x86 => n ≤ 1 | 0x87 => n = 1 || n = 2 | 0x88 => n = 1 | 0x89 => n ≤ 1 | 0x8A => n = 2 | 0x8B => n = 1 | 0x8C => n = 1 | 0x8D => n = 2
  | 0x93 => n ≤ 3 | 0x95 => n ≤ 3 | 0x97 => n ≤ 2 | 0xA0 => n ≤ 1 | 0xA1 => n ≤ 1
  | _ => n ≤ arity opc

/-- The graph word's format and variant are accepted (R192 last row, R211, R224, R267). -/
def gFmtOk (opc : Nat) (f : GForm) : Bool :=
  let k := f.fmt
  let s := bitsOf f.imm.toNat 0 5
  if !(hasFmt opc || opc = 0x8C) then true
  else if k ≥ 24 then false
  else match opc with
  | 0x28 => fcvtOk k s (f.imm.getLsbD 5) false
  | 0x60 => !isPacked k
  | 0x61 => !isPacked k
  | 0x70 => if f.var = 7 then k = 14 || k = 15 else 4 ≤ k && k ≤ 7
  | 0x71 => 4 ≤ k && k ≤ 7
  | 0x95 => 4 ≤ k && k ≤ 7
  | 0x8C => 4 ≤ k && k ≤ 7 || isIeee k || k = 23
  | _ => true

/-- The variant of a graph word is accepted; `cp` and `gath` keep `DIRECT`, `ORDB`, `MINE` in `XMOD` (R282). -/
def gVarOk (opc : Nat) (f : GForm) : Bool :=
  match varMax opc with | some n => f.var ≤ n | none => true

/-- A mode or dimension field marked reserved in Table 09-2 does not appear. -/
def gModeOk (opc : Nat) (f : GForm) : Bool :=
  if opc = 0x8C then bitsOf f.imm.toNat 0 2 ≠ 3
  else if opc = 0x8D then bitsOf f.imm.toNat 0 2 ≤ 1 && (bitsOf f.imm.toNat 0 2 = 0 || bitsOf f.imm.toNat 2 2 ≠ 3)
  else true

/-- Opcodes that take no targets (Table 09-1). -/
def noTargets (opc : Nat) : Bool := opc = 0x86 || opc = 0x8B || opc = 0x61 || opc = 0x72 || opc = 0x73

/-- The checks of Table 09-1 that concern one graph word by itself. -/
def legalG (opc : Nat) (f : GForm) : Bool :=
  gOk opc && gFmtOk opc f && gVarOk opc f && f.pmode ≠ 3 && nopndOk opc f.nopnd.toNat && gModeOk opc f &&
  !(noTargets opc && (f.t0.getLsbD 9 || f.t1.getLsbD 9))

/-! ### Decoding -/

/-- Why a word is rejected: the causes of R90 steps 5 and 6 and of Table 09-1. -/
inductive DecErr where
  | illegalCls | poolExec | illegalOpc | blockEntry
deriving DecidableEq, Repr

/-- The instruction of a C opcode. -/
def mkC (opc : Nat) (f : CForm) : Option Instr :=
  match opc with
  | 0x00 => some (.nop (.c f))
  | 0x01 => some (.add (.c f))
  | 0x02 => some (.sub (.c f))
  | 0x03 => some (.mul (.c f))
  | 0x04 => some (.mulh (.c f))
  | 0x05 => some (.div (.c f))
  | 0x06 => some (.rem (.c f))
  | 0x07 => some (.madd (.c f))
  | 0x08 => some (.and (.c f))
  | 0x09 => some (.or (.c f))
  | 0x0A => some (.xor (.c f))
  | 0x0B => some (.andn (.c f))
  | 0x0C => some (.shl (.c f))
  | 0x0D => some (.shr (.c f))
  | 0x0E => some (.rot (.c f))
  | 0x0F => some (.min (.c f))
  | 0x10 => some (.max (.c f))
  | 0x11 => some (.cmp (.c f))
  | 0x12 => some (.sel (.c f))
  | 0x13 => some (.clz (.c f))
  | 0x14 => some (.popc (.c f))
  | 0x15 => some (.brev (.c f))
  | 0x16 => some (.bfx (.c f))
  | 0x17 => some (.bfi (.c f))
  | 0x18 => some (.sext (.c f))
  | 0x19 => some (.zext (.c f))
  | 0x1A => some (.mov (.c f))
  | 0x1B => some (.li (.c f))
  | 0x1C => some (.lih (.c f))
  | 0x1D => some (.adr (.c f))
  | 0x1E => some (.abs (.c f))
  | 0x20 => some (.fadd (.c f))
  | 0x21 => some (.fsub (.c f))
  | 0x22 => some (.fmul (.c f))
  | 0x23 => some (.fma (.c f))
  | 0x24 => some (.fmin (.c f))
  | 0x25 => some (.fmax (.c f))
  | 0x26 => some (.fcmp (.c f))
  | 0x27 => some (.fsgn (.c f))
  | 0x28 => some (.fcvt (.c f))
  | 0x29 => some (.fcls (.c f))
  | 0x2A => some (.frnd (.c f))
  | 0x2B => some (.fdiv (.c f))
  | 0x2C => some (.fsqrt (.c f))
  | 0x30 => some (.frcp (.c f))
  | 0x31 => some (.frsq (.c f))
  | 0x32 => some (.fex2 (.c f))
  | 0x33 => some (.flg2 (.c f))
  | 0x34 => some (.fsin (.c f))
  | 0x35 => some (.fcos (.c f))
  | 0x36 => some (.ftanh (.c f))
  | 0x37 => some (.fsigm (.c f))
  | 0x38 => some (.fgelu (.c f))
  | 0x39 => some (.fsilu (.c f))
  | 0x40 => some (.vbcast f)
  | 0x41 => some (.vperm f)
  | 0x42 => some (.vred f)
  | 0x43 => some (.vscan f)
  | 0x44 => some (.vcmp f)
  | 0x45 => some (.vmerge f)
  | 0x46 => some (.vcomp f)
  | 0x47 => some (.vspread f)
  | 0x48 => some (.vlane f)
  | 0x49 => some (.vins f)
  | 0x4A => some (.vext f)
  | 0x4B => some (.mlog f)
  | 0x4C => some (.mpop f)
  | 0x4D => some (.mfirst f)
  | 0x4E => some (.vnarrow f)
  | 0x4F => some (.vwiden f)
  | 0x50 => some (.vdot f)
  | 0x51 => some (.vrev f)
  | 0x52 => some (.vrot f)
  | 0x60 => some (.ld (.c f))
  | 0x61 => some (.st (.c f))
  | 0x68 => some (.prf (.c f))
  | 0x62 => some (.vld f)
  | 0x63 => some (.vst f)
  | 0x64 => some (.vgat f)
  | 0x65 => some (.vsct f)
  | 0x66 => some (.vlds f)
  | 0x67 => some (.vsts f)
  | 0x69 => some (.cwb f)
  | 0x6A => some (.cinv f)
  | 0x70 => some (.amo (.c f))
  | 0x71 => some (.cas (.c f))
  | 0x72 => some (.fence (.c f))
  | 0x73 => some (.pub (.c f))
  | 0x74 => some (.synPost (.c f))
  | 0x76 => some (.synRead (.c f))
  | 0x75 => some (.synWait f)
  | 0x78 => some (.ctrAdd (.c f))
  | 0x77 => some (.ctrWait f)
  | 0x79 => some (.semSig f)
  | 0x7A => some (.semWait f)
  | 0x7B => some (.barArr f)
  | 0x7C => some (.barWait f)
  | 0x7F => some (.tfence f)
  | 0x80 => some (.br (.c f))
  | 0x81 => some (.jmp (.c f))
  | 0x82 => some (.jmpr (.c f))
  | 0x83 => some (.call (.c f))
  | 0x84 => some (.callr (.c f))
  | 0x85 => some (.ret (.c f))
  | 0x90 => some (.mm f)
  | 0x91 => some (.mmb f)
  | 0x92 => some (.rstep f)
  | 0x93 => some (.cp (.c f))
  | 0x95 => some (.gath (.c f))
  | 0x94 => some (.cps f)
  | 0x97 => some (.slotFree (.c f))
  | 0x96 => some (.coll f)
  | 0x98 => some (.sbind f)
  | 0x99 => some (.sbar f)
  | 0xA0 => some (.eWait (.c f))
  | 0xA1 => some (.eTest (.c f))
  | 0xA2 => some (.eCancel f)
  | 0xA3 => some (.eDetach f)
  | 0xA4 => some (.eAdopt f)
  | 0xA5 => some (.ePrio f)
  | 0xA6 => some (.eFault f)
  | 0xB0 => some (.ctxStart f)
  | 0xB1 => some (.ctxReap f)
  | 0xB2 => some (.getsr f)
  | 0xB3 => some (.setsr f)
  | 0xB4 => some (.yield f)
  | 0xB5 => some (.halt f)
  | 0xB6 => some (.trap f)
  | 0xB7 => some (.brk f)
  | 0xB8 => some (.taskPost f)
  | 0xB9 => some (.chanBlk f)
  | 0xBA => some (.meas f)
  | 0xBB => some (.eret f)
  | 0xBC => some (.taskCancel f)
  | 0x7D => some (if f.var = 1 then .gbarWait f else .gbarArr f)
  | 0x7E => some (if f.var = 1 then .cmodeSoft f else .cmodeCoh f)
  | _ => none

/-- The instruction of a graph opcode. -/
def mkG (opc : Nat) (f : GForm) : Option Instr :=
  match opc with
  | 0x00 => some (.nop (.g f))
  | 0x01 => some (.add (.g f))
  | 0x02 => some (.sub (.g f))
  | 0x03 => some (.mul (.g f))
  | 0x04 => some (.mulh (.g f))
  | 0x05 => some (.div (.g f))
  | 0x06 => some (.rem (.g f))
  | 0x07 => some (.madd (.g f))
  | 0x08 => some (.and (.g f))
  | 0x09 => some (.or (.g f))
  | 0x0A => some (.xor (.g f))
  | 0x0B => some (.andn (.g f))
  | 0x0C => some (.shl (.g f))
  | 0x0D => some (.shr (.g f))
  | 0x0E => some (.rot (.g f))
  | 0x0F => some (.min (.g f))
  | 0x10 => some (.max (.g f))
  | 0x11 => some (.cmp (.g f))
  | 0x12 => some (.sel (.g f))
  | 0x13 => some (.clz (.g f))
  | 0x14 => some (.popc (.g f))
  | 0x15 => some (.brev (.g f))
  | 0x16 => some (.bfx (.g f))
  | 0x17 => some (.bfi (.g f))
  | 0x18 => some (.sext (.g f))
  | 0x19 => some (.zext (.g f))
  | 0x1A => some (.mov (.g f))
  | 0x1B => some (.li (.g f))
  | 0x1C => some (.lih (.g f))
  | 0x1D => some (.adr (.g f))
  | 0x1E => some (.abs (.g f))
  | 0x20 => some (.fadd (.g f))
  | 0x21 => some (.fsub (.g f))
  | 0x22 => some (.fmul (.g f))
  | 0x23 => some (.fma (.g f))
  | 0x24 => some (.fmin (.g f))
  | 0x25 => some (.fmax (.g f))
  | 0x26 => some (.fcmp (.g f))
  | 0x27 => some (.fsgn (.g f))
  | 0x28 => some (.fcvt (.g f))
  | 0x29 => some (.fcls (.g f))
  | 0x2A => some (.frnd (.g f))
  | 0x2B => some (.fdiv (.g f))
  | 0x2C => some (.fsqrt (.g f))
  | 0x30 => some (.frcp (.g f))
  | 0x31 => some (.frsq (.g f))
  | 0x32 => some (.fex2 (.g f))
  | 0x33 => some (.flg2 (.g f))
  | 0x34 => some (.fsin (.g f))
  | 0x35 => some (.fcos (.g f))
  | 0x36 => some (.ftanh (.g f))
  | 0x37 => some (.fsigm (.g f))
  | 0x38 => some (.fgelu (.g f))
  | 0x39 => some (.fsilu (.g f))
  | 0x60 => some (.ld (.g f))
  | 0x61 => some (.st (.g f))
  | 0x68 => some (.prf (.g f))
  | 0x70 => some (.amo (.g f))
  | 0x71 => some (.cas (.g f))
  | 0x72 => some (.fence (.g f))
  | 0x73 => some (.pub (.g f))
  | 0x74 => some (.synPost (.g f))
  | 0x76 => some (.synRead (.g f))
  | 0x78 => some (.ctrAdd (.g f))
  | 0x80 => some (.br (.g f))
  | 0x81 => some (.jmp (.g f))
  | 0x82 => some (.jmpr (.g f))
  | 0x83 => some (.call (.g f))
  | 0x84 => some (.callr (.g f))
  | 0x85 => some (.ret (.g f))
  | 0x86 => some (.exit f)
  | 0x87 => some (.steer f)
  | 0x88 => some (.fan f)
  | 0x89 => some (.null f)
  | 0x8A => some (.gate f)
  | 0x8B => some (.fwr f)
  | 0x8C => some (.acc f)
  | 0x8D => some (.merge f)
  | 0x93 => some (.cp (.g f))
  | 0x95 => some (.gath (.g f))
  | 0x97 => some (.slotFree (.g f))
  | 0xA0 => some (.eWait (.g f))
  | 0xA1 => some (.eTest (.g f))
  | _ => none

/-- Decode a word fetched from a C page (Table 05-1, R90). -/
def decodeC (w : IWord) : Except DecErr Instr :=
  let cls := (w.extractLsb' 0 4).toNat
  let opc := (w.extractLsb' 4 8).toNat
  let f := cFields w
  if cls = 15 then .error .poolExec
  else if cls ≥ 8 then .error .illegalCls
  else if legalC opc f then
    match mkC opc f with
    | some i => .ok i
    | none => .error .illegalOpc
  else .error .illegalOpc

/-- Decode a graph instruction word of a block (R105, R192). -/
def decodeG (w : IWord) : Except DecErr Instr :=
  let cls := (w.extractLsb' 0 4).toNat
  let opc := (w.extractLsb' 4 8).toNat
  let f := gFields w
  if cls = 15 then .error .poolExec
  else if cls ≠ 12 then .error .illegalCls
  else if !(gOk opc && gFmtOk opc f && gVarOk opc f) then .error .illegalOpc
  else if legalG opc f then
    match mkG opc f with
    | some i => .ok i
    | none => .error .illegalOpc
  else .error .blockEntry

/-- The opcode and the fields of an instruction; none for a step of the device or the host, which no word encodes. -/
def Instr.parts (i : Instr) : Option (BitVec 8 × Form) :=
  match i with
  | .nop f => some (0x00#8, f)
  | .add f => some (0x01#8, f)
  | .sub f => some (0x02#8, f)
  | .mul f => some (0x03#8, f)
  | .mulh f => some (0x04#8, f)
  | .div f => some (0x05#8, f)
  | .rem f => some (0x06#8, f)
  | .madd f => some (0x07#8, f)
  | .and f => some (0x08#8, f)
  | .or f => some (0x09#8, f)
  | .xor f => some (0x0A#8, f)
  | .andn f => some (0x0B#8, f)
  | .shl f => some (0x0C#8, f)
  | .shr f => some (0x0D#8, f)
  | .rot f => some (0x0E#8, f)
  | .min f => some (0x0F#8, f)
  | .max f => some (0x10#8, f)
  | .cmp f => some (0x11#8, f)
  | .sel f => some (0x12#8, f)
  | .clz f => some (0x13#8, f)
  | .popc f => some (0x14#8, f)
  | .brev f => some (0x15#8, f)
  | .bfx f => some (0x16#8, f)
  | .bfi f => some (0x17#8, f)
  | .sext f => some (0x18#8, f)
  | .zext f => some (0x19#8, f)
  | .mov f => some (0x1A#8, f)
  | .li f => some (0x1B#8, f)
  | .lih f => some (0x1C#8, f)
  | .adr f => some (0x1D#8, f)
  | .abs f => some (0x1E#8, f)
  | .fadd f => some (0x20#8, f)
  | .fsub f => some (0x21#8, f)
  | .fmul f => some (0x22#8, f)
  | .fma f => some (0x23#8, f)
  | .fmin f => some (0x24#8, f)
  | .fmax f => some (0x25#8, f)
  | .fcmp f => some (0x26#8, f)
  | .fsgn f => some (0x27#8, f)
  | .fcvt f => some (0x28#8, f)
  | .fcls f => some (0x29#8, f)
  | .frnd f => some (0x2A#8, f)
  | .fdiv f => some (0x2B#8, f)
  | .fsqrt f => some (0x2C#8, f)
  | .frcp f => some (0x30#8, f)
  | .frsq f => some (0x31#8, f)
  | .fex2 f => some (0x32#8, f)
  | .flg2 f => some (0x33#8, f)
  | .fsin f => some (0x34#8, f)
  | .fcos f => some (0x35#8, f)
  | .ftanh f => some (0x36#8, f)
  | .fsigm f => some (0x37#8, f)
  | .fgelu f => some (0x38#8, f)
  | .fsilu f => some (0x39#8, f)
  | .vbcast f => some (0x40#8, .c f)
  | .vperm f => some (0x41#8, .c f)
  | .vred f => some (0x42#8, .c f)
  | .vscan f => some (0x43#8, .c f)
  | .vcmp f => some (0x44#8, .c f)
  | .vmerge f => some (0x45#8, .c f)
  | .vcomp f => some (0x46#8, .c f)
  | .vspread f => some (0x47#8, .c f)
  | .vlane f => some (0x48#8, .c f)
  | .vins f => some (0x49#8, .c f)
  | .vext f => some (0x4A#8, .c f)
  | .mlog f => some (0x4B#8, .c f)
  | .mpop f => some (0x4C#8, .c f)
  | .mfirst f => some (0x4D#8, .c f)
  | .vnarrow f => some (0x4E#8, .c f)
  | .vwiden f => some (0x4F#8, .c f)
  | .vdot f => some (0x50#8, .c f)
  | .vrev f => some (0x51#8, .c f)
  | .vrot f => some (0x52#8, .c f)
  | .ld f => some (0x60#8, f)
  | .st f => some (0x61#8, f)
  | .prf f => some (0x68#8, f)
  | .vld f => some (0x62#8, .c f)
  | .vst f => some (0x63#8, .c f)
  | .vgat f => some (0x64#8, .c f)
  | .vsct f => some (0x65#8, .c f)
  | .vlds f => some (0x66#8, .c f)
  | .vsts f => some (0x67#8, .c f)
  | .cwb f => some (0x69#8, .c f)
  | .cinv f => some (0x6A#8, .c f)
  | .amo f => some (0x70#8, f)
  | .cas f => some (0x71#8, f)
  | .fence f => some (0x72#8, f)
  | .pub f => some (0x73#8, f)
  | .synPost f => some (0x74#8, f)
  | .synRead f => some (0x76#8, f)
  | .synWait f => some (0x75#8, .c f)
  | .ctrAdd f => some (0x78#8, f)
  | .ctrWait f => some (0x77#8, .c f)
  | .semSig f => some (0x79#8, .c f)
  | .semWait f => some (0x7A#8, .c f)
  | .barArr f => some (0x7B#8, .c f)
  | .barWait f => some (0x7C#8, .c f)
  | .gbarArr f => some (0x7D#8, .c f)
  | .gbarWait f => some (0x7D#8, .c f)
  | .cmodeCoh f => some (0x7E#8, .c f)
  | .cmodeSoft f => some (0x7E#8, .c f)
  | .tfence f => some (0x7F#8, .c f)
  | .br f => some (0x80#8, f)
  | .jmp f => some (0x81#8, f)
  | .jmpr f => some (0x82#8, f)
  | .call f => some (0x83#8, f)
  | .callr f => some (0x84#8, f)
  | .ret f => some (0x85#8, f)
  | .exit f => some (0x86#8, .g f)
  | .steer f => some (0x87#8, .g f)
  | .fan f => some (0x88#8, .g f)
  | .null f => some (0x89#8, .g f)
  | .gate f => some (0x8A#8, .g f)
  | .fwr f => some (0x8B#8, .g f)
  | .acc f => some (0x8C#8, .g f)
  | .merge f => some (0x8D#8, .g f)
  | .mm f => some (0x90#8, .c f)
  | .mmb f => some (0x91#8, .c f)
  | .rstep f => some (0x92#8, .c f)
  | .cp f => some (0x93#8, f)
  | .gath f => some (0x95#8, f)
  | .cps f => some (0x94#8, .c f)
  | .slotFree f => some (0x97#8, f)
  | .coll f => some (0x96#8, .c f)
  | .sbind f => some (0x98#8, .c f)
  | .sbar f => some (0x99#8, .c f)
  | .eWait f => some (0xA0#8, f)
  | .eTest f => some (0xA1#8, f)
  | .eCancel f => some (0xA2#8, .c f)
  | .eDetach f => some (0xA3#8, .c f)
  | .eAdopt f => some (0xA4#8, .c f)
  | .ePrio f => some (0xA5#8, .c f)
  | .eFault f => some (0xA6#8, .c f)
  | .ctxStart f => some (0xB0#8, .c f)
  | .ctxReap f => some (0xB1#8, .c f)
  | .getsr f => some (0xB2#8, .c f)
  | .setsr f => some (0xB3#8, .c f)
  | .yield f => some (0xB4#8, .c f)
  | .halt f => some (0xB5#8, .c f)
  | .trap f => some (0xB6#8, .c f)
  | .brk f => some (0xB7#8, .c f)
  | .taskPost f => some (0xB8#8, .c f)
  | .chanBlk f => some (0xB9#8, .c f)
  | .meas f => some (0xBA#8, .c f)
  | .eret f => some (0xBB#8, .c f)
  | .taskCancel f => some (0xBC#8, .c f)
  | .fetchTrap _ => none
  | .longLatencyFill _ _ => none
  | .storeAccept _ _ => none
  | .errorReply _ _ _ => none
  | .crossCallReturn _ => none
  | .linePoisoning _ => none
  | .blockLoad _ => none
  | .instanceStart _ => none
  | .tokenArrival _ => none
  | .instanceQuiescent _ => none
  | .instanceCommit _ => none
  | .instanceTimeout _ => none
  | .graphFaultTaken _ => none
  | .graphHandlerStart _ => none
  | .graphCallReturn _ => none
  | .streamPortEmit _ _ => none
  | .portFetchFault _ _ => none
  | .errandQueued _ _ => none
  | .errandStart _ _ => none
  | .errandPreemptionPoint _ _ => none
  | .errandResume _ _ => none
  | .errandChunkDone _ _ => none
  | .errandPublish _ _ => none
  | .operandFetchFault _ _ => none
  | .fetchReplay _ _ => none
  | .replayTimeout _ _ => none
  | .groupPlacement => none
  | .groupStart _ => none
  | .launchStarvation _ => none
  | .taskDispatch _ => none
  | .kernelCompletion _ => none
  | .preemptRequest _ => none
  | .saveComplete _ => none
  | .groupEviction _ => none
  | .restoreRequest _ _ _ => none
  | .restoreComplete _ => none
  | .budgetPeriod => none
  | .headroomUpdate _ _ _ _ => none
  | .bellSlot _ => none
  | .thermalSample _ _ _ => none
  | .thermalTrip _ => none
  | .coldReset => none
  | .selfCheckTimeout => none
  | .imageReady => none
  | .dieAdmit _ => none
  | .fwcmdStore => none
  | .fwcmdHandover => none
  | .fwcmdStoreHandover => none
  | .handoverCommit => none
  | .receiptSigned => none
  | .create _ _ => none
  | .destroy _ => none
  | .teardownComplete _ => none
  | .allot _ _ => none
  | .load _ => none
  | .launch _ => none
  | .copy _ => none
  | .receipt _ => none
  | .barrier _ => none
  | .signal _ => none
  | .preempt _ => none
  | .restore _ => none
  | .grouptab _ => none
  | .peertab _ => none
  | .badkind _ => none
  | .completionEntryWrite _ => none
  | .qcfg _ _ => none
  | .qtail _ _ => none
  | .chead _ _ => none
  | .ringerr _ _ => none
  | .plimit _ => none
  | .dierst _ => none
  | .dieReset _ => none
  | .dieReadmit _ => none
  | .quiesce _ => none
  | .resume _ => none
  | .retrain _ => none
  | .lerr _ => none
  | .pw2err _ => none
  | .lmax _ _ => none
  | .mapseq _ _ => none
  | .mapdoneAdvance _ => none
  | .registerWrite _ _ _ => none
  | .hostPw2Read _ _ _ => none
  | .hostPw2Write _ _ _ => none
  | .functionLevelReset _ => none
  | .linkTrained _ _ _ => none
  | .trainingFailure _ => none
  | .linkQuiesced _ => none
  | .retrainComplete _ => none
  | .retrainTimeout _ => none
  | .flitReceive _ _ _ => none
  | .ackTimeout _ => none
  | .laneLockLoss _ => none
  | .ownershipRequest _ _ _ => none
  | .ownershipTransfer _ _ _ _ => none
  | .ownerUnreachable _ => none
  | .walkComplete _ => none
  | .walkInstallTimeout _ => none
  | .leaseExpiry _ _ => none
  | .powerLoss => none
  | .lineEviction _ _ => none
  | .correctedError _ => none
  | .dieFatalError _ => none
  | .homeMove _ => none
  | .selfCheckComplete _ => none

/-- The 128 bits of a form under an opcode. -/
def Form.word (f : Form) (opc : BitVec 8) : IWord :=
  match f with
  | .c f => f.word opc
  | .g f => f.word opc

/-- The 128 bits of an instruction (Tables 05-2, 05-12); none where no word encodes it. -/
def encode (i : Instr) : Option IWord :=
  match i.parts with
  | some (opc, f) => some (f.word opc)
  | none => none

/-- Decode a word of either encoding: a graph word where `CLS` is 12, otherwise a C bundle. -/
def decodeWord (w : IWord) : Except DecErr Instr :=
  if (w.extractLsb' 0 4) = 12#4 then decodeG w else decodeC w

/-- The instruction the decoder reads from `w`, bits numbered as in R2; bits above `nbits` are zero. -/
def decodeTableWord (nbits w : Nat) : Option Instr :=
  match decodeWord (BitVec.ofNat 128 (w % 2 ^ nbits)) with
  | .ok i => some i
  | .error _ => none

end Sys2Proof
end

