-- ==== Sys2Proof/Machine/Flags.lean ====
section
/-!
DEFINITION. Flag bits of `SR.FSTAT` (Table 02-3) and warning bits of `SR.WARN` (Table 05-8) that results raise, and the result of one
computation: its pattern with the flags and warnings it raises.
-/
namespace Sys2Proof.Machine
open Sys2Proof

def flNX : BitVec 13 := 0x001
def flUF : BitVec 13 := 0x002
def flOF : BitVec 13 := 0x004
def flDZ : BitVec 13 := 0x008
def flNV : BitVec 13 := 0x010
def flTMIN : BitVec 13 := 0x040
def flSATC : BitVec 13 := 0x080

def wFMT : BitVec 16 := 0x0004
def wPRIV : BitVec 16 := 0x0002
def wMAP : BitVec 16 := 0x0008
def wWCLS : BitVec 16 := 0x1000
def wRNDI : BitVec 16 := 0x0040
def wRNDR : BitVec 16 := 0x0080
def wSATF : BitVec 16 := 0x0020
def wFTZI : BitVec 16 := 0x0100
def wSGNI : BitVec 16 := 0x0200
def wSCOPE : BitVec 16 := 0x0400
def wORDR : BitVec 16 := 0x0800
def wFMTK : BitVec 16 := 0x2000
def wRSVD : BitVec 16 := 0x0001

/-- A computed pattern, flags and warnings. -/
structure Res where
  pat  : Nat
  fl   : BitVec 13 := 0
  warn : BitVec 16 := 0
deriving DecidableEq, Repr

def Res.raise (r : Res) (f : BitVec 13) : Res := { r with fl := r.fl ||| f }

end Sys2Proof.Machine
end

