-- ==== Sys2Proof/Machine/Access.lean ====
section
/-!
DEFINITION. Named accessors and updates of the parts of the state. Every other file reads and writes the tables through these.
-/
namespace Sys2Proof.Machine
open Sys2Proof

/-- Bits of a register as a number, and a register from a number. -/
def fieldOf {w : Nat} (v : BitVec w) (lo n : Nat) : Nat := (v.toNat >>> lo) % 2 ^ n

/-! ### Numbering (R7, SR.TILEID) -/

/-- The tile of a thread, its `tp`, its core (true: stage), its context index (R130). -/
def tileOf (k : Nat) : Nat := k / 32
def tpOf (k : Nat) : Nat := k % 32
def isStage (k : Nat) : Bool := 16 ≤ k % 32
def ctxIx (k : Nat) : Nat := k % 16
def dieOf (tile : Nat) : Nat := tile / 128
def threadKey (tile tp : Nat) : Nat := tile * 32 + tp

namespace State

def thr (s : State) (k : Nat) : Thread := Tbl.get s.threads Thread.reset k
def setThr (s : State) (k : Nat) (t : Thread) : State := { s with threads := Tbl.set s.threads k t }
def modThr (s : State) (k : Nat) (f : Thread → Thread) : State := s.setThr k (f (s.thr k))

def tile (s : State) (n : Nat) : Tile := Tbl.get s.tiles Tile.reset n
def setTile (s : State) (n : Nat) (t : Tile) : State := { s with tiles := Tbl.set s.tiles n t }
def modTile (s : State) (n : Nat) (f : Tile → Tile) : State := s.setTile n (f (s.tile n))

def ctx (s : State) (n : Nat) : Ctx := Tbl.get s.ctxs Ctx.reset n
def setCtx (s : State) (n : Nat) (c : Ctx) : State := { s with ctxs := Tbl.set s.ctxs n c }
def modCtx (s : State) (n : Nat) (f : Ctx → Ctx) : State := s.setCtx n (f (s.ctx n))

def kern? (s : State) (n : Nat) : Option Kernel := Tbl.find? s.kernels n
def setKern (s : State) (n : Nat) (k : Kernel) : State := { s with kernels := Tbl.set s.kernels n k }
def modKern (s : State) (n : Nat) (f : Kernel → Kernel) : State :=
  match s.kern? n with
  | some k => s.setKern n (f k)
  | none => s

def act? (s : State) (n : Nat) : Option Act := Tbl.find? s.acts n
def setAct (s : State) (n : Nat) (a : Act) : State := { s with acts := Tbl.set s.acts n a }
def modAct (s : State) (n : Nat) (f : Act → Act) : State :=
  match s.act? n with
  | some a => s.setAct n (f a)
  | none => s

def inst? (s : State) (n : Nat) : Option Inst := Tbl.find? s.insts n
def setInst (s : State) (n : Nat) (a : Inst) : State := { s with insts := Tbl.set s.insts n a }
def modInst (s : State) (n : Nat) (f : Inst → Inst) : State :=
  match s.inst? n with
  | some a => s.setInst n (f a)
  | none => s

def errand? (s : State) (tile slot : Nat) : Option Errand := Tbl.find? (s.tile tile).errands slot
def setErrand (s : State) (tile slot : Nat) (e : Errand) : State :=
  s.modTile tile fun t => { t with errands := Tbl.set t.errands slot e }
def modErrand (s : State) (tile slot : Nat) (f : Errand → Errand) : State :=
  match s.errand? tile slot with
  | some e => s.setErrand tile slot (f e)
  | none => s
/-- Free a slot of an errand table; a collective keeps the rank of the errand that was there, and goes once every rank has issued and been freed (R271). -/
def freeErrand (s : State) (tile slot : Nat) : State :=
  let retire := fun (m : Nat × Nat) => if m.2 = tile * 256 + slot then (m.1, retired) else m
  let s := s.modTile tile fun t => { t with errands := Tbl.erase t.errands slot }
  { s with colls := (s.colls.map fun c => (c.1, { c.2 with members := c.2.members.map retire })).filter fun c =>
      !(c.2.members.length = c.2.nrank && c.2.members.all (·.2 = retired)) }
where
  /-- No errand's number: the member of a rank whose slot is free again. -/
  retired : Nat := 2 ^ 20

def queue (s : State) (q : Nat) : Queue := Tbl.get s.queues Queue.reset q
def setQueue (s : State) (q : Nat) (v : Queue) : State := { s with queues := Tbl.set s.queues q v }
def modQueue (s : State) (q : Nat) (f : Queue → Queue) : State := s.setQueue q (f (s.queue q))

def func (s : State) (f : Nat) : Func := Tbl.get s.funcs Func.reset f
def modFunc (s : State) (f : Nat) (g : Func → Func) : State := { s with funcs := Tbl.set s.funcs f (g (s.func f)) }

def peer (s : State) (p : Nat) : Peer := Tbl.get s.peers Peer.reset p

def link (s : State) (n : Nat) : Link := s.links.toList.getD n Link.reset
def modLink (s : State) (n : Nat) (f : Link → Link) : State :=
  { s with links := s.links.mapIdx fun i l => if i = n then f l else l }

/-- A new identifier for a kernel, activation or instance. -/
def fresh (s : State) : Nat × State := (s.nextId, { s with nextId := s.nextId + 1 })

end State

/-! ### Tiles and the reeve column (R24, R426) -/

/-- The tile belongs to the reeve column of the configuration table in force. -/
def isReeve (s : State) (tile : Nat) : Bool :=
  let w := s.fw.width
  s.fw.column * 8 ≤ tile && tile < s.fw.column * 8 + w

/-- Contexts that the service level lets run on a tile (R28, Table 22-3): at level 0 context 0 alone, in the reeve tiles; at level 1 any context of die 0. -/
def levelRuns (s : State) (tile ctx : Nat) : Bool :=
  match s.dev.service.toNat with
  | 0 => ctx = 0 && isReeve s tile
  | 1 => dieOf tile = 0
  | _ => true

/-- The die is stopped: it, or a stack attached to it, is at its stop mark (Table 01-6). -/
def dieHalted (s : State) (d : Nat) : Bool := s.dev.thStopped.getLsbD d || (List.range 4).any fun i => s.dev.stackStop.getLsbD (4 * d + i)

/-- Agents of a context run on a tile: the service level lets them, and no stop mark halts the die (R28, R30). -/
def runsOn (s : State) (tile ctx : Nat) : Bool := levelRuns s tile ctx && !dieHalted s (dieOf tile)

/-- Fold over a table's keys and values. -/
def Tbl.foldS {α : Type} (t : Tbl α) (s : State) (f : State → Nat → α → State) : State :=
  t.foldl (fun s ka => f s ka.1 ka.2) s

/-! ### Threads of a group -/

/-- A store's error reply is due, or may yet come from a link on its path (R15, R249). -/
def StoreWait.awaited (w : StoreWait) : Bool := w.err.isSome || w.via ≠ 0

/-- A thread that executes: LIVE or HANDLER (R365). -/
def Thread.running (t : Thread) : Bool := t.stat = .live || t.stat = .handler

/-- A member thread: the lead or a worker, started and not ended (R235, R388). -/
def Thread.member (t : Thread) : Bool := t.running && (t.role = .lead || t.role = .worker)

/-- Threads of a tile, by `tp` ascending. -/
def tileThreads (s : State) (tile : Nat) : List (Nat × Thread) :=
  s.threads.filter fun kt => tileOf kt.1 = tile

/-- The member threads of a tile, the participants of its barriers (R388). -/
def members (s : State) (tile : Nat) : Nat := ((tileThreads s tile).filter fun kt => kt.2.member).length

/-- The kernel of a tile's group. -/
def groupKernel (s : State) (tile : Nat) : Option Nat := ((s.tile tile).group).map (·.kernel)

end Sys2Proof.Machine
end

