-- ==== Sys2Proof/Machine/Memory.lean ====
section
/-!
DEFINITION. Memory bytes: one list of (place, byte) pairs in canonical form, strictly rising and without zero bytes. A place is a number:
HBM physical addresses below 2^41; vault and scratchpad bytes at their W1 and W2 addresses; host memory at 2^64 + bus address; peer memory
at 2^65 + index × 2^52 + address. An unlisted place reads 0 (log 2).
-/
namespace Sys2Proof.Machine
open Sys2Proof

/-- What a place that is not listed reads as (log 2). -/
def unlisted : Byte := 0

/-- The canonical form: places strictly rising, no entry equal to what an unlisted place reads as. -/
def Memory.wf : List Host.Cell → Bool
  | [] => true
  | [(_, b)] => b ≠ unlisted
  | (a, b) :: (a', b') :: r => b ≠ unlisted && decide (a < a') && Memory.wf ((a', b') :: r)

/-- One byte. -/
def Memory.read : List Host.Cell → Nat → Byte
  | [], _ => unlisted
  | (a, b) :: r, k => if a = k then b else Memory.read r k

/-- Write one byte, keeping the canonical form. -/
def Memory.write : List Host.Cell → Nat → Byte → List Host.Cell
  | [], k, v => if v = unlisted then [] else [(k, v)]
  | (a, b) :: r, k, v =>
    if a = k then (if v = unlisted then r else (k, v) :: r)
    else if k < a then (if v = unlisted then (a, b) :: r else (k, v) :: (a, b) :: r)
    else (a, b) :: Memory.write r k v

/-- `n` bytes from `k` upward. -/
def Memory.readN (m : List Host.Cell) (k : Nat) : Nat → List Byte
  | 0 => []
  | n + 1 => Memory.read m k :: Memory.readN m (k + 1) n

/-- Write bytes from `k` upward. -/
def Memory.writeN (m : List Host.Cell) (k : Nat) : List Byte → List Host.Cell
  | [] => m
  | b :: r => Memory.writeN (Memory.write m k b) (k + 1) r

/-- Drop every byte in `[lo, hi)`: those places read as unlisted (zeroing, R329, R420). -/
def Memory.zero (m : List Host.Cell) (lo hi : Nat) : List Host.Cell := m.filter fun c => !(lo ≤ c.1 && c.1 < hi)

/-- Little-endian value of bytes, and the bytes of a value (R2). -/
def leNat : List Byte → Nat
  | [] => 0
  | b :: r => b.toNat + 256 * leNat r
def natLe : Nat → Nat → List Byte
  | 0, _ => []
  | n + 1, v => BitVec.ofNat 8 v :: natLe n (v / 256)

/-- Bytes of a bit vector, least significant first. -/
def bytesOf {w : Nat} (n : Nat) (v : BitVec w) : List Byte := natLe n v.toNat

/-! ### Windows (R63, R64, Table 03-2) -/

/-- A window unit: W0, a tile's vault (W1), a tile's scratchpad (W2), the own scratchpad (W3). -/
inductive Unit_ where
  | w0
  | w1 (tile : Nat)
  | w2 (tile : Nat)
  | w3
deriving DecidableEq, Repr

/-- The window unit an address lies in, if any (R63). -/
def windowOf (a : Nat) : Option Unit_ :=
  let top := a >>> 56
  if top = 0 then some .w0
  else if top = 0xFD then
    if bitsOf a 34 22 = 0 && bitsOf a 31 1 = 0 && bitsOf a 0 24 < 0xC00000 then some (.w1 (bitsOf a 32 2 * 128 + bitsOf a 24 7)) else none
  else if top = 0xFE then
    if bitsOf a 29 27 = 0 then some (.w2 (bitsOf a 27 2 * 128 + bitsOf a 20 7)) else none
  else if top = 0xFF then
    if bitsOf a 20 36 = 0 then some .w3 else none
  else none
where
  bitsOf (w lo n : Nat) : Nat := (w >>> lo) % 2 ^ n

/-- Trap cause codes (Table 10-3). -/
def cILLEGAL_OPC : BitVec 6 := 0x01
def cILLEGAL_CLS : BitVec 6 := 0x02
def cPOOL_EXEC : BitVec 6 := 0x03
def cEXEC_KIND : BitVec 6 := 0x04
def cBAD_FNPTR : BitVec 6 := 0x05
def cBLOCK_ENTRY : BitVec 6 := 0x06
def cNO_EXIT : BitVec 6 := 0x07
def cEMPTY_READ : BitVec 6 := 0x08
def cMISALIGN : BitVec 6 := 0x09
def cWINDOW_STRADDLE : BitVec 6 := 0x0A
def cNO_WINDOW : BitVec 6 := 0x0B
def cPAGE_NOT_PRESENT : BitVec 6 := 0x0C
def cPAGE_PERM : BitVec 6 := 0x0D
def cEXPECT_OVF : BitVec 6 := 0x0E
def cPRIV : BitVec 6 := 0x0F
def cERRAND_FULL : BitVec 6 := 0x10
def cERRAND_FAILED : BitVec 6 := 0x11
def cSTACK_LIMIT : BitVec 6 := 0x12
def cBREAK : BitVec 6 := 0x13
def cTRAP_INSTR : BitVec 6 := 0x14
def cFP_EXC : BitVec 6 := 0x15
def cPOISON : BitVec 6 := 0x16
def cLINK_ERR : BitVec 6 := 0x17
def cSERVICE_LEVEL : BitVec 6 := 0x18
def cTWIN_REQUIRED : BitVec 6 := 0x19
def cCOHERENCE_MODE : BitVec 6 := 0x1A
def cDEP_FAILED : BitVec 6 := 0x1B

/-- The window checks of R64 for `n` bytes at `ea`: the unit, or `NO_WINDOW` or `WINDOW_STRADDLE`. The last byte's address is taken
modulo 2^64. -/
def checkWindow (ea : Word) (n : Nat) : Except (BitVec 6) Unit_ :=
  match windowOf ea.toNat with
  | none => .error cNO_WINDOW
  | some u => if windowOf (ea + BitVec.ofNat 64 (n - 1)).toNat = some u && n - 1 < 2 ^ 57 then .ok u else .error cWINDOW_STRADDLE

/-! ### Places -/

def scratchBase (tile : Nat) : Nat := 0xFE00000000000000 + (tile / 128) * 2 ^ 27 + (tile % 128) * 2 ^ 20
def vaultBase (tile : Nat) : Nat := 0xFD00000000000000 + (tile / 128) * 2 ^ 32 + (tile % 128) * 2 ^ 24
def hostPlace (bus : Nat) : Nat := 2 ^ 64 + bus
def peerPlace (p a : Nat) : Nat := 2 ^ 65 + p * 2 ^ 52 + a
def isHbm (k : Nat) : Bool := k < 2 ^ 41
def isHost (k : Nat) : Bool := 2 ^ 64 ≤ k && k < 2 ^ 65
def isPeer (k : Nat) : Bool := 2 ^ 65 ≤ k
def isOnTile (k : Nat) : Bool := 0xFD00000000000000 ≤ k && k < 2 ^ 64
def isScratch (k : Nat) : Bool := 0xFE00000000000000 ≤ k && k < 2 ^ 64
/-- The tile of a scratchpad place or a vault place. -/
def placeTile (k : Nat) : Nat :=
  if isScratch k then (k / 2 ^ 27 % 4) * 128 + k / 2 ^ 20 % 128 else (k / 2 ^ 32 % 4) * 128 + k / 2 ^ 24 % 128
/-- The die a place lives on (R421, R453); host and peer memory are behind the hub. -/
def placeDie (k : Nat) : Option Nat :=
  if isHbm k then some (k / 2 ^ 39) else if isOnTile k then some (dieOf (placeTile k)) else none
/-- HBM that is installed: 320 × 10^9 bytes behind each die (R453). -/
def hbmInstalled (lo n : Nat) : Bool :=
  let d := lo / 2 ^ 39
  lo + n ≤ d * 2 ^ 39 + 320000000000 && d < 4
/-- The 128-byte line and the 64 KiB region of a place. -/
def lineOf (k : Nat) : Nat := k / 128 * 128
def regionOf (k : Nat) : Nat := k / 65536

end Sys2Proof.Machine
end

