-- ==== Sys2Proof/Machine/Meters.lean ====
section
/-!
DEFINITION. Allotments as a path to the root (R315, R316): effective fields, meters and what is charged to them (R370, Table 17-5).
-/
namespace Sys2Proof.Machine
open Sys2Proof

/-! ### Allotment paths (R316) -/

def pathF (c : Ctx) : Nat → Nat → List Nat
  | 0, _ => []
  | n + 1, i => match Tbl.find? c.allots i with
    | some a => i :: (match a.parent with | some p => pathF c n p | none => [])
    | none => []

/-- The allotment and its ancestors, up to the root (at most 8 levels, R315). -/
def allotPath (c : Ctx) (i : Nat) : List Nat := pathF c 8 i
def allotAny (c : Ctx) (i : Nat) (p : Allot → Bool) : Bool :=
  (allotPath c i).any fun j => match Tbl.find? c.allots j with | some a => p a | none => false
/-- Some allotment on the path is stopped (R317). -/
def allotStopped (s : State) (ctx i : Nat) : Bool := allotAny (s.ctx ctx) i (·.stopped)
/-- PARK on the path (R320). -/
def allotPark (s : State) (ctx i : Nat) : Bool := allotAny (s.ctx ctx) i (·.flags.getLsbD 1)

/-- First nonzero value of a field along the path, nearest first (R316); 0 where every one is zero. -/
def effField (c : Ctx) (i : Nat) (f : Allot → Nat) : Nat :=
  (allotPath c i).foldr (fun j acc => match Tbl.find? c.allots j with | some a => if f a ≠ 0 then f a else acc | none => acc) 0

/-- Effective priority: bounded by every ancestor, 7 for a root PRIO of zero (R316). -/
def effPrio (c : Ctx) (i : Nat) : Nat :=
  (allotPath c i).foldl (fun acc j => match Tbl.find? c.allots j with
    | some a => if a.prio ≠ 0 then min acc (a.prio - 1) else acc
    | none => acc) 7

/-! ### Meters (Table 17-5) -/

/-- Some allotment on the path has a nonzero budget `lim` that its meter `used` has reached (R316, R370). -/
def meterSpent (s : State) (ctx i : Nat) (lim used : Allot → Nat) : Bool :=
  allotAny (s.ctx ctx) i fun a => lim a ≠ 0 && decide (lim a ≤ used a)
def hbmSpent (s : State) (ctx i : Nat) : Bool := meterSpent s ctx i (·.hbm) (·.mHbm)
def mirferSpent (s : State) (ctx i : Nat) : Bool := meterSpent s ctx i (·.mirfer) (·.mMirfer)
def slotsSpent (s : State) (ctx i : Nat) : Bool := meterSpent s ctx i (·.slots) (·.mSlots)
def ecycSpent (s : State) (ctx i : Nat) : Bool := meterSpent s ctx i (·.ecyc) (·.mEcyc)
def energySpent (s : State) (ctx i : Nat) : Bool := meterSpent s ctx i (·.energy) (·.mEnergy)

/-- Charge every allotment on the path. -/
def charge (s : State) (ctx i : Nat) (f : Allot → Allot) : State :=
  s.modCtx ctx fun c => let p := allotPath c i
    { c with allots := c.allots.map fun ja => if p.contains ja.1 then (ja.1, f ja.2) else ja }

/-- What a piece of an agent's work costs it in µJ (R370; log 15). -/
def Allot.work (a : Allot) (tick : Nat) : Allot := { a with mEnergy := a.mEnergy + Config.unitEnergy tick }

/-- Charge an allotment and its ancestors for a piece of an agent's work (R316). -/
def chargeWork (s : State) (ctx i : Nat) : State := charge s ctx i fun a => a.work s.tick

/-- Context and allotment of an agent; none for the hub, the reeve column and the dispatchers (R316). -/
def payer (s : State) (m : Mover) : Option (Nat × Nat) :=
  match m with
  | .thread k => let t := s.thr k; some (t.ctx, t.allot)
  | .node i _ => ((s.inst? i).bind fun n => s.act? n.act).map fun a => (a.ctx, a.allot)
  | .errand tile slot => (s.errand? tile slot).map fun e => (e.ctx, e.allot)
  | .event (.instanceCommit i) => ((s.inst? i).bind fun n => s.act? n.act).map fun a => (a.ctx, a.allot)
  | .event (.graphFaultTaken i) => ((s.inst? i).bind fun n => s.act? n.act).map fun a => (a.ctx, a.allot)
  | .event (.graphCallReturn i) => ((s.inst? i).bind fun n => s.act? n.act).map fun a => (a.ctx, a.allot)
  | .event (.blockLoad a) => (s.act? a).map fun a => (a.ctx, a.allot)
  | .event (.streamPortEmit tile p) => ((((s.tile tile).ports.toList[p]?).bind (·.bound)).bind fun b => s.errand? (b / 256) (b % 256)).map fun e => (e.ctx, e.allot)
  | .event (.lineEviction tile _) => ((s.tile tile).group.bind fun g => s.kern? g.kernel).map fun k => (k.ctx, k.allot)
  | _ => none

/-- Charge an agent's allotment and its ancestors. -/
def chargeAgent (s : State) (m : Mover) (f : Allot → Allot) : State :=
  match payer s m with
  | some x => charge s x.1 x.2 f
  | none => s

/-- A line of HBM is read or written for the agent that moves: its allotment is charged the bytes that HBM moves for it, fills and write-backs of its L2 slice
included (R370; log 15). -/
def hbmMoved (s : State) (line : Nat) : State :=
  if isHbm line then chargeAgent s s.mover fun a => { a with mHbm := a.mHbm + Config.lineBytes s.tick line } else s

end Sys2Proof.Machine
end

