-- ==== Sys2Proof/Machine/Coherence.lean ====
section
/-!
DEFINITION. Caches and coherence: where a write enters the coherence order (Table 12-1), L1 copies, write tokens and exclusive
lines (R299, R301), device accesses at the home (R296, R297), releases and acquires at device scope (R300), scratchpad lines under
a mapping entry (R73), poison (R17). The home L2 slice and the memory behind it are one value (log 14).
-/
namespace Sys2Proof.Machine
open Sys2Proof

/-! ### The home -/

/-- The scratchpad line of a place has been filled under its mapping entry (R73). -/
def spHas (s : State) (k : Nat) : Bool := (s.tile (placeTile k)).spFilled.getLsbD (k % 2 ^ 20 / 128)

/-- Where the home keeps a byte: the scratchpad line that backs it under a valid mapping entry, once that line has been filled (R73), else its
own place, whose value the fill then takes. -/
def homePlace (s : State) (k : Nat) : Nat :=
  match Tbl.find? s.mapped (lineOf k) with
  | some sk => if spHas s sk then sk + k % 128 else k
  | none => k

def readHome (s : State) (k n : Nat) : List Byte := (List.range n).map fun i => Memory.read s.mem (homePlace s (k + i))

/-- A byte of a poisoned line has been written: the mark clears in the write that completes the mask (R17). -/
def poisonWritten (s : State) (k : Nat) : State :=
  match Tbl.find? s.poison (lineOf k) with
  | none => s
  | some m =>
    let m' := m ||| (1#128 <<< (k % 128))
    { s with poison := if m' = BitVec.allOnes 128 then Tbl.erase s.poison (lineOf k) else Tbl.set s.poison (lineOf k) m' }

/-- Some byte of `[k, k + n)` lies in a poisoned line, at its home. -/
def poisoned (s : State) (k n : Nat) : Bool :=
  (List.range n).any fun i => (Tbl.find? s.poison (lineOf (homePlace s (k + i)))).isSome

/-- Mark the scratchpad line of a place dirty in its mapping entry (R73). -/
def markSpDirty (s : State) (k : Nat) : State :=
  if isScratch k then
    let ln := k % 2 ^ 20 / 128
    s.modTile (placeTile k) fun t => if t.spFilled.getLsbD ln then { t with spDirty := t.spDirty ||| (1#8192 <<< ln) } else t
  else s

/-- One byte written at its place. -/
def pokeByte (s : State) (k : Nat) (b : Byte) : State :=
  let s := markSpDirty s k
  poisonWritten { s with mem := Memory.write s.mem k b } k

/-- One byte written at its home: into the scratchpad line that backs it (R73), else at its own place. -/
def homeByte (s : State) (k : Nat) (b : Byte) : State := pokeByte s (homePlace s k) b

/-- Bytes written at their home, with the rules of R17 and R73. -/
def writeHome (s : State) (k : Nat) : List Byte → State
  | [] => s
  | b :: r => writeHome (homeByte s k b) (k + 1) r

/-- Memory of the device zeroed, with its poison marks (R329, R353). -/
def zeroRange (s : State) (lo hi : Nat) : State :=
  { s with mem := Memory.zero s.mem lo hi, poison := s.poison.filter fun lm => !(lo ≤ lm.1 && lm.1 < hi) }

/-! ### L1 copies -/

def regionStat (s : State) (k : Nat) : RStat := if isHost k then .soft else Tbl.get s.regions .home (regionOf k)
def setRegion (s : State) (r : Nat) (st : RStat) : State := { s with regions := Tbl.set s.regions r st }

/-- Home die of a line (R453). -/
def homeDie (k : Nat) : Nat := if isHbm k then k / 2 ^ 39 else 0

def l1? (s : State) (tile line : Nat) : Option L1Line := Tbl.find? (s.tile tile).l1 line
def setL1 (s : State) (tile line : Nat) (l : L1Line) : State := s.modTile tile fun t => { t with l1 := Tbl.set t.l1 line l }
def dropL1 (s : State) (tile line : Nat) : State := s.modTile tile fun t => { t with l1 := Tbl.erase t.l1 line }

/-- Bytes `off` to `off + n - 1` of a line. -/
def lineBytes (l : L1Line) (off n : Nat) : List Byte := (List.range n).map fun i => l.data.extractLsb' ((off + i) * 8) 8

/-- A line with bytes stored and marked dirty. -/
def lineStore (l : L1Line) (off : Nat) : List Byte → L1Line
  | [] => l
  | b :: r =>
    let m : BitVec 1024 := 0xFF#1024 <<< (off * 8)
    lineStore { l with data := (l.data &&& ~~~m) ||| ((b.zeroExtend 1024) <<< (off * 8)), dirty := l.dirty ||| (1#128 <<< off) } (off + 1) r

/-- The bits of the bytes that a dirty mask names. -/
def dirtyBits (d : BitVec 128) : BitVec 1024 :=
  (List.range 128).foldl (fun m i => if d.getLsbD i then m ||| (0xFF#1024 <<< (i * 8)) else m) 0

/-- A line whose clean bytes are taken afresh from `base`. -/
def L1Line.renew (l : L1Line) (base : BitVec 1024) : L1Line :=
  { l with data := if l.dirty = 0 then base else (base &&& ~~~dirtyBits l.dirty) ||| (l.data &&& dirtyBits l.dirty), old := false
           part := false }

/-- The line's 128 bytes as the level below the L1 holds them: the L2 copy of a host line (R304), else the home. -/
def belowL1 (s : State) (line : Nat) : BitVec 1024 :=
  match Tbl.find? s.l2 line with
  | some d => d
  | none => BitVec.ofNat 1024 (leNat (readHome s line 128))

/-- The dirty bytes of one L1 line go to their home; the L1 keeps a read copy of a line that it holds whole. -/
def sendDirty (s : State) (tile line : Nat) : State :=
  match l1? s tile line with
  | none => s
  | some l =>
    if l.dirty = 0 then s else
    let s := hbmMoved s line
    let s := (List.range 128).foldl (fun s i => if l.dirty.getLsbD i then writeHome s (line + i) [l.data.extractLsb' (i * 8) 8] else s) s
    if l.part then dropL1 s tile line else setL1 s tile line { l with dirty := 0 }

/-- Take back an exclusive line from the tile that holds it (R301). -/
def recallExcl (s : State) (line : Nat) : State :=
  match Tbl.find? s.excl line with
  | some t => let s := sendDirty s t line; { s with excl := Tbl.erase s.excl line }
  | none => s

/-- Write the dirty bytes of one L1 line to its home, which first takes the line back from another tile that holds it exclusively, in a software-managed
region for its atomics (R81, R299, R301): neither's bytes are lost. -/
def drainLine (s : State) (tile line : Nat) : State :=
  match l1? s tile line with
  | none => s
  | some l =>
    if l.dirty = 0 then s
    else if Tbl.find? s.excl line = some tile then sendDirty s tile line
    else sendDirty (recallExcl s line) tile line

/-- Evict a line from a tile's L1: dirty bytes go home, the copy is dropped, the right to write it returns (R285). -/
def evictLine (s : State) (tile ln : Nat) : State :=
  let s := drainLine s tile ln
  let s := if Tbl.find? s.excl ln = some tile then { s with excl := Tbl.erase s.excl ln } else s
  dropL1 s tile ln

/-- A link carries requests only while it is UP (R411). -/
def linkUp (s : State) (n : Nat) : Bool := (s.link n).st = .up

/-- The direct link between two compute dies (Table 01-1, Table 21-1). -/
def directLink (a b : Nat) : Option Nat :=
  match min a b, max a b with
  | 0, 1 => some 0
  | 0, 2 => some 1
  | 1, 3 => some 2
  | 2, 3 => some 3
  | _, _ => none

/-- The paths from die `a` to die `b` in the order of R15, each as the links it crosses. -/
def paths (a b : Nat) : List (List Nat) :=
  if a = b then [[]] else
  let hub := [4 + a, 4 + b]
  match directLink a b with
  | some l => [[l], hub]
  | none =>
    let through := fun m => (directLink a m).toList ++ (directLink m b).toList
    (if min a b = 0 then [through 1, through 2] else [through 0, through 3]) ++ [hub]

/-- The path that a request between two dies takes when it leaves its die (R15). -/
def route (s : State) (a b : Nat) : Option (List Nat) := (paths a b).find? fun p => p.all (linkUp s)

/-- The home can take a line back from the tile that holds it exclusively, if one does: a path between their dies is UP (R15, R301). -/
def recallable (s : State) (line : Nat) : Bool :=
  match Tbl.find? s.excl line with
  | some t => (route s (homeDie line) (dieOf t)).isSome
  | none => true

/-- The home can give a region's write token to a tile: it can take back every exclusive line of the region (R15, R299, R301). -/
def tokenFree (s : State) (r : Nat) : Bool := s.excl.all fun lt => regionOf lt.1 ≠ r || (route s (homeDie lt.1) (dieOf lt.2)).isSome

/-- A line's dirty bytes can leave a tile: they are none, or a path to the line's home is UP (R15, R411). -/
def mayLeave (s : State) (tile : Nat) (kl : Nat × L1Line) : Bool :=
  kl.2.dirty = 0 || ((route s (dieOf tile) (homeDie kl.1)).isSome && recallable s kl.1)

/-- Some dirty line that satisfies `p` has no way home at this moment: a write-back of the tile waits. -/
def drainHeld (s : State) (tile : Nat) (p : Nat → Bool) : Bool := (s.tile tile).l1.any fun kl => p kl.1 && !mayLeave s tile kl

/-- Room for one more line: an L1 of 256 KiB holds 2,048 lines (Table 01-2), and a full one gives up the line that it chooses among those that can leave
(log 5). -/
def makeRoom (s : State) (tile : Nat) : State :=
  let l := (s.tile tile).l1
  if l.length < 2048 then s else
  let l := l.filter (mayLeave s tile)
  match l[Config.l1Victim s.tick % l.length]? with
  | some kl => evictLine s tile kl.1
  | none => s

/-- The L2 slice of its die that a line lies in, among 16 of 6 MiB (Table 01-3). -/
def sliceOfLine (k : Nat) : Nat := homeDie k * 16 + k / 65536 % 16

/-- Keep a copy of a host line in its L2 slice, of 49,152 lines: a full one gives up the line that it chooses (log 5). -/
def l2Keep (s : State) (line : Nat) (d : BitVec 1024) : State :=
  let mine := (s.l2.map (·.1)).filter fun k => sliceOfLine k = sliceOfLine line && k ≠ line
  let l2 := if mine.length < 49152 then s.l2 else
    match mine[Config.l1Victim s.tick % mine.length]? with
    | some k => Tbl.erase s.l2 k
    | none => s.l2
  { s with l2 := Tbl.set l2 line d }

/-- Bring a line into a tile's L1, and a host line into its home L2 slice. An L1 whose lines cannot leave takes none. A line held in part takes its clean bytes. -/
def fetchLine (s : State) (tile line : Nat) : State :=
  match l1? s tile line with
  | some l =>
    if !l.part then s else
    let s := hbmMoved s line
    let d := belowL1 s line
    setL1 (if isHost line then l2Keep s line d else s) tile line (l.renew d)
  | none =>
    let s := hbmMoved (makeRoom s tile) line
    let d := belowL1 s line
    let s := if isHost line then l2Keep s line d else s
    if 2048 ≤ (s.tile tile).l1.length then s else setL1 s tile line { data := d, dirty := 0, old := false }

/-- Lines a tile's L1 holds. -/
def l1Lines (s : State) (tile : Nat) : List Nat := (s.tile tile).l1.map (·.1)

/-- Drain the lines of a tile that satisfy `p`. -/
def drainIf (s : State) (tile : Nat) (p : Nat → Bool) : State :=
  (l1Lines s tile).foldl (fun s ln => if p ln then drainLine s tile ln else s) s

/-- Drop the lines of a tile that satisfy `p`. -/
def dropIf (s : State) (tile : Nat) (p : Nat → L1Line → Bool) : State :=
  s.modTile tile fun t => { t with l1 := t.l1.filter fun kl => !(p kl.1 kl.2) }

/-- Tiles that hold anything in their state. -/
def knownTiles (s : State) : List Nat := s.tiles.map (·.1)

/-- Drop the clean copies of lines that satisfy `p` in every tile that satisfies `q`. -/
def dropCopies (s : State) (q : Nat → Bool) (p : Nat → Bool) : State :=
  (knownTiles s).foldl (fun s t => if q t then dropIf s t (fun ln l => p ln && l.dirty = 0) else s) s

/-- Return a region's write token to its home with the holder's drain (R299). -/
def recallToken (s : State) (r : Nat) : State :=
  match Tbl.get s.regions .home r with
  | .held t => setRegion (drainIf s t fun ln => regionOf ln = r) r .home
  | _ => s

/-- Take back every exclusive line of a region. -/
def recallExcls (s : State) (r : Nat) : State :=
  s.excl.foldl (fun s lt => if regionOf lt.1 = r then recallExcl s lt.1 else s) s

/-- Before a device access is performed at the home: token and exclusive line return, with drain (R299, R301). -/
def recallHome (s : State) (k : Nat) : State := recallExcl (recallToken s (regionOf k)) (lineOf k)

/-- Take the clean bytes of the tile's own copy of a line afresh from below, if it holds one. -/
def refreshOwn (s : State) (tile k : Nat) : State :=
  match l1? s tile (lineOf k) with
  | none => s
  | some l => setL1 s tile (lineOf k) (l.renew (belowL1 s (lineOf k)))

/-- The region's write token goes to a tile of the home die (R299): its holder drains and keeps its copies, and every other L1 of the die, the
taker's too, drops its own. -/
def grantToken (s : State) (tile r : Nat) : State :=
  match Tbl.get s.regions .home r with
  | .held t =>
    if t = tile then s else
    let s := recallExcls (recallToken s r) r
    setRegion (dropCopies s (fun u => u ≠ t && dieOf u = dieOf tile) (fun l => regionOf l = r)) r (.held tile)
  | .home =>
    let s := recallExcls s r
    setRegion (dropCopies s (fun u => dieOf u = dieOf tile) (fun l => regionOf l = r)) r (.held tile)
  | _ => s

/-- A line becomes exclusive to a tile (R301; in a software-managed region for a tile's atomics, R81): the token and an earlier holder give it up
with their drain, other dies drop their copies of a coherent line, and the taker's copy is made afresh. -/
def grantExcl (s : State) (tile k : Nat) : State :=
  let ln := lineOf k
  if Tbl.find? s.excl ln = some tile then s else
  let s := recallExcl (recallToken s (regionOf k)) ln
  let s := if regionStat s k = .soft then s else dropCopies s (fun u => dieOf u ≠ dieOf tile) (fun l => l = ln)
  refreshOwn { s with excl := Tbl.set s.excl ln tile } tile k

/-- Grant the right to write a line in a tile's L1: a coherent region's token on the home die, else the exclusive line. A page that is moving or
has moved to another device grants nothing (R303). -/
def grantWrite (s : State) (tile k : Nat) : State :=
  match regionStat s k with
  | .moving _ _ _ => s
  | .remote _ _ => s
  | .soft => grantExcl s tile k
  | _ => if dieOf tile = homeDie k then grantToken s tile (regionOf k) else grantExcl s tile k

/-- The tile may write the line in its L1: it holds the region's token or the exclusive line. -/
def holdsWrite (s : State) (tile ln : Nat) : Bool :=
  (match Tbl.get s.regions .home (regionOf ln) with | .held t => t = tile | _ => false) || Tbl.find? s.excl ln = some tile

/-! ### Scratchpad lines under a mapping entry (R72, R73) -/

/-- Write back one scratchpad line under a mapping to the place it maps, and mark it clean. Of a line that was filled with poison only the bytes written
since go back (R17). -/
def spLineBack (s : State) (tile ln p : Nat) : State :=
  let sk := scratchBase tile + ln * 128
  let bs := Memory.readN s.mem sk 128
  let good := fun (i : Nat) => match Tbl.find? s.poison sk with | some m => m.getLsbD i | none => true
  let s := (bs.zipIdx.filter fun bi => good bi.2).foldl (fun s bi => pokeByte s (p + bi.2) bi.1) s
  s.modTile tile fun t => { t with spDirty := t.spDirty &&& ~~~(1#8192 <<< ln) }

/-- The scratchpad line at `sk` holds bytes that are not yet written back. -/
def spIsDirty (s : State) (sk : Nat) : Bool := spHas s sk && (s.tile (placeTile sk)).spDirty.getLsbD (sk % 2 ^ 20 / 128)

/-- Give up the scratchpad line at `sk` that backs the line `p`: dirty bytes go back, and the bank fills the line again at its next access. -/
def spRelease (s : State) (p sk : Nat) : State :=
  let tile := placeTile sk
  let ln := sk % 2 ^ 20 / 128
  let s := if spIsDirty s sk then spLineBack s tile ln p else s
  let s := { s with mapped := Tbl.erase s.mapped p }
  s.modTile tile fun t => { t with spFilled := t.spFilled &&& ~~~(1#8192 <<< ln), spDirty := t.spDirty &&& ~~~(1#8192 <<< ln) }

/-- Every scratchpad line that backs a line that satisfies `p` is given up. -/
def spReleaseIf (s : State) (p : Nat → Bool) : State := (s.mapped.filter fun km => p km.1).foldl (fun s km => spRelease s km.1 km.2) s

/-- Register a line at its home as backed by a scratchpad line: what caches and another bank hold of it goes home, and their copies go (R72, R73; log 67). -/
def registerLine (s : State) (ln sk : Nat) : State :=
  let s := match Tbl.find? s.mapped ln with
    | some old => if old = sk then s else spRelease s ln old
    | none => s
  let s := (knownTiles (recallHome s ln)).foldl (fun s t => evictLine s t ln) (recallHome s ln)
  { s with mapped := Tbl.set s.mapped ln sk, l2 := Tbl.erase s.l2 ln }

/-! ### Release and acquire at device scope (R300) -/

/-- Write back every dirty line of the tile and return every token it holds. -/
def releaseDevice (s : State) (tile : Nat) : State :=
  let s := drainIf s tile fun _ => true
  { s with regions := s.regions.map fun kr => if kr.2 = .held tile then (kr.1, .home) else kr
           excl := s.excl.filter fun lt => lt.2 ≠ tile }

/-- Drop what satisfies `p` of the tile's read copies that are not held under a token: whole clean lines, and the clean bytes of lines that it has
partly written, which the next read takes from below. -/
def dropRead (s : State) (tile : Nat) (p : Nat → L1Line → Bool) : State :=
  let free := fun (kl : Nat × L1Line) => p kl.1 kl.2 && !holdsWrite s tile kl.1
  let keep := fun (l : Tbl L1Line) => l.filter fun kl => !(free kl && kl.2.dirty = 0)
  let cut := fun (l : Tbl L1Line) => l.map fun kl => if free kl then (kl.1, { kl.2 with old := false, part := true }) else kl
  s.modTile tile fun t => { t with l1 := cut (keep t.l1) }

/-- Drop every L1 read copy of the tile that is not held under a token. -/
def acquireDevice (s : State) (tile : Nat) : State := dropRead s tile fun _ _ => true

/-! ### Data accesses at places -/

/-- An access at device or system scope that is strong (R296). -/
def deviceAccess (ord scope : Nat) : Bool := ord ≠ 0 && 2 ≤ scope

/-- Read bytes of one line (or of a scratchpad or vault) under order and scope (R285, R286, R297, R298). -/
def loadPlace (s : State) (tile k n ord scope : Nat) : State × List Byte :=
  if isOnTile k then (s, Memory.readN s.mem k n)
  else if (Tbl.find? s.mapped (lineOf k)).isSome then (s, readHome s k n)
  else if deviceAccess ord scope then
    let s := hbmMoved (recallHome s k) (lineOf k)
    let s := drainLine s tile (lineOf k)
    let s := if isHost k && scope = 3 then { s with l2 := Tbl.erase s.l2 (lineOf k) } else s
    let s := if isHost k then l2Keep s (lineOf k) (belowL1 s (lineOf k)) else s
    let s := refreshOwn s tile k
    (s, lineBytes { data := belowL1 s (lineOf k), dirty := 0, old := false } (k % 128) n)
  else
    let s := fetchLine s tile (lineOf k)
    (s, match l1? s tile (lineOf k) with
        | some l => lineBytes l (k % 128) n
        | none => readHome s k n)

/-- Write bytes of one line (or of a scratchpad or vault) under order and scope (Table 12-1). -/
def storePlace (s : State) (tile k : Nat) (bs : List Byte) (ord scope : Nat) : State :=
  if isOnTile k then writeHome s k bs
  else if (Tbl.find? s.mapped (lineOf k)).isSome then writeHome s k bs
  else if isHost k then
    let s := writeHome s k bs
    let s := match Tbl.find? s.l2 (lineOf k) with
      | some d => { s with l2 := Tbl.set s.l2 (lineOf k) (lineStore { data := d, dirty := 0, old := false } (k % 128) bs).data }
      | none => s
    match l1? s tile (lineOf k) with
    | some l => setL1 s tile (lineOf k) { l with data := (lineStore l (k % 128) bs).data }
    | none => s
  else if deviceAccess ord scope then
    let s := hbmMoved (recallHome s k) (lineOf k)
    let s := drainLine s tile (lineOf k)
    refreshOwn (writeHome s k bs) tile k
  else
    let s := if regionStat s k = .soft then s else grantWrite s tile k
    let s := if (l1? s tile (lineOf k)).isSome then s else fetchLine s tile (lineOf k)
    let s := (List.range bs.length).foldl (fun s i => poisonWritten s (k + i)) s
    match l1? s tile (lineOf k) with
    | some l => setL1 s tile (lineOf k) (lineStore l (k % 128) bs)
    | none => writeHome (recallExcl (hbmMoved s (lineOf k)) (lineOf k)) k bs

/-- The current value at the place where an atomic executes (R81): the own L1 under exclusive ownership at thread or tile scope on
this device's HBM, the hub for host memory, the home otherwise. The tile's own copies follow what it has read (R286 rule 4). -/
def atomicRead (s : State) (tile k n scope : Nat) : State × List Byte :=
  if isOnTile k || (Tbl.find? s.mapped (lineOf k)).isSome then (s, readHome s k n)
  else if isHost k then
    let s := if (Tbl.find? s.l2 (lineOf k)).isSome then { s with l2 := Tbl.set s.l2 (lineOf k) (BitVec.ofNat 1024 (leNat (readHome s (lineOf k) 128))) } else s
    (refreshOwn s tile k, readHome s k n)
  else if 2 ≤ scope || isPeer k then
    let s := refreshOwn (drainLine (hbmMoved (recallHome s k) (lineOf k)) tile (lineOf k)) tile k
    (s, readHome s k n)
  else
    let s := fetchLine (grantWrite s tile k) tile (lineOf k)
    (s, match l1? s tile (lineOf k) with
        | some l => lineBytes l (k % 128) n
        | none => readHome s k n)

/-- Write at the place where an atomic executes (R81). -/
def atomicWrite (s : State) (tile k : Nat) (bs : List Byte) (scope : Nat) : State :=
  if isHost k then storePlace s tile k bs 1 3
  else if 2 ≤ scope || isPeer k then storePlace s tile k bs 1 2
  else storePlace s tile k bs 0 0

/-- What an agent of a tile finds at the place of a counter (R81, R233), without moving anything: at device scope the home, at tile scope the bytes
that its own L1 holds dirty over it. -/
def placeView (s : State) (tile k n scope : Nat) : List Byte :=
  let home := readHome s k n
  if 2 ≤ scope then home else
  match l1? s tile (lineOf k) with
  | some l => home.zipIdx.map fun bi => if l.dirty.getLsbD (k % 128 + bi.2) then l.data.extractLsb' ((k % 128 + bi.2) * 8) 8 else bi.1
  | none => home

/-- Write the bytes of `[k, k + n)` that any L1 holds dirty back to their home (kernel completion, host accesses). -/
def drainAll (s : State) (k n : Nat) : State :=
  (knownTiles s).foldl (fun s t => drainIf s t fun ln => ln + 128 > k && ln < k + n) s

/-- A read of the hub, the reeve column or a page walk: strong at system scope, at the home (R304, R333, R399). -/
def hubRead (s : State) (k n : Nat) : State × List Byte :=
  let s := (List.range (n / 128 + 2)).foldl (fun s i => if lineOf k + 128 * i < k + n then recallHome s (lineOf k + 128 * i) else s) s
  (s, readHome s k n)

/-- A write of the hub or the reeve column: strong at system scope, at the home (R304, R335). -/
def hubWrite (s : State) (k : Nat) (bs : List Byte) : State :=
  let s := (List.range (bs.length / 128 + 2)).foldl
    (fun s i => if lineOf k + 128 * i < k + bs.length then recallHome s (lineOf k + 128 * i) else s) s
  writeHome s k bs

end Sys2Proof.Machine
end

