-- ==== Sys2Proof/Machine/Routes.lean ====
section
/-!
DEFINITION. The way of a request over the links (R14, R15, R411, R412): the first path whose links are all UP, the targets that give error replies
(R415, R421), and the links that a request in flight crosses.
-/
namespace Sys2Proof.Machine
open Sys2Proof

/-- Every Mirfer link that may reach a peer is FAILED (R338, R415). -/
def peerLost (s : State) (p : Nat) : Bool :=
  (s.peer p).valid && (List.range 12).all fun i => !(s.peer p).links.getLsbD i || (s.link (8 + i)).st = .failed

/-- The peer of a place in peer memory. -/
def peerOf (k : Nat) : Nat := (k - 2 ^ 65) / 2 ^ 52

/-- The die on which the bytes of a place live: that of the scratchpad line that backs it, once that is filled, else the place's own. -/
def livesOn (s : State) (k : Nat) : Option Nat :=
  match Tbl.find? s.mapped (lineOf k) with
  | some sk => if spHas s sk then some (dieOf (placeTile sk)) else placeDie k
  | none => placeDie k

/-- A request to a target that lives on a die in warm reset, or behind failed Mirfer links, receives an error reply (R415, R421). -/
def errReply (s : State) (k : Nat) : Bool :=
  (match livesOn s k with | some d => s.dierst.lost.getLsbD d | none => false) || (isPeer k && peerLost s (peerOf k))

/-- The die whose slice is the home of a line now: die 0 for the lines of a die in warm reset once the homes have moved (R420 step 3). -/
def homeNow (s : State) (k : Nat) : Nat :=
  let d := homeDie k
  if s.dierst.active && s.dierst.moved && s.dierst.die.toNat = d then 0 else d

/-- Another device owns the page or region of a place (R302, R407). -/
def elsewhere (s : State) (k : Nat) : Bool :=
  if isPeer k then !s.owned.contains (k / 65536)
  else isHbm k && (match regionStat s k with | .remote _ _ => true | .moving _ _ _ => true | _ => false)

/-- A path that goes on over further links. -/
def onward (s : State) (p : Option (List Nat)) (more : List Nat) : Option (List Nat) :=
  p.bind fun l => if more.all (linkUp s) then some (l ++ more) else none

/-- The first UP Mirfer link of a peer (R338), at a service level that offers Mirfer (Table 22-3). -/
def peerLink (s : State) (p : Nat) : Option Nat :=
  if s.dev.service.toNat < 2 then none else
  (List.range 12).findSome? fun i => if (s.peer p).links.getLsbD i && linkUp s (8 + i) then some (8 + i) else none

/-- The links that a request of a die crosses to the place where it is served: a tile's own memories, the home slice of a line and the bank that backs
it, the host port (R453, R418), or a peer that owns its page. None where no path is UP. -/
def routeTo (s : State) (die k : Nat) : Option (List Nat) :=
  if isOnTile k then route s die (dieOf (placeTile k))
  else if isHost k then onward s (route s die 0) [4, 20]
  else if isPeer k && !s.owned.contains (k / 65536) then
    match peerLink s (peerOf k) with
    | some l => onward s (route s die 0) [4, l]
    | none => none
  else
    match Tbl.find? s.mapped (lineOf k) with
    | some sk => (route s die (homeNow s k)).bind fun l => (route s (homeNow s k) (dieOf (placeTile sk))).map (l ++ ·)
    | none => route s die (homeDie k)

/-- The pseudo-channel of a line among its die's 256 (log 21). -/
def channelOf (line : Nat) : Nat := line / 2 ^ 39 * 256 + Config.channelOf line % 256

/-- The stack behind a line is at its stop mark: it accepts no new requests but write-backs (Table 01-6). -/
def stackHeld (s : State) (k : Nat) : Bool := s.dev.stackStop ≠ 0 && isHbm k && s.dev.stackStop.getLsbD (channelOf (lineOf k) / 64)

/-- A request of a die to a place can leave and be served: a path is UP, the place's stack takes requests, and the home can take the line back from its holder
(R15, R30, R411). -/
def pathOpen (s : State) (die k : Nat) : Bool := (routeTo s die k).isSome && !stackHeld s k && recallable s (lineOf k)

/-- A place that another device owns is requested: the page of a peer, or a region of this device, whose request takes its turn among the peers' (R302,
R407). -/
def askPage (s : State) (tile ctx k : Nat) (who : Mover) : State :=
  let r : PageReq := { tile := tile, ctx := ctx, page := k / 65536, who := who }
  { s with ownReqs := if s.ownReqs.contains r then s.ownReqs else s.ownReqs ++ [r]
           peerReqs := if isPeer k || s.peerReqs.contains (256, k / 65536) then s.peerReqs else s.peerReqs ++ [(256, k / 65536)] }

/-- The error reply of a page that this mover has waited for has come: its owner was given up, or the link that carried the request has failed (R408, R415). -/
def pageLost (s : State) (k : Nat) : Bool := s.ownLost.any fun r => r.who = s.mover && r.page = k / 65536

/-- What an agent's move has been given and not used is over with the move: failures of walks, and error replies to requests for pages. -/
def dropTaken (s : State) (m : Mover) : State :=
  let rest := fun (w : Walk) => if w.res.isSome then { w with waiting := w.waiting.filter fun x => x.2 ≠ m } else w
  { s with walks := (s.walks.map rest).filter (fun w => w.res.isNone || !w.waiting.isEmpty), ownLost := s.ownLost.filter fun r => r.who ≠ m }

/-- The set of links of a path. -/
def linkSet (p : Option (List Nat)) : BitVec 21 := (p.getD []).foldl (fun m l => m ||| (1#21 <<< l)) 0

/-- The links that a request to a place crosses. -/
def viaOf (s : State) (tile k : Nat) : BitVec 21 := linkSet (routeTo s (dieOf tile) k)

end Sys2Proof.Machine
end

