-- ==== Sys2Proof/Machine/Flits.lean ====
section
/-!
DEFINITION. Mirfer flits and their retry (R413, R414), and what an agent sends over a Mirfer link.
-/
namespace Sys2Proof.Machine
open Sys2Proof

/-- Add to a counter that saturates. -/
def satAdd {w : Nat} (v : BitVec w) (n : Nat) : BitVec w := BitVec.ofNat w (min (2 ^ w - 1) (v.toNat + n))

/-- Into RETRAINING; a link that was quiescing goes on with that once trained. -/
def Link.retrainNow (l : Link) (now : Nat) : Link :=
  { l with st := .retraining, retrain := satAdd l.retrain 1, since := now, quiescePending := l.quiescePending || l.st = .quiescing, naks := 0 }

/-- A flit: SEQ and kind, ACK and NAK, payload, CHECK (Table 21-3). -/
def mkFlit (kind : Nat) (seq ack : BitVec 12) (nak : Bool) (payload : BitVec 1920) : BitVec 2048 :=
  let head : BitVec 1952 :=
    payload ++ ((if nak then 0x8000#16 else 0#16) ||| ack.setWidth 16) ++ (BitVec.ofNat 4 kind ++ seq)
  0#32 ++ (Config.flitCheck head ++ head)

def flitSeq (f : BitVec 2048) : BitVec 12 := f.extractLsb' 0 12
def flitKind (f : BitVec 2048) : Nat := fieldOf f 12 4
def flitAck (f : BitVec 2048) : BitVec 12 := f.extractLsb' 16 12
def flitNak (f : BitVec 2048) : Bool := f.getLsbD 31

/-- A flit of a kind may go now: the retry buffer has room, and a request starts only while the link is UP; the reply to an outstanding one goes while it is
QUIESCING too (R411). -/
def Link.maySend (l : Link) (kind : Nat) : Bool := (l.st = .up || (kind = 2 && l.st = .quiescing)) && l.retry.length < 1024

/-- A flit goes, and stays in the retry buffer until it is acknowledged. -/
def Link.push (l : Link) (now kind : Nat) (payload : BitVec 1920) : Link :=
  let f := mkFlit kind l.txSeq (l.rxSeq - 1) false payload
  { l with txSeq := l.txSeq + 1, retry := l.retry ++ [f], outbox := l.outbox ++ [f], ackNs := if l.retry.isEmpty then now else l.ackNs }

/-- Send a flit; one that may not go yet waits behind those that wait already. -/
def Link.send (l : Link) (now kind : Nat) (payload : BitVec 1920) : Link :=
  if l.unsent.isEmpty && l.maySend kind then l.push now kind payload else { l with unsent := l.unsent ++ [(kind, payload)] }

/-- The flits that wait go in their order, as far as they may. -/
def Link.flush (l : Link) (now : Nat) : List (Nat × BitVec 1920) → Link
  | [] => { l with unsent := [] }
  | x :: r => if l.maySend x.1 then (l.push now x.1 x.2).flush now r else { l with unsent := x :: r }

/-- The link is UP again: what its retry buffer holds is replayed in order, and then what waits goes (R414). -/
def Link.again (l : Link) (now : Nat) : Link :=
  ({ l with outbox := l.outbox ++ l.retry, replay := satAdd l.replay l.retry.length, ackNs := now } : Link).flush now l.unsent

/-- An acknowledgement of what has arrived in order, or a request to replay from there. -/
def Link.answer (l : Link) (nak : Bool) : Link := { l with outbox := l.outbox ++ [mkFlit 5 l.txSeq (l.rxSeq - 1) nak 0] }

/-- The sender's side of a received acknowledgement: entries up to ACK are freed; a NAK replays the rest, and the eighth in a row for one SEQ retrains. -/
def Link.acked (l : Link) (now : Nat) (ack : BitVec 12) (nak : Bool) : Link :=
  let rest := l.retry.filter fun f => !((ack - flitSeq f).toNat < 1024)
  let l := { l with ackNs := if rest.length < l.retry.length then now else l.ackNs, retry := rest }
  if !nak then ({ l with naks := 0 } : Link).flush now l.unsent else
  let n := if l.nakSeq = ack then l.naks + 1 else 1
  let l := { l with naks := n, nakSeq := ack, outbox := l.outbox ++ rest, replay := satAdd l.replay rest.length }
  if 8 ≤ n then l.retrainNow now else l

/-- The link after a received flit: idle and acknowledgement flits carry no work and are not sequenced; `good` says whether CHECK is. -/
def Link.receive (l : Link) (now : Nat) (f : BitVec 2048) (good : Bool) : Link :=
    if l.st ≠ .up && l.st ≠ .quiescing then l
    else if !good then ({ l with crcErr := satAdd l.crcErr 1 } : Link).answer true
    else
      let l := l.acked now (flitAck f) (flitNak f)
      if flitKind f = 0 || flitKind f = 5 then l
      else if flitSeq f = l.rxSeq then ({ l with rxSeq := l.rxSeq + 1, inbox := l.inbox ++ [f] } : Link).answer false
      else l.answer true

/-- A flit goes over a link for an agent, whose allotment pays 256 bytes (R370, R413). -/
def sendFlit (s : State) (m : Mover) (n kind : Nat) (payload : BitVec 1920) : State :=
  chargeAgent (s.modLink n fun l => l.send s.dev.hubNs kind payload) m fun a => { a with mMirfer := a.mMirfer + 256 }

/-- The peer that owns a place which another device owns (R302, R407). -/
def ownerOf (s : State) (k : Nat) : Nat :=
  if isPeer k then peerOf k else match regionStat s k with
    | .remote p _ => p
    | .moving p _ _ => p
    | _ => 255

/-- The Mirfer link over which a request goes to the owner of a place: one that is UP (R15, R411). -/
def ownerLink (s : State) (k : Nat) : Option Nat := peerLink s (ownerOf s k)

end Sys2Proof.Machine
end

