-- ==== Sys2Proof/Machine/Translate.lean ====
section
/-!
DEFINITION. Page tables, TLBs and walks (chapter 20): a walk of four levels at the entries' places, the leaf's meaning, permissions,
twin faces (R405), and the translation of an access, which installs TLB and walk-cache entries. A walk is one step with the access that
misses (log 6); `walks` holds those that a prefetch has started, and the queue.
-/
namespace Sys2Proof.Machine
open Sys2Proof

/-! ### Page-table entries (Table 20-2) -/

def pteV (e : Word) : Bool := e.getLsbD 0
def pteRd (e : Word) : Bool := e.getLsbD 4
def pteWr (e : Word) : Bool := e.getLsbD 5
def pteEx (e : Word) : Bool := e.getLsbD 6
def pteLeaf (e : Word) : Bool := e.getLsbD 7
def pteAddr (e : Word) : Nat := fieldOf e 8 44 * 256
def pteKind (e : Word) : Bool := e.getLsbD 52
def pteTwin (e : Word) : Bool := e.getLsbD 53
def pteLoc (e : Word) : Nat := fieldOf e 54 2
def ptePeer (e : Word) : Nat := fieldOf e 56 8

/-- Why an access fails: cause, sub-code of `PAGE_PERM`. -/
abbrev Fail := BitVec 6 × Nat

def notPresent : Fail := (cPAGE_NOT_PRESENT, 0)
def badEntry : Fail := (cPAGE_PERM, 0x06)
def noPerm : Fail := (cPAGE_PERM, 0x00)
/-- No failure: the access waits, for a walk that another miss has begun (R401), a path (R15, R411), a stack (R30) or a page (R302). -/
def notYet : Fail := (0, 0)

/-- The peer entry is usable: it is valid, one of its links has been UP to the device that it names, and not every one has FAILED (R338). -/
def peerUsable (s : State) (p : Nat) : Bool := p < 255 && (s.peer p).valid && (s.peer p).up && !peerLost s p

/-- The peer entries as the links now stand: one becomes usable once one of its links is UP and the device at its far end reports the entry's serial, until
every link has FAILED (R338). -/
def peersNow (s : State) : State :=
  let up := fun (e : Peer) => (List.range 12).any fun i => e.links.getLsbD i && linkUp s (8 + i) && Config.farSerial i = e.devser
  { s with peers := s.peers.map fun pe => (pe.1, { pe.2 with up := pe.2.valid && (up pe.2 || (pe.2.up && !peerLost s pe.1)) }) }

/-- A leaf of a page of 2^`bits` bytes is well formed (R399). -/
def leafOk (s : State) (e : Word) (bits : Nat) : Bool :=
  let size := 2 ^ bits
  let twin := pteTwin e
  pteAddr e % size = 0 && pteLoc e ≠ 3 && fieldOf e 1 3 = 0 &&
  (pteLoc e ≠ 0 || hbmInstalled (pteAddr e) (if twin then 2 * size else size)) &&
  (!twin || (pteLoc e = 0 && !pteEx e && 7 ≤ ptePeer e && ptePeer e ≤ bits)) &&
  (pteLoc e = 2 || twin || ptePeer e = 0) &&
  (pteLoc e ≠ 2 || peerUsable s (ptePeer e))

/-- Place of a table or page by LOC. -/
def locPlace (e : Word) (a : Nat) : Nat :=
  match pteLoc e with
  | 1 => hostPlace a
  | 2 => peerPlace (ptePeer e) a
  | _ => a

/-- Index of a level in a virtual address, its number of page bits, and the size of its tables (Table 20-1). -/
def lvlIndex (lvl va : Nat) : Nat :=
  match lvl with
  | 0 => (va >>> 43) % 2 ^ 13
  | 1 => (va >>> 30) % 2 ^ 13
  | 2 => (va >>> 21) % 2 ^ 9
  | _ => (va >>> 16) % 2 ^ 5
def lvlBits (lvl : Nat) : Nat := match lvl with | 0 => 43 | 1 => 30 | 2 => 21 | _ => 16
def lvlTable (lvl : Nat) : Nat := match lvl with | 0 => 65536 | 1 => 65536 | 2 => 4096 | _ => 256

/-- The lease of an entry has not ended at a hub time (R402). -/
def TlbEntry.live (e : TlbEntry) (now : Nat) : Bool := now < e.ns + 1000 * e.lease

/-- Read the table entry at `at_` for the walk unit of a die: strongly at system scope, at its place (R399). One that is poisoned, or out of reach (R421), fails
the access with that cause (log 90); one that cannot be reached now is read later (R15, R30, R302). -/
def readEntry (s : State) (die ctx at_ : Nat) : State × Except Fail Word :=
  if errReply s at_ then (s, .error (cLINK_ERR, 0))
  else if pageLost s at_ then (s, .error (cLINK_ERR, 0))
  else if elsewhere s at_ then (askPage s 512 ctx at_ s.mover, .error notYet)
  else if !pathOpen s die at_ then (s, .error notYet)
  else if poisoned s at_ 8 then (s, .error (cPOISON, 0))
  else
    let r := hubRead s at_ 8
    (r.1, .ok (BitVec.ofNat 64 (leNat r.2)))

/-- A lease: the hub time of the read that gave it, and its length in µs (R402). -/
abbrev Lease := Nat × Nat
/-- The lease that ends first. What a walk reads through a cached entry is used no longer than that entry. -/
def Lease.min (x y : Lease) : Lease := if x.1 + 1000 * x.2 ≤ y.1 + 1000 * y.2 then x else y
/-- The lease of what a walk of a context reads now. -/
def leaseNow (s : State) (ctx : Nat) : Lease := (s.dev.hubNs, (s.ctx ctx).lmax)

/-- What a walk finds: the leaf, log2 of its page's size, and the lease that its TLB entry takes. -/
structure Leaf where
  word  : Word
  bits  : Nat
  lease : Lease
deriving DecidableEq, Repr

/-- The TLB entry that a walk's leaf makes for the page of an address. -/
def Leaf.entry (l : Leaf) (ctx va : Nat) : TlbEntry :=
  { ctx := ctx, page := va >>> l.bits, bits := l.bits, leaf := l.word, ns := l.lease.1, lease := l.lease.2 }

/-- A non-leaf entry kept by a die's walk cache (R400), keyed by the level it was read at. -/
def walkCached (s : State) (die ctx lvl va : Nat) : Option (Word × Lease) :=
  (s.walkCache.find? fun e => e.1 = die * 4 + lvl && e.2.ctx = ctx && e.2.page = va >>> lvlBits lvl && e.2.live s.dev.hubNs).map fun e => (e.2.leaf, e.2.ns, e.2.lease)

/-- Keep a non-leaf entry that a walk has read in its die's walk cache of 256 entries (R400), with its lease (R402). -/
def keepEntry (s : State) (die ctx lvl va : Nat) (e : Word) (lease : Lease) : State :=
  let c : TlbEntry := ({ word := e, bits := lvlBits lvl, lease := lease } : Leaf).entry ctx va
  let own := fun (x : Nat × TlbEntry) => x.1 / 4 = die
  { s with walkCache := (die * 4 + lvl, c) :: ((s.walkCache.filter own).take 255 ++ s.walkCache.filter fun x => !own x) }

/-- A table entry with LEAF 0 names a table that is aligned and lies in installed HBM; its bits 63:52 and 6:4 are ignored (R398, R399). -/
def tableOk (e : Word) (lvl : Nat) : Bool := pteAddr e % lvlTable lvl = 0 && fieldOf e 1 3 = 0 && hbmInstalled (pteAddr e) (lvlTable lvl)

/-- Walk from level `lvl` down with `fuel` levels left, `table` the place of that level's table: the leaf, or the failure (R398, R399). A non-leaf entry comes from
the walk cache while its lease lasts; `lease` is the one that ends first among those of the entries above (R402). -/
def walkFrom (s : State) (die ctx va : Nat) (lvl table : Nat) (lease : Lease) : Nat → State × Except Fail Leaf
  | 0 => (s, .error badEntry)
  | fuel + 1 =>
    let hit := walkCached s die ctx lvl va
    let r : State × Except Fail Word := match hit with
      | some e => (s, .ok e.1)
      | none => readEntry s die ctx (table + 8 * lvlIndex lvl va)
    match r with
    | (s, .error f) => (s, .error f)
    | (s, .ok e) =>
      let lease := match hit with | some e => lease.min e.2 | none => lease
      if !pteV e then (s, .error notPresent)
      else if pteLeaf e then
        if lvl = 0 then (s, .error badEntry)
        else if leafOk s e (lvlBits lvl) then (s, .ok { word := e, bits := lvlBits lvl, lease := lease }) else (s, .error badEntry)
      else if lvl ≥ 3 || !tableOk e (lvl + 1) then (s, .error badEntry)
      else walkFrom (if hit.isSome then s else keepEntry s die ctx lvl va e lease) die ctx va (lvl + 1) (pteAddr e) lease fuel

/-- A whole walk for a context's address (R398). -/
def walk (s : State) (die ctx va : Nat) : State × Except Fail Leaf := walkFrom s die ctx va 0 (s.ctx ctx).ptRoot (leaseNow s ctx) 4

/-- log2 of the size of the page that an address lies in, as a walk finds it now: 64 KiB where none can be told. -/
def pageBits (s : State) (die ctx va : Nat) : Nat :=
  match (walk s die ctx va).2 with
  | .ok l => l.bits
  | .error _ => 16

/-! ### Translation -/

/-- Permissions an access needs: read, write, fetch of C code, fetch of G code (R399); none for a write-back. -/
inductive Need where | rd | wr | rw | exC | exG | exAny | any
deriving DecidableEq, Repr

/-- The leaf gives what the access needs; a fetch tells a missing EX from the wrong KIND elsewhere (R90, R109). -/
def grants (e : Word) (n : Need) : Bool :=
  match n with
  | .rd => pteRd e
  | .wr => pteWr e
  | .rw => pteRd e && pteWr e
  | .exC => pteEx e && !pteKind e
  | .exG => pteEx e && pteKind e
  | .exAny => pteEx e
  | .any => true

def tlbFind (s : State) (tile ctx va : Nat) : Option TlbEntry :=
  (s.tile tile).tlb.find? fun e => e.ctx = ctx && e.page = va >>> e.bits && e.live s.dev.hubNs

/-- Install an entry, keeping at most 1,024 (R400). -/
def tlbInstall (s : State) (tile : Nat) (e : TlbEntry) : State :=
  s.modTile tile fun t => { t with tlb := e :: (t.tlb.filter fun x => !(x.ctx = e.ctx && x.page = e.page && x.bits = e.bits)).take 1023 }

/-- Physical key of the twin object that holds page offset `off` of a twin leaf: the place of its face 0 (R405). -/
def twinObj (leaf : Word) (off : Nat) : Nat := pteAddr leaf + off / 2 ^ ptePeer leaf * 2 ^ ptePeer leaf

/-- Face bits that the home slice of an object holds (R74: at most 4,096). -/
def faceCount (s : State) (obj : Nat) : Nat := (s.faces.filter fun f => f.1 / 65536 % 16 = obj / 65536 % 16 && homeDie f.1 = homeDie obj).length

/-- Which face of an object is visible: 0 before its first access. -/
def faceOf (s : State) (o : Nat) : Bool := match Tbl.find? s.faces o with | some f => f.bit | none => false

/-- The place of a byte under a leaf, and the object whose face bit chose it. -/
def leafPlace (s : State) (leaf : Word) (bits va : Nat) : Nat :=
  let off := va % 2 ^ bits
  if pteTwin leaf then
    pteAddr leaf + off + (if faceOf s (twinObj leaf off) then 2 ^ bits else 0)
  else locPlace leaf (pteAddr leaf + off)

/-- Create the face bit of the object at its first access, value 0 (R405); sub-code 0x07 where the slice has none free. -/
def ensureFace (s : State) (ctx : Nat) (leaf : Word) (bits va : Nat) : Except Fail State :=
  if !pteTwin leaf then .ok s else
  let o := twinObj leaf (va % 2 ^ bits)
  match Tbl.find? s.faces o with
  | some _ => .ok s
  | none => if faceCount s o < 4096 then .ok { s with faces := Tbl.set s.faces o { bit := false, ctx := ctx, va := va, bits := bits, size := ptePeer leaf } } else .error (cPAGE_PERM, 0x07)

/-- Why a leaf denies an access: a fetch of the other code kind differs from a missing permission (R90, R109). -/
def denied (leaf : Word) (n : Need) : Fail :=
  match n with
  | .exC => if pteEx leaf then (cEXEC_KIND, 0) else noPerm
  | .exG => if pteEx leaf then (cEXEC_KIND, 0) else noPerm
  | _ => noPerm

/-- The page of a walk holds an address of its context. -/
def Walk.holds (w : Walk) (die ctx a : Nat) : Bool := w.die = die && w.ctx = ctx && w.va.toNat >>> w.bits = a >>> w.bits

/-- A running or queued walk of a die covers the page of an address in its context (R401). -/
def Walk.covers (w : Walk) (die ctx a : Nat) : Bool := w.res.isNone && w.holds die ctx a

/-- An ended walk's failure is there for an access that waited for it (R401). -/
def Walk.owes (w : Walk) (who : Mover) (die ctx a : Nat) : Bool := w.res.isSome && w.waiting.any (·.2 = who) && w.holds die ctx a

/-- An access of a tile waits for a walk. -/
def Walk.join (w : Walk) (tile : Nat) (who : Mover) : Walk := { w with waiting := if w.waiting.contains (tile, who) then w.waiting else w.waiting ++ [(tile, who)] }

/-- The walks of a die that run or are queued, in order of arrival: the first 64 run (R23, R401). -/
def dieWalks (s : State) (die : Nat) : List Walk := s.walks.filter fun w => w.res.isNone && w.die = die

/-- A new walk for the page of an address. -/
def newWalk (s : State) (die ctx : Nat) (va : Word) : Walk := { die := die, ctx := ctx, va := va, bits := pageBits s die ctx va.toNat, tiles := [], lines := [] }

/-- A miss joins the walk that covers its page, or is queued behind the 64 that run (R401); none where it may walk at once. -/
def joinWalk (s : State) (tile ctx : Nat) (va : Word) : Option State :=
  let die := dieOf tile
  let a := va.toNat
  if s.walks.any fun w => w.covers die ctx a then
    some { s with walks := s.walks.map fun w => if w.covers die ctx a then w.join tile s.mover else w }
  else if 64 ≤ (dieWalks s die).length then
    some { s with walks := s.walks ++ [(newWalk s die ctx va).join tile s.mover] }
  else none

/-- The leaf for an address, from the TLB or by a walk; a permission failure in a cached entry walks afresh (R400). A miss that joins or queues waits
(R401); any other walks in this step (log 6). -/
def findLeaf (s : State) (tile ctx : Nat) (va : Word) (need : Need) : State × Except Fail (Word × Nat) :=
  let a := va.toNat
  match tlbFind s tile ctx a with
  | some e =>
    if grants e.leaf need then (s, .ok (e.leaf, e.bits)) else miss a
  | none => miss a
where
  miss (a : Nat) : State × Except Fail (Word × Nat) :=
    match (s.walks.find? fun w => w.owes s.mover (dieOf tile) ctx a).bind (·.res) with
    | some f => (s, .error f)
    | none => match joinWalk s tile ctx va with
      | some s => (s, .error notYet)
      | none => fresh a
  fresh (a : Nat) : State × Except Fail (Word × Nat) :=
    match walk s (dieOf tile) ctx a with
    | (s, .ok l) => (tlbInstall s tile (l.entry ctx a), if grants l.word need then .ok (l.word, l.bits) else .error (denied l.word need))
    | (s, .error f) => (s, .error f)

/-- Translate a W0 address for a tile's agent of a context: the leaf and the place of the byte. -/
def translateLeaf (s : State) (tile ctx : Nat) (va : Word) (need : Need) : State × Except Fail (Word × Nat) :=
  match findLeaf s tile ctx va need with
  | (s, .error f) => (s, .error f)
  | (s, .ok (leaf, bits)) =>
    match ensureFace s ctx leaf bits va.toNat with
    | .error f => (s, .error f)
    | .ok s => (s, .ok (leaf, leafPlace s leaf bits va.toNat))

/-- Translate a W0 address for a tile's agent of a context: the place of the byte. -/
def translate (s : State) (tile ctx : Nat) (va : Word) (need : Need) : State × Except Fail Nat :=
  match translateLeaf s tile ctx va need with
  | (s, .error f) => (s, .error f)
  | (s, .ok (_, k)) => (s, .ok k)

/-- Translate for a write-back or a drop: any mapped page will do (R184, R228). Of an address that does not translate, `held` tells whether it may yet. -/
def translateAny (s : State) (tile ctx : Nat) (va : Word) : State × Option Nat × Bool :=
  match translate s tile ctx va .any with
  | (s, .error f) => (s, none, f = notYet)
  | (s, .ok k) => (s, some k, false)

/-- A spent meter holds an allotment's new requests to a place: HBM requests, or Mirfer requests (R370). -/
def spentFor (s : State) (ctx : Nat) (allot : Option Nat) (k : Nat) : Bool :=
  match allot with
  | none => false
  | some i => (isHbm k && hbmSpent s ctx i) || (isPeer k && !s.owned.contains (k / 65536) && mirferSpent s ctx i)

/-- Bring a line of W0 in under its leaf (R148): into the tile's L1, or only into its home L2 slice. A line that a scratchpad backs is read there and nowhere
else (R73). False while the line is still to come: its page is elsewhere, which requests it, no path is open, a meter is spent, or its L1 is full. -/
def bringLine (s : State) (ctx : Nat) (leaf : Word) (bits : Nat) (l : Prefetch) : State × Bool :=
  match ensureFace s ctx leaf bits l.addr.toNat with
  | .error _ => (s, true)
  | .ok s =>
    let k := leafPlace s leaf bits l.addr.toNat
    if errReply s k || (Tbl.find? s.mapped (lineOf k)).isSome then (s, true)
    else if elsewhere s k then (askPage s l.tile ctx k .nobody, false)
    else if !pathOpen s (dieOf l.tile) k || spentFor s ctx l.allot k then (s, false)
    else if l.nt then (if isHost k then l2Keep s (lineOf k) (belowL1 s (lineOf k)) else hbmMoved s (lineOf k), true)
    else
      let s := fetchLine s l.tile (lineOf k)
      (s, (l1? s l.tile (lineOf k)).isSome)

/-- Bring in the lines that a walk's prefetches name, and answer those still to come. -/
def bringLines (s : State) (ctx : Nat) (leaf : Word) (bits : Nat) : List Prefetch → State × List Prefetch
  | [] => (s, [])
  | l :: r =>
    let x := bringLine s ctx leaf bits l
    let y := bringLines x.1 ctx leaf bits r
    (y.1, if x.2 then y.2 else l :: y.2)

/-- Translate for the reeve column, the hub or the host: by the context's tables, without a TLB (R335, R417). -/
def translateHub (s : State) (ctx : Nat) (va : Word) (need : Need) : State × Except Fail Nat :=
  if windowOf va.toNat ≠ some .w0 then (s, .error (cNO_WINDOW, 0)) else
  match walk s 0 ctx va.toNat with
  | (s, .error f) => ({ s with hubWait := s.hubWait || f = notYet }, .error f)
  | (s, .ok l) =>
    if !grants l.word need then (s, .error (denied l.word need)) else
    match ensureFace s ctx l.word l.bits va.toNat with
    | .error f => (s, .error f)
    | .ok s => (s, .ok (leafPlace s l.word l.bits va.toNat))

end Sys2Proof.Machine
end

