-- ==== Sys2Proof/Machine/MemAccess.lean ====
section
/-!
DEFINITION. An access by address: the checks of R64, R62, R313, R427 and translation in their order, the scratchpad mapping table's fill
(R73), page ownership of peer memory (R302), and the reads and writes of one access at the place they reach.
-/
namespace Sys2Proof.Machine
open Sys2Proof

/-- Who accesses: the tile whose TLB, L1 and scratchpad it uses, and its context. -/
structure Agent where
  tile : Nat
  ctx  : Nat
  /-- The thread that takes an errand's warnings (R35, R101). -/
  warnTo : Option Nat := none
  /-- The access is strong at device scope: no copy in the tile's L1 serves it (R296). -/
  dev : Bool := false
  /-- The allotment that its requests are counted against (R316); none for the hub and the reeve column. -/
  allot : Option Nat := none
  /-- The errand, by table and slot, for whose unit its engine fetches (R387). -/
  errand : Option (Nat × Nat) := none
  /-- Only the checks are made: the request may be held after them (R365). -/
  free : Bool := false
deriving DecidableEq, Repr

/-- What keeps an access from its place: a trap, or a page or region that must first move to this device (R302, R407). -/
inductive Stop where
  | trap (cause : BitVec 6) (sub : Nat)
  | hold
deriving DecidableEq, Repr

/-- A vault offset in the errand fault records (R281). -/
def isRecord (a : Nat) : Bool := 0xBFE000 ≤ a % 2 ^ 24

/-- The firewall of a reeve tile lets a request of an agent pass: its own tile's, which meets no network port, and another reeve tile's where PEER is 1; an
agent of another context never passes (R427). -/
def fwPasses (s : State) (ag : Agent) (t : Nat) : Bool :=
  ag.ctx = 0 && (ag.tile = t || (isReeve s ag.tile && (s.tile t).fwall.getLsbD 3))

/-- Assignment of a vault or scratchpad to the accessing context (R62, R313, R427). -/
def checkAssign (s : State) (ag : Agent) (u : Unit_) (ea : Nat) (need : Need) : Except Stop Unit :=
  match u with
  | .w0 => .ok ()
  | .w3 => .ok ()
  | .w1 t =>
    if isReeve s t && !fwPasses s ag t then .error (.trap cPAGE_PERM 0x08)
    else if isRecord ea then
      match need with
      | .wr => .ok ()
      | _ => match s.errand? t ((ea % 2 ^ 24 - 0xBFE000) / 32) with
        | some e => if e.ctx = ag.ctx then .ok () else .error (.trap cPAGE_PERM 0x05)
        | none => .error (.trap cPAGE_PERM 0x05)
    else if (s.tile t).vault = ag.ctx then .ok () else .error (.trap cPAGE_PERM 0)
  | .w2 t =>
    if isReeve s t && !fwPasses s ag t then .error (.trap cPAGE_PERM 0x08)
    else if t = ag.tile || ((s.tile t).group.isSome && (s.tile t).spOwner = ag.ctx) then .ok () else .error (.trap cPAGE_PERM 0)

/-- The mapping-table entry of a tile that covers a bank: its index and value (R71). -/
def spEntry (s : State) (tile bank : Nat) : Option (Nat × Word) :=
  ((s.tile tile).spmap.toList.zipIdx.find? fun e =>
    e.1.getLsbD 63 && fieldOf e.1 58 4 ≤ bank && bank ≤ fieldOf e.1 54 4).map fun e => (e.2, e.1)

/-- A failure as it stops an access: a trap, or a wait. -/
def stopOf (f : Fail) : Stop := if f = notYet then .hold else .trap f.1 f.2

/-- A place that another device owns is requested, and the access is held until it moves here (R302, R407); an access that was waiting when the owner was
given up gets the error reply (R408), and so does one over failed links (R415). -/
def ownCheck (s : State) (ag : Agent) (k : Nat) : State × Except Stop Unit :=
  if pageLost s k then (s, .error (.trap cLINK_ERR 0))
  else if !elsewhere s k || (isPeer k && peerLost s (peerOf k)) then (s, .ok ())
  else (askPage s ag.tile ag.ctx k s.mover, .error .hold)

/-- A spent meter holds the agent's new requests to a place. -/
def meterHolds (s : State) (ag : Agent) (k : Nat) : Bool := spentFor s ag.ctx ag.allot k

/-- The tile's own L1 serves an access that is not strong: a read from its copy, a write under the right to write the line, or any store in a
software-managed region, but not of host memory, whose stores go on (R285, R299, R304). -/
def localServes (s : State) (ag : Agent) (k : Nat) (need : Need) : Bool :=
  !ag.dev && (match l1? s ag.tile (lineOf k) with
    | none => false
    | some l => match need with
      | .wr => !isHost k && (holdsWrite s ag.tile (lineOf k) || regionStat s k = .soft)
      | .rw => !l.part && !isHost k && holdsWrite s ag.tile (lineOf k)
      | _ => !l.part)

/-- A write in the own L1 needs the write token of a coherent region of its die, and the home cannot give it at this moment (R15, R299). -/
def tokenHeld (s : State) (ag : Agent) (k : Nat) (need : Need) : Bool :=
  !ag.dev && (need = .wr || need = .rw) && isHbm k && dieOf ag.tile = homeDie k && regionStat s k ≠ .soft && !tokenFree s (regionOf k)

/-- No path to the place is open, or a spent meter holds the request, and neither an error reply nor the tile's own L1 answers the access: it waits (R15, R30,
R370, R411, R412). -/
def noRoute (s : State) (ag : Agent) (k : Nat) (need : Need) : Bool :=
  !errReply s k && !localServes s ag k need && (!pathOpen s (dieOf ag.tile) k || tokenHeld s ag k need || meterHolds s ag k)

/-- A resolved place, or a wait for a route to it. -/
def reached (s : State) (ag : Agent) (k : Nat) (need : Need) : State × Except Stop Nat := (s, if !ag.free && noRoute s ag k need then .error .hold else .ok k)

/-- Fill the scratchpad line of a place under a valid entry at its first access through the scratchpad (R73). The line is registered at its home if it is
not yet, also where it did not translate when the entry was written, or another bank has backed it meanwhile (log 67). The fill takes a poison mark with the
bytes (R17). -/
def spFill (s : State) (ag : Agent) (k : Nat) : State × Except Stop Unit :=
  let tile := placeTile k
  let ln := k % 2 ^ 20 / 128
  let sk := scratchBase tile + ln * 128
  match spEntry s tile (ln / 512) with
  | none => (s, .ok ())
  | some (_, e) =>
    if spHas s k then (s, .ok ()) else
    let va := fieldOf e 0 40 * 65536 + (ln * 128 - fieldOf e 58 4 * 65536)
    match translate s tile ag.ctx (BitVec.ofNat 64 va) .rd with
    | (s, .error f) => (s, .error (stopOf f))
    | (s, .ok p) =>
      match ownCheck s { ag with tile := tile } p with
      | (s, .error e) => (s, .error e)
      | (s, .ok ()) =>
        if errReply s p then (s, .error (.trap cLINK_ERR 0))
        else if !ag.free && !pathOpen s (dieOf tile) p then (s, .error .hold)
        else
          let s := registerLine s p sk
          let bs := Memory.readN s.mem p 128
          let mark := match Tbl.find? s.poison p with
            | some m => Tbl.set s.poison sk m
            | none => Tbl.erase s.poison sk
          let s := { s with mem := Memory.writeN s.mem sk bs, poison := mark }
          (s.modTile tile fun t => { t with spFilled := t.spFilled ||| (1#8192 <<< ln) }, .ok ())

/-- Before a store to a checked place of a scratchpad: its line is filled again where another bank has taken its range since the check (R73). -/
def refill (s : State) (ag : Agent) (k : Nat) : State := if isScratch k then (spFill s ag k).1 else s

/-- The place of an access of `n` bytes at `ea` that must be a multiple of `align`: R64, `MISALIGN`, R62, translation, in this order, then ownership where
`own`, then the route. -/
def resolveAt (own : Bool) (s : State) (ag : Agent) (ea : Word) (n align : Nat) (need : Need) : State × Except Stop Nat :=
  match checkWindow ea n with
  | .error c => (s, .error (.trap c 0))
  | .ok u =>
    if ea.toNat % align ≠ 0 then (s, .error (.trap cMISALIGN 0)) else
    match checkAssign s ag u ea.toNat need with
    | .error e => (s, .error e)
    | .ok () =>
      match u with
      | .w1 _ => reached s ag ea.toNat need
      | .w2 _ => match spFill s ag ea.toNat with
        | (s, .error e) => (s, .error e)
        | (s, .ok ()) => reached s ag ea.toNat need
      | .w3 =>
        let k := scratchBase ag.tile + ea.toNat % 2 ^ 20
        match spFill s ag k with
        | (s, .error e) => (s, .error e)
        | (s, .ok ()) => reached s ag k need
      | .w0 =>
        match translate s ag.tile ag.ctx ea need with
        | (s, .error f) => (s, .error (stopOf f))
        | (s, .ok k) => match (if own then ownCheck s ag k else (s, .ok ())) with
          | (s, .error e) => (s, .error e)
          | (s, .ok ()) => reached s ag k need

/-- `resolve`: the place of an access, owned here. -/
def resolve (s : State) (ag : Agent) (ea : Word) (n align : Nat) (need : Need) : State × Except Stop Nat := resolveAt true s ag ea n align need

/-- An agent making an access of this order and scope. -/
def Agent.at (ag : Agent) (ord scope : Nat) : Agent := { ag with dev := deviceAccess ord scope }

/-- The access was waiting for a page that is lost: it receives the error reply. -/
def Stop.isLink (st : Stop) : Bool := st = .trap cLINK_ERR 0

/-- A reeve tile's firewall has refused the access (R427). -/
def Stop.isFirewall (st : Stop) : Bool := st = .trap cPAGE_PERM 0x08

/-- A store to the fault records is ignored (R281). -/
def recordStore (k : Nat) : Bool := isOnTile k && !isScratch k && isRecord k

/-! ### Whole ranges, for engines, packets and measurement -/

/-- The byte that an engine has fetched already for the unit at work (R387). -/
def gotByte (s : State) (ag : Agent) (va : Word) : Option Byte :=
  ag.errand.bind fun x => (s.errand? x.1 x.2).bind fun e => Tbl.find? e.got va.toNat

/-- Keep a byte that an engine has fetched. -/
def keepByte (s : State) (ag : Agent) (va : Word) (b : Byte) : State :=
  match ag.errand with
  | some x => s.modErrand x.1 x.2 fun e => { e with got := Tbl.set e.got va.toNat b }
  | none => s

/-- Read one byte for an agent through `resolve`: an errand's weak read through its tile's L1 (R307), or a device access. -/
def readByte (s : State) (ag : Agent) (va : Word) : State × Except Stop Byte :=
  match gotByte s ag va with
  | some b => (s, .ok b)
  | none =>
    match resolve s ag va 1 1 .rd with
    | (s, .error e) => (s, .error e)
    | (s, .ok k) =>
      if errReply s k then (s, .error (.trap cLINK_ERR 0))
      else if poisoned s k 1 then (s, .error (.trap cPOISON 0))
      else
        let r := if ag.dev then loadPlace s ag.tile k 1 1 2 else loadPlace s ag.tile k 1 0 0
        let b := r.2.headD 0
        (keepByte r.1 ag va b, .ok b)

/-- Read `n` bytes at `va` for an agent, byte by byte. The first failing byte's address is given. -/
def readRange (s : State) (ag : Agent) (va : Word) : Nat → State × Except (Stop × Word) (List Byte)
  | 0 => (s, .ok [])
  | n + 1 =>
    match readByte s ag va with
    | (s, .error e) => (s, .error (e, va))
    | (s, .ok b) =>
      match readRange s ag (va + 1) n with
      | (s, .ok bs) => (s, .ok (b :: bs))
      | (s, .error e) => (s, .error e)

/-- One byte of a range written at its place at device scope. A byte of the fault records is ignored, with `SR.WARN.PRIV` of the agent's thread (R281). -/
def writeByte (s : State) (ag : Agent) (k : Nat) (b : Byte) : State :=
  if recordStore k then
    match ag.warnTo with
    | some t => s.modThr t fun t => { t with warn := t.warn ||| wPRIV }
    | none => s
  else storePlace s ag.tile k [b] 1 2

/-- Write bytes at `va` for an agent at device scope, byte by byte. -/
def writeRange (s : State) (ag : Agent) (va : Word) : List Byte → State × Except (Stop × Word) Unit
  | [] => (s, .ok ())
  | b :: r =>
    match resolve s { ag with dev := true } va 1 1 .wr with
    | (s, .error e) => (s, .error (e, va))
    | (s, .ok k) =>
      if errReply s k then (s, .error (.trap cLINK_ERR 0, va)) else writeRange (writeByte s ag k b) ag (va + 1) r

/-- Ownership of a place for the hub or the reeve column, whose requests bear tile 512, which is no tile, and the route to it from die 0. -/
def hubOwn (s : State) (ctx k : Nat) : State × Except Fail Unit :=
  match ownCheck s { tile := 512, ctx := ctx } k with
  | (s, .ok ()) =>
    if errReply s k then (s, .error (cLINK_ERR, 0))
    else if !pathOpen s 0 k then ({ s with hubWait := true }, .error notYet)
    else (s, .ok ())
  | (s, .error (.trap c n)) => (s, .error (c, n))
  | (s, .error .hold) => ({ s with hubWait := true }, .error notYet)

/-- `s` with nothing done but the requests for pages that `t` has made. -/
def asks (s t : State) : State := { s with ownReqs := t.ownReqs, peerReqs := t.peerReqs }

/-- What the hub or the reeve column does as a whole waits for the pages that it asks for: until then nothing of it is done but `held` (R302, R304). -/
def heldBack (held f : State → State) (s : State) : State :=
  let t := f s
  if t.hubWait then held (asks s t) else t

/-- A request of the host joins those that wait for an earlier one. -/
def enqueue (r : HostReq) (s : State) : State := { s with posted := s.posted ++ [r] }

/-- A host write of LCTL of link 20 itself, which reaches the device whatever the state of that link (Table 21-2; log 116). -/
def ownControl (r : HostReq) : Bool := match r with | .regWrite f (.pw0 off) _ => f = 0 && off = 0x10008 + 0x40 * 20 | _ => false

/-- A request of the host arrives over link 20 while that is UP (R411), and is performed after every earlier one: at once where none waits (R304). -/
def inOrder (r : HostReq) (f : State → State) (s : State) : State :=
  if (s.link 20).st ≠ .up then (if ownControl r then f s else s)
  else if s.posted.isEmpty then f s
  else enqueue r s

/-- What a request of the host does that may wait for a page or a path: until then it stands in the queue. -/
def orPosted (r : HostReq) (f : State → State) (s : State) : State := heldBack (enqueue r) f s

/-- A hub access to bytes of one line: its place, once the page translates, the line's route is open and this device owns it. -/
def hubLine (s : State) (ctx : Nat) (va : Word) (need : Need) : State × Except Fail Nat :=
  match translateHub s ctx va need with
  | (s, .error f) => (s, .error f)
  | (s, .ok k) =>
    match hubOwn s ctx k with
    | (s, .error f) => (s, .error f)
    | (s, .ok ()) => (s, .ok k)

/-- The bytes from an address to the end of its line, `n` at most. -/
def lineRest (va : Word) (n : Nat) : Nat := min n (128 - va.toNat % 128)

/-- Read `n` bytes of a context's W0 memory for the reeve column, the hub or the host, line by line (R335, R417). A poisoned byte fails the read (R17, log 90). -/
def hubReadVa (s : State) (ctx : Nat) (va : Word) (n : Nat) : State × Except Fail (List Byte) := go s va n (n / 128 + 2)
where
  go (s : State) (va : Word) (n : Nat) : Nat → State × Except Fail (List Byte)
    | 0 => (s, .ok [])
    | fuel + 1 =>
      if n = 0 then (s, .ok []) else
      let m := lineRest va n
      match hubLine s ctx va .rd with
      | (s, .error f) => (s, .error f)
      | (s, .ok k) =>
        if poisoned s k m then (s, .error (cPOISON, 0)) else
        let r := hubRead s k m
        match go r.1 (va + BitVec.ofNat 64 m) (n - m) fuel with
        | (s, .ok bs) => (s, .ok (r.2 ++ bs))
        | (s, .error f) => (s, .error f)

/-- Write bytes to a context's W0 memory for the reeve column, the hub or the host, line by line in ascending order. -/
def hubWriteVa (s : State) (ctx : Nat) (va : Word) (bs : List Byte) : State × Except Fail Unit := go s va bs (bs.length / 128 + 2)
where
  go (s : State) (va : Word) (bs : List Byte) : Nat → State × Except Fail Unit
    | 0 => (s, .ok ())
    | fuel + 1 =>
      if bs = [] then (s, .ok ()) else
      let m := lineRest va bs.length
      match hubLine s ctx va .wr with
      | (s, .error f) => (s, .error f)
      | (s, .ok k) => go (hubWrite s k (bs.take m)) (va + BitVec.ofNat 64 m) (bs.drop m) fuel

/-- Every line of `[va, va + n)` can be reached with the permission. -/
def hubReach (s : State) (ctx : Nat) (va : Word) (n : Nat) (need : Need) : State × Except Fail Unit := go s va n (n / 128 + 2)
where
  go (s : State) (va : Word) (n : Nat) : Nat → State × Except Fail Unit
    | 0 => (s, .ok ())
    | fuel + 1 =>
      if n = 0 then (s, .ok ()) else
      match hubLine s ctx va need with
      | (s, .error f) => (s, .error f)
      | (s, .ok _) => go s (va + BitVec.ofNat 64 (lineRest va n)) (n - lineRest va n) fuel

/-- Write bytes to a context's W0 memory, all of them or none. -/
def hubWriteWhole (s : State) (ctx : Nat) (va : Word) (bs : List Byte) : State × Except Fail Unit :=
  match hubReach s ctx va bs.length .wr with
  | (s, .error f) => (s, .error f)
  | (s, .ok ()) => hubWriteVa s ctx va bs

/-- Every page of `[va, va + n)` lies in W0 and translates with the permission (R335's address check). -/
def hubCheck (s : State) (ctx : Nat) (va : Word) (n : Nat) (need : Need) : State × Except Fail Unit :=
  if n = 0 then (s, .ok ())
  else if 2 ^ 56 < va.toNat + n then (s, .error (cNO_WINDOW, 0))
  else go s (va.toNat / 65536 * 65536) ((va.toNat % 65536 + n + 65535) / 65536)
where
  go (s : State) (p : Nat) : Nat → State × Except Fail Unit
    | 0 => (s, .ok ())
    | k + 1 => match translateHub s ctx (BitVec.ofNat 64 p) need with
      | (s, .error f) => (s, .error f)
      | (s, .ok _) => go s (p + 65536) k

end Sys2Proof.Machine
end

