-- ==== Sys2Proof/Machine/ErrandTable.lean ====
section
/-!
DEFINITION. The errand table as an object (chapter 18): handles, final states and fault records, cancels, cascades, owners.
-/
namespace Sys2Proof.Machine
open Sys2Proof

/-! ### Handles (Table 18-1) -/

def handleOf (tile slot : Nat) (e : Errand) : Word :=
  BitVec.ofNat 64 (tile / 128 * 2 ^ 62 + tile % 128 * 2 ^ 55 + e.engine * 2 ^ 52 + slot * 2 ^ 44 + e.serial)
def handleTile (h : Word) : Nat := fieldOf h 62 2 * 128 + fieldOf h 55 7
def handleSlot (h : Word) : Nat := fieldOf h 44 8

/-- The errand a handle names in a context: its tile, slot and record; none is GONE (R274). -/
def errandOf (s : State) (ctx : Nat) (h : Word) : Option (Nat × Nat × Errand) :=
  if h = 0 || 5 < fieldOf h 52 3 then none else
  match s.errand? (handleTile h) (handleSlot h) with
  | some e => if e.ctx = ctx && handleOf (handleTile h) (handleSlot h) e = h then some (handleTile h, handleSlot h, e) else none
  | none => none

def EState.final : EState → Bool
  | .done | .failed | .cancelled => true
  | _ => false

/-- Status codes of Table 11-13 with the cause in [15:8] (R275). -/
def statusOf (e : Option Errand) : Word :=
  match e with
  | none => 3
  | some e => match e.st with
    | .done => 0
    | .failed => 1 + BitVec.ofNat 64 (e.cause.toNat * 256)
    | .cancelled => 2 + BitVec.ofNat 64 (e.cause.toNat * 256)
    | _ => 4

/-- W1 address of a fault record (R281). -/
def recordAddr (tile slot : Nat) : Nat := vaultBase tile + 0xBFE000 + 32 * slot

/-- The fault record's 32 bytes (Tables 11-15, 11-16). -/
def recordBytes (e : Errand) : List Byte :=
  let st := match e.st with | .failed => 1 | .cancelled => 2 | _ => 0
  let ok := e.st = .done
  natLe 8 ((if ok then 0 else e.sub.toNat * 2 ^ 16) + st * 2 ^ 10 + e.engine * 2 ^ 7 + (if ok then 0 else e.cause.toNat)) ++
  natLe 8 (if ok then 0 else e.addr.toNat) ++ natLe 8 e.progress ++ natLe 8 e.step

/-- Every errand of the device: tile, slot, record. -/
def allErrands (s : State) : List (Nat × Nat × Errand) :=
  s.tiles.flatMap fun kt => kt.2.errands.map fun se => (kt.1, se.1, se.2)

/-- The owner thread of an attached errand has ended (R383). A STOPPED thread keeps its state, and its errands their slots, until it is discarded. -/
def ownerGone (e : Errand) : Bool := e.gone && (match e.owner with | .thread _ => true | _ => false)

/-! ### Kernels and tiles that wait for errands (R355, Table 17-1) -/

/-- Agents of a kernel that still run: groups, task and callee threads, activations, calls on their way (R355). -/
def kernelBusy (s : State) (kn : Nat) (k : Kernel) : Bool :=
  !k.live.isEmpty ||
  (s.threads.any fun kt => kt.2.kernel = kn && kt.2.running) ||
  (s.acts.any fun ka => ka.2.kernel = kn) ||
  (s.tasks.any fun t => (t.call.map (·.2)) = some kn)

/-- A live orphan of the kernel (R355). -/
def kernelOrphans (s : State) (kn : Nat) : Bool :=
  (allErrands s).any fun x => x.2.2.owner = .orphan kn && !x.2.2.st.final

/-- Move a kernel to DRAINING or COMPLETE once its groups, tasks and activations have ended (R355). -/
def checkKernel (s : State) (kn : Nat) : State :=
  match s.kern? kn with
  | none => s
  | some k =>
    if k.st ≠ .running && k.st ≠ .draining then s
    else if kernelBusy s kn k then s
    else s.setKern kn { k with st := if kernelOrphans s kn then .draining else .complete }

/-- Tile state that a group's release frees: no group holds the tile. -/
def freeTile (s : State) (tile : Nat) : State := s.modTile tile fun t => { t with group := none }

/-- A live errand of a group that has ended still runs on a tile (R362). -/
def tileOrphan (s : State) (tile kn : Nat) : Bool :=
  (allErrands s).any fun x => x.2.2.at_ = tile && x.2.2.owner = .orphan kn && !x.2.2.st.final

/-- An ended group's tile is released once no orphan issued on it is live (Table 17-1). -/
def checkTileFree (s : State) (tile : Nat) : State :=
  match (s.tile tile).group with
  | some g => if g.stat = .ended && !tileOrphan s tile g.kernel then freeTile s tile else s
  | none => s

/-- Every kernel and every tile whose last agent or orphan has gone moves on. -/
def settleAll (s : State) : State :=
  let s := s.tiles.foldl (fun s kt => checkTileFree s kt.1) s
  s.kernels.foldl (fun s kk => checkKernel s kk.1) s

/-! ### Final states -/

/-- The final element of an `sbind` has been consumed: its port is free, and keeps its pattern for the consuming activation, whose instance may yet be
discarded (R222, R272). -/
def endPort (s : State) (tile slot : Nat) : State :=
  let free := fun (p : Port) => if p.bound = some (tile * 256 + slot)
    then { p with bound := none, redo := (p.inst.bind s.inst?).map (·.act) } else p
  { s with tiles := s.tiles.map fun kt => (kt.1, { kt.2 with ports := kt.2.ports.map free }) }

/-- Stop a port that an errand bound (R272). -/
def unbindPort (s : State) (tile slot : Nat) : State :=
  let free := fun (p : Port) => if p.bound = some (tile * 256 + slot) then { p with bound := none, inst := none } else p
  { s with tiles := s.tiles.map fun kt => (kt.1, { kt.2 with ports := kt.2.ports.map free }) }

/-! ### Status delivery (R276) -/

/-- Every pending fill of a thread that waits for the errand has its status due. -/
def Thread.statusDue (t : Thread) (h st : Word) : Thread :=
  { t with fills := t.fills.map fun f => match f.kind with
      | .errand x w => if x = h then { f with kind := .status h st w } else f
      | _ => f }

/-- A status becomes due at every block that waits for an errand: the waiting instruction sends it as a token (R213, R276). -/
def dueTokens (s : State) (ctx : Nat) (h st : Word) : State :=
  let due := fun (w : LateWait) => if w.handle = h && w.due.isNone then { w with due := some st } else w
  { s with insts := s.insts.map fun ki => match s.act? ki.2.act with
      | some a => if a.ctx = ctx then (ki.1, { ki.2 with ewaits := ki.2.ewaits.map due }) else ki
      | none => ki }

/-- Every other waiter of a reaped errand receives its status too: threads' fills and blocks' tokens become due. -/
def shareStatus (s : State) (ctx : Nat) (h st : Word) : State :=
  dueTokens { s with threads := s.threads.map fun kt => (kt.1, if kt.2.ctx = ctx then kt.2.statusDue h st else kt.2) } ctx h st

/-- Free the slot of a final errand (R276, R380, R383): whoever waits for it receives its status. -/
def reap (s : State) (tile slot : Nat) : State :=
  match s.errand? tile slot with
  | some e => (shareStatus s e.ctx (handleOf tile slot e) (statusOf (some e))).freeErrand tile slot
  | none => s

/-- Make one errand final: its state, its fault record, its hidden face and staged rows discarded unless DONE (R311, R264), its port
stopped; reaped at once where R383 says so, and then known to those that wait for it. -/
def finalize1 (s : State) (tile slot : Nat) (st : EState) (cause : BitVec 6) (sub : BitVec 8) (addr : Word) : State :=
  match s.errand? tile slot with
  | none => s
  | some e =>
    if e.st.final then s else
    let e' := { e with st := st, cause := cause, sub := sub, addr := addr, hidden := [], staged := [], accs := [], got := [], twin := none
                       cancel := none, park := false, stalled := none }
    let s := if e.op = 0x98 then unbindPort s tile slot else s
    -- a failed or cancelled mmb leaves its groups invalid (R260): they were marked invalid at start
    let s := { s with mem := Memory.writeN s.mem (recordAddr tile slot) (recordBytes e') }
    let s := s.modTile tile fun t => { t with records := Tbl.set t.records slot e.ctx }
    let s := s.setErrand tile slot e'
    if ownerGone e' then reap s tile slot else s

/-- The collective that an errand has joined, with its number. -/
def collOf (s : State) (tile slot : Nat) : Option (Nat × Coll) :=
  List.find? (fun c : Nat × Coll => c.2.members.any fun m => m.2 = tile * 256 + slot) s.colls

/-- A member has failed or been cancelled: members that issue later find the collective failed. -/
def failColl (s : State) (tile slot : Nat) : State :=
  match collOf s tile slot with
  | some (id, c) => if c.ready then s else { s with colls := Tbl.set s.colls id { c with failed := true } }
  | none => s

/-- Errands that must follow a failed or cancelled one: those that name it with `after` and have not started (R257), and the other
members of its collective (R271). -/
def dependents (s : State) (tile slot : Nat) (e : Errand) : List (Nat × Nat × EState) :=
  let h := handleOf tile slot e
  ((allErrands s).filter fun x => x.2.2.ctx = e.ctx && x.2.2.after = h && x.2.2.md.getLsbD 7 &&
      (x.2.2.st = .issued || x.2.2.st = .waiting)).map (fun x => (x.1, x.2.1, EState.cancelled)) ++
  (match collOf s tile slot with
   | some (_, c) => if c.ready then [] else (c.members.filter fun m => m.2 ≠ tile * 256 + slot).map fun m => (m.2 / 256, m.2 % 256, EState.failed)
   | none => [])

/-- The cause of a stop that an errand has still to be cancelled with (R317). -/
def stopCause (e : Errand) : Option (BitVec 6) := e.cancel.filter (· ≠ 0)

/-- Make an errand final with every consequence on the errands that depend on it; one that a stop cancels ends with the stop's cause (R317). -/
def finalizeF (s : State) (tile slot : Nat) (st : EState) (cause : BitVec 6) (sub : BitVec 8) (addr : Word) : Nat → State
  | 0 => finalize1 s tile slot st cause sub addr
  | fuel + 1 =>
    match s.errand? tile slot with
    | none => s
    | some e =>
      if e.st.final then s else
      let deps := if st = .done then [] else dependents s tile slot e
      let s := finalize1 (if st = .done then s else failColl s tile slot) tile slot st cause sub addr
      deps.foldl (fun s d => match (s.errand? d.1 d.2.1).bind stopCause with
        | some c => finalizeF s d.1 d.2.1 .cancelled c 0 0 fuel
        | none => finalizeF s d.1 d.2.1 d.2.2 cDEP_FAILED 0 0 fuel) s

/-- The errand, and all that follow it, final; what waited for them moves on. -/
def finalize (s : State) (tile slot : Nat) (st : EState) (cause : BitVec 6) (sub : BitVec 8) (addr : Word) : State :=
  settleAll (finalizeF s tile slot st cause sub addr (allErrands s).length)

/-- Deliver a cancel (Table 11-14): the outcome code and the state. `cause` is 0 for a plain cancel, the stop's cause for R317. -/
def cancelErrand (s : State) (tile slot : Nat) (cause : BitVec 6) : State × Word :=
  match s.errand? tile slot with
  | none => (s, 3)
  | some e => match e.st with
    | .issued | .waiting | .parked => (finalize s tile slot .cancelled cause 0 0, 0)
    | .running => (s.modErrand tile slot fun e => { e with cancel := some ((stopCause e).getD cause) }, 1)
    | _ => (s, 2)

end Sys2Proof.Machine
end

