-- ==== Sys2Proof/Machine/Ending.lean ====
section
/-!
DEFINITION. How agents end: allotment paths (R316), threads (R241, R390), activations (R159, R188), groups (R362), kernels (R355), and the
stop of a fault domain (R317).
-/
namespace Sys2Proof.Machine
open Sys2Proof

/-! ### Kernel header (Tables 06-6 to 06-8) -/

/-- `n` bytes at byte `off` of a header or record. -/
def hdrField {w : Nat} (h : BitVec w) (off n : Nat) : Nat := fieldOf h (8 * off) (8 * n)
def hdrGraph (h : BitVec 512) : Bool := hdrField h 5 1 = 1
def hdrRoles (h : BitVec 512) : Nat := hdrField h 12 2
def hdrPlanes (h : BitVec 512) : Nat := hdrRoles h / 16 % 8
def hdrWork (h : BitVec 512) : Bool := hdrRoles h / 8 % 2 = 1
def hdrStage (h : BitVec 512) : Bool := hdrRoles h / 4 % 2 = 1
def hdrWorker (h : BitVec 512) : Bool := hdrRoles h / 2 % 2 = 1
/-- TRAPS; where HANDLER is 0, DELIV and FATAL are ignored (R126). -/
def hdrTraps (h : BitVec 512) : Word :=
  BitVec.ofNat 64 (hdrField h 16 8) &&& if hdrField h 24 8 = 0 then 0x3F0000000#64 else BitVec.allOnes 64
def hdrFen (h : BitVec 512) : BitVec 13 := BitVec.ofNat 13 (fieldOf (hdrTraps h) 28 5 * 256)
/-- Handler address: header address + HANDLER; 0 for none (Table 06-6, SR.TVEC). -/
def hdrHandler (at_ : Word) (h : BitVec 512) : Word :=
  if hdrField h 24 8 = 0 then 0 else at_ + BitVec.ofNat 64 (hdrField h 24 8)
def hdrStack (h : BitVec 512) : Nat := hdrField h 48 8

/-! ### Task queues (R342) -/

/-- The task queue's header address (R342). -/
def taskqOf (s : State) (ctx i : Nat) : Nat := effField (s.ctx ctx) i (·.taskq.toNat)

/-- The dispatchers keep HEAD at the oldest record still queued (R342, R343). -/
def syncHead (s : State) (ctx i : Nat) : State :=
  let q := taskqOf s ctx i
  if q = 0 then s else
  let tail := leNat (Memory.readN s.mem (q + 28) 4)
  let mine := (s.tasks.filter fun t => t.ctx = ctx && t.call.isNone && taskqOf s ctx t.allot = q).map (·.order)
  let head := match mine with | [] => tail | o :: _ => o
  { s with mem := Memory.writeN s.mem (q + 24) (natLe 4 head) }

/-! ### Barriers (R390) -/

/-- Participant `q` withdraws; `p` is the participant count without it. -/
def Bar.withdraw (b : Bar) (q p : Nat) : Bar :=
  let arr := b.arrived.filter (· ≠ q)
  if 0 < p && arr.length = p then { gen := b.gen + 1, arrived := [] } else { b with arrived := arr }

/-- An arrival of `q` among `p` participants (Table 19-1). -/
def Bar.arrive (b : Bar) (q p : Nat) : Bar :=
  if b.arrived.length + 1 = p then { gen := b.gen + 1, arrived := [] } else { b with arrived := b.arrived ++ [q] }

/-! ### Activations -/

/-- Drop one instance: its tokens, its bound port, its place in the pipeline (R202, R219). -/
def dropInst (s : State) (i : Nat) : State :=
  match s.inst? i with
  | none => s
  | some n =>
    let s := { s with insts := Tbl.erase s.insts i, transit := s.transit.filter (·.inst ≠ i) }
    let s := s.modAct n.act fun a => { a with insts := a.insts.filter (· ≠ i) }
    match s.act? n.act with
    | some a => s.modTile a.tile fun t => { t with ports := t.ports.map fun p => if p.inst = some i then { p with inst := none, redo := none } else p }
    | none => s

/-- The activation ends: its instances vanish and its tag is free (R188). -/
def dropAct (s : State) (n : Nat) : State :=
  match s.act? n with
  | none => s
  | some a =>
    let s := a.insts.foldl dropInst s
    let s := { s with acts := Tbl.erase s.acts n }
    s.modCtx a.ctx fun c => { c with tags := c.tags.filter (· ≠ a.tag.toNat) }

/-! ### Kernels and groups -/

/-- The scratchpad places of the banks that a mapping entry names. -/
def spRange (tile : Nat) (e : Word) : Nat × Nat :=
  let base := scratchBase tile + fieldOf e 58 4 * 65536
  (base, base + (fieldOf e 54 4 + 1 - fieldOf e 58 4) * 65536)

/-- The lines that a mapping entry of a tile backs, each with its scratchpad place. -/
def spLines (s : State) (tile : Nat) (e : Word) : Tbl Nat :=
  s.mapped.filter fun km => (spRange tile e).1 ≤ km.2 && km.2 < (spRange tile e).2

/-- A dirty line of a mapping entry has no way home at this moment: its write-back waits (R15, R411). -/
def spHeld (s : State) (tile : Nat) (e : Word) : Bool :=
  (spLines s tile e).any fun km => spIsDirty s km.2 && (route s (dieOf tile) (homeDie km.1)).isNone

/-- Write back the dirty lines of a mapping entry to the places that they back, and release its lines at their homes (R73). -/
def spWriteBack (s : State) (tile : Nat) (e : Word) : State :=
  let s := (spLines s tile e).foldl (fun s km => spRelease s km.1 km.2) s
  let n := (fieldOf e 54 4 + 1 - fieldOf e 58 4) * 512
  let m : BitVec 8192 := BitVec.ofNat 8192 ((2 ^ n - 1) * 2 ^ (fieldOf e 58 4 * 512))
  s.modTile tile fun t => { t with spFilled := t.spFilled &&& ~~~m, spDirty := t.spDirty &&& ~~~m }

/-- Force the write-back of every valid mapping entry of a tile and end the mappings (R73, R355). -/
def spReset (s : State) (tile : Nat) : State :=
  let s := (s.tile tile).spmap.toList.foldl (fun s e => if e.getLsbD 63 then spWriteBack s tile e else s) s
  s.modTile tile fun t => { t with spmap := Vector.replicate 16 0, spFilled := 0, spDirty := 0 }

/-- Detached errands of a group that ends: final ones are reaped, live ones become orphans of the kernel (R383, R355). -/
def orphanErrands (s : State) (kn tile : Nat) : State :=
  (allErrands s).foldl (fun s x =>
    if x.2.2.owner = .group kn tile then
      if x.2.2.st.final then reap s x.1 x.2.1 else s.modErrand x.1 x.2.1 fun e => { e with owner := .orphan kn }
    else s) s

/-- The threads of a tile that have ended unreaped become FREE (Table 17-2). -/
def freeEnded (s : State) (tile : Nat) : State :=
  (tileThreads s tile).foldl (fun s kt => if kt.2.stat = .ended then s.setThr kt.1 { kt.2 with stat := .free } else s) s

/-- The group of a tile ends (R362): ended threads are freed, final detached errands reaped, live ones become orphans, and it stops
being a participant of the grid barriers (R389, R390). -/
def endGroup (s : State) (tile : Nat) : State :=
  match (s.tile tile).group with
  | none => s
  | some g =>
    if g.stat = .ended then s else
    let s := s.modTile tile fun t => { t with group := some { g with stat := .ended } }
    let s := orphanErrands (freeEnded s tile) g.kernel tile
    let s := s.modKern g.kernel fun k =>
      let live := k.live.filter (· ≠ g.rank)
      { k with live := live, gbars := k.gbars.map fun b => b.withdraw g.rank live.length }
    checkKernel (checkTileFree s tile) g.kernel

/-- End the group where its condition holds: a grid group when no member thread and no handler thread of it runs, a graph group when the
root and every activation in its planes have ended (R362). -/
def checkGroupEnd (s : State) (tile : Nat) : State :=
  match (s.tile tile).group with
  | none => s
  | some g =>
    if g.stat ≠ .live then s else
    match s.kern? g.kernel with
    | none => s
    | some k =>
      let busy :=
        if hdrGraph k.hdr then
          (match k.root with | some r => (s.act? r).isSome | none => false) ||
          (s.acts.any fun ka => ka.2.kernel = g.kernel && ka.2.tile = tile)
        else (tileThreads s tile).any fun kt => kt.2.kernel = g.kernel &&
          (kt.2.member || (kt.2.running && (match kt.2.role with | .faultHandler _ => true | _ => false)))
      if busy then s else endGroup s tile

/-! ### Threads -/

/-- Withdraw a member thread from the tile barriers (R390). -/
def leaveBars (s : State) (k : Nat) : State :=
  let n := members s (tileOf k)
  s.modTile (tileOf k) fun t => { t with bars := t.bars.map fun b => b.withdraw k n }

/-- Leave every semaphore queue (Table 19-3). -/
def leaveSems (s : State) (k : Nat) : State :=
  s.modTile (tileOf k) fun t => { t with semQ := t.semQ.filter fun q => q.2.1 ≠ k }

/-- An errand that a thread issued or takes the warnings of, once that thread has ended: it warns nobody (R101), and a later thread of the same context is not
its issuer, while those that the ended one issued keep their order (R257). -/
def Errand.orphanOf (e : Errand) (k tick : Nat) : Errand :=
  { e with warnTo := if e.warnTo = some k then none else e.warnTo, issuer := if e.issuer = k then 2 ^ 40 * (tick + 1) + k else e.issuer }

/-- A thread has ended for every errand. -/
def dropWarnTo (s : State) (k : Nat) : State :=
  { s with tiles := s.tiles.map fun kt => (kt.1, { kt.2 with errands := kt.2.errands.map fun se => (se.1, se.2.orphanOf k s.tick) }) }

/-- Errands attached to a thread: cancelled in ascending slot order if live, reaped if final (R381, R383). -/
def dropAttached (s : State) (k : Nat) : State :=
  (allErrands s).foldl (fun s x =>
    match s.errand? x.1 x.2.1 with
    | none => s
    | some e =>
      if e.owner ≠ .thread k then s
      else if e.st.final then reap s x.1 x.2.1
      else (cancelErrand (s.setErrand x.1 x.2.1 { e with gone := true }) x.1 x.2.1 0).1) s

/-- The thread ends by `halt` or `ret` (R241, R154): its stores are visible at device scope, its attached errands are cancelled, it stops
counting as a live thread, and its group and kernel end where that was the last thing they waited for. -/
def endThread (s : State) (k : Nat) : State :=
  let t := s.thr k
  let tile := tileOf k
  let wasMember := t.member
  let s := releaseDevice s tile
  let reapable := wasMember && (match (s.tile tile).group with | some _ => true | none => false)
  let s := s.setThr k { t with stat := if reapable then .ended else .free, wait := .none, hwait := .none, stores := [], owed := [], inh := false }
  let s := dropWarnTo (dropAttached s k) k
  let s := leaveSems s k
  let s := if wasMember then leaveBars s k else s
  checkKernel (checkGroupEnd s tile) t.kernel

/-! ### Stops (R317) -/

/-- The nearest allotment on the path whose CONTAIN is 1; the root counts as such. -/
def containOf (c : Ctx) (i : Nat) : Nat :=
  let p := allotPath c i
  match p.find? (fun j => match Tbl.find? c.allots j with | some a => a.parent.isNone || a.flags.getLsbD 0 | none => false) with
  | some j => j
  | none => i

/-- Stop one thread where it stands; it waits for nothing more, and leaves the semaphore queues. -/
def stopThread (s : State) (k : Nat) : State := leaveSems (s.modThr k fun t => { t with stat := .stopped, wait := .none, hwait := .none, owed := [] }) k

/-- A kernel of the stopped subtree fails, its groups end with their unreaped threads, and its barriers are discarded (R356, Tables 17-1, 17-2, 19-1). -/
def failKernel (s : State) (kn : Nat) (cause : BitVec 6) : State :=
  match s.kern? kn with
  | none => s
  | some k =>
    if k.st = .complete || k.st = .failed then s else
    let s := s.setKern kn { k with st := .failed, cause := cause, live := [], gbars := Vector.replicate 4 { gen := 0, arrived := [] } }
    k.tiles.foldl (fun s tile => match (s.tile tile).group with
      | some g => if g.kernel = kn then
          let s := s.modTile tile fun t =>
            { t with group := some { g with stat := .ended, resid := .resident }
                     bars := Vector.replicate 16 { gen := 0, arrived := [] } }
          checkTileFree (orphanErrands (freeEnded s tile) kn tile) tile
        else s
      | none => s) s

/-- Stop the fault domain that contains allotment `i` of context `cn` (R317): once, with its consequences for threads, activations,
errands, tasks, groups and kernels, and the report to the owner. -/
def stopSubtree (s : State) (cn i : Nat) (cause : BitVec 6) : State :=
  let c := s.ctx cn
  let within := fun (j : Nat) => (allotPath c j).contains i
  let s := s.setCtx cn { c with allots := c.allots.map fun ja => if ja.1 = i then (ja.1, { ja.2 with stopped := true }) else ja }
  let gone := (s.tasks.filter fun t => t.ctx = cn && within t.allot).map (·.allot)
  let s := { s with tasks := s.tasks.filter fun t => !(t.ctx = cn && within t.allot) }
  let s := gone.foldl (fun s a => syncHead s cn a) s
  let s := s.threads.foldl (fun s kt => if kt.2.ctx = cn && within kt.2.allot && kt.2.running then stopThread s kt.1 else s) s
  let s := s.acts.foldl (fun s ka => if ka.2.ctx = cn && within ka.2.allot then dropAct s ka.1 else s) s
  let errs := (allErrands s).filter fun x => x.2.2.ctx = cn && within x.2.2.allot && !x.2.2.st.final && x.2.2.st ≠ .publishing
  let s := errs.foldl (fun s x => s.modErrand x.1 x.2.1 fun e => { e with cancel := some ((stopCause e).getD cause) }) s
  let s := errs.foldl (fun s x => (cancelErrand s x.1 x.2.1 cause).1) s
  let s := s.kernels.foldl (fun s kk => if kk.2.ctx = cn && within kk.2.allot then failKernel s kk.1 cause else s) s
  let s := if (match Tbl.find? c.allots i with | some a => a.parent.isNone | none => false) && (s.ctx cn).st = .running
    then s.modCtx cn fun c => { c with st := .faulted } else s
  -- groups whose last activation, thread or handler of another allotment has gone end now (R355, R362)
  let s := s.tiles.foldl (fun s kt => checkGroupEnd s kt.1) s
  let s := settleAll s
  { s with dev := { s.dev with events := s.dev.events ++ [(cn, i, cause.toNat)] } }

/-- The stop that an undelivered cause, or a FATAL `eret`, of an agent of allotment `i` makes (R250, R252, R317). -/
def allotStop (s : State) (cn i : Nat) (cause : BitVec 6) : State :=
  let j := containOf (s.ctx cn) i
  if allotStopped s cn j then s else stopSubtree s cn j cause

end Sys2Proof.Machine
end

