-- ==== Sys2Proof/Machine/Ops.lean ====
section
/-!
DEFINITION. Registers, taking an exception and returning from one (R250 to R252), fetch (R90), and the issue of a C bundle (R92 to R100,
R365): readiness, guard, sources, tickets, and what a meaning answers.
-/
namespace Sys2Proof.Machine
open Sys2Proof

/-! ### Registers (R94, Table 05-13) -/

def getV {n : Nat} {α : Type} (v : Vector α n) (d : α) (i : Nat) : α := v.toList.getD i d
def putV {n : Nat} {α : Type} (v : Vector α n) (i : Nat) (a : α) : Vector α n := v.mapIdx fun j b => if j = i then a else b

namespace Thread
/-- `xr(n)`: `x0` reads zero. -/
def xr (t : Thread) (n : Nat) : Word := if n = 0 then 0 else getV t.x 0 n
def vr (t : Thread) (n : Nat) : Vec := getV t.v 0 n
/-- `pr(n)`: `p0` reads 1. -/
def pr (t : Thread) (n : Nat) : Bool := n = 0 || t.p.getLsbD n
/-- `mr(n)`: `m0` reads all ones. -/
def mr (t : Thread) (n : Nat) : Word := if n = 0 then BitVec.allOnes 64 else getV t.m 0 n
/-- `xw(n, v)`: writes and marks full, clears a poison mark; no effect for `x0`. -/
def xw (t : Thread) (n : Nat) (v : Word) : Thread :=
  if n = 0 then t else { t with x := putV t.x n v, full := t.full ||| (1#96 <<< n), pois := Tbl.erase t.pois n }
def vw (t : Thread) (n : Nat) (v : Vec) : Thread :=
  { t with v := putV t.v n v, full := t.full ||| (1#96 <<< (64 + n)), pois := Tbl.erase t.pois (64 + n) }
def pw (t : Thread) (n : Nat) (b : Bool) : Thread :=
  if n = 0 then t else { t with p := (t.p &&& ~~~(1#8 <<< n)) ||| (if b then 1#8 <<< n else 0) }
def mw (t : Thread) (n : Nat) (w : Word) : Thread := if n = 0 then t else { t with m := putV t.m n w }
/-- The register (0–63 `x`, 64–95 `v`) is full; `x0` always is. -/
def isFull (t : Thread) (i : Nat) : Bool := i = 0 || t.full.getLsbD i
/-- `xe`, `ve`: the register awaits `f`. A fill for `x0` marks nothing. -/
def await (t : Thread) (f : Fill) : Thread :=
  { t with full := if f.reg = 0 then t.full else t.full &&& ~~~(1#96 <<< f.reg)
           pois := if f.reg = 0 then t.pois else Tbl.erase t.pois f.reg
           fills := t.fills ++ [f] }
/-- A result of a pending fill arrives: the value, and a poison mark where there is one (R146). -/
def arrive (t : Thread) (reg : Nat) (val : Vec) (p : Option PoisonInfo) : Thread :=
  let t := if reg = 0 then t else if reg < 64 then t.xw reg (val.setWidth 64) else t.vw (reg - 64) val
  if reg = 0 then t else match p with
    | some i => { t with pois := Tbl.set t.pois reg i }
    | none => t
/-- A ticket falls by one. -/
def dropTicket (t : Thread) (k : Option Nat) : Thread :=
  match k with
  | some k => { t with tickets := putV t.tickets k (getV t.tickets 0 k - 1) }
  | none => t
end Thread

/-! ### Taking an exception (R249 to R252) -/

/-- Deliver a cause to thread `k`: its handler when DELIV and INH allow it (R126, R251), else the thread stops, its trap registers kept for inspection (R250, R441; log 58), and
so does its fault domain (R317). A wait in which an issued bundle holds the thread goes on after the handler's return (R251). -/
def takeTrap (s : State) (k : Nat) (cause : BitVec 6) (tepc taddr tinfo : Word) : State :=
  let t := s.thr k
  let u := { t with tcause := cause, tepc := tepc, taddr := taddr, tinfo := tinfo, tframe := 0 }
  if t.inh then allotStop (stopThread s k) t.ctx t.allot cause
  else if t.traps.getLsbD cause.toNat then
    s.setThr k { u with stat := .handler, inh := true, hold := 0, hwait := t.wait, wait := .none, pc := t.tvec }
  else allotStop (stopThread (s.setThr k u) k) t.ctx t.allot cause

/-- Return from a thread fault's handler: FATAL stops the thread and its fault domain, else INH := 0 and pc := `SR.TEPC` (R252). -/
def returnTrap (s : State) (k : Nat) : State :=
  let t := s.thr k
  if t.traps.getLsbD (33 + t.tcause.toNat) then allotStop (stopThread s k) t.ctx t.allot t.tcause
  else s.setThr k { t with stat := .live, inh := false, wait := t.hwait, hwait := .none, pc := t.tepc }

/-! ### Fetch (R90) -/

/-- What a fetch gives: an instruction, a trap's cause, `TADDR` and `TINFO`, or nothing while no path to its place is UP (R411, R412). -/
inductive Fetched where
  | instr (i : Instr)
  | trap (cause : BitVec 6) (taddr tinfo : Word)
  | wait
deriving DecidableEq, Repr

/-- Causes of words that do not decode (R90 steps 5 and 6): `TINFO[11:0]` holds the word's low bits, and 0 for `POOL_EXEC` (Table 10-3). -/
def decTrap (e : DecErr) (w : IWord) : Fetched :=
  let c := match e with
    | .illegalCls => cILLEGAL_CLS
    | .poolExec => cPOOL_EXEC
    | _ => cILLEGAL_OPC
  .trap c 0 (if e = .poolExec then 0 else (w.setWidth 64) &&& 0xFFF#64)

/-- The line that the instruction cache of a tile keeps and serves a fetch from at this moment (Table 01-2). The spec gives the cache no coherence rule: what
it keeps may be older than the line's home (log 92). -/
def icacheLine (s : State) (tile p : Nat) : Option (BitVec 1024) :=
  match Tbl.find? (s.tile tile).icache (lineOf p) with
  | some d => if Config.icacheServes s.tick then some d else none
  | none => none

/-- A fetch from a place waits for a path to it, for a stack that takes requests, and for the meters of the agent that moves (R30, R370, R411, R412), unless the
instruction cache serves it (log 92). -/
def fetchWaits (s : State) (tile p : Nat) : Bool :=
  let x := payer s s.mover
  noRoute s { tile := tile, ctx := (x.map (·.1)).getD 0, dev := true, allot := x.map (·.2) } p .exAny && (icacheLine s tile p).isNone

/-- Keep a line in a tile's instruction cache of 512 lines; a full one gives up the line that it chooses (log 5). -/
def icacheKeep (s : State) (tile line : Nat) (d : BitVec 1024) : State :=
  s.modTile tile fun t =>
    let l := if t.icache.length < 512 || (Tbl.find? t.icache line).isSome then t.icache else t.icache.eraseIdx (Config.l1Victim s.tick % t.icache.length)
    { t with icache := Tbl.set l line d }

/-- `n` bytes of one line of code at a place, from the line that the instruction cache serves or else from the line's home, which the cache then keeps; it is
all one where the kept line is as the home holds it. -/
def codeBytes (s : State) (tile p n : Nat) : State × List Byte :=
  let home := BitVec.ofNat 1024 (leNat (readHome s (lineOf p) 128))
  if Tbl.find? (s.tile tile).icache (lineOf p) = some home then (s, readHome s p n) else
  match icacheLine s tile p with
  | some d => (s, lineBytes { data := d, dirty := 0, old := false } (p % 128) n)
  | none => (icacheKeep (hbmMoved s (lineOf p)) tile (lineOf p) home, readHome s p n)

/-- Fetch the bundle at `pc` for a thread's tile and context: R90 steps 1 to 6. A fetch passes by a dirty copy in the tile's own L1 (log 92). -/
def fetchC (s : State) (tile ctx : Nat) (pc : Word) : State × Fetched :=
  match windowOf pc.toNat with
  | none => (s, .trap cNO_WINDOW pc 0)
  | some .w0 =>
    match translateLeaf s tile ctx pc .exC with
    | (s, .error f) => if f = notYet then (s, .wait) else (s, .trap f.1 pc (BitVec.ofNat 64 f.2))
    | (s, .ok (_, p)) =>
      if errReply s p && (icacheLine s tile p).isNone then (s, .trap cLINK_ERR pc 0)
      else if fetchWaits s tile p then (s, .wait)
      else if poisoned s p 16 && (icacheLine s tile p).isNone then (s, .trap cPOISON pc 0)
      else
        let r := codeBytes s tile p 16
        let w := BitVec.ofNat 128 (leNat r.2)
        match decodeC w with
        | .ok i => (r.1, .instr i)
        | .error e => (r.1, decTrap e w)
  | some _ => (s, .trap cPAGE_PERM pc 0)

/-- The turn of a context comes at the cycles whose number is its own modulo 16 (R364): time goes on to the next one after its last turn. The two cores of a tile
share a cycle, and what the rules give to the lower `tp` there (R234) goes first: a work core's turn does not come after the stage core's of the same cycle. -/
def toSlot (s : State) (k : Nat) : State :=
  let c := max s.dev.cycles (s.thr k).turned
  let n := c + (ctxIx k + 16 - c % 16) % 16
  let now := if !isStage k && (s.thr (k + 16)).turned = n + 1 then n + 16 else n
  { s.modThr k (fun t => { t with turned := now + 1 }) with dev := { s.dev with cycles := now } }

/-- Take a fetch trap at the thread's pc: the turn counts as issued (Table 10-2, R365). -/
def takeFetchTrap (s : State) (k : Nat) (cause : BitVec 6) (taddr tinfo : Word) : State :=
  let s := s.modThr k fun t => { t with issued := t.issued + 1 }
  takeTrap s k cause (s.thr k).pc taddr tinfo

/-! ### Decode warnings (R92, R96, R98, R99, Table 05-7) -/

def wbit (n : Nat) (b : Bool) : BitVec 16 := if b then 1#16 <<< n else 0

/-- Integer opcodes with signedness (R98): `cmp`, `div`, `rem`, `min`, `max`, `shr`, the vector
compares, reductions and scans, and `vdot` (R177). -/
def hasSgn (opc : Nat) : Bool := opc = 0x05 || opc = 0x06 || opc = 0x0D || opc = 0x0F || opc = 0x10 || opc = 0x11 || 0x42 ≤ opc && opc ≤ 0x44 || opc = 0x50

/-- The `SR.WARN` bits that the encoding of a bundle sets (R92, R96, R99). `SATF` for SAT = 1 under an IEEE FMT is set by `fcmp` as by every scalar float
opcode, and not by `vcmp`, `vnarrow` and `vwiden` (log 41). An integer `vred` or `vscan` with rounding code 6 or 7 sets RNDI and no RNDR (log 109).
SGN on an opcode outside the lists of R98 sets SGNI under b1 and t2 too (R135; log 132). -/
def decodeWarn (opc : Nat) (f : CForm) : BitVec 16 :=
  let u := useOf opc f
  let g := grpOf opc
  let k := f.fmt
  let un := fun (kd : Kind) (r : BitVec 6) => kd = .no && r ≠ 0
  let imm := f.imm.toNat
  let rnd := if opc = 0x42 || opc = 0x43 then imm % 8 else f.var
  let isRnd := (opc = 0x42 || opc = 0x43) || (varMax opc).isNone
  let flt := g = .flt
  let vec := g = .vec
  let mem := g = .mem
  let ld := opc = 0x60 || opc = 0x62 || opc = 0x64 || opc = 0x66
  let st := opc = 0x61 || opc = 0x63 || opc = 0x65 || opc = 0x67
  let vf := opc = 0x42 || opc = 0x43 || opc = 0x50
  wbit 0 (f.rsv ≠ 0 || un u.d f.d || un u.a f.a || un u.b f.b || un u.c f.c || imm &&& u.imm ≠ imm ||
      f.md.toNat &&& u.md ≠ f.md.toNat || (!u.prd && f.prd ≠ 0)) |||
  wbit 5 (f.sat && ((flt && !(opc = 0x28 && !isIeee k)) || (vf && !isIntFmt k))) |||
  wbit 6 ((g = .int && isRnd && opc ≠ 0 && rnd ≠ 0) || (vf && opc ≠ 0x50 && isIntFmt k && rnd ≠ 0)) |||
  wbit 7 (isRnd && 6 ≤ rnd && (flt || (vec && !(opc ≠ 0x50 && vf && isIntFmt k)))) |||
  wbit 8 (f.sgn && ((opc = 0x28 && !isIeee k && !isIeee (imm % 32)) ||
      (vec && opc ≠ 0x50 && !isIntFmt k && !isIeee k && !((opc = 0x4E || opc = 0x4F) && isIeee (imm % 32))))) |||
  wbit 9 (f.sgn && ((g = .int && opc ≠ 0 && !hasSgn opc) || (vec && isIntFmt k && !hasSgn opc))) |||
  wbit 10 ((ld || st) && f.scope ≠ 0 && f.ord = 0) |||
  wbit 11 ((ld && f.ord = 3) || (st && f.ord = 2) || (mem && !ld && !st && (f.ord ≠ 0 || f.scope ≠ 0))) |||
  wbit 13 ((g = .int && opc ≠ 0 && !isIntFmt k) ||
      ((opc = 0x1C || opc = 0x1D) && k ≠ 6 && k ≠ 7) || (flt && opc ≠ 0x28 && !isIeee k)) |||
  wbit 14 (9 ≤ f.tkn.toNat) |||
  wbit 15 ((g = .int && opc ≠ 0 || flt) && f.cls ≠ 4 && f.zro)

/-! ### Issue of a C bundle -/

/-- What a meaning answers: the bundle completed (`late`: its ticket falls at a later fill or acceptance) and the thread goes on at pc + 16 or
at a target; it trapped, at itself or after itself; it is not ready; the thread has ended; it has issued and its request to memory is held. -/
inductive BRes where
  | ok (s : State) (late : Bool)
  | jump (s : State) (pc : Word)
  | trap (s : State) (cause : BitVec 6) (taddr tinfo : Word)
  | after (s : State) (cause : BitVec 6) (tinfo : Word)
  | wait (s : State)
  | stop (s : State)
  | held (s : State) (r : HeldReq)
deriving DecidableEq, Repr

/-- Poison met by a reader (R146): the cause and the address that the mark keeps; `TINFO[0]` = 1, data. -/
def poisTrap (s : State) (p : PoisonInfo) : BRes := .trap s p.cause p.addr (if p.cause = cPOISON then 1 else 0)

/-- Reads of x-registers beyond the fields `A`, `B`, `C` (trailing operands, `ra`, `a0`…): the thread waits for an empty one, and a poisoned one
traps. -/
def needX (s : State) (k : Nat) (rs : List Nat) (go : BRes) : BRes :=
  let t := s.thr k
  if rs.any fun r => !t.isFull r then .wait s else
  match rs.findSome? fun r => Tbl.find? t.pois r with
  | some p => poisTrap s p
  | none => go

/-- Index of a field's register among the 96; none for `x0`, predicates and masks. -/
def regIx (k : Kind) (r : BitVec 6) : Option Nat :=
  match k with
  | .x => if r = 0 then none else some r.toNat
  | .v => some (64 + r.toNat)
  | _ => none

/-- A field names a register beyond the thread's counts (R92). -/
def beyond (t : Thread) (k : Kind) (r : BitVec 6) : Bool :=
  match k with
  | .x => t.xregs ≤ r.toNat && r ≠ 0
  | .v => t.vregs ≤ r.toNat
  | _ => false

/-- The lane mask of a bundle (Table 05-13, `active`). -/
def laneMask (t : Thread) (f : CForm) : Word :=
  let m := t.mr (f.prd.toNat % 8)
  if f.prd.getLsbD 3 then ~~~m else m

/-- Bundles whose `PRD` is a lane mask: class V and the vector memory opcodes (R93, R178). -/
def maskedOpc (opc : Nat) (f : CForm) : Bool := f.cls = 4 || (0x62 ≤ opc && opc ≤ 0x67)

/-- `guard()` (R93). -/
def guardOf (t : Thread) (f : CForm) : Bool := t.pr (f.prd.toNat % 8) != f.prd.getLsbD 3

/-- The x-registers that an engine bundle's trailing fields name (R253). -/
def trailing (opc : Nat) (f : CForm) : List (BitVec 6) :=
  let cc := if f.md.getLsbD 10 then [f.imm.extractLsb' 0 6] else []
  let sw := if f.md.getLsbD 11 then [f.imm.extractLsb' 6 6] else []
  let af := if f.md.getLsbD 7 then [f.imm.extractLsb' 12 6] else []
  if opc = 0x90 || opc = 0x92 || opc = 0x93 || opc = 0x95 || opc = 0x96 then af ++ cc ++ sw
  else if opc = 0x94 then cc ++ sw
  else if opc = 0x91 then af
  else []

/-- The matrix unit is not reserved for the thread's group, or the core is a stage core (R19, R125, R254 step 1). -/
def workDenied (s : State) (k opc : Nat) : Bool :=
  0x90 ≤ opc && opc ≤ 0x92 && (isStage k || (match groupKernel s (tileOf k) with
    | some kn => (match s.kern? kn with | some kr => !hdrWork kr.hdr | none => true)
    | none => true))

/-- Advance past an issued bundle: decode warnings, `HOLD`, the count of issued bundles, pc. -/
def issued (s : State) (k : Nat) (f : CForm) (w : BitVec 16) (pc : Word) : State :=
  s.modThr k fun t => { t with warn := t.warn ||| w, hold := f.hold.toNat, issued := t.issued + 1, pc := pc }

/-- The thread takes a ticket (R96). -/
def Thread.takeTicket (t : Thread) (ticket : Option Nat) : Thread :=
  match ticket with
  | some n => { t with tickets := putV t.tickets n (getV t.tickets 0 n + 1) }
  | none => t

/-- The thread's request is held: its destination is empty until the request is served (R365). -/
def Thread.holdReq (t : Thread) (r : HeldReq) : Thread :=
  { t with held := some r, full := match regIx (useOf r.opc r.env.f).d r.env.f.d with | some i => t.full &&& ~~~(1#96 <<< i) | none => t.full }

/-- Settle what a meaning answered for the bundle at `pc`. -/
def settle (k : Nat) (f : CForm) (w : BitVec 16) (pc : Word) (ticket : Option Nat) (r : BRes) : State :=
  match r with
  | .ok s late =>
    let s := issued s k f w (pc + 16)
    if late then s.modThr k fun t => t.takeTicket ticket else s
  | .jump s pc => issued s k f w pc
  | .trap s c a i => takeTrap (s.modThr k fun t => { t with warn := t.warn ||| w, issued := t.issued + 1 }) k c pc a i
  | .after s c i => takeTrap (s.modThr k fun t => { t with warn := t.warn ||| w, issued := t.issued + 1 }) k c (pc + 16) 0 i
  | .wait s => s
  | .stop s => s.modThr k fun t => { t with warn := t.warn ||| w, issued := t.issued + 1 }
  | .held s r => (issued s k f w (pc + 16)).modThr k fun t => (t.takeTicket ticket).holdReq r

/-- The ticket that a bundle takes (R96): `TKN` 1 to 8. -/
def ticketOf (f : CForm) : Option Nat := if 1 ≤ f.tkn.toNat && f.tkn.toNat ≤ 8 then some (f.tkn.toNat - 1) else none

/-- The registers that the source fields name, each with its `FEM` bit and number (R94). -/
def srcsOf (opc : Nat) (f : CForm) : List (Option Nat × Bool × Nat) :=
  let u := useOf opc f
  [(regIx u.a f.a, f.fem.getLsbD 0, 0), (regIx u.b f.b, f.fem.getLsbD 1, 1), (regIx u.c f.c, f.fem.getLsbD 2, 2)]

/-- The registers that a bundle reads through its fields: the sources, and a destination that is also a source. -/
def readsOf (opc : Nat) (f : CForm) : List (Option Nat) :=
  let u := useOf opc f
  (srcsOf opc f).map (·.1) ++ [if u.dRd then regIx u.d f.d else none]

/-- The register is empty. -/
def emptyReg (t : Thread) (r : Option Nat) : Bool := match r with | some i => !t.isFull i | none => false

/-- The ticket that the bundle takes is at its limit (R96). -/
def ticketFull (t : Thread) (f : CForm) : Bool := match ticketOf f with | some n => decide (63 ≤ getV t.tickets 0 n) | none => false

/-- A store, `pub`, `cwb` or `cinv` finds the thread's store buffer full (R365). The spec gives the buffer no size: it is free, and at least one (log 5). -/
def bufferFull (t : Thread) (opc : Nat) : Bool :=
  (opc = 0x61 || opc = 0x63 || opc = 0x65 || opc = 0x67 || opc = 0x69 || opc = 0x6A || opc = 0x73) && !t.stores.isEmpty &&
    decide (Config.storeRoom < t.stores.length)

/-- Bundles that reach no memory, order nothing and end no thread: they issue behind a held request (log 5). -/
def ownOnly (opc : Nat) : Bool := opc < 0x60 || (0x80 ≤ opc && opc ≤ 0x82) || opc = 0xB2 || opc = 0xB3

/-- The bundle waits behind a held request of its thread, or for room in the store buffer (R365). -/
def behindHeld (t : Thread) (opc : Nat) : Bool := (t.held.isSome && !ownOnly opc) || bufferFull t opc

/-- The first poison mark among registers that a bundle reads. -/
def firstPoison (t : Thread) (rs : List (Option Nat)) : Option PoisonInfo :=
  rs.findSome? fun r => match r with | some i => Tbl.find? t.pois i | none => none

/-- The bundle names a register beyond the thread's counts (R92). -/
def beyondAny (opc : Nat) (f : CForm) (t : Thread) : Bool :=
  let u := useOf opc f
  beyond t u.d f.d || beyond t u.a f.a || beyond t u.b f.b || beyond t u.c f.c || (trailing opc f).any (beyond t .x)

/-- What the meaning of a bundle of the current thread has to work with. -/
def cenv (opc : Nat) (f : CForm) (s : State) : CEnv :=
  let k := s.curThread
  let t := s.thr k
  let u := useOf opc f
  let xv := fun (kd : Kind) (r : BitVec 6) => if kd = .x then t.xr r.toNat else 0
  let vv := fun (kd : Kind) (r : BitVec 6) => if kd = .v then t.vr r.toNat else 0
  { k := k, tile := tileOf k, ctx := t.ctx, allot := t.allot, pc := t.pc, f := f
    a := xv u.a f.a, b := if f.cls = 1 then f.simm else xv u.b f.b, c := xv u.c f.c
    va := vv u.a f.a, vb := vv u.b f.b, vc := vv u.c f.c, mask := laneMask t f, ticket := ticketOf f }

/-- Issue the bundle `f` of opcode `opc` for the current thread: the rest of R90 (register counts, `PRIV`), warnings or the warning trap (R100),
readiness (R365), the guard (R93), sources (R94, R146), then the meaning. A bundle that is not ready changes nothing. Of sources that an
empty register and a poison mark stop, the empty ones come first, in the order A, B, C (log 130). -/
def runC (opc : Nat) (f : CForm) (s : State) (body : CEnv → State → BRes) : State :=
  let k := s.curThread
  let t := s.thr k
  if !t.running then s else
  let w := decodeWarn opc f
  let low := BitVec.ofNat 64 (opc * 16 + f.cls.toNat)
  if beyondAny opc f t then takeFetchTrap s k cILLEGAL_OPC 0 (low ||| 0x1000#64)
  else if workDenied s k opc then takeFetchTrap s k cPRIV 0 2
  else if w ≠ 0 && t.traps.getLsbD 33 then
    takeFetchTrap s k cILLEGAL_OPC 0 (0x8000000000000000#64 ||| w.setWidth 64)
  else if (List.range 8).any fun n => f.need.getLsbD n && getV t.tickets 0 n ≠ 0 then s
  else if ticketFull t f then s
  else if !maskedOpc opc f && !guardOf t f then issued s k f w (t.pc + 16)
  else if behindHeld t opc then s
  else if emptyReg t (regIx (useOf opc f).d f.d) || (srcsOf opc f).any (fun x => emptyReg t x.1 && !x.2.1) then s
  else match (srcsOf opc f).find? (fun x => emptyReg t x.1) with
    | some x => settle k f w t.pc (ticketOf f) (.trap s cEMPTY_READ 0 (BitVec.ofNat 64 x.2.2))
    | none =>
      match firstPoison t (readsOf opc f) with
      | some p => settle k f w t.pc (ticketOf f) (poisTrap s p)
      | none => settle k f w t.pc (ticketOf f) (body (cenv opc f s) s)

/-! ### What meanings end with -/

/-- Write an x-register and complete. -/
def retX (e : CEnv) (s : State) (v : Word) : BRes := .ok (s.modThr e.k fun t => t.xw e.f.d.toNat v) false
/-- Mark an x-register empty and complete with a pending fill (long latency, R94). -/
def retFill (e : CEnv) (s : State) (v : Word) : BRes :=
  .ok (s.modThr e.k fun t => t.await
    { reg := e.f.d.toNat, val := v.setWidth 2048, pois := none, ticket := e.ticket, kind := .value, err := false }) true
/-- Set warning bits found at execution. -/
def addWarn (s : State) (k : Nat) (w : BitVec 16) : State := s.modThr k fun t => { t with warn := t.warn ||| w }

/-- Raise flags (R40, R41): `SR.FSTAT` takes every one, and an enabled one traps `FP_EXC` with the destination unwritten. -/
def raiseC (e : CEnv) (s : State) (fl : BitVec 13) (go : State → BRes) : BRes :=
  let en := (s.thr e.k).fstat.extractLsb' 8 5
  let s := s.modThr e.k fun t => { t with fstat := t.fstat ||| fl }
  if fl.extractLsb' 0 5 &&& en ≠ 0 then .trap s cFP_EXC 0 ((fl.extractLsb' 0 5).setWidth 64) else go s

/-- Report the oldest deferred error (R249, R421): at a fence, a release access, `pub`, `halt` or a pre-emption. A reporting bundle waits for the error
replies that are still due to earlier stores, for what the links that others cross may yet make of them, and, where it releases at device scope or
wider, for the way home of every dirty line of its tile (R15, R300, R411). -/
def reportDeferred (s : State) (k scope : Nat) (go : State → BRes) : BRes :=
  match (s.thr k).deferred with
  | [] => if (s.thr k).stores.any (·.awaited) || (2 ≤ scope && drainHeld s (tileOf k) fun _ => true) then .wait s else go s
  | d :: r => .trap (s.modThr k fun t => { t with deferred := r }) d.cause d.addr d.info

/-- The agent of a thread. -/
def CEnv.agent (e : CEnv) : Agent := { tile := e.tile, ctx := e.ctx, allot := some e.allot }

/-- A stopped access: a trap at `ea` with the sub-code, or the bundle is held until the page moves here (R302). -/
def stopRes (s : State) (st : Stop) (ea : Word) (info : Word) : BRes :=
  match st with
  | .trap c sub => .trap s c ea (info ||| BitVec.ofNat 64 sub)
  | .hold => .wait s

end Sys2Proof.Machine
end

