-- ==== Sys2Proof/Machine/Fabric.lean ====
section
/-!
DEFINITION. Firing of graph instructions (chapter 9): operand slots and tokens (R193, R195), predication and null tokens (R197, R198), stream
instructions (R214, R216), memory order inside an instance (R199 to R201), and what a graph meaning answers.
-/
namespace Sys2Proof.Machine
open Sys2Proof

/-! ### Words of a block -/

/-- Opcode, `LSID` and `NOPND` of a graph word. -/
def wOpc (w : IWord) : Nat := fieldOf w 4 8
def wLsid (w : IWord) : Nat := fieldOf w 37 5
def wNopnd (w : IWord) : Nat := fieldOf w 12 2
def wPmode (w : IWord) : Nat := fieldOf w 14 2
def wImm (w : IWord) : Nat := fieldOf w 48 48

/-- Irrevocable opcodes (R201). -/
def irrevocable (opc : Nat) : Bool :=
  opc = 0x70 || opc = 0x71 || opc = 0x74 || opc = 0x78 || opc = 0x83 || opc = 0x84 || opc = 0x93 || opc = 0x95 || opc = 0x97

/-- Opcodes that carry an `LSID` (R199). -/
def carriesLsid (opc : Nat) : Bool :=
  irrevocable opc || opc = 0x60 || opc = 0x61 || opc = 0x72 || opc = 0x73 || opc = 0x76 || opc = 0xA0 || opc = 0xA1

/-- `IMM` is one field, without `XMOD` (R106). -/
def wholeImm (opc : Nat) : Bool := 0x1B ≤ opc && opc ≤ 0x1D || opc = 0x80 || opc = 0x81 || opc = 0x83 || opc = 0x86 || opc = 0x88

/-- The largest `NOPND` an opcode accepts: its operand count. -/
def maxNopnd (opc : Nat) : Nat := if nopndOk opc 3 then 3 else if nopndOk opc 2 then 2 else if nopndOk opc 1 then 1 else 0

/-- The operand count of a graph word's form: `fsgn.abs` and `.neg` read `A` alone, and a `callr` may have its trigger or not (R115, R158, Table 08-1). -/
def formNopnd (w : IWord) : Nat :=
  let opc := wOpc w
  if opc = 0x27 && wImm w / 2 ^ 40 % 8 ≠ 2 then 1 else if opc = 0x84 then wNopnd w else maxNopnd opc

/-- The stream binding of a graph word: slot and port (R214). It needs every operand as a token; an `exit` of `NOPND` 1 has no immediate (R205). -/
def binding (w : IWord) : Option (Nat × Nat) :=
  let opc := wOpc w
  let im := wImm w
  if (!wholeImm opc || opc = 0x88 || opc = 0x86) && wNopnd w = formNopnd w && 0 < wNopnd w && (im >>> 39) % 2 = 1
  then some ((im >>> 37) % 4, (im >>> 33) % 16) else none

/-- Targets: slot and index of a 10-bit target field, if valid (Table 05-12). -/
def target (t : Nat) : Option (Nat × Nat) := if (t >>> 9) % 2 = 1 then some ((t >>> 7) % 4, t % 128) else none

/-- Every valid target of a graph word, `T2` and `T3` of a `fan` among them. -/
def wTargets (w : IWord) : List (Nat × Nat) :=
  ([target (fieldOf w 17 10), target (fieldOf w 27 10)] ++
   (if wOpc w = 0x88 then [target (fieldOf w 48 10), target (fieldOf w 58 10)] else [])).filterMap id

/-! ### Tokens -/

/-- The queue of an operand slot. -/
def Inst.slot (n : Inst) (ix sl : Nat) : List Token := Tbl.get n.slots [] (ix * 4 + sl)
def Inst.setSlot (n : Inst) (ix sl : Nat) (q : List Token) : Inst :=
  { n with slots := if q.isEmpty then Tbl.erase n.slots (ix * 4 + sl) else Tbl.set n.slots (ix * 4 + sl) q }

/-- A target slot has room: fewer than four unconsumed stream tokens of the instance wait in it or travel to it (R195). -/
def hasRoom (s : State) (inst : Nat) (n : Inst) (t : Nat × Nat) : Bool :=
  ((n.slot t.2 t.1).filter (·.strm)).length +
  (s.transit.filter fun x => x.inst = inst && x.node = t.2 && x.slot = t.1 && x.tok.strm).length < 4

/-- Put a token on its way to targets. -/
def sendTo (s : State) (inst : Nat) (ts : List (Nat × Nat)) (k : Token) : State :=
  { s with transit := s.transit ++ ts.map fun t => { inst := inst, node := t.2, slot := t.1, tok := k } }

/-! ### Matching stores and the barn (R21, R194) -/

/-- The plane's matching store that a token of an instruction takes an entry of: its element, by `PLACE`. -/
def matchAt (n : Inst) (ix : Nat) : Nat := n.plane * 64 + fieldOf (n.block.words.getD ix 0) 96 6

/-- The matching stores that the waiting and travelling tokens of a tile's instances take entries of, one per token. -/
def matchUse (s : State) (tile : Nat) : List Nat :=
  let mine := s.insts.filter fun ki => match s.act? ki.2.act with | some a => a.tile = tile | none => false
  (mine.flatMap fun ki => ki.2.slots.flatMap fun q => List.replicate q.2.length (matchAt ki.2 (q.1 / 4))) ++
  s.transit.filterMap fun x => (mine.find? fun ki => ki.1 = x.inst).map fun ki => matchAt ki.2 x.node

/-- Tokens of a tile beyond the 8 entries of their plane in their element's matching store: so many stand in the barn, whichever they are (R194). -/
def barnUse (s : State) (tile : Nat) : Nat :=
  let l := matchUse s tile
  (l.eraseDups.map fun p => l.count p - 8).foldl (· + ·) 0

/-- Tokens that the barn of a tile's group holds: 32 bytes each of the kernel header's `BARN` (R124, R194). -/
def barnCap (s : State) (tile : Nat) : Nat :=
  match (groupKernel s tile).bind s.kern? with
  | some k => hdrField k.hdr 36 4 / 32
  | none => 0

/-- The tile of an instance. -/
def tileOfInst (s : State) (inst : Nat) : Nat :=
  match (s.inst? inst).bind fun n => s.act? n.act with
  | some a => a.tile
  | none => 512

/-- Frame registers that stand in the barn beside the tokens: of the 64 of each activation of the tile, those that a full frame cache has spilled. The spec gives
the cache no size, so their number is free (log 95). -/
def spilled (s : State) (tile : Nat) : Nat :=
  Config.frameSpill s.tick tile % (64 * (s.acts.countP fun ka => ka.2.tile = tile) + 1)

/-- The tokens of `t` have room in the matching stores, or in the barn of a tile beside the spilled frame registers, or take no more of the barn than those of
`s` (R194). -/
def barnRoom (s t : State) (tile : Nat) : Bool :=
  barnUse t tile = 0 || barnUse t tile ≤ barnUse s tile || barnUse t tile + spilled t tile ≤ barnCap t tile

/-- Go on to `t`, which sends a result of an instance: without room for the result the state stays `s`, and nothing fires until room appears (R194). -/
def sendFit (s : State) (inst : Nat) (t : State) : State := if barnRoom s t (tileOfInst s inst) then t else s

/-! ### The frame's status word (R101, Table 06-12) -/

def readStatus (s : State) (a : Act) : State × Nat :=
  match readRange s { tile := a.tile, ctx := a.ctx } (a.frame + 24) 8 with
  | (s, .ok bs) => (s, leNat bs)
  | (s, .error _) => (s, 0)

def writeStatus (s : State) (a : Act) (v : Nat) : State := (writeRange s { tile := a.tile, ctx := a.ctx } (a.frame + 24) (natLe 8 v)).1

/-- Set flags and warnings in the status word; the enables it holds. -/
def noteStatus (s : State) (a : Act) (fl : BitVec 13) (w : BitVec 16) : State × BitVec 5 :=
  let (s, st) := readStatus s a
  let v : Word := BitVec.ofNat 64 st ||| (fl.setWidth 64) ||| ((w.setWidth 64) <<< 16)
  (if v.toNat = st then s else writeStatus s a v.toNat, (BitVec.ofNat 64 st).extractLsb' 8 5)

/-! ### Faults of instances -/

/-- A fault is found in an instance: the first is kept and held until it may be taken (R219, R220). -/
def faultInst (s : State) (inst : Nat) (fl : GFault) : State :=
  s.modInst inst fun n => { n with fault := some (n.fault.getD fl) }

/-! ### Memory order inside an instance (R199 to R201) -/

/-- `(lsid, index)` of memory order, as one number. -/
def memOrd (n : Inst) (ix : Nat) : Nat := wLsid (getV' n.block.words ix) * 128 + ix
where
  getV' (l : List IWord) (i : Nat) : IWord := l.getD i 0

/-- Indices of the block's instructions that satisfy `p`, before `ix` in memory order (for `p` on opcodes). -/
def before (n : Inst) (ix : Nat) (p : Nat → Bool) : List Nat :=
  (List.range n.block.words.length).filter fun j => p (wOpc (n.block.words.getD j 0)) && memOrd n j < memOrd n ix

/-- The same with a lower `LSID` (not merely earlier in memory order). -/
def lowerLsid (n : Inst) (ix : Nat) (p : Nat → Bool) : List Nat :=
  (List.range n.block.words.length).filter fun j =>
    p (wOpc (n.block.words.getD j 0)) && wLsid (n.block.words.getD j 0) < wLsid (n.block.words.getD ix 0)

/-- A memory instruction has been performed or nullified (its final element, for a stream). -/
def Inst.isDone (n : Inst) (ix : Nat) : Bool := n.done.getLsbD ix
def Inst.markDone (n : Inst) (ix : Nat) : Inst := { n with done := n.done ||| (1#128 <<< ix) }

/-- Value of an operand slot of another instruction, if known: its first token, or the immediate beyond `NOPND`. -/
def operandKnown (n : Inst) (ix sl : Nat) : Option Word :=
  let w := n.block.words.getD ix 0
  if sl < wNopnd w then (n.slot ix sl).head?.map (·.val) else some ((w.extractLsb' 48 40).signExtend 64)

/-- Address and size of a store that has not fired, if its address operands have arrived. -/
def storeRange (n : Inst) (ix : Nat) : Option (Word × Nat) :=
  match operandKnown n ix 0, operandKnown n ix 2 with
  | some a, some c => some (a + c, accessSize (fieldOf (n.block.words.getD ix 0) 42 5))
  | _, _ => none
where
  accessSize (k : Nat) : Nat :=
    if k ≤ 1 || 16 ≤ k && k ≤ 20 then 1 else if k = 2 || k = 3 || k = 12 || k = 13 then 2
    else if k = 4 || k = 5 || k = 14 then 4 else 8

/-- Byte ranges overlap. -/
def overlap (a : Word) (n : Nat) (b : Word) (m : Nat) : Bool := (b - a).toNat < n || (a - b).toNat < m

/-- `ORD` of a graph word (R106). -/
def wOrd (w : IWord) : Nat := fieldOf w 94 2

/-- Nodes that the tokens of the nodes in `m` reach, followed `k` times. -/
def reachedBy (n : Inst) : Nat → BitVec 128 → BitVec 128
  | 0, m => m
  | k + 1, m =>
    reachedBy n k (n.block.words.zipIdx.foldl (fun acc wi =>
      if m.getLsbD wi.2 then (wTargets wi.1).foldl (fun a t => a ||| (1#128 <<< t.2)) acc else acc) m)

/-- A token of node `ix` reaches node `j`: then `j` cannot be performed before `ix` has fired. -/
def feeds (n : Inst) (ix j : Nat) : Bool := (reachedBy n n.block.words.length (1#128 <<< ix)).getLsbD j

/-- Address and size of a load or atomic that has not fired, if its address operands have arrived. -/
def accessRange (n : Inst) (ix : Nat) : Option (Word × Nat) :=
  let w := n.block.words.getD ix 0
  if wOpc w = 0x60 then
    match operandKnown n ix 0, operandKnown n ix 1 with
    | some a, some b => some (a + b, storeRange.accessSize (fieldOf w 42 5))
    | _, _ => none
  else (operandKnown n ix 0).map fun a => (a, if wOpc w = 0x70 || wOpc w = 0x71 then storeRange.accessSize (fieldOf w 42 5) else 16)

/-- The address by which an activation's tile names a byte of its own scratchpad in W2 as well (R63, R288). -/
def ownName (tile : Nat) (a : Word) : Word :=
  match windowOf a.toNat with
  | some (.w2 t) => if t = tile then 0xFF00000000000000#64 ||| (a &&& 0xFFFFF#64) else a
  | _ => a

/-- The range of a pending access of an activation on a tile, if it is known, is apart from `[ea, ea + len)`. -/
def apart (tile : Nat) (ea : Word) (len : Nat) (r : Option (Word × Nat)) : Bool :=
  match r with
  | some (a, m) => !overlap (ownName tile ea) len (ownName tile a) m
  | none => false

/-- A lower atomic or `e.wait` that is not done holds a load of `len` bytes at `ea` (log 86): before it has fired, where it acquires (R276, R294) or may touch
the load's bytes (R286); a stream one that has fired, only where its next element is known to touch them. -/
def atomicHolds (n : Inst) (j tile : Nat) (ea : Word) (len : Nat) : Bool :=
  let w := n.block.words.getD j 0
  let known := accessRange n j
  if n.fired.getLsbD j then wOpc w ≠ 0xA0 && known.isSome && !apart tile ea len known
  else wOpc w = 0xA0 || 2 ≤ wOrd w || !apart tile ea len known

/-- Opcodes that load: `ld` and `syn.read`, and the atomics, which read what they change (R200, R291). -/
def loads (o : Nat) : Bool := o = 0x60 || o = 0x76 || o = 0x70 || o = 0x71 || o = 0x74 || o = 0x78

/-- A store that is not done holds a load: where its address is known and meets the load's bytes, or is not known and it has not fired (R199). -/
def storeHolds (n : Inst) (j tile : Nat) (ea : Word) (len : Nat) : Bool :=
  match storeRange n j with
  | some r => !apart tile ea len (some r)
  | none => !n.fired.getLsbD j

/-- The instructions that a load of `len` bytes at `ea` waits for: earlier stores whose bytes it may meet, lower fences and `pub`s of
acquire effect (R199, R200); and, unless they need the load's own token, earlier atomics and `e.wait`s (R201, R276), acquire loads (R294),
and under a strong load the earlier loads of its bytes (R286). -/
def loadWaits (n : Inst) (ix tile : Nat) (ea : Word) (len : Nat) : List Nat :=
  let ord := fun j => wOrd (n.block.words.getD j 0)
  let opc := fun j => wOpc (n.block.words.getD j 0)
  let pend := fun (l : List Nat) => l.filter fun j => !n.isDone j
  (pend (before n ix fun o => o = 0x61)).filter (fun j => storeHolds n j tile ea len) ++
  (pend (lowerLsid n ix fun o => o = 0x72 || o = 0x73)).filter (fun j => if opc j = 0x72 then ord j ≠ 3 else ord j = 2) ++
  ((pend (before n ix fun o => loads o || o = 0xA0)).filter fun j =>
    (if opc j ≠ 0x60 && opc j ≠ 0x76 then atomicHolds n j tile ea len
     else (2 ≤ ord j && !n.fired.getLsbD j) || ((ord ix ≠ 0 || fieldOf (n.block.words.getD ix 0) 92 2 ≠ 0) && !apart tile ea len (accessRange n j))) &&
    !feeds n ix j)

/-- A load of `len` bytes at `ea` may fire. -/
def loadMayFire (n : Inst) (ix tile : Nat) (ea : Word) (len : Nat) : Bool := (loadWaits n ix tile ea len).isEmpty

/-- A fence or `pub` may fire: every load with a lower `LSID` has been performed (R200). -/
def fenceMayFire (n : Inst) (ix : Nat) : Bool := (lowerLsid n ix loads).all fun j => n.isDone j

/-- Earlier loads and atomics that may touch the bytes of an atomic and are not performed, but for those that need its token: the accesses of one
agent to one byte keep their order (R286, R199). -/
def sameLsidWaits (n : Inst) (ix tile : Nat) : List Nat :=
  match accessRange n ix with
  | some r => (before n ix loads).filter fun j => !n.isDone j && !apart tile r.1 r.2 (accessRange n j) && !feeds n ix j
  | none => []

/-- Instructions that an irrevocable one of the instance waits for: those of a lower `LSID` that are not resolved (R201), and for an atomic those that keep the
order of its word. -/
def irrevWaits (n : Inst) (ix tile : Nat) : List Nat :=
  (lowerLsid n ix carriesLsid).filter (fun j => !n.isDone j) ++ if loads (wOpc (n.block.words.getD ix 0)) then sameLsidWaits n ix tile else []

/-- An irrevocable instruction may fire: its instance is its frame's oldest, and nothing that it waits for is left (R201). -/
def irrevMayFire (s : State) (inst : Nat) (n : Inst) (ix : Nat) : Bool :=
  match s.act? n.act with
  | some a => a.insts.head? = some inst && (irrevWaits n ix a.tile).isEmpty
  | none => false

/-- Bytes that a load at a place sees: its own instance's earlier stores, then uncommitted predecessors' stores, then memory (R199). Bytes are one where their
places are, whatever addresses name them (R63, R288). -/
def overlayStores (s : State) (sts : List GStore) (k : Nat) (bs : List Byte) : List Byte :=
  bs.zipIdx.map fun bi => sts.foldl (fun acc st =>
    let p := homePlace s (k + bi.2)
    let q := homePlace s st.place
    if q ≤ p && p - q < st.data.length then st.data.getD (p - q) acc else acc) bi.1

/-- Buffered stores in memory order (R199, R200). -/
def sortStores (l : List GStore) : List GStore :=
  l.foldl (fun acc x => insert x acc) []
where
  insert (x : GStore) : List GStore → List GStore
    | [] => [x]
    | y :: r => if y.lsid * 128 + y.node ≤ x.lsid * 128 + x.node then y :: insert x r else x :: y :: r

/-- The stores that instruction `ix` of an instance sees, oldest first: those of uncommitted predecessors, then its own earlier ones. -/
def visibleStores (s : State) (inst : Nat) (n : Inst) (ix : Nat) : List GStore :=
  match s.act? n.act with
  | none => []
  | some a =>
    let older := a.insts.takeWhile (· ≠ inst)
    (older.flatMap fun j => match s.inst? j with | some m => sortStores m.stores | none => []) ++
    sortStores (n.stores.filter fun st => st.lsid * 128 + st.node < memOrd n ix)

/-! ### Firing -/

/-- What a graph meaning has to work with: the instance, the activation, the instruction's index, address and fields, the operand values, and
the flags of the stream element, and the token that leads the firing. `null` says that an operand token is null (for `acc` and `fwr`). -/
structure GEnv where
  inst : Nat
  act  : Nat
  a_   : Act
  null : Bool
  ix   : Nat
  pc   : Word
  f    : GForm
  a    : Word
  b    : Word
  c    : Word
  ends : BitVec 3
  strm : Bool
  idx  : BitVec 32
  lead : Token
deriving DecidableEq, Repr

/-- What it answers: a value token to each valid target, one token to some targets, nothing to send, nothing to send yet and not performed yet,
a fault of the instance, or that it cannot fire yet. -/
inductive GRes where
  | send (s : State) (v : Word)
  | emit (s : State) (ts : List (Nat × Nat)) (k : Token)
  | quiet (s : State)
  | hold (s : State)
  | fault (s : State) (cause : BitVec 6) (addr : Word)
  | wait (s : State)
deriving DecidableEq, Repr

/-- Valid `T0` and `T1`. -/
def targets (f : GForm) : List (Nat × Nat) := ([target f.t0.toNat, target f.t1.toNat]).filterMap id

/-- What an opcode does with a null operand (Table 09-1a). -/
inductive NullAct where | pass | nullify | stay | own
deriving DecidableEq, Repr

def nullAct (opc : Nat) : NullAct :=
  if opc = 0x86 || opc = 0x85 then .stay
  else if opc = 0x8B || opc = 0x8C then .own
  else if carriesLsid opc && opc ≠ 0xA0 && opc ≠ 0xA1 || opc = 0x68 then .nullify
  else .pass

/-- The activation's planes keep their rank: its tile's group is RESIDENT, and its context runs there (R28, R30); a group that
has been evicted has no tile (R319, R368). -/
def actResident (s : State) (a : Act) : Bool :=
  a.tile < 512 && runsOn s a.tile a.ctx && (match (s.tile a.tile).group with | some g => g.kernel ≠ a.kernel || g.resid = .resident | none => true)

/-- The instance may fire instructions: no fault is held, and its activation is live and its group RESIDENT. -/
def instLive (s : State) (n : Inst) : Bool :=
  n.fault.isNone && (match s.act? n.act with | some a => a.stat = .live && actResident s a | none => false)

/-- Consume the operand tokens of a firing: stream tokens always, the others unless the firing is a stream element's (R193, R216). -/
def consume (n : Inst) (ix : Nat) (slots : List Nat) (strm : Bool) : Inst :=
  slots.foldl (fun n sl => match n.slot ix sl with
    | [] => n
    | k :: r => if strm && !k.strm then n else n.setSlot ix sl r) n

/-- First tokens of the slots that an instruction takes as operands, slots A, B, C in turn. -/
def operandToks (n : Inst) (ix : Nat) (f : GForm) : List (Option Token) := (List.range f.nopnd.toNat).map fun sl => (n.slot ix sl).head?
/-- First token of the predicate slot. -/
def predTok (n : Inst) (ix : Nat) : Option Token := (n.slot ix 3).head?
/-- All tokens that a firing needs: the operands and, under a `PMODE`, the predicate. -/
def neededToks (n : Inst) (ix : Nat) (f : GForm) : List (Option Token) :=
  if f.pmode = 0 then operandToks n ix f else operandToks n ix f ++ [predTok n ix]
/-- The tokens at hand: of which the first stream token leads the firing (R216). -/
def handToks (n : Inst) (ix : Nat) (f : GForm) : List Token := (neededToks n ix f).filterMap id
def isStrm (n : Inst) (ix : Nat) (f : GForm) : Bool := (handToks n ix f).any (·.strm)
def leadTok (n : Inst) (ix : Nat) (f : GForm) : Token :=
  ((handToks n ix f).find? (·.strm)).getD { val := 0, ends := 0, null := false, strm := false, idx := 0 }
/-- Targets of a firing; a `fan` has two more (R208). -/
def allTargets (opc : Nat) (f : GForm) : List (Nat × Nat) :=
  targets f ++ (if opc = 0x88 then ([target (fieldOf f.imm 0 10), target (fieldOf f.imm 10 10)]).filterMap id else [])
/-- The predicate token matches `PMODE` (R197). -/
def predHit (n : Inst) (ix : Nat) (f : GForm) : Bool :=
  match (if f.pmode = 0 then none else predTok n ix) with
  | some p => if f.pmode = 1 then !p.null && p.val.getLsbD 0 else !p.null && !p.val.getLsbD 0
  | none => true
/-- Some operand token is null. -/
def anyNull (n : Inst) (ix : Nat) (f : GForm) : Bool := ((operandToks n ix f).filterMap id).any (·.null)
/-- The firing consumes its tokens and counts as fired; a memory instruction's final firing is `done` (R193, R199): for a stream that of its final element,
whose END2 is set behind an `acc` too (R211, R215, R216). -/
def fireNode (opc : Nat) (f : GForm) (n : Inst) (inst ix : Nat) (s : State) (done : Bool) : State :=
  let slots := List.range f.nopnd.toNat ++ (if f.pmode = 0 then [] else [3])
  s.modInst inst fun m =>
    let m := consume { m with fired := m.fired ||| (1#128 <<< ix) } ix slots (isStrm n ix f)
    if done && carriesLsid opc && (!isStrm n ix f || (leadTok n ix f).ends.getLsbD 2) then m.markDone ix else m
/-- A token that bears the element flags, index and port of another (R216, R220). -/
def Token.with (k : Token) (v : Word) (null : Bool) : Token := { k with val := v, null := null }
/-- The token that a firing sends: its element flags are those of the leading token (R216). -/
def sentTok (n : Inst) (ix : Nat) (f : GForm) (v : Word) (null : Bool) : Token := (leadTok n ix f).with v null

/-- What the meaning of instruction `ix` of an instance has to work with: token values, or the immediate beyond `NOPND`. -/
def genv (f : GForm) (n : Inst) (a : Act) (inst ix : Nat) : GEnv :=
  let v := fun (sl : Nat) => match (operandToks n ix f).getD sl none with | some k => k.val | none => f.imm40
  { inst := inst, act := n.act, a_ := a, null := anyNull n ix f, ix := ix, pc := n.block.entry + BitVec.ofNat 64 (32 + 16 * ix), f := f
    a := v 0, b := v 1, c := v 2, ends := (leadTok n ix f).ends, strm := isStrm n ix f, idx := (leadTok n ix f).idx, lead := leadTok n ix f }

/-- Settle what a graph meaning answered in state `s0`: the tokens of a result need room (R194). -/
def settleG (opc : Nat) (f : GForm) (n : Inst) (inst ix : Nat) (s0 : State) (r : GRes) : State :=
  match r with
  | .send s v => sendFit s0 inst (sendTo (fireNode opc f n inst ix s true) inst (allTargets opc f) (sentTok n ix f v false))
  | .emit s ts k => sendFit s0 inst (sendTo (fireNode opc f n inst ix s true) inst ts k)
  | .quiet s => fireNode opc f n inst ix s true
  | .hold s => fireNode opc f n inst ix s false
  | .wait s => s
  | .fault s c ad =>
    faultInst s inst { cause := c, addr := ad, node := ix, multi := false, strm := isStrm n ix f, port := (leadTok n ix f).port, elem := (leadTok n ix f).idx }

/-- The result of an instruction that has fired and waits for it (`e.wait`, a call): a token to each target with the flags of the leading one (R158, R213,
R216), where they have room (R194, R195); until then it is not sent. The memory instruction is then done, for a stream at its final element. -/
def sendLate (s : State) (inst ix : Nat) (lead : Token) (v : Word) (upd : Inst → Inst) : State :=
  match s.inst? inst with
  | none => s
  | some n =>
    let ts := wTargets (n.block.words.getD ix 0)
    if lead.strm && ts.any (fun t => !hasRoom s inst n t) then s else
    let u := s.modInst inst fun n => if !lead.strm || lead.ends.getLsbD 2 then (upd n).markDone ix else upd n
    sendFit s inst (sendTo u inst ts (lead.with v false))

/-- Fire instruction `ix` of the current instance if it can: predication, operand tokens, back-pressure, null operands, then the meaning
(R193 to R198, R216). `LSID` order is the meaning's part; an irrevocable instruction that a null operand nullifies keeps it too (R201, R445). A stream memory instruction
whose predicate mismatches at its final element counts as resolved then, of which the spec says nothing (log 125). -/
def runG (opc : Nat) (f : GForm) (s : State) (body : GEnv → State → GRes) : State :=
  let inst := s.curNode.1
  let ix := s.curNode.2
  match s.inst? inst with
  | none => s
  | some n =>
  match s.act? n.act with
  | none => s
  | some a =>
    if !instLive s n then s
    else if (neededToks n ix f).any (·.isNone) then s
    else if n.fired.getLsbD ix && !isStrm n ix f then s
    else if isStrm n ix f && (allTargets opc f).any (fun t => !hasRoom s inst n t) then s
    else if !predHit n ix f then
      -- a non-stream instruction never fires on a mismatch; a stream one passes a null token on (R197)
      if isStrm n ix f then sendFit s inst (sendTo (fireNode opc f n inst ix s true) inst (allTargets opc f) (sentTok n ix f 0 true)) else s
    else if anyNull n ix f && nullAct opc ≠ .own then
      if nullAct opc = .stay || (irrevocable opc && !irrevMayFire s inst n ix) then s
      else sendFit s inst (sendTo (fireNode opc f n inst ix s true) inst (allTargets opc f) (sentTok n ix f 0 true))
    else settleG opc f n inst ix s (body (genv f n a inst ix) s)

/-- Raise flags and warnings of a graph instruction in the frame's status word; an enabled flag faults `FP_EXC` (R41, R155). -/
def raiseG (e : GEnv) (s : State) (fl : BitVec 13) (w : BitVec 16) (go : State → GRes) : GRes :=
  if fl = 0 && w = 0 then go s else
  let (s, en) := noteStatus s e.a_ fl w
  if fl.extractLsb' 0 5 &&& en ≠ 0 then .fault s cFP_EXC 0 else go s

/-- The agent of an activation. -/
def GEnv.agent (e : GEnv) : Agent := { tile := e.a_.tile, ctx := e.a_.ctx, allot := some e.a_.allot }

/-- A stopped access of a block: a fault, or a page to wait for. -/
def stopG (s : State) (st : Stop) (ea : Word) : GRes :=
  match st with
  | .trap c _ => .fault s c ea
  | .hold => .wait s

end Sys2Proof.Machine
end

