-- ==== Sys2Proof/Machine/Operands.lean ====
section
/-!
DEFINITION. Operand forms: format widths (Table 02-1), values of patterns (R135), value results (R36, R136), extension of results (R136, R144,
R160), elements of vector registers (R160 to R162), effective modifiers after the fallbacks of Table 05-7, and the access sizes of
Table 07-5.
-/
namespace Sys2Proof.Machine
open Sys2Proof

/-! ### Formats (Table 02-1) -/

/-- Width of an element's pattern in bits; w42 in its 64-bit container. -/
def fmtBits (k : Nat) : Nat :=
  match k with
  | 0 | 1 => 8 | 2 | 3 => 16 | 4 | 5 => 32 | 6 | 7 => 64 | 8 | 9 => 4 | 10 => 1 | 11 => 2
  | 12 | 13 => 16 | 14 => 32 | 15 => 64 | 16 | 17 | 18 | 19 | 20 => 8 | 21 | 22 => 6 | _ => 64

/-- The "i" formats (R35). -/
def isIFmt (k : Nat) : Bool := k = 0 || k = 2 || k = 4 || k = 6 || k = 8

/-- The effective format of an integer opcode: i64 for any other kind (Table 05-7). -/
def intFmt (k : Nat) : Nat := if k ≤ 11 then k else 6
/-- The effective format of float arithmetic: f32 for any other kind. -/
def fltFmt (k : Nat) : Nat := if isIeee k then k else 14
/-- The effective rounding code: 5 outside a bank, 6 and 7 act as RNE (R39, Table 05-7). -/
def effRnd (r : Nat) : Nat := if r ≤ 4 then r else 0

/-- `sext(p, n)` as an integer. -/
def sextInt (n p : Nat) : Int := let q := p % 2 ^ n; if 0 < n && 2 ^ (n - 1) ≤ q then (q : Int) - 2 ^ n else q
/-- An integer's low `n` bits. -/
def lowBits (n : Nat) (v : Int) : Nat := (v % (2 ^ n : Int)).toNat

/-- Value of a pattern under a reading kind (R135): b1 is ±1, t2 by Table 02-1, 0b10 reading 0 with `SR.WARN.FMT`. -/
def intVal (k : Nat) (signed : Bool) (p : Nat) : Int × BitVec 16 :=
  if k = 10 then (if p % 2 = 1 then 1 else -1, 0)
  else if k = 11 then
    match p % 4 with
    | 1 => (1, 0) | 3 => (-1, 0) | 2 => (0, wFMT) | _ => (0, 0)
  else let n := fmtBits k; (if signed then sextInt n p else ((p % 2 ^ n : Nat) : Int), 0)

/-- Range of an integer format. -/
def intMin (k : Nat) : Int := if k = 10 || k = 11 then -1 else if isIFmt k then -(2 ^ (fmtBits k - 1) : Int) else 0
def intMax (k : Nat) : Int :=
  if k = 10 || k = 11 then 1 else if isIFmt k then (2 ^ (fmtBits k - 1) : Int) - 1 else (2 ^ fmtBits k : Int) - 1

/-- `round_to` of an exact integer into an integer format (R36, integer source). -/
def intResult (k : Nat) (sat : Bool) (t : Int) : Res :=
  if k = 10 then { pat := if t < 0 then 0 else 1 }
  else if k = 11 then
    if t < -1 then { pat := 3, fl := flSATC } else if 1 < t then { pat := 1, fl := flSATC } else { pat := lowBits 2 t }
  else
    let n := fmtBits k
    if intMin k ≤ t && t ≤ intMax k then { pat := lowBits n t }
    else if sat then { pat := lowBits n (if t < intMin k then intMin k else intMax k), fl := flSATC }
    else { pat := lowBits n t }

/-- A result written to a register of `w` bits: sign-extended for an i format, zero-extended otherwise (R136, R160). -/
def extendTo (w k p : Nat) : Nat := if isIFmt k then lowBits w (sextInt (fmtBits k) p) else p % 2 ^ fmtBits k

/-! ### Vector elements (R160) -/

/-- Number of elements and element stride in bits. -/
def elems (k : Nat) : Nat := if is64 k then 32 else 64
def stride (k : Nat) : Nat := if is64 k then 64 else 32

/-- Raw lane or container `i` of a vector. -/
def laneOf (k : Nat) (v : Vec) (i : Nat) : Nat := fieldOf v (stride k * i) (stride k)
/-- The pattern of element `i`. -/
def elemOf (k : Nat) (v : Vec) (i : Nat) : Nat := laneOf k v i % 2 ^ fmtBits k

/-- A vector from its lanes, element 0 first. -/
def packLanes (w : Nat) (l : List Nat) : Vec := BitVec.ofNat 2048 (l.foldr (fun x acc => x % 2 ^ w + 2 ^ w * acc) 0)

/-- `active(i)` (R161). -/
def active (m : Word) (i : Nat) : Bool := m.getLsbD i

/-- Active elements `i < E` of a mask. -/
def activeList (k : Nat) (m : Word) : List Nat := (List.range (elems k)).filter fun i => active m i

/-- Some element is inactive and kept (`ZRO` = 0): the old destination is a source (R162, R163). -/
def keepsOld (k : Nat) (m : Word) (zro : Bool) : Bool := !zro && (List.range (elems k)).any fun i => !active m i

/-- Combine per-element results: union of flags and warnings of the active elements. -/
def foldRes (l : List Res) : BitVec 13 × BitVec 16 := l.foldl (fun a r => (a.1 ||| r.fl, a.2 ||| r.warn)) (0, 0)

/-- Inactive elements are zeroed: `ZRO` of class V alone, since memory opcodes have no such bit (R98, R162, Table 05-5). -/
def zeroing (f : CForm) : Bool := f.cls = 4 && f.zro

/-- A bundle that keeps an element of a poisoned `D` reads it (R146, R163). -/
def readOld (e : CEnv) (s : State) (k : Nat) (go : BRes) : BRes :=
  match (if keepsOld k e.mask (zeroing e.f) then Tbl.find? (s.thr e.k).pois (64 + e.f.d.toNat) else none) with
  | some p => poisTrap s p
  | none => go

/-- Vector register `D` elementwise: active elements take their results, extended by R160; inactive ones are kept or zeroed (R162). -/
def mergeV (e : CEnv) (s : State) (k : Nat) (rs : Nat → Nat) : Vec :=
  let old := (s.thr e.k).vr e.f.d.toNat
  packLanes (stride k) ((List.range (elems k)).map fun i =>
    if active e.mask i then extendTo (stride k) k (rs i) else if zeroing e.f then 0 else laneOf k old i)

/-- Write a vector register and complete, at once or as a pending fill. -/
def retV (e : CEnv) (s : State) (long : Bool) (v : Vec) : BRes :=
  if long then .ok (s.modThr e.k fun t => t.await
    { reg := 64 + e.f.d.toNat, val := v, pois := none, ticket := e.ticket, kind := .value, err := false }) true
  else .ok (s.modThr e.k fun t => t.vw e.f.d.toNat v) false

/-- A lane-wise bundle: each active element's result, flags together, then the merge (R162, R165, R166). -/
def lanewise (e : CEnv) (s : State) (k : Nat) (long : Bool) (op : Nat → Res) : BRes :=
  let rs := (List.range (elems k)).map fun i => if active e.mask i then op i else { pat := 0 }
  let fw := foldRes rs
  readOld e s k (raiseC e (addWarn s e.k fw.2) fw.1 fun s => retV e s long (mergeV e s k fun i => (rs.getD i { pat := 0 }).pat))

/-- A lane-wise compare: mask `D`, inactive bits kept or zeroed (R162). Bits beyond the format's elements are treated as inactive ones, which the
spec leaves open (R161; log 121). -/
def laneMaskRes (e : CEnv) (s : State) (k : Nat) (op : Nat → Bool × BitVec 13 × BitVec 16) : BRes :=
  let act := activeList k e.mask
  let rs := act.map fun i => (i, op i)
  let fl := rs.foldl (fun a r => a ||| r.2.2.1) 0
  let w := rs.foldl (fun a r => a ||| r.2.2.2) 0
  raiseC e (addWarn s e.k w) fl fun s =>
    let old := (s.thr e.k).mr e.f.d.toNat
    let base := if zeroing e.f then 0 else old
    let keep : Word := act.foldl (fun a i => a &&& ~~~(1#64 <<< i)) base
    let v := rs.foldl (fun a r => if r.2.1 then a ||| (1#64 <<< r.1) else a) keep
    .ok (s.modThr e.k fun t => t.mw e.f.d.toNat v) false

/-! ### Modifiers of memory and sync opcodes (Table 05-7, R98) -/

/-- Effective order of a load: a scope makes a weak access strong; release acts as acquire. 0 weak, 1 strong, 2 acquire, 3 release. -/
def ldOrd (ord scope : Nat) : Nat := if ord = 0 && scope ≠ 0 then 1 else if ord = 3 then 2 else ord
/-- Effective order of a store: acquire acts as release. -/
def stOrd (ord scope : Nat) : Nat := if ord = 0 && scope ≠ 0 then 1 else if ord = 2 then 3 else ord
/-- Access size by format (Table 07-5). -/
def accSize (k : Nat) : Nat := storeRange.accessSize k
/-- Bits of `XMOD` that an opcode's C group reserves (R92, R106, Table 05-5): [2:1] of a memory word, [3] of `amo` and `cas` (R226), [7:3] of `cp` and
`gath` (R282). -/
def rsvG (opc : Nat) (f : GForm) : BitVec 16 :=
  if (opc = 0x60 || opc = 0x61 || opc = 0x68) && 2 ≤ f.var || (opc = 0x70 || opc = 0x71) && f.sgn || (opc = 0x93 || opc = 0x95) && 8 ≤ f.xmod
  then wRSVD else 0
/-- Warnings of a graph memory word: the fallbacks of Table 05-7. -/
def memWarnG (load : Bool) (f : GForm) : BitVec 16 :=
  let ord := f.ord
  let scope := f.scope
  rsvG (if load then 0x60 else 0x61) f ||| (if scope ≠ 0 && ord = 0 then wSCOPE else 0) ||| (if (load && ord = 3) || (!load && ord = 2) then wORDR else 0)

/-! ### Condition codes (Table 05-6) -/

/-- `a cc b` for exact integers. -/
def condInt (cc : Nat) (a b : Int) : Bool :=
  match cc with
  | 0 => a = b | 1 => a ≠ b | 2 => a < b | 3 => a ≤ b | 4 => b < a | _ => b ≤ a

end Sys2Proof.Machine
end

