-- ==== Sys2Proof/Machine/MemoryOps.lean ====
section
/-!
DEFINITION. Loads, stores, prefetch and cache operations (R144 to R148, R156, R178 to R184), in bundles and in blocks.
-/
namespace Sys2Proof.Machine
open Sys2Proof
open Host (Outcome)

/-- w42 data has bits [21:0] zero (R145, R147). -/
def dataMask (k v : Nat) : Nat := if k = 23 then v / 2 ^ 22 * 2 ^ 22 else v

/-- The release part of an access at device or system scope (R300). -/
def releaseAt (s : State) (tile scope : Nat) : State := if 2 ≤ scope then releaseDevice s tile else s
/-- The acquire part (R300); at tile scope it drops the tile's lines of faces that a publish has hidden (R309). -/
def acquireAt (s : State) (tile scope : Nat) : State := if 2 ≤ scope then acquireDevice s tile else dropRead s tile fun _ l => l.old

/-- Read `n` bytes at a checked place under order and scope; an acquire drops the tile's stale copies after it (R286, R300). -/
def readAt (s : State) (tile k n ord scope : Nat) : State × List Byte :=
  let r := loadPlace s tile k n ord scope
  (if ord = 2 then acquireAt r.1 tile scope else r.1, r.2)

/-- Write bytes at a checked place under order and scope; a release makes the tile's earlier stores visible first. -/
def writeAt (s : State) (tile k : Nat) (bs : List Byte) (ord scope : Nat) : State :=
  storePlace (if ord = 3 then releaseAt s tile scope else s) tile k bs ord scope

/-- Note a store whose acceptance is outstanding (R96, R421). -/
def noteStore (s : State) (k : Nat) (ticket : Option Nat) (err : Option Word) : State :=
  s.modThr k fun t => { t with stores := t.stores ++ [{ ticket := ticket, err := err }] }

/-- Note a store to a place, with the links that it crosses (R15). -/
def noteStoreTo (s : State) (k : Nat) (ticket : Option Nat) (ea : Word) (place : Nat) : State :=
  s.modThr k fun t => { t with stores := t.stores ++ [{ ticket := ticket, err := none, via := viaOf s (tileOf k) place, addr := ea }] }

/-- A reeve tile's firewall drops a store, and the thread reports it later (R249, R427). -/
def deferFirewall (s : State) (k : Nat) (ea : Word) : State :=
  s.modThr k fun t => { t with deferred := t.deferred ++ [{ cause := cPAGE_PERM, addr := ea, info := 0x4000000000000008 }] }

/-- A stopped store of a bundle: one that was waiting for a lost page receives its error reply later, a firewall drops it, and otherwise it traps or waits. -/
def stopStore (e : CEnv) (s : State) (st : Stop) (ea info : Word) : BRes :=
  if st.isLink then .ok (noteStore s e.k e.ticket (some ea)) true
  else if st.isFirewall then .ok (noteStore (deferFirewall s e.k ea) e.k e.ticket none) true
  else stopRes s st ea info

/-- A pending fill of a load. -/
def loadFill (e : CEnv) (reg : Nat) (val : Vec) (pois : Option PoisonInfo) (err : Bool) : Fill :=
  { reg := reg, val := val, pois := pois, ticket := e.ticket, kind := .value, err := err }

/-- A pending fill of a load from a place, with the links that its request crosses (R15). -/
def loadFillTo (e : CEnv) (reg : Nat) (val : Vec) (ea : Word) (via : BitVec 21) : Fill :=
  { reg := reg, val := val, pois := none, ticket := e.ticket, kind := .value, err := false, via := via, addr := ea }

/-- A stopped access of a bundle: where its checks have passed, `free` says so, its request is held and the bundle issues (R365). -/
def heldOr {ε α : Type} (opc : Nat) (e : CEnv) (s : State) (st : Stop) (free : State × Except ε α) (other : BRes) : BRes :=
  if st = .hold && (match free.2 with | .ok _ => true | .error _ => false) then .held s { opc := opc, env := e } else other

/-- `ld` of a bundle (R145, R146). -/
def ldBody (e : CEnv) (s : State) : BRes :=
    let f := e.f
    let n := accSize f.fmt
    let ea := e.a + f.simm
    let fill := fun (s : State) (v : Vec) (p : Option PoisonInfo) (err : Bool) =>
      BRes.ok (s.modThr e.k fun t => t.await (loadFill e f.d.toNat v p err)) true
    match resolve s (e.agent.at (ldOrd f.ord f.scope) f.scope) ea n n .rd with
    | (s, .error st) =>
      if st.isLink then fill s 0 (some { cause := cLINK_ERR, addr := ea }) true
      else heldOr 0x60 e s st (resolve s { e.agent.at (ldOrd f.ord f.scope) f.scope with free := true } ea n n .rd) (stopRes s st ea 0)
    | (s, .ok k) =>
      if errReply s k then fill s 0 (some { cause := cLINK_ERR, addr := ea }) true
      else
        let r := readAt s e.tile k n (ldOrd f.ord f.scope) f.scope
        if poisoned s k n then fill r.1 0 (some { cause := cPOISON, addr := ea }) false else
        .ok (r.1.modThr e.k fun t => t.await (loadFillTo e f.d.toNat (BitVec.ofNat 2048 (extendTo 64 f.fmt (dataMask f.fmt (leNat r.2)))) ea
          (viaOf s e.tile k))) true

/-- `ld` (R145, R146, R156). -/
def execLd (f : Form) (s : State) : Outcome State Fault Refusal :=
  match f with
  | .c f => .next <| runC 0x60 f s ldBody
  | .g f => .next <| runG 0x60 f s fun e s =>
    match s.inst? e.inst with
    | none => .wait s
    | some m =>
      let n := accSize f.fmt
      let ea := e.a + e.b
      if !loadMayFire m e.ix e.a_.tile ea n then .wait s else
      let s := (noteStatus s e.a_ 0 (memWarnG true f)).1
      match resolve s (e.agent.at (ldOrd f.ord f.scope) f.scope) ea n n .rd with
      | (s, .error st) => stopG s st ea
      | (s, .ok k) =>
        if errReply s k then .fault s cLINK_ERR ea
        else if poisoned s k n then .fault s cPOISON ea
        else
          let r := readAt s e.a_.tile k n (ldOrd f.ord f.scope) f.scope
          let bs := overlayStores r.1 (visibleStores r.1 e.inst m e.ix) k r.2
          .send r.1 (BitVec.ofNat 64 (extendTo 64 f.fmt (dataMask f.fmt (leNat bs))))

/-- Buffer a store of an instance (R199), with the time of its translation (R403). -/
def bufferStore (e : GEnv) (s : State) (opc : Nat) (ea : Word) (k : Nat) (data : List Byte) (len ord scope : Nat) : State :=
  s.modInst e.inst fun n => { n with stores := n.stores ++
    [{ lsid := e.f.lsid.toNat, node := e.ix, elem := e.idx.toNat, op := BitVec.ofNat 8 opc, addr := ea, place := k, data := data
       len := len, ord := ord, scope := scope, ns := s.dev.hubNs }] }

/-- `st` of a bundle (R147). -/
def stBody (e : CEnv) (s : State) : BRes :=
    let f := e.f
    let n := accSize f.fmt
    let ea := e.a + f.simm
    let ord := stOrd f.ord f.scope
    let go := fun (s : State) =>
      match resolve s (e.agent.at ord f.scope) ea n n .wr with
      | (s, .error st) => heldOr 0x61 e s st (resolve s { e.agent.at ord f.scope with free := true } ea n n .wr) (stopStore e s st ea 0)
      | (s, .ok k) =>
        if recordStore k then .ok (noteStore (addWarn s e.k wPRIV) e.k e.ticket none) true
        else if errReply s k then .ok (noteStore s e.k e.ticket (some ea)) true
        else .ok (noteStoreTo (writeAt s e.tile k (natLe n (dataMask f.fmt e.b.toNat)) ord f.scope) e.k e.ticket ea k) true
    if ord = 3 then reportDeferred s e.k f.scope go else go s

/-- `st` (R147, R156). -/
def execSt (f : Form) (s : State) : Outcome State Fault Refusal :=
  match f with
  | .c f => .next <| runC 0x61 f s stBody
  | .g f => .next <| runG 0x61 f s fun e s =>
    let n := accSize f.fmt
    let ea := e.a + e.c
    let s := (noteStatus s e.a_ 0 (memWarnG false f)).1
    match resolve s (e.agent.at (stOrd f.ord f.scope) f.scope) ea n n .wr with
    | (s, .error st) => stopG s st ea
    | (s, .ok k) =>
      if recordStore k then .quiet (noteStatus s e.a_ 0 wPRIV).1
      else .quiet (bufferStore e s 0x61 ea k (natLe n (dataMask f.fmt e.b.toNat)) n (stOrd f.ord f.scope) f.scope)

/-- Start a walk for a prefetched line, or join one for its page (R401). -/
def prefetchWalk (s : State) (ctx : Nat) (l : Prefetch) : State :=
  let die := dieOf l.tile
  let join := fun (w : Walk) => { w with tiles := if w.tiles.contains l.tile then w.tiles else w.tiles ++ [l.tile], lines := w.lines ++ [l] }
  if s.walks.any fun w => w.covers die ctx l.addr.toNat then
    { s with walks := s.walks.map fun w => if w.covers die ctx l.addr.toNat then join w else w }
  else { s with walks := s.walks ++ [join (newWalk s die ctx l.addr)] }

/-- Prefetch of the line that holds `ea` (R148): a readable TLB entry brings the line in; without one a walk starts (R400), whose end brings it in. -/
def prefetch (s : State) (ag : Agent) (ea : Word) (nt : Bool) : State :=
  let l : Prefetch := { tile := ag.tile, addr := ea, nt := nt, allot := ag.allot }
  if windowOf ea.toNat ≠ some .w0 then s else
  match tlbFind s ag.tile ag.ctx ea.toNat with
  | some e =>
    if !grants e.leaf .rd then prefetchWalk s ag.ctx l else
    let r := bringLine s ag.ctx e.leaf e.bits l
    if r.2 then r.1 else prefetchWalk r.1 ag.ctx l
  | none => prefetchWalk s ag.ctx l

/-- `prf` (R148, R156): never traps; `ORD` and `SCOPE` only warn (Table 05-7). -/
def execPrf (f : Form) (s : State) : Outcome State Fault Refusal :=
  match f with
  | .c f => .next <| runC 0x68 f s fun e s => .ok (prefetch s e.agent (e.a + f.simm) f.nt) false
  | .g f => .next <| runG 0x68 f s fun e s =>
    let s := (noteStatus s e.a_ 0 ((if f.ord ≠ 0 || f.scope ≠ 0 then wORDR else 0) ||| rsvG 0x68 f)).1
    .quiet (prefetch s e.agent (e.a + e.b) (f.var % 2 = 1))

/-! ### Vector memory (R178 to R183) -/

/-- Bit position of element `i` of a packed format from its first byte (R33). -/
def packBit (k i : Nat) : Nat := fmtBits k * i
/-- First byte and number of bytes of an element: its own bytes, or those that hold its bits. -/
def elemBytes (k i : Nat) : Nat × Nat :=
  if isPacked k then
    let b := packBit k i
    (b / 8, (b + fmtBits k - 1) / 8 - b / 8 + 1)
  else (accSize k * i, accSize k)

/-- One element access: index, address, bytes. -/
structure VAcc where
  i  : Nat
  ea : Word
  n  : Nat
deriving DecidableEq, Repr

/-- The places of one element: of its first byte, or of each of the two bytes that a packed element may touch, which may lie in two lines or pages. -/
def elemPlaces (s : State) (ag : Agent) (packed : Bool) (need : Need) (a : VAcc) : State × Except Stop (List Nat) :=
  match resolve s ag a.ea a.n (if packed then 1 else min a.n 8) need with
  | (s, .error st) => (s, .error st)
  | (s, .ok k) =>
    if !packed || a.n < 2 then (s, .ok [k]) else
    match resolve s ag (a.ea + 1) 1 1 need with
    | (s, .error st) => (s, .error st)
    | (s, .ok k') => (s, .ok [k, k'])

/-- Check the element accesses in ascending order, each whole before the next (R178); packed elements have no alignment of their own. -/
def checkElems (s : State) (ag : Agent) (packed : Bool) (need : Need) : List VAcc → State × Except (Stop × VAcc) (List (VAcc × List Nat))
  | [] => (s, .ok [])
  | a :: r =>
    match elemPlaces s ag packed need a with
    | (s, .error st) => (s, .error (st, a))
    | (s, .ok k) =>
      match checkElems s ag packed need r with
      | (s, .ok l) => (s, .ok ((a, k) :: l))
      | (s, .error x) => (s, .error x)

/-- Bytes at each of an element's places: all of them at one place, or one at each. -/
def elemLen (a : VAcc) (ks : List Nat) : Nat := if ks.length = 1 then a.n else 1

/-- Some place of an element answers with an error, is poisoned, or is a fault record. -/
def elemErr (s : State) (ks : List Nat) : Bool := ks.any (errReply s)
def elemPoisoned (s : State) (a : VAcc) (ks : List Nat) : Bool := ks.any fun k => poisoned s k (elemLen a ks)
def elemRecord (ks : List Nat) : Bool := ks.any recordStore

/-- Read the bytes of an element, place by place. -/
def loadElem (s : State) (tile ord scope : Nat) (a : VAcc) (ks : List Nat) : State × List Byte :=
  ks.foldl (fun acc k => let r := loadPlace acc.1 tile k (elemLen a ks) ord scope; (r.1, acc.2 ++ r.2)) (s, [])

/-- What a packed store finds in the bytes that it changes (R178). -/
def oldElem (s : State) (tile scope : Nat) (a : VAcc) (ks : List Nat) : State × List Byte :=
  ks.foldl (fun acc k => let r := atomicRead acc.1 tile k (elemLen a ks) scope; (r.1, acc.2 ++ r.2)) (s, [])

/-- Write the bytes of an element, place by place. -/
def storeElem (s : State) (tile ord scope : Nat) (bs : List Byte) : List Nat → State
  | [] => s
  | [k] => storePlace s tile k bs ord scope
  | k :: r => storeElem (storePlace s tile k (bs.take 1) ord scope) tile ord scope (bs.drop 1) r

/-- The base of a packed access that is no multiple of 4 traps `MISALIGN` (R178), after the window checks of the first active element (R64). With no
active element nothing is checked, and the address and index given are those of the base: the spec leaves both open (log 91). -/
def packedBad (k : Nat) (ea : Word) (l : List VAcc) : Option (BitVec 6 × Word × Nat) :=
  match l with
  | [] => none
  | a :: _ =>
    if !isPacked k || ea.toNat % 4 = 0 then none else
    match checkWindow a.ea a.n with
    | .error c => some (c, a.ea, a.i)
    | .ok _ => some (cMISALIGN, ea, 0)

/-- Element data of a packed element from the bytes that hold it. -/
def unpackElem (k i : Nat) (bs : List Byte) : Nat :=
  if isPacked k then leNat bs / 2 ^ (packBit k i % 8) % 2 ^ fmtBits k else dataMask k (leNat bs)

/-- Bytes of element `i` after writing `v` over what they held. -/
def packElem (k i v : Nat) (old : List Byte) : List Byte :=
  if isPacked k then
    let sh := packBit k i % 8
    let o := leNat old
    let m := (2 ^ fmtBits k - 1) * 2 ^ sh
    natLe old.length ((o - (o &&& m)) + v % 2 ^ fmtBits k * 2 ^ sh)
  else natLe (accSize k) (dataMask k v)

/-- A trap of a vector access: the element's first byte and its index in `TINFO[21:16]`. -/
def stopElem (s : State) (x : Stop × VAcc) : BRes := stopRes s x.1 x.2.ea (BitVec.ofNat 64 (x.2.i * 2 ^ 16))

/-- The accesses of the active elements, at addresses that the opcode gives (R179 to R181). -/
def vaccs (e : CEnv) (addr : Nat → Word) : List VAcc :=
  (activeList e.f.fmt e.mask).map fun i => { i := i, ea := addr i, n := (elemBytes e.f.fmt i).2 }

/-- The links that the requests of a bundle's elements cross. -/
def elemsVia (s : State) (tile : Nat) (l : List (VAcc × List Nat)) : BitVec 21 := l.foldl (fun m ak => ak.2.foldl (fun m k => m ||| viaOf s tile k) m) 0

/-- A vector load (R178, R183): checks, then the elements in ascending order, then one fill of the whole register. -/
def vecLoadBody (opc : Nat) (addr : CEnv → Nat → Word) (e : CEnv) (s : State) : BRes :=
    let f := e.f
    let k := f.fmt
    let ord := ldOrd f.ord f.scope
    let l := vaccs e (addr e)
    readOld e s k <|
    match packedBad k (e.a + f.simm) l with
    | some x => .trap s x.1 x.2.1 (BitVec.ofNat 64 (x.2.2 * 2 ^ 16))
    | none =>
    match checkElems s (e.agent.at ord f.scope) (isPacked k) .rd l with
    | (s, .error x) =>
      if x.1.isLink then .ok (s.modThr e.k fun t => t.await (loadFill e (64 + f.d.toNat) 0 (some { cause := cLINK_ERR, addr := x.2.ea }) true)) true
      else heldOr opc e s x.1 (checkElems s { e.agent.at ord f.scope with free := true } (isPacked k) .rd l) (stopElem s x)
    | (s, .ok l) =>
      let err := l.find? fun ak => elemErr s ak.2
      let pois := match err with
        | some ak => some { cause := cLINK_ERR, addr := ak.1.ea : PoisonInfo }
        | none => (l.find? fun ak => elemPoisoned s ak.1 ak.2).map fun ak => { cause := cPOISON, addr := ak.1.ea : PoisonInfo }
      let via := elemsVia s e.tile l
      let r := l.foldl (fun (acc : State × Tbl Nat) ak =>
        if elemErr acc.1 ak.2 then acc else
        let x := loadElem acc.1 e.tile ord f.scope ak.1 ak.2
        (x.1, Tbl.set acc.2 ak.1.i (unpackElem k ak.1.i x.2))) (s, [])
      let s := if ord = 2 then acquireAt r.1 e.tile f.scope else r.1
      let v := mergeV e s k fun i => Tbl.get r.2 0 i
      .ok (s.modThr e.k fun t => t.await { loadFill e (64 + f.d.toNat) v pois err.isSome with
        via := via, addr := (match l with | ak :: _ => ak.1.ea | [] => 0) }) true

def vecLoad (opc : Nat) (f : CForm) (s : State) (addr : CEnv → Nat → Word) : Outcome State Fault Refusal := .next <| runC opc f s (vecLoadBody opc addr)

/-- A reeve tile's firewall drops an element of a vector store, which passes every check that traps (R427). -/
def fireElem (s : State) (ag : Agent) (packed : Bool) (a : VAcc) : Bool :=
  match checkWindow a.ea a.n with
  | .error _ => false
  | .ok u => a.ea.toNat % (if packed then 1 else min a.n 8) = 0 &&
    (match checkAssign s ag u a.ea.toNat .wr with | .error st => st.isFirewall | .ok () => false)

/-- A vector store (R178, R182): nothing is written where a check fails; elements in ascending order, so the highest wins. -/
def vecStoreBody (opc : Nat) (addr : CEnv → Nat → Word) (src : CEnv → Vec) (e : CEnv) (s : State) : BRes :=
    let f := e.f
    let k := f.fmt
    let ord := stOrd f.ord f.scope
    let l := vaccs e (addr e)
    let go := fun (s : State) =>
      match packedBad k (e.a + f.simm) l with
      | some x => BRes.trap s x.1 x.2.1 (BitVec.ofNat 64 (x.2.2 * 2 ^ 16))
      | none =>
      let out := l.filter (fireElem s e.agent (isPacked k))
      match checkElems s (e.agent.at ord f.scope) (isPacked k) .wr (l.filter fun a => !fireElem s e.agent (isPacked k) a) with
      | (s, .error x) =>
        heldOr opc e s x.1 (checkElems s { e.agent.at ord f.scope with free := true } (isPacked k) .wr (l.filter fun a => !fireElem s e.agent (isPacked k) a))
          (stopStore e s x.1 x.2.ea (BitVec.ofNat 64 (x.2.i * 2 ^ 16)))
      | (s, .ok l) =>
        let s := out.foldl (fun s a => deferFirewall s e.k a.ea) s
        let s := if ord = 3 && !l.isEmpty then releaseAt s e.tile f.scope else s
        let err := (l.find? fun ak => elemErr s ak.2).map fun ak => ak.1.ea
        let via := elemsVia s e.tile l
        let s := l.foldl (fun s ak =>
          if elemRecord ak.2 then addWarn s e.k wPRIV
          else if elemErr s ak.2 then s
          else
            let s := ak.2.foldl (refill · e.agent) s
            let old := if isPacked k then oldElem s e.tile f.scope ak.1 ak.2 else (s, [])
            storeElem old.1 e.tile ord f.scope (packElem k ak.1.i (elemOf k (src e) ak.1.i) old.2) ak.2) s
        .ok (s.modThr e.k fun t => { t with stores := t.stores ++
          [{ ticket := e.ticket, err := err, via := via, addr := (match l with | ak :: _ => ak.1.ea | [] => 0) }] }) true
    if ord = 3 then reportDeferred s e.k f.scope go else go s

def vecStore (opc : Nat) (f : CForm) (s : State) (addr : CEnv → Nat → Word) (src : CEnv → Vec) : Outcome State Fault Refusal :=
  .next <| runC opc f s (vecStoreBody opc addr src)

/-- Consecutive elements from `ea` (R179). -/
def addrUnit (e : CEnv) (i : Nat) : Word := e.a + e.f.simm + BitVec.ofNat 64 (elemBytes e.f.fmt i).1
/-- Elements at a signed byte stride (R180). -/
def addrStride (e : CEnv) (i : Nat) : Word := e.a + e.f.simm + BitVec.ofNat 64 i * e.b
/-- Elements at 32-bit byte offsets from lanes of `B` (R181); element j takes its offset from lane j. -/
def addrIndex (e : CEnv) (i : Nat) : Word := e.a + e.f.simm + (BitVec.ofNat 32 (laneOf 4 e.vb i)).signExtend 64

def execVld (f : CForm) (s : State) : Outcome State Fault Refusal := vecLoad 0x62 f s addrUnit
def execVst (f : CForm) (s : State) : Outcome State Fault Refusal := vecStore 0x63 f s addrUnit (·.vb)
def execVgat (f : CForm) (s : State) : Outcome State Fault Refusal := vecLoad 0x64 f s addrIndex
def execVsct (f : CForm) (s : State) : Outcome State Fault Refusal := vecStore 0x65 f s addrIndex (·.vc)
def execVlds (f : CForm) (s : State) : Outcome State Fault Refusal := vecLoad 0x66 f s addrStride
def execVsts (f : CForm) (s : State) : Outcome State Fault Refusal := vecStore 0x67 f s addrStride (·.vc)

/-! ### Cache operations (R184) -/

/-- Write back one line of W0: its scratchpad line under a valid mapping entry, of whichever tile holds it (R73), or the dirty bytes of the tile's L1, whose
copy `drop` drops. -/
def backLine (s : State) (ag : Agent) (drop : Bool) (va : Word) : State × Bool :=
  match translateAny s ag.tile ag.ctx va with
  | (s, none, held) => (s, held)
  | (s, some k, _) =>
    let ln := lineOf k
    match Tbl.find? s.mapped ln with
    | some sk =>
      if !spIsDirty s sk then (s, false)
      else if (route s (dieOf (placeTile sk)) (homeDie ln)).isNone then (s, true)
      else (spLineBack s (placeTile sk) (sk % 2 ^ 20 / 128) ln, false)
    | none =>
      if drainHeld s ag.tile (· = ln) then (s, true) else (if drop then evictLine s ag.tile ln else drainLine s ag.tile ln, false)

/-- Lines of a range, as virtual addresses; true where one must wait for its way home (R15, R411), or for a walk. -/
def backLines (s : State) (ag : Agent) (drop : Bool) (line : Nat) : Nat → State × Bool
  | 0 => (s, false)
  | n + 1 => match backLine s ag drop (BitVec.ofNat 64 line) with
    | (s, true) => (s, true)
    | (s, false) => backLines s ag drop (line + 128) n

/-- `cwb` and `cinv`: the range is clipped to W0, the window unit of its first byte; other units hold nothing to write back. -/
def cacheRange (opc : Nat) (drop : Bool) (f : CForm) (s : State) : Outcome State Fault Refusal :=
  .next <| runC opc f s fun e s =>
    let ea := e.a + f.simm
    if e.b = 0 then .ok (noteStore s e.k e.ticket none) true else
    match windowOf ea.toNat with
    | none => .trap s cNO_WINDOW ea 0
    | some .w0 =>
      let stop := min (ea.toNat + e.b.toNat) (2 ^ 56)
      let n := (stop + 127) / 128 - ea.toNat / 128
      match backLines s e.agent drop (ea.toNat / 128 * 128) n with
      | (s, true) => .wait s
      | (s, false) => .ok (noteStore s e.k e.ticket none) true
    | some _ => .ok (noteStore s e.k e.ticket none) true

def execCwb (f : CForm) (s : State) : Outcome State Fault Refusal := cacheRange 0x69 false f s
def execCinv (f : CForm) (s : State) : Outcome State Fault Refusal := cacheRange 0x6A true f s

end Sys2Proof.Machine
end

