-- ==== Sys2Proof/Machine/Numbers.lean ====
section
/-!
DEFINITION. Numbers (chapter 2): exact values of every format's patterns (R35, R37, R43, R45, R52), exact arithmetic on dyadic values, and
`round_to` for every format (R36, R37, R44, R48, R52), with the flags an instruction raises; scale bytes (R49 to R51).
-/
namespace Sys2Proof.Machine
open Sys2Proof

/-- An exact value: NaN (signalling or quiet), an infinity, or (−1)^neg × m × 2^e, where m = 0 is a signed zero. -/
inductive Num where
  | nan (sig : Bool)
  | inf (neg : Bool)
  | fin (neg : Bool) (m : Nat) (e : Int)
deriving DecidableEq, Repr

namespace Num
def isNan : Num → Bool | .nan _ => true | _ => false
def isSnan : Num → Bool | .nan b => b | _ => false
def isInf : Num → Bool | .inf _ => true | _ => false
def isZero : Num → Bool | .fin _ 0 _ => true | _ => false
def neg? : Num → Bool | .nan _ => false | .inf n => n | .fin n _ _ => n
def negate : Num → Num | .nan b => .nan b | .inf n => .inf !n | .fin n m e => .fin (!n) m e
def abs : Num → Num | .nan b => .nan b | .inf _ => .inf false | .fin _ m e => .fin false m e
def ofInt (v : Int) : Num := .fin (v < 0) v.natAbs 0
/-- `expo(x)`: ⌊log2 |x|⌋ (R53), for nonzero finite x. -/
def expo : Num → Int | .fin _ m e => (Nat.log2 m : Int) + e | _ => 0
/-- Signed mantissa at exponent `q ≤ e`. -/
def atExp (q : Int) : Num → Int
  | .fin n m e => let v : Int := (m : Int) * 2 ^ (e - q).toNat; if n then -v else v
  | _ => 0
end Num

def pow2 (n : Int) : Nat := 2 ^ n.toNat

/-- Round `m × 2^−sh` to an integer in mode `rm` (Table 02-2; 5 and above act as RNE): the integer and whether it is inexact. -/
def roundShift (rm : Nat) (neg : Bool) (m : Nat) (sh : Int) : Nat × Bool :=
  if sh ≤ 0 then (m * pow2 (-sh), false) else
  let d := pow2 sh
  let q := m / d
  let r := m % d
  let up := match rm with
    | 1 => false
    | 2 => neg && r ≠ 0
    | 3 => !neg && r ≠ 0
    | 4 => decide (d ≤ 2 * r)
    | _ => decide (d < 2 * r) || (2 * r = d && q % 2 = 1)
  (if up then q + 1 else q, r ≠ 0)

/-- A finite value as an integer, rounded half-even where it is none. -/
def Num.toInt : Num → Int
  | .fin neg m e => let r := (roundShift 0 neg m (-e)).1; if neg then -(r : Int) else r
  | _ => 0

/-! ### Binary floating-point formats -/

/-- Precision and least exponent of the IEEE and 8-bit formats (Table 02-1, R37, R43). -/
def binPrec (k : Nat) : Nat := match k with | 12 => 11 | 13 => 8 | 14 => 24 | 15 => 53 | 16 => 4 | _ => 3
def binEmin (k : Nat) : Int := match k with | 12 => -14 | 13 => -126 | 14 => -126 | 15 => -1022 | 16 => -6 | _ => -14
/-- Largest finite magnitude, as mantissa and exponent. -/
def binMax (k : Nat) : Nat × Int :=
  match k with
  | 16 => (7, 6)
  | _ => (2 ^ binPrec k - 1, 1 - binEmin k - (binPrec k : Int) + 1)
/-- Pattern of the largest finite magnitude, of infinity, and the canonical NaN (R38, R44). -/
def binMaxPat (k : Nat) : Nat := match k with | 12 => 0x7BFF | 13 => 0x7F7F | 14 => 0x7F7FFFFF | 15 => 0x7FEFFFFFFFFFFFFF | 16 => 0x7E | _ => 0x7B
def binInfPat (k : Nat) : Nat := match k with | 12 => 0x7C00 | 13 => 0x7F80 | 14 => 0x7F800000 | 15 => 0x7FF0000000000000 | 16 => 0x7F | _ => 0x7C
def nanPat (k : Nat) : Nat :=
  match k with
  | 12 => 0x7E00 | 13 => 0x7FC0 | 14 => 0x7FC00000 | 15 => 0x7FF8000000000000 | 16 => 0x7F | 17 => 0x7F
  | 18 | 19 | 20 => 0x80 | 21 | 22 => 0x20 | 23 => 0x3FF * 2 ^ 53 + 2 ^ 52 | _ => 0
def signBit (k : Nat) : Nat := 2 ^ (fmtBits k - 1)

/-- Value of an IEEE or 8-bit floating-point pattern. -/
def binValue (k p : Nat) : Num :=
  let p := p % 2 ^ fmtBits k
  let neg := decide (signBit k ≤ p)
  let mag := p % signBit k
  let fb := binPrec k - 1
  let ex : Nat := mag / 2 ^ fb
  let fr := mag % 2 ^ fb
  if k = 16 && mag = 0x7F then .nan false
  else if k ≠ 16 && binInfPat k ≤ mag then
    (if fr = 0 then .inf neg else .nan (fr < 2 ^ (fb - 1)))
  else if ex = 0 then .fin neg fr (binEmin k - fb)
  else .fin neg (2 ^ fb + fr) ((ex : Int) - 1 + binEmin k - fb)

/-! ### Tapered formats (R45) -/

/-- W and N of a tapered format. -/
def taperW (k : Nat) : Nat := if k = 21 || k = 22 then 6 else 8
def taperN (k : Nat) : Nat := match k with | 19 => 1 | 20 => 2 | 22 => 1 | _ => 0

/-- Length of the run of bit `b` from bit `i − 1` of `m` downward. -/
def runLen (m : Nat) (b : Bool) : Nat → Nat
  | 0 => 0
  | i + 1 => if m.testBit i = b then 1 + runLen m b i else 0

/-- `decode_taper` (R45). -/
def taperValue (k c : Nat) : Num :=
  let w := taperW k
  let n := taperN k
  let c := c % 2 ^ w
  let neg := c.testBit (w - 1)
  let m := c % 2 ^ (w - 1)
  if m = 0 then (if neg then .nan false else .fin false 0 0) else
  let b := m.testBit (w - 2)
  let run := runLen m b (w - 1)
  let kk : Int := if b then (run : Int) - 1 else -(run : Int)
  let rest := (w - 2) - run
  let t := m % 2 ^ rest
  if n ≤ rest then
    let fb := rest - n
    .fin neg (2 ^ fb + t % 2 ^ fb) (kk * 2 ^ n + ((t / 2 ^ fb : Nat) : Int) - fb)
  else .fin neg 1 (kk * 2 ^ n + ((t * 2 ^ (n - rest) : Nat) : Int))

/-- `round_taper` (R48). -/
def roundTaper (k : Nat) (x : Num) : Res :=
  let w := taperW k
  let n := taperN k
  let sb := 2 ^ (w - 1)
  match x with
  | .nan _ => { pat := sb, fl := flNV }
  | .inf _ => { pat := sb, fl := flNV }
  | .fin _ 0 _ => { pat := 0 }
  | .fin neg m e =>
    let s := if neg then sb else 0
    let lim : Int := ((w : Int) - 2) * 2 ^ n
    let l : Int := Nat.log2 m
    let p := l + e
    let exact2 := m = 2 ^ Nat.log2 m
    if lim ≤ p then { pat := s + sb - 1, fl := if p = lim && exact2 then 0 else flSATC ||| flNX }
    else if p < -lim || (p = -lim && exact2) then { pat := s + 1, fl := if p = -lim then 0 else flTMIN ||| flNX }
    else
      let kk := p / (2 ^ n : Int)
      let ee := p - kk * 2 ^ n
      let reg : Nat := if 0 ≤ kk then 2 ^ (kk + 2).toNat - 2 else 1
      let rl : Int := if 0 ≤ kk then kk + 2 else 1 - kk
      let num := (reg * 2 ^ n + ee.toNat) * 2 ^ Nat.log2 m + (m - 2 ^ Nat.log2 m)
      let c := (roundShift 0 false num (l - ((w : Int) - 1 - rl - n))).1
      let same := match taperValue k c with
        | .fin _ cm ce => decide (cm * pow2 (ce - min ce e) = m * pow2 (e - min ce e))
        | _ => false
      { pat := s + c, fl := if same then 0 else flNX }

/-! ### w42 (R52) -/

/-- Value of the 42 bits of a w42. -/
def w42Value (p : Nat) : Num :=
  let neg := p.testBit 41
  let ex : Nat := p / 2 ^ 31 % 1024
  let fr := p % 2 ^ 31
  if ex = 0 then .fin neg 0 0
  else if ex = 1023 then (if fr = 0 then .inf neg else .nan (fr < 2 ^ 30))
  else .fin neg (2 ^ 31 + fr) ((ex : Int) - 511 - 31)

/-- Rounding into the 42 bits of a w42. -/
def roundW (rm : Nat) (x : Num) : Res :=
  match x with
  | .nan _ => { pat := 1023 * 2 ^ 31 + 2 ^ 30 }
  | .inf neg => { pat := (if neg then 2 ^ 41 else 0) + 1023 * 2 ^ 31 }
  | .fin neg 0 _ => { pat := if neg then 2 ^ 41 else 0 }
  | .fin neg m e =>
    let s := if neg then 2 ^ 41 else 0
    let q := (Nat.log2 m : Int) + e - 31
    let r := roundShift rm neg m (q - e)
    let (n, q) := if r.1 = 2 ^ 32 then (2 ^ 31, q + 1) else (r.1, q)
    let nx := if r.2 then flNX else 0
    if 512 ≤ q + 31 then { pat := s + 1023 * 2 ^ 31, fl := flOF ||| flNX }
    else if q + 31 < -510 then { pat := s, fl := flUF ||| flNX }
    else { pat := s + (q + 31 + 511).toNat * 2 ^ 31 + (n - 2 ^ 31), fl := nx }

/-! ### `round_to` -/

/-- Rounding into an IEEE or 8-bit floating-point format (R37, R44), tininess after rounding; `ftz` replaces a subnormal result. -/
def roundBin (k rm : Nat) (sat ftz : Bool) (x : Num) : Res :=
  let sb := signBit k
  match x with
  | .nan _ => { pat := nanPat k }
  | .inf neg =>
    let s := if neg then sb else 0
    if sat && !isIeee k then { pat := s + binMaxPat k, fl := flSATC }
    else if k = 16 then { pat := 0x7F } else { pat := s + binInfPat k }
  | .fin neg 0 _ => { pat := if neg then sb else 0 }
  | .fin neg m e =>
    let s := if neg then sb else 0
    let p : Int := binPrec k
    let ex := (Nat.log2 m : Int) + e
    let qn := ex - p + 1
    let qs := binEmin k - p + 1
    let q := max qn qs
    let r := roundShift rm neg m (q - e)
    let u := roundShift rm neg m (qn - e)
    let tiny := decide (ex < binEmin k) && !(decide (ex = binEmin k - 1) && u.1 = 2 ^ binPrec k)
    let (mm, me) := binMax k
    -- compare r.1 × 2^q with the largest finite value
    let lo := min q me
    let big := decide (mm * pow2 (me - lo) < r.1 * pow2 (q - lo))
    if big then
      let toMax := match rm with | 1 => true | 2 => !neg | 3 => neg | _ => false
      if sat && !isIeee k then { pat := s + binMaxPat k, fl := flOF ||| flNX ||| flSATC }
      else if toMax then { pat := s + binMaxPat k, fl := flOF ||| flNX }
      else if k = 16 then { pat := 0x7F, fl := flOF ||| flNX }
      else { pat := s + binInfPat k, fl := flOF ||| flNX }
    else
      let half := 2 ^ (binPrec k - 1)
      let n := r.1
      let sub := decide (n < half)
      let fl := if r.2 then (if tiny then flNX ||| flUF else flNX) else 0
      if sub then
        if ftz && n ≠ 0 then { pat := s, fl := fl ||| flUF ||| flNX } else { pat := s + n, fl := fl }
      else
        let (n, q) := if n = 2 * half then (half, q + 1) else (n, q)
        { pat := s + (q - qs + 1).toNat * half + (n - half), fl := fl }

/-- Conversion of a floating-point or tapered value into an integer format (R36). DEDUCED (log 43): the b1 and t2 rules stand alone, so neither sets `NX`. -/
def numToInt (k rm : Nat) (x : Num) : Res :=
  let clamp := fun (neg : Bool) => intResult k true (if neg then intMin k - 1 else intMax k + 1)
  match x with
  | .nan _ => { pat := if k = 10 then 1 else 0, fl := flNV }
  | .inf neg =>
    if k = 10 then { pat := if neg then 0 else 1 }
    else if k = 11 then { pat := if neg then 3 else 1, fl := flSATC }
    else { pat := (clamp neg).pat, fl := flNV }
  | .fin neg m e =>
    if k = 10 then { pat := if neg && m ≠ 0 then 0 else 1 } else
    let r := roundShift rm neg m (-e)
    let v : Int := if neg then -(r.1 : Int) else r.1
    if intMin k ≤ v && v ≤ intMax k then { pat := lowBits (fmtBits k) v, fl := if r.2 && k ≠ 11 then flNX else 0 }
    else if k = 11 then { pat := if neg then 3 else 1, fl := flSATC }
    else { pat := (clamp neg).pat, fl := flNV }

/-- `round_to(x, fmt, rm, sat)` of a floating-point or tapered value, with a flush option (R53, R37). w42 patterns are 64-bit containers. -/
def roundTo (k rm : Nat) (sat ftz : Bool) (x : Num) : Res :=
  if isIntFmt k then numToInt k rm x
  else if k = 23 then let r := roundW rm x; { r with pat := r.pat * 2 ^ 22 }
  else if isIeee k || k = 16 || k = 17 then roundBin k rm sat ftz x
  else roundTaper k x

/-- Value of a pattern in any format (R35, R37, R43, R45, R52); `FMT` warns of t2 code 0b10. -/
def valueOf (k p : Nat) : Num × BitVec 16 :=
  if isIntFmt k then let v := intVal k (isIFmt k) p; (Num.ofInt v.1, v.2)
  else if isIeee k || k = 16 || k = 17 then (binValue k p, 0)
  else if k = 23 then (w42Value (p / 2 ^ 22 % 2 ^ 42), 0)
  else (taperValue k p, 0)

/-- `to_w42(c, fmt)` (R53). -/
def toW42 (k p : Nat) : Num := w42Value (roundW 0 (valueOf k p).1).pat

/-! ### Exact arithmetic -/

/-- Sum with IEEE rules: the value and `NV` for infinities of opposite sign; an exact zero sum of opposite signs is +0, −0 toward −∞. -/
def numAdd (rm : Nat) (a b : Num) : Num × BitVec 13 :=
  match a, b with
  | .nan _, _ => (.nan false, 0)
  | _, .nan _ => (.nan false, 0)
  | .inf x, .inf y => if x = y then (.inf x, 0) else (.nan false, flNV)
  | .inf x, _ => (.inf x, 0)
  | _, .inf y => (.inf y, 0)
  | .fin an am ae, .fin bn bm be =>
    let q := min ae be
    let v := (Num.fin an am ae).atExp q + (Num.fin bn bm be).atExp q
    if v = 0 then (.fin (if an = bn then an else rm = 2) 0 q, 0)
    else (.fin (v < 0) v.natAbs q, 0)

def numMul (a b : Num) : Num × BitVec 13 :=
  match a, b with
  | .nan _, _ => (.nan false, 0)
  | _, .nan _ => (.nan false, 0)
  | .inf x, y => if y.isZero then (.nan false, flNV) else (.inf (x != y.neg?), 0)
  | x, .inf y => if x.isZero then (.nan false, flNV) else (.inf (x.neg? != y), 0)
  | .fin an am ae, .fin bn bm be => (.fin (an != bn) (am * bm) (ae + be), 0)

/-- Quotient to 130 significant bits with a sticky last bit. -/
def numDiv (a b : Num) : Num × BitVec 13 :=
  match a, b with
  | .nan _, _ => (.nan false, 0)
  | _, .nan _ => (.nan false, 0)
  | .inf _, .inf _ => (.nan false, flNV)
  | .inf x, y => (.inf (x != y.neg?), 0)
  | x, .inf y => (.fin (x.neg? != y) 0 0, 0)
  | .fin an am ae, .fin bn bm be =>
    if bm = 0 then (if am = 0 then (.nan false, flNV) else (.inf (an != bn), flDZ))
    else if am = 0 then (.fin (an != bn) 0 0, 0)
    else
      let sh := 130 + Nat.log2 bm
      let n := am * 2 ^ sh
      (.fin (an != bn) (2 * (n / bm) + (if n % bm = 0 then 0 else 1)) (ae - be - sh - 1), 0)

/-- Integer square root by bits, from bit `i − 1` downward. -/
def isqrtBits (n : Nat) : Nat → Nat → Nat
  | 0, r => r
  | i + 1, r => let t := r + 2 ^ i; isqrtBits n i (if t * t ≤ n then t else r)
def isqrt (n : Nat) : Nat := isqrtBits n (Nat.log2 n / 2 + 1) 0

/-- Square root to more than 130 significant bits with a sticky last bit. -/
def numSqrt (a : Num) : Num × BitVec 13 :=
  match a with
  | .nan _ => (.nan false, 0)
  | .inf neg => if neg then (.nan false, flNV) else (.inf false, 0)
  | .fin neg 0 e => (.fin neg 0 e, 0)
  | .fin neg m e =>
    if neg then (.nan false, flNV) else
    let odd := e % 2 ≠ 0
    let n := m * 2 ^ (if odd then 261 else 260)
    let r := isqrt n
    let e2 := (e - (if odd then 261 else 260)) / 2
    (.fin false (2 * r + (if r * r = n then 0 else 1)) (e2 - 1), 0)

/-- Exact comparison of two values; none where one is NaN. -/
def numCmp (a b : Num) : Option Ordering :=
  match a, b with
  | .nan _, _ => none
  | _, .nan _ => none
  | .inf x, .inf y => some (if x = y then .eq else if x then .lt else .gt)
  | .inf x, _ => some (if x then .lt else .gt)
  | _, .inf y => some (if y then .gt else .lt)
  | .fin an am ae, .fin bn bm be =>
    let q := min ae be
    some (compare ((Num.fin an am ae).atExp q) ((Num.fin bn bm be).atExp q))

/-- `a cc b` with the NaN rules of R168: the truth value and `NV`. -/
def condNum (cc : Nat) (a b : Num) : Bool × BitVec 13 :=
  match numCmp a b with
  | none => (cc = 1, if a.isSnan || b.isSnan || 2 ≤ cc then flNV else 0)
  | some o => (match cc with
    | 0 => o = .eq | 1 => o ≠ .eq | 2 => o = .lt | 3 => o ≠ .gt | 4 => o = .gt | _ => o ≠ .lt, 0)

/-! ### Scale bytes (R49 to R51) -/

/-- Value of sc8; none for the NaN scale. -/
def scaleValue (c : Nat) : Option (Nat × Int) := if c = 0xFF then none else some (4 + c % 4, (c / 4 : Nat) - 33)

/-- A scaled element: value times scale, exactly (R49). A signalling NaN stays one, so that its reader sees it (R43). -/
def scaledValue (k p sc : Nat) : Num :=
  match (valueOf k p).1, scaleValue sc with
  | .nan sig, _ => .nan sig
  | _, none => .nan false
  | v, some (m, e) => (numMul v (.fin false m e)).1

/-- Quotient of a finite value by a scale, to 130 bits with sticky. -/
def divScale (x : Num) (sc : Nat) : Num :=
  match scaleValue sc with
  | none => x
  | some (m, e) => (numDiv x (.fin false m e)).1

/-- The element passes the test of its format under the scale (R51 rule 2). -/
def scaleFits (k rm sc : Nat) (x : Num) : Bool :=
  let q := divScale x sc
  match q with
  | .fin _ m e =>
    if k = 0 || k = 8 || k = 11 then
      let lim := if k = 0 then 127 else if k = 8 then 7 else 1
      decide ((roundShift rm q.neg? m (-e)).1 ≤ lim)
    else if k = 16 || k = 17 then ((roundBin k rm false false q).fl &&& flOF) = 0
    else
      let lim : Int := ((taperW k : Int) - 2) * 2 ^ taperN k
      let p := (Nat.log2 m : Int) + e
      m = 0 || decide (p < lim) || (p = lim && m = 2 ^ Nat.log2 m)
  | _ => true

/-- The first scale from `c` upward that every element passes. -/
def findScale (k rm : Nat) (xs : List Num) : Nat → Nat → Nat
  | 0, _ => 0xFE
  | n + 1, c => if xs.all (scaleFits k rm c) then c else findScale k rm xs n (c + 1)

/-- A block's scale byte (R51). -/
def chooseScale (k rm : Nat) (xs : List Num) : Nat :=
  if xs.any fun x => x.isNan || x.isInf then 0xFF else findScale k rm xs 0xFF 0

/-- A quotient that an integer format does not hold: not an integer, or out of range (R51). -/
def intInexact (k rm : Nat) (x : Num) : Bool :=
  match x with
  | .fin neg m e =>
    let r := roundShift rm neg m (-e)
    let v : Int := if neg then -(r.1 : Int) else r.1
    r.2 || decide (v < intMin k) || decide (intMax k < v)
  | _ => false

/-- An element written under a chosen scale, with the flags of R51: `NX` for an inexact element of any format, a saturated one among them. -/
def writeScaled (k rm sc : Nat) (x : Num) : Res :=
  if sc = 0xFF then { pat := 0, fl := if x.isSnan then flNV else 0 } else
  let q := divScale x sc
  if isIntFmt k then
    let r := numToInt k rm q
    { r with fl := if intInexact k rm q then flNX else 0 }
  else
    let r := roundTo k rm true false q
    { r with fl := r.fl &&& (flNX ||| flUF ||| flTMIN) }

end Sys2Proof.Machine
end

