-- ==== Sys2Proof/Machine/Sync.lean ====
section
/-!
DEFINITION. Atomics, fences, sync words, counters, semaphores, barriers, coherence mode (R223 to R238, R388 to R397), and when a thread that
they hold goes on (R365 condition 6).
-/
namespace Sys2Proof.Machine
open Sys2Proof
open Host (Outcome)

/-! ### Atomics (R224 to R226) -/

/-- The new word of an `amo` (R224), on n-bit patterns. -/
def amoNew (k var old b : Nat) : Nat :=
  let n := fmtBits k
  let pick := fun (less : Bool) =>
    let x := (intVal k (isIFmt k) old).1
    let y := (intVal k (isIFmt k) b).1
    if (decide (x < y)) = less then old % 2 ^ n else b % 2 ^ n
  match var with
  | 0 => (old + b) % 2 ^ n
  | 1 => pick true
  | 2 => pick false
  | 3 => (old &&& b) % 2 ^ n
  | 4 => (old ||| b) % 2 ^ n
  | 5 => (old ^^^ b) % 2 ^ n
  | 6 => b % 2 ^ n
  | _ => (roundBin k 0 false false (numAdd 0 (binValue k old) (binValue k b)).1).pat

/-- An atomic with system scope to a place behind the host port goes out only after every earlier write of its agent has been performed, whatever its `ORD`
(R418). -/
def overHost (k scope : Nat) : Bool := isHost k && scope = 3

/-- An earlier write of a thread still keeps such an atomic back: one whose reply may yet come, or a dirty line that cannot leave its tile now. -/
def writesDue (s : State) (k tile : Nat) : Bool := (s.thr k).stores.any (·.awaited) || drainHeld s tile fun _ => true

/-- A read-modify-write at its place (R81): a release part before, an acquire part after; `f` gives the new word, or none to write nothing, which
orders as a load. -/
def rmw (s : State) (tile k n ord scope : Nat) (f : Nat → Option Nat) : State × Nat :=
  let s := if ord = 3 || overHost k scope then releaseAt s tile scope else s
  let r := atomicRead s tile k n scope
  let old := leNat r.2
  let s := match f old with
    | some v => if recordStore k then r.1 else atomicWrite r.1 tile k (natLe n v) scope
    | none => r.1
  (if 2 ≤ ord then acquireAt s tile scope else s, old)

/-- An atomic that executes at the device that owns its page: its request goes there over Mirfer, between its release and acquire parts (R81, R300, R302). -/
def peerAtomic (s : State) (tile k ord : Nat) : State :=
  let s := if ord = 3 then releaseDevice s tile else s
  let s := match ownerLink s k with
    | some n => sendFlit s s.mover n 1 (Config.requestPayload k s.tick)
    | none => s
  if 2 ≤ ord then acquireDevice s tile else s

/-- An atomic at system scope to a place that another device owns has no link to that device now (R15, R411). -/
def peerHeld (s : State) (k scope : Nat) : Bool := scope = 3 && elsewhere s k && (ownerLink s k).isNone

/-- An `amo` or `cas` bundle: checks of R223, then the operation, poison and error replies by R224. -/
def atomicBody (opc : Nat) (op : CEnv → Nat → Option Nat) (e : CEnv) (s : State) : BRes :=
    let f := e.f
    let n := accSize f.fmt
    let ea := e.a + f.simm
    let go := fun (s : State) =>
      let fill := fun (s : State) (v : Nat) (p : Option PoisonInfo) (err : Bool) =>
        BRes.ok (s.modThr e.k fun t => t.await (loadFill e f.d.toNat (BitVec.ofNat 2048 v) p err)) true
      let bad := fun (s : State) (v : Nat) (c : BitVec 6) (err : Bool) =>
        if f.d = 0 then
          let info : Word := if c = cPOISON then 0x4000000000000001 else 0x4000000000000000
          if err then BRes.ok (noteStore s e.k e.ticket (some ea)) true
          else fill (s.modThr e.k fun t => { t with deferred := t.deferred ++ [{ cause := c, addr := ea, info := info }] }) v none false
        else fill s v (some { cause := c, addr := ea }) err
      match resolveAt (f.scope ≠ 3) s (e.agent.at 1 f.scope) ea n n .rw with
      | (s, .error st) =>
        if st.isLink then bad s 0 cLINK_ERR true
        else heldOr opc e s st (resolveAt (f.scope ≠ 3) s { e.agent.at 1 f.scope with free := true } ea n n .rw)
          (if f.d = 0 then stopStore e s st ea 0 else stopRes s st ea 0)
      | (s, .ok k) =>
        if errReply s k then bad s 0 cLINK_ERR true
        else if peerHeld s k f.scope || (overHost k f.scope && writesDue s e.k e.tile) then .held s { opc := opc, env := e }
        else if f.scope = 3 && elsewhere s k then
          .ok ((peerAtomic s e.tile k f.ord).modThr e.k fun t => t.await (loadFillTo e f.d.toNat
            (BitVec.ofNat 2048 (extendTo 64 f.fmt (Config.peerWord s.tick % 2 ^ (8 * n)))) ea (viaOf s e.tile k))) true
        else if poisoned s k n then
          let r := readAt s e.tile k n (if 2 ≤ f.ord then 2 else f.ord) f.scope
          bad r.1 (extendTo 64 f.fmt (leNat r.2)) cPOISON false
        else
          let s := if recordStore k then addWarn s e.k wPRIV else s
          let r := rmw s e.tile k n f.ord f.scope (op e)
          .ok (r.1.modThr e.k fun t => t.await (loadFillTo e f.d.toNat (BitVec.ofNat 2048 (extendTo 64 f.fmt r.2)) ea (viaOf s e.tile k))) true
    if f.ord = 3 then reportDeferred s e.k f.scope go else go s

/-- An `amo` or `cas` in a block: irrevocable, sends the old word (R226). -/
def atomicG (opc : Nat) (f : GForm) (s : State) (op : GEnv → Nat → Option Nat) : Outcome State Fault Refusal :=
  .next <| runG opc f s fun e s =>
    match s.inst? e.inst with
    | none => .wait s
    | some m =>
      if !irrevMayFire s e.inst m e.ix then .wait s else
      let n := accSize f.fmt
      let s := (noteStatus s e.a_ 0 (rsvG opc f)).1
      match resolveAt (f.scope ≠ 3) s (e.agent.at 1 f.scope) e.a n n .rw with
      | (s, .error st) => stopG s st e.a
      | (s, .ok k) =>
        let sent := fun (s : State) (v : Nat) => GRes.send (s.modInst e.inst fun m => { m with irrev := true }) (BitVec.ofNat 64 v)
        if errReply s k then .fault s cLINK_ERR e.a
        else if peerHeld s k f.scope || (overHost k f.scope && drainHeld s e.a_.tile fun _ => true) then .wait s
        else if f.scope = 3 && elsewhere s k then sent (peerAtomic s e.a_.tile k f.ord) (extendTo 64 f.fmt (Config.peerWord s.tick % 2 ^ (8 * n)))
        else if poisoned s k n then .fault s cPOISON e.a
        else
          let s := if recordStore k then (noteStatus s e.a_ 0 wPRIV).1 else s
          let r := rmw s e.a_.tile k n f.ord f.scope (op e)
          sent r.1 (extendTo 64 f.fmt r.2)

/-- The new word of an `amo` bundle and of a `cas` bundle. -/
def amoOp (e : CEnv) (old : Nat) : Option Nat := some (amoNew e.f.fmt e.f.var old (e.b.toNat % 2 ^ fmtBits e.f.fmt))
def casOp (e : CEnv) (old : Nat) : Option Nat := if old = e.b.toNat % 2 ^ fmtBits e.f.fmt then some (e.c.toNat % 2 ^ fmtBits e.f.fmt) else none

def execAmo (f : Form) (s : State) : Outcome State Fault Refusal :=
  match f with
  | .c f => .next <| runC 0x70 f s (atomicBody 0x70 amoOp)
  | .g f => atomicG 0x70 f s fun e old => some (amoNew f.fmt f.var old (e.b.toNat % 2 ^ fmtBits f.fmt))

def execCas (f : Form) (s : State) : Outcome State Fault Refusal :=
  match f with
  | .c f => .next <| runC 0x71 f s (atomicBody 0x71 casOp)
  | .g f => atomicG 0x71 f s fun e old =>
    if old = e.b.toNat % 2 ^ fmtBits f.fmt then some (e.c.toNat % 2 ^ fmtBits f.fmt) else none

/-! ### Fences and `pub` (R227, R228) -/

/-- The release part of a fence, for every `ORD` but acquire, and its acquire part, for every `ORD` but release. -/
def fenceRel (ord : Nat) : Bool := ord ≠ 2
def fenceAcq (ord : Nat) : Bool := ord ≠ 3

def execFence (f : Form) (s : State) : Outcome State Fault Refusal :=
  match f with
  | .c f => .next <| runC 0x72 f s fun e s => reportDeferred s e.k (if fenceRel f.ord then f.scope else 0) fun s =>
    let s := if fenceRel f.ord then releaseAt s e.tile f.scope else s
    .ok (if fenceAcq f.ord then acquireAt s e.tile f.scope else s) false
  | .g f => .next <| runG 0x72 f s fun e s =>
    match s.inst? e.inst with
    | none => .wait s
    | some m =>
      if !fenceMayFire m e.ix then .wait s else
      let s := if fenceAcq f.ord then acquireAt s e.a_.tile f.scope else s
      .quiet (if fenceRel f.ord then bufferStore e s 0x72 0 0 [] 0 f.ord f.scope else s)

/-- Write back, or drop, the tile's L1 copy of one line (R228), if its address translates; true where that must wait for a walk or for the line's way home. -/
def pubLine (s : State) (ag : Agent) (acq : Bool) (line : Nat) : State × Bool :=
  match translateAny s ag.tile ag.ctx (BitVec.ofNat 64 line) with
  | (s, none, held) => (s, held)
  | (s, some k, _) =>
    if acq then (dropRead s ag.tile fun ln _ => ln = lineOf k, false)
    else if drainHeld s ag.tile (· = lineOf k) then (s, true) else (drainLine s ag.tile (lineOf k), false)

/-- `pubLine` for `n` lines; true where one of them waits. -/
def pubRun (s : State) (ag : Agent) (acq : Bool) (line : Nat) : Nat → State × Bool
  | 0 => (s, false)
  | n + 1 => match pubLine s ag acq line with
    | (s, true) => (s, true)
    | (s, false) => pubRun s ag acq (line + 128) n

/-- Act on the lines of a range in one window unit; true where one of them waits (R228). -/
def pubLines (s : State) (ag : Agent) (acq : Bool) (ea : Word) (len : Nat) : State × Bool :=
  if len = 0 then (s, false) else
  match windowOf ea.toNat with
  | some .w0 =>
    let stop := min (ea.toNat + len) (2 ^ 56)
    pubRun s ag acq (ea.toNat / 128 * 128) ((stop + 127) / 128 - ea.toNat / 128)
  | _ => (s, false)

/-- The permission that `pub` checks its first byte for. The spec names none: the model asks for reading where it acquires, else for writing (log 111). -/
def pubNeed (ord : Nat) : Need := if ord = 2 then .rd else .wr

/-- `pub`: only the first byte is checked; a release over the range, or with `ORD` 2 an acquire. -/
def execPub (f : Form) (s : State) : Outcome State Fault Refusal :=
  match f with
  | .c f => .next <| runC 0x73 f s fun e s => reportDeferred s e.k 0 fun s =>
    let ea := e.a + f.simm
    if e.b = 0 then .ok (noteStore s e.k e.ticket none) true else
    match resolve s e.agent ea 1 1 (pubNeed f.ord) with
    | (s, .error st) => stopRes s st ea 0
    | (s, .ok _) => match pubLines s e.agent (f.ord = 2) ea e.b.toNat with
      | (s, true) => .wait s
      | (s, false) => .ok (noteStore s e.k e.ticket none) true
  | .g f => .next <| runG 0x73 f s fun e s =>
    match s.inst? e.inst with
    | none => .wait s
    | some m =>
      if !fenceMayFire m e.ix then .wait s
      else if e.b = 0 then .quiet s else
      match resolve s e.agent e.a 1 1 (pubNeed f.ord) with
      | (s, .error st) => stopG s st e.a
      | (s, .ok k) =>
        if f.ord = 2 then match pubLines s e.agent true e.a e.b.toNat with
          | (s, true) => .wait s
          | (s, false) => .quiet s
        else .quiet (bufferStore e s 0x73 e.a k [] e.b.toNat f.ord f.scope)

/-! ### Sync words (R78, R79, R229 to R231) -/

def synGen (w : BitVec 128) : BitVec 24 := w.extractLsb' 104 24
def synTarget (w : BitVec 128) : Nat := fieldOf w 64 40
def synCount (w : BitVec 128) : Nat := fieldOf w 0 40
/-- A word with new GEN, TARGET, OVF, COUNT; its reserved bits are zero (R9, Table 03-6). -/
def synMake (gen target : Nat) (ovf : Bool) (count : Nat) : BitVec 128 :=
  (BitVec.ofNat 24 gen) ++ (BitVec.ofNat 40 target) ++ (BitVec.ofBool ovf) ++ (0#23) ++ (BitVec.ofNat 40 count)

/-- The advance test (R79). -/
def synAdvance (w : BitVec 128) : BitVec 128 :=
  if 0 < synTarget w && synTarget w ≤ synCount w then
    synMake ((synGen w).toNat + 1) 0 (w.getLsbD 63) (synCount w - synTarget w)
  else w

/-- An arrival of `n` bytes (R79). -/
def synArrive (w : BitVec 128) (n : Nat) : BitVec 128 :=
  let big := decide (2 ^ 40 - 1 < synCount w + n)
  synAdvance (synMake (synGen w).toNat (synTarget w) (w.getLsbD 63 || big) (if big then 2 ^ 40 - 1 else synCount w + n))

/-- A post of `v` (R229): none where TARGET would reach 2^40. -/
def synPostW (w : BitVec 128) (v : Nat) : Option (BitVec 128) :=
  if 2 ^ 40 ≤ synTarget w + v then none
  else some (synAdvance (synMake (synGen w).toNat (synTarget w + v) (w.getLsbD 63) (synCount w)))

/-- The place of a sync word, with the checks of R223 and R229. -/
def synPlace (s : State) (ag : Agent) (ea : Word) (need : Need) : State × Except Stop Nat :=
  match checkWindow ea 16 with
  | .error c => (s, .error (.trap c 0))
  | .ok u =>
    if ea.toNat % 16 ≠ 0 then (s, .error (.trap cMISALIGN 0)) else
    match u with
    | .w2 _ => resolve s ag ea 16 16 need
    | .w3 => resolve s ag ea 16 16 need
    | _ => (s, .error (.trap cPAGE_PERM 1))

def synRead (s : State) (k : Nat) : BitVec 128 := BitVec.ofNat 128 (leNat (Memory.readN s.mem k 16))
def synWrite (s : State) (k : Nat) (w : BitVec 128) : State := writeHome s k (bytesOf 16 w)

/-- An atomic without a destination has found its word poisoned: the thread reports it later (R224, R249). -/
def deferPoison (s : State) (k : Nat) (ea : Word) : State :=
  s.modThr k fun t => { t with deferred := t.deferred ++ [{ cause := cPOISON, addr := ea, info := 0x4000000000000001 }] }

/-- `syn.post`; a poisoned word is left as it is (R17, R224). -/
def execSynPost (f : Form) (s : State) : Outcome State Fault Refusal :=
  match f with
  | .c f => .next <| runC 0x74 f s fun e s =>
    let v := e.b + f.simm
    let go := fun (s : State) =>
      match synPlace s e.agent e.a .rw with
      | (s, .error st) => stopStore e s st e.a 0
      | (s, .ok k) =>
        if errReply s k then .ok (noteStore s e.k e.ticket (some e.a)) true
        else if poisoned s k 16 then .ok (deferPoison s e.k e.a) false else
        match synPostW (synRead s k) v.toNat with
        | none => .trap s cEXPECT_OVF e.a v
        | some w =>
          let s := if f.ord = 3 then releaseAt s e.tile f.scope else s
          let s := synWrite s k w
          .ok (if f.ord = 2 then acquireAt s e.tile f.scope else s) false
    if f.ord = 3 then reportDeferred s e.k f.scope go else go s
  | .g f => .next <| runG 0x74 f s fun e s =>
    match s.inst? e.inst with
    | none => .wait s
    | some m =>
      if !irrevMayFire s e.inst m e.ix then .wait s else
      match synPlace s e.agent e.a .rw with
      | (s, .error st) => stopG s st e.a
      | (s, .ok k) =>
        if errReply s k then .fault s cLINK_ERR e.a
        else if poisoned s k 16 then .fault s cPOISON e.a else
        match synPostW (synRead s k) e.b.toNat with
        | none => .fault s cEXPECT_OVF e.a
        | some w =>
          let s := if f.ord = 3 then releaseAt s e.a_.tile f.scope else s
          let s := synWrite s k w
          let s := if f.ord = 2 then acquireAt s e.a_.tile f.scope else s
          .send (s.modInst e.inst fun m => { m with irrev := true }) 0

/-- `syn.read` of a bundle: GEN, long-latency (R230). -/
def synReadBody (e : CEnv) (s : State) : BRes :=
    let f := e.f
    let ea := e.a + f.simm
    match synPlace s e.agent ea .rd with
    | (s, .error st) => heldOr 0x76 e s st (synPlace s { e.agent with free := true } ea .rd) (stopRes s st ea 0)
    | (s, .ok k) =>
      if errReply s k then
        .ok (s.modThr e.k fun t => t.await (loadFill e f.d.toNat 0 (some { cause := cLINK_ERR, addr := ea }) true)) true
      else if poisoned s k 16 then
        .ok (s.modThr e.k fun t => t.await (loadFill e f.d.toNat 0 (some { cause := cPOISON, addr := ea }) false)) true
      else
        let v := (synGen (synRead s k)).setWidth 64
        retFill e (if 2 ≤ f.ord then acquireAt s e.tile f.scope else s) v

/-- `syn.read`; a load in a block. -/
def execSynRead (f : Form) (s : State) : Outcome State Fault Refusal :=
  match f with
  | .c f => .next <| runC 0x76 f s synReadBody
  | .g f => .next <| runG 0x76 f s fun e s =>
    match s.inst? e.inst with
    | none => .wait s
    | some m =>
      let ea := e.a
      if !loadMayFire m e.ix e.a_.tile ea 16 then .wait s else
      match synPlace s e.agent ea .rd with
      | (s, .error st) => stopG s st ea
      | (s, .ok k) =>
        if errReply s k then .fault s cLINK_ERR ea
        else if poisoned s k 16 then .fault s cPOISON ea
        else
          let bs := overlayStores s (visibleStores s e.inst m e.ix) k (Memory.readN s.mem k 16)
          .send (if 2 ≤ f.ord then acquireAt s e.a_.tile f.scope else s) ((synGen (BitVec.ofNat 128 (leNat bs))).setWidth 64)

/-- Hold the thread: the bundle has issued, the thread waits before its next one. -/
def holdThr (s : State) (k : Nat) (w : Wait) : State := s.modThr k fun t => { t with wait := w }

/-- A word that a waiting thread reads at a place: out of reach it answers with an error, and poisoned it traps its reader (R17, R421). -/
def waitWord (s : State) (k n : Nat) : Except Stop Unit :=
  if errReply s k then .error (.trap cLINK_ERR 0) else if poisoned s k n then .error (.trap cPOISON 1) else .ok ()

/-- The test of a `syn.wait`: its word's GEN differs from `gen`. -/
def synTest (s : State) (ag : Agent) (ea : Word) (gen : BitVec 24) : State × Except Stop Bool :=
  match synPlace s ag ea .rd with
  | (s, .error st) => (s, .error st)
  | (s, .ok k) => (s, (waitWord s k 16).map fun _ => synGen (synRead s k) ≠ gen)

/-- `syn.wait` (R231). Its acquire sees the whole completion of an errand whose arrival advanced the word (R310), so it drops what a device-scope acquire does
(log 93). -/
def execSynWait (f : CForm) (s : State) : Outcome State Fault Refusal :=
  .next <| runC 0x75 f s fun e s =>
    let gen := (e.b + f.simm).setWidth 24
    match synTest s e.agent e.a gen with
    | (s, .error st) => stopRes s st e.a 0
    | (s, .ok true) => .ok (acquireDevice s e.tile) false
    | (s, .ok false) => .ok (holdThr s e.k (.syn e.a gen)) false

/-! ### Completion counters (R80, R232, R233) -/

/-- `v` of `ctr.add`: `xr(B)` + `zext(IMM[42:0], 43)`. -/
def ctrValue (b : Word) (imm : BitVec 44) : Word := b + BitVec.ofNat 64 (imm.toNat % 2 ^ 43)

/-- Add to a counter, or make an arrival, at a checked place. -/
def ctrApply (s : State) (tile k : Nat) (v : Word) (arr : Bool) (ord scope : Nat) : State :=
  if arr then
    let s := if ord = 3 then releaseAt s tile scope else s
    let s := synWrite s k (synArrive (synRead s k) v.toNat)
    if 2 ≤ ord then acquireAt s tile scope else s
  else (rmw s tile k 8 ord scope fun old => some ((old + v.toNat) % 2 ^ 64)).1

/-- The place of a counter or sync word; an add at system scope executes at the owner of its page (R81, R302). -/
def ctrPlace (s : State) (ag : Agent) (ea : Word) (arr : Bool) (scope : Nat) : State × Except Stop Nat :=
  if arr then synPlace s ag ea .rw else resolveAt (scope ≠ 3) s ag ea 8 8 .rw

/-- `ctr.add` of a bundle (R232). -/
def ctrAddBody (e : CEnv) (s : State) : BRes :=
    let f := e.f
    let arr := f.imm.getLsbD 43
    let v := ctrValue e.b f.imm
    let go := fun (s : State) =>
      match ctrPlace s (e.agent.at 1 f.scope) e.a arr f.scope with
      | (s, .error st) => heldOr 0x78 e s st (ctrPlace s { e.agent.at 1 f.scope with free := true } e.a arr f.scope) (stopStore e s st e.a 0)
      | (s, .ok k) =>
        if errReply s k then .ok (noteStore s e.k e.ticket (some e.a)) true
        else if peerHeld s k f.scope || (overHost k f.scope && writesDue s e.k e.tile) then .held s { opc := 0x78, env := e }
        else if f.scope = 3 && elsewhere s k then .ok (peerAtomic s e.tile k f.ord) false
        else if poisoned s k (if arr then 16 else 8) then .ok (deferPoison s e.k e.a) false
        else .ok (ctrApply s e.tile k v arr f.ord f.scope) false
    if f.ord = 3 then reportDeferred s e.k f.scope go else go s

/-- `ctr.add`. -/
def execCtrAdd (f : Form) (s : State) : Outcome State Fault Refusal :=
  match f with
  | .c f => .next <| runC 0x78 f s ctrAddBody
  | .g f => .next <| runG 0x78 f s fun e s =>
    match s.inst? e.inst with
    | none => .wait s
    | some m =>
      if !irrevMayFire s e.inst m e.ix then .wait s else
      let arr := e.c.getLsbD 0
      match ctrPlace s (e.agent.at 1 f.scope) e.a arr f.scope with
      | (s, .error st) => stopG s st e.a
      | (s, .ok k) =>
        if errReply s k then .fault s cLINK_ERR e.a
        else if peerHeld s k f.scope || (overHost k f.scope && drainHeld s e.a_.tile fun _ => true) then .wait s
        else if f.scope = 3 && elsewhere s k then .send ((peerAtomic s e.a_.tile k f.ord).modInst e.inst fun m => { m with irrev := true }) 0
        else if poisoned s k (if arr then 16 else 8) then .fault s cPOISON e.a
        else .send ((ctrApply s e.a_.tile k e.b arr f.ord f.scope).modInst e.inst fun m => { m with irrev := true }) 0

/-- The test of a `ctr.wait`: the place of its counter, and whether that has reached `v`. A wait at device scope recalls the token first (R296). -/
def ctrTest (s : State) (ag : Agent) (ea v : Word) (scope : Nat) : State × Except Stop (Nat × Bool) :=
  match resolve s (ag.at 1 scope) ea 8 8 .rd with
  | (s, .error st) => (s, .error st)
  | (s, .ok k) =>
    match waitWord s k 8 with
    | .error st => (s, .error st)
    | .ok () =>
      let s := if 2 ≤ scope && !isOnTile k then recallHome s k else s
      (s, .ok (k, decide (v.toNat ≤ leNat (placeView s ag.tile k 8 scope))))

/-- `ctr.wait` (R233). Where it returns on an errand's add it sees the whole completion (R310, log 93). -/
def execCtrWait (f : CForm) (s : State) : Outcome State Fault Refusal :=
  .next <| runC 0x77 f s fun e s =>
    let v := e.b + f.simm
    match ctrTest s e.agent e.a v f.scope with
    | (s, .error st) => stopRes s st e.a 0
    | (s, .ok (_, true)) => .ok (acquireDevice s e.tile) false
    | (s, .ok (k, false)) => .ok (holdThr s e.k (.ctr e.a v f.scope (some k) s.dev.hubNs)) false

/-! ### Semaphores (R234, Table 19-3) -/

def semMax : Nat := 2 ^ 20 - 1
def semIx (e : CEnv) : Nat := (e.a + e.f.simm).toNat % 32
def setSem (s : State) (tile j c : Nat) : State := s.modTile tile fun t => { t with sems := putV t.sems j c }
/-- Earlier waiters (or signallers) of semaphore `j`, in the order in which they began to wait. -/
def semQueue (s : State) (tile j : Nat) (sig : Bool) : List Nat :=
  ((s.tile tile).semQ.filter fun q => q.1 = j && q.2.2 = sig).map (·.2.1)

def execSemSig (f : CForm) (s : State) : Outcome State Fault Refusal :=
  .next <| runC 0x79 f s fun e s =>
    let j := semIx e
    let c := getV (s.tile e.tile).sems 0 j
    if c < semMax && (semQueue s e.tile j true).isEmpty then .ok (setSem s e.tile j (c + 1)) false
    else .ok (holdThr (s.modTile e.tile fun t => { t with semQ := t.semQ ++ [(j, e.k, true)] }) e.k (.semSig j)) false

def execSemWait (f : CForm) (s : State) : Outcome State Fault Refusal :=
  .next <| runC 0x7A f s fun e s =>
    let j := semIx e
    let c := getV (s.tile e.tile).sems 0 j
    if 0 < c && (semQueue s e.tile j false).isEmpty then .ok (setSem s e.tile j (c - 1)) false
    else .ok (holdThr (s.modTile e.tile fun t => { t with semQ := t.semQ ++ [(j, e.k, false)] }) e.k (.semWait j)) false

/-! ### Barriers (R235, R236, R388 to R392) -/

def barOf (s : State) (tile b : Nat) : Bar := getV (s.tile tile).bars { gen := 0, arrived := [] } b
def setBar (s : State) (tile b : Nat) (x : Bar) : State := s.modTile tile fun t => { t with bars := putV t.bars b x }
/-- Record an arrival of a member thread at a tile barrier. -/
def barArrive (s : State) (k b : Nat) : State := setBar s (tileOf k) b ((barOf s (tileOf k) b).arrive k (members s (tileOf k)))

def execBarArr (f : CForm) (s : State) : Outcome State Fault Refusal :=
  .next <| runC 0x7B f s fun e s =>
    let b := (e.a + f.simm).toNat % 16
    if !(s.thr e.k).member then .ok s false
    else if (barOf s e.tile b).arrived.contains e.k then .ok (holdThr s e.k (.barArr b)) false
    else .ok (barArrive s e.k b) false

def execBarWait (f : CForm) (s : State) : Outcome State Fault Refusal :=
  .next <| runC 0x7C f s fun e s =>
    let b := (e.a + f.simm).toNat % 16
    let x := barOf s e.tile b
    if (s.thr e.k).member && x.arrived.contains e.k then .ok (holdThr s e.k (.barWait b x.gen)) false else .ok s false

/-- The kernel and rank of a member thread's group. -/
def groupOf (s : State) (k : Nat) : Option (Nat × Nat) := ((s.tile (tileOf k)).group).map fun g => (g.kernel, g.rank)
def gbarOf (s : State) (kn g : Nat) : Bar :=
  match s.kern? kn with
  | some kr => getV kr.gbars { gen := 0, arrived := [] } g
  | none => { gen := 0, arrived := [] }
def gbarArrive (s : State) (kn rank g : Nat) : State :=
  s.modKern kn fun kr => { kr with gbars := putV kr.gbars g ((getV kr.gbars { gen := 0, arrived := [] } g).arrive rank kr.live.length) }

/-- A member of a group that `gbar.arr` holds, once the generation of its group's outstanding arrival has completed: it is released, and its new arrival counts
in the next generation before any other member's (R235, R391). -/
def settleGbar (s : State) (kn rank g : Nat) : State :=
  if (gbarOf s kn g).arrived.contains rank then s else
  let held := fun (kt : Nat × Thread) => kt.2.member && (kt.2.wait = .gbarArr g || kt.2.hwait = .gbarArr g) && groupOf s kt.1 = some (kn, rank)
  match List.find? held s.threads with
  | none => s
  | some kt => gbarArrive (s.modThr kt.1 fun t =>
      if t.wait = .gbarArr g then { t with wait := .none } else { t with hwait := .none }) kn rank g

def execGbarArr (f : CForm) (s : State) : Outcome State Fault Refusal :=
  .next <| runC 0x7D f s fun e s =>
    let g := (e.a + f.simm).toNat % 4
    match (if (s.thr e.k).member then groupOf s e.k else none) with
    | none => .ok s false
    | some (kn, rank) =>
      if drainHeld s e.tile fun _ => true then .wait s else
      let s := settleGbar (releaseDevice s e.tile) kn rank g
      if (gbarOf s kn g).arrived.contains rank then .ok (holdThr s e.k (.gbarArr g)) false else .ok (gbarArrive s kn rank g) false

def execGbarWait (f : CForm) (s : State) : Outcome State Fault Refusal :=
  .next <| runC 0x7D f s fun e s =>
    let g := (e.a + f.simm).toNat % 4
    match (if (s.thr e.k).member then groupOf s e.k else none) with
    | none => .ok s false
    | some (kn, rank) =>
      let s := settleGbar s kn rank g
      let x := gbarOf s kn g
      if x.arrived.contains rank then .ok (holdThr s e.k (.gbarWait g x.gen)) false else .ok (acquireDevice s e.tile) false

/-! ### Coherence mode and translation fence (R237, R238) -/

/-- Bytes of one region that some tile's L1 holds dirty: merged home, the highest tile last, and the number merged in conflict. -/
def mergeRegion (s : State) (r : Nat) : State × Nat :=
  let lines := (knownTiles s).flatMap fun t => ((s.tile t).l1.filter fun kl => regionOf kl.1 = r && kl.2.dirty ≠ 0).map fun kl => (t, kl.1, kl.2)
  let conf := (lines.map fun x => (List.range 128).countP fun i =>
    x.2.2.dirty.getLsbD i && (lines.any fun y => y.1 < x.1 && y.2.1 = x.2.1 && y.2.2.dirty.getLsbD i) &&
    !(lines.any fun y => x.1 < y.1 && y.2.1 = x.2.1 && y.2.2.dirty.getLsbD i)).foldl (· + ·) 0
  (lines.foldl (fun s x => sendDirty s x.1 x.2.1) s, conf)

/-- Switch one region (R237, Table 20-5). -/
def switchRegion (s : State) (k : Nat) (soft : Bool) (p : Nat) : State :=
  let r := regionOf p
  match regionStat s p with
  | .soft => if soft then s else
    let m := mergeRegion s r
    let s := (knownTiles m.1).foldl (fun s t => dropIf s t fun ln _ => regionOf ln = r) m.1
    let s := { setRegion s r .home with softBy := Tbl.erase s.softBy r, excl := s.excl.filter fun le => regionOf le.1 ≠ r }
    s.modThr k fun t => { t with cmconf := min (t.cmconf + m.2) (2 ^ 32 - 1) }
  | _ =>
    if soft then { setRegion (recallExcls (recallToken s r) r) r .soft with softBy := Tbl.set s.softBy r (s.thr k).ctx } else s

/-- The 64 KiB pieces of the range, as virtual addresses. -/
def regionVas (a len : Nat) : List Nat := (List.range ((a % 65536 + len + 65535) / 65536)).map fun i => a / 65536 * 65536 + i * 65536

/-- Check every region of the range from `ea`: W0, translated with write permission (`SR.TADDR` = ea, R223), not host memory, twin, mapped or owned by another
device (`SR.TADDR` = the region's first byte). A region of peer memory that this device owns traps too: it keeps its home device's mode (R406, log 112). -/
def cmodeCheck (s : State) (ag : Agent) (ea : Word) : List Nat → State × Except (Stop × Word) (List Nat)
  | [] => (s, .ok [])
  | v :: r =>
    let va := BitVec.ofNat 64 v
    match findLeaf s ag.tile ag.ctx va .wr with
    | (s, .error f) => (s, .error (stopOf f, ea))
    | (s, .ok (leaf, bits)) =>
      let p := leafPlace s leaf bits v
      if pteTwin leaf || isHost p || isPeer p || elsewhere s p || (s.mapped.any fun km => regionOf km.1 = regionOf p) then
        (s, .error (.trap cCOHERENCE_MODE 0, va))
      else match cmodeCheck s ag ea r with
        | (s, .ok l) => (s, .ok (p :: l))
        | (s, .error x) => (s, .error x)

/-- A write-back that the switch of regions makes has no way home at this moment: the thread's release, or a dirty line of a region in some tile (R15, R411). -/
def cmodeHeld (s : State) (tile scope : Nat) (ps : List Nat) : Bool :=
  (2 ≤ scope && drainHeld s tile fun _ => true) || ps.any (fun p => !tokenFree s (regionOf p)) ||
  (knownTiles s).any fun t => drainHeld s t fun ln => ps.any fun p => regionOf p = regionOf ln

/-- `cmode.coh` and `cmode.soft` (R237). A range that begins in W1, W2 or W3 traps `NO_WINDOW` (log 136). -/
def cmode (opc : Nat) (soft : Bool) (f : CForm) (s : State) : Outcome State Fault Refusal :=
  .next <| runC opc f s fun e s =>
    if e.b = 0 then .ok s false else
    let a := e.a.toNat
    match windowOf a with
    | none => .trap s cNO_WINDOW e.a 0
    | some .w0 =>
      if 2 ^ 56 < a + e.b.toNat then .trap s cWINDOW_STRADDLE e.a 0 else
      match cmodeCheck s e.agent e.a (regionVas a e.b.toNat) with
      | (s, .error x) => stopRes s x.1 x.2 0
      | (s, .ok ps) =>
        if cmodeHeld s e.tile f.scope ps then .wait s else
        let s := acquireAt (releaseAt s e.tile f.scope) e.tile f.scope
        let s := ps.foldl (fun s p => switchRegion s e.k soft p) s
        .ok (acquireAt (releaseAt s e.tile f.scope) e.tile f.scope) false
    | some _ => .trap s cNO_WINDOW e.a 0

def execCmodeCoh (f : CForm) (s : State) : Outcome State Fault Refusal := cmode 0x7E false f s
def execCmodeSoft (f : CForm) (s : State) : Outcome State Fault Refusal := cmode 0x7E true f s

/-- `tfence` (R238): the context's TLB entries of the tile, and the results of the walks that the tile had joined, are dropped. -/
def execTfence (f : CForm) (s : State) : Outcome State Fault Refusal :=
  .next <| runC 0x7F f s fun e s =>
    let s := s.modTile e.tile fun t => { t with tlb := t.tlb.filter fun x => x.ctx ≠ e.ctx }
    .ok { s with walks := (s.walks.map fun w =>
      if w.ctx = e.ctx then { w with tiles := w.tiles.filter (· ≠ e.tile), lines := w.lines.filter (·.tile ≠ e.tile)
                                     waiting := w.waiting.filter (·.1 ≠ e.tile) } else w).filter fun w =>
        !(w.tiles.isEmpty && w.lines.isEmpty && w.waiting.isEmpty) } false

/-! ### When a held thread goes on -/

/-- The group of a thread's tile is RESIDENT (R365); a task or handler outlives its group's end. -/
def residentOk (s : State) (k : Nat) : Bool :=
  match (s.tile (tileOf k)).group with
  | some g => g.resid = .resident
  | none => true

/-- A thread of a kernel can go on: it executes, its group is RESIDENT, and its context runs on its tile (R28, R30, R365). Firmware's threads have no turns: what
firmware does is the events of the device (log 25). -/
def mayTurn (s : State) (k : Nat) : Bool :=
  (s.thr k).running && (s.thr k).role ≠ .firmware && residentOk s k && runsOn s (tileOf k) (s.thr k).ctx

/-- The place of a sync word that a thread of a tile waits on: the own scratchpad's address follows the thread (R63, R322). -/
def synAt (tile : Nat) (ea : Word) : Nat := if windowOf ea.toNat = some .w3 then scratchBase tile + ea.toNat % 2 ^ 20 else ea.toNat

/-- An update reaches the thread that waits on the place: the word can be read there now, with its place on this device and a path to it open (R15, R302). -/
def heard (s : State) (k p n : Nat) : Bool :=
  let tile := tileOf k
  (waitWord s p n).isOk && !elsewhere s p && !noRoute s { tile := tile, ctx := (s.thr k).ctx, allot := some (s.thr k).allot } p .rd

/-- The condition of a `syn.wait` or `ctr.wait` of a thread holds of the word as it now stands at its place. -/
def waitHolds (s : State) (k : Nat) (w : Wait) : Bool :=
  let tile := tileOf k
  match w with
  | .syn ea gen => heard s k (synAt tile ea) 16 && synGen (synRead s (synAt tile ea)) ≠ gen
  | .ctr _ v scope (some p) _ => heard s k p 8 && v.toNat ≤ leNat (placeView s tile p 8 scope)
  | _ => false

/-- The waits of a thread, after a test of the words that they wait on. -/
def testWaits (s : State) (k : Nat) (t : Thread) : Thread :=
  if !mayTurn s k then t
  else if waitHolds s k t.wait then { t with wait := .met }
  else if waitHolds s k t.hwait then { t with hwait := .met } else t

/-- The words that threads wait on are tested after every update (R231, R233). -/
def testAll (s : State) : State := { s with threads := s.threads.map fun kt => (kt.1, testWaits s kt.1 kt.2) }

/-- The turn of a thread that waits on a word looks for it afresh: its address translates again, and a page that has moved away is requested again (R302, R403).
What the thread waits for then, `met` where the condition holds, or the stop of its bundle with the address. -/
def lookAgain (s : State) (k : Nat) (w : Wait) : State × Except (BitVec 6 × Nat × Word) Wait :=
  let ag : Agent := { tile := tileOf k, ctx := (s.thr k).ctx, allot := some (s.thr k).allot }
  match w with
  | .syn ea gen =>
    match synTest s ag ea gen with
    | (s, .error (.trap c sub)) => (s, .error (c, sub, ea))
    | (s, .error .hold) => (s, .ok w)
    | (s, .ok b) => (s, .ok (if b then .met else w))
  | .ctr ea v scope _ _ =>
    match ctrTest s ag ea v scope with
    | (s, .error (.trap c sub)) => (s, .error (c, sub, ea))
    | (s, .error .hold) => (s, .ok (.ctr ea v scope none s.dev.hubNs))
    | (s, .ok (p, b)) => (s, .ok (if b then .met else .ctr ea v scope (some p) s.dev.hubNs))
  | w => (s, .ok w)

/-- A thread that waits on a word out of reach or poisoned traps at its bundle. -/
def trapWait (s : State) (k : Nat) (c : BitVec 6) (sub : Nat) (ea : Word) : State :=
  takeTrap (s.modThr k fun t => { t with wait := .none }) k c ((s.thr k).pc - 16) ea (BitVec.ofNat 64 sub)

/-- A thread leaves the waiting order of semaphore `j` (R234). -/
def leaveSem (s : State) (k j : Nat) (sig : Bool) : State := s.modTile (tileOf k) fun t => { t with semQ := t.semQ.erase (j, k, sig) }

/-- Test what a thread waits for: the state, and whether the wait has ended. -/
def waitEnds (s : State) (k : Nat) (w : Wait) : State × Bool :=
  let tile := tileOf k
  match w with
  | .none => (s, true)
  | .semWait j =>
    let c := getV (s.tile tile).sems 0 j
    if 0 < c && (semQueue s tile j false).head? = some k then (leaveSem (setSem s tile j (c - 1)) k j false, true) else (s, false)
  | .semSig j =>
    let c := getV (s.tile tile).sems 0 j
    if c < semMax && (semQueue s tile j true).head? = some k then (leaveSem (setSem s tile j (c + 1)) k j true, true) else (s, false)
  | .barArr b => if (barOf s tile b).arrived.contains k then (s, false) else (barArrive s k b, true)
  | .barWait b gen => let x := barOf s tile b; (s, decide (x.gen ≠ gen) || !x.arrived.contains k)
  | .gbarArr g =>
    match groupOf s k with
    | none => (s, true)
    | some (kn, rank) => if (gbarOf s kn g).arrived.contains rank then (s, false) else (settleGbar s kn rank g, false)
  | .gbarWait g gen =>
    match groupOf s k with
    | none => (s, true)
    | some (kn, rank) =>
      let x := gbarOf s kn g
      if x.gen ≠ gen || !x.arrived.contains rank then (acquireDevice s tile, true) else (s, false)
  | .met => (acquireDevice s tile, true)
  | .yield n => if n ≤ 1 then (s, true) else (s.modThr k fun t => { t with wait := .yield (n - 1) }, false)
  | .syn _ _ => (s, false)
  | .ctr _ _ _ _ _ => (s, false)
  | .call => (s, false)

end Sys2Proof.Machine
end

