-- ==== Sys2Proof/Machine/Frames.lean ====
section
/-!
DEFINITION. Function pointers (R109), activation frames and the wake of a callee (R132, R134, R152, R153), frame tags (R188), and the loading and
validation of blocks (R107, R189, R192).
-/
namespace Sys2Proof.Machine
open Sys2Proof

/-- Why a transfer or a block fails: cause, `SR.TADDR`, `SR.TINFO`. -/
abbrev Why := BitVec 6 × Word × Nat

/-- No failure: a fetch of a block waits for a walk or for a path to its place (R401, R411, R412). -/
def fetchHeld : Why := (0, 0, 0)
/-- A translation's failure as a transfer's. -/
def whyOf (f : Fail) (a : Word) : Why := if f = notYet then fetchHeld else (f.1, a, f.2)

/-- The leaf of a code address of the kind needed, with the fetch's window rules (R90, R399). -/
def codeLeaf (s : State) (tile ctx : Nat) (a : Word) (need : Need) : State × Except Why (Word × Nat) :=
  match windowOf a.toNat with
  | none => (s, .error (cNO_WINDOW, a, 0))
  | some .w0 =>
    match findLeaf s tile ctx a need with
    | (s, .error f) => (s, .error (whyOf f a))
    | (s, .ok l) => (s, .ok l)
  | some _ => (s, .error (cPAGE_PERM, a, 0))

/-- The checks of R109 on a tagged pointer: its encoding tag, or the cause. -/
def checkPtr (s : State) (tile ctx : Nat) (p : Word) : State × Except Why Bool :=
  if fieldOf p 1 3 ≠ 0 then (s, .error (cBAD_FNPTR, p, 0)) else
  match codeLeaf s tile ctx (p &&& ~~~1#64) (if p.getLsbD 0 then .exG else .exC) with
  | (s, .error w) => (s, .error w)
  | (s, .ok _) => (s, .ok (p.getLsbD 0))

/-! ### Frames (Tables 06-10, 06-11) -/

def tagw (plane : Nat) (done ckind : Bool) (tag : Nat) : Nat :=
  plane * 2 ^ 18 + (if done then 2 ^ 17 else 0) + (if ckind then 2 ^ 16 else 0) + tag

/-- The 128 bytes of a frame. -/
def frameBytes (retptr caller : Word) (tw : Nat) (args : List Word) : List Byte :=
  bytesOf 8 retptr ++ bytesOf 8 caller ++ natLe 8 tw ++ natLe 8 0 ++ args.flatMap (bytesOf 8) ++ List.replicate 32 0

/-- The checks of a frame address (R153). -/
def frameBad (fa base : Word) : Option (BitVec 6) :=
  if fa.toNat % 16 ≠ 0 then some cMISALIGN else if fa.toNat < base.toNat then some cSTACK_LIMIT else none

/-- The `n` bytes at `a` of a frame can be reached by strong accesses at device scope, which wait for what the agent's tile has still to write back (R15,
R64, R152): else the stop and the address. -/
def frameReach (s : State) (ag : Agent) (a : Word) (n : Nat) (need : Need) : State × Except (Stop × Word) Unit :=
  let ag := { ag with dev := true }
  if drainHeld s ag.tile fun _ => true then (s, .error (.hold, a)) else
  match resolve s ag a n 1 need with
  | (s, .error e) => (s, .error (e, a))
  | (s, .ok _) =>
    let z := a + BitVec.ofNat 64 (n - 1)
    match resolve s ag z 1 1 need with
    | (s, .error e) => (s, .error (e, z &&& ~~~0xFFFF#64))
    | (s, .ok _) => (s, .ok ())

/-- Write a frame that can be reached, and make it visible at device scope before the wake (R152). -/
def writeFrame (s : State) (ag : Agent) (fa : Word) (bs : List Byte) : State :=
  (writeRange (releaseDevice s ag.tile) ag fa bs).1

/-- Read 8 bytes of a frame with acquire at device scope: the value, or what stops the read. -/
def readFrame (s : State) (ag : Agent) (a : Word) : State × Except Stop Word :=
  match resolve s { ag with dev := true } a 8 8 .rd with
  | (s, .error e) => (s, .error e)
  | (s, .ok k) =>
    if errReply s k then (s, .error (.trap cLINK_ERR 0))
    else if poisoned s k 8 then (s, .error (.trap cPOISON 0))
    else let r := loadPlace s ag.tile k 8 1 2; (r.1, .ok (BitVec.ofNat 64 (leNat r.2)))

/-- RETV and DONE of a frame can be written (R154, R159): else what stops the return, and where. -/
def returnReach (s : State) (ag : Agent) (fa : Word) : State × Except (Stop × Word) Unit :=
  match frameReach s ag (fa + 96) 8 .wr with
  | (s, .error e) => (s, .error e)
  | (s, .ok ()) =>
    match frameReach s ag (fa + 16) 8 .rw with
    | (s, .error e) => (s, .error e)
    | (s, .ok ()) => match readFrame s ag (fa + 16) with
      | (s, .error e) => (s, .error (e, fa + 16))
      | (s, .ok _) => (s, .ok ())

/-- Write RETV, then set DONE with release at device scope, of a frame that can be reached (R154, R159). -/
def finishFrame (s : State) (ag : Agent) (fa v : Word) : State :=
  let s := (writeRange (releaseDevice s ag.tile) ag (fa + 96) (bytesOf 8 v)).1
  match readFrame s ag (fa + 16) with
  | (s, .ok t) => (writeRange s ag (fa + 16) (bytesOf 8 (t ||| 0x20000#64))).1
  | (s, .error _) => s

/-- The return value, once DONE of the frame is set. -/
def frameDone (s : State) (ag : Agent) (fa : Word) : State × Option Word :=
  match readFrame s ag (fa + 16) with
  | (s, .ok t) =>
    if !t.getLsbD 17 then (s, none) else
    match readFrame (acquireDevice s ag.tile) ag (fa + 96) with
    | (s, .ok v) => (s, some v)
    | (s, .error _) => (s, none)
  | (s, .error _) => (s, none)

/-! ### Tags (R188) -/

/-- The next tag after `t` that is neither 0 nor live. -/
def tagFrom (live : List Nat) : Nat → Nat → Nat
  | 0, t => t
  | n + 1, t => if t = 0 || live.contains t then tagFrom live n ((t + 1) % 65536) else t

/-- The tag a wake would take; none where it would lie 32,768 or more ahead of the oldest live one. `tags` is oldest first. -/
def nextTag (c : Ctx) : Option Nat :=
  let t := tagFrom c.tags (c.tags.length + 2) ((c.lastTag + 1) % 65536)
  match c.tags with
  | [] => some t
  | o :: _ => if (t + 65536 - o) % 65536 < 32768 then some t else none

/-! ### Blocks (R103 to R107, R192) -/

def bNins (h : IWord) : Nat := fieldOf h 4 7
def bNexit (h : IWord) : Nat := fieldOf h 11 4
def bStmask (h : IWord) : Nat := fieldOf h 15 32
def bNwr (h : IWord) : Nat := fieldOf h 47 5
/-- log2 of an instance's timeout: the block's `TIMEOUT`, else the kernel header's, else 20; 1 to 5 act as 6 and values above 40 as 40 (R103, R124, R203). -/
def bTimeout (h : IWord) (dflt : Nat) : Nat :=
  let n := if fieldOf h 56 16 ≠ 0 then fieldOf h 56 16 else if dflt ≠ 0 then dflt else 20
  min 40 (max 6 n)
def bNrd (h : IWord) : Nat := fieldOf h 52 4
def bLocal (h : IWord) : Nat := 16 * fieldOf h 72 16
/-- Read entries: frame register, target index, slot (Table 05-10). -/
def readEntries (h0 h1 : IWord) : List (Nat × Nat × Nat) :=
  (List.range (bNrd h0)).map fun j => (fieldOf h1 (4 + 15 * j) 6, fieldOf h1 (10 + 15 * j) 7, fieldOf h1 (17 + 15 * j) 2)

/-- The set of `LSID`s of the block's instructions that carry one. -/
def lsidMask (ws : List IWord) : Nat :=
  (List.range 32).foldl (fun m i => if ws.any (fun w => carriesLsid (wOpc w) && wLsid w = i) then m + 2 ^ i else m) 0

/-- Validation of a block's words (Table 09-1); none where it passes. Of several failed rows the classes come first, then the header's counts and targets, then
`ILLEGAL_OPC`, then the rest (R192; log 135). -/
def badBlock (entry : Word) (h0 h1 : IWord) (ws : List IWord) : Option Why :=
  let n := bNins h0
  let be := some (cBLOCK_ENTRY, entry, 0)
  let cls := fun (w : IWord) (want : Nat) => if fieldOf w 0 4 = want then none
    else if fieldOf w 0 4 = 15 then some (cPOOL_EXEC, (0 : Word), 0) else some (cILLEGAL_CLS, (0 : Word), 0)
  match (cls h1 11 :: ws.map fun w => cls w 12).findSome? id with
  | some w => some w
  | none =>
    let ents := readEntries h0 h1
    if 8 ≤ bNexit h0 || 9 ≤ bNrd h0 || ents.any (fun e => n < e.2.1) then be
    else if ws.any fun w => wPmode w = 3 || (wTargets w).any fun t => n < t.2 then be
    else if ((ws.flatMap wTargets) ++ ents.map fun e => (e.2.2, e.2.1)).any fun t => t.1 = 3 && wPmode (ws.getD t.2 0) = 0 then be
    else if ws.any (fun w => match decodeG w with | .error .illegalOpc => true | _ => false) then some (cILLEGAL_OPC, 0, 0)
    else if ws.any (fun w => match decodeG w with | .error _ => true | .ok _ => false) then be
    else if (ws.countP fun w => wOpc w = 0x86) ≠ bNexit h0 + 1 || (ws.countP fun w => wOpc w = 0x8B) ≠ bNwr h0 then be
    else if lsidMask ws ≠ bStmask h0 then be
    else if !(ws.map fun w => fieldOf w 96 7).Nodup || !((ws.filterMap binding).map (·.2)).Nodup then be
    else none

/-- Fetch one word of a G page (R107, R146). -/
def fetchG (s : State) (tile ctx : Nat) (a : Word) : State × Except Why IWord :=
  match codeLeaf s tile ctx a .exG with
  | (s, .error w) => (s, .error w)
  | (s, .ok l) =>
    let p := leafPlace s l.1 l.2 a.toNat
    if errReply s p && (icacheLine s tile p).isNone then (s, .error (cLINK_ERR, a, 0))
    else if fetchWaits s tile p then (s, .error fetchHeld)
    else if poisoned s p 16 && (icacheLine s tile p).isNone then (s, .error (cPOISON, a, 0))
    else let r := codeBytes s tile p 16; (r.1, .ok (BitVec.ofNat 128 (leNat r.2)))

def fetchWords (s : State) (tile ctx : Nat) (a : Word) : Nat → State × Except Why (List IWord)
  | 0 => (s, .ok [])
  | n + 1 =>
    match fetchG s tile ctx a with
    | (s, .error w) => (s, .error w)
    | (s, .ok w) => match fetchWords s tile ctx (a + 16) n with
      | (s, .error x) => (s, .error x)
      | (s, .ok r) => (s, .ok (w :: r))

/-- Fetch and validate the block at an address (R107, R189, R192). An address that is no multiple of 16 is no block's entry. -/
def loadBlock (s : State) (tile ctx : Nat) (entry : Word) : State × Except Why Block :=
  if entry.toNat % 16 ≠ 0 then (s, .error (cBLOCK_ENTRY, entry, 0)) else
  match fetchG s tile ctx entry with
  | (s, .error w) => (s, .error w)
  | (s, .ok h0) =>
    if fieldOf h0 0 4 ≠ 10 then (s, .error (cBLOCK_ENTRY, entry, 0)) else
    match fetchWords s tile ctx (entry + 16) (bNins h0 + 2) with
    | (s, .error w) => (s, .error w)
    | (s, .ok []) => (s, .error (cBLOCK_ENTRY, entry, 0))
    | (s, .ok (h1 :: ws)) =>
      match badBlock entry h0 h1 ws with
      | some w => (s, .error w)
      | none => (s, .ok { entry := entry, ctx := ctx, hdr0 := h0, hdr1 := h1, words := ws })

/-! ### Planes (R134, R189) -/

/-- The planes of the group on a tile: 0 to PLANES − 1. -/
def groupPlanes (s : State) (tile : Nat) : List Nat :=
  match groupKernel s tile with
  | some kn => match s.kern? kn with | some k => List.range (hdrPlanes k.hdr) | none => []
  | none => []

/-- Ranks of the plane slots in the frame-table entry of a die's current slot, rank 0 first (Table 17-4); an entry whose ranks are no
permutation acts as 0x00E4. -/
def frameRanks (s : State) (die : Nat) : List Nat × Bool :=
  let e := getV (getV s.dev.frame (Vector.replicate 64 0x00E4) die) 0x00E4 (getV s.dev.slot 0 die)
  let r := [fieldOf e 0 2, fieldOf e 2 2, fieldOf e 4 2, fieldOf e 6 2]
  if r.Nodup then (r, e.getLsbD 15) else ([0, 1, 2, 3], false)

/-- The current slot lets a plane fire: every plane where STRICT is 0, else RANK0's alone (R368). -/
def planeMayFire (s : State) (die plane : Nat) : Bool :=
  let f := frameRanks s die
  !f.2 || f.1.head? = some plane

/-- A plane of the group that already holds the block at `entry`. -/
def planeHolding (s : State) (tile ctx : Nat) (entry : Word) : Option Nat :=
  (groupPlanes s tile).find? fun p => match getV (s.tile tile).planes none p with
    | some b => b.entry = entry && b.ctx = ctx
    | none => false

/-- The allowed planes among the group's; a mask of 0 allows every one (R122). -/
def allowedPlanes (s : State) (tile : Nat) (mask : BitVec 4) : List Nat :=
  (groupPlanes s tile).filter fun p => mask = 0 || mask.getLsbD p

/-- Instances that run in a plane of a tile. -/
def planeInsts (s : State) (tile plane : Nat) : List (Nat × Inst) :=
  s.insts.filter fun ki => ki.2.plane = plane && (match s.act? ki.2.act with | some a => a.tile = tile | none => false)

/-- A plane holds a live activation: one that was woken to it or runs an instance in it (R134). -/
def planeLive (s : State) (tile plane : Nat) : Bool :=
  !(planeInsts s tile plane).isEmpty || s.acts.any fun ka => ka.2.tile = tile && ka.2.plane = plane && ka.2.stat ≠ .ended

/-- The plane a woken activation goes to (R134). -/
def wakePlane (s : State) (tile ctx : Nat) (entry : Word) (mask : BitVec 4) : Option Nat :=
  match planeHolding s tile ctx entry with
  | some p => some p
  | none => (allowedPlanes s tile mask).find? fun p => !planeLive s tile p

/-- The rank of a kernel's group on a tile, or of the one that it had there (R357, R362). -/
def rankOn (s : State) (kn : Nat) (k : Kernel) (tile : Nat) : Nat :=
  match (s.tile tile).group with
  | some g => if g.kernel = kn then g.rank else k.tiles.idxOf tile
  | none => k.tiles.idxOf tile

/-- The tile of a callee, the launch whose group must start it there, and its allowed planes, by the kernel's placement entries (R122, R134, R357). -/
def calleePlace (s : State) (kn tile : Nat) (p : Word) : Nat × Option Nat × BitVec 4 :=
  match s.kern? kn with
  | none => (tile, none, 0)
  | some k =>
    match k.places.find? (·.fn = p) with
    | none => (tile, none, 0)
    | some e =>
      if e.mode = 0 then (tile, none, e.planes) else
      (k.tiles.getD ((((rankOn s kn k tile : Nat) : Int) + e.delta) % (k.groups : Int)).toNat tile, some kn, e.planes)

/-- Start an activation: its tag is taken, its frame registers hold ARGS (R187, R188). -/
def newAct (s : State) (ctx kn allot tile plane tag : Nat) (mask : BitVec 4) (frame entry base : Word) (args : List Word) (root : Bool) :
    Nat × State :=
  let (id, s) := s.fresh
  let s := s.modCtx ctx fun c => { c with lastTag := tag, tags := c.tags ++ [tag] }
  (id, s.setAct id
    { stat := .live, ctx := ctx, kernel := kn, allot := allot, tile := tile, planes := mask, tag := BitVec.ofNat 16 tag
      frame := frame, f := Vector.ofFn fun i => args.getD i.val 0, next := entry, seq := 0, base := base, root := root
      insts := [], fault := none, tinfo := 0, held := none, plane := plane })

/-- The check of a callee's entry block at its wake: a plane that holds it has validated it (R189, R192). -/
def wakeCheck (s : State) (tile ctx : Nat) (entry : Word) : State × Option Why :=
  if (planeHolding s tile ctx entry).isSome then (s, none) else
  match loadBlock s tile ctx entry with
  | (s, .error w) => (s, some w)
  | (s, .ok _) => (s, none)

/-- What the wake of a callee comes to: it waits for a plane, a tag, a group or a way to the frame; a check fails; the frame cannot be written; or it goes on in
the given state. -/
inductive Woken where
  | wait (s : State)
  | bad (s : State) (w : Why)
  | stop (s : State) (st : Stop) (a : Word)
  | ok (s : State)
deriving DecidableEq, Repr

/-- The tile holds a live, resident group of the context, and of the launch that a placement entry names, which may start the callee (R318, R322, R357). -/
def takesCallee (s : State) (tile cn : Nat) (launch : Option Nat) : Bool :=
  match (s.tile tile).group with
  | some g => launch.all (· = g.kernel) && (match s.kern? g.kernel with | some k => k.ctx = cn | none => false) && g.stat = .live && g.resid = .resident
  | none => false

/-- Build the frame and wake the callee (R132, R134, R152, R158). A C callee enters the task queue as a call task (R345): its record
holds the entry and the stack base. A G callee waits while the group that its placement names is not there to run it. -/
def wakeCallee (s : State) (ag : Agent) (kn allot : Nat) (p fa base retptr caller : Word) (ckind : Bool) (args : List Word) : Woken :=
  let t := p &&& ~~~1#64
  let pl := calleePlace s kn ag.tile p
  match frameReach s ag fa 128 .wr with
  | (s, .error (.hold, _)) => .wait s
  | (s, .error (st, a)) => .stop s st a
  | (s, .ok ()) =>
    if p.getLsbD 0 then
      if !takesCallee s pl.1 ag.ctx pl.2.1 then .wait s else
      match wakeCheck s pl.1 ag.ctx t with
      | (s, some w) => if w = fetchHeld then .wait s else .bad s w
      | (s, none) =>
        match wakePlane s pl.1 ag.ctx t pl.2.2, nextTag (s.ctx ag.ctx) with
        | some plane, some tag =>
          let s := writeFrame s ag fa (frameBytes retptr caller (tagw plane false ckind tag) args)
          .ok (newAct s ag.ctx kn allot pl.1 plane tag pl.2.2 fa t base args false).2
        | _, _ => .wait s
    else
      let s := writeFrame s ag fa (frameBytes retptr caller (tagw 0 false ckind 0) args)
      .ok { s with tasks := s.tasks ++
        [{ id := 0, ctx := ag.ctx, allot := allot, record := (0#128) ++ base ++ p, call := some (fa, kn), tile := pl.1, order := 0
           kern := pl.2.1.getD 0 }] }

end Sys2Proof.Machine
end

