-- ==== Sys2Proof/Machine/Scalar.lean ====
section
/-!
DEFINITION. The integer opcodes 0x00 to 0x1E (R135 to R142): one result function each, used on registers, on lanes (R165) and on tokens (R155).
-/
namespace Sys2Proof.Machine
open Sys2Proof
open Host (Outcome)

/-- Sources and modifiers of an integer opcode: the effective format, raw sources as 64-bit (or lane) patterns, and `VAR`, `SGN`, `SAT`. -/
structure IArgs where
  k   : Nat
  a   : Word
  b   : Word
  c   : Word
  var : Nat
  sgn : Bool
  sat : Bool
deriving DecidableEq, Repr

namespace IArgs
/-- Patterns of `n` bits. -/
def pa (x : IArgs) : Nat := x.a.toNat % 2 ^ fmtBits x.k
def pb (x : IArgs) : Nat := x.b.toNat % 2 ^ fmtBits x.k
def pc (x : IArgs) : Nat := x.c.toNat % 2 ^ fmtBits x.k
/-- Value result of two sources read under a kind (R135, R136). -/
def val2 (x : IArgs) (signed : Bool) (f : Int → Int → Int) : Res :=
  let a := intVal x.k signed x.a.toNat
  let b := intVal x.k signed x.b.toNat
  let r := intResult x.k x.sat (f a.1 b.1)
  { r with warn := r.warn ||| a.2 ||| b.2 }
def val1 (x : IArgs) (signed : Bool) (f : Int → Int) : Res :=
  let a := intVal x.k signed x.a.toNat
  let r := intResult x.k x.sat (f a.1)
  { r with warn := r.warn ||| a.2 }
/-- Shift count `pb[log2 n − 1 : 0]`. -/
def count (x : IArgs) : Nat := x.pb % fmtBits x.k
end IArgs

/-- The format's own reading kind. -/
def ownKind (k : Nat) : Bool := isIFmt k

def opAdd (x : IArgs) : Res := x.val2 (ownKind x.k) (· + ·)
def opSub (x : IArgs) : Res := x.val2 (ownKind x.k) (· - ·)
def opMul (x : IArgs) : Res := x.val2 (ownKind x.k) (· * ·)
/-- `mulh`: ⌊a × b ÷ 2^n⌋, reading kinds by `VAR` (Table 07-1). -/
def opMulh (x : IArgs) : Res :=
  let a := intVal x.k (x.var ≠ 1) x.a.toNat
  let b := intVal x.k (x.var = 0) x.b.toNat
  { pat := lowBits (fmtBits x.k) (a.1 * b.1 / (2 ^ fmtBits x.k : Int)), warn := a.2 ||| b.2 }
/-- `div` (R138): all ones for a zero divisor, else the quotient toward zero. -/
def opDiv (x : IArgs) : Res :=
  let a := intVal x.k (!x.sgn) x.a.toNat
  let b := intVal x.k (!x.sgn) x.b.toNat
  if b.1 = 0 then { pat := 2 ^ fmtBits x.k - 1, warn := a.2 ||| b.2 } else x.val2 (!x.sgn) Int.tdiv
/-- `rem` (R138): the dividend for a zero divisor. -/
def opRem (x : IArgs) : Res := x.val2 (!x.sgn) fun a b => if b = 0 then a else a - b * Int.tdiv a b
def opMadd (x : IArgs) : Res :=
  let c := intVal x.k (ownKind x.k) x.c.toNat
  let r := x.val2 (ownKind x.k) fun a b => a * b + c.1
  { r with warn := r.warn ||| c.2 }
/-- `and`, `mov` and the other results that are bit patterns of their sources read no t2 value and set no `FMT` warning (R35, R135; log 127). -/
def opAnd (x : IArgs) : Res := { pat := x.pa &&& x.pb }
def opOr (x : IArgs) : Res := { pat := x.pa ||| x.pb }
def opXor (x : IArgs) : Res := { pat := x.pa ^^^ x.pb }
def opAndn (x : IArgs) : Res := { pat := (x.a &&& ~~~x.b).toNat % 2 ^ fmtBits x.k }
def opShl (x : IArgs) : Res := { pat := x.pa * 2 ^ x.count % 2 ^ fmtBits x.k }
/-- `shr`: `.l` fills zeros, `.a` copies the top bit, also of a b1 or t2 pattern, although SGN has no effect on how those are read (R135, Table 07-1; log 119). -/
def opShr (x : IArgs) : Res :=
  { pat := if x.sgn then lowBits (fmtBits x.k) (sextInt (fmtBits x.k) x.pa / (2 ^ x.count : Int)) else x.pa / 2 ^ x.count }
def opRot (x : IArgs) : Res :=
  { pat := (x.pa * 2 ^ x.count + x.pa / 2 ^ (fmtBits x.k - x.count)) % 2 ^ fmtBits x.k }
def opMin (x : IArgs) : Res := x.val2 (!x.sgn) min
def opMax (x : IArgs) : Res := x.val2 (!x.sgn) max

/-- Leading zeros of an `n`-bit pattern. -/
def leadZeros : Nat → Nat → Nat
  | 0, _ => 0
  | n + 1, p => if p.testBit n then 0 else 1 + leadZeros n p
/-- Ones among the low `n` bits. -/
def onesOf : Nat → Nat → Nat
  | 0, _ => 0
  | n + 1, p => (if p.testBit n then 1 else 0) + onesOf n p
/-- Bit `i` of the result is bit `n − 1 − i` of the source. -/
def revBits (n p : Nat) : Nat := (List.range n).foldl (fun acc i => if p.testBit (n - 1 - i) then acc + 2 ^ i else acc) 0

def opClz (x : IArgs) : Res := intResult x.k x.sat (leadZeros (fmtBits x.k) x.pa)
def opPopc (x : IArgs) : Res := intResult x.k x.sat (onesOf (fmtBits x.k) x.pa)
def opBrev (x : IArgs) : Res := { pat := revBits (fmtBits x.k) x.pa }

/-- Position and length of `bfx` and `bfi` from the control word (R140). -/
def fieldSel (n : Nat) (b : Word) : Nat × Nat :=
  let pos := fieldOf b 0 7
  let len := fieldOf b 8 7
  (pos, if n ≤ pos || len = 0 then 0 else min len (n - pos))
def opBfx (x : IArgs) : Res :=
  let pm := fieldSel (fmtBits x.k) x.b
  let v := x.pa / 2 ^ pm.1 % 2 ^ pm.2
  intResult x.k x.sat (if pm.2 = 0 then 0 else if isIFmt x.k then sextInt pm.2 v else (v : Int))
def opBfi (x : IArgs) : Res :=
  let pm := fieldSel (fmtBits x.k) x.b
  if pm.2 = 0 then { pat := x.pc } else
  { pat := x.pc % 2 ^ pm.1 + (x.pa % 2 ^ pm.2) * 2 ^ pm.1 + x.pc / 2 ^ (pm.1 + pm.2) * 2 ^ (pm.1 + pm.2) }
def opSext (x : IArgs) : Res :=
  let k := min (fieldOf x.b 0 7) (fmtBits x.k)
  intResult x.k x.sat (if k = 0 then 0 else sextInt k x.pa)
def opZext (x : IArgs) : Res :=
  let k := min (fieldOf x.b 0 7) (fmtBits x.k)
  intResult x.k x.sat (x.pa % 2 ^ k : Nat)
/-- `mov` (log 127). -/
def opMov (x : IArgs) : Res := { pat := x.pa }
def opAbs (x : IArgs) : Res := x.val1 (ownKind x.k) fun a => (a.natAbs : Int)
/-- `cmp` and `vcmp` on integers (R139). -/
def opCmp (x : IArgs) : Bool × BitVec 16 :=
  let a := intVal x.k (!x.sgn) x.a.toNat
  let b := intVal x.k (!x.sgn) x.b.toNat
  (condInt x.var a.1 b.1, a.2 ||| b.2)

/-! ### The three forms -/

/-- Result of an integer opcode in a register (R136). -/
def intReg (k : Nat) (r : Res) : Word := BitVec.ofNat 64 (extendTo 64 k r.pat)

/-- Arguments of element `i` of a class V bundle (R165). -/
def laneArgs (e : CEnv) (k i : Nat) : IArgs :=
  { k := k, a := BitVec.ofNat 64 (laneOf k e.va i), b := BitVec.ofNat 64 (laneOf k e.vb i), c := BitVec.ofNat 64 (laneOf k e.vc i)
    var := e.f.var, sgn := e.f.sgn, sat := e.f.sat }

/-- A C bundle of an integer opcode, in class R, I or V. -/
def intC (opc : Nat) (op : IArgs → Res) (f : CForm) (s : State) : State :=
  runC opc f s fun e s =>
    let k := intFmt f.fmt
    if f.cls = 4 then lanewise e s k false fun i => op (laneArgs e k i)
    else
      let r := op { k := k, a := e.a, b := e.b, c := e.c, var := f.var, sgn := f.sgn, sat := f.sat }
      raiseC e (addWarn s e.k r.warn) r.fl fun s => retX e s (intReg k r)

/-- Warnings of the fallbacks that a graph word of an integer opcode reaches (R106, Table 05-7); SGNI under b1 and t2 too (log 132). -/
def intWarnG (opc : Nat) (f : GForm) : BitVec 16 :=
  (if (varMax opc).isNone && f.var ≠ 0 then wRNDI else 0) ||| (if f.sgn && !hasSgn opc then wSGNI else 0) |||
  (if !isIntFmt f.fmt then wFMTK else 0)

/-- A graph word of an integer opcode (R155): one token with the value that the C form would write. -/
def intG (opc : Nat) (op : IArgs → Res) (f : GForm) (s : State) : State :=
  runG opc f s fun e s =>
    let k := intFmt f.fmt
    let r := op { k := k, a := e.a, b := e.b, c := e.c, var := f.var, sgn := f.sgn, sat := f.sat }
    raiseG e s r.fl (r.warn ||| intWarnG opc f) fun s => .send s (intReg k r)

def intForm (opc : Nat) (op : IArgs → Res) (f : Form) (s : State) : Outcome State Fault Refusal :=
  match f with
  | .c f => .next (intC opc op f s)
  | .g f => .next (intG opc op f s)

/-! ### The meanings -/

/-- `nop` (R142, R155). -/
def execNop (f : Form) (s : State) : Outcome State Fault Refusal :=
  match f with
  | .c f => .next (runC 0x00 f s fun _ s => .ok s false)
  | .g f => .next (runG 0x00 f s fun _ s => .quiet s)
def execAdd (f : Form) (s : State) : Outcome State Fault Refusal := intForm 0x01 opAdd f s
def execSub (f : Form) (s : State) : Outcome State Fault Refusal := intForm 0x02 opSub f s
def execMul (f : Form) (s : State) : Outcome State Fault Refusal := intForm 0x03 opMul f s
def execMulh (f : Form) (s : State) : Outcome State Fault Refusal := intForm 0x04 opMulh f s
def execDiv (f : Form) (s : State) : Outcome State Fault Refusal := intForm 0x05 opDiv f s
def execRem (f : Form) (s : State) : Outcome State Fault Refusal := intForm 0x06 opRem f s
def execMadd (f : Form) (s : State) : Outcome State Fault Refusal := intForm 0x07 opMadd f s
def execAnd (f : Form) (s : State) : Outcome State Fault Refusal := intForm 0x08 opAnd f s
def execOr (f : Form) (s : State) : Outcome State Fault Refusal := intForm 0x09 opOr f s
def execXor (f : Form) (s : State) : Outcome State Fault Refusal := intForm 0x0A opXor f s
def execAndn (f : Form) (s : State) : Outcome State Fault Refusal := intForm 0x0B opAndn f s
def execShl (f : Form) (s : State) : Outcome State Fault Refusal := intForm 0x0C opShl f s
def execShr (f : Form) (s : State) : Outcome State Fault Refusal := intForm 0x0D opShr f s
def execRot (f : Form) (s : State) : Outcome State Fault Refusal := intForm 0x0E opRot f s
def execMin (f : Form) (s : State) : Outcome State Fault Refusal := intForm 0x0F opMin f s
def execMax (f : Form) (s : State) : Outcome State Fault Refusal := intForm 0x10 opMax f s
def execClz (f : Form) (s : State) : Outcome State Fault Refusal := intForm 0x13 opClz f s
def execPopc (f : Form) (s : State) : Outcome State Fault Refusal := intForm 0x14 opPopc f s
def execBrev (f : Form) (s : State) : Outcome State Fault Refusal := intForm 0x15 opBrev f s
def execBfx (f : Form) (s : State) : Outcome State Fault Refusal := intForm 0x16 opBfx f s
def execBfi (f : Form) (s : State) : Outcome State Fault Refusal := intForm 0x17 opBfi f s
def execSext (f : Form) (s : State) : Outcome State Fault Refusal := intForm 0x18 opSext f s
def execZext (f : Form) (s : State) : Outcome State Fault Refusal := intForm 0x19 opZext f s
def execMov (f : Form) (s : State) : Outcome State Fault Refusal := intForm 0x1A opMov f s
def execAbs (f : Form) (s : State) : Outcome State Fault Refusal := intForm 0x1E opAbs f s

/-- `cmp` (R139): a predicate, a lane mask in class V, or a token 1 or 0 in a block. -/
def execCmp (f : Form) (s : State) : Outcome State Fault Refusal :=
  match f with
  | .c f => .next <| runC 0x11 f s fun e s =>
    let k := intFmt f.fmt
    if f.cls = 4 then laneMaskRes e s k fun i => let r := opCmp (laneArgs e k i); (r.1, 0, r.2)
    else
      let r := opCmp { k := k, a := e.a, b := e.b, c := 0, var := f.var, sgn := f.sgn, sat := f.sat }
      .ok ((addWarn s e.k r.2).modThr e.k fun t => t.pw f.d.toNat r.1) false
  | .g f => .next <| runG 0x11 f s fun e s =>
    let r := opCmp { k := intFmt f.fmt, a := e.a, b := e.b, c := 0, var := f.var, sgn := f.sgn, sat := f.sat }
    raiseG e s 0 (r.2 ||| intWarnG 0x11 f) fun s => .send s (if r.1 then 1 else 0)

/-- `sel` (R139): the selector is predicate `C`, lane mask `C` in class V, or bit 0 of slot C in a block. A t2 source is a bit pattern here (log 127). -/
def execSel (f : Form) (s : State) : Outcome State Fault Refusal :=
  match f with
  | .c f => .next <| runC 0x12 f s fun e s =>
    let k := intFmt f.fmt
    if f.cls = 4 then
      let m := (s.thr e.k).mr (f.c.toNat % 8)
      lanewise e s k false fun i => { pat := elemOf k (if active m i then e.va else e.vb) i }
    else
      let v := if (s.thr e.k).pr (f.c.toNat % 8) then e.a else e.b
      retX e s (intReg k { pat := v.toNat % 2 ^ fmtBits k })
  | .g f => .next <| runG 0x12 f s fun e s =>
    let k := intFmt f.fmt
    raiseG e s 0 (intWarnG 0x12 f) fun s =>
      .send s (intReg k { pat := (if e.c.getLsbD 0 then e.a else e.b).toNat % 2 ^ fmtBits k })

/-- `li` (R141, R155): the value `imm44()`, in a block `sext(IMM, 48)`. -/
def execLi (f : Form) (s : State) : Outcome State Fault Refusal :=
  match f with
  | .c f => .next <| runC 0x1B f s fun e s =>
    let k := intFmt f.fmt
    let r := intResult k f.sat f.simm.toInt
    raiseC e s r.fl fun s => retX e s (intReg k r)
  | .g f => .next <| runG 0x1B f s fun e s =>
    let k := intFmt f.fmt
    let r := intResult k f.sat f.imm48.toInt
    raiseG e s r.fl (if isIntFmt f.fmt then 0 else wFMTK) fun s => .send s (intReg k r)

/-- `lih` (R141): `cat(IMM[19:0], D[43:0])`; in a block the low part is slot A. There its reserved bits IMM[47:20] set no
RSVD (log 120). -/
def execLih (f : Form) (s : State) : Outcome State Fault Refusal :=
  match f with
  | .c f => .next <| runC 0x1C f s fun e s =>
    retX e s ((f.imm.extractLsb' 0 20) ++ (((s.thr e.k).xr f.d.toNat).extractLsb' 0 44))
  | .g f => .next <| runG 0x1C f s fun e s =>
    raiseG e s 0 (if f.fmt = 6 || f.fmt = 7 then 0 else wFMTK) fun s =>
      .send s ((f.imm.extractLsb' 0 20) ++ (e.a.extractLsb' 0 44))

/-- `adr` (R141): pc + `imm44()`; in a block the word's own address + `sext(IMM, 48)`. -/
def execAdr (f : Form) (s : State) : Outcome State Fault Refusal :=
  match f with
  | .c f => .next <| runC 0x1D f s fun e s => retX e s (e.pc + f.simm)
  | .g f => .next <| runG 0x1D f s fun e s =>
    raiseG e s 0 (if f.fmt = 6 || f.fmt = 7 then 0 else wFMTK) fun s => .send s (e.pc + f.imm48)

end Sys2Proof.Machine
end

