-- ==== Sys2Proof/Machine/Float.lean ====
section
/-!
DEFINITION. The float opcodes 0x20 to 0x2C (R166 to R170, R186): one result function each, on registers, lanes and tokens.
-/
namespace Sys2Proof.Machine
open Sys2Proof
open Host (Outcome)

/-- Sources and modifiers of a float opcode: effective format, patterns, effective rounding code, `FTZ`, `SAT`, `VAR`, and for `fcvt` the
source format and `IMM[5]`. -/
structure FArgs where
  k   : Nat
  a   : Nat
  b   : Nat
  c   : Nat
  rm  : Nat
  ftz : Bool
  sat : Bool
  var : Nat
  src : Nat
  sc  : Bool
deriving DecidableEq, Repr

/-- A subnormal value of an IEEE format. -/
def isSub (k : Nat) : Num → Bool
  | .fin _ m e => m ≠ 0 && (Nat.log2 m : Int) + e < binEmin k
  | _ => false

/-- Operand value; with `.ftz` a subnormal reads as zero of its sign (R37). -/
def operand (k : Nat) (ftz : Bool) (p : Nat) : Num :=
  let v := binValue k p
  if ftz && isSub k v then .fin v.neg? 0 0 else v

namespace FArgs
def va (x : FArgs) : Num := operand x.k x.ftz x.a
def vb (x : FArgs) : Num := operand x.k x.ftz x.b
def vc (x : FArgs) : Num := operand x.k x.ftz x.c
/-- Round an arithmetic result once; `nv` marks a signalling operand or an invalid operation. -/
def fin (x : FArgs) (v : Num) (fl : BitVec 13) (snan : Bool) : Res :=
  (roundBin x.k x.rm false x.ftz v).raise (fl ||| if snan then flNV else 0)
end FArgs

def opFadd (x : FArgs) : Res := let r := numAdd x.rm x.va x.vb; x.fin r.1 r.2 (x.va.isSnan || x.vb.isSnan)
def opFsub (x : FArgs) : Res := let r := numAdd x.rm x.va x.vb.negate; x.fin r.1 r.2 (x.va.isSnan || x.vb.isSnan)
def opFmul (x : FArgs) : Res := let r := numMul x.va x.vb; x.fin r.1 r.2 (x.va.isSnan || x.vb.isSnan)
def opFma (x : FArgs) : Res :=
  let p := numMul x.va x.vb
  let r := numAdd x.rm p.1 x.vc
  x.fin r.1 (p.2 ||| r.2) (x.va.isSnan || x.vb.isSnan || x.vc.isSnan)
def opFdiv (x : FArgs) : Res := let r := numDiv x.va x.vb; x.fin r.1 r.2 (x.va.isSnan || x.vb.isSnan)
def opFsqrt (x : FArgs) : Res := let r := numSqrt x.va; x.fin r.1 r.2 x.va.isSnan

/-- `a` lies below `b`, −0 below +0 (R168). -/
def numBelow (a b : Num) : Bool :=
  match numCmp a b with
  | some .lt => true
  | some .eq => a.neg? && !b.neg?
  | _ => false
/-- `fmin` and `fmax` (R168): `lo` chooses the smaller. -/
def minMax (x : FArgs) (lo : Bool) : Res :=
  let a := x.va
  let b := x.vb
  let v := if a.isNan then (if b.isNan then .nan false else b) else if b.isNan then a
    else if numBelow a b == lo then a else b
  x.fin v 0 (a.isSnan || b.isSnan)
def opFmin (x : FArgs) : Res := minMax x true
def opFmax (x : FArgs) : Res := minMax x false

/-- `fsgn` (Table 08-1): sign cleared, inverted, or taken from b; no flag. -/
def opFsgn (x : FArgs) : Res :=
  let sb := signBit x.k
  let mag := x.a % sb
  let an := x.a / sb % 2
  { pat := match x.var with
    | 0 => mag
    | 1 => mag + (1 - an) * sb
    | _ => mag + x.b / sb % 2 * sb }

/-- `fcls` (R169): one set bit. -/
def opFcls (x : FArgs) : Res :=
  let v := binValue x.k x.a
  let n := match v with
    | .inf neg => if neg then 0 else 7
    | .nan sig => if sig then 8 else 9
    | .fin neg m _ =>
      if m = 0 then (if neg then 3 else 4)
      else if isSub x.k v then (if neg then 2 else 5) else (if neg then 1 else 6)
  { pat := 2 ^ n }

/-- `frnd` (Table 08-1): an integral value in the format; `NX` if it changed. -/
def opFrnd (x : FArgs) : Res :=
  match x.va with
  | .nan sig => x.fin (.nan false) 0 sig
  | .fin neg m e =>
    let r := roundShift x.rm neg m (-e)
    if 0 ≤ e then x.fin (.fin neg m e) 0 false else x.fin (.fin neg r.1 0) (if r.2 then flNX else 0) false
  | v => x.fin v 0 false

def opFcmp (x : FArgs) : Bool × BitVec 13 := condNum x.var x.va x.vb

/-! ### Conversion (R170) -/

/-- The source value of `fcvt`: a scaled source decodes with its own sc8 in bits [31:24]; `.ftz` flushes an IEEE subnormal. -/
def cvtValue (x : FArgs) : Num × BitVec 16 :=
  if x.sc && scalable x.src then (scaledValue x.src x.a (x.a / 2 ^ 24 % 256), (valueOf x.src x.a).2)
  else if isIeee x.src then (operand x.src x.ftz x.a, 0)
  else valueOf x.src x.a

/-- `fcvt` of one unscaled-destination element. A scaled integer source counts as a floating one where its destination is an integer format (R36, R170; log
123). -/
def opFcvt (x : FArgs) : Res :=
  let v := cvtValue x
  let r :=
    if isIntFmt x.src && isIntFmt x.k && !(x.sc && scalable x.src) then intResult x.k x.sat (intVal x.src (isIFmt x.src) x.a).1
    else roundTo x.k x.rm (x.sat && !isIeee x.k) (x.ftz && isIeee x.k) v.1
  { pat := r.pat, fl := r.fl ||| (if v.1.isSnan then flNV else 0), warn := v.2 }

/-- The destination of `fcvt` is scaled: `IMM[5]` with a source that has no scaled form (R170). -/
def cvtScaled (x : FArgs) : Bool := x.sc && !scalable x.src

/-- A block of `fcvt` elements with one sc8 (R51): results with the scale in bits [31:24]. -/
def cvtBlock (xs : List FArgs) : List Res :=
  let vs := xs.map fun x => (x, cvtValue x)
  match xs with
  | [] => []
  | x0 :: _ =>
    let sc := chooseScale x0.k x0.rm (vs.map (·.2.1))
    vs.map fun xv =>
      let r := writeScaled x0.k x0.rm sc xv.2.1
      { pat := sc * 2 ^ 24 + r.pat, fl := r.fl ||| (if xv.2.1.isSnan then flNV else 0), warn := xv.2.2 }

/-! ### Forms -/

def fArgsC (f : CForm) (k a b c : Nat) : FArgs :=
  { k := k, a := a % 2 ^ fmtBits k, b := b % 2 ^ fmtBits k, c := c % 2 ^ fmtBits k, rm := effRnd f.var, ftz := f.sgn, sat := f.sat
    var := f.var, src := 0, sc := false }
def fArgsG (f : GForm) (k a b c : Nat) : FArgs :=
  { k := k, a := a % 2 ^ fmtBits k, b := b % 2 ^ fmtBits k, c := c % 2 ^ fmtBits k, rm := effRnd f.var, ftz := f.sgn, sat := f.sat
    var := f.var, src := 0, sc := false }
/-- Arguments of `fcvt`: the source pattern keeps all its bits, its format is `IMM[4:0]`. -/
def cvtArgs (k a rm : Nat) (ftz sat : Bool) (imm : Nat) : FArgs :=
  { k := k, a := a, b := 0, c := 0, rm := rm, ftz := ftz, sat := sat, var := 0, src := imm % 32, sc := (imm / 32) % 2 = 1 }

/-- Warnings of a float graph word (R106, Table 05-7). -/
def fltWarnG (opc : Nat) (f : GForm) : BitVec 16 :=
  (if f.sat && !(opc = 0x28 && !isIeee f.fmt) then wSATF else 0) |||
  (if (varMax opc).isNone && 6 ≤ f.var then wRNDR else 0) |||
  (if opc = 0x28 && f.sgn && !isIeee f.fmt && !isIeee (fieldOf f.imm 0 5) then wFTZI else 0) |||
  (if opc ≠ 0x28 && !isIeee f.fmt then wFMTK else 0)

/-- A float opcode in class R or V, or in a block; `isInt` marks an integer result. -/
def fltForm (opc : Nat) (long : Bool) (op : FArgs → Res) (f : Form) (s : State) : Outcome State Fault Refusal :=
  match f with
  | .c f => .next <| runC opc f s fun e s =>
    let k := fltFmt f.fmt
    if f.cls = 4 then lanewise e s k long fun i => op (fArgsC f k (laneOf k e.va i) (laneOf k e.vb i) (laneOf k e.vc i))
    else
      let r := op (fArgsC f k e.a.toNat e.b.toNat e.c.toNat)
      raiseC e (addWarn s e.k r.warn) r.fl fun s => (if long then retFill else retX) e s (BitVec.ofNat 64 r.pat)
  | .g f => .next <| runG opc f s fun e s =>
    let k := fltFmt f.fmt
    let r := op (fArgsG f k e.a.toNat e.b.toNat e.c.toNat)
    raiseG e s r.fl (r.warn ||| fltWarnG opc f) fun s => .send s (BitVec.ofNat 64 r.pat)

def execFadd (f : Form) (s : State) : Outcome State Fault Refusal := fltForm 0x20 false opFadd f s
def execFsub (f : Form) (s : State) : Outcome State Fault Refusal := fltForm 0x21 false opFsub f s
def execFmul (f : Form) (s : State) : Outcome State Fault Refusal := fltForm 0x22 false opFmul f s
def execFma (f : Form) (s : State) : Outcome State Fault Refusal := fltForm 0x23 false opFma f s
def execFmin (f : Form) (s : State) : Outcome State Fault Refusal := fltForm 0x24 false opFmin f s
def execFmax (f : Form) (s : State) : Outcome State Fault Refusal := fltForm 0x25 false opFmax f s
def execFsgn (f : Form) (s : State) : Outcome State Fault Refusal := fltForm 0x27 false opFsgn f s
def execFcls (f : Form) (s : State) : Outcome State Fault Refusal := fltForm 0x29 false opFcls f s
def execFrnd (f : Form) (s : State) : Outcome State Fault Refusal := fltForm 0x2A false opFrnd f s
def execFdiv (f : Form) (s : State) : Outcome State Fault Refusal := fltForm 0x2B true opFdiv f s
def execFsqrt (f : Form) (s : State) : Outcome State Fault Refusal := fltForm 0x2C true opFsqrt f s

/-- `fcmp` (R168): a predicate, a lane mask in class V, or a token. -/
def execFcmp (f : Form) (s : State) : Outcome State Fault Refusal :=
  match f with
  | .c f => .next <| runC 0x26 f s fun e s =>
    let k := fltFmt f.fmt
    if f.cls = 4 then laneMaskRes e s k fun i => let r := opFcmp (fArgsC f k (laneOf k e.va i) (laneOf k e.vb i) 0); (r.1, r.2, 0)
    else
      let r := opFcmp (fArgsC f k e.a.toNat e.b.toNat 0)
      raiseC e s r.2 fun s => .ok (s.modThr e.k fun t => t.pw f.d.toNat r.1) false
  | .g f => .next <| runG 0x26 f s fun e s =>
    let r := opFcmp (fArgsG f (fltFmt f.fmt) e.a.toNat e.b.toNat 0)
    raiseG e s r.2 (fltWarnG 0x26 f) fun s => .send s (if r.1 then 1 else 0)

/-- A converted pattern in an x-register: sign-extended for an i format, zero-extended otherwise; a scaled one keeps its sc8. -/
def cvtReg (x : FArgs) (r : Res) : Word := BitVec.ofNat 64 (if cvtScaled x then r.pat else extendTo 64 x.k r.pat)

/-- `fcvt` (R170, R186). -/
def execFcvt (f : Form) (s : State) : Outcome State Fault Refusal :=
  match f with
  | .c f => .next <| runC 0x28 f s fun e s =>
    let k := f.fmt
    let arg := fun a => cvtArgs k a (effRnd f.var) f.sgn f.sat f.imm.toNat
    if f.cls = 4 then
      if cvtScaled (arg 0) then
        let act := activeList k e.mask
        let rs := cvtBlock (act.map fun i => arg (laneOf k e.va i))
        let fw := foldRes rs
        readOld e s k <| raiseC e (addWarn s e.k fw.2) fw.1 fun s =>
          let old := (s.thr e.k).vr f.d.toNat
          retV e s false (packLanes 32 ((List.range 64).map fun i =>
            match act.idxOf? i with
            | some j => (rs.getD j { pat := 0 }).pat
            | none => if zeroing f then 0 else laneOf k old i))
      else lanewise e s k false fun i => opFcvt (arg (laneOf k e.va i))
    else
      let x := arg e.a.toNat
      let r := if cvtScaled x then (cvtBlock [x]).headD { pat := 0 } else opFcvt x
      raiseC e (addWarn s e.k r.warn) r.fl fun s => retX e s (cvtReg x r)
  | .g f => .next <| runG 0x28 f s fun e s =>
    let x := cvtArgs f.fmt e.a.toNat (effRnd f.var) f.sgn f.sat f.imm.toNat
    let r := if cvtScaled x then (cvtBlock [x]).headD { pat := 0 } else opFcvt x
    raiseG e s r.fl (r.warn ||| fltWarnG 0x28 f) fun s => .send s (cvtReg x r)

end Sys2Proof.Machine
end

