-- ==== Sys2Proof/Machine/Special.lean ====
section
/-!
DEFINITION. The special functions 0x30 to 0x39 (R171): exact cases, special values, correctly rounded results for f16, bf16 and `frcp`, and
for f32 and f64 a value within the bound of Table 08-2, which one being the free choice `Config.specialPick` (log 9). The true
value is enclosed by fixed-point series of 2,400 fraction bits (log 10).
-/
namespace Sys2Proof.Machine
open Sys2Proof
open Host (Outcome)

/-! ### Fixed-point series; every number is an integer times 2^−Q -/

def fixQ : Nat := 2400
def fixOne : Nat := 2 ^ fixQ
def fixMul (a b : Nat) : Nat := a * b / fixOne

/-- Σ term over `fuel` steps of a series whose next term is `f i t`. -/
def series (f : Nat → Nat → Nat) : Nat → Nat → Nat → Nat
  | 0, _, _ => 0
  | n + 1, i, t => t + series f n (i + 1) (f i t)

/-- atan(1/n) and atanh(1/n): Σ (±1)^i ÷ ((2i+1) n^(2i+1)); even and odd terms are summed apart. -/
def invPowers (n : Nat) : Nat → Nat → Nat → Bool → Nat × Nat
  | 0, _, _, _ => (0, 0)
  | k + 1, i, p, odd =>
    let r := invPowers n k (i + 1) (p / (n * n)) (!odd)
    if odd then (r.1, r.2 + p / (2 * i + 1)) else (r.1 + p / (2 * i + 1), r.2)
def fixAtanInv (n : Nat) : Nat := let r := invPowers n 1040 0 (fixOne / n) false; r.1 - r.2
def fixLn2 : Nat := let r := invPowers 3 780 0 (fixOne / 3) false; 2 * (r.1 + r.2)
def fixPi : Nat := 16 * fixAtanInv 5 - 4 * fixAtanInv 239

/-- e^y for 0 ≤ y < 1. -/
def fixExp (y : Nat) : Nat := series (fun i t => fixMul t y / (i + 1)) 400 0 fixOne

/-- sin r and cos r for 0 ≤ r < 2, from the terms r^i ÷ i!: sums of the four residues of i modulo 4. -/
def trigTerms (r : Nat) : Nat → Nat → Nat → (Nat × Nat × Nat × Nat)
  | 0, _, _ => (0, 0, 0, 0)
  | n + 1, i, t =>
    let (a, b, c, d) := trigTerms r n (i + 1) (fixMul t r / (i + 1))
    match i % 4 with
    | 0 => (a + t, b, c, d) | 1 => (a, b + t, c, d) | 2 => (a, b, c + t, d) | _ => (a, b, c, d + t)
def fixSinCos (r : Nat) : Nat × Nat := let (a, b, c, d) := trigTerms r 480 0 fixOne; (b - d, a - c)

/-- erf z for 0 ≤ z < 40: (2 ÷ √π) e^(−z²) Σ 2^n z^(2n+1) ÷ (2n+1)!!. -/
def fixErf (z emz2 : Nat) : Nat :=
  let sum := series (fun i t => fixMul (fixMul t z) z * 2 / (2 * i + 3)) 7000 0 z
  let rootPi := isqrt (fixPi * fixOne)
  fixMul (fixMul (2 * fixOne * fixOne / rootPi) emz2) sum

/-- |x| as a fixed-point number. -/
def fixOf (m : Nat) (e : Int) : Nat := if 0 ≤ e + fixQ then m * pow2 (e + fixQ) else m / pow2 (-(e + fixQ))

/-- 2^y for a fixed-point y of either sign: mantissa and exponent. -/
def fixExp2 (neg : Bool) (y : Nat) : Num :=
  let n : Int := if neg then -(((y + fixOne - 1) / fixOne : Nat) : Int) else ((y / fixOne : Nat) : Int)
  let fr : Nat := if neg then (fixOne - y % fixOne) % fixOne else y % fixOne
  .fin false (fixExp (fixMul fr fixLn2)) (n - fixQ)
/-- e^y. -/
def fixE (neg : Bool) (y : Nat) : Num := fixExp2 neg (y * fixOne / fixLn2)
/-- A value below 4,096 as a fixed-point number. -/
def numFix : Num → Nat | .fin _ m e => fixOf m e | _ => 0

/-- 1 ÷ (1 + e^−x). -/
def fixSigm (neg : Bool) (y : Nat) : Num :=
  let t := fixE true y
  if neg then (numMul t (.fin false (fixOne * fixOne / (fixOne + numFix t)) (-fixQ))).1
  else .fin false (fixOne * fixOne / (fixOne + numFix t)) (-fixQ)

/-! ### True values -/

/-- |t|, its sign, for a finite nonzero operand with no exact case. -/
def specialTrue (opc : Nat) (neg : Bool) (m : Nat) (e : Int) : Num :=
  let big := fun (lim : Nat) => decide ((lim : Int) ≤ (Nat.log2 m : Int) + e)
  let y := if big 13 then 0 else fixOf m e
  match opc with
  | 0x31 =>
    let odd := e % 2 ≠ 0
    let r := isqrt (2 ^ (2 * fixQ + (if odd then 1 else 0)) / m)
    .fin false (2 * r + 1) (-((e + (if odd then 1 else 0)) / 2) - fixQ - 1)
  | 0x32 => if big 13 then .fin false 1 (if neg then -5000 else 5000) else fixExp2 neg y
  | 0x33 =>
    let l := Nat.log2 m
    let t := m * 2 ^ fixQ / 2 ^ l
    let z := (t - fixOne) * fixOne / (t + fixOne)
    let s := series (fun i u => fixMul (fixMul u z) z * (2 * i + 1) / (2 * i + 3)) 800 0 z
    let v : Int := ((l : Int) + e) * fixOne + ((2 * s * fixOne / fixLn2 : Nat) : Int)
    .fin (v < 0) v.natAbs (-fixQ)
  | 0x34 | 0x35 =>
    let x := fixOf m e
    let hp := fixPi / 2
    let q := x / hp
    let sc := fixSinCos (x % hp)
    let q := if opc = 0x35 then q + 1 else q
    let v := if q % 2 = 0 then sc.1 else sc.2
    .fin ((opc = 0x34 && neg) != decide (q % 4 = 2 || q % 4 = 3)) (v - 1) (-fixQ)
  | 0x36 =>
    if big 10 then .fin neg (fixOne - 1) (-fixQ) else
    -- tanh x lies below x by less than 2^−200 of it there
    if (Nat.log2 m : Int) + e < -100 then (numMul (.fin neg m e) (.fin false (fixOne - 1) (-fixQ))).1 else
    let t := numFix (fixE true (2 * y))
    .fin neg ((fixOne - t) * fixOne / (fixOne + t) - 1) (-fixQ)
  | 0x37 =>
    if big 10 then (if neg then .fin false 1 (-1500) else .fin false (fixOne - 1) (-fixQ)) else fixSigm neg y
  | 0x38 =>
    -- a negative operand's result leaves binary64 below about −38.6
    if big 6 || 40 * fixOne ≤ y then (if neg then .fin true 1 (-1500) else (numMul (.fin false m e) (.fin false (fixOne - 1) (-fixQ))).1) else
    let z := y * fixOne / isqrt (2 * fixOne * fixOne)
    let r := fixErf z (numFix (fixE true (fixMul z z)))
    (numMul (.fin neg m e) (.fin false (if neg then fixOne - r else fixOne + r) (-fixQ - 1))).1
  | _ =>
    if big 10 then (if neg then .fin true 1 (-1500) else (numMul (.fin false m e) (.fin false (fixOne - 1) (-fixQ))).1) else
    (numMul (.fin neg m e) (fixSigm neg y)).1

/-- Exact results and special values of Table 08-2: value and flags. -/
def specialExact (opc : Nat) (x : Num) : Option (Num × BitVec 13) :=
  match x with
  | .nan sig => some (.nan false, if sig then flNV else 0)
  | .inf neg => some (match opc with
    | 0x30 => (.fin neg 0 0, 0)
    | 0x31 => if neg then (.nan false, flNV) else (.fin false 0 0, 0)
    | 0x32 => if neg then (.fin false 0 0, 0) else (.inf false, 0)
    | 0x33 => if neg then (.nan false, flNV) else (.inf false, 0)
    | 0x34 | 0x35 => (.nan false, flNV)
    | 0x36 => (.fin neg 1 0, 0)
    | 0x37 => if neg then (.fin false 0 0, 0) else (.fin false 1 0, 0)
    | _ => if neg then (.fin true 0 0, 0) else (.inf false, 0))
  | .fin neg 0 _ => some (match opc with
    | 0x30 => (.inf neg, flDZ)
    | 0x31 => (.inf neg, flDZ)
    | 0x32 => (.fin false 1 0, 0)
    | 0x33 => (.inf true, flDZ)
    | 0x35 => (.fin false 1 0, 0)
    | 0x37 => (.fin false 1 (-1), 0)
    | _ => (.fin neg 0 0, 0))
  | .fin neg m e =>
    let l := Nat.log2 m
    let one := m = 2 ^ l
    let p := (l : Int) + e
    match opc with
    | 0x30 => some (numDiv (.fin false 1 0) (.fin neg m e))
    | 0x31 => if neg then some (.nan false, flNV)
      else if one && p % 2 = 0 then some (.fin false 1 (-(p / 2)), 0) else none
    | 0x32 =>
      let r := roundShift 1 neg m (-e)
      if p < 13 && (0 ≤ e || !r.2) then some (.fin false 1 (if neg then -(r.1 : Int) else r.1), 0) else none
    | 0x33 => if neg then some (.nan false, flNV) else if one then some (Num.ofInt p, 0) else none
    | _ => none

/-- Units in the last place of Table 08-2. -/
def ulpBound (opc : Nat) : Nat := if 0x36 ≤ opc then 2 else 1

/-- A magnitude pattern begins a binade whose unit in the last place is twice that of the one below. -/
def binadeStart (k p : Nat) : Bool := p % 2 ^ (binPrec k - 1) = 0 && 2 ^ binPrec k ≤ p

/-- The magnitudes within the bound of a true value `t` that `lo` and the next one enclose: these two, and with two ulp one more on either side, where it is within
two units in the last place both of the true value's binade and of its own. -/
def withinBound (opc k lo : Nat) (t : Num) : List Nat :=
  if ulpBound opc = 1 then [lo, lo + 1] else
  let below := lo ≠ 0 && (!binadeStart k lo || (roundBin k 0 false false t).pat = lo)
  (if below then [lo - 1] else []) ++ [lo, lo + 1] ++ if binadeStart k (lo + 1) then [] else [lo + 2]

/-- A special function of one pattern (R171). -/
def opSpecial (opc : Nat) (x : FArgs) : Res :=
  match specialExact opc x.va with
  | some r => (roundBin x.k x.rm false x.ftz r.1).raise r.2
  | none =>
    match x.va with
    | .fin neg m e =>
      let t := specialTrue opc neg m e
      let cr := roundBin x.k x.rm false x.ftz t
      let cr := cr.raise flNX
      if x.k = 12 || x.k = 13 || (cr.fl &&& flOF) ≠ 0 then cr
      else
        let lo := (roundBin x.k 1 false false t.abs).pat
        let s := if t.neg? then signBit x.k else 0
        let cands := (withinBound opc x.k lo t.abs).filter fun p => p ≤ binMaxPat x.k
        let p := cands.getD (Config.specialPick opc x.k x.rm x.a % cands.length) lo
        if x.ftz && p ≠ 0 && p < 2 ^ (binPrec x.k - 1) then { pat := s, fl := cr.fl ||| flUF } else { pat := s + p, fl := cr.fl }
    | _ => { pat := nanPat x.k }

def execFrcp (f : Form) (s : State) : Outcome State Fault Refusal := fltForm 0x30 true (opSpecial 0x30) f s
def execFrsq (f : Form) (s : State) : Outcome State Fault Refusal := fltForm 0x31 true (opSpecial 0x31) f s
def execFex2 (f : Form) (s : State) : Outcome State Fault Refusal := fltForm 0x32 true (opSpecial 0x32) f s
def execFlg2 (f : Form) (s : State) : Outcome State Fault Refusal := fltForm 0x33 true (opSpecial 0x33) f s
def execFsin (f : Form) (s : State) : Outcome State Fault Refusal := fltForm 0x34 true (opSpecial 0x34) f s
def execFcos (f : Form) (s : State) : Outcome State Fault Refusal := fltForm 0x35 true (opSpecial 0x35) f s
def execFtanh (f : Form) (s : State) : Outcome State Fault Refusal := fltForm 0x36 true (opSpecial 0x36) f s
def execFsigm (f : Form) (s : State) : Outcome State Fault Refusal := fltForm 0x37 true (opSpecial 0x37) f s
def execFgelu (f : Form) (s : State) : Outcome State Fault Refusal := fltForm 0x38 true (opSpecial 0x38) f s
def execFsilu (f : Form) (s : State) : Outcome State Fault Refusal := fltForm 0x39 true (opSpecial 0x39) f s

end Sys2Proof.Machine
end

