-- ==== Sys2Proof/Machine/EngineOps.lean ====
section
/-!
DEFINITION. What the errand engines share: meters (R370), slices (R259), bank and flat layouts with their scales (R50, R51, R68, R255), reading and writing
of elements, the hidden face of a twin destination (R75, R309), and arrivals.
-/
namespace Sys2Proof.Machine
open Sys2Proof

/-! ### Energy headroom (R372, R373) -/

/-- LIMIT of a die's headroom register (R372). -/
def headOf (s : State) (die : Nat) : Nat := (getV s.dev.headroom { head := 0, epoch := 0 } die).head.toNat
def limitOf (s : State) (die : Nat) : Nat :=
  let h := headOf s die
  if h = 0 then 4 else if h < 100000 then 0 else if h < 200000 then 1 else if h < 300000 then 2 else 3
/-- A thing of energy class `c` may start on a die (R373). -/
def mayStart (s : State) (die c : Nat) : Bool := limitOf s die ≤ 3 && c ≤ limitOf s die
/-- Energy class of a kernel (header byte 56). -/
def kernClass (s : State) (kn : Nat) : Nat := match s.kern? kn with | some k => hdrField k.hdr 56 1 | none => 0

/-! ### Errand fields -/

namespace Errand
def fmt (e : Errand) : Nat := fieldOf e.md 0 5
def mine (e : Errand) : Bool := e.md.getLsbD 5
def direct (e : Errand) : Bool := e.md.getLsbD 6
def hasAfter (e : Errand) : Bool := e.md.getLsbD 7
def ordb (e : Errand) : Bool := e.md.getLsbD 8
def comp (e : Errand) : Bool := e.md.getLsbD 9
def hasCtr (e : Errand) : Bool := e.md.getLsbD 10
def hasSyn (e : Errand) : Bool := e.md.getLsbD 11
end Errand

/-- Width class (Table 02-1); 0 for none. -/
def wclass (k : Nat) : Nat :=
  if 8 ≤ k && k ≤ 11 then 4 else if k ≤ 1 || 16 ≤ k && k ≤ 22 then 8
  else if k = 2 || k = 3 || k = 12 || k = 13 then 16 else if k = 14 then 24 else 0

/-- A slice: first index, step, count (R259). -/
structure Slice where
  start : Nat
  step  : Nat
  cnt   : Nat
deriving DecidableEq, Repr

/-- The slice of dimension 0 that the group of rank `r` takes. -/
def sliceOf (dim0 : Nat) (part0 : BitVec 8) (r : Nat) : Slice :=
  let p := if fieldOf part0 0 7 ≤ 1 then 1 else fieldOf part0 0 7
  if p ≤ r then { start := 0, step := 1, cnt := 0 }
  else if part0.getLsbD 7 then { start := r, step := p, cnt := (dim0 + p - 1 - r) / p }
  else
    let q := dim0 / p
    let x := dim0 % p
    { start := q * r + min r x, step := 1, cnt := if r < x then q + 1 else q }
def Slice.at (z : Slice) (j : Nat) : Nat := z.start + j * z.step
def Errand.slice (e : Errand) : Slice := sliceOf e.dim0 e.part0 e.rank
/-- An errand with `.mine` whose slice is empty reads and writes nothing (R259). -/
def Errand.idle (e : Errand) : Bool := (e.op = 0x90 || e.op = 0x92 || e.op = 0x93 || e.op = 0x95) && e.mine && e.slice.cnt = 0

/-! ### Sides: where elements lie and how they are encoded -/

/-- Elements counted from `base`: format, block length of a scaled form (0 unscaled), byte offset of the scale bytes and the offset at which they no
longer fit (0: none), index of the operand's first element, number of elements after it (0: unbounded), column-major, write rounding, saturation. -/
structure Side where
  base : Word
  k    : Nat
  blen : Nat
  soff : Nat
  lim  : Nat
  i0   : Nat
  n    : Nat
  maj  : Bool
  rm   : Nat
  sat  : Bool
  /-- The register's scaled bit stands with a format that has no scaled form (R50). -/
  odd  : Bool := false
  /-- What is written stems from an unscaled integer format, which SAT 0 wraps (R36). -/
  isrc : Bool := false
deriving DecidableEq, Repr

/-- The address lies in a scratchpad (R266). -/
def isBank (a : Word) : Bool := match windowOf a.toNat with | some (.w2 _) => true | some .w3 => true | _ => false
/-- The scratchpad's tile of a bank address. -/
def bankTile (tile : Nat) (a : Word) : Nat := match windowOf a.toNat with | some (.w2 t) => t | _ => tile
/-- Own scratchpad: W3, or W2 naming the own tile (Table 11-4). -/
def ownPad (tile : Nat) (a : Word) : Bool := isBank a && bankTile tile a = tile
/-- The format register of the bank that holds an address. -/
def bankReg (s : State) (tile : Nat) (a : Word) : Word :=
  if isBank a then getV (s.tile (bankTile tile a)).bfmt 0 (a.toNat % 2 ^ 20 / 65536) else 0

def regFmt (r : Word) : Nat := fieldOf r 0 5
def regScaled (r : Word) : Bool := r.getLsbD 12 && scalable (regFmt r)
def regBlen (r : Word) : Nat := if regScaled r then 8 * 2 ^ fieldOf r 13 2 else 0
def regOdd (r : Word) : Bool := r.getLsbD 12 && !scalable (regFmt r)
def regRnd (r : Word) : Nat := if fieldOf r 15 3 ≤ 4 then fieldOf r 15 3 else 0

/-- Bytes of `n` elements, and with the scale bytes that follow them. -/
def packedBytes (k n : Nat) : Nat := (n * fmtBits k + 7) / 8
def sideBytes (k blen n : Nat) : Nat := packedBytes k n + if blen = 0 then 0 else (n + blen - 1) / blen

/-- An operand in a bank under its format register (R68, R255). A first byte where no element begins counts with the element that holds it (log 128). -/
def bankSide (a r : Word) : Side :=
  let off := a.toNat % 65536
  { base := a - BitVec.ofNat 64 off, k := regFmt r, blen := regBlen r, soff := fieldOf r 20 12 * 16, lim := 65536
    i0 := off * 8 / fmtBits (regFmt r), n := 0, maj := r.getLsbD 19, rm := regRnd r, sat := r.getLsbD 18
    odd := regOdd r }

/-- A destination outside the banks under a result bank's register: its scale bytes follow `n` elements (R256). -/
def flatSide (a r : Word) (n : Nat) : Side :=
  { base := a, k := regFmt r, blen := regBlen r, soff := packedBytes (regFmt r) n, lim := 0, i0 := 0, n := n, maj := r.getLsbD 19
    rm := regRnd r, sat := r.getLsbD 18, odd := regOdd r }

/-- Plain elements of a format outside the banks (R266). -/
def plainSide (a : Word) (k n : Nat) : Side :=
  { base := a, k := k, blen := 0, soff := 0, lim := 0, i0 := 0, n := n, maj := false, rm := 0, sat := false }

/-- The side of a destination whose elements come from another side's format. -/
def Side.from (d src : Side) : Side := { d with isrc := isIntFmt src.k && src.blen = 0 }

/-- Index of element (r, c) of an `rows` × `cols` operand (R68). -/
def Side.ix (d : Side) (rows cols r c : Nat) : Nat := d.i0 + if d.maj then c * rows + r else r * cols + c

/-- A failed access of an engine. -/
abbrev Bad := Stop × Word

/-- `SR.WARN.FMT` of the thread that issued the errand (R35, R50, R68). -/
def warnFmt (s : State) (ag : Agent) : State :=
  match ag.warnTo with
  | some k => s.modThr k fun t => { t with warn := t.warn ||| wFMT }
  | none => s

/-- A read of a code warns: the reserved t2 pattern (R35), a scaled bit without a scaled form (R50), a scale byte beyond the bank (R68). -/
def readWarns (d : Side) (i code : Nat) : Bool :=
  (d.k = 11 && code = 2) || d.odd || (d.blen ≠ 0 && d.lim ≠ 0 && decide (d.lim ≤ d.soff + i / d.blen))

/-- The code of an element and its scale byte, none where unscaled; a scale byte beyond the bank is the NaN scale (R68). -/
def readCode (s : State) (ag : Agent) (d : Side) (i : Nat) : State × Except Bad (Nat × Option Nat) :=
  let w := fmtBits d.k
  let bit := i * w
  match readRange s ag (d.base + BitVec.ofNat 64 (bit / 8)) ((bit % 8 + w + 7) / 8) with
  | (s, .error b) => (s, .error b)
  | (s, .ok bs) =>
    let code := (leNat bs >>> (bit % 8)) % 2 ^ w
    let s := if readWarns d i code then warnFmt s ag else s
    if d.blen = 0 then (s, .ok (code, none)) else
    let sp := d.soff + i / d.blen
    if d.lim ≠ 0 && d.lim ≤ sp then (s, .ok (code, some 0xFF)) else
    match readRange s ag (d.base + BitVec.ofNat 64 sp) 1 with
    | (s, .error b) => (s, .error b)
    | (s, .ok sb) => (s, .ok (code, some (leNat sb)))

/-- Exact value of a code under an optional scale. -/
def codeValue (k code : Nat) : Option Nat → Num
  | none => (valueOf k code).1
  | some sc => scaledValue k code sc

/-- Rounding into w42, as a value. -/
def w42c (x : Num) : Num := w42Value (roundW 0 x).pat
def w42p (x : Num) : BitVec 42 := BitVec.ofNat 42 (roundW 0 x).pat
def w42n (p : BitVec 42) : Num := w42Value p.toNat

/-- Exact values of elements at indices. -/
def readVals (s : State) (ag : Agent) (d : Side) : List Nat → State × Except Bad (List Num)
  | [] => (s, .ok [])
  | i :: r =>
    match readCode s ag d i with
    | (s, .error b) => (s, .error b)
    | (s, .ok (c, sc)) =>
      match readVals s ag d r with
      | (s, .error b) => (s, .error b)
      | (s, .ok l) => (s, .ok (codeValue d.k c sc :: l))

/-- The code and scale byte of element `i` of bytes that hold a side from its base. -/
def codeIn (bs : List Byte) (d : Side) (i : Nat) : Nat × Option Nat :=
  let w := fmtBits d.k
  ((leNat ((bs.drop (i * w / 8)).take ((i * w % 8 + w + 7) / 8)) >>> (i * w % 8)) % 2 ^ w,
   if d.blen = 0 then none else some (leNat ((bs.drop (d.soff + i / d.blen)).take 1)))

/-- `decode_bank` (R53): elements at indices, as w42 values. -/
def readElems (s : State) (ag : Agent) (d : Side) (l : List Nat) : State × Except Bad (List Num) :=
  match readVals s ag d l with
  | (s, .error b) => (s, .error b)
  | (s, .ok v) => (s, .ok (v.map w42c))

/-! ### Writing: pending bytes, then the hidden face or memory -/

/-- The byte an engine sees at an address of its destination: pending, hidden, or visible. -/
def getByte (s : State) (ag : Agent) (e : Errand) (pend : List (Nat × Byte)) (va : Word) : State × Except Bad Byte :=
  match Tbl.find? pend va.toNat with
  | some b => (s, .ok b)
  | none => match Tbl.find? e.hidden va.toNat with
    | some b => (s, .ok b)
    | none => match readRange s { ag with errand := none } va 1 with
      | (s, .error x) => (s, .error x)
      | (s, .ok bs) => (s, .ok (bs.getD 0 0))

/-- Put `n` bytes' worth of a value whose low `bits` from bit `off` replace those of the bytes at `va`. -/
def putBits (s : State) (ag : Agent) (e : Errand) (pend : List (Nat × Byte)) (va : Word) (off bits val : Nat) : Nat → State × Except Bad (List (Nat × Byte))
  | 0 => (s, .ok pend)
  | n + 1 =>
    let lo := off
    let cnt := min bits (8 - lo)
    let put := fun (old : Byte) =>
      let m : Byte := BitVec.ofNat 8 ((2 ^ cnt - 1) * 2 ^ lo)
      (old &&& ~~~m) ||| BitVec.ofNat 8 (val % 2 ^ cnt * 2 ^ lo)
    let next := fun (s : State) (old : Byte) =>
      putBits s ag e (Tbl.set pend va.toNat (put old)) (va + 1) 0 (bits - cnt) (val / 2 ^ cnt) n
    if bits = 0 then (s, .ok pend)
    else if cnt = 8 then next s 0
    else match getByte s ag e pend va with
      | (s, .error x) => (s, .error x)
      | (s, .ok old) => next s old

/-- Put an element's code. -/
def putCode (s : State) (ag : Agent) (e : Errand) (pend : List (Nat × Byte)) (d : Side) (i code : Nat) : State × Except Bad (List (Nat × Byte)) :=
  let w := fmtBits d.k
  putBits s ag e pend (d.base + BitVec.ofNat 64 (i * w / 8)) (i * w % 8) w code 9

/-- The code of an unscaled element by `round_to` under a side's settings: an integer source clamps or wraps by SAT (R36, R54, R70). A nonzero value that
rounds to zero keeps its sign: 'a zero result of the contract is +0' is taken of the contract's sums, not of this conversion (R55, log 100). -/
def plainCode (d : Side) (x : Num) : Nat :=
  if d.isrc && isIntFmt d.k then (intResult d.k d.sat x.toInt).pat else (roundTo d.k d.rm d.sat false x).pat

/-- Put unscaled elements. -/
def putPlain (s : State) (ag : Agent) (e : Errand) (pend : List (Nat × Byte)) (d : Side) : List (Nat × Num) → State × Except Bad (List (Nat × Byte))
  | [] => (s, .ok pend)
  | (i, x) :: r =>
    match putCode s ag e pend d i (plainCode d x) with
    | (s, .error b) => (s, .error b)
    | (s, .ok p) => putPlain s ag e p d r

/-- Elements of a block: written ones with their values, kept ones with their code and value under the current scale, as they stand now. -/
def gatherBlock (s : State) (ag : Agent) (d : Side) (items : List (Nat × Num)) : List Nat → State × Except Bad (List (Nat × Option Nat × Num) × Option Nat)
  | [] => (s, .ok ([], none))
  | i :: r =>
    match gatherBlock s ag d items r with
    | (s, .error b) => (s, .error b)
    | (s, .ok (l, sc)) =>
      match items.find? (·.1 = i) with
      | some x => (s, .ok ((i, none, x.2) :: l, sc))
      | none => match readCode s { ag with errand := none } d i with
        | (s, .error b) => (s, .error b)
        | (s, .ok (c, sc')) => (s, .ok ((i, some c, codeValue d.k c sc') :: l, sc'))

/-- Put the elements of one scaled block under its chosen scale (R51). -/
def putBlock (s : State) (ag : Agent) (e : Errand) (pend : List (Nat × Byte)) (d : Side) (items : List (Nat × Num)) (b : Nat) : State × Except Bad (List (Nat × Byte)) :=
  let ixs := (List.range d.blen).map (b * d.blen + ·)
  let ixs := if d.n = 0 then ixs else ixs.filter (· < d.n)
  match gatherBlock s ag d items ixs with
  | (s, .error x) => (s, .error x)
  | (s, .ok (l, old)) =>
    let sc := chooseScale d.k d.rm (l.map (·.2.2))
    let p0 := if d.lim ≠ 0 && d.lim ≤ d.soff + b then (s, .ok pend)
      else putBits s ag e pend (d.base + BitVec.ofNat 64 (d.soff + b)) 0 8 sc 2
    l.foldl (fun acc x => match acc with
      | (s, .error y) => (s, .error y)
      | (s, .ok p) =>
        let code := match x.2.1 with
          | some c => if old = some sc then c else (writeScaled d.k d.rm sc x.2.2).pat
          | none => (writeScaled d.k d.rm sc x.2.2).pat
        putCode s ag e p d x.1 code) p0

/-- Put elements by index into a side. -/
def putElems (s : State) (ag : Agent) (e : Errand) (pend : List (Nat × Byte)) (d : Side) (items : List (Nat × Num)) : State × Except Bad (List (Nat × Byte)) :=
  if d.blen = 0 then putPlain s ag e pend d items else
  ((items.map fun x => x.1 / d.blen).eraseDups).foldl (fun acc b => match acc with
    | (s, .error y) => (s, .error y)
    | (s, .ok p) => putBlock s ag e p d items b) (s, .ok pend)

/-- Zero the padding bits after a dense destination's last element (R261). -/
def putPad (s : State) (ag : Agent) (e : Errand) (pend : List (Nat × Byte)) (d : Side) (last : Nat) : State × Except Bad (List (Nat × Byte)) :=
  let bit := last * fmtBits d.k
  if bit % 8 = 0 then (s, .ok pend) else putBits s ag e pend (d.base + BitVec.ofNat 64 (bit / 8)) (bit % 8) (8 - bit % 8) 0 1

/-- Perform pending bytes: into the hidden face of a twin destination, or in place. -/
def flush (s : State) (ag : Agent) (e : Errand) (pend : List (Nat × Byte)) : State × Except Bad Errand :=
  if e.twin.isSome then (s, .ok { e with hidden := pend.foldl (fun h x => Tbl.set h x.1 x.2) e.hidden }) else
  pend.foldl (fun acc x => match acc with
    | (s, .error b) => (s, .error b)
    | (s, .ok e) => match writeRange s ag (BitVec.ofNat 64 x.1) [x.2] with
      | (s, .error b) => (s, .error b)
      | (s, .ok ()) => (s, .ok e)) (s, .ok e)

/-- Every pending byte of a destination in place may be written: the unit is checked before it writes. -/
def mayFlush (s : State) (ag : Agent) (e : Errand) (pend : List (Nat × Byte)) : State × Except Bad Unit :=
  if e.twin.isSome then (s, .ok ()) else
  pend.foldl (fun acc x => match acc with
    | (s, .error b) => (s, .error b)
    | (s, .ok ()) => match resolve s ag (BitVec.ofNat 64 x.1) 1 1 .wr with
      | (s, .error st) => (s, .error (st, BitVec.ofNat 64 x.1))
      | (s, .ok _) => (s, .ok ())) (s, .ok ())

/-! ### Twin faces (R75, R76, R309) -/

/-- The twin object of a W0 address, if its page is a twin page: place in face 0, log2 of the page, size, virtual address. -/
def twinOf (s : State) (tile ctx : Nat) (a : Word) : State × Except Fail (Option (Nat × Nat × Nat × Word)) :=
  match findLeaf s tile ctx a .wr with
  | (s, .error f) => (s, .error f)
  | (s, .ok (leaf, bits)) =>
    if !pteTwin leaf then (s, .ok none) else
    match ensureFace s ctx leaf bits a.toNat with
    | .error f => (s, .error f)
    | .ok s =>
      let off := a.toNat % 2 ^ bits
      let size := 2 ^ ptePeer leaf
      (s, .ok (some (twinObj leaf off, bits, size, a - BitVec.ofNat 64 (off % size))))

/-- The destination's first and last bytes lie in one twin object (R77); a byte that does not translate is given with its failure. -/
def oneTwin (s : State) (tile ctx : Nat) (a : Word) (n : Nat) : State × Except (Fail × Word) (Option (Nat × Nat × Nat × Word)) :=
  let z := a + BitVec.ofNat 64 (n - 1)
  match twinOf s tile ctx a with
  | (s, .error f) => (s, .error (f, a))
  | (s, .ok x) => match twinOf s tile ctx z with
    | (s, .error f) => (s, .error (f, z))
    | (s, .ok y) => (s, .ok (if x.isSome && x = y then x else none))

/-- Copy the cells of `[src, src + n)` over `[dst, dst + n)`. -/
def Memory.copy (m : List Host.Cell) (src dst n : Nat) : List Host.Cell :=
  (m.filter fun c => src ≤ c.1 && c.1 < src + n).foldl (fun m c => Memory.write m (c.1 - src + dst) c.2) (Memory.zero m dst (dst + n))

/-- A tile's clean lines of a face that a publish hides stand on at the new face's places, as lines that an acquire drops (R309). -/
def hideLines (t : Tile) (vis hid size : Nat) : Tile :=
  { t with l1 := t.l1.foldl (fun l kl => if vis ≤ kl.1 && kl.1 < vis + size then Tbl.set l (kl.1 - vis + hid) { kl.2 with old := true }
      else Tbl.set l kl.1 kl.2) [] }

/-- The places of the visible and of the hidden face of an errand's twin object. -/
def twinFaces (s : State) (e : Errand) (o : Nat) : Nat × Nat :=
  let face := faceOf s o
  (o + (if face then 2 ^ e.tbits else 0), o + (if face then 0 else 2 ^ e.tbits))

/-- A dirty line that satisfies `p`, in an L1 or in a scratchpad that backs it, has no way home at this moment (R15, R411). -/
def anyHeld (s : State) (p : Nat → Bool) : Bool :=
  ((knownTiles s).any fun t => drainHeld s t p) ||
  s.mapped.any fun km => p km.1 && spIsDirty s km.2 && (route s (dieOf (placeTile km.2)) (homeDie km.1)).isNone

/-- A publish waits until this device owns both faces and can reach them, and every dirty line of theirs has a way home (R15, R302). -/
def twinReach (s : State) (ag : Agent) (e : Errand) : State × Bool :=
  match e.twin with
  | none => (s, true)
  | some o =>
    let (vis, hid) := twinFaces s e o
    let r := (List.range ((e.tsize + 65535) / 65536)).flatMap fun i => [vis + 65536 * i, hid + 65536 * i]
    let x := r.foldl (fun (acc : State × Bool) k => if elsewhere acc.1 k then (askPage acc.1 ag.tile ag.ctx k acc.1.mover, false)
      else (acc.1, acc.2 && (errReply acc.1 k || pathOpen acc.1 (dieOf ag.tile) k))) (s, true)
    (x.1, x.2 && !anyHeld x.1 fun ln => (vis ≤ ln && ln < vis + e.tsize) || (hid ≤ ln && ln < hid + e.tsize))

/-- Publish a twin destination: bytes outside the destination come from the visible face, then the face bit flips. What a scratchpad holds of either face goes
home first, and it fills the line afresh (R73). No copy or token of the hidden face is left, and a tile keeps its copies of the old face until an acquire
(R309). -/
def publishTwin (s : State) (e : Errand) : State :=
  match e.twin with
  | none => s
  | some o =>
    let (vis, hid) := twinFaces s e o
    let inVis := fun (k : Nat) => decide (vis ≤ k) && decide (k < vis + e.tsize)
    let inHid := fun (k : Nat) => decide (hid ≤ k) && decide (k < hid + e.tsize)
    let s := (List.range (e.tsize / 65536 + 1)).foldl (fun s i => recallToken s (regionOf hid + i)) s
    let s := drainAll (drainAll s vis e.tsize) hid e.tsize
    let s := spReleaseIf s fun k => inVis k || inHid k
    let s := { s with mem := Memory.copy s.mem vis hid e.tsize
                      poison := s.poison.filter fun p => !inHid p.1
                      excl := s.excl.filter fun x => !(inHid x.1 || inVis x.1) }
    let s := (s.poison.filter fun p => inVis p.1).foldl (fun s p => { s with poison := Tbl.set s.poison (p.1 - vis + hid) p.2 }) s
    let s := ((e.hidden.map fun x => lineOf (x.1 - e.tva.toNat + hid)).eraseDups).foldl hbmMoved s
    let s := e.hidden.foldl (fun s x => pokeByte s (x.1 - e.tva.toNat + hid) x.2) s
    let s := dropCopies s (fun _ => true) inHid
    let s := { s with tiles := s.tiles.map fun kt => (kt.1, hideLines kt.2 vis hid e.tsize) }
    match Tbl.find? s.faces o with
    | some f => { s with faces := Tbl.set s.faces o { f with bit := !faceOf s o } }
    | none => s

/-! ### Arrivals -/

/-- The place of a sync word for an engine's arrival; a poisoned word, or one out of reach, fails (R17, R421). -/
def arrivalAt (s : State) (ag : Agent) (syn : Word) : State × Except Bad Nat :=
  match synPlace s ag syn .rw with
  | (s, .error st) => (s, .error (st, syn))
  | (s, .ok k) =>
    if errReply s k then (s, .error (.trap cLINK_ERR 0, syn))
    else if poisoned s k 16 then (s, .error (.trap cPOISON 0, syn)) else (s, .ok k)

/-- An arrival of `n` bytes at a sync word (R79), for an engine. -/
def engArrive (s : State) (ag : Agent) (syn : Word) (n : Nat) : State × Except Bad Unit :=
  match arrivalAt s ag syn with
  | (s, .error b) => (s, .error b)
  | (s, .ok k) => (synWrite s k (synArrive (synRead s k) n), .ok ())

/-- Arrivals of a unit's bytes, 4 KiB at a time. -/
def engArrives (s : State) (ag : Agent) (syn : Word) (n : Nat) : Nat → State × Except Bad Unit
  | 0 => (s, .ok ())
  | fuel + 1 => if n = 0 then (s, .ok ()) else
    match engArrive s ag syn (min n 4096) with
    | (s, .error b) => (s, .error b)
    | (s, .ok ()) => engArrives s ag syn (n - min n 4096) fuel

end Sys2Proof.Machine
end

