-- ==== Sys2Proof/Machine/Engine.lean ====
section
/-!
DEFINITION. Issue of errands (R253, R254, R282, R376 to R378): the engine instructions of both encodings, and `slot.free`.
-/
namespace Sys2Proof.Machine
open Sys2Proof
open Host (Outcome)

/-! ### Operand ranges -/

/-- What an engine instruction asks for; `md` and `imm` as in a C bundle (Tables 11-1, 11-3). -/
structure Ask where
  op    : BitVec 8
  md    : BitVec 12
  imm   : BitVec 44
  a     : Word
  b     : Word
  c     : Word
  ctr   : Word
  syn   : Word
  after : Word
deriving DecidableEq, Repr

/-- A range to check: address, bytes, what it needs, alignment, and whether it must lie in the own scratchpad. -/
structure Rng where
  at_   : Word
  n     : Nat
  need  : Need
  align : Nat
  own   : Bool
deriving DecidableEq, Repr

def engineOf (op : BitVec 8) : Nat :=
  match op.toNat with | 0x90 => 0 | 0x91 => 0 | 0x92 => 4 | 0x93 => 1 | 0x95 => 2 | 0x96 => 3 | _ => 5

/-- Bytes of the own scratchpad as they stand, for the sizes that a descriptor gives. -/
def padBytes (s : State) (tile : Nat) (a : Word) (n : Nat) : List Byte := Memory.readN s.mem (scratchBase tile + a.toNat % 2 ^ 20) n

/-- Fill the lines of the own scratchpad that hold `n` bytes at `a`, where a mapping entry covers them; a fault of a fill is delivered to the issue that reads
there (R73). -/
def padFill (s : State) (ag : Agent) (a : Word) (n : Nat) : State × Except Bad Unit :=
  (List.range ((a.toNat % 128 + n + 127) / 128)).foldl (fun acc i => match acc with
    | (s, .error b) => (s, .error b)
    | (s, .ok ()) => match spFill s ag (scratchBase ag.tile + (a.toNat + 128 * i) % 2 ^ 20) with
      | (s, .error st) => (s, .error (st, a + BitVec.ofNat 64 (128 * i)))
      | (s, .ok ()) => (s, .ok ())) (s, .ok ())

/-- The lines that an issue reads in the own scratchpad: the shape record with `.mine`, and the descriptor of an `rstep` or `coll`, whose sizes it checks (R254,
R259). -/
def issueFill (s : State) (ag : Agent) (q : Ask) : State × Except Bad Unit :=
  match (if q.md.getLsbD 5 && q.op ≠ 0x96 then padFill s ag 0xFF000000000FFFC0 64 else (s, .ok ())) with
  | (s, .error b) => (s, .error b)
  | (s, .ok ()) => if (q.op = 0x92 || q.op = 0x96) && ownPad ag.tile q.c then padFill s ag q.c 32 else (s, .ok ())

/-- K and N of the residency set at a group, 0 where there is none. -/
def setDims (s : State) (tile g : Nat) : Nat × Nat :=
  match getV (s.tile tile).macros none g with | some r => (r.k, r.n) | none => (0, 0)

/-- Index field of a descriptor's bytes. -/
def descField (l : List Byte) (off n : Nat) : Nat := leNat ((l.drop off).take n)

/-- N of an `mmb`: the field, or the largest that fits (R260). -/
def nMax (g wb : Nat) : Nat := (4 - g) * 512 / (if wb = 4 then 1 else wb / 4)
def mmbN (imm : BitVec 44) (wb : Nat) : Nat := if fieldOf imm 28 11 = 0x7FF then nMax (fieldOf imm 18 2) wb else fieldOf imm 28 11 + 1

/-- Effective width class (R256): the bank's under `FMT` 23 or a wider format, else the format's; whether the fallback of Table 05-7 was taken. A bank whose
format has no class gives none, whatever `FMT` says: R32 shuts such elements out of the matrix unit (log 49). -/
def effClass (fmt bankFmt : Nat) : Nat × Bool :=
  let w := wclass bankFmt
  if fmt = 23 || w = 0 then (w, false) else if w < wclass fmt then (w, true) else (wclass fmt, false)

/-- Register of the result bank: the destination's, else bank RBANK of the own tile (R256). -/
def resultReg (s : State) (tile : Nat) (dst : Word) (rbank : Nat) : Word :=
  if isBank dst then bankReg s tile dst else getV (s.tile tile).bfmt 0 rbank

/-- Bytes from a destination to the end of `rows` × `cols` result elements. Outside the banks a slice's rows stand at their positions in a tensor of `dim0`
rows, row by row or column by column, and the scale bytes follow the whole tensor (R68, R256, R259). -/
def destBytes (dst reg : Word) (z : Option Slice) (dim0 rows cols : Nat) : Nat :=
  let k := regFmt reg
  if isBank dst then packedBytes k (rows * cols) else
  match z with
  | none => sideBytes k (regBlen reg) (rows * cols)
  | some z =>
    if z.cnt = 0 || cols = 0 then 0 else
    let row := z.at (z.cnt - 1)
    let last := if reg.getLsbD 19 then (cols - 1) * dim0 + row else row * cols + cols - 1
    if regBlen reg = 0 then packedBytes k (last + 1) else packedBytes k (dim0 * cols) + last / regBlen reg + 1

/-- The operand ranges in operand order, the destination's place among them, and its bytes (R254 step 3). -/
def rangesOf (s : State) (tile rank : Nat) (q : Ask) : List Rng × Option (Word × Nat) :=
  let e : Nat := q.op.toNat
  let mine := q.md.getLsbD 5
  let sh := padBytes s tile 0xFFFC0 64
  let z := sliceOf (descField sh 0 4) (BitVec.ofNat 8 (descField sh 36 1)) rank
  let oz := if mine then some z else none
  let g := fieldOf q.imm 18 2
  let kn := setDims s tile g
  let bankN := fun (a : Word) (n : Nat) => packedBytes (regFmt (bankReg s tile a)) n
  if e = 0x90 then
    let m := if mine then z.cnt else fieldOf q.imm 20 16 + 1
    let dn := destBytes q.b (resultReg s tile q.b (fieldOf q.imm 36 4)) oz (descField sh 0 4) m kn.2
    ([⟨q.a, bankN q.a (m * kn.1), .rd, 16, true⟩, ⟨q.b, dn, .wr, 16, false⟩] ++
      (if q.imm.getLsbD 43 then [⟨q.c, bankN q.c (m * kn.2), .rd, 16, true⟩] else []), some (q.b, dn))
  else if e = 0x91 then
    let k := fieldOf q.imm 20 8 + 1
    let n := mmbN q.imm (effClass (fieldOf q.md 0 5) (regFmt (bankReg s tile q.a))).1
    ([⟨q.a, bankN q.a (k * n), .rd, 16, true⟩], none)
  else if e = 0x92 then
    let d := padBytes s tile q.c 32
    let m := if mine then z.cnt else descField d 26 1 % 64 + 1
    let kn := setDims s tile (descField d 27 1 % 4)
    let dn := destBytes q.b (resultReg s tile q.b (descField d 27 1 / 4 % 16)) oz (descField sh 0 4) m (descField d 24 2)
    ([⟨q.a, bankN q.a (m * kn.1), .rd, 16, true⟩, ⟨q.b, dn, .wr, 16, false⟩, ⟨q.c, 32, .rd, 16, true⟩], some (q.b, dn))
  else if e = 0x93 then
    let row := q.c.toNat
    let len := if mine then z.cnt * row else row
    let rows := if z.cnt = 0 then 0 else z.at (z.cnt - 1) + 1
    let sf := if isBank q.b then regFmt (bankReg s tile q.b) else fieldOf q.md 0 5
    let df := if isBank q.a then regFmt (bankReg s tile q.a) else fieldOf q.md 0 5
    let conv := (isBank q.a || isBank q.b) && (isBank q.a && isBank q.b || fieldOf q.md 0 5 ≠ 23)
    -- the last row of a slice outside the banks lies at its tensor position, counted in elements where elements convert
    let bytes := fun (a : Word) => if mine && !isBank a then rows * row else len
    let dn := if conv then packedBytes df (bytes q.a * 8 / fmtBits sf) else bytes q.a
    ([⟨q.a, dn, .wr, 1, false⟩, ⟨q.b, bytes q.b, .rd, 1, false⟩], some (q.a, dn))
  else if e = 0x95 then
    let esz := 2 ^ fieldOf q.imm 38 4
    let isz := fmtBits (fieldOf q.md 0 5) / 8
    let cnt := if mine then z.cnt else fieldOf q.imm 18 20
    let last := if mine && z.cnt ≠ 0 then z.at (z.cnt - 1) + 1 else cnt
    ([⟨q.a, cnt * esz, .wr, min esz 8, false⟩, ⟨q.c, last * isz, .rd, isz, true⟩], some (q.a, cnt * esz))
  else if e = 0x94 then ([⟨q.a, 64, .rd, 16, true⟩, ⟨q.b, 64, .rd, 16, false⟩], some (q.a, 1))
  else if e = 0x96 then
    let d := padBytes s tile q.c 32
    let r := getV (s.tile tile).bfmt 0 (descField d 16 1 % 16)
    let k := if fieldOf q.md 0 5 = 23 then regFmt r else fieldOf q.md 0 5
    let bl := if fieldOf q.md 0 5 = 23 then regBlen r else 0
    let one := sideBytes k bl (descField d 8 8)
    let all := sideBytes k bl (descField d 4 2 * descField d 8 8)
    let v := fieldOf q.md 5 2
    let dn := if v = 2 then descField d 4 2 * one else one
    ([⟨q.a, dn, .wr, 1, false⟩, ⟨q.b, if v = 1 then all else one, .rd, 1, false⟩, ⟨q.c, 32, .rd, 16, true⟩], some (q.a, dn))
  else if e = 0x98 then ([⟨q.a, 64, .rd, 16, false⟩], none)
  else ([], none)

/-! ### Issue -/

/-- Who issues: tile, context, kernel, rank, allotment, owner, and the identity that orders errands of one thread. -/
structure Issuer where
  tile   : Nat
  ctx    : Nat
  kernel : Nat
  allot  : Nat
  owner  : Owner
  who    : Nat
deriving DecidableEq, Repr

/-- What an issue comes to: the handle, a trap, or a wait for a walk of its destination's page or for the way home of a dirty line that it releases. -/
inductive Issued where
  | hold (s : State)
  | ok (s : State) (h : Word)
  | trap (s : State) (cause : BitVec 6) (addr : Word) (info : Nat)
deriving DecidableEq, Repr

/-- R64 and R62 on every range (R65). -/
def rangeFault (s : State) (ag : Agent) (r : Rng) : Option (BitVec 6 × Word × Nat) :=
  match checkWindow r.at_ (max r.n 1) with
  | .error c => some (c, r.at_, 0)
  | .ok u => match checkAssign s ag u r.at_.toNat r.need with
    | .error (.trap c sub) => some (c, r.at_, sub)
    | _ => none

/-- Alignment and place of a range (Table 11-4). -/
def placeFault (tile : Nat) (r : Rng) : Option (BitVec 6 × Word × Nat) :=
  if r.at_.toNat % r.align ≠ 0 then some (cMISALIGN, r.at_, 0)
  else if r.own && !ownPad tile r.at_ then some (cPAGE_PERM, r.at_, 3) else none

/-- The lowest-numbered free slot of a tile's errand table (R377). -/
def freeSlot (s : State) (tile : Nat) : Option Nat := (List.range 256).find? fun i => (s.errand? tile i).isNone

/-- A `coll` joins its group's first collective that its rank has not joined, or begins one (R271): its kth with the same GROUP. A collective keeps the table
that it was formed with (R337); one that another context has formed is joined only where this context's own table is the same and names it at the rank, so no context
enters a collective of another that its own table does not describe (R318). One whose group or rank the table does not have fails at its start and joins none. -/
def joinColl (s : State) (ctx tile slot : Nat) (d : List Byte) : State :=
  let g := descField d 0 4
  let rank := descField d 6 2
  let me := tile * 256 + slot
  let tbl := Tbl.find? (s.ctx ctx).groups g
  let mine := fun (c : Coll) => c.ctx = ctx || (c.table[rank]? = some { dev := 0xFF, ctx := ctx } && some c.table = tbl)
  match List.find? (fun c : Nat × Coll => c.2.group = g && mine c.2 && rank < c.2.table.length && !(c.2.members.any (·.1 = rank))) s.colls with
  | some (id, c) => { s with colls := Tbl.set s.colls id { c with members := c.members ++ [(rank, me)] } }
  | none =>
    match tbl with
    | none => s
    | some ms =>
      if ms.length ≤ rank then s else
      let (id, s) := s.fresh
      { s with colls := Tbl.set s.colls id { ctx := ctx, group := g, nrank := (ms.filter (·.dev = 0xFF)).length, members := [(rank, me)], failed := false, table := ms } }

/-- The fault record of a slot passes to a context: what another one's errand has left there is zeroed (R318). -/
def ownRecord (s : State) (tile slot ctx : Nat) : State :=
  let s := if (Tbl.find? (s.tile tile).records slot).all (· = ctx) then s
    else zeroRange s (recordAddr tile slot) (recordAddr tile slot + 32)
  s.modTile tile fun t => { t with records := Tbl.set t.records slot ctx }

/-- The steps of R254 after the operands are read. -/
def issueErrand (s : State) (i : Issuer) (q : Ask) : Issued :=
  let ag : Agent := { tile := i.tile, ctx := i.ctx, allot := some i.allot }
  let rank := match (s.tile i.tile).group with | some g => g.rank | none => 0
  let direct := q.md.getLsbD 6 && q.op ≠ 0x96
  match issueFill s ag q with
  | (s, .error (.hold, _)) => .hold s
  | (s, .error (.trap c sub, a)) => .trap s c a sub
  | (s, .ok ()) =>
  let rs := rangesOf s i.tile rank q
  let ctrs : List Rng := if q.md.getLsbD 10 then [⟨q.ctr, 8, .rw, 8, false⟩] else []
  let syns : List Rng := if q.md.getLsbD 11 then [⟨q.syn, 16, .rw, 16, false⟩] else []
  let all := rs.1 ++ ctrs ++ syns
  match all.findSome? (rangeFault s ag) with
  | some x => .trap s x.1 x.2.1 x.2.2
  | none =>
  match all.findSome? (placeFault i.tile) with
  | some x => .trap s x.1 x.2.1 x.2.2
  | none =>
  if !syns.isEmpty && !isBank q.syn then .trap s cPAGE_PERM q.syn 1 else
  let tw : State × Except (BitVec 6) (Option (Fail × Word)) :=
    match rs.2 with
    | none => (s, .ok none)
    | some (d, n) =>
      if direct then (s, .ok none)
      else if q.op = 0x94 || windowOf d.toNat ≠ some .w0 then (s, .error cTWIN_REQUIRED)
      else match oneTwin s i.tile i.ctx d (max n 1) with
        | (s, .error f) => (s, .ok (some f))
        | (s, .ok none) => (s, .error cTWIN_REQUIRED)
        | (s, .ok (some _)) => (s, .ok none)
  match tw with
  | (s, .error c) => .trap s c (match rs.2 with | some d => d.1 | none => 0) 0
  | (s, .ok fail) =>
  if fail.any (·.1 = notYet) || drainHeld s i.tile (fun _ => true) then .hold s else
  let k := fieldOf q.md 0 5
  if (q.op = 0x90 || q.op = 0x91 || q.op = 0x92) && k ≠ 23 && 16 ≤ wclass k && s.dev.service = 1 then .trap s cSERVICE_LEVEL 0 1 else
  match freeSlot s i.tile with
  | none => .trap s cERRAND_FULL 0 (engineOf q.op)
  | some slot =>
  if slotsSpent s i.ctx i.allot then .trap s cERRAND_FULL 0 (engineOf q.op + 8) else
  let serial := Tbl.get (s.ctx i.ctx).serials 0 i.tile + 1
  if 2 ^ 44 ≤ serial then .trap s cERRAND_FULL 0 (engineOf q.op + 16) else
  let s := charge s i.ctx i.allot fun a => { a with mSlots := a.mSlots + 1 }
  let s := s.modCtx i.ctx fun c => { c with serials := Tbl.set c.serials i.tile serial }
  let s := releaseDevice s i.tile
  let (order, s) := s.fresh
  let sh := padBytes s i.tile 0xFFFC0 64
  let e : Errand :=
    { serial := serial, op := q.op, engine := engineOf q.op, st := .issued, ctx := i.ctx, kernel := i.kernel, rank := rank
      allot := i.allot, prio := effPrio (s.ctx i.ctx) i.allot, owner := i.owner, issuer := i.who, order := order, md := q.md, imm := q.imm
      a := q.a, b := q.b, c := q.c, ctr := q.ctr, syn := q.syn, after := q.after
      dim0 := descField sh 0 4, part0 := BitVec.ofNat 8 (descField sh 36 1), regs := [], desc := [], unit := 0, progress := 0, step := 0
      cause := 0, sub := 0, addr := 0, twin := none, tbits := 0, tsize := 0, tva := 0, hidden := [], accs := [], staged := [], frozen := 0
      cancel := none, park := false, stalled := none, stallNs := 0, failAtStart := fail.map (fun x => (x.1.1, x.1.2, x.2)), busy := [], finished := false
      ctab := if q.op = 0x96 then Tbl.find? (s.ctx i.ctx).groups (descField (padBytes s i.tile q.c 32) 0 4) else none
      at_ := i.tile, hkern := i.kernel, warnTo := (match i.owner with | .thread k => some k | _ => none)
      depBad := q.md.getLsbD 7 && (match errandOf s i.ctx q.after with | some x => x.2.2.st = .failed || x.2.2.st = .cancelled | none => false) }
  let s := ownRecord (s.setErrand i.tile slot e) i.tile slot i.ctx
  .ok (if q.op = 0x96 then joinColl s i.ctx i.tile slot (padBytes s i.tile q.c 32) else s) (handleOf i.tile slot e)

/-- An engine bundle: trailing operands, then R254; `D` receives the handle. -/
def engineC (opc : Nat) (f : CForm) (s : State) : Outcome State Fault Refusal :=
  .next <| runC opc f s fun e s =>
    needX s e.k ((trailing opc f).map (·.toNat)) <|
    let t := s.thr e.k
    let tr := fun (used : Bool) (lo : Nat) => if used then t.xr (fieldOf f.imm lo 6) else 0
    let group := opc = 0x94
    let q : Ask := { op := BitVec.ofNat 8 opc, md := f.md, imm := f.imm, a := e.a, b := e.b, c := e.c
                     ctr := tr (f.md.getLsbD 10 && opc ≠ 0x91) 0, syn := tr (f.md.getLsbD 11 && opc ≠ 0x91) 6
                     after := tr (f.md.getLsbD 7 && !group) 12 }
    let md := if opc = 0x91 then q.md &&& 0x09F#12 else if opc = 0x94 then q.md &&& 0xC40#12
      else if opc = 0x98 || opc = 0x99 then 0 else if opc = 0x96 then q.md &&& 0xCFF#12 else q.md
    match issueErrand s { tile := e.tile, ctx := e.ctx, kernel := t.kernel, allot := t.allot, owner := .thread e.k, who := e.k } { q with md := md } with
    | .hold s => .wait s
    | .ok s h => retX e s h
    | .trap s c a i => .trap s c a (BitVec.ofNat 64 i)

/-- An engine word of a block (R282): irrevocable, detached, its handle is sent. -/
def engineG (opc : Nat) (f : GForm) (s : State) (imm : BitVec 44) : Outcome State Fault Refusal :=
  .next <| runG opc f s fun e s =>
    match s.inst? e.inst with
    | none => .wait s
    | some n =>
      if !irrevMayFire s e.inst n e.ix then .wait s else
      let s := (noteStatus s e.a_ 0 (rsvG opc f)).1
      let md : BitVec 12 := BitVec.ofNat 12 (f.fmt + 64 * bitsOf f.xmod 0 1 + 256 * bitsOf f.xmod 1 1 + 32 * bitsOf f.xmod 2 1)
      let q : Ask := { op := BitVec.ofNat 8 opc, md := md, imm := imm, a := e.a, b := e.b, c := e.c, ctr := 0, syn := 0, after := 0 }
      match issueErrand s { tile := e.a_.tile, ctx := e.a_.ctx, kernel := e.a_.kernel, allot := e.a_.allot
                            owner := .group e.a_.kernel e.a_.tile, who := 2 ^ 32 + e.act } q with
      | .hold s => .wait s
      | .ok s h => .send (s.modInst e.inst fun n => { n with irrev := true }) h
      | .trap s c a _ => .fault s c a

/-- `mm`, `mmb`, `rstep` (R260 to R262). -/
def execMm (f : CForm) (s : State) : Outcome State Fault Refusal := engineC 0x90 f s
def execMmb (f : CForm) (s : State) : Outcome State Fault Refusal := engineC 0x91 f s
def execRstep (f : CForm) (s : State) : Outcome State Fault Refusal := engineC 0x92 f s

/-- `cp` (R266, R282). -/
def execCp (f : Form) (s : State) : Outcome State Fault Refusal :=
  match f with
  | .c f => engineC 0x93 f s
  | .g f => engineG 0x93 f s 0

/-- `gath` (R267): in a block COUNT and ESZ come from `IMM[23:0]`. -/
def execGath (f : Form) (s : State) : Outcome State Fault Refusal :=
  match f with
  | .c f => engineC 0x95 f s
  | .g f => engineG 0x95 f s (BitVec.ofNat 44 (fieldOf f.imm 0 20 * 2 ^ 18 + fieldOf f.imm 20 4 * 2 ^ 38))

/-- `cps`, `coll`, `sbind`, `sbar` (R269, R271 to R273). -/
def execCps (f : CForm) (s : State) : Outcome State Fault Refusal := engineC 0x94 f s
def execColl (f : CForm) (s : State) : Outcome State Fault Refusal := engineC 0x96 f s
def execSbind (f : CForm) (s : State) : Outcome State Fault Refusal := engineC 0x98 f s
def execSbar (f : CForm) (s : State) : Outcome State Fault Refusal := engineC 0x99 f s

/-! ### `slot.free` (R270) -/

/-- A freed-slot notice for the `cps` whose ring descriptor lies at `a`, in the scratchpad of the tile that runs it (R386); dropped where it names none, or no
slot or ring of it. -/
def freeNotice (s : State) (tile : Nat) (a b : Word) (ring : Nat) : State :=
  if !isBank a then s else
  let home := bankTile tile a
  let off := a.toNat % 2 ^ 20
  match (allErrands s).find? fun x => x.2.2.op = 0x94 && x.2.2.at_ = home && !x.2.2.st.final && x.2.2.a.toNat % 2 ^ 20 = off with
  | some (table, slot, x) =>
    if descField x.desc 36 1 ≤ b.toNat || descField x.desc 37 1 ≤ ring then s else
    s.modErrand table slot fun e => { e with busy := e.busy.filter (· ≠ ring * 16 + b.toNat) }
  | none => s

def execSlotFree (f : Form) (s : State) : Outcome State Fault Refusal :=
  match f with
  | .c f => .next <| runC 0x97 f s fun e s =>
    if drainHeld s e.tile fun _ => true then .wait s else
    .ok (freeNotice (releaseDevice s e.tile) e.tile e.a e.b (fieldOf f.imm 18 2)) false
  | .g f => .next <| runG 0x97 f s fun e s =>
    match s.inst? e.inst with
    | none => .wait s
    | some n =>
      if !irrevMayFire s e.inst n e.ix || drainHeld s e.a_.tile (fun _ => true) then .wait s else
      let s := freeNotice (releaseDevice s e.a_.tile) e.a_.tile e.a e.b (fieldOf f.imm 0 2)
      .send (s.modInst e.inst fun n => { n with irrev := true }) 0

end Sys2Proof.Machine
end

