-- ==== Sys2Proof/Machine/EngineRun.lean ====
section
/-!
DEFINITION. The work of the engines, one unit at a time (Table 11-5): the matrix contract (R54, R55), the recurrent step (R262 to R264), copies, gathers,
streams and collectives (R57, R266 to R273).
-/
namespace Sys2Proof.Machine
open Sys2Proof

/-- What a unit of work comes to: done, failed, stalled at an address by `PAGE_NOT_PRESENT` (R387), or not possible yet; the errand with what it has done. -/
inductive Did where
  | ok (s : State) (e : Errand)
  | fail (s : State) (e : Errand) (cause : BitVec 6) (sub : Nat) (addr : Word)
  | stall (s : State) (e : Errand) (addr : Word)
  | wait (s : State) (e : Errand)
deriving DecidableEq, Repr

/-- A failed access of the unit. -/
def ofBad (s : State) (e : Errand) (b : Bad) : Did :=
  match b.1 with
  | .trap c sub => if c = cPAGE_NOT_PRESENT then .stall s e b.2 else .fail s e c sub b.2
  | .hold => .wait s e

/-- What the engine has fetched is used up. -/
def dropGot (s : State) (ag : Agent) : State :=
  match ag.errand with
  | some x => s.modErrand x.1 x.2 fun e => { e with got := [] }
  | none => s

/-- A `.direct` `cp` or `gath` with a sync word arrives there at each unit (R266). -/
def unitArrives (e : Errand) : Bool := (e.op = 0x93 || e.op = 0x95) && e.direct && e.hasSyn

/-- Write pending bytes and go on: nothing is written before every byte, and the sync word of the unit's arrival, can be reached. -/
def deliver (s : State) (ag : Agent) (e : Errand) (pend : List (Nat × Byte)) (go : State → Errand → Did) : Did :=
  match mayFlush s ag e pend with
  | (s, .error b) => ofBad s e b
  | (s, .ok ()) =>
    match (if unitArrives e then arrivalAt s ag e.syn else (s, .ok 0)) with
    | (s, .error b) => ofBad s e b
    | (s, .ok _) => match flush s ag e pend with
      | (s, .error b) => ofBad s e b
      | (s, .ok e) => go (dropGot s ag) e

/-- Bytes of a dense result of `n` elements, for the arrival at publish (R258). -/
def resultBytes (e : Errand) (dst : Word) (n : Nat) : Nat :=
  let r := if isBank dst then e.regs.getD 1 0 else e.regs.getD 3 0
  sideBytes (regFmt r) (if isBank dst then 0 else regBlen r) n

/-! ### The matrix contract -/

/-- `align` (R53). -/
def alignTo (w : Nat) (emax : Int) (x : Num) : Int :=
  match x with
  | .fin neg m e => if m = 0 then 0 else
    let r := min (roundShift 0 neg m (emax + 1 - w - e)).1 (2 ^ w - 1)
    if neg then -(r : Int) else r
  | _ => 0

/-- Greatest `expo` of the nonzero values. -/
def emaxOf (l : List Num) : Option Int :=
  l.foldl (fun acc x => if x.isZero || x.isNan || x.isInf then acc else some (match acc with | some a => max a x.expo | none => x.expo)) none

/-- One alignment group's sum, as w42 (R54, R55). -/
def groupSum (wa wb : Nat) (a b : List Num) : Num :=
  if (a ++ b).any Num.isNan then .nan false
  else if (a ++ b).any Num.isInf then
    w42c ((a.zip b).foldl (fun acc p => if p.1.isInf || p.2.isInf then (numAdd 0 acc (numMul p.1 p.2).1).1 else acc) (.fin false 0 0))
  else match emaxOf a, emaxOf b with
    | some ea, some eb =>
      let t := (a.zip b).foldl (fun acc p => acc + alignTo wa ea p.1 * alignTo wb eb p.2) 0
      w42c (.fin (t < 0) t.natAbs (ea - wa + 1 + (eb - wb + 1)))
    | _, _ => .fin false 0 0

/-- A sum in w42; a zero result is +0. -/
def accPlus (x y : Num) : Num :=
  match w42c (numAdd 0 x y).1 with
  | .fin _ 0 _ => .fin false 0 0
  | v => v

/-- Rows of A for one group of k, then the accumulators after it. -/
def matGroup (s : State) (ag : Agent) (ra : Side) (set : ResSet) (wa m g : Nat) (accs : List (BitVec 42)) : State × Except Bad (List (BitVec 42)) :=
  let ks := (List.range (min 32 (set.k - 32 * g))).map (32 * g + ·)
  match readElems s ag ra ((List.range m).flatMap fun i => ks.map fun k => ra.ix m set.k i k) with
  | (s, .error b) => (s, .error b)
  | (s, .ok xs) =>
    let col := fun (j : Nat) => ks.map fun k => w42n (set.cells.getD (k * set.n + j) 0)
    (s, .ok ((List.range (m * set.n)).map fun x =>
      let i := x / set.n
      let a := (xs.drop (i * ks.length)).take ks.length
      w42p (accPlus (w42n (accs.getD x 0)) (groupSum wa set.wb a (col (x % set.n))))))

/-- The side of a result of `rows` × `cols` elements, its row count for the storage order, and the row that row `i` of the work writes (R256, R259). -/
def resultSide (e : Errand) (dst : Word) (rows cols : Nat) : Side × Nat × (Nat → Nat) :=
  if isBank dst then (bankSide dst (e.regs.getD 1 0), rows, id)
  else
    let r := if e.mine then e.dim0 else rows
    (flatSide dst (e.regs.getD 3 0) (r * cols), r, fun i => if e.mine then e.slice.at i else i)

/-- Result elements put, with zero padding after a dense destination. -/
def putResult (s : State) (ag : Agent) (e : Errand) (dst : Word) (rows cols : Nat) (vals : List (Nat × Nat × Num)) : State × Except Bad (List (Nat × Byte)) :=
  let d := resultSide e dst rows cols
  match putElems s ag e [] d.1 (vals.map fun v => (d.1.ix d.2.1 cols (d.2.2 v.1) v.2.1, v.2.2)) with
  | (s, .error b) => (s, .error b)
  | (s, .ok p) =>
    -- outside the banks the final partial byte belongs to the slice that holds the tensor's last row
    let z := e.slice
    let ends := z.cnt ≠ 0 && z.at (z.cnt - 1) + 1 = e.dim0
    if e.mine && !isBank dst then (if ends then putPad s ag e p d.1 (e.dim0 * cols) else (s, .ok p))
    else putPad s ag e p d.1 (d.1.i0 + rows * cols)

def setOf (s : State) (tile g : Nat) : Option ResSet :=
  match getV (s.tile tile).macros none g with | some r => if r.valid then some r else none | none => none

/-- `mm`: one alignment group; after the last, C is added and the result converted (R54, R261). -/
def unitMm (s : State) (ag : Agent) (e : Errand) : Did :=
  match setOf s ag.tile (fieldOf e.imm 18 2) with
  | none => .fail s e cDEP_FAILED 0 0
  | some set =>
    let m := if e.mine then e.slice.cnt else fieldOf e.imm 20 16 + 1
    let ra := bankSide e.a (e.regs.getD 0 0)
    let wa := (effClass e.fmt ra.k).1
    let last := set.k ≤ 32 * (e.unit + 1)
    match matGroup s ag ra set wa m e.unit e.accs with
    | (s, .error b) => ofBad s e b
    | (s, .ok accs) =>
      let e := { e with accs := accs }
      if !last then .ok s { e with unit := e.unit + 1, progress := e.unit + 1 } else
      let rc := bankSide e.c (e.regs.getD 2 0)
      let cs := if e.imm.getLsbD 43 then readElems s ag rc ((List.range (m * set.n)).map fun x => rc.ix m set.n (x / set.n) (x % set.n))
        else (s, .ok [])
      match cs with
      | (s, .error b) => ofBad s e b
      | (s, .ok cv) =>
        let vals := (List.range (m * set.n)).map fun x =>
          (x / set.n, x % set.n, let v := w42n (accs.getD x 0); match cv[x]? with | some c => accPlus v c | none => v)
        match putResult s ag e e.b m set.n vals with
        | (s, .error b) => ofBad s e b
        | (s, .ok p) => deliver s ag e p fun s e =>
          .ok s { e with unit := e.unit + 1, progress := e.unit + 1, total := resultBytes e e.b (m * set.n), finished := true }

/-- `mmb`: 32 rows of B (R260). -/
def unitMmb (s : State) (ag : Agent) (e : Errand) : Did :=
  let k := fieldOf e.imm 20 8 + 1
  let rb := bankSide e.a (e.regs.getD 0 0)
  let n := mmbN e.imm (effClass e.fmt rb.k).1
  let ks := (List.range (min 32 (k - 32 * e.unit))).map (32 * e.unit + ·)
  match readElems s ag rb (ks.flatMap fun i => (List.range n).map fun j => rb.ix k n i j) with
  | (s, .error b) => ofBad s e b
  | (s, .ok xs) => .ok s { e with accs := e.accs ++ xs.map w42p, unit := e.unit + 1, progress := e.unit + 1, finished := k ≤ 32 * (e.unit + 1) }

/-! ### The recurrent step (R262 to R264) -/

/-- Micro-operations that run: those before the first with OPC 0. -/
def progOf (d : List Byte) : List Nat := ((List.range 8).map fun j => descField d (8 + 2 * j) 2).takeWhile fun o => o % 16 ≠ 0

/-- `sigm` and `tanh` rounded to w42. -/
def gateFn (opc : Nat) (x : Num) : Num :=
  match specialExact opc x with
  | some r => w42c r.1
  | none => match x with | .fin neg m e => w42c (specialTrue opc neg m e) | v => v

/-- Result of a micro-operation (Table 11-7). -/
def microVal (o : Nat) (s1 s2 s3 : Num) : Num :=
  match o with
  | 1 => gateFn 0x37 s1
  | 2 => gateFn 0x36 s1
  | 3 => if s1.isNan then s1 else if s1.neg? || s1.isZero then .fin false 0 0 else s1
  | 4 => s1
  | 5 => w42c (numMul s1 s2).1
  | 6 => w42c (numAdd 0 s1 s2).1
  | _ => w42c (numAdd 0 (numMul s3 s1).1 (numMul (numAdd 0 (.fin false 1 0) s3.negate).1 s2).1).1

/-- The program on one element: eight operands and the compensation term. -/
def runProg (comp : Bool) (gs : Nat) : List Nat → List Num → Num → List Num × Num
  | [], r, c => (r, c)
  | o :: os, r, c =>
    let src := fun (lo : Nat) => let i := bitsOf o lo 3; if gs ≤ i && i < 4 then Num.fin false 0 0 else r.getD i (.fin false 0 0)
    let dst := bitsOf o 4 3
    let upd := fun (v : Num) => r.mapIdx fun i x => if i = dst then v else x
    if comp && o % 16 = 6 && dst = 4 && bitsOf o 7 3 = 4 then
      let h := src 7
      let y := w42c (numAdd 0 (src 10) c.negate).1
      let t := w42c (numAdd 0 h y).1
      let c' := w42c (numAdd 0 (w42c (numAdd 0 t h.negate).1) y.negate).1
      runProg comp gs os (upd t) c'
    else runProg comp gs os (upd (microVal (o % 16) (src 7) (src 10) (src 13))) (if dst = 4 then .fin false 0 0 else c)

/-- All groups of k at once: the pre-activations z. -/
def matAll (s : State) (ag : Agent) (ra : Side) (set : ResSet) (wa m g : Nat) (accs : List (BitVec 42)) : Nat → State × Except Bad (List (BitVec 42))
  | 0 => (s, .ok accs)
  | n + 1 => match matGroup s ag ra set wa m g accs with
    | (s, .error b) => (s, .error b)
    | (s, .ok a) => matAll s ag ra set wa m (g + 1) a n

def rstepM (e : Errand) : Nat := if e.mine then e.slice.cnt else descField e.desc 26 1 % 64 + 1

/-- `rstep`: the whole step. Without `.comp` a reset row leaves the compensation term of its entry + 2,048 as it was: R58 has the term only with `.comp`
(log 108). -/
def unitRstep (s : State) (ag : Agent) (e : Errand) : Did :=
  let d := e.desc
  let h := descField d 24 2
  let gs := descField d 26 1 / 64 + 1
  let base := descField d 28 2
  let m := rstepM e
  match setOf s ag.tile (descField d 27 1 % 4) with
  | none => .fail s e cDEP_FAILED 0 0
  | some set =>
    let ra := bankSide e.a (e.regs.getD 0 0)
    match matAll s ag ra set (effClass e.fmt ra.k).1 m 0 [] ((set.k + 31) / 32) with
    | (s, .error b) => ofBad s e b
    | (s, .ok z) =>
      let t := s.tile ag.tile
      let zero := Num.fin false 0 0
      let rows := (List.range m).map fun i =>
        let mask := (descField d 0 8 >>> (2 * i)) % 4
        let frz := t.frozen.getLsbD (base + i * h)
        let run := mask = 1 || (mask = 0 && !frz)
        let els := (List.range h).map fun x =>
          let ent := base + i * h + x
          let h0 := if mask = 1 then zero else w42n (Tbl.get t.carried 0 ent)
          let c0 := if mask = 1 || !e.comp then zero else w42n (Tbl.get t.carried 0 (ent + 2048))
          if !run then (h0, c0) else
          let zs := (List.range 4).map fun q => if q < gs then w42n (z.getD (i * set.n + q * h + x) 0) else zero
          let r := runProg e.comp gs (progOf d) (zs ++ [h0, zero, zero, zero]) c0
          (r.1.getD 4 zero, r.2)
        (i, mask, run, els)
      let outs := (rows.filter fun r => r.2.2.1 || r.2.1 = 3).flatMap fun r => r.2.2.2.mapIdx fun x v => (r.1, x, v.1)
      let staged := (rows.filter fun r => r.2.2.1).flatMap fun r => (r.2.2.2.mapIdx fun x v =>
        (base + r.1 * h + x, w42p v.1) :: (if e.comp then [(base + r.1 * h + x + 2048, w42p v.2)] else [])).flatten
      let bits := fun (mask : Nat) => rows.foldl (fun f r => if r.2.1 = mask then f ||| (1#4096 <<< (base + r.1 * h)) else f) (0#4096)
      match putResult s ag e e.b m h outs with
      | (s, .error b) => ofBad s e b
      | (s, .ok p) => deliver s ag e p fun s e =>
        .ok s { e with accs := z, staged := staged, frozen := bits 3, thawed := bits 1, unit := 1, progress := 1, finished := true }

/-! ### `cp` and `gath` -/

/-- Address of byte `t` of a side of a `cp`: rows at their tensor positions outside the banks (R259, R266). -/
def rowAddr (e : Errand) (a : Word) (row t : Nat) : Word :=
  if e.mine && !isBank a && row ≠ 0 then a + BitVec.ofNat 64 (e.slice.at (t / row) * row + t % row) else a + BitVec.ofNat 64 t

/-- Read bytes `t` to `t + n − 1` of the source. -/
def readLin (s : State) (ag : Agent) (e : Errand) (a : Word) (row t : Nat) : Nat → State × Except Bad (List Byte)
  | 0 => (s, .ok [])
  | n + 1 => match readRange s ag (rowAddr e a row t) 1 with
    | (s, .error b) => (s, .error b)
    | (s, .ok x) => match readLin s ag e a row (t + 1) n with
      | (s, .error b) => (s, .error b)
      | (s, .ok r) => (s, .ok (x ++ r))

/-- Arrivals of a unit of a `.direct` destination with a sync word. -/
def unitArrive (s : State) (ag : Agent) (e : Errand) (n : Nat) (go : State → Did) : Did :=
  if e.direct && e.hasSyn then
    match engArrives s ag e.syn n (n / 4096 + 1) with
    | (s, .error b) => ofBad s e b
    | (s, .ok ()) => go s
  else go s

/-- How a `cp` moves its bytes: unchanged, or element by element between two sides (R70, R266). -/
inductive CpMode where
  | raw
  | conv (src dst : Side) (w42 : Bool) (same : Bool)
deriving DecidableEq, Repr

def cpLen (e : Errand) : Nat := if e.mine then e.slice.cnt * e.c.toNat else e.c.toNat

def cpMode (e : Errand) : CpMode :=
  let ra := e.regs.getD 0 0
  let rb := e.regs.getD 1 0
  let len := cpLen e
  match isBank e.b, isBank e.a with
  | true, true =>
    let same := regFmt ra = regFmt rb && ra.getLsbD 12 = rb.getLsbD 12 && fieldOf ra 13 2 = fieldOf rb 13 2 && ra.getLsbD 19 = rb.getLsbD 19
    if same && regBlen ra = 0 then .raw else .conv (bankSide e.b rb) ((bankSide e.a ra).from (bankSide e.b rb)) true same
  | true, false => if e.fmt = 23 then .raw
    else .conv (bankSide e.b rb) ((plainSide e.a e.fmt (len * 8 / fmtBits (regFmt rb))).from (bankSide e.b rb)) true false
  | false, true => if e.fmt = 23 then .raw else let src := plainSide e.b e.fmt (len * 8 / fmtBits e.fmt)
    .conv src ((bankSide e.a ra).from src) false false
  | false, false => .raw

/-- Index of element `j` of the transfer on a side whose rows hold `nr` elements. -/
def cpIx (e : Errand) (a : Word) (d : Side) (nr j : Nat) : Nat :=
  d.i0 + if e.mine && !isBank a && nr ≠ 0 then e.slice.at (j / nr) * nr + j % nr else j

/-- Put whole blocks of a same-layout copy unchanged, code by code with the scale byte (R70). A scale byte that would lie beyond the bank is dropped, as where
a block is written (log 102). -/
def putSame (s : State) (ag : Agent) (e : Errand) (src dst : Side) (pend : List (Nat × Byte)) : List (Nat × Nat) → State × Except Bad (List (Nat × Byte))
  | [] => (s, .ok pend)
  | (i, j) :: r =>
    match readCode s ag src i with
    | (s, .error b) => (s, .error b)
    | (s, .ok (c, sc)) =>
      match putCode s ag e pend dst j c with
      | (s, .error b) => (s, .error b)
      | (s, .ok p) =>
        let b := dst.soff + j / dst.blen
        match (if dst.lim ≠ 0 && dst.lim ≤ b then (s, .ok p) else putBits s ag e p (dst.base + BitVec.ofNat 64 b) 0 8 (sc.getD 0) 2) with
        | (s, .error b) => (s, .error b)
        | (s, .ok p) => putSame s ag e src dst p r

/-- The first element that the chunk `u` of a destination begins with, among `total`: the first that begins in that 4 KiB, and, in a scaled bank, begins a block,
so that no block is written in two parts. An element that a chunk's end cuts is written with the chunk in which it begins. -/
def chunkFrom (dst : Side) (total u : Nat) : Nat :=
  let j := (32768 * u + fmtBits dst.k - 1) / fmtBits dst.k
  min total (if dst.blen = 0 || u = 0 then j else (dst.i0 + j + dst.blen - 1) / dst.blen * dst.blen - dst.i0)

/-- A length that is no whole number of source elements fails (R266); so does a row of a slice that lies among other rows in W0, where an element would be split
(log 113). -/
def cpMisfit (e : Errand) (ws : Nat) : Bool :=
  cpLen e * 8 % ws ≠ 0 || (e.mine && !(isBank e.a && isBank e.b) && e.c.toNat * 8 % ws ≠ 0)

/-- `cp`: one 4 KiB chunk of destination (R266). Blocks of equal layouts that lie differently in their blocks are decoded and encoded by R51 (R70; log 129). -/
def unitCp (s : State) (ag : Agent) (e : Errand) : Did :=
  let len := cpLen e
  let row := e.c.toNat
  if len = 0 then .ok s { e with finished := true } else
  match cpMode e with
  | .raw =>
    -- bank to bank, elements convert, so the length counts whole ones
    if isBank e.a && isBank e.b && cpMisfit e (fmtBits (regFmt (e.regs.getD 1 0))) then .fail s e cMISALIGN 0 0 else
    let t := 4096 * e.unit
    let n := min 4096 (len - t)
    match readLin s ag e e.b row t n with
    | (s, .error b) => ofBad s e b
    | (s, .ok bs) =>
      let pend := (bs.zipIdx).foldl (fun p x => Tbl.set p (rowAddr e e.a row (t + x.2)).toNat x.1) []
      deliver s ag e pend fun s e => unitArrive s ag e n fun s =>
        .ok s { e with unit := e.unit + 1, progress := t + n, finished := len ≤ t + n }
  | .conv src dst viaW same =>
    let ws := fmtBits src.k
    if cpMisfit e ws then .fail s e cMISALIGN 0 0 else
    let total := len * 8 / ws
    let nr := row * 8 / ws
    let lo := chunkFrom dst total e.unit
    let hi := chunkFrom dst total (e.unit + 1)
    let js := (List.range (hi - lo)).map (lo + ·)
    let ix := fun (j : Nat) => (cpIx e e.b src nr j, cpIx e e.a dst nr j)
    -- blocks that a same-layout copy writes whole, from a source block of the same alignment, move unchanged
    let whole := fun (b : Nat) => same && src.blen = dst.blen && dst.blen ≠ 0 && src.i0 % dst.blen = dst.i0 % dst.blen &&
      decide (dst.i0 ≤ b * dst.blen && (b + 1) * dst.blen ≤ dst.i0 + total)
    let moved := (js.map ix).filter fun p => dst.blen ≠ 0 && whole (p.2 / dst.blen)
    let coded := (js.map ix).filter fun p => !(dst.blen ≠ 0 && whole (p.2 / dst.blen))
    -- a copy between equal layouts sets no warning (R70)
    let quiet := if same then { ag with warnTo := none } else ag
    let size := packedBytes dst.k total
    let done := min size (4096 * (e.unit + 1))
    match readVals s quiet src (coded.map (·.1)) with
    | (s, .error b) => ofBad s e b
    | (s, .ok vs) =>
      let vs := if viaW then vs.map w42c else vs
      match putSame s quiet e src dst [] moved with
      | (s, .error b) => ofBad s e b
      | (s, .ok p) => match putElems s quiet e p dst ((coded.map (·.2)).zip vs) with
        | (s, .error b) => ofBad s e b
        | (s, .ok p) => deliver s ag e p fun s e => unitArrive s ag e (done - 4096 * e.unit) fun s =>
          .ok s { e with unit := e.unit + 1, progress := done, finished := size ≤ done }

/-- One element of a `gath`: its index, then its bytes (R267). -/
def gathElem (s : State) (ag : Agent) (e : Errand) (j : Nat) : State × Except Bad (List Byte) :=
  let isz := fmtBits e.fmt / 8
  let esz := 2 ^ fieldOf e.imm 38 4
  let pos := if e.mine then e.slice.at j else j
  match readRange s ag (e.c + BitVec.ofNat 64 (pos * isz)) isz with
  | (s, .error b) => (s, .error b)
  | (s, .ok bs) =>
    let ea := e.b + BitVec.ofNat 64 (extendTo 64 e.fmt (leNat bs)) * BitVec.ofNat 64 esz
    match resolve s ag ea esz 1 .rd with
    | (s, .error st) => (s, .error (st, ea))
    | (s, .ok _) => match readRange s ag ea esz with
      | (s, .error (st, _)) => (s, .error (st, ea))
      | (s, .ok d) => (s, .ok d)

/-- Elements of a `gath` from `j`, each written as it is fetched. -/
def gathFrom (s : State) (ag : Agent) (e : Errand) (j : Nat) : Nat → Did
  | 0 => .ok s e
  | n + 1 =>
    let esz := 2 ^ fieldOf e.imm 38 4
    match gathElem s ag e j with
    | (s, .error b) => ofBad s e b
    | (s, .ok bs) =>
      deliver s ag e ((bs.zipIdx).foldl (fun p x => Tbl.set p (e.a + BitVec.ofNat 64 (j * esz + x.2)).toNat x.1) []) fun s e =>
        gathFrom s ag { e with progress := j + 1 } (j + 1) n

/-- `gath`: one 4 KiB of destination. -/
def unitGath (s : State) (ag : Agent) (e : Errand) : Did :=
  let cnt := if e.mine then e.slice.cnt else fieldOf e.imm 18 20
  let esz := 2 ^ fieldOf e.imm 38 4
  let per := max 1 (4096 / esz)
  let hi := min cnt (per * (e.unit + 1))
  match gathFrom s ag e e.progress (hi - e.progress) with
  | .ok s e => unitArrive s ag e ((hi - per * e.unit) * esz) fun s =>
      .ok s { e with unit := e.unit + 1, finished := cnt ≤ hi }
  | r => r

/-! ### Streams (R268, R269, R272, R273) -/

def patEsize (d : List Byte) : Nat := 2 ^ (descField d 8 1 % 4)
def patCnt (d : List Byte) (i : Nat) : Nat := max 1 (descField d (12 + 4 * i) 4)
def patTotal (d : List Byte) : Nat := patCnt d 0 * patCnt d 1 * patCnt d 2
/-- Address of pattern element `n`. -/
def patAddr (d : List Byte) (n : Nat) : Word :=
  let i0 := n % patCnt d 0
  let i1 := n / patCnt d 0 % patCnt d 1
  let i2 := n / (patCnt d 0 * patCnt d 1)
  let st := fun (i : Nat) => BitVec.ofNat 64 (descField d (24 + 8 * i) 8)
  BitVec.ofNat 64 (descField d 0 8) + BitVec.ofNat 64 i0 * st 0 + BitVec.ofNat 64 i1 * st 1 + BitVec.ofNat 64 i2 * st 2
/-- Reserved bytes of a pattern descriptor are zero (R268). -/
def patOk (d : List Byte) : Bool :=
  descField d 8 1 < 4 && descField d 9 1 < 2 && descField d 10 2 = 0 && descField d 48 16 = 0
/-- Bytes of element `n`: its data, or in index mode its address. -/
def patElem (s : State) (ag : Agent) (d : List Byte) (n : Nat) : State × Except Bad (List Byte) :=
  let a := patAddr d n
  if descField d 9 1 = 1 then (s, .ok (bytesOf (patEsize d) a)) else
  match resolve s ag a (patEsize d) 1 .rd with
  | (s, .error st) => (s, .error (st, a))
  | (s, .ok _) => readRange s ag a (patEsize d)
def patElems (s : State) (ag : Agent) (d : List Byte) (i : Nat) : Nat → State × Except Bad (List Byte)
  | 0 => (s, .ok [])
  | n + 1 => match patElem s ag d i with
    | (s, .error b) => (s, .error b)
    | (s, .ok x) => match patElems s ag d (i + 1) n with
      | (s, .error b) => (s, .error b)
      | (s, .ok r) => (s, .ok (x ++ r))

/-- Do something for each of a list of rings, until one fails. -/
def eachRing (rs : List Nat) (s : State) (f : State → Nat → State × Except Bad Unit) : State × Except Bad Unit :=
  rs.foldl (fun acc r => match acc with
    | (s, .error b) => (s, .error b)
    | (s, .ok ()) => f s r) (s, .ok ())

/-- `cps`: the next 4 KiB of the current stream tile into its slot of every ring (R269). A tile begins once its slot is free in all of them, and makes its
arrivals when its last bytes are written. -/
def unitCps (s : State) (ag : Agent) (e : Errand) : Did :=
  let ring := e.desc.take 64
  let pat := e.desc.drop 64
  let slotb := descField ring 32 4
  let nslot := descField ring 36 1
  let rings := List.range (descField ring 37 1)
  let total := patTotal pat * patEsize pat
  let lo := e.progress
  let off := lo % slotb
  let n := min 4096 (min (slotb - off) (total - lo))
  let slot := lo / slotb % nslot
  let ends := off + n = slotb || lo + n = total
  if off = 0 && rings.any (fun r => e.busy.contains (r * 16 + slot)) then .wait s e else
  match patElems s ag pat (lo / patEsize pat) (n / patEsize pat) with
  | (s, .error b) => ofBad s e b
  | (s, .ok bs) =>
    -- every ring is written, and every sync word found, before any arrival is made
    let syn := fun (r : Nat) => if r = 0 then (if e.hasSyn then e.syn else 0) else BitVec.ofNat 64 (descField ring (32 + 8 * r) 8)
    let told := rings.filter fun r => ends && syn r ≠ 0
    let write := fun (s : State) (r : Nat) => writeRange s ag (BitVec.ofNat 64 (descField ring (8 * r) 8 + slot * slotb + off)) bs
    let found := fun (s : State) (r : Nat) => match arrivalAt s ag (syn r) with
      | (s, .error b) => (s, Except.error b)
      | (s, .ok _) => (s, .ok ())
    let go : State × Except Bad Unit := match eachRing rings s write with
      | (s, .error b) => (s, .error b)
      | (s, .ok ()) => match eachRing told s found with
        | (s, .error b) => (s, .error b)
        | (s, .ok ()) => eachRing told s fun s r => engArrive s ag (syn r) (off + n)
    match go with
    | (s, .error b) => ofBad s e b
    | (s, .ok ()) =>
      .ok (dropGot s ag) { e with unit := e.unit + 1, progress := lo + n, finished := total ≤ lo + n
                                  busy := if off = 0 then e.busy ++ rings.map (· * 16 + slot) else e.busy }

/-- Stream tokens that a port has emitted and nothing has consumed: in transit to the bound instruction or waiting in its slot. -/
def portPending (s : State) (port : Nat) (p : Port) : Nat :=
  match p.inst with
  | none => 0
  | some i => match s.inst? i with
    | none => 0
    | some n =>
      let bs := n.block.words.zipIdx.filterMap fun w => match binding w.1 with | some b => if b.2 = port then some (w.2, b.1) else none | none => none
      (bs.map fun b => ((n.slot b.1 b.2).filter (·.strm)).length +
        (s.transit.filter fun x => x.inst = i && x.node = b.1 && x.slot = b.2 && x.tok.strm).length).foldl (· + ·) 0

/-- The elements of a bound port that have been consumed, by the errand that binds it on a tile. -/
def sbindUsed (s : State) (tile home slot : Nat) : Option Nat :=
  ((s.tile tile).ports.toList.zipIdx.find? fun p => p.1.bound = some (home * 256 + slot)).map fun p => p.1.elem - portPending s p.2 p.1

/-- `sbind`: counts the elements consumed; done when the final one has been (R272). -/
def unitSbind (s : State) (ag : Agent) (home slot : Nat) (e : Errand) : Did :=
  match sbindUsed s ag.tile home slot with
  | none => .wait s e
  | some used =>
    .ok s { e with progress := used, step := used, finished := decide (patTotal e.desc ≤ used) }

/-- `sbar`: done when every earlier stream errand of its group is final (R273). -/
def unitSbar (s : State) (e : Errand) : Did :=
  if (allErrands s).any fun x => x.2.2.engine = 5 && x.2.2.at_ = e.at_ && x.2.2.hkern = e.hkern && x.2.2.rank = e.rank && x.2.2.order < e.order && !x.2.2.st.final
  then .wait s e else .ok s { e with finished := true }

/-! ### Collectives (R57, R271) -/

/-- Variant, staging format register, effective format and block length of a `coll`. -/
def collFmt (e : Errand) : Nat × Nat :=
  let r := e.regs.getD 3 0
  if e.fmt = 23 then (regFmt r, regBlen r) else (e.fmt, 0)
def collSide (e : Errand) (a : Word) (n : Nat) : Side :=
  let f := collFmt e
  let r := e.regs.getD 3 0
  { base := a, k := f.1, blen := f.2, soff := packedBytes f.1 n, lim := 0, i0 := 0, n := n, maj := false, rm := regRnd r, sat := r.getLsbD 18
    odd := e.fmt = 23 && regOdd r }

/-- The reduction over ranks of one element (R57). A scaled integer element enters the 64-bit sum as the integer nearest to its value, half-even, and
one that decodes as NaN, under a NaN scale byte, enters as 0: both are left open by the spec (log 101). -/
def reduceVals (k : Nat) (vs : List Num) : Num :=
  match vs with
  | [] => .fin false 0 0
  | v :: r =>
    if isIntFmt k then
      Num.ofInt (sextInt 64 (lowBits 64 (r.foldl (fun acc x => acc + x.toInt) v.toInt)))
    else if k = 15 then r.foldl (fun acc x => (valueOf 15 (roundBin 15 0 false false (numAdd 0 acc x).1).pat).1) v
    else r.foldl (fun acc x => w42c (numAdd 0 acc (w42c x)).1) (w42c v)

/-- Source bytes of a member: COUNT elements, every rank's for `.redsc`, and for `.bcast` the ROOT's alone (Table 11-12). -/
def collSrcLen (e : Errand) : Nat :=
  let f := collFmt e
  let cnt := descField e.desc 8 8
  match fieldOf e.md 5 2 with
  | 1 => sideBytes f.1 f.2 (descField e.desc 4 2 * cnt)
  | 3 => if descField e.desc 6 2 = descField e.desc 18 2 then sideBytes f.1 f.2 cnt else 0
  | _ => sideBytes f.1 f.2 cnt

/-- What a rank has contributed: a local member's bytes, or those of a peer device's, which are free (log 103). -/
def collPart (id : Nat) (c : Coll) (ms : List Member) (e : Errand) (r : Nat) : Option (List Byte) :=
  match ms[r]? with
  | some m => if m.dev = 0xFF then Tbl.find? c.src r
      else some ((List.range (collSrcLen { e with desc := e.desc.take 6 ++ natLe 2 r ++ e.desc.drop 8 })).map (Config.collPeer id r))
  | none => none

/-- A member's contribution: its source, read once (R271, R307). -/
def contribute (s : State) (ag : Agent) (e : Errand) (id : Nat) (c : Coll) : Did :=
  match readRange s ag e.b (collSrcLen e) with
  | (s, .error b) => ofBad s e b
  | (s, .ok bs) =>
    let var := fieldOf e.md 5 2
    let n := if var = 1 then descField e.desc 4 2 * descField e.desc 8 8 else descField e.desc 8 8
    let d := collSide e 0 n
    let s := if var < 2 && (List.range n).any (fun i => readWarns d i (codeIn bs d i).1) then warnFmt s ag else s
    .ok { s with colls := Tbl.set s.colls id { c with src := Tbl.set c.src (descField e.desc 6 2) bs } } { e with unit := 1 }

/-- What a collective delivers to a member, from every rank's contribution (Table 11-12). -/
def collResult (s : State) (ag : Agent) (e : Errand) (parts : List (List Byte)) : State × Except Bad (List (Nat × Byte)) :=
  let cnt := descField e.desc 8 8
  let f := collFmt e
  let var := fieldOf e.md 5 2
  let raw := fun (bs : List Byte) => (s, Except.ok ((bs.zipIdx).foldl (fun p x => Tbl.set p (e.a + BitVec.ofNat 64 x.2).toNat x.1) []))
  if var = 2 then raw parts.flatten
  else if var = 3 then raw (parts.getD (descField e.desc 18 2) [])
  else
    let n := if var = 1 then descField e.desc 4 2 * cnt else cnt
    let off := if var = 1 then descField e.desc 6 2 * cnt else 0
    let d := collSide e 0 n
    let val := fun (bs : List Byte) (i : Nat) => let c := codeIn bs d (off + i); codeValue d.k c.1 c.2
    putElems s ag e [] { collSide e e.a cnt with isrc := isIntFmt f.1 } ((List.range cnt).map fun i => (i, reduceVals f.1 (parts.map (val · i))))

/-- The member passes what it has on to the next rank, over Mirfer where that is on a peer device; none while no link to it is UP (R411, R413). -/
def passOn (s : State) (id : Nat) (ms : List Member) (rank step : Nat) : Option State :=
  match ms[(rank + 1) % ms.length]? with
  | none => some s
  | some m => if m.dev = 0xFF then some s else (peerLink s m.dev).map fun n => sendFlit s s.mover n 4 (Config.collPayload id step s.tick)

/-- `coll`, one ring step at a time: the member contributes, then passes each rank's contribution in turn once it is there, and has its result at the last
(R57, R271). A peer that is not usable fails it (R338). -/
def unitColl (s : State) (ag : Agent) (e : Errand) (id : Nat) (c : Coll) (ms : List Member) : Did :=
  let nr := descField e.desc 4 2
  if e.unit = 0 then contribute s ag e id c
  else if ms.any (fun m => m.dev ≠ 0xFF && !peerUsable s m.dev) then .fail s e cLINK_ERR 0 0
  else if (collPart id c ms e (e.unit - 1)).isNone then .wait s e
  else if e.unit < nr then
    match passOn s id ms (descField e.desc 6 2) e.unit with
    | none => .wait s e
    | some s => .ok s { e with unit := e.unit + 1, step := e.unit, progress := e.unit }
  else if ms.any (·.dev ≠ 0xFF) && Config.collPeerFails s.tick then .fail s e cDEP_FAILED 0 0
  else
    match collResult s ag e ((List.range nr).map fun r => (collPart id c ms e r).getD []) with
    | (s, .error b) => ofBad s e b
    | (s, .ok p) => deliver s ag e p fun s e => .ok s { e with unit := nr + 1, step := nr, progress := nr, finished := true }

end Sys2Proof.Machine
end

