-- ==== Sys2Proof/Machine/EngineEvents.lean ====
section
/-!
DEFINITION. The life of an errand (Table 18-2): queued, started, worked on unit by unit, parked, resumed, published, stalled and replayed (R256 to R258, R271 to
R273, R380 to R387).
-/
namespace Sys2Proof.Machine
open Sys2Proof
open Host (Outcome)

/-! ### Where an errand runs -/

/-- The agent of an errand's accesses, on the tile whose engines, TLB and scratchpad it uses: the one where it was issued, or where a restore has taken it
(R307, R379, R386). -/
def errAgent (tile slot : Nat) (e : Errand) : Agent := { tile := e.at_, ctx := e.ctx, warnTo := e.warnTo, allot := some e.allot, errand := some (tile, slot) }

/-- The tile's engines work for the errand: it is on a tile where its context runs (R28, R30). -/
def errRuns (s : State) (e : Errand) : Bool := e.at_ < 512 && runsOn s e.at_ e.ctx

/-- Residency of the group that holds a tile. -/
def tileResid (s : State) (tile : Nat) : Resid := match (s.tile tile).group with | some g => g.resid | none => .resident

/-- Pre-emption of the group on its tile would park the errand (R385): an attached one always, another one where PARK lies on its path. -/
def parks (s : State) (e : Errand) : Bool := match e.owner with | .thread _ => true | _ => allotPark s e.ctx e.allot

/-- It would not park at once, nor run before the acquires of its restored group (R308, R322, R385). -/
def errResident (s : State) (e : Errand) : Bool :=
  match tileResid s e.at_ with | .resident => true | .restoring => false | _ => !parks s e

/-- The bytes that the errand has fetched, as the table holds them. -/
def withGot (s : State) (tile slot : Nat) (e : Errand) : Errand := { e with got := match s.errand? tile slot with | some x => x.got | none => [] }

/-- Make an errand final as it now stands. -/
def endErrand (s : State) (tile slot : Nat) (e : Errand) (st : EState) (cause : BitVec 6) (sub : Nat) (addr : Word) : State :=
  finalize (s.setErrand tile slot e) tile slot st cause (BitVec.ofNat 8 sub) addr

/-! ### Start -/

/-- Engines that run one after another: matrix and recurrent share one (Table 11-5). -/
def engineGroup (n : Nat) : Nat := if n = 4 then 0 else n
def engineCap (n : Nat) : Nat := match engineGroup n with | 0 => 1 | 1 => 8 | 2 => 8 | 3 => 4 | _ => 16

def isUnstarted (e : Errand) : Bool := e.st = .issued || e.st = .waiting

/-- `after` of an errand: met, failed, or still open (R257, R274). -/
def afterState (s : State) (e : Errand) : Option Bool :=
  if !e.hasAfter then some true else
  if e.depBad then some false else
  match errandOf s e.ctx e.after with
  | none => some true
  | some (_, _, x) => match x.st with
    | .done => some true
    | .failed | .cancelled => some false
    | _ => none

/-- The twin object of the destination, at the start. -/
def destOf (e : Errand) : Option Word :=
  match e.op.toNat with
  | 0x90 => some e.b | 0x92 => some e.b | 0x93 => some e.a | 0x95 => some e.a | 0x96 => some e.a | _ => none
def wantsTwin (e : Errand) : Bool := (destOf e).isSome && (!e.direct || e.op = 0x96)

/-- Every other errand of the device. -/
def otherErrands (s : State) (tile slot : Nat) : List Errand := ((allErrands s).filter fun x => (x.1, x.2.1) ≠ (tile, slot)).map (·.2.2)

/-- Fewer errands than the capacity run on the errand's engine (Table 11-5). -/
def engineFree (s : State) (tile slot : Nat) (e : Errand) : Bool :=
  ((otherErrands s tile slot).filter fun x => x.at_ = e.at_ && engineGroup x.engine = engineGroup e.engine &&
    (x.st = .running || x.st = .publishing)).length < engineCap e.engine

/-- The conditions of R382, the twin object apart. An `sbar` that is not DONE holds later stream errands while it has its slot, a cancelled one too (log 114). -/
def mayRun (s : State) (tile slot : Nat) (e : Errand) : Bool :=
  e.st = .waiting && afterState s e = some true && errRuns s e &&
  !((otherErrands s tile slot).any fun x => x.issuer = e.issuer && x.engine = e.engine && x.order < e.order && isUnstarted x) &&
  !(e.engine = 5 && (otherErrands s tile slot).any fun x => x.op = 0x99 && x.at_ = e.at_ && x.order < e.order && x.st ≠ .done) &&
  engineFree s tile slot e &&
  !ecycSpent s e.ctx e.allot && !energySpent s e.ctx e.allot && mayStart s (dieOf e.at_) (kernClass s e.kernel) && errResident s e

/-- Some other live errand holds the twin object. -/
def twinHeld (s : State) (tile slot o : Nat) : Bool := (otherErrands s tile slot).any fun x => x.twin = some o && !x.st.final

/-- An earlier errand of the same thread, to whichever engine, that has not started wants the same twin object (R76). -/
def twinAhead (s : State) (e : Errand) (o : Nat) : Bool :=
  (allErrands s).any fun x => x.2.2.issuer = e.issuer && x.2.2.order < e.order && isUnstarted x.2.2 && wantsTwin x.2.2 && (match destOf x.2.2 with
    | some d => (match (twinOf s x.2.2.at_ x.2.2.ctx d).2 with | .ok (some t) => t.1 = o | _ => false)
    | none => false)

/-- What an errand's destination comes to at its start: no twin object, one that it takes, one that another holds, a walk to wait for, or a failed translation. -/
inductive TwinAt where
  | none
  | take (o bits size : Nat) (va : Word)
  | held
  | wait
  | bad (f : Fail) (a : Word)
deriving DecidableEq, Repr

/-- The twin object of a destination as its errand may take it (R76, R382). -/
def twinAt (s : State) (tile slot : Nat) (e : Errand) : State × TwinAt :=
  match (if wantsTwin e then destOf e else none) with
  | none => (s, .none)
  | some d =>
    match twinOf s e.at_ e.ctx d with
    | (s, .error f) => (s, if f = notYet then .wait else .bad f d)
    | (s, .ok none) => (s, .none)
    | (s, .ok (some (o, bits, size, va))) => (s, if twinHeld s tile slot o || twinAhead s e o then .held else .take o bits size va)

/-- An errand goes before another at the same engine (R257). -/
def goesFirst (x e : Errand) : Bool := e.prio < x.prio || (x.prio = e.prio && x.order < e.order)

/-- The descriptor an errand reads at its start: where, and how many bytes of each. -/
def descAt (e : Errand) : List (Word × Nat) :=
  match e.op.toNat with
  | 0x92 => [(e.c, 32)] | 0x94 => [(e.a, 64), (e.b, 64)] | 0x96 => [(e.c, 32)] | 0x98 => [(e.a, 64)] | _ => []
def readDesc (s : State) (ag : Agent) : List (Word × Nat) → State × Except Bad (List Byte)
  | [] => (s, .ok [])
  | (a, n) :: r => match readRange s ag a n with
    | (s, .error b) => (s, .error b)
    | (s, .ok x) => match readDesc s ag r with
      | (s, .error b) => (s, .error b)
      | (s, .ok y) => (s, .ok (x ++ y))

/-- Failure of a start check: cause, sub-code, address; none where it passes. -/
abbrev StartBad := Option (BitVec 6 × Nat × Word)

def illegalStart : StartBad := some (cILLEGAL_OPC, 0, 0)

/-- The class checks of R256: a bank whose format has none under `FMT` 23, or a class that the service level does not offer. -/
def classBad (s : State) (e : Errand) : StartBad :=
  let w := (effClass e.fmt (regFmt (e.regs.getD 0 0))).1
  if w = 0 then illegalStart else if 16 ≤ w && s.dev.service = 1 then some (cSERVICE_LEVEL, 0, 0) else none

/-- Groups a valid residency set occupies, from its first. -/
def setRange (s : State) (tile : Nat) : List (Nat × Nat) :=
  (s.tile tile).macros.toList.zipIdx.filterMap fun x => match x.1 with | some r => if r.valid then some (x.2, r.groups) else none | none => none

def mmbGroups (n wb : Nat) : Nat := (n * (if wb = 4 then 1 else wb / 4) + 511) / 512

/-- The member entries of an errand's collective: as they stood when it was formed, or when the errand issued (R337). -/
def collTable (s : State) (home slot : Nat) (e : Errand) : Option (List Member) :=
  match collOf s home slot with
  | some (_, c) => some c.table
  | none => e.ctab

/-- Start checks of each errand (R256, R260 to R262, R268, R269, R271, R337, R338), on the sampled registers and the descriptor read. -/
def startBad (s : State) (home slot : Nat) (e : Errand) : StartBad :=
  let d := e.desc
  let tile := e.at_
  match e.op.toNat with
  | 0x90 => match setOf s tile (fieldOf e.imm 18 2) with
    | none => some (cDEP_FAILED, 0, 0)
    | some _ => classBad s e
  | 0x91 =>
    match classBad s e with
    | some b => some b
    | none =>
      let g := fieldOf e.imm 18 2
      let wb := (effClass e.fmt (regFmt (e.regs.getD 0 0))).1
      let n := mmbN e.imm wb
      let c := mmbGroups n wb
      if nMax g wb < n || (setRange s tile).any fun x => x.1 < g + c && g < x.1 + x.2 && !(g ≤ x.1 && x.1 + x.2 ≤ g + c) then illegalStart else none
  | 0x92 =>
    match setOf s tile (descField d 27 1 % 4) with
    | none => some (cDEP_FAILED, 0, 0)
    | some set =>
      let h := descField d 24 2
      let m := rstepM e
      if h = 0 || 4096 < h || 32 < m || set.n ≠ (descField d 26 1 / 64 + 1) * h ||
          (if e.comp then 2048 else 4096) < descField d 28 2 + m * h || descField d 30 2 ≠ 0 || 64 ≤ descField d 27 1 ||
          (progOf d).any (fun o => 8 ≤ o % 16) then illegalStart
      else classBad s e
  | 0x94 =>
    let slotb := descField d 32 4
    if !patOk (d.drop 64) || descField d 38 2 ≠ 0 || slotb = 0 || slotb % 128 ≠ 0 || 262144 < slotb || descField d 36 1 = 0 || 16 < descField d 36 1 ||
      descField d 37 1 = 0 || 4 < descField d 37 1 then illegalStart else none
  | 0x98 => if patOk d then none else illegalStart
  | 0x96 =>
    let nr := descField d 4 2
    match collTable s home slot e with
    | none => some (cPAGE_PERM, 4, 0)
    | some ms =>
      let rank := descField d 6 2
      if 16 ≤ descField d 16 1 || descField d 17 1 ≠ 0 || (d.drop 20).any (· ≠ 0) || nr = 0 || ms.length ≠ nr ||
        (match ms[rank]? with | some m => m.dev ≠ 0xFF || m.ctx ≠ e.ctx | none => true) ||
        (fieldOf e.md 5 2 = 3 && nr ≤ descField d 18 2) || 24 ≤ (collFmt e).1 then illegalStart
      else if s.dev.service = 1 && ms.any (·.dev ≠ 0xFF) then some (cSERVICE_LEVEL, 0, 0)
      else if ms.any (fun m => m.dev ≠ 0xFF && !peerUsable s m.dev) then some (cLINK_ERR, 0, 0) else none
  | _ => none

/-- Whether two members of a collective agree (R271). -/
def collAgree (x e : Errand) : Bool :=
  descField x.desc 4 2 = descField e.desc 4 2 && descField x.desc 8 8 = descField e.desc 8 8 && fieldOf x.md 5 2 = fieldOf e.md 5 2 && collFmt x = collFmt e

/-- The members of its collective that have started agree with an errand (R271). -/
def collFits (s : State) (home slot : Nat) (e : Errand) : Bool :=
  match collOf s home slot with
  | some (_, c) => c.members.all fun m => m.2 = home * 256 + slot || (match s.errand? (m.2 / 256) (m.2 % 256) with
      | some x => x.desc.isEmpty || collAgree x e
      | none => true)
  | none => false

/-- Set up an errand that begins to run, with its slot in its home tile's table: port, invalidated macro groups, collective. -/
def beginRun (s : State) (home slot : Nat) (e : Errand) : State × Bool :=
  let tile := e.at_
  match e.op.toNat with
  | 0x91 =>
    let g := fieldOf e.imm 18 2
    let wb := (effClass e.fmt (regFmt (e.regs.getD 0 0))).1
    let c := mmbGroups (mmbN e.imm wb) wb
    (s.modTile tile fun t => { t with macros := t.macros.mapIdx fun i r => match r with
      | some r => if i < g + c && g < i + r.groups then some { r with valid := false } else some r
      | none => none }, true)
  | 0x96 => (s, collFits s home slot e)
  | 0x98 => (s.modTile tile fun t => { t with ports := t.ports.mapIdx fun i p => if i = fieldOf e.imm 18 4 then
      { bound := some (home * 256 + slot), pat := BitVec.ofNat 512 (leNat e.desc), elem := 0, start := 0, inst := none } else p }, true)
  | _ => (s, true)

/-- The class fallback of Table 05-7 warns the issuing thread or the adopter when the errand starts, where the bank's class is known (R69, R101, R256). R99
counts the warnings of its table as the decoder's; the moment is the model's choice, so `WCLS` does not meet the warning trap of R100 (log 104). -/
def warnClass (s : State) (e : Errand) : State :=
  if (e.op = 0x90 || e.op = 0x91 || e.op = 0x92) && (effClass e.fmt (regFmt (e.regs.getD 0 0))).2 then
    match e.warnTo with
    | some k => s.modThr k fun t => { t with warn := t.warn ||| wWCLS }
    | none => s
  else s

/-- The errand's descriptor is still to be read. -/
def needsDesc (e : Errand) : Bool := e.desc.isEmpty && !(descAt e).isEmpty && !e.idle

/-- An errand that has left WAITING, with its registers sampled (its three operand banks', then all sixteen of its tile) and its twin object held, reads its
descriptor and is checked; a descriptor that stalls is read again by a replay (R69, R382, R387). An empty slice reads nothing (R259). -/
def goStart (s : State) (tile slot : Nat) (e : Errand) : State :=
  let fail := fun (s : State) (e : Errand) (c : BitVec 6) (sub : Nat) (a : Word) => endErrand s tile slot e .failed c sub a
  if e.idle then s.setErrand tile slot e else
  match readDesc s (errAgent tile slot e) (descAt e) with
  | (s, .error (.trap c sub, a)) =>
    if c = cPAGE_NOT_PRESENT then
      s.setErrand tile slot { withGot s tile slot e with stalled := some a, stallNs := if e.stalled = some a then e.stallNs else s.dev.hubNs }
    else fail s e c sub a
  | (s, .error (.hold, _)) => s.setErrand tile slot (withGot s tile slot e)
  | (s, .ok d) =>
    let rb := match e.op.toNat with
      | 0x90 => fieldOf e.imm 36 4 | 0x92 => descField d 27 1 / 4 % 16 | 0x96 => descField d 16 1 % 16 | _ => 0
    let e := { e with regs := e.regs.take 3 ++ [e.regs.getD (3 + rb) 0], desc := d, got := [], stalled := none }
    match startBad s tile slot e with
    | some (c, sub, a) => fail s e c sub a
    | none =>
      match beginRun ((warnClass s e).setErrand tile slot e) tile slot e with
      | (s, true) => s
      | (s, false) => fail s e cILLEGAL_OPC 0 0

/-- The errand leaves WAITING: the format registers are sampled, once (R69), and it holds its twin object; a member of a failed collective fails (R271). -/
def startErrand (s : State) (tile slot : Nat) (e : Errand) (t : TwinAt) : State :=
  let regs := [bankReg s e.at_ e.a, bankReg s e.at_ e.b, bankReg s e.at_ e.c] ++ (s.tile e.at_).bfmt.toList
  let e := { e with st := .running, stalled := none, regs := regs }
  let e := match t with | .take o bits size va => { e with twin := some o, tbits := bits, tsize := size, tva := va, twinNs := s.dev.hubNs } | _ => e
  if (match collOf s tile slot with | some (_, c) => c.failed | none => false) then endErrand s tile slot e .failed cDEP_FAILED 0 0
  else goStart (s.setErrand tile slot e) tile slot e

/-- `ERRAND_QUEUED`: the engine queue takes the errand. -/
def execErrandQueued (tile slot : Nat) (s : State) : Outcome State Fault Refusal :=
  .next <| s.modErrand tile slot fun e => if e.st = .issued then { e with st := .waiting } else e

/-- A port that another errand binds keeps an `sbind` waiting (R272). -/
def portBusy (s : State) (tile slot : Nat) (e : Errand) : Bool :=
  e.op = 0x98 && (match (getV (s.tile e.at_).ports Port.reset (fieldOf e.imm 18 4)).bound with
    | some b => b ≠ tile * 256 + slot | none => false)

/-- The errand is ready (R257): its conditions hold, and its twin object, if it wants one, is its to take. -/
def errReady (s : State) (tile slot : Nat) (e : Errand) : Bool :=
  mayRun s tile slot e && !portBusy s tile slot e && (match (twinAt s tile slot e).2 with | .none => true | .take _ _ _ _ => true | _ => false)

/-- `ERRAND_START` (R257, R382): the engine starts the errand if it is ready and goes first. One whose destination did not translate at its issue fails (R254); one
whose destination does not translate now stays WAITING, for 1 ms at most (R387). -/
def execErrandStart (tile slot : Nat) (s : State) : Outcome State Fault Refusal :=
  .next <| match s.errand? tile slot with
  | none => s
  | some e =>
    if e.st = .waiting && afterState s e = some false then endErrand s tile slot e .cancelled cDEP_FAILED 0 0
    else if !mayRun s tile slot e || portBusy s tile slot e then s
    else match e.failAtStart with
    | some f => endErrand s tile slot e .failed f.1 f.2.1 f.2.2
    | none =>
      match twinAt s tile slot e with
      | (s, .wait) => s
      | (s, .held) => s.setErrand tile slot { e with stalled := none }
      | (s, .bad f a) =>
        if f.1 = cPAGE_NOT_PRESENT then s.setErrand tile slot { e with stalled := some a, stallNs := if e.stalled = some a then e.stallNs else s.dev.hubNs }
        else endErrand s tile slot e .failed f.1 f.2 a
      | (s, t) =>
        let ahead := fun (x : Nat × Nat × Errand) => (x.1, x.2.1) ≠ (tile, slot) && x.2.2.at_ = e.at_ && engineGroup x.2.2.engine = engineGroup e.engine &&
          goesFirst x.2.2 e && errReady s x.1 x.2.1 x.2.2
        if (allErrands s).any ahead then s else startErrand s tile slot e t

/-! ### Units of work -/

/-- The next unit of a running errand, whose descriptor has been read. -/
def doUnit (s : State) (tile slot : Nat) (e : Errand) : Did :=
  let ag := errAgent tile slot e
  if e.idle then .ok s { e with finished := true } else
  match e.op.toNat with
  | 0x90 => unitMm s ag e
  | 0x91 => unitMmb s ag e
  | 0x92 => unitRstep s ag e
  | 0x93 => unitCp s ag e
  | 0x94 => unitCps s ag e
  | 0x95 => unitGath s ag e
  | 0x96 => match collOf s tile slot with
    | some (id, c) => unitColl s ag e id c c.table
    | none => .wait s e
  | 0x98 => unitSbind s ag tile slot e
  | _ => unitSbar s e

/-- The amounts a unit of work costs the allotment (R370; log 15). -/
def chargeUnit (s : State) (e : Errand) : State :=
  charge s e.ctx e.allot fun a => { a.work s.tick with mEcyc := a.mEcyc + Config.unitCycles s.tick }

/-- `ERRAND_CHUNK_DONE`: a running errand completes a unit of its work (R266, Table 11-5). A spent meter, a pending cancel or park, or a stall keeps it
at its pre-emption point. -/
def execErrandChunkDone (tile slot : Nat) (s : State) : Outcome State Fault Refusal :=
  .next <| match s.errand? tile slot with
  | none => s
  | some e =>
    if e.st ≠ .running || !errRuns s e || e.finished || e.cancel.isSome || e.park || e.stalled.isSome || ecycSpent s e.ctx e.allot ||
      energySpent s e.ctx e.allot then s
    else if needsDesc e then goStart s tile slot e else
    match doUnit s tile slot e with
    | .ok s e => chargeUnit (s.setErrand tile slot { e with got := [] }) e
    | .wait s e => s.setErrand tile slot (withGot s tile slot e)
    | _ => s

/-- `ERRAND_PREEMPTION_POINT` (R385): a pending cancel, then a pending park. -/
def execErrandPreemptionPoint (tile slot : Nat) (s : State) : Outcome State Fault Refusal :=
  .next <| match s.errand? tile slot with
  | none => s
  | some e =>
    if e.st ≠ .running then s else
    -- an `sbind` counts the elements consumed so far (Table 11-15)
    let e := match (if e.op = 0x98 then sbindUsed s e.at_ tile slot else none) with
      | some u => { e with progress := u, step := u }
      | none => e
    match e.cancel with
    | some c => endErrand s tile slot e .cancelled c 0 0
    | none => if e.park then s.setErrand tile slot { e with st := .parked, park := false } else s

/-- `ERRAND_RESUME`: a parked errand runs again once its group is RESIDENT, or PARK no longer applies to it. -/
def execErrandResume (tile slot : Nat) (s : State) : Outcome State Fault Refusal :=
  .next <| match s.errand? tile slot with
  | none => s
  | some e =>
    if e.st = .parked && errResident s e && errRuns s e && engineFree s tile slot e then s.setErrand tile slot { e with st := .running } else s

/-! ### Publishing (R258) -/

/-- Bytes of the destination, for the arrival at publish. -/
def destTotal (e : Errand) : Nat :=
  if e.idle then 0 else
  match e.op.toNat with
  | 0x90 => e.total
  | 0x92 => resultBytes e e.b (rstepM e * descField e.desc 24 2)
  | 0x93 => match cpMode e with
    | .raw => cpLen e
    | .conv src dst _ _ => packedBytes dst.k (cpLen e * 8 / fmtBits src.k)
  | 0x95 => (if e.mine then e.slice.cnt else fieldOf e.imm 18 20) * 2 ^ fieldOf e.imm 38 4
  | 0x96 =>
    let f := collFmt e
    let one := sideBytes f.1 f.2 (descField e.desc 8 8)
    if fieldOf e.md 5 2 = 2 then descField e.desc 4 2 * one else one
  | _ => 0

/-- What enters the tile at PUBLISHING: an `mmb`'s set becomes valid, an `rstep`'s staged state enters the carried-state buffer, an `sbind` ends. -/
def publishTile (s : State) (home slot : Nat) (e : Errand) : State :=
  let tile := e.at_
  if e.idle then s else
  match e.op.toNat with
  | 0x91 =>
    let g := fieldOf e.imm 18 2
    let wb := (effClass e.fmt (regFmt (e.regs.getD 0 0))).1
    let n := mmbN e.imm wb
    let set : ResSet := { k := fieldOf e.imm 20 8 + 1, n := n, wb := wb, groups := mmbGroups n wb, cells := e.accs, valid := true }
    s.modTile tile fun t => { t with macros := putV t.macros g (some set) }
  | 0x92 => s.modTile tile fun t =>
    { t with carried := e.staged.foldl (fun c x => Tbl.set c x.1 x.2) t.carried, frozen := (t.frozen &&& ~~~e.thawed) ||| e.frozen }
  | 0x98 => endPort s home slot
  | _ => s

/-- Every local rank of its collective has finished its work and can still be published (R271). -/
def collReady (s : State) (tile slot : Nat) (e : Errand) : Bool :=
  e.op ≠ 0x96 || (match collOf s tile slot with
    | none => false
    | some (_, c) => !c.failed && c.members.length = c.nrank && c.members.all fun m => match s.errand? (m.2 / 256) (m.2 % 256) with
      | some x => x.st = .running && x.finished && x.cancel.isNone
      | none => false)

/-- The errand enters PUBLISHING, where nothing cancels it any more (R278), and with it every member of its collective (R271). -/
def enterPublish (s : State) (tile slot : Nat) (e : Errand) : State :=
  match (if e.op = 0x96 then collOf s tile slot else none) with
  | none => s.setErrand tile slot { e with st := .publishing }
  | some (id, c) =>
    let s := { s with colls := Tbl.set s.colls id { c with ready := true } }
    c.members.foldl (fun s m => s.modErrand (m.2 / 256) (m.2 % 256) fun x => { x with st := .publishing }) s

/-- Drop collectives all of whose members are final. -/
def dropColls (s : State) : State :=
  { s with colls := s.colls.filter fun c => !(c.2.members.length = c.2.nrank && c.2.members.all fun m => match s.errand? (m.2 / 256) (m.2 % 256) with
    | some x => x.st.final
    | none => true) }

/-- The counter's place. A peer's word is no page to bring here: at system scope the add executes at its owner (R80, R81). A poisoned word, or one out of
reach, fails (R17, R421). -/
def counterAt (s : State) (ag : Agent) (ea : Word) : State × Except Bad Nat :=
  match resolveAt false s ag ea 8 8 .rw with
  | (s, .error st) => (s, .error (st, ea))
  | (s, .ok k) => match (if isPeer k then (s, .ok ()) else ownCheck s ag k) with
    | (s, .error st) => (s, .error (st, ea))
    | (s, .ok ()) =>
      if errReply s k then (s, .error (.trap cLINK_ERR 0, ea))
      else if isPeer k && peerHeld s k 3 then (s, .error (.hold, ea))
      else if poisoned s k 8 then (s, .error (.trap cPOISON 0, ea)) else (s, .ok k)

/-- The counter's add, a release at device scope, or at system scope in host or peer memory (R80, R258). -/
def counterAdd (s : State) (tile k : Nat) : State :=
  if isPeer k && elsewhere s k then peerAtomic s tile k 3 else ctrApply s tile k 1 false 3 (if isHost k || isPeer k then 3 else 2)

/-- Steps 1 to 5 of R258, of an errand in PUBLISHING. They wait for a page that another device owns, and for a way home of what they write back. -/
def publish (s : State) (tile slot : Nat) (e : Errand) : State :=
  let ag := { errAgent tile slot e with errand := none }
  let fail := fun (s : State) (b : Bad) => match b.1 with
    | .trap c sub => dropColls (endErrand s tile slot e .failed c sub b.2)
    | .hold => s
  let ctr : State × Except Bad (Option Nat) := if e.hasCtr then (match counterAt s ag e.ctr with | (s, .error b) => (s, Except.error b) | (s, .ok k) => (s, .ok (some k))) else (s, .ok none)
  match ctr with
  | (s, .error b) => fail s b
  | (s, .ok kc) =>
    let syn : State × Except Bad Unit := if e.hasSyn then (match arrivalAt s ag e.syn with | (s, .error b) => (s, Except.error b) | (s, .ok _) => (s, .ok ())) else (s, .ok ())
    match syn with
    | (s, .error b) => fail s b
    | (s, .ok ()) =>
      match twinReach s ag e with
      | (s, false) => s
      | (s, true) =>
        if kc.isSome && drainHeld s ag.tile (fun _ => true) then s else
        let s := publishTile (publishTwin s e) tile slot e
        let s := match kc with
          | some k => counterAdd s ag.tile k
          | none => s
        let late := (e.op = 0x93 || e.op = 0x95 || e.op = 0x94) && e.direct
        let s := if e.hasSyn && !late then (engArrive s ag e.syn (destTotal e)).1 else s
        dropColls (endErrand s tile slot e .done 0 0 0)

/-- `ERRAND_PUBLISH`: an errand whose work is finished and whose `.ord` condition is met enters PUBLISHING, and completes. Where its
context may not run, one in PUBLISHING still completes for a pre-emption that waits for it (R312). -/
def execErrandPublish (tile slot : Nat) (s : State) : Outcome State Fault Refusal :=
  .next <| match s.errand? tile slot with
  | none => s
  | some e =>
    let earlier := (otherErrands s tile slot).any fun x => x.issuer = e.issuer && x.engine = e.engine && x.order < e.order && !x.st.final
    if !errRuns s e && !(e.st = .publishing && tileResid s e.at_ = .preempting) then s
    else if e.st = .publishing then publish s tile slot e
    else if e.st ≠ .running || !e.finished || e.cancel.isSome || (e.ordb && earlier) || !collReady s tile slot e then s
    else publish (enterPublish s tile slot e) tile slot { e with st := .publishing }

/-! ### Operand-fetch faults (R387) -/

/-- `OPERAND_FETCH_FAULT`: the running errand's next unit meets a fault: a stall for `PAGE_NOT_PRESENT`, else FAILED. -/
def execOperandFetchFault (tile slot : Nat) (s : State) : Outcome State Fault Refusal :=
  .next <| match s.errand? tile slot with
  | none => s
  | some e =>
    if e.st ≠ .running || !errRuns s e || e.finished || e.stalled.isSome || needsDesc e then s else
    match doUnit s tile slot e with
    | .stall s e a => s.setErrand tile slot { withGot s tile slot e with stalled := some a, stallNs := s.dev.hubNs }
    | .fail s e c sub a => endErrand s tile slot e .failed c sub a
    | _ => s

/-- `FETCH_REPLAY`: the access is tried again; a success, or a fault of another kind, ends the stall. What has been fetched is not fetched again. -/
def execFetchReplay (tile slot : Nat) (s : State) : Outcome State Fault Refusal :=
  .next <| match s.errand? tile slot with
  | none => s
  | some e =>
    match e.stalled with
    | none => s
    | some at_ =>
      if e.st ≠ .running || !errRuns s e then s
      else if needsDesc e then goStart s tile slot e
      else match doUnit s tile slot { e with stalled := none } with
      | .stall s e a => s.setErrand tile slot { withGot s tile slot e with stalled := some a, stallNs := if a = at_ then e.stallNs else s.dev.hubNs }
      | .fail s e c sub a => endErrand s tile slot e .failed c sub a
      | .ok _ _ => s.setErrand tile slot { e with stalled := none }
      | .wait s e => s.setErrand tile slot { withGot s tile slot e with stalled := some at_ }

/-- `REPLAY_TIMEOUT`: no replay has succeeded for 1 ms. -/
def execReplayTimeout (tile slot : Nat) (s : State) : Outcome State Fault Refusal :=
  .next <| match s.errand? tile slot with
  | none => s
  | some e => match e.stalled with
    | some a => if (e.st = .running || e.st = .waiting) && e.stallNs + 1000000 ≤ s.dev.hubNs then endErrand s tile slot e .failed cPAGE_NOT_PRESENT 0 a else s
    | none => s

end Sys2Proof.Machine
end

