-- ==== Sys2Proof/Machine/Sha.lean ====
section
/-!
DEFINITION. SHA-256 of FIPS 180-4 on byte lists (R323).
-/
namespace Sys2Proof.Machine
open Sys2Proof

namespace Sha

/-- The words of a 256-bit number, its most significant first. -/
def wordsOf (v : BitVec 256) : List (BitVec 32) := (List.range 8).map fun i => v.extractLsb' (32 * (7 - i)) 32

/-- The 64 round constants, eight to a row. -/
def consts : List (BitVec 32) :=
  wordsOf 0x428a2f9871374491b5c0fbcfe9b5dba53956c25b59f111f1923f82a4ab1c5ed5 ++
  wordsOf 0xd807aa9812835b01243185be550c7dc372be5d7480deb1fe9bdc06a7c19bf174 ++
  wordsOf 0xe49b69c1efbe47860fc19dc6240ca1cc2de92c6f4a7484aa5cb0a9dc76f988da ++
  wordsOf 0x983e5152a831c66db00327c8bf597fc7c6e00bf3d5a7914706ca635114292967 ++
  wordsOf 0x27b70a852e1b21384d2c6dfc53380d13650a7354766a0abb81c2c92e92722c85 ++
  wordsOf 0xa2bfe8a1a81a664bc24b8b70c76c51a3d192e819d6990624f40e3585106aa070 ++
  wordsOf 0x19a4c1161e376c082748774c34b0bcb5391c0cb34ed8aa4a5b9cca4f682e6ff3 ++
  wordsOf 0x748f82ee78a5636f84c878148cc7020890befffaa4506cebbef9a3f7c67178f2

/-- The eight working values. -/
structure Hash where
  a : BitVec 32
  b : BitVec 32
  c : BitVec 32
  d : BitVec 32
  e : BitVec 32
  f : BitVec 32
  g : BitVec 32
  h : BitVec 32

def Hash.of (v : BitVec 256) : Hash :=
  let w := fun (i : Nat) => (wordsOf v).getD i 0
  { a := w 0, b := w 1, c := w 2, d := w 3, e := w 4, f := w 5, g := w 6, h := w 7 }

def init : Hash := Hash.of 0x6a09e667bb67ae853c6ef372a54ff53a510e527f9b05688c1f83d9ab5be0cd19

/-- The exclusive or of a word's rotations by each amount. -/
def spin (x : BitVec 32) (l : List Nat) : BitVec 32 := l.foldl (fun v n => v ^^^ x.rotateRight n) 0

/-- One round with its constant and schedule word. -/
def round (s : Hash) (kw : BitVec 32 × BitVec 32) : Hash :=
  let t1 := s.h + spin s.e [6, 11, 25] + ((s.e &&& s.f) ^^^ (~~~s.e &&& s.g)) + kw.1 + kw.2
  let t2 := spin s.a [2, 13, 22] + ((s.a &&& s.b) ^^^ (s.a &&& s.c) ^^^ (s.b &&& s.c))
  { a := t1 + t2, b := s.a, c := s.b, d := s.c, e := s.d + t1, f := s.e, g := s.f, h := s.g }

/-- A word's rotations and its shift, as the schedule mixes them. -/
def mix (x : BitVec 32) (l : List Nat) (n : Nat) : BitVec 32 := spin x l ^^^ (x >>> n)

/-- The message schedule: 16 words, extended `n` times (the newest first in `w`). -/
def extend (w : List (BitVec 32)) : Nat → List (BitVec 32)
  | 0 => w
  | n + 1 => extend ((mix (w.getD 1 0) [17, 19] 10 + w.getD 6 0 + mix (w.getD 14 0) [7, 18] 3 + w.getD 15 0) :: w) n

/-- Big-endian words of a byte list. -/
def words : List Byte → List (BitVec 32)
  | a :: b :: c :: d :: r => (a ++ b ++ c ++ d) :: words r
  | _ => []

def block (s : Hash) (bs : List Byte) : Hash :=
  let w := (extend (words bs).reverse 48).reverse
  let r := (consts.zip w).foldl round s
  { a := s.a + r.a, b := s.b + r.b, c := s.c + r.c, d := s.d + r.d, e := s.e + r.e, f := s.f + r.f, g := s.g + r.g, h := s.h + r.h }

/-- `n` blocks of 64 bytes. -/
def blocks (s : Hash) (bs : List Byte) : Nat → Hash
  | 0 => s
  | n + 1 => blocks (block s (bs.take 64)) (bs.drop 64) n

/-- The bytes with their padding: 0x80, zeros, the length in bits as 64 bits, big-endian. -/
def padded (bs : List Byte) : List Byte :=
  bs ++ [0x80#8] ++ List.replicate ((119 - bs.length % 64) % 64) 0 ++ (natLe 8 (bs.length * 8)).reverse

end Sha

/-- SHA-256 of a byte string, as the 32 bytes of the digest with its first byte lowest (R2). -/
def sha256 (bs : List Byte) : BitVec 256 :=
  let p := Sha.padded bs
  let s := Sha.blocks Sha.init p (p.length / 64)
  let beBytes := [s.a, s.b, s.c, s.d, s.e, s.f, s.g, s.h].flatMap fun w => (natLe 4 w.toNat).reverse
  BitVec.ofNat 256 (leNat beBytes)

end Sys2Proof.Machine
end

