-- ==== Sys2Proof/Machine/Measure.lean ====
section
/-!
DEFINITION. The measurement chain of a context and its event log (R323, R324).
-/
namespace Sys2Proof.Machine
open Sys2Proof

/-- The chain value after an event of a type with a content of a length and digest: 76 bytes hashed (R323). -/
def chainNext (h : BitVec 256) (type len : Nat) (d : BitVec 256) : BitVec 256 :=
  sha256 (bytesOf 32 h ++ natLe 4 type ++ natLe 8 len ++ bytesOf 32 d)

/-- The 64-byte log entry (R324). -/
def logEntry (seq type len : Nat) (d : BitVec 256) (time : Nat) : List Byte :=
  natLe 8 seq ++ natLe 4 type ++ natLe 4 0 ++ natLe 8 len ++ bytesOf 32 d ++ natLe 8 time

/-- Bytes of host memory for the reeve column, over the host port (R418). -/
def busRead (s : State) (a n : Nat) : State × Except Fail (List Byte) :=
  match hubOwn s 0 (hostPlace a) with
  | (s, .error f) => (s, .error f)
  | (s, .ok ()) => let r := hubRead s (hostPlace a) n; (r.1, .ok r.2)
def busWrite (s : State) (a : Nat) (bs : List Byte) : State × Except Fail Unit :=
  match hubOwn s 0 (hostPlace a) with
  | (s, .error f) => (s, .error f)
  | (s, .ok ()) => (hubWrite s (hostPlace a) bs, .ok ())

/-- Write bytes where a packet's address says: a host bus address when bit 63 is 1, else W0 of the context (R335). -/
def outWrite (s : State) (ctx : Nat) (a : Word) (bs : List Byte) : State × Except Fail Unit :=
  if a.getLsbD 63 then busWrite s (a.toNat % 2 ^ 63) bs else hubWriteVa s ctx a bs

/-- Read bytes where a packet's address says. -/
def inRead (s : State) (ctx : Nat) (a : Word) (n : Nat) : State × Except Fail (List Byte) :=
  if a.getLsbD 63 then busRead s (a.toNat % 2 ^ 63) n else hubReadVa s ctx a n

/-- Append an event to a context's chain and write its log entry, in the slot of its number less one (R323, R324). -/
def appendEvent (s : State) (cn type : Nat) (content : List Byte) : State :=
  let c := s.ctx cn
  let d := sha256 content
  let seq := c.seq + 1
  let s := s.setCtx cn { c with h := chainNext c.h type content.length d, seq := seq }
  (outWrite s cn (c.logBase + BitVec.ofNat 64 ((seq - 1) % 2 ^ c.logL * 64)) (logEntry seq type content.length d s.dev.hubNs)).1

/-- RESULT events also keep their number, buffer address and digest for receipts (R325, R326). -/
def appendResult (s : State) (cn : Nat) (addr : Word) (content : List Byte) : State :=
  let s := appendEvent s cn 4 content
  s.modCtx cn fun c => { c with results := c.results ++ [(c.seq, addr, sha256 content)] }

end Sys2Proof.Machine
end

