-- ==== Sys2Proof/Machine/Buffers.lean ====
section
/-!
DEFINITION. A launch's buffers (R306), completions on their way to the host (R340), and the fall of the service level (R350).
-/
namespace Sys2Proof.Machine
open Sys2Proof

/-- `f` on the place of every line's part of `[va, va + n)` that translates for a context with a permission: the objects of a twin page may show different faces. -/
def eachLine (s : State) (ctx va n : Nat) (need : Need) (f : State → Nat → Nat → State) : State :=
  go s va (va + n) (n / 128 + 2)
where
  go (s : State) (a stop : Nat) : Nat → State
    | 0 => s
    | k + 1 =>
      if stop ≤ a then s else
      let next := min stop ((a / 128 + 1) * 128)
      let s := match translateHub s ctx (BitVec.ofNat 64 a) need with
        | (s, .ok p) => f s p (next - a)
        | (s, .error _) => s
      go s next stop k

/-- A line overlaps `[k, k + n)`. -/
def lineIn (k n ln : Nat) : Bool := k < ln + 128 && ln < k + n

/-- Some dirty copy of a line of the range, among those that `p` names, has no way home: the hub waits (R15, R411). -/
def copiesHeld (s : State) (k n : Nat) (p : Nat → Bool) : Bool := (knownTiles s).any fun t => drainHeld s t fun ln => lineIn k n ln && p ln

/-- Drop every L1 and L2 copy of the lines of a range; in hardware-coherent device memory they are drained first (R306). -/
def dropRange (s : State) (k n : Nat) : State :=
  if copiesHeld s k n fun ln => regionStat s ln ≠ .soft then { s with hubWait := true } else
  let s := (knownTiles s).foldl (fun s t => drainIf s t fun ln => lineIn k n ln && regionStat s ln ≠ .soft) s
  let s := (knownTiles s).foldl (fun s t => dropIf s t fun ln _ => lineIn k n ln) s
  { s with l2 := s.l2.filter fun l => !lineIn k n l.1, excl := s.excl.filter fun l => !lineIn k n l.1 }

/-- Write every dirty line of a range back to its place. -/
def backRange (s : State) (k n : Nat) : State := if copiesHeld s k n fun _ => true then { s with hubWait := true } else drainAll s k n

/-- Before a kernel's first bundle: the buffers of mode in (R306). -/
def buffersIn (s : State) (ctx : Nat) (bufs : List Buf) : State :=
  bufs.foldl (fun s b => if b.mode % 2 = 1 then eachLine s ctx b.addr.toNat b.len .rd dropRange else s) s

/-- After a kernel's end: every dirty line of the buffers of mode out goes back to its place (R306). -/
def buffersOut (s : State) (ctx : Nat) (bufs : List Buf) : State :=
  bufs.foldl (fun s b => if 2 ≤ b.mode then eachLine s ctx b.addr.toNat b.len .wr backRange else s) s

/-- The contents of the MEASURE buffers in list order, or the cause why one cannot be read in full. -/
def measured (s : State) (ctx : Nat) : List Buf → State × Except (BitVec 6) (List (Word × List Byte))
  | [] => (s, .ok [])
  | b :: r =>
    if !b.measure then measured s ctx r else
    match hubReadVa s ctx b.addr b.len with
    | (s, .error f) => (s, .error f.1)
    | (s, .ok bs) => match measured s ctx r with
      | (s, .ok l) => (s, .ok ((b.addr, bs) :: l))
      | (s, .error c) => (s, .error c)

/-- The queue of packets whose queue has been reset: none (R341). -/
def noQueue : Nat := 1024

/-- A packet is done: its completion waits to be written (R340). -/
def complete (s : State) (q : Nat) (c : Compl) : State :=
  if noQueue ≤ q then s else s.modQueue q fun x => if x.opened.contains c.index then { x with compls := x.compls ++ [c] } else x

/-- The service level falls to 0: launches held in QUEUED fail with `SERVICE_LEVEL` (R350). -/
def serviceZero (s : State) : State :=
  let s := { s with dev := { s.dev with service := 0 } }
  s.kernels.foldl (fun s kk => if kk.2.st = .queued then s.setKern kk.1 { kk.2 with st := .failed, cause := cSERVICE_LEVEL } else s) s

end Sys2Proof.Machine
end

