-- ==== Sys2Proof/Machine/Control.lean ====
section
/-!
DEFINITION. Control flow (R149 to R159): jumps, calls within and across the encodings, returns, and the end of a thread (R241).
-/
namespace Sys2Proof.Machine
open Sys2Proof
open Host (Outcome)

/-- A failed transfer of a bundle. -/
def whyC (s : State) (w : Why) : BRes := if w = fetchHeld then .wait s else .trap s w.1 w.2.1 (BitVec.ofNat 64 w.2.2)
/-- A failed transfer of a block. -/
def whyG (s : State) (w : Why) : GRes := if w = fetchHeld then .wait s else .fault s w.1 w.2.1

/-- `br` (R149, R157). -/
def execBr (f : Form) (s : State) : Outcome State Fault Refusal :=
  match f with
  | .c f => .next <| runC 0x80 f s fun e s => .jump s (e.pc + ((f.imm.extractLsb' 4 40 ++ (0#4)).signExtend 64))
  | .g f => .next <| runG 0x80 f s fun e s => .send s (e.pc + f.imm48)

/-- `jmp`. -/
def execJmp (f : Form) (s : State) : Outcome State Fault Refusal :=
  match f with
  | .c f => .next <| runC 0x81 f s fun e s =>
    let t := e.a + f.simm
    if t.toNat % 16 ≠ 0 then .trap s cMISALIGN t 0 else .jump s t
  | .g f => .next <| runG 0x81 f s fun e s => .send s (e.a + f.imm48)

/-- `jmpr` (R150, R157): the tag must be the jumping code's own encoding. -/
def execJmpr (f : Form) (s : State) : Outcome State Fault Refusal :=
  match f with
  | .c f => .next <| runC 0x82 f s fun e s =>
    match checkPtr s e.tile e.ctx e.a with
    | (s, .error w) => whyC s w
    | (s, .ok true) => .trap s cEXEC_KIND (e.a &&& ~~~1#64) 0
    | (s, .ok false) => .jump s e.a
  | .g f => .next <| runG 0x82 f s fun e s =>
    match checkPtr s e.a_.tile e.a_.ctx e.a with
    | (s, .error w) => whyG s w
    | (s, .ok false) => .fault s cEXEC_KIND e.a
    | (s, .ok true) => .send s (e.a &&& ~~~1#64)

/-- `cross_call(p)` of a thread (R152, R153): the thread waits for DONE with `a0` empty. The frame's write, a release at device scope, reports no deferred
error (R249; log 133). -/
def crossCall (e : CEnv) (s : State) (p : Word) : BRes :=
  let t := s.thr e.k
  let fa := t.xr 2 - 128
  needX s e.k [2] <|
  match frameBad fa t.stackBase with
  | some c => .trap s c fa 0
  | none =>
    needX s e.k [10, 11, 12, 13, 14, 15, 16, 17] <|
    let args := (List.range 8).map fun j => t.xr (10 + j)
    match wakeCallee s e.agent t.kernel t.allot p fa t.stackBase (e.pc + 16) (t.xr 2) false args with
    | .wait s => .wait s
    | .bad s w => whyC s w
    | .stop s st a => stopRes s st a 0
    | .ok s => .ok (s.modThr e.k fun t => { t.await
        { reg := 10, val := 0, pois := none, ticket := e.ticket, kind := .call fa, err := false } with wait := .call }) true

/-- A call of a thread through a tagged pointer (R151); the write of `ra` waits for an earlier fill of it (R95). -/
def callC (e : CEnv) (s : State) (p : Word) : BRes :=
  match checkPtr s e.tile e.ctx p with
  | (s, .error w) => whyC s w
  | (s, .ok false) => if !(s.thr e.k).isFull 1 then .wait s else .jump (s.modThr e.k fun t => t.xw 1 (e.pc + 16)) p
  | (s, .ok true) => crossCall e s p

/-- An instance of the activation has a call outstanding: its frame slot is in use (R158). -/
def callOut (s : State) (a : Act) : Bool := a.insts.any fun i => match s.inst? i with | some n => n.call.isSome | none => false

/-- The callee of a discarded instance has returned, so that the frame slot is free again (R158). -/
def calleeDone (s : State) (ag : Agent) (a : Act) : State × Bool :=
  match a.callee with
  | none => (s, true)
  | some fa => let r := frameDone s ag fa; (r.1, r.2.isSome)

/-- A call of a block through a tagged pointer (R158, R217). -/
def callG (e : GEnv) (s : State) (p : Word) : GRes :=
  match s.inst? e.inst with
  | none => .wait s
  | some n =>
    if !irrevMayFire s e.inst n e.ix || callOut s e.a_ then .wait s else
    match calleeDone s e.agent e.a_ with
    | (s, false) => .wait s
    | (s, true) =>
    let s := s.modAct e.act fun a => { a with callee := none }
    match checkPtr s e.a_.tile e.a_.ctx p with
    | (s, .error w) => whyG s w
    | (s, .ok _) =>
      let fa := e.a_.frame - BitVec.ofNat 64 (bLocal n.block.hdr0) - 128
      match frameBad fa e.a_.base with
      | some c => .fault s c fa
      | none =>
        let args := (List.range 8).map fun j => getV n.fregs 0 j
        match wakeCallee s e.agent e.a_.kernel e.a_.allot p fa e.a_.base (e.pc ||| 1) e.a_.frame true args with
        | .wait s => .wait s
        | .bad s w => whyG s w
        | .stop s st a => stopG s st a
        | .ok s => .quiet (s.modInst e.inst fun n => { n with irrev := true, call := some (e.ix, fa, e.lead) })

/-- `call`: the pointer is pc-relative. -/
def execCall (f : Form) (s : State) : Outcome State Fault Refusal :=
  match f with
  | .c f => .next <| runC 0x83 f s fun e s => callC e s (e.pc + f.simm)
  | .g f => .next <| runG 0x83 f s fun e s => callG e s (e.pc + f.imm48)

/-- `callr`: the pointer is a register or slot A. -/
def execCallr (f : Form) (s : State) : Outcome State Fault Refusal :=
  match f with
  | .c f => .next <| runC 0x84 f s fun e s => callC e s e.a
  | .g f => .next <| runG 0x84 f s fun e s => callG e s e.a

/-- The end of a thread by `halt` or by `ret` with `ra` = 0 (R241, R154): deferred errors first, then `a0`, then the end. A graph fault's
handler that ends so leaves the frame stopped, and the fault domain stops (R221). -/
def haltThread (e : CEnv) (s : State) : BRes :=
  reportDeferred s e.k 2 fun s => needX s e.k [10] <|
    let t := s.thr e.k
    let s := endThread s e.k
    match t.role with
    | .faultHandler n => match s.act? n with
      | some a => .stop (allotStop (s.modAct n fun a => { a with stat := .stopped }) a.ctx a.allot t.tcause)
      | none => .stop s
    | _ => .stop s

/-- `ret` (R154, R159). -/
def execRet (f : Form) (s : State) : Outcome State Fault Refusal :=
  match f with
  | .c f => .next <| runC 0x85 f s fun e s =>
    needX s e.k [1] <|
    let t := s.thr e.k
    let p := t.xr 1
    if p ≠ 0 then
      match checkPtr s e.tile e.ctx p with
      | (s, .error w) => whyC s w
      | (s, .ok true) => .trap s cEXEC_KIND (p &&& ~~~1#64) 0
      | (s, .ok false) => .jump s p
    else match t.frame with
      | none => haltThread e s
      | some fa => reportDeferred s e.k 2 fun s => needX s e.k [10] <|
        match returnReach s e.agent fa with
        | (s, .error x) => stopRes s x.1 x.2 0
        | (s, .ok ()) => haltThread e (finishFrame s e.agent fa ((s.thr e.k).xr 10))
  | .g f => .next <| runG 0x85 f s fun e s =>
    match s.inst? e.inst with
    | none => .wait s
    | some n =>
      if n.rets = 0 then .quiet (s.setInst e.inst { n with rets := 1, retv := e.a })
      else .quiet (faultInst s e.inst { cause := cNO_EXIT, addr := 0, node := e.ix, multi := true, strm := e.strm, port := e.lead.port, elem := e.idx })

/-- `halt` (R241). -/
def execHalt (f : CForm) (s : State) : Outcome State Fault Refusal :=
  .next <| runC 0xB5 f s fun e s => haltThread e s

end Sys2Proof.Machine
end

