-- ==== Sys2Proof/Machine/Graph.lean ====
section
/-!
DEFINITION. The graph-only opcodes (R204 to R212): `exit`, `steer`, `fan`, `null`, `gate`, `fwr`, `acc`, `merge`.
-/
namespace Sys2Proof.Machine
open Sys2Proof
open Host (Outcome)

/-- A second `exit` or `ret` of an instance fires (R203). -/
def secondExit (e : GEnv) (s : State) : GRes :=
  .quiet (faultInst s e.inst { cause := cNO_EXIT, addr := 0, node := e.ix, multi := true, strm := e.strm, port := e.lead.port, elem := e.idx })

/-- `exit` (R205): the next-block address is recorded. -/
def execExit (f : GForm) (s : State) : Outcome State Fault Refusal :=
  .next <| runG 0x86 f s fun e s =>
    match s.inst? e.inst with
    | none => .wait s
    | some n =>
      if n.exits = 0 then .quiet (s.setInst e.inst { n with exits := 1, exitTo := if f.nopnd = 0 then e.pc + f.imm48 else e.a })
      else secondExit e s

/-- `steer` (R206): to `T0` or to `T1` by bit 0 of the selector. -/
def execSteer (f : GForm) (s : State) : Outcome State Fault Refusal :=
  .next <| runG 0x87 f s fun e s =>
    let t := target (if e.b.getLsbD 0 then f.t0.toNat else f.t1.toNat)
    .emit s ([t].filterMap id) (e.lead.with e.a false)

/-- `fan` (R207): the token to every valid target. Reserved bits IMM[47:20] set no warning (R106; log 131). -/
def execFan (f : GForm) (s : State) : Outcome State Fault Refusal :=
  .next <| runG 0x88 f s fun e s => .send s e.a

/-- `null` (R208). -/
def execNull (f : GForm) (s : State) : Outcome State Fault Refusal :=
  .next <| runG 0x89 f s fun e s => .emit s (targets f) (e.lead.with 0 true)

/-- `fwr` (R210): the pending value of a frame register; a null one counts and writes nothing. Of several
deliveries in one instance the last counts, a null one too, which the spec leaves open (log 124). -/
def execFwr (f : GForm) (s : State) : Outcome State Fault Refusal :=
  .next <| runG 0x8B f s fun e s =>
    .quiet (s.modInst e.inst fun n => { n with fwrs := n.fwrs + 1, fwr := Tbl.set n.fwr e.ix (if e.null then none else some e.a) })

/-- `add` of `acc` (R211) at a format. -/
def accAdd (k rm : Nat) (sat : Bool) (a b : Word) : Res :=
  if isIntFmt k then
    let r := opAdd { k := k, a := a, b := b, c := 0, var := 0, sgn := false, sat := sat }
    { r with pat := (intReg k r).toNat }
  else if k = 23 then
    let x := (valueOf 23 a.toNat).1
    let y := (valueOf 23 b.toNat).1
    let v := numAdd 0 x y
    (roundTo 23 0 false false v.1).raise (v.2 ||| if x.isSnan || y.isSnan then flNV else 0)
  else opFadd { k := k, rm := effRnd rm, ftz := false, sat := false, var := 0, src := 0, sc := false
                a := a.toNat % 2 ^ fmtBits k, b := b.toNat % 2 ^ fmtBits k, c := 0 }

/-- `acc` (R211): a running sum per instance, emitted where END[d] is set. -/
def execAcc (f : GForm) (s : State) : Outcome State Fault Refusal :=
  .next <| runG 0x8C f s fun e s =>
    match s.inst? e.inst with
    | none => .wait s
    | some n =>
      let tok := fun (v : Option Word) (ends : BitVec 3) =>
        { e.lead.with (v.getD 0) v.isNone with ends := ends }
      if !e.strm then .emit s (targets f) (tok (if e.null then none else some e.a) e.ends) else
      let d := fieldOf f.imm 0 2
      let old := Tbl.find? n.accs e.ix
      let r := match old with
        | some v => if e.null then Res.mk v.toNat 0 0 else accAdd f.fmt f.var f.sat v e.a
        | none => Res.mk e.a.toNat 0 0
      let new := if e.null then old else some (BitVec.ofNat 64 r.pat)
      let warn : BitVec 16 := (if isIntFmt f.fmt && f.var ≠ 0 then wRNDI else 0) ||| (if !isIntFmt f.fmt && 6 ≤ f.var then wRNDR else 0) |||
        (if !isIntFmt f.fmt && f.sat then wSATF else 0)
      raiseG e s r.fl (r.warn ||| warn) fun s =>
        if e.ends.getLsbD d then
          .emit (s.modInst e.inst fun n => { n with accs := Tbl.erase n.accs e.ix }) (targets f)
            (tok new (e.ends &&& ~~~(BitVec.ofNat 3 (2 ^ d - 1))))
        else .quiet (match new with
          | some v => s.modInst e.inst fun n => { n with accs := Tbl.set n.accs e.ix v }
          | none => s)

/-! ### `gate` and `merge`: firing rules of their own -/

/-- What a firing of `gate` or `merge` starts from: instance, activation, and the state of its predicate, once that has arrived. -/
structure GSelf where
  inst : Nat
  n    : Inst
  ix   : Nat
  hit  : Bool
deriving DecidableEq, Repr

/-- The current node, where its instance may fire and its predicate slot, if used, holds a token. -/
def selfNode (f : GForm) (s : State) : Option GSelf :=
  let inst := s.curNode.1
  let ix := s.curNode.2
  match s.inst? inst with
  | none => none
  | some n =>
    if !instLive s n then none else
    match f.pmode.toNat, (n.slot ix 3).head? with
    | 0, _ => some { inst := inst, n := n, ix := ix, hit := true }
    | 1, some p => some { inst := inst, n := n, ix := ix, hit := !p.null && p.val.getLsbD 0 }
    | _, some p => some { inst := inst, n := n, ix := ix, hit := !p.null && !p.val.getLsbD 0 }
    | _, none => none

/-- Send a token of such a firing: the predicate and the operand of `sl` are consumed. On a mismatch a stream token leaves as a null one; a join
fires again under the same non-stream predicate. -/
def selfSend (g : GSelf) (f : GForm) (s : State) (sl : Nat) (k out : Token) (upd : Inst → Inst) : State :=
  let join := wOpc (g.n.block.words.getD g.ix 0) = 0x8D && fieldOf f.imm 0 2 = 0
  if k.strm && (targets f).any (fun t => !hasRoom s g.inst g.n t) then s
  else if !g.hit && !k.strm then s
  else if !k.strm && g.n.fired.getLsbD g.ix && !join then s
  else
    let t := s.modInst g.inst fun n =>
      consume (consume (upd { n with fired := n.fired ||| (1#128 <<< g.ix) }) g.ix [sl] k.strm) g.ix [3] (k.strm || join)
    sendFit s g.inst (sendTo t g.inst (targets f) (if g.hit then out else { out with val := 0, null := true }))

/-- `gate` (R209): closed until a control token; then data tokens pass, as null ones after a null control. -/
def execGate (f : GForm) (s : State) : Outcome State Fault Refusal :=
  .next <| match selfNode f s with
  | none => s
  | some g =>
    match Tbl.get g.n.gates .closed g.ix, (g.n.slot g.ix 0).head?, (g.n.slot g.ix 1).head? with
    | .closed, some _, some c =>
      s.modInst g.inst fun n => { consume n g.ix [1] false with gates := Tbl.set n.gates g.ix (if c.null then .nulled else .opened) }
    | .opened, some k, _ => selfSend g f s 0 k k id
    | .nulled, some k, _ => selfSend g f s 0 k { k with val := 0, null := true } id
    | _, _, _ => s

/-- `merge` (R212): join passes tokens in arrival order; latch pairs each A token with the latched B value. -/
def execMerge (f : GForm) (s : State) : Outcome State Fault Refusal :=
  .next <| match selfNode f s with
  | none => s
  | some g =>
    if fieldOf f.imm 0 2 = 0 then
      match Tbl.get g.n.arrivals [] g.ix with
      | [] => s
      | sl :: rest =>
        match (g.n.slot g.ix sl).head? with
        | none => s
        | some k => selfSend g f s sl k k fun n => { n with arrivals := Tbl.set n.arrivals g.ix rest }
    else
      match (g.n.slot g.ix 0).head?, (match Tbl.find? g.n.latch g.ix with | some b => some b | none => (g.n.slot g.ix 1).head?) with
      | some k, some b =>
        let rel := k.null || k.ends.getLsbD (fieldOf f.imm 2 2)
        let fromSlot := (Tbl.find? g.n.latch g.ix).isNone
        selfSend g f s 0 k { k with val := if k.null then 0 else b.val } fun n =>
          let n := if fromSlot && b.strm then consume n g.ix [1] true else n
          { n with latch := if rel then Tbl.erase n.latch g.ix else Tbl.set n.latch g.ix b }
      | _, _ => s

end Sys2Proof.Machine
end

