-- ==== Sys2Proof/Machine/Start.lean ====
section
/-!
DEFINITION. Starting a thread on a context of a core (R130, R346, R353), and the choice of a free work-core context (R221).
-/
namespace Sys2Proof.Machine
open Sys2Proof

/-! ### Areas that firmware and the dispatchers reserve in W0 memory (R335, R351, R353; log 13) -/

/-- Bytes of the stack regions and the barn of a group: STACK for each of 16 work-core and SCTX stage-core contexts, a root region on rank 0 of a graph
kernel, then BARN (R353). -/
def blockBytes (h : BitVec 512) (rank : Nat) : Nat :=
  hdrStack h * (16 + hdrField h 15 1 + (if hdrGraph h && rank = 0 then 1 else 0)) + hdrField h 36 4

/-- What a kernel that has not completed reserves: its argument area, its buffers, each group's block. -/
def kernelAreas (k : Kernel) : List (Nat × Nat) :=
  (k.argAddr.toNat, k.argLen) :: ((k.bufs.map fun b => (b.addr.toNat, b.len)) ++ k.stackAt.zipIdx.map fun b => (b.1, blockBytes k.hdr b.2))

/-- The areas of a context in use: its code objects, its kernels' areas, the regions of its G tasks. -/
def areas (s : State) (cn : Nat) : List (Nat × Nat) :=
  (s.ctx cn).objs.flatMap (·.parts) ++ (s.kernels.filter fun kk => kk.2.ctx = cn && !kk.2.written).flatMap (fun kk => kernelAreas kk.2) ++
  (s.acts.filter fun ka => ka.2.ctx = cn && ka.2.task.isSome).map fun ka => (ka.2.base.toNat, ka.2.frame.toNat + 128 - ka.2.base.toNat)

/-- The range lies in W0 and meets none of the areas. -/
def clearOf (l : List (Nat × Nat)) (lo n : Nat) : Bool := lo + n ≤ 2 ^ 56 && l.all fun a => a.2 = 0 || n = 0 || lo + n ≤ a.1 || a.1 + a.2 ≤ lo

/-- A 64 KiB-aligned base for `n` bytes beside the areas of a context: the one that firmware would choose, or, where that one is taken, the first after every
area. -/
def pickArea (l : List (Nat × Nat)) (cand n : Nat) : Nat :=
  let c := cand % 2 ^ 56 / 65536 * 65536
  if clearOf l c n then c else (l.foldl (fun m a => max m (a.1 + a.2)) 0 + 65535) / 65536 * 65536

/-- Bases of the blocks of ranks `rank` and up. -/
def pickBlocks (l : List (Nat × Nat)) (tick : Nat) (h : BitVec 512) (rank : Nat) : Nat → List Nat
  | 0 => []
  | n + 1 =>
    let b := pickArea l (Config.areaAt tick rank) (blockBytes h rank)
    b :: pickBlocks ((b, blockBytes h rank) :: l) tick h (rank + 1) n

/-- Top of a stack region of a group: 0 to 15 the work-core contexts, 16 + n the stage-core contexts, then the root region (R353). -/
def regionTop (k : Kernel) (rank region : Nat) : Word := BitVec.ofNat 64 (k.stackAt.getD rank 0 + (region + 1) * hdrStack k.hdr)

/-- A thread that begins on context `tp` of a tile for a kernel (R130): its registers, its trap state from the kernel header (Table 10-2). -/
def bornThread (s : State) (tile tp kn : Nat) (k : Kernel) (role : Role) (allot : Nat) (entry : Word) : Thread :=
  let top := regionTop k (rankOn s kn k tile) tp
  let t : Thread := { Thread.reset with
    stat := .live, role := role, ctx := k.ctx, kernel := kn, allot := allot, pc := entry &&& ~~~1#64
    stackBase := top - BitVec.ofNat 64 (hdrStack k.hdr), xregs := hdrField k.hdr 6 1, vregs := hdrField k.hdr 7 1
    traps := hdrTraps k.hdr, tvec := hdrHandler k.hdrAddr k.hdr, fstat := hdrFen k.hdr, started := s.dev.cycles, turned := s.dev.cycles + 1 }
  ((t.xw 2 top).xw 3 k.gp).xw 4 (BitVec.ofNat 64 tp)

/-- The lowest-numbered FREE work-core context of a tile at or above its group's WCTX (R221, R345, R346). -/
def spareContext (s : State) (tile : Nat) : Option Nat :=
  match groupKernel s tile with
  | none => none
  | some kn => match s.kern? kn with
    | none => none
    | some k => ((List.range 16).filter fun n => hdrField k.hdr 14 1 ≤ n).find? fun n => (s.thr (threadKey tile n)).stat = .free

end Sys2Proof.Machine
end

