-- ==== Sys2Proof/Machine/GraphEvents.lean ====
section
/-!
DEFINITION. Events of the fabric (chapter 9): loading a block, starting an instance, token arrival, quiescence, commit, timeout, faults at frame granularity and
their handlers, the return of a call, and stream ports.
-/
namespace Sys2Proof.Machine
open Sys2Proof
open Host (Outcome)

/-! ### The next block of an activation -/

/-- Entry and sequence number of the instance that an activation may start next: the committed successor where it has no instance, else the exit of its
youngest instance once that one is quiescent and will not end the activation (R191, R202). -/
def nextOf (s : State) (a : Act) : Option (Word × BitVec 32) :=
  if a.stat ≠ .live || !actResident s a then none else
  match a.insts.getLast? with
  | none => some (a.next, a.seq)
  | some i => match s.inst? i with
    | none => none
    | some n => if n.quiet && n.fault.isNone && n.rets = 0 then some (n.exitTo, n.seq + 1) else none

/-- Frame registers that a new instance reads: the last committed values and the `fwr` values of the uncommitted instances, in order (R190). -/
def nextRegs (s : State) (a : Act) : Vector Word 64 :=
  a.insts.foldl (fun f i => match s.inst? i with
    | none => f
    | some n => applyFwr n f) a.f
where
  applyFwr (n : Inst) (f : Vector Word 64) : Vector Word 64 :=
    n.fwr.foldl (fun f r => match r.2 with
      | some v => putV f (wImm (n.block.words.getD r.1 0) % 64) v
      | none => f) f

/-- No token of any instance is in the plane (R189, log 61). -/
def planeEmpty (s : State) (tile plane : Nat) : Bool :=
  (planeInsts s tile plane).all fun ki => ki.2.slots.isEmpty && !(s.transit.any (·.inst = ki.1))

/-- The planes that the next block of an activation may be loaded into: for its entry block the one to which its wake sent it (R134), else every allowed one
(R189). -/
def loadPlanes (s : State) (a : Act) : List Nat := if a.seq = 0 && a.insts.isEmpty then [a.plane] else allowedPlanes s a.tile a.planes

/-- The activation waits for a plane: none holds its next block, and none that may take it is empty (R189). -/
def awaitsPlane (s : State) (a : Act) : Bool :=
  match nextOf s a with
  | none => false
  | some (entry, _) => (planeHolding s a.tile a.ctx entry).isNone && !(loadPlanes s a).any (planeEmpty s a.tile)

/-- A fault found at a frame (R219, R220): written to the status word's CAUSE; delivered to a handler, or the fault domain stops. -/
def frameFault (s : State) (an : Nat) (a : Act) (fl : GFault) (seq : BitVec 32) (plane : Nat) (irrev : Bool) (held : Option Nat) : State :=
  let info : Word := seq ++ BitVec.ofBool fl.multi ++ BitVec.ofBool irrev ++ BitVec.ofBool fl.strm ++
    BitVec.ofNat 4 (if fl.strm then fl.port else 0) ++ BitVec.ofNat 7 fl.node ++ BitVec.ofNat 2 plane ++ a.tag
  let (s, st) := readStatus s a
  let s := writeStatus s a (st - fieldOf (BitVec.ofNat 64 st) 32 6 * 2 ^ 32 + fl.cause.toNat * 2 ^ 32)
  let delivered := match s.kern? a.kernel with
    | some k => (hdrTraps k.hdr).getLsbD fl.cause.toNat
    | none => false
  let s := s.modAct an fun a => { a with stat := if delivered then .faulted else .stopped, fault := some fl, tinfo := info, held := held }
  if delivered then s else allotStop s a.ctx a.allot fl.cause

/-- A fault of no instruction in particular. -/
def plainFault (c : BitVec 6) (a : Word) : GFault :=
  { cause := c, addr := a, node := 0, multi := false, strm := false, port := 0, elem := 0 }

/-- A transfer that fails faults the youngest instance, the transferring one; without one it faults the frame itself. -/
def transferFault (s : State) (an : Nat) (a : Act) (w : Why) : State :=
  match a.insts.getLast? with
  | some i => faultInst s i (plainFault w.1 w.2.1)
  | none => frameFault s an a (plainFault w.1 w.2.1) a.seq 0 false none

/-- `BLOCK_LOAD` (R134, R189, R192): the next block of an activation goes into the lowest-numbered plane that may take it and holds no token. -/
def execBlockLoad (an : Nat) (s : State) : Outcome State Fault Refusal :=
  .next <| match s.act? an with
  | none => s
  | some a =>
    match nextOf s a with
    | none => s
    | some (entry, _) =>
      if (planeHolding s a.tile a.ctx entry).isSome then s else
      match (loadPlanes s a).find? (planeEmpty s a.tile) with
      | none => s
      | some p =>
        match loadBlock s a.tile a.ctx entry with
        | (s, .error w) => if w = fetchHeld then s else transferFault s an a w
        | (s, .ok b) => s.modTile a.tile fun t => { t with planes := putV t.planes p (some b) }

/-- `INSTANCE_START` (R190): the sequence number, the read entries' tokens. Instructions without operands may fire from now on. -/
def execInstanceStart (an : Nat) (s : State) : Outcome State Fault Refusal :=
  .next <| match s.act? an with
  | none => s
  | some a =>
    match nextOf s a with
    | none => s
    | some (entry, seq) =>
      match planeHolding s a.tile a.ctx entry with
      | none => s
      | some p =>
        match getV (s.tile a.tile).planes none p with
        | none => s
        | some b =>
          let regs := nextRegs s a
          let (id, s) := s.fresh
          let n : Inst :=
            { act := an, seq := seq, block := b, plane := p, slots := [], fired := 0, done := 0, fwr := [], fwrs := 0, stores := []
              exits := 0, exitTo := 0, rets := 0, retv := 0, irrev := false, accs := [], latch := [], gates := [], call := none
              arrivals := [], ports := 0, ewaits := [], fault := none, held := false, quiet := false, fregs := regs }
          let t := (s.setInst id n).setAct an { a with insts := a.insts ++ [id], plane := p }
          let u := (readEntries b.hdr0 b.hdr1).foldl (fun s r =>
            sendTo s id [(r.2.2, r.2.1)] { val := getV regs 0 r.1, ends := 0, null := false, strm := false, idx := 0 }) t
          -- the read entries' tokens need room (R194)
          if barnRoom s u a.tile then u else s

/-- A `merge` in join mode (R212). -/
def isJoin (w : IWord) : Bool := wOpc w = 0x8D && wImm w % 4 = 0

/-- `TOKEN_ARRIVAL` (R193): the `idx`th token in transit reaches its slot. Tokens to one slot arrive in the order in which they were sent. -/
def execTokenArrival (idx : Nat) (s : State) : Outcome State Fault Refusal :=
  .next <| match s.transit[idx]? with
  | none => s
  | some x =>
    if (s.transit.take idx).any fun y => y.inst = x.inst && y.node = x.node && y.slot = x.slot then s else
    let s := { s with transit := s.transit.eraseIdx idx }
    s.modInst x.inst fun n =>
      let n := n.setSlot x.node x.slot (n.slot x.node x.slot ++ [x.tok])
      if isJoin (n.block.words.getD x.node 0) && x.slot ≠ 3
        then { n with arrivals := Tbl.set n.arrivals x.node (Tbl.get n.arrivals [] x.node ++ [x.slot]) } else n

/-! ### Quiescence (R191) -/

/-- A predicate token lets the instruction fire. -/
def predHits (pmode : Nat) (k : Token) : Bool := !k.null && (k.val.getLsbD 0 = decide (pmode = 1))

/-- Instruction `ix` holds a complete operand set: it can fire under R193 and R197. -/
def completeSet (n : Inst) (ix : Nat) : Bool :=
  let w := n.block.words.getD ix 0
  let opc := wOpc w
  let pm := wPmode w
  let pred := (n.slot ix 3).head?
  let unfired := !n.fired.getLsbD ix
  if pm ≠ 0 && pred.isNone then false else
  let hit := match pred with | some k => pm = 0 || predHits pm k | none => true
  if isJoin w then
    match Tbl.get n.arrivals [] ix with
    | [] => false
    | sl :: _ => match (n.slot ix sl).head? with | some k => hit || k.strm | none => false
  else if opc = 0x8D then
    match (n.slot ix 0).head?, (match Tbl.find? n.latch ix with | some b => some b | none => (n.slot ix 1).head?) with
    | some k, some _ => k.strm || (unfired && hit)
    | _, _ => false
  else if opc = 0x8A then
    match (n.slot ix 0).head? with
    | none => false
    | some k =>
      if Tbl.get n.gates .closed ix = .closed then (n.slot ix 1).head?.isSome else k.strm || (unfired && hit)
  else
    let toks := (List.range (wNopnd w)).map fun sl => (n.slot ix sl).head?
    if toks.any (·.isNone) then false else
    let ks := toks.filterMap id
    let strm := ks.any (·.strm) || (pm ≠ 0 && (match pred with | some k => k.strm | none => false))
    let stay := nullAct opc = .stay && ks.any (·.null)
    !stay && (strm || (unfired && hit))

/-- Instructions of the instance that instruction `ix` waits for under the memory order (R199 to R201). -/
def waitsFor (n : Inst) (tile ix : Nat) : List Nat :=
  let opc := wOpc (n.block.words.getD ix 0)
  if irrevocable opc then irrevWaits n ix tile
  else if (List.range (wNopnd (n.block.words.getD ix 0))).any fun sl => match (n.slot ix sl).head? with | some k => k.null | none => false then []
  else if opc = 0x60 || opc = 0x76 then let r := (accessRange n ix).getD (0, 1); loadWaits n ix tile r.1 r.2
  else if opc = 0x72 || opc = 0x73 then (lowerLsid n ix loads).filter fun j => !n.isDone j
  else []

/-- Indices of a block's instructions in memory order. -/
def memSorted (n : Inst) : List Nat :=
  (List.range n.block.words.length).foldl (fun acc x => insert n x acc) []
where
  insert (n : Inst) (x : Nat) : List Nat → List Nat
    | [] => [x]
    | y :: r => if memOrd n y ≤ memOrd n x then y :: insert n x r else x :: y :: r

/-- Instructions that keep the instance from becoming quiescent: those with a complete operand set that do not wait for one which can never fire, tested
in ascending memory order. -/
def keepers (n : Inst) (tile : Nat) : List Nat :=
  (memSorted n).foldl (fun live ix => if completeSet n ix && (waitsFor n tile ix).all live.contains then live ++ [ix] else live) []

/-- A stream binding of the block has not had its final element: the instance still expects elements (R215, R272). -/
def expectsElements (n : Inst) : Bool :=
  n.block.words.any fun w => match binding w with | some b => !n.ports.getLsbD b.2 | none => false

/-- The instance is quiescent (R191). -/
def isQuiescent (s : State) (i : Nat) (n : Inst) : Bool :=
  !(s.transit.any (·.inst = i)) && n.call.isNone && n.ewaits.isEmpty && !expectsElements n && (keepers n (tileOfInst s i)).isEmpty

/-- Every `STMASK` identifier is resolved and `NWR` writes have arrived (R202). -/
def mayCommit (n : Inst) : Bool :=
  n.exits = 1 && bNwr n.block.hdr0 ≤ n.fwrs &&
  (List.range n.block.words.length).all fun ix => !carriesLsid (wOpc (n.block.words.getD ix 0)) || n.isDone ix

/-- `INSTANCE_QUIESCENT`: an instance becomes quiescent; it faults `NO_EXIT` where it can never commit (R203), and its exit's block is validated, so
that the transferring instance takes the fault (R107, R192). -/
def execInstanceQuiescent (i : Nat) (s : State) : Outcome State Fault Refusal :=
  .next <| match s.inst? i with
  | none => s
  | some n =>
    if !instLive s n || n.quiet || !isQuiescent s i n then s
    else if !mayCommit n then faultInst s i (plainFault cNO_EXIT 0)
    else if 0 < n.rets then s.setInst i { n with quiet := true }
    else match s.act? n.act with
      | none => s
      | some a => match wakeCheck s a.tile a.ctx n.exitTo with
        | (s, some w) => if w = fetchHeld then s else faultInst s i (plainFault w.1 w.2.1)
        | (s, none) => s.modInst i fun n => { n with quiet := true }

/-! ### Timeout (R203) -/

/-- A closed gate of the block, to which no control token has come (R203, R209). -/
def gateClosed (n : Inst) : Bool :=
  (List.range n.block.words.length).any fun ix => wOpc (n.block.words.getD ix 0) = 0x8A && Tbl.get n.gates .closed ix = .closed && (n.slot ix 1).isEmpty

/-- An irrevocable instruction that waits only for its instance to become the oldest, or a call that waits for a plane, a tag or the frame slot (R158, R191,
R203, R217). -/
def irrevIdle (a : Act) (i : Nat) (n : Inst) : Bool :=
  (List.range n.block.words.length).any fun ix =>
    let opc := wOpc (n.block.words.getD ix 0)
    irrevocable opc && completeSet n ix && (waitsFor n a.tile ix).isEmpty && (a.insts.head? ≠ some i || opc = 0x83 || opc = 0x84)

/-- The timeout of an instance counts at this moment (R203): it may fire under the bell sequencer, and it waits for no plane, call, `e.wait`, irrevocable turn or gate. -/
def timeRuns (s : State) (i : Nat) (n : Inst) : Bool :=
  match s.act? n.act with
  | some a => instLive s n && planeMayFire s (dieOf a.tile) n.plane && !awaitsPlane s a && n.call.isNone && n.ewaits.isEmpty && !gateClosed n && !irrevIdle a i n
  | none => false

/-- The timeout of an instance is over: 2^`TIMEOUT` cycles have counted (R103, R124, R203). -/
def timedOut (s : State) (n : Inst) : Bool :=
  match (s.act? n.act).bind fun a => s.kern? a.kernel with
  | some k => 2 ^ bTimeout n.block.hdr0 (hdrField k.hdr 32 1) ≤ n.ran
  | none => 2 ^ bTimeout n.block.hdr0 0 ≤ n.ran

/-- The cycles since the last step count for the timeouts that run (R203). -/
def timeoutsNow (s : State) : State :=
  { s with insts := s.insts.map fun ki => if timeRuns s ki.1 ki.2 then (ki.1, { ki.2 with ran := ki.2.ran + (s.dev.cycles - s.dev.counted) }) else ki
           dev := { s.dev with counted := s.dev.cycles } }

/-! ### Commit (R202) -/

/-- Perform one buffered effect of a committing instance (R200). -/
def performStore (s : State) (ag : Agent) (st : GStore) : State :=
  if st.op = 0x72 then releaseAt s ag.tile st.scope
  else if st.op = 0x73 then (pubLines s ag false st.addr st.len).1
  else writeAt (refill s ag st.place) ag.tile st.place st.data st.ord st.scope

/-- An activation ends; groups of a graph kernel may end with it (R362). -/
def endAct (s : State) (an : Nat) (a : Act) : State :=
  let s := dropAct s an
  let s := match s.kern? a.kernel with
    | some k => k.tiles.foldl checkGroupEnd s
    | none => s
  checkKernel s a.kernel

/-- What keeps a buffered effect from being performed: a store waits for its place, which is asked for where another device has come to own it, and for the route to
it; a release for what it writes back (R302, R303, R411). A store that receives an error reply, or whose bank's line cannot be filled again, stops its
instance (R73, R220, R408, R421). -/
def effectStop (s : State) (ag : Agent) (st : GStore) : State × Option Stop :=
  let held := fun (b : Bool) => if b then some Stop.hold else none
  let rel := (st.op = 0x72 || st.ord = 3) && 2 ≤ st.scope && drainHeld s ag.tile fun _ => true
  if st.op = 0x73 then let r := pubLines s ag false st.addr st.len; (r.1, held r.2)
  else if st.op = 0x72 || rel then (s, held rel)
  else match ownCheck s ag st.place with
    | (s, .error e) => (s, some e)
    | (s, .ok ()) =>
      if errReply s st.place then (s, some (.trap cLINK_ERR 0)) else
      match (if isScratch st.place then spFill s ag st.place else (s, .ok ())) with
      | (s, .error e) => (s, some e)
      | (s, .ok ()) => (s, held (noRoute s (ag.at st.ord st.scope) st.place .wr))

/-- The first buffered effect of a commit, in memory order, that cannot be performed, with what stops it. -/
def commitStop (s : State) (ag : Agent) : List GStore → State × Option (Stop × GStore)
  | [] => (s, none)
  | st :: r =>
    match effectStop s ag st with
    | (s, some e) => (s, some (e, st))
    | (s, none) => commitStop s ag r

/-- The return of an instance in which `ret` fired (R159): `.ok` with RETPTR once it is known and RETV and DONE can be written, else what stops it. -/
def retFrame (s : State) (ag : Agent) (a : Act) : State × Except (Stop × Word) Word :=
  match readFrame s ag a.frame with
  | (s, .error e) => (s, .error (e, a.frame))
  | (s, .ok p) =>
    if p = 0 then (s, .ok p) else
    match returnReach s ag a.frame with
    | (s, .error e) => (s, .error e)
    | (s, .ok ()) => (s, .ok p)

/-- An instance that ends its activation, or whose exit's block still validates, may leave the frame (R192). -/
def exitHeld (s : State) (a : Act) (n : Inst) : State × Option Why :=
  if 0 < n.rets || 1 < a.insts.length then (s, none) else wakeCheck s a.tile a.ctx n.exitTo

/-- `INSTANCE_COMMIT`: the oldest instance of a frame, once it may commit, before its timeout. -/
def execInstanceCommit (i : Nat) (s : State) : Outcome State Fault Refusal :=
  .next <| match s.inst? i with
  | none => s
  | some n =>
    match s.act? n.act with
    | none => s
    | some a =>
      if !instLive s n || !n.quiet || timedOut s n || a.insts.head? ≠ some i || !mayCommit n then s else
      let ag : Agent := { tile := a.tile, ctx := a.ctx, allot := some a.allot }
      match exitHeld s a n with
      | (s, some w) => if w = fetchHeld then s else faultInst s i (plainFault w.1 w.2.1)
      | (s, none) =>
      match commitStop s ag (sortStores n.stores) with
      | (s, some (.hold, _)) => s
      | (s, some (.trap c _, st)) => faultInst s i { plainFault c st.addr with node := st.node }
      | (s, none) =>
      let perform := fun (s : State) => (sortStores n.stores).foldl (fun s st => performStore s ag st) s
      if 0 < n.rets then
        match retFrame s ag a with
        | (s, .error (.hold, _)) => s
        | (s, .error (.trap c _, ad)) => faultInst s i (plainFault c ad)
        | (s, .ok p) => endAct (if p = 0 then perform s else finishFrame (perform s) ag a.frame n.retv) n.act a
      else
        dropInst ((perform s).modAct n.act fun b => { b with f := nextRegs.applyFwr n a.f, seq := b.seq + 1, next := n.exitTo }) i

/-! ### Faults -/

/-- `INSTANCE_TIMEOUT` (R203): an instance still uncommitted at its timeout faults `NO_EXIT`. -/
def execInstanceTimeout (i : Nat) (s : State) : Outcome State Fault Refusal :=
  .next <| match s.inst? i with
  | none => s
  | some n => if instLive s n && timedOut s n then faultInst s i (plainFault cNO_EXIT 0) else s

/-- Discard an instance: it vanishes, and a port that feeds it goes back to the element at which it began (R219, R222). Its outstanding call keeps the frame
slot in use (R158). -/
def discardInst (s : State) (i : Nat) : State :=
  match (s.inst? i).bind fun n => (s.act? n.act).map fun a => (n, a) with
  | none => dropInst s i
  | some (n, a) =>
    let s := s.modTile a.tile fun t => { t with ports := t.ports.map fun p => if p.inst = some i then { p with elem := p.start, inst := none } else p }
    let s := match n.call with
      | some c => s.modAct n.act fun a => { a with callee := some c.2.1 }
      | none => s
    dropInst s i

/-- `GRAPH_FAULT_TAKEN` (R219, R222): the oldest instance of a frame holds a fault, and the frame's status word can be reached. Younger ones are discarded, and so is it, but for a port's fault. -/
def execGraphFaultTaken (i : Nat) (s : State) : Outcome State Fault Refusal :=
  .next <| match s.inst? i with
  | none => s
  | some n =>
    match s.act? n.act, n.fault with
    | some a, some fl =>
      if a.stat ≠ .live || !runsOn s a.tile a.ctx || a.insts.head? ≠ some i then s else
      match frameReach s { tile := a.tile, ctx := a.ctx } (a.frame + 24) 8 .rw with
      | (s, .error (.hold, _)) => s
      | (s, _) =>
      let s := (a.insts.filter (· ≠ i)).foldl discardInst s
      let s := if n.held then s else discardInst s i
      match s.act? n.act with
      | some a => frameFault s n.act a fl n.seq n.plane n.irrev (if n.held then some i else none)
      | none => s
    | _, _ => s

/-- `GRAPH_HANDLER_START` (R221): the handler runs as a thread on a free work-core context of the activation's tile. -/
def execGraphHandlerStart (an : Nat) (s : State) : Outcome State Fault Refusal :=
  .next <| match s.act? an with
  | none => s
  | some a =>
    match a.fault, s.kern? a.kernel, spareContext s a.tile with
    | some fl, some k, some n =>
      if a.stat ≠ .faulted then s else
      let t := bornThread s a.tile n a.kernel k (.faultHandler an) a.allot (hdrHandler k.hdrAddr k.hdr)
      let t := t.xw 10 a.frame
      (s.setThr (threadKey a.tile n)
        { t with stat := .handler, inh := true, tcause := fl.cause, tepc := a.next, taddr := fl.addr, tinfo := a.tinfo, tframe := a.frame
                 telem := if fl.strm then fl.elem.setWidth 64 else 0 }).setAct an { a with stat := .handling }
    | _, _, _ => s

/-- A graph fault's handler returns: the frame resumes, re-entering the block or continuing the held instance (R221, R222). -/
def resumeFrame (s : State) (an : Nat) : State :=
  match s.act? an with
  | none => s
  | some a =>
    let s := match a.held with
      | some i => s.modInst i fun n => { n with fault := none, held := false }
      | none => s
    s.setAct an { a with stat := .live, fault := none, tinfo := 0, held := none }

/-- `GRAPH_CALL_RETURN` (R158): DONE of the callee's frame is set; RETV goes to the call's targets, where it has room. -/
def execGraphCallReturn (i : Nat) (s : State) : Outcome State Fault Refusal :=
  .next <| match s.inst? i with
  | none => s
  | some n =>
    match n.call, s.act? n.act with
    | some (ix, fa, lead), some a =>
      match frameDone s { tile := a.tile, ctx := a.ctx } fa with
      | (s, none) => s
      | (s, some v) =>
        sendLate s i ix lead v fun n => { n with call := none }
    | _, _ => s

/-! ### Stream ports (R214, R215, R222) -/

/-- The instruction and slot of a block that consume a port. -/
def consumer (n : Inst) (port : Nat) : Option (Nat × Nat) :=
  n.block.words.zipIdx.findSome? fun w => match binding w.1 with | some b => if b.2 = port then some (w.2, b.1) else none | none => none

/-- What a port may emit for: the errand that binds it, while it runs, or the activation that goes through the pattern of an ended one again (R222). -/
def portSource (s : State) (p : Port) : Option (Nat × Option Nat) :=
  match p.bound with
  | some b => (s.errand? (b / 256) (b % 256)).bind fun e => if e.st = .running then some (e.ctx, none) else none
  | none => p.redo.bind fun an => (s.act? an).map fun a => (a.ctx, some an)

/-- A port that is to emit: its state, and the consuming instance with its instruction and slot. -/
def portReady (s : State) (tile port : Nat) : Option (Port × Nat × Inst × Nat × Nat) :=
  let p := getV (s.tile tile).ports Port.reset port
  match portSource s p with
  | none => none
  | some (ctx, only) =>
    if 16 ≤ port || patTotal (bytesOf 64 p.pat) ≤ p.elem then none else
    let fits := fun (n : Inst) => instLive s n && (consumer n port).isSome && !n.ports.getLsbD port && !n.quiet && (only.isNone || only = some n.act) &&
      (match s.act? n.act with | some a => a.tile = tile && a.ctx = ctx | none => false)
    let who := match p.inst with
      | some i => (s.inst? i).bind fun n => if fits n then some (i, n) else none
      | none => List.find? (fun ki : Nat × Inst => fits ki.2) s.insts
    who.bind fun x => (consumer x.2 port).map fun c => (p, x.1, x.2, c.1, c.2)

/-- END flags of pattern element `n`: bit `d` on the last element of each run of dimension `d`, and on the final element alone for a dimension that the
pattern does not use (R215). -/
def endFlags (d : List Byte) (n : Nat) : BitVec 3 :=
  let c0 := patCnt d 0
  let c1 := patCnt d 1
  let c2 := patCnt d 2
  let fin := n + 1 = patTotal d
  let l0 := n % c0 + 1 = c0
  let l1 := l0 && n / c0 % c1 + 1 = c1
  let bit := fun (used last : Bool) => fin || (used && last)
  BitVec.ofBool (bit (1 < c2) fin) ++ BitVec.ofBool (bit (1 < c1) l1) ++ BitVec.ofBool (bit (1 < c0) l0)

/-- The value of a port's element: its data, or in index mode its whole address (R215, R268). -/
def portElem (s : State) (ag : Agent) (d : List Byte) (n : Nat) : State × Except Bad Word :=
  if descField d 9 1 = 1 then (s, .ok (patAddr d n)) else
  match patElem s ag d n with
  | (s, .error b) => (s, .error b)
  | (s, .ok bs) => (s, .ok (BitVec.ofNat 64 (leNat bs)))

/-- `STREAM_PORT_EMIT`: the next element of a bound port goes to its consumer, where the slot has room (R195). Elements are single ones: the spec names an edge
configuration for scaled blocks (R50), and gives it neither register nor field (log 97). -/
def execStreamPortEmit (tile port : Nat) (s : State) : Outcome State Fault Refusal :=
  .next <| match portReady s tile port with
  | none => s
  | some (p, i, n, ix, sl) =>
    if !hasRoom s i n (sl, ix) then s else
    let d := bytesOf 64 p.pat
    let ctx := match s.act? n.act with | some a => a.ctx | none => 0
    match portElem s { tile := tile, ctx := ctx } d p.elem with
    | (s, .error _) => s
    | (s, .ok v) =>
      let start := if p.inst.isNone then p.elem else p.start
      let s0 := s
      let s := s.modTile tile fun t => { t with ports := putV t.ports port { p with elem := p.elem + 1, start := start, inst := some i } }
      let s := if p.elem + 1 = patTotal d then s.modInst i fun n => { n with ports := n.ports ||| (1#16 <<< port) } else s
      sendFit s0 i (sendTo s i [(sl, ix)] { val := v, ends := endFlags d p.elem, null := false, strm := true
                                            idx := BitVec.ofNat 32 (p.elem - start), port := port })

/-- `PORT_FETCH_FAULT` (R222): the port's own fetch fails; its consuming instance is held at that element. -/
def execPortFetchFault (tile port : Nat) (s : State) : Outcome State Fault Refusal :=
  .next <| match portReady s tile port with
  | none => s
  | some (p, i, n, ix, _) =>
    let ctx := match s.act? n.act with | some a => a.ctx | none => 0
    match portElem s { tile := tile, ctx := ctx } (bytesOf 64 p.pat) p.elem with
    | (s, .error (.trap c _, a)) =>
      let start := if p.inst.isNone then p.elem else p.start
      let s := s.modTile tile fun t => { t with ports := putV t.ports port { p with start := start, inst := some i } }
      s.modInst i fun n => { n with held := true, fault := some (n.fault.getD
        { cause := c, addr := a, node := ix, multi := false, strm := true, port := port, elem := BitVec.ofNat 32 (p.elem - start) }) }
    | (s, _) => s

end Sys2Proof.Machine
end

