-- ==== Sys2Proof/Machine/GroupEvents.lean ====
section
/-!
DEFINITION. The dispatchers (chapters 16, 17): placement of groups, their start, tasks, the completion of kernels, budget periods, headroom and the bell
sequencer.
-/
namespace Sys2Proof.Machine
open Sys2Proof
open Host (Outcome)

/-! ### Placement (R352, R359, R360) -/

/-- Smallest fraction left of the metered budgets on an allotment's path, as a pair numerator, denominator; 1 where nothing is limited (R359). -/
def budgetLeft (s : State) (ctx i : Nat) : Nat × Nat :=
  let one := fun (m : Nat × Nat) (lim used : Nat) =>
    if lim = 0 then m else if (lim - used) * m.2 < m.1 * lim then (lim - used, lim) else m
  (allotPath (s.ctx ctx) i).foldl (fun m j => match Tbl.find? (s.ctx ctx).allots j with
    | some a => one (one (one (one (one m a.hbm a.mHbm) a.mirfer a.mMirfer) a.ecyc a.mEcyc) a.energy a.mEnergy) a.slots a.mSlots
    | none => m) (1, 1)

/-- `x` is a larger fraction than `y`. -/
def fracGt (x y : Nat × Nat) : Bool := y.1 * x.2 < x.1 * y.2

/-- Launch `x` goes before launch `y` in the order of R359. -/
def launchBefore (s : State) (x y : Nat × Kernel) : Bool :=
  let px := effPrio (s.ctx x.2.ctx) x.2.allot
  let py := effPrio (s.ctx y.2.ctx) y.2.allot
  let bx := budgetLeft s x.2.ctx x.2.allot
  let by_ := budgetLeft s y.2.ctx y.2.allot
  let cx := hdrField x.2.hdr 56 1
  let cy := hdrField y.2.hdr 56 1
  py < px || (px = py && (fracGt bx by_ || (!fracGt by_ bx && (cx < cy || (cx = cy && x.1 < y.1)))))

/-- Insert in the order of preference. -/
def launchInsert (s : State) (x : Nat × Kernel) : List (Nat × Kernel) → List (Nat × Kernel)
  | [] => [x]
  | y :: r => if launchBefore s x y then x :: y :: r else y :: launchInsert s x r

/-- QUEUED launches in the order of preference. -/
def queuedLaunches (s : State) : List (Nat × Kernel) :=
  (s.kernels.filter fun kk => kk.2.st = .queued).foldl (fun acc x => launchInsert s x acc) []

/-- Die `d` is admitted to service (`SR.DEVID.DIEUP`). -/
def dieUp (s : State) (d : Nat) : Bool := s.dev.dieup.getLsbD d

/-- Scratchpad areas that running tasks claim on a tile, of both encodings: offset and bytes (R345, R362). -/
def taskAreas (s : State) (tile : Nat) : List (Nat × Nat) :=
  (((tileThreads s tile).filter fun kt => kt.2.role = .task && kt.2.running && 0 < kt.2.scratch).map fun kt => (kt.2.scratchAt, kt.2.scratch)) ++
  ((s.acts.filter fun ka => ka.2.tile = tile && ka.2.task.isSome && 0 < ka.2.scratch).map fun ka => (ka.2.scratchAt, ka.2.scratch))

/-- The headers of the ended groups whose live orphans still run on a tile (R362). -/
def orphanHdrs (s : State) (tile : Nat) : List (BitVec 512) :=
  (allErrands s).filterMap fun x => match x.2.2.owner with
    | .orphan kn => if x.2.2.at_ = tile && !x.2.2.st.final then (s.kern? kn).map (·.hdr) else none
    | _ => none

/-- The scratchpad bytes, and the matrix unit, that orphans keep reserved on a tile (R362). -/
def orphanScratch (s : State) (tile : Nat) : Nat := (orphanHdrs s tile).foldl (fun n h => max n (hdrField h 8 4)) 0
def orphanWork (s : State) (tile : Nat) : Bool := (orphanHdrs s tile).any hdrWork

/-- The contexts that a group of this header would use are free (R358). -/
def contextsFree (s : State) (tile : Nat) (h : BitVec 512) : Bool :=
  ((List.range (hdrField h 14 1)).all fun n => (s.thr (threadKey tile n)).stat = .free) &&
  ((List.range (hdrField h 15 1)).all fun n => (s.thr (threadKey tile (16 + n))).stat = .free)

/-- The planes, scratchpad bytes and matrix unit that a group of this header would use are free (R358, R362): a group's SCRATCH begins at offset 0. -/
def tileFree (s : State) (tile : Nat) (h : BitVec 512) : Bool :=
  contextsFree s tile h && (List.range (hdrPlanes h)).all (fun p => !planeLive s tile p) &&
  hdrField h 8 4 ≤ 0x100000 && (hdrField h 8 4 = 0 || (orphanScratch s tile = 0 && (taskAreas s tile).all fun a => hdrField h 8 4 ≤ a.1)) &&
  !(hdrWork h && orphanWork s tile)

/-- No live or saved group holds the tile; one that has ended holds it no longer, but for what its orphans reserve (R360, R362, Table 17-1). -/
def noGroup (s : State) (tile : Nat) : Bool :=
  match (s.tile tile).group with
  | some g => g.stat = .ended
  | none => true

/-- Agents of another context still use a tile: a task, an activation or an errand that outlives its group (R362). They reach the whole of their own tile's
scratchpad, so no group of a context comes beside another's (R318; log 126). -/
def strangers (s : State) (tile ctx : Nat) : Bool :=
  ((tileThreads s tile).any fun kt => kt.2.running && kt.2.ctx ≠ ctx) || (s.acts.any fun ka => ka.2.tile = tile && ka.2.ctx ≠ ctx) ||
  (allErrands s).any fun x => x.2.2.at_ = tile && x.2.2.ctx ≠ ctx && !x.2.2.st.final

/-- Some dirty line under the mapping entries of a tile has no way home at this moment (R15, R411). -/
def tileHeld (s : State) (tile : Nat) : Bool := (s.tile tile).spmap.toList.any fun e => e.getLsbD 63 && spHeld s tile e

/-- The tile fits a group of the kernel (R360), and can be handed to it now. -/
def tileFits (s : State) (k : Kernel) (tile : Nat) : Bool :=
  !isReeve s tile && k.dies.getLsbD (dieOf tile) && dieUp s (dieOf tile) && noGroup s tile && tileFree s tile k.hdr && !strangers s tile k.ctx &&
  !tileHeld s tile && mayStart s (dieOf tile) (hdrField k.hdr 56 1)

/-- Fitting tiles in ascending device-wide number. -/
def fittingTiles (s : State) (k : Kernel) : List Nat := (List.range 512).filter (tileFits s k)

/-- The blocks of a kernel's groups for stack regions and barns, and whether the context's W0 memory holds them all (R353, R360). -/
def kernelBlocks (s : State) (k : Kernel) : List Nat := pickBlocks (areas s k.ctx) s.tick k.hdr 0 k.groups
def blocksFit (s : State) (k : Kernel) : Bool :=
  (kernelBlocks s k).zipIdx.all fun b => clearOf (areas s k.ctx) b.1 (blockBytes k.hdr b.2)

/-- A held launch may be considered now: its level, no stopped allotment, no spent energy (R317, R350, Table 17-5). -/
def launchOpen (s : State) (k : Kernel) : Bool :=
  hdrField k.hdr 57 1 ≤ s.dev.service.toNat && !allotStopped s k.ctx k.allot && !energySpent s k.ctx k.allot

/-- The launch has been QUEUED for 200 µs (R359). -/
def starved (s : State) (k : Kernel) : Bool := k.starve || k.since + 200000 ≤ s.dev.hubNs

/-- The first launch in the order whose groups all fit, with their stack regions; none behind a starved one that does not (R359). -/
def pickLaunch (s : State) : List (Nat × Kernel) → Option (Nat × Kernel × List Nat)
  | [] => none
  | (n, k) :: r =>
    let ts := (fittingTiles s k).take k.groups
    if launchOpen s k && ts.length = k.groups && blocksFit s k then some (n, k, ts)
    else if starved s k then none else pickLaunch s r

/-- A context whose root asks for isolation (R318). -/
def isolated (s : State) (cn : Nat) : Bool := (s.ctx cn).allots.any fun ja => ja.2.parent.isNone && ja.2.flags.getLsbD 2

/-- A frame table as firmware writes it: every plane is ranked first in one of the first four slots, strict ones for a die where an isolated context holds groups
(R318, R368; log 106). -/
def frameTable (strict : Bool) (tick die : Nat) : Vector (BitVec 16) 64 :=
  Vector.ofFn fun i => if i.val < 4 then (if strict then 0x8000#16 else 0) ||| BitVec.ofNat 16 ([0xE4, 0x39, 0x4E, 0x93].getD i.val 0)
    else Config.frameEntry tick die i.val &&& 0x80FF#16

/-- Firmware writes the frame table of a die. -/
def writeRanks (s : State) (die : Nat) (strict : Bool) : State :=
  { s with dev := { s.dev with frame := s.dev.frame.mapIdx fun i x => if i = die then frameTable strict s.tick i else x } }

/-- A tile's scratchpad zeroed but for the areas that tasks and orphans keep (R318, R362). -/
def zeroScratch (s : State) (tile : Nat) (keep : List (Nat × Nat)) : State :=
  let lo := scratchBase tile
  let gone := fun (k : Nat) => lo ≤ k && k < lo + 2 ^ 20 && !(keep.any fun a => lo + a.1 ≤ k && k < lo + a.1 + a.2)
  { s with mem := s.mem.filter fun c => !gone c.1, poison := s.poison.filter fun m => !gone m.1 }

/-- A tile's scratchpad passes to a context: what an earlier group left under mapping entries is written back (R73), and another context's bytes are
zeroed, but what running tasks and orphans keep; the die of an isolated context's tile gets strict slots (R318). -/
def handTile (s : State) (tile ctx : Nat) : State :=
  let old := (s.tile tile).spOwner
  let keep := (0, orphanScratch s tile) :: taskAreas s tile
  let s := spReset s tile
  let s := if old = ctx then s else zeroScratch s tile keep
  let s := s.modTile tile fun t => { t with spOwner := ctx }
  if isolated s ctx then writeRanks s (dieOf tile) true else s

/-- Reserve a tile for a group. -/
def reserveTile (s : State) (kn ctx : Nat) (tr : Nat × Nat) : State :=
  let g : Group := { kernel := kn, rank := tr.2, stat := .reserved, resid := .resident, restoreReq := false, preemptReq := false }
  (handTile s tr.1 ctx).modTile tr.1 fun t => { t with group := some g, last := some kn }

/-- `GROUP_PLACEMENT`: one launch's groups are reserved together, rank r on the rth tile, with the stack regions of each (R352, R353). -/
def execGroupPlacement (s : State) : Outcome State Fault Refusal :=
  .next <| match pickLaunch s (queuedLaunches s) with
  | none => s
  | some (n, k, ts) =>
    let bl := kernelBlocks s k
    let s := ts.zipIdx.foldl (fun s tr => reserveTile s n k.ctx tr) s
    s.setKern n { k with st := .placed, tiles := ts, live := List.range k.groups, stackAt := bl }

/-- `LAUNCH_STARVATION`: a launch has been QUEUED for 200 µs (R359). -/
def execLaunchStarvation (n : Nat) (s : State) : Outcome State Fault Refusal :=
  .next <| s.modKern n fun k => if k.st = .queued && k.since + 200000 ≤ s.dev.hubNs then { k with starve := true } else k

/-! ### Start (R353, R354) -/

/-- Reset a placed tile and write its copy of the shape record (R83, R353). What agents of earlier groups still use stays: a task that waits on a semaphore
(R345), planes and ports at work, and the matrix unit that an orphan keeps (R362). -/
def resetTile (s : State) (k : Kernel) (tile : Nat) : State :=
  let keep := orphanWork s tile
  let s := s.modTile tile fun t =>
    { t with bfmt := Vector.replicate 16 0, spmap := Vector.replicate 16 0, spFilled := 0, spDirty := 0
             sems := Vector.replicate 32 0, bars := Vector.replicate 16 { gen := 0, arrived := [] }
             macros := if keep then t.macros else Vector.replicate 4 none, carried := if keep then t.carried else []
             frozen := if keep then t.frozen else 0
             planes := t.planes.mapIdx fun i b => if planeLive s tile i then b else none
             ports := t.ports.map fun p => if p.bound.isSome || p.inst.isSome then p else Port.reset
             group := t.group.map fun g => { g with stat := .live } }
  { s with mem := Memory.writeN s.mem (scratchBase tile + 0xFFFC0) (bytesOf 64 k.shape) }

/-- Start the lead of a group: context 0 of the work core, `a0` = the argument area (R130, R353). -/
def startLead (s : State) (kn : Nat) (k : Kernel) (tile : Nat) : State :=
  let t := bornThread s tile 0 kn k .lead k.allot (k.hdrAddr + 64)
  s.setThr (threadKey tile 0) (t.xw 10 (if k.argLen = 0 then 0 else k.argAddr))

/-- The planes that the placement entry of a function allows (R122, R134). -/
def planesOf (k : Kernel) (fn : Word) : BitVec 4 := match k.places.find? (·.fn = fn) with | some p => p.planes | none => 0

/-- Inject the root of a graph kernel (R218, R354): none while no plane or tag is there, or its frame is out of reach. -/
def injectRoot (s : State) (kn : Nat) (k : Kernel) : Option State :=
  let tile := k.tiles.getD 0 0
  let ag : Agent := { tile := tile, ctx := k.ctx }
  let entry := k.hdrAddr + 64
  let mask := planesOf k (entry ||| 1)
  let top := regionTop k 0 (16 + hdrField k.hdr 15 1)
  let fa := top - 128
  let args := [if k.argLen = 0 then 0 else k.argAddr]
  let stop := fun (s : State) (c : BitVec 6) => some (allotStop (s.setKern kn { k with st := .running }) k.ctx k.allot c)
  match wakeCheck s tile k.ctx entry with
  | (s, some w) => if w = fetchHeld then none else stop s w.1
  | (s, none) =>
    match frameReach s ag fa 128 .wr with
    | (_, .error (.hold, _)) => none
    | (s, .error (.trap c _, _)) => stop s c
    | (s, .ok ()) =>
      match wakePlane s tile k.ctx entry mask, nextTag (s.ctx k.ctx) with
      | some plane, some tag =>
        let s := writeFrame s ag fa (frameBytes 0 0 (tagw plane false false tag) (args ++ List.replicate 7 0))
        let (id, s) := newAct s k.ctx kn k.allot tile plane tag mask fa entry (top - BitVec.ofNat 64 (hdrStack k.hdr)) args true
        some (s.setKern kn { k with st := .running, root := some id })
      | _, _ => none

/-- The groups of a placed kernel may start: the service level runs them, and no stop mark holds their dies (R28, R30). -/
def startOpen (s : State) (k : Kernel) : Bool := k.tiles.all fun t => runsOn s t k.ctx

/-- `GROUP_START`: every group of a placed kernel is reset, then its leads start or its root is injected. Buffers of mode in are dropped first (R306). -/
def execGroupStart (kn : Nat) (s : State) : Outcome State Fault Refusal :=
  .next <| heldBack id (fun s => match s.kern? kn with
  | none => s
  | some k =>
    if k.st ≠ .placed || !startOpen s k then s else
    let r := buffersIn s k.ctx k.bufs
    if r.hubWait then r else
    let r := k.tiles.foldl (fun s t => resetTile s k t) r
    if hdrGraph k.hdr then (injectRoot r kn k).getD s
    else k.tiles.foldl (fun s t => startLead s kn k t) (r.setKern kn { k with st := .running })) s

/-! ### Tasks (R344 to R347) -/

/-- A task type's entry, by its fields: ENTRY, XREGS, VREGS, CHAN, SCRATCH, PRIO, BLOCKED (R343). -/
structure TaskType where
  entry   : Word
  xregs   : Nat
  vregs   : Nat
  chan    : Nat
  scratch : Nat
  prio    : Nat
  blocked : Bool
deriving DecidableEq, Repr

def readType (s : State) (tt i : Nat) : TaskType :=
  let rd := fun (o n : Nat) => leNat (Memory.readN s.mem (tt + 64 * i + o) n)
  { entry := BitVec.ofNat 64 (rd 0 8), xregs := rd 8 1, vregs := rd 9 1, chan := rd 10 2, scratch := rd 12 4, prio := rd 16 1, blocked := rd 17 1 % 2 = 1 }

/-- The type that a record's task would start with: its own, or the lowest-numbered unblocked one of its channel (R344). -/
def taskType (s : State) (t : Task) : Option TaskType :=
  let q := taskqOf s t.ctx t.allot
  if q = 0 then none else
  let n := leNat (Memory.readN s.mem q 2)
  let tt := leNat (Memory.readN s.mem (q + 8) 8)
  let sel := hdrField t.record 0 2
  if sel / 2 ^ 15 = 0 then
    let ty := readType s tt (sel % 4096)
    if sel % 4096 < n && !ty.blocked then some ty else none
  else ((List.range n).map (readType s tt)).find? fun ty => ty.chan = sel % 4096 && !ty.blocked

/-- The tile matches TDIE, TCOL and TROW, 0xFFFF meaning any. -/
def targetMatches (t : Task) (tile : Nat) : Bool :=
  let ok := fun (f v : Nat) => f = 0xFFFF || f = v
  ok (hdrField t.record 2 2) (dieOf tile) && ok (hdrField t.record 4 2) (tile % 128 / 8) && ok (hdrField t.record 6 2) (tile % 8)

/-- A free area of `n` scratchpad bytes of a tile beside its group's, the orphans' and the running tasks': the lowest offset. -/
def freeArea (s : State) (tile : Nat) (own n : Nat) : Option Nat :=
  let areas := (0, orphanScratch s tile) :: taskAreas s tile
  let cands := own :: (areas.map fun a => a.1 + a.2)
  (cands.filter fun o => own ≤ o && o + n ≤ 0x100000 && areas.all fun a => o + n ≤ a.1 || a.1 + a.2 ≤ o).foldl
    (fun m o => match m with | some x => some (min x o) | none => some o) none

/-- A tile can take work of a context now: a resident group of the context, a free spare context, headroom (R345, R373). -/
def tileTakes (s : State) (ctx tile : Nat) : Option Kernel :=
  match (s.tile tile).group with
  | some g =>
    match s.kern? g.kernel with
    | some k =>
      if g.stat = .live && g.resid = .resident && k.ctx = ctx && (spareContext s tile).isSome && runsOn s tile ctx && mayStart s (dieOf tile) (hdrField k.hdr 56 1)
      then some k else none
    | none => none
  | none => none

/-- The group on a call task's tile is the one that its placement names (R357). -/
def callGroup (s : State) (t : Task) : Bool := t.kern = 0 || groupKernel s t.tile = some t.kern

/-- Where a task could be dispatched on a die: tile, and for an ordinary task its type and scratchpad offset. -/
def taskPlace (s : State) (die : Nat) (t : Task) : Option (Nat × Option (TaskType × Nat)) :=
  if allotStopped s t.ctx t.allot || energySpent s t.ctx t.allot then none
  else if t.call.isSome then
    if dieOf t.tile = die && callGroup s t && (tileTakes s t.ctx t.tile).isSome then some (t.tile, none) else none
  else match taskType s t with
    | none => none
    | some ty =>
      ((List.range 128).map (die * 128 + ·)).findSome? fun tile =>
        if !targetMatches t tile then none else
        match tileTakes s t.ctx tile with
        | none => none
        | some k => (freeArea s tile (hdrField k.hdr 8 4) ty.scratch).map fun o => (tile, some (ty, o))

/-- Task priority: 8 for a call task, which goes before the others of its allotment; else the record's, or the type's (R343, R345). -/
def taskPrio (t : Task) (ty : Option (TaskType × Nat)) : Nat :=
  match ty with
  | none => 8
  | some (ty, _) => if hdrField t.record 16 1 ≤ 7 then hdrField t.record 16 1 else ty.prio

abbrev Cand := Nat × Task × Nat × Option (TaskType × Nat)

/-- Candidate `x` goes before `y` (R345); an earlier post order decides last. -/
def taskBefore (s : State) (x y : Cand) : Bool :=
  let px := effPrio (s.ctx x.2.1.ctx) x.2.1.allot
  let py := effPrio (s.ctx y.2.1.ctx) y.2.1.allot
  let qx := taskPrio x.2.1 x.2.2.2
  let qy := taskPrio y.2.1 y.2.2.2
  let bx := budgetLeft s x.2.1.ctx x.2.1.allot
  let by_ := budgetLeft s y.2.1.ctx y.2.1.allot
  py < px || (px = py && (qy < qx || (qx = qy && (fracGt bx by_ || (!fracGt by_ bx && x.1 < y.1)))))

/-- The task a die dispatches next. -/
def pickTask (s : State) (die : Nat) : Option Cand :=
  (s.tasks.zipIdx.filterMap fun ti => (taskPlace s die ti.1).map fun p => (ti.2, ti.1, p.1, p.2)).foldl
    (fun m x => match m with
      | none => some x
      | some y => if taskBefore s x y then some x else some y) none

/-- Start a C callee (R134, R152): `sp` at the frame, `a0` to `a7` from ARGS, `ra` 0; none while ARGS is out of reach. Where ARGS cannot be read at all, the
callee meets that as a trap at its entry (log 115). -/
def startCallee (s : State) (tile tp : Nat) (t : Task) (fa : Word) (kn : Nat) (k : Kernel) : Option State :=
  let ag : Agent := { tile := tile, ctx := t.ctx, dev := true }
  let key := threadKey tile tp
  let b := bornThread s tile tp kn k .callee t.allot (t.record.setWidth 64)
  let b := { b.xw 2 fa with stackBase := t.record.extractLsb' 64 64, frame := some fa }
  match readRange (acquireDevice s tile) ag (fa + 32) 64 with
  | (_, .error (.hold, _)) => none
  | (s, .error (.trap c sub, a)) => some (takeTrap (s.setThr key b) key c b.pc a (BitVec.ofNat 64 sub))
  | (s, .ok bs) =>
    some (s.setThr key ((List.range 8).foldl (fun b j => b.xw (10 + j) (BitVec.ofNat 64 (leNat ((bs.drop (8 * j)).take 8)))) b))

/-- Start a C task (R346). -/
def startTaskC (s : State) (tile tp : Nat) (t : Task) (ty : TaskType) (o : Nat) (kn : Nat) (k : Kernel) : State :=
  let b := bornThread s tile tp kn k .task t.allot ty.entry
  let b := (b.xw 10 (BitVec.ofNat 64 (hdrField t.record 8 8))).xw 11 (BitVec.ofNat 64 o)
  s.setThr (threadKey tile tp) { b with xregs := ty.xregs, vregs := ty.vregs, scratch := ty.scratch, scratchAt := o, task := t.id }

/-- Start a G task (R346): an activation with `f0` = ARG, its frame in a region of its own (log 13); none while no plane or tag is there, or the frame is out of
reach. -/
def startTaskG (s : State) (tile : Nat) (t : Task) (ty : TaskType) (o : Nat) (kn : Nat) (k : Kernel) : Option State :=
  let ag : Agent := { tile := tile, ctx := t.ctx }
  let entry := ty.entry &&& ~~~1#64
  let mask := planesOf k ty.entry
  let base := pickArea (areas s t.ctx) (Config.areaAt s.tick 512) (hdrStack k.hdr)
  let fa : Word := BitVec.ofNat 64 (base + hdrStack k.hdr - 128)
  let args := [BitVec.ofNat 64 (hdrField t.record 8 8)]
  match wakeCheck s tile t.ctx entry with
  | (s, some w) => if w = fetchHeld then none else some (allotStop s t.ctx t.allot w.1)
  | (s, none) =>
    match frameReach s ag fa 128 .wr with
    | (_, .error (.hold, _)) => none
    | (s, .error (.trap c _, _)) => some (allotStop s t.ctx t.allot c)
    | (s, .ok ()) =>
      match wakePlane s tile t.ctx entry mask, nextTag (s.ctx t.ctx) with
      | some plane, some tag =>
        let s := writeFrame s ag fa (frameBytes 0 0 (tagw plane false false tag) (args ++ List.replicate 7 0))
        let (id, s) := newAct s t.ctx kn t.allot tile plane tag mask fa entry (BitVec.ofNat 64 base) args false
        some (s.modAct id fun a => { a with task := some (t.id, s.dev.cycles), scratch := ty.scratch, scratchAt := o })
      | _, _ => none

/-- A dispatch of the candidate: none while what it starts with is out of reach. -/
def dispatch (s : State) (x : Cand) : Option State :=
  let t := x.2.1
  let tile := x.2.2.1
  match groupKernel s tile, spareContext s tile with
  | some kn, some tp =>
    match s.kern? kn with
    | none => none
    | some k =>
      match t.call, x.2.2.2 with
      | some (fa, _), _ => startCallee s tile tp t fa kn k
      | none, some (ty, o) => if ty.entry.getLsbD 0 then startTaskG s tile t ty o kn k else some (startTaskC s tile tp t ty o kn k)
      | none, none => none
  | _, _ => none

/-- `TASK_DISPATCH`: a die's dispatcher dispatches the first eligible task, which leaves its queue. It decides for the next cycle, from the state in which that
cycle begins: what arrives later in it does not stop the dispatch (R247, R345, R347). -/
def execTaskDispatch (die : Nat) (s : State) : Outcome State Fault Refusal :=
  .next <| match pickTask s die with
  | none => s
  | some x =>
    let t := x.2.1
    let u := { s with tasks := s.tasks.eraseIdx x.1, dev := { s.dev with cycles := s.dev.cycles + 1 } }
    match dispatch (if t.call.isSome then u else syncHead u t.ctx t.allot) x with
    | some r => r
    | none => s

/-! ### Completion (R355, R356) -/

/-- The kernel's slots in its tiles' errand tables are freed, orphans' records unread; an errand attached to a STOPPED thread keeps its own (R383, Table 17-2). -/
def freeKernelErrands (s : State) (kn : Nat) : State :=
  let free := fun (e : Errand) => e.kernel = kn && e.st.final && (match e.owner with | .thread _ => false | _ => true)
  (allErrands s).foldl (fun s x => if free x.2.2 then s.freeErrand x.1 x.2.1 else s) s

/-- No kernel of the context remains whose completion has not been made (Table 14-1). -/
def lastKernel (s : State) (ctx : Nat) : Bool := !(s.kernels.any fun kk => kk.2.ctx = ctx && !kk.2.written)

/-- Errands of a kernel that a stop has still to end (R306, R317, R356). -/
def liveErrands (s : State) (kn : Nat) : Bool := (allErrands s).any fun x => x.2.2.kernel = kn && !x.2.2.st.final

/-- `KERNEL_COMPLETION`: the steps after the decision point, or those of a failed kernel once its errands are final; then the completion entry. -/
def execKernelCompletion (kn : Nat) (s : State) : Outcome State Fault Refusal :=
  .next <| heldBack id (fun s => match s.kern? kn with
  | none => s
  | some k =>
    if (k.st ≠ .complete && k.st ≠ .failed) || k.written || liveErrands s kn then s else
    let mine := k.tiles.filter fun t => (s.tile t).last = some kn
    if mine.any (tileHeld s) then s else
    let s := mine.foldl spReset s
    let s := buffersOut s k.ctx k.bufs
    let r : State × Except (BitVec 6) (List (Word × List Byte)) :=
      if k.st = .complete then measured s k.ctx k.bufs else (s, .error k.cause)
    let out : State × Nat × Word × KStat × BitVec 6 := match r with
      | (s, .ok l) => (l.foldl (fun s x => appendResult s k.ctx x.1 x.2) s, 0, 0, .complete, 0)
      | (s, .error c) => (s, 6, BitVec.ofNat 64 (c.toNat + k.allot * 2 ^ 16), .failed, c)
    let s := freeKernelErrands out.1 kn
    let s := s.setKern kn { k with st := out.2.2.2.1, cause := out.2.2.2.2, written := true }
    let s := if lastKernel s k.ctx then s.modCtx k.ctx fun c => { c with st := if c.st = .running then .measured else c.st } else s
    complete s k.queue { tag := k.tag, ctx := k.ctx, status := out.2.1, value := out.2.2.1, index := k.pkt, notify := k.notify }) s

/-! ### Budgets, headroom, bell (R316, R367, R370 to R372) -/

/-- A meter at a period boundary: what exceeded its budget is charged to the next period (R371). -/
def meterNext (lim used : Nat) : Nat := if lim = 0 then 0 else used - lim

def Allot.nextPeriod (a : Allot) : Allot :=
  { a with mHbm := meterNext a.hbm a.mHbm, mMirfer := meterNext a.mirfer a.mMirfer, mEcyc := meterNext a.ecyc a.mEcyc
           mEnergy := meterNext a.energy a.mEnergy, mSlots := meterNext a.slots a.mSlots }

/-- A stopped thread is discarded, with what was attached to it (Table 17-2, R383). -/
def discardThread (s : State) (k : Nat) : State := (dropWarnTo (dropAttached s k) k).modThr k fun t => { t with stat := .free }

/-- A stopped allotment is armed again: its stopped threads are discarded (Tables 14-1, 17-2). -/
def rearm (s : State) (cn : Nat) (old : Ctx) (i : Nat) : State :=
  s.threads.foldl (fun s kt => if kt.2.ctx = cn && kt.2.stat = .stopped && (allotPath old kt.2.allot).contains i then discardThread s kt.1 else s) s

/-- A new tree takes effect: meters go on by INDEX, stopped allotments that it holds are armed again, a faulted context is MEASURED once its root is
(Table 14-1, R315, R317). -/
def installTree (s : State) (cn : Nat) (c : Ctx) (tree : Tbl Allot) : State :=
  let again := (c.allots.filter fun ja => ja.2.stopped && (Tbl.find? tree ja.1).isSome).map (·.1)
  let tree := tree.map fun ja => match Tbl.find? c.allots ja.1 with
    | some o => (ja.1, { ja.2 with mHbm := o.mHbm, mMirfer := o.mMirfer, mEcyc := o.mEcyc, mEnergy := o.mEnergy, mSlots := o.mSlots, stopped := false })
    | none => ja
  let rootBack := c.allots.any fun ja => ja.2.parent.isNone && again.contains ja.1
  let s := again.foldl (fun s i => rearm s cn c i) s
  s.modCtx cn fun c => { c with allots := tree, pending := none, st := if c.st = .faulted && rootBack then .measured else c.st }

/-- `BUDGET_PERIOD`: the hub's 100 µs boundary. Every meter restarts, at what exceeded the budget of the period that ends (R371); then new trees take effect, and
every frame period begins with slot 0. -/
def execBudgetPeriod (s : State) : Outcome State Fault Refusal :=
  .next <|
    let next := fun (kc : Nat × Ctx) => (kc.1, { kc.2 with allots := kc.2.allots.map fun ja => (ja.1, ja.2.nextPeriod) })
    let s := { s with ctxs := s.ctxs.map next }
    let s := s.ctxs.foldl (fun s kc => match kc.2.pending with | some t => installTree s kc.1 kc.2 t | none => s) s
    { s with dev := { s.dev with slot := Vector.replicate 4 0 } }

/-- Firmware lowers the headroom of a die above a throttle mark, and sets it to 0 at a stop mark (Table 01-6). What a stack's or the hub's throttle mark lowers
is open: 'the die concerned' is taken as the die of a compute-die sensor, and the other two marks only halve their rates (log 98). -/
def loweredHead (s : State) (d : Nat) (h : BitVec 24) : BitVec 24 :=
  if dieHalted s d then 0
  else if s.dev.thThrottled.getLsbD d && Config.throttledHead s.tick < h then Config.throttledHead s.tick
  else h

/-- The headrooms of one period keep to the power limit: 1 W is 1,000 µJ in 1 ms, and each die gets at most what the dies before it leave (R29, log 99). -/
def boundHeads (left : Nat) : List (BitVec 24) → List (BitVec 24)
  | [] => []
  | h :: r => let x := min h.toNat left; BitVec.ofNat 24 x :: boundHeads (left - x) r

/-- Energy per ms that isolated contexts with groups on a die have reserved from its headroom: their ENERGY in each of ten periods (R318). -/
def isolShare (s : State) (d : Nat) : Nat :=
  (s.ctxs.filter fun kc => isolated s kc.1 && s.kernels.any fun kk => kk.2.ctx = kc.1 && kk.2.tiles.any fun t => t < 512 && dieOf t = d).foldl
    (fun n kc => kc.2.allots.foldl (fun n ja => if ja.2.parent.isNone then n + 10 * ja.2.energy else n) n) 0

/-- `HEADROOM_UPDATE`: the power controller rewrites every die's register at a 1 ms boundary, EPOCH counts it, and a new power limit takes effect (R29, R372).
What isolated contexts have reserved stays in it (R318). -/
def execHeadroomUpdate (h0 h1 h2 h3 : BitVec 24) (s : State) : Outcome State Fault Refusal :=
  let share := fun (d : Nat) (h : BitVec 24) => if h.toNat < isolShare s d then BitVec.ofNat 24 (min (isolShare s d) (2 ^ 24 - 1)) else h
  let heads := boundHeads (1000 * s.dev.plimit) [share 0 h0, share 1 h1, share 2 h2, share 3 h3]
  let next := fun (i : Nat) (h : Headroom) =>
    let head := loweredHead s i (heads.getD i 0)
    { head := head, epoch := h.epoch + 1, thr := head.toNat < 150000 : Headroom }
  .next { s with dev := { s.dev with active := s.dev.plimit, headroom := s.dev.headroom.mapIdx next } }

/-- `BELL_SLOT`: a die's sequencer goes on to its next slot (R367). -/
def execBellSlot (die : Nat) (s : State) : Outcome State Fault Refusal :=
  .next { s with dev := { s.dev with slot := s.dev.slot.mapIdx fun i n => if i = die then (n + 1) % 64 else n } }

end Sys2Proof.Machine
end

