-- ==== Sys2Proof/Machine/System.lean ====
section
/-!
DEFINITION. System instructions (R239 to R248, R252): contexts, state registers, `yield`, traps, tasks, measurement and the return from a handler.
-/
namespace Sys2Proof.Machine
open Sys2Proof
open Host (Outcome)

/-- `PRIV` with a code of R239. -/
def privTrap (s : State) (code : Nat) : BRes := .trap s cPRIV 0 (BitVec.ofNat 64 code)

/-! ### `ctx.start` and `ctx.reap` (R87, R125, R239, R240) -/

/-- The context that an operand names: its `tp`, or a code of R239. -/
def namedContext (k : Nat) (n : Word) : Except Nat Nat :=
  if ctxIx k ≠ 0 then .error 1
  else if n = 16 then (if isStage k then .error 3 else .ok 16)
  else if 1 ≤ n.toNat && n.toNat ≤ 15 then .ok ((if isStage k then 16 else 0) + n.toNat)
  else .error 3

/-- ROLES, WCTX and SCTX permit the context (R125). -/
def rolesPermit (h : BitVec 512) (tp : Nat) : Bool :=
  hdrWorker h && (if 16 ≤ tp then hdrStage h && tp - 16 < hdrField h 15 1 else decide (tp < hdrField h 14 1))

def execCtxStart (f : CForm) (s : State) : Outcome State Fault Refusal :=
  .next <| runC 0xB0 f s fun e s =>
    match namedContext e.k e.a with
    | .error c => privTrap s c
    | .ok tp =>
      match s.kern? (s.thr e.k).kernel with
      | none => privTrap s 2
      | some k =>
        if !rolesPermit k.hdr tp then privTrap s 2
        else if (s.thr (threadKey e.tile tp)).stat ≠ .free then privTrap s 4
        else match checkPtr s e.tile e.ctx e.b with
          | (s, .error w) => whyC s w
          | (s, .ok true) => .trap s cEXEC_KIND (e.b &&& ~~~1#64) 0
          | (s, .ok false) =>
            let t := { bornThread s e.tile tp (s.thr e.k).kernel k .worker (s.thr e.k).allot e.b with turned := s.dev.cycles + 16 }
            .ok (s.setThr (threadKey e.tile tp) (t.xw 10 e.c)) false

/-- Some thread already waits to reap thread `n`. -/
def beingReaped (s : State) (n : Nat) : Bool := s.threads.any fun kt => kt.2.fills.any fun f => f.kind = .reap n

def execCtxReap (f : CForm) (s : State) : Outcome State Fault Refusal :=
  .next <| runC 0xB1 f s fun e s =>
    match namedContext e.k e.a with
    | .error c => privTrap s c
    | .ok tp =>
      let n := threadKey e.tile tp
      let t := s.thr n
      if !(t.running || t.stat = .ended) || beingReaped s n then privTrap s 5
      else .ok (s.modThr e.k fun t => t.await
        { reg := f.d.toNat, val := 0, pois := none, ticket := e.ticket, kind := .reap n, err := false }) true

/-! ### State registers (R242, Table 10-2) -/

/-- `SR.DEVID` (Table 01-7). -/
def devId (s : State) : Word := 0x1280#16 ++ 0x1#4 ++ 0x0#4 ++ s.dev.dieup ++ s.dev.hbmset ++ 0#32

/-- `SR.TILEID` of a thread. -/
def tileId (k : Nat) : Word :=
  BitVec.ofNat 64 (tileOf k % 128 + dieOf (tileOf k) * 2 ^ 7 + (if isStage k then 2 ^ 9 else 0) + ctxIx k * 2 ^ 10)

/-- `SR.HEADROOM` of a die (Table 17-6). -/
def headroomWord (s : State) (die : Nat) : Word :=
  let h := getV s.dev.headroom { head := 0, epoch := 0 } die
  0#24 ++ h.head ++ h.epoch ++ 0#4 ++ BitVec.ofBool h.thr ++ BitVec.ofNat 3 (limitOf s die)

/-- A mapping entry as it reads: DIRTY tells whether a line of its range is not yet written back (Table 03-5). -/
def spmapWord (s : State) (tile i : Nat) : Word :=
  let e := getV (s.tile tile).spmap 0 i
  let lo := fieldOf e 58 4
  let n := (fieldOf e 54 4 + 1 - lo) * 512
  let m : BitVec 8192 := BitVec.ofNat 8192 ((2 ^ n - 1) * 2 ^ (lo * 512))
  (e &&& ~~~0x4000000000000000#64) ||| (if e.getLsbD 63 && (s.tile tile).spDirty &&& m ≠ 0 then 0x4000000000000000#64 else 0)

/-- `SR.RANK`. -/
def rankWord (s : State) (tile : Nat) : Word :=
  match (s.tile tile).group with
  | some g => BitVec.ofNat 64 (g.rank + (match s.kern? g.kernel with | some k => k.groups * 2 ^ 32 | none => 0))
  | none => 0

/-- The value of a state register for a thread. -/
def srRead (s : State) (k n : Nat) : Word :=
  let t := s.thr k
  let tile := tileOf k
  if 0x10 ≤ n && n < 0x20 then getV (s.tile tile).bfmt 0 (n - 0x10)
  else if 0x20 ≤ n && n < 0x30 then spmapWord s tile (n - 0x20)
  else if 0x38 ≤ n && n ≤ 0x3B then getV t.tsave 0 (n - 0x38)
  else match n with
    | 0x00 => devId s
    | 0x01 => s.dev.service.setWidth 64
    | 0x02 => BitVec.ofNat 64 t.ctx
    | 0x03 => tileId k
    | 0x04 => rankWord s tile
    | 0x08 => t.fstat.setWidth 64
    | 0x09 => t.warn.setWidth 64
    | 0x0A => if t.cancelq then 1 else 0
    | 0x30 => t.tcause.setWidth 64
    | 0x31 => t.tepc
    | 0x32 => t.taddr
    | 0x33 => t.tinfo
    | 0x34 => t.tvec
    | 0x35 => t.tframe
    | 0x36 => t.telem
    | 0x37 => if t.inh then 1 else 0
    | 0x40 => headroomWord s (dieOf tile)
    | 0x41 => BitVec.ofNat 64 t.cmconf
    | 0x50 => BitVec.ofNat 64 s.dev.cycles
    | 0x51 => BitVec.ofNat 64 t.issued
    | 0x52 => BitVec.ofNat 64 s.dev.hubNs
    | _ => 0

/-- `getsr`: a counter is long-latency; a read of `SR.CMCONF` clears it. -/
def execGetsr (f : CForm) (s : State) : Outcome State Fault Refusal :=
  .next <| runC 0xB2 f s fun e s =>
    let n := fieldOf f.imm 0 12
    let v := srRead s e.k n
    let s := if n = 0x41 then s.modThr e.k fun t => { t with cmconf := 0 } else s
    if 0x50 ≤ n then retFill e s v else retX e s v

/-- A write that the thread may not make (R242). -/
def denyWrite (e : CEnv) (s : State) : BRes :=
  if (s.thr e.k).traps.getLsbD 33 then privTrap s 8 else .ok (addWarn s e.k wPRIV) false

/-- Write a bank format register (R34, R67): a reserved format code changes nothing, reserved rounding codes warn. -/
def bfmtWrite (s : State) (k i : Nat) (v : Word) : State :=
  let warn := fun (s : State) => s.modThr k fun t => { t with warn := t.warn ||| 4 }
  if 24 ≤ fieldOf v 0 5 then warn s else
  let s := if 6 ≤ fieldOf v 15 3 then warn s else s
  let now := s.dev.cycles + 1
  if isStage k && Tbl.get (s.tile (tileOf k)).bfmtAt 0 i = now then s else
  s.modTile (tileOf k) fun t => { t with bfmt := putV t.bfmt i (v &&& 0xFFFFF01F#64), bfmtAt := if isStage k then t.bfmtAt else Tbl.set t.bfmtAt i now }

/-- The home records another tile as the holder of a line: it backs it with its scratchpad, or holds it exclusively (R72). -/
def heldElsewhere (s : State) (tile p : Nat) : Bool :=
  (match Tbl.find? s.mapped (lineOf p) with | some sk => placeTile sk ≠ tile | none => false) ||
  (match Tbl.find? s.excl (lineOf p) with | some t => t ≠ tile | none => false)

/-- Places of the lines of a global range that translate, with the scratchpad place of each; and whether a translation waits (R401). -/
def rangePlaces (s : State) (tile ctx : Nat) (va sk : Nat) : Nat → State × Bool × List (Nat × Nat)
  | 0 => (s, false, [])
  | n + 1 =>
    let r := translate s tile ctx (BitVec.ofNat 64 va) .rd
    let x := rangePlaces r.1 tile ctx (va + 128) (sk + 128) n
    match r.2 with
    | .ok p => (x.1, x.2.1, (lineOf p, sk) :: x.2.2)
    | .error f => (x.1, x.2.1 || f = notYet, x.2.2)

/-- A line cannot be registered at its home at this moment: no path leads there, or a dirty copy of it cannot go home (R15, R411). -/
def registerHeld (s : State) (tile p : Nat) : Bool :=
  (route s (dieOf tile) (homeDie p)).isNone || (knownTiles s).any fun t => drainHeld s t fun ln => ln = p

/-- Register the lines of a range that translate to pages of this device. -/
def registerLines (s : State) (ps : List (Nat × Nat)) : State :=
  ps.foldl (fun s p => if elsewhere s p.1 then s else registerLine s p.1 p.2) s

/-- Write a mapping-table entry (R71 to R73). A valid entry is written back and released first. It waits while a line has no way home, or the range does not
yet translate; then nothing is done but what a waiting translation does. -/
def spmapWrite (s : State) (k ctx i : Nat) (v : Word) : State × Bool :=
  let tile := tileOf k
  let old := getV (s.tile tile).spmap 0 i
  let w := v &&& 0xBFC000FFFFFFFFFF#64
  let lo := fieldOf w 58 4
  let hi := fieldOf w 54 4
  let put := fun (s : State) (w : Word) => s.modTile tile fun t => { t with spmap := putV t.spmap i w }
  let refuse := fun (s : State) => (s.modThr k fun t => { t with warn := t.warn ||| 8 }, true)
  if old.getLsbD 63 && spHeld s tile old then (s, false) else
  let gone := put (if old.getLsbD 63 then spWriteBack s tile old else s) (w &&& 0x7FFFFFFFFFFFFFFF#64)
  if !v.getLsbD 63 then (gone, true) else
  let clash := (gone.tile tile).spmap.toList.any fun e => e.getLsbD 63 && lo ≤ fieldOf e 54 4 && fieldOf e 58 4 ≤ hi
  if hi < lo || clash then refuse gone else
  let r := rangePlaces s tile ctx (fieldOf w 0 40 * 65536) (scratchBase tile + lo * 65536) ((hi + 1 - lo) * 512)
  if r.2.1 || r.2.2.any (fun p => registerHeld r.1 tile p.1) then (r.1, false) else
  let s := put (if old.getLsbD 63 then spWriteBack r.1 tile old else r.1) (w &&& 0x7FFFFFFFFFFFFFFF#64)
  if r.2.2.any fun p => heldElsewhere s tile p.1 then refuse s
  else (put (registerLines s r.2.2) w, true)

/-- `setsr` under the access codes of Table 10-2; a write of a read-only register is ignored. -/
def execSetsr (f : CForm) (s : State) : Outcome State Fault Refusal :=
  .next <| runC 0xB3 f s fun e s =>
    let n := fieldOf f.imm 0 12
    let v := e.a
    let upd := fun (g : Thread → Thread) => BRes.ok (s.modThr e.k g) false
    if 0x10 ≤ n && n < 0x20 then .ok (bfmtWrite s e.k (n - 0x10) v) false
    else if 0x20 ≤ n && n < 0x30 then
      let r := spmapWrite s e.k e.ctx (n - 0x20) v
      if r.2 then .ok r.1 false else .wait r.1
    else if 0x38 ≤ n && n ≤ 0x3B then upd fun t => { t with tsave := putV t.tsave (n - 0x38) v }
    else if n = 0x08 then upd fun t => { t with fstat := v.setWidth 13 &&& 0x1FDF#13 }
    else if n = 0x09 then upd fun t => { t with warn := t.warn &&& ~~~(v.setWidth 16) }
    else if n = 0x0A then upd fun t => { t with cancelq := t.cancelq && !v.getLsbD 0 }
    else if 0x30 ≤ n && n ≤ 0x37 then
      if !(s.thr e.k).inh then denyWrite e s
      else if n = 0x31 then upd fun t => { t with tepc := v }
      else .ok s false
    else .ok s false

/-! ### `yield`, `trap`, `brk`, `eret` -/

/-- `yield` (R243). -/
def execYield (f : CForm) (s : State) : Outcome State Fault Refusal :=
  .next <| runC 0xB4 f s fun e s =>
    let n := min (e.a + f.simm).toNat (2 ^ 20)
    if n = 0 then .ok s false else .ok (holdThr s e.k (.yield ((n + 15) / 16))) false

/-- `trap` and `brk` (R244): complete, then raise their cause. -/
def execTrap (f : CForm) (s : State) : Outcome State Fault Refusal :=
  .next <| runC 0xB6 f s fun _ s => .after s cTRAP_INSTR (BitVec.ofNat 64 (fieldOf f.imm 0 16))

def execBrk (f : CForm) (s : State) : Outcome State Fault Refusal :=
  .next <| runC 0xB7 f s fun _ s => .after s cBREAK (BitVec.ofNat 64 (fieldOf f.imm 0 16))

/-- `eret` (R252). Outside a handler its `PRIV` is not delivered: the thread and its fault domain stop. -/
def execEret (f : CForm) (s : State) : Outcome State Fault Refusal :=
  .next <| runC 0xBB f s fun e s =>
    let t := s.thr e.k
    if t.stat ≠ .handler || !t.inh then .stop (allotStop (stopThread s e.k) t.ctx t.allot cPRIV)
    else if t.traps.getLsbD (33 + t.tcause.toNat) then
      let s := match t.role with
        | .faultHandler n => s.modAct n fun a => { a with stat := .stopped }
        | _ => s
      .stop (allotStop (stopThread s e.k) t.ctx t.allot t.tcause)
    else match t.role with
      | .faultHandler n => .stop (resumeFrame (endThread s e.k) n)
      | _ => .jump (s.setThr e.k { t with stat := .live, inh := false, wait := t.hwait, hwait := .none }) t.tepc

/-! ### Tasks (R245 to R247, R342, R343) -/

/-- The task-queue header of an allotment: its place, NTYPE, LOGQ, TTBASE, RBASE, HEAD, TAIL. -/
structure TaskQ where
  at_    : Nat
  ntype  : Nat
  logq   : Nat
  ttbase : Nat
  rbase  : Nat
  head   : Nat
  tail   : Nat
deriving DecidableEq, Repr

def taskQ (s : State) (ctx allot : Nat) : Option TaskQ :=
  let q := taskqOf s ctx allot
  if q = 0 then none else
  let rd := fun (o n : Nat) => leNat (Memory.readN s.mem (q + o) n)
  some { at_ := q, ntype := rd 0 2, logq := rd 2 1, ttbase := rd 8 8, rbase := rd 16 8, head := rd 24 4, tail := rd 28 4 }

/-- The type index of a record is beyond the table (R245). -/
def typeBeyond (q : Option TaskQ) (sel : Nat) : Bool :=
  sel / 2 ^ 15 = 0 && (match q with | some q => q.ntype ≤ sel % 4096 | none => true)

/-- Put a record on the queue: into the ring, TAIL, and the dispatchers' list; the id. -/
def postTask (s : State) (ctx allot : Nat) (q : TaskQ) (rec : List Byte) : State × Word :=
  let no := (s.ctx ctx).taskNo + 1
  let id : Word := BitVec.ofNat 12 allot ++ BitVec.ofNat 52 no
  let s := s.modCtx ctx fun c => { c with taskNo := no }
  let s := writeHome s (q.rbase + 32 * (q.tail % 2 ^ q.logq)) rec
  let s := writeHome s (q.at_ + 28) (natLe 4 (q.tail + 1))
  let t : Task := { id := id, ctx := ctx, allot := allot, record := BitVec.ofNat 256 (leNat rec), call := none, tile := 0, order := q.tail }
  (syncHead { s with tasks := s.tasks ++ [t] } ctx allot, id)

/-- `task.post`: complete in this step, with the id in `D` (R94, R245). -/
def execTaskPost (f : CForm) (s : State) : Outcome State Fault Refusal :=
  .next <| runC 0xB8 f s fun e s =>
    if drainHeld s e.tile fun _ => true then .wait s else
    match resolve s e.agent e.a 32 8 .rd with
    | (s, .error x) => stopRes s x e.a 0
    | (s, .ok _) =>
      match readRange (releaseDevice s e.tile) { e.agent with dev := true } e.a 32 with
      | (s, .error (x, a)) => stopRes s x a (if x = .trap cPOISON 0 then 1 else 0)
      | (s, .ok rec) =>
        let allot := (s.thr e.k).allot
        let q := taskQ s e.ctx allot
        if typeBeyond q (leNat (rec.take 2)) then privTrap s 6
        else match q with
          | none => retX e s 0
          | some q =>
            if 2 ^ q.logq ≤ (q.tail + 2 ^ 32 - q.head) % 2 ^ 32 then retX e s 0
            else let r := postTask s e.ctx allot q rec; retX e r.1 r.2

/-- `chan.blk`: the blocked bit of a task type's entry. -/
def execChanBlk (f : CForm) (s : State) : Outcome State Fault Refusal :=
  .next <| runC 0xB9 f s fun e s =>
    match taskQ s e.ctx (s.thr e.k).allot with
    | none => privTrap s 6
    | some q =>
      if q.ntype ≤ e.a.toNat then privTrap s 6 else
      let p := q.ttbase + 64 * e.a.toNat + 17
      let b := Memory.read s.mem p
      .ok (writeHome s p [(b &&& 0xFE) ||| (if e.b.getLsbD 0 then 1 else 0)]) false

/-- What a cancel comes to when no other one of its id is of the same cycle: removed, dispatched in this very cycle, or gone (R247). -/
def cancelTask (s : State) (ctx : Nat) (id : Word) : State × Word :=
  match s.tasks.find? fun t => t.ctx = ctx && t.call.isNone && t.id = id with
  | some t => (syncHead { s with tasks := s.tasks.filter fun u => !(u.ctx = ctx && u.call.isNone && u.id = id) } ctx t.allot, 0)
  | none =>
    match List.find? (fun kt : Nat × Thread => kt.2.running && kt.2.role = .task && kt.2.ctx = ctx && kt.2.task = id &&
        kt.2.started = s.dev.cycles) s.threads with
    | some kt => (s.setThr kt.1 { kt.2 with cancelq := true }, 1)
    | none => (s, if s.acts.any fun ka => ka.2.ctx = ctx && ka.2.task = some (id, s.dev.cycles) then 1 else 2)

/-- Record a cancel of this cycle; older ones are forgotten. -/
def noteCancel (s : State) (c : Cancel) : State :=
  { s with dev := { s.dev with cancels := c :: s.dev.cancels.filter fun x => x.cycle = c.cycle } }

/-- `task.cancel` (R247). Of two cancels of one id in one cycle, the one of the lower tile comes first, and the other one finds the task gone, whichever the
model has performed first (R347). -/
def execTaskCancel (f : CForm) (s : State) : Outcome State Fault Refusal :=
  .next <| runC 0xBC f s fun e s =>
    let mine := fun (st : Word) => { cycle := s.dev.cycles, id := e.a, thread := e.k, reg := e.f.d.toNat, status := st : Cancel }
    match s.dev.cancels.find? fun c => c.cycle = s.dev.cycles && c.id = e.a && (s.thr c.thread).ctx = e.ctx with
    | some c =>
      if tileOf c.thread ≤ e.tile then retX e s 2
      else retX e (noteCancel (s.modThr c.thread fun t => t.xw c.reg 2) (mine c.status)) c.status
    | none => let r := cancelTask s e.ctx e.a; retX e (noteCancel r.1 (mine r.2)) r.2

/-! ### Measurement -/

/-- `meas` (R248): the range is hashed and a KMEAS event appended; `D` fills with its number. -/
def execMeas (f : CForm) (s : State) : Outcome State Fault Refusal :=
  .next <| runC 0xBA f s fun e s =>
    match checkWindow e.a e.b.toNat with
    | .error c => .trap s c e.a 0
    | .ok _ =>
      if 2 ^ 32 < e.b.toNat then .trap s cPAGE_PERM e.a 2 else
      if 2 ≤ f.scope && drainHeld s e.tile fun _ => true then .wait s else
      match readRange (releaseAt s e.tile f.scope) { e.agent with dev := true } e.a e.b.toNat with
      | (s, .error (x, a)) => stopRes s x a (if x = .trap cPOISON 0 then 1 else 0)
      | (s, .ok bs) =>
        let t := appendEvent s e.ctx 5 bs
        if t.hubWait then .wait (asks s t) else retX e t (BitVec.ofNat 64 (t.ctx e.ctx).seq)

end Sys2Proof.Machine
end

