-- ==== Sys2Proof/Machine/Preempt.lean ====
section
/-!
DEFINITION. Pre-emption, eviction and restore of a group (R312, R319 to R322). An eviction area is a tile record of its own, numbered 1024 + kernel × 512 + rank:
the group's tile state, threads and activations move there and back.
-/
namespace Sys2Proof.Machine
open Sys2Proof
open Host (Outcome)

/-- The number of a group's eviction area. -/
def evictionArea (kn rank : Nat) : Nat := 1024 + kn * 512 + rank

/-- Errands that the engines of a tile run, with their tables' tiles and slots: those issued there or restored there, whoever holds them, orphans of earlier groups
among them (R385, R386). -/
def tileErrands (s : State) (tile : Nat) : List (Nat × Nat × Errand) := (allErrands s).filter fun x => x.2.2.at_ = tile

/-- Begin a pre-emption: the group's errands that it parks are asked to park at their next pre-emption point (Table 14-4). -/
def beginPreempt (s : State) (tile : Nat) (g : Group) : State :=
  let s := s.modTile tile fun t => { t with group := some { g with resid := .preempting, preemptReq := false } }
  (tileErrands s tile).foldl (fun s x =>
    if parks s x.2.2 && x.2.2.st = .running then s.setErrand x.1 x.2.1 { x.2.2 with park := true } else s) s

/-- A pre-empt request on a tile's group (Table 14-3): in RESTORING it is taken at RESIDENT. -/
def requestPreempt (s : State) (tile : Nat) : State :=
  match (s.tile tile).group with
  | none => s
  | some g =>
    if g.stat ≠ .live then s else
    match g.resid with
    | .resident => beginPreempt s tile g
    | .restoring => s.modTile tile fun t => { t with group := some { g with preemptReq := true } }
    | .preempting => s.modTile tile fun t => { t with group := some { g with restoreReq := false } }
    | .saved => s

/-- A restore request on a group that holds its tile: in PREEMPTING it begins at SAVED. -/
def requestRestore (s : State) (tile : Nat) : State :=
  match (s.tile tile).group with
  | none => s
  | some g =>
    match g.resid with
    | .saved => s.modTile tile fun t => { t with group := some { g with resid := .restoring } }
    | .preempting => s.modTile tile fun t => { t with group := some { g with restoreReq := true } }
    | .restoring => s.modTile tile fun t => { t with group := some { g with preemptReq := false } }
    | .resident => s

/-- `PREEMPT_REQUEST`. -/
def execPreemptRequest (tile : Nat) (s : State) : Outcome State Fault Refusal :=
  .next <| if tile < 512 then requestPreempt s tile else s

/-- A wait whose counter's address translates afresh at the next turn (R312, R322, R403). -/
def Wait.unplaced (w : Wait) : Wait :=
  match w with
  | .ctr ea v scope _ ns => .ctr ea v scope Option.none ns
  | w => w

/-- The counters that a tile's threads wait on have no place until their next turn. -/
def unplaceWaits (s : State) (tile : Nat) : State :=
  { s with threads := s.threads.map fun kt =>
      if tileOf kt.1 = tile then (kt.1, { kt.2 with wait := kt.2.wait.unplaced, hwait := kt.2.hwait.unplaced }) else kt }

/-- Nothing long-latency is outstanding: only results of reaps, errands and cross-encoding calls may stay pending (R97). -/
def settled (t : Thread) : Bool :=
  t.held.isNone && t.stores.isEmpty && t.fills.all fun f => match f.kind with | .value => false | _ => true

/-- `SAVE_COMPLETE`: a deferred error is reported first (R249, R321); then, with the fills in, the stores accepted and the errands parked, every write of the tile
goes to its place and the group is SAVED (R312). -/
def execSaveComplete (tile : Nat) (s : State) : Outcome State Fault Refusal :=
  .next <| match (s.tile tile).group with
  | none => s
  | some g =>
    if g.resid ≠ .preempting then s else
    let ts := (tileThreads s tile).filter fun kt => kt.2.running
    match ts.find? fun kt => !kt.2.deferred.isEmpty with
    | some kt => match kt.2.deferred with
      | d :: r => takeTrap (s.setThr kt.1 { kt.2 with deferred := r }) kt.1 d.cause kt.2.pc d.addr d.info
      | [] => s
    | none =>
      if !ts.all (fun kt => settled kt.2) || drainHeld s tile (fun _ => true) ||
        (tileErrands s tile).any (fun x => parks s x.2.2 && (x.2.2.st = .running || x.2.2.st = .publishing)) then s else
      let s := unplaceWaits (releaseDevice s tile) tile
      let back := g.restoreReq && (s.kern? g.kernel).any fun k => runsOn s tile k.ctx
      s.modTile tile fun t => { t with group := some { g with resid := if back then .restoring else .saved, restoreReq := false } }

/-! ### Moving a group -/

/-- A thread key of tile `src` as one of tile `dst`. -/
def rekey (src dst k : Nat) : Nat := if tileOf k = src then threadKey dst (tpOf k) else k

/-- The group takes the errand with it (R322, R385, R386): one of its own, one attached to a thread that moves, or a parked one. -/
def goesAlong (src : Nat) (g : Group) (e : Errand) : Bool :=
  e.at_ = src && ((e.hkern = g.kernel && e.rank = g.rank) || e.st = .parked || (match e.owner with | .thread k => tileOf k = src | _ => false))

/-- An errand when a group moves: its engine's tile, and its owner. It keeps its slot and handle (R386). -/
def rehome (src dst : Nat) (g : Group) (e : Errand) : Errand :=
  { e with
    at_ := if goesAlong src g e then dst else e.at_
    issuer := rekey src dst e.issuer, warnTo := e.warnTo.map (rekey src dst)
    owner := match e.owner with
      | .thread k => .thread (rekey src dst k)
      | .group kn t => .group kn (if kn = g.kernel && t = src then dst else t)
      | o => o }

/-- A thread whose tile moves: the threads that it reaps move with it. -/
def moveThread (src dst : Nat) (t : Thread) : Thread :=
  { t with fills := t.fills.map fun f => { f with kind := match f.kind with
      | .reap k => .reap (rekey src dst k)
      | x => x } }

/-- What running tasks and orphans keep of a tile's scratchpad (R362). -/
def keptAreas (s : State) (tile : Nat) : List (Nat × Nat) := (0, orphanScratch s tile) :: taskAreas s tile

/-- Bytes of a scratchpad copied to another, with their poison marks, but for what is kept there. -/
def copyScratch (s : State) (src dst : Nat) : State :=
  let lo := scratchBase src
  let keep := keptAreas s dst
  let here := fun (k : Nat) => lo ≤ k && k < lo + 2 ^ 20 && !(keep.any fun a => lo + a.1 ≤ k && k < lo + a.1 + a.2)
  let z := zeroScratch s dst keep
  { z with mem := (s.mem.filter fun c => here c.1).foldl (fun m c => Memory.write m (scratchBase dst + (c.1 - lo)) c.2) z.mem
           poison := (s.poison.filter fun p => here p.1).foldl (fun m p => Tbl.set m (scratchBase dst + (p.1 - lo)) p.2) z.poison }

/-- Move a group's tile state, threads and activations from tile `src` to `dst` (R322): everything but the tile's vault, caches, TLB and errand table. What agents
of earlier groups use on `dst` stays. -/
def moveGroup (s : State) (src dst : Nat) (g : Group) : State :=
  let a := s.tile src
  let b := s.tile dst
  let keep := orphanWork s dst
  let sems := b.semQ ++ a.semQ.map fun q => (q.1, rekey src dst q.2.1, q.2.2)
  let bars := a.bars.map fun x => { x with arrived := x.arrived.map (rekey src dst) }
  let copied := copyScratch s src dst
  let s := copied.setTile dst { b with
    group := some g, last := some g.kernel, bfmt := a.bfmt, spmap := a.spmap, spFilled := 0, spDirty := 0, sems := a.sems, semQ := sems, bars := bars
    macros := if keep then b.macros else a.macros, carried := if keep then b.carried else a.carried, frozen := if keep then b.frozen else a.frozen
    planes := a.planes.mapIdx fun i x => if planeLive s dst i then getV b.planes none i else x
    ports := a.ports.mapIdx fun i x => let p := getV b.ports Port.reset i; if p.bound.isSome || p.inst.isSome then p else x }
  let s := s.setTile src { a with group := none, spmap := Vector.replicate 16 0, spFilled := 0, spDirty := 0, semQ := [] }
  let mine := (tileThreads s src).filter fun kt => kt.2.stat ≠ .free
  let s := { s with threads := s.threads.filter fun kt => tileOf kt.1 ≠ src }
  let s := mine.foldl (fun s kt => s.setThr (rekey src dst kt.1) (moveThread src dst kt.2)) s
  let act := fun (ka : Nat × Act) => if ka.2.tile = src && ka.2.kernel = g.kernel then (ka.1, { ka.2 with tile := dst }) else ka
  let tl := fun (kt : Nat × Tile) => (kt.1, { kt.2 with errands := kt.2.errands.map fun se => (se.1, rehome src dst g se.2) })
  let tk := fun (t : Task) => if t.call.isSome && t.tile = src then { t with tile := dst } else t
  let s := { s with acts := s.acts.map act, tiles := s.tiles.map tl, tasks := s.tasks.map tk }
  s.modKern g.kernel fun k => { k with tiles := k.tiles.map fun t => if t = src then dst else t }

/-- The tile has room for what comes with a group from `src`: its threads, and the areas that its tasks claim (R322, R345). -/
def roomFor (s : State) (src tile : Nat) : Bool :=
  ((tileThreads s src).all fun kt => kt.2.stat = .free || (s.thr (rekey src tile kt.1)).stat = .free) &&
  (taskAreas s src).all fun a => (keptAreas s tile).all fun b => a.1 + a.2 ≤ b.1 || b.1 + b.2 ≤ a.1

/-- `GROUP_EVICTION`: a saved group leaves its tile. Mapped lines go back to their global range first; no errand that goes along still runs. -/
def execGroupEviction (tile : Nat) (s : State) : Outcome State Fault Refusal :=
  .next <| match (s.tile tile).group with
  | none => s
  | some g =>
    if 512 ≤ tile || g.resid ≠ .saved || tileHeld s tile ||
      (allErrands s).any (fun x => goesAlong tile g x.2.2 && (x.2.2.st = .running || x.2.2.st = .publishing)) then s else
    let s := (s.tile tile).spmap.toList.foldl (fun s e => if e.getLsbD 63 then spWriteBack s tile e else s) s
    moveGroup s tile (evictionArea g.kernel g.rank) g

/-- Register the lines of a moved group's valid mapping entries at their homes again; those that cannot be now are at their first fill (log 67). -/
def registerAll (s : State) (tile ctx : Nat) : State :=
  (s.tile tile).spmap.toList.foldl (fun s e =>
    if !e.getLsbD 63 then s else
    let lo := fieldOf e 58 4
    let r := rangePlaces s tile ctx (fieldOf e 0 40 * 65536) (scratchBase tile + lo * 65536) ((fieldOf e 54 4 + 1 - lo) * 512)
    registerLines r.1 (r.2.2.filter fun p => !registerHeld r.1 tile p.1 && !heldElsewhere r.1 tile p.1)) s

/-- `RESTORE_REQUEST`: of a group that holds its tile, or of an evicted one on a tile that fits it. -/
def execRestoreRequest (kn rank tile : Nat) (s : State) : Outcome State Fault Refusal :=
  .next <| match s.kern? kn with
  | none => s
  | some k =>
    let at_ := k.tiles.getD rank 512
    if at_ = tile then (if tile < 512 && runsOn s tile k.ctx then requestRestore s tile else s)
    else match (s.tile at_).group with
      | none => s
      | some g =>
        if at_ ≠ evictionArea kn rank || g.resid ≠ .saved || !tileFits s k tile || !roomFor s at_ tile ||
          !runsOn s tile k.ctx then s else
        let s := moveGroup (handTile s tile k.ctx) at_ tile { g with resid := .restoring }
        let s := zeroRange { s with tiles := Tbl.erase s.tiles at_ } (scratchBase at_) (scratchBase at_ + 2 ^ 20)
        registerAll s tile k.ctx

/-- `RESTORE_COMPLETE`: every thread acquires at device scope, and the group is RESIDENT, or PREEMPTING again where that was asked for. -/
def execRestoreComplete (tile : Nat) (s : State) : Outcome State Fault Refusal :=
  .next <| match (s.tile tile).group with
  | none => s
  | some g =>
    if g.resid ≠ .restoring then s else
    let s := acquireDevice s tile
    let g' := { g with resid := .resident }
    if g.preemptReq then beginPreempt s tile g' else s.modTile tile fun t => { t with group := some g' }

end Sys2Proof.Machine
end

