-- ==== Sys2Proof/Machine/Rings.lean ====
section
/-!
DEFINITION. The host's `PW2` window (R417) and the rings of host queues: taking packets (R333, R334) and writing completion entries (R340, R455).
-/
namespace Sys2Proof.Machine
open Sys2Proof
open Host (Outcome)

/-! ### `PW2` -/

/-- The context that a function's `PW2` maps, if it owns it and it is CREATED or later. -/
def pw2Ctx (s : State) (f : Nat) : Option Nat :=
  let n := (s.func f).pw2ctx.toNat
  let c := s.ctx n
  if n ≠ 0 && c.st ≠ .free && c.owner = f then some n else none

/-- Every page of a `PW2` access translates in the context that the window maps. -/
def pw2Check (s : State) (f off n : Nat) (need : Need) : State × Except Fail Unit :=
  match pw2Ctx s f with
  | none => (s, .error notPresent)
  | some c => hubCheck s c ((s.func f).pw2base + BitVec.ofNat 64 off) n need

/-- Read or write bytes at a `PW2` offset, strong at system scope. A write is made whole or not at all. -/
def pw2Read (s : State) (f : Nat) (off n : Nat) : State × Except Fail (List Byte) :=
  match pw2Ctx s f with
  | none => (s, .error notPresent)
  | some c => hubReadVa s c ((s.func f).pw2base + BitVec.ofNat 64 off) n
def pw2Write (s : State) (f : Nat) (off : Nat) (bs : List Byte) : State × Except Fail Unit :=
  match pw2Ctx s f with
  | none => (s, .error notPresent)
  | some c => hubWriteWhole s c ((s.func f).pw2base + BitVec.ofNat 64 off) bs

/-- Bytes of a queue's ring at an offset: host memory, where the host may answer with a completion error or Completer Abort (log 107), or device memory
through the function's `PW2` (R455). -/
def ringRead (s : State) (q : Nat) (base : Word) (off n : Nat) : State × Except Fail (List Byte) :=
  if (s.queue q).loc then pw2Read s (q / 16) (base.toNat + off) n
  else if Config.hostFails s.tick then (s, .error notPresent) else busRead s (base.toNat + off) n
def ringWrite (s : State) (q : Nat) (base : Word) (off : Nat) (bs : List Byte) : State × Except Fail Unit :=
  if (s.queue q).loc then pw2Write s (q / 16) (base.toNat + off) bs
  else if Config.hostFails s.tick then (s, .error notPresent) else busWrite s (base.toNat + off) bs

/-! ### Taking a packet (R333) -/

/-- A queue holds a packet that may be taken now (R333, R336, R455). -/
def canTake (s : State) (q : Nat) : Bool :=
  let x := s.queue q
  s.dev.service ≠ 0 && x.en && !x.ringerr && x.barrier.isNone && x.qhead ≠ x.qtail &&
  decide ((x.ctail - x.chead).toNat < 2 ^ x.logn.toNat)

/-- How many queues come before `q` in the turn, which goes round by number from the last queue served. -/
def turnsAway (s : State) (q : Nat) : Nat := (q + 2048 - s.dev.lastQ - 1) % 1024

/-- It is the queue's turn: of those that hold a packet to take, it comes first after the last one served (R333). -/
def mayTake (s : State) (q : Nat) : Bool := canTake s q && s.queues.all fun x => !canTake s x.1 || turnsAway s q ≤ turnsAway s x.1

/-- The queue has had its turn. -/
def servedQ (q : Nat) (s : State) : State := { s with dev := { s.dev with lastQ := q } }

/-- A packet: its 128 bytes, its ring index, its queue. -/
structure Pkt where
  bytes : BitVec 1024
  index : Nat
  queue : Nat
deriving DecidableEq, Repr

/-- `n` bytes of a packet at an offset. -/
def Pkt.f (p : Pkt) (off n : Nat) : Nat := hdrField p.bytes off n
def Pkt.w (p : Pkt) (off : Nat) : Word := BitVec.ofNat 64 (p.f off 8)
def Pkt.kind (p : Pkt) : Nat := p.f 0 1
def Pkt.ctx (p : Pkt) : Nat := p.f 2 2

/-- The completion of a packet. -/
def Pkt.compl (p : Pkt) (status : Nat) (value : Word) : Compl :=
  { tag := p.f 4 4, ctx := p.ctx, status := status, value := value, index := p.index, notify := p.f 1 1 % 2 = 1 }

/-- Bytes that neither the header nor the listed body fields name are zero, and so are FLAGS[7:1] (R334). -/
def Pkt.reservedOk (p : Pkt) (named : List (Nat × Nat)) : Bool :=
  p.f 1 1 < 2 && (List.range 128).all fun i => i < 8 || named.any (fun r => r.1 ≤ i && i < r.1 + r.2) || p.f i 1 = 0

/-- A failed ring access: RINGERR, and the queue is HELD (R455). -/
def ringFail (s : State) (q : Nat) : State :=
  s.modQueue q fun x => { x with ringerr := true, st := if x.st = .draining then .draining else .held }

/-- Take the next packet of a queue, in its turn, where its KIND satisfies `want`; a slot that cannot be read is not taken. One that waits for a page loses
its turn and is taken later. -/
def takePacket (s : State) (q : Nat) (want : Pkt → Bool) (go : State → Pkt → State) : State :=
  if !mayTake s q then s else heldBack (servedQ q) (fun s =>
  let x := s.queue q
  match ringRead s q x.qbase (x.qhead.toNat % 2 ^ x.logn.toNat * 128) 128 with
  | (s, .error _) => ringFail (servedQ q s) q
  | (s, .ok bs) =>
    let p : Pkt := { bytes := BitVec.ofNat 1024 (leNat bs), index := x.qhead.toNat, queue := q }
    if !want p then s else
    go ((servedQ q s).modQueue q fun x => { x with st := .busy, qhead := x.qhead + 1, opened := x.opened ++ [p.index] }) p) s

/-- Complete a packet with a status and a value. -/
def finish (s : State) (p : Pkt) (status : Nat) (value : Word) : State := complete s p.queue (p.compl status value)

def sOK : Nat := 0
def sBADKIND : Nat := 1
def sBADSTATE : Nat := 2
def sBADFIELD : Nat := 3
def sNOTOWNER : Nat := 4
def sREJECTED : Nat := 5
def sFAILED : Nat := 6
def sKEYSPENT : Nat := 7
def sNORESOURCE : Nat := 8

/-- A packet's range faulted after its check: FAILED with the translation cause (R335). -/
def failPkt (s : State) (p : Pkt) (f : Fail) : State := finish s p sFAILED (BitVec.ofNat 64 f.1.toNat)

/-- Take a packet of one KIND for a context of the queue's function, in a state that accepts it, with its reserved bytes zero; otherwise it completes
with NOTOWNER, BADSTATE or BADFIELD. -/
def ctxPacket (s : State) (q : Nat) (want : Pkt → Bool) (sts : List CStat) (named : List (Nat × Nat)) (go : State → Pkt → State) : State :=
  takePacket s q want fun s p =>
    let c := s.ctx p.ctx
    if p.ctx = 0 || 4096 ≤ p.ctx || c.st = .free || c.owner ≠ q / 16 then finish s p sNOTOWNER 0
    else if !sts.contains c.st then finish s p sBADSTATE 0
    else if !p.reservedOk named then finish s p sBADFIELD 0
    else go s p

/-! ### Completions -/

/-- A group has arrived where a PREEMPT packet moves it, or has ended (R335). -/
def arrived (s : State) (kn rank : Nat) (restore : Bool) : Bool :=
  match s.kern? kn with
  | none => true
  | some k => match (s.tile (k.tiles.getD rank 512)).group with
    | some g => g.kernel ≠ kn || g.stat ≠ .live || g.resid = (if restore then .resident else .saved)
    | none => true

/-- The groups that a PREEMPT packet still waits for: each has arrived once, and may move on (R335). -/
def Pend.latch (s : State) : Pend → Pend
  | .move l r => .move (l.filter fun g => !arrived s g.1 g.2 r) r
  | p => p

/-- What a taken packet waits for has happened. -/
def Pend.met (s : State) : Pend → Bool
  | .move l r => l.all fun g => arrived s g.1 g.2 r
  | .free cn => (s.ctx cn).st = .free
  | .measure cn => (s.ctx cn).st ≠ .created

/-- The CREATE events of contexts that a queue has created: content is the measurement and version of the firmware now active (Tables 14-1, 14-5). -/
def measureNew (s : State) (q : Nat) : State :=
  (s.queue q).pends.foldl (fun s p => match p.1 with
    | .measure cn =>
      if (s.ctx cn).st ≠ .created then s else
      let s := appendEvent s cn 1 (bytesOf 32 s.fw.meas ++ bytesOf 8 s.fw.version ++ natLe 8 cn)
      s.modCtx cn fun c => { c with st := .measured }
    | _ => s) s

/-- Packets whose wait is over complete; a BARRIER completes when nothing before it is open (R336). -/
def settlePends (s : State) (q : Nat) : State :=
  s.modQueue q fun x =>
    let done := (x.pends.filter fun p => p.1.met s).map (·.2)
    let rest := x.pends.filter fun p => !p.1.met s
    let x := { x with pends := rest.map fun (p : Pend × Compl) => (p.1.latch s, p.2), compls := x.compls ++ done }
    match x.barrier with
    | some (i, c) => if x.opened.all (fun j => j = i) then { x with barrier := none, compls := x.compls ++ [c] } else x
    | none => x

/-- Every packet whose wait is over completes, in the step after the event that ends it. -/
def pendsNow (s : State) : State := (s.queues.map (·.1)).foldl settlePends s

/-- The 32 bytes of completion entry `k` (R340). -/
def complBytes (c : Compl) (k logn : Nat) : List Byte :=
  natLe 4 c.tag ++ natLe 2 c.ctx ++ natLe 1 c.status ++ natLe 1 (1 - k / 2 ^ logn % 2) ++ bytesOf 8 c.value ++ natLe 4 c.index ++ List.replicate 12 0

/-- The state of a queue that has written an entry or discarded one (Table 15-7). -/
def Queue.after (x : Queue) : Queue :=
  if x.st = .draining then (if x.opened.isEmpty && x.compls.isEmpty then { x with st := .disabled } else x)
  else if x.st = .disabled then x
  else if x.opened.isEmpty && x.compls.isEmpty && x.qhead = x.qtail then { x with st := .idle }
  else if x.barrier.isNone && !x.ringerr && decide ((x.ctail - x.chead).toNat < 2 ^ x.logn.toNat) then { x with st := .busy }
  else { x with st := .held }

/-- `COMPLETION_ENTRY_WRITE`: the oldest completion of a queue goes to its ring while there is room, then the MSI-X message of NOTIFY. -/
def execCompletionEntryWrite (q : Nat) (s : State) : Outcome State Fault Refusal :=
  .next <| heldBack id (fun s =>
    let s := settlePends (measureNew s q) q
    let x := s.queue q
    match x.compls with
    | [] => s.modQueue q Queue.after
    | c :: r =>
      let gone := fun (x : Queue) => { x with compls := r, opened := x.opened.filter (· ≠ c.index) }
      if x.ringerr then (if x.st = .draining then s.modQueue q fun x => (gone x).after else s)
      else if 2 ^ x.logn.toNat ≤ (x.ctail - x.chead).toNat then s.modQueue q fun x => { x with st := if x.st = .busy then .held else x.st }
      else
        let k := x.ctail.toNat
        match ringWrite s q x.cbase (k % 2 ^ x.logn.toNat * 32) (complBytes c k x.logn.toNat) with
        | (s, .error _) => if x.st = .draining then s.modQueue q fun x => (gone x).after else ringFail s q
        | (s, .ok ()) =>
          let s := s.modQueue q fun x => { gone x with ctail := x.ctail + 1 }
          let s := if c.notify then { s with dev := { s.dev with msix := s.dev.msix ++ [(q / 16, x.vec.toNat)] } } else s
          (settlePends s q).modQueue q Queue.after) s

end Sys2Proof.Machine
end

