-- ==== Sys2Proof/Machine/Contexts.lean ====
section
/-!
DEFINITION. Contexts: allotment trees as the reeve column reads them (R315, R342), CREATE (R313, R318), ALLOT, DESTROY and teardown (R329).
-/
namespace Sys2Proof.Machine
open Sys2Proof
open Host (Outcome)

/-! ### Allotment trees (Table 14-2) -/

/-- The 64 bytes of each block at the listed addresses, or none where one cannot be read. -/
def readBlocks (s : State) (cn : Nat) : List Word → State × Option (List (Word × BitVec 512))
  | [] => (s, some [])
  | a :: r =>
    match hubCheck s cn a 64 .rd with
    | (s, .error _) => (s, none)
    | (s, .ok ()) =>
      match hubReadVa s cn a 64 with
      | (s, .error _) => (s, none)
      | (s, .ok bs) => match readBlocks s cn r with
        | (s, some l) => (s, some ((a, BitVec.ofNat 512 (leNat bs)) :: l))
        | (s, none) => (s, none)

/-- A range of `n` bytes in a vault that `own` accepts, below its fault records. -/
def vaultRange (own : Nat → Bool) (a : Word) (n : Nat) : Bool :=
  match checkWindow a n with
  | .ok (.w1 t) => own t && a.toNat % 2 ^ 24 + n ≤ 0xBFE000
  | _ => false

/-- The task-queue header at `a` keeps its ranges (R342). -/
def taskqOk (s : State) (own : Nat → Bool) (a : Word) : Bool :=
  a = 0 || (vaultRange own a 64 &&
    let h := BitVec.ofNat 512 (leNat (Memory.readN s.mem a.toNat 64))
    let n := hdrField h 0 2
    let lq := hdrField h 2 1
    1 ≤ n && n ≤ 4096 && 4 ≤ lq && lq ≤ 16 && hdrField h 3 5 = 0 && hdrField h 32 32 = 0 &&
    hdrField h 8 8 % 64 = 0 && hdrField h 16 8 % 32 = 0 &&
    vaultRange own (BitVec.ofNat 64 (hdrField h 8 8)) (64 * n) && vaultRange own (BitVec.ofNat 64 (hdrField h 16 8)) (32 * 2 ^ lq))

/-- Path lengths: a block reaches the root within `n` levels. -/
def reaches (bs : List (Word × BitVec 512)) (a : Word) : Nat → Bool
  | 0 => false
  | n + 1 => match List.find? (fun b : Word × BitVec 512 => b.1 = a) bs with
    | none => false
    | some b =>
      let p := BitVec.ofNat 64 (hdrField b.2 0 8)
      p = 0 || reaches bs p n

/-- One block keeps its ranges. -/
def blockOk (s : State) (own : Nat → Bool) (root : Word) (b : Word × BitVec 512) : Bool :=
  let isRoot := b.1 = root
  b.1.toNat % 64 = 0 && (hdrField b.2 0 8 = 0) = isRoot && hdrField b.2 38 1 ≤ 8 && hdrField b.2 39 1 < 8 &&
  (isRoot || hdrField b.2 39 1 / 4 = 0) && hdrField b.2 48 2 < 4096 && hdrField b.2 50 14 = 0 &&
  taskqOk s own (BitVec.ofNat 64 (hdrField b.2 40 8))

/-- The tree of a list of blocks whose root is at `root`, or none where R315 or R342 refuses it. -/
def treeOf (s : State) (own : Nat → Bool) (root : Word) (bs : List (Word × BitVec 512)) : Option (Tbl Allot) :=
  let ix := fun (b : BitVec 512) => hdrField b 48 2
  let at_ := fun (p : Word) => (List.find? (fun b : Word × BitVec 512 => b.1 = p) bs).map fun b => ix b.2
  if !bs.all (blockOk s own root) || !(bs.map fun b => ix b.2).Nodup || !(bs.map (·.1)).Nodup || !bs.all (fun b => reaches bs b.1 8) then none else
  some (bs.foldl (fun t b => Tbl.set t (ix b.2)
    { parent := at_ (BitVec.ofNat 64 (hdrField b.2 0 8)), hbm := hdrField b.2 8 8, mirfer := hdrField b.2 16 8, ecyc := hdrField b.2 24 8
      energy := hdrField b.2 32 4, slots := hdrField b.2 36 2, prio := hdrField b.2 38 1, flags := BitVec.ofNat 8 (hdrField b.2 39 1)
      taskq := BitVec.ofNat 64 (hdrField b.2 40 8), mHbm := 0, mMirfer := 0, mEcyc := 0, mEnergy := 0, mSlots := 0, stopped := false }) [])

/-- Read the tree whose root is at `root`, with the other blocks found (log 18). -/
def readTree (s : State) (cn : Nat) (own : Nat → Bool) (root : Word) (blocks : List Word) : State × Option (Tbl Allot) :=
  match readBlocks s cn (root :: blocks.filter (· ≠ root)) with
  | (s, none) => (s, none)
  | (s, some bs) => (s, treeOf s own root bs)

/-! ### CREATE (R313, R315, R318) -/

/-- The lowest free context number. -/
def freeContext (s : State) : Option Nat := ((List.range 4095).map (· + 1)).find? fun n => (s.ctx n).st = .free

/-- The function is virtual and owns a context already (R313). -/
def ownsOne (s : State) (f : Nat) : Bool := 0 < f && s.ctxs.any fun kc => kc.2.st ≠ .free && kc.2.owner = f

/-- Check an address range of a packet: a bus address where its bit 63 is 1, else W0 with the permission (R335). -/
def outCheck (s : State) (cn : Nat) (a : Word) (n : Nat) (need : Need) : State × Except Fail Unit :=
  if a.getLsbD 63 then (s, .ok ()) else hubCheck s cn a n need

/-- Tiles of a CREATE bitmap. -/
def bitmapTiles (bs : List Byte) : List Nat :=
  let m : BitVec 512 := BitVec.ofNat 512 (leNat bs)
  (List.range 512).filter fun t => m.getLsbD t

/-- A vault of the list is assigned already, or is the reeve column's. -/
def vaultsTaken (s : State) (ts : List Nat) : Bool := ts.any fun t => (s.tile t).vault ≠ 0 || isReeve s t

/-- The root asks for isolation; it leaves a budget at zero. -/
def treeIsol (t : Tbl Allot) : Bool := t.any fun ja => ja.2.parent.isNone && ja.2.flags.getLsbD 2
def budgetZero (t : Tbl Allot) : Bool :=
  t.any fun ja => ja.2.parent.isNone && (ja.2.hbm = 0 || ja.2.mirfer = 0 || ja.2.ecyc = 0 || ja.2.energy = 0 || ja.2.slots = 0)

/-- What isolated roots reserve in a period: HBM bytes, flit bytes, µJ. -/
def isolSum (s : State) (f : Allot → Nat) (t : Tbl Allot) : Nat :=
  let root := fun (n : Nat) (t : Tbl Allot) => t.foldl (fun n ja => if ja.2.parent.isNone then n + f ja.2 else n) n
  (s.ctxs.filter fun kc => isolated s kc.1).foldl (fun n kc => root n kc.2.allots) (root 0 t)

/-- The reservations of the isolated contexts and of a new tree stay within what the device supplies in 100 µs: 38.4 TB/s of HBM, twelve links of 448 GB/s,
2,800 W (R17, R29, R318). -/
def isolSupplied (s : State) (t : Tbl Allot) : Bool :=
  isolSum s (·.hbm) t ≤ 3840000000 && isolSum s (·.mirfer) t ≤ 537600000 && isolSum s (·.energy) t ≤ 280000

/-- Why a CREATE is refused, or the tiles and the tree of the new context `cn`, with its page tables in force. -/
def createCheck (s : State) (cn : Nat) (p : Pkt) (blocks : List Word) : State × Except Nat (List Nat × Tbl Allot) :=
  match outCheck s cn (p.w 24) (64 * 2 ^ p.f 32 1) .wr with
  | (s, .error _) => (s, .error sBADFIELD)
  | (s, .ok ()) =>
    match outCheck s cn (p.w 40) 64 .rd with
    | (s, .error _) => (s, .error sBADFIELD)
    | (s, .ok ()) =>
      match inRead s cn (p.w 40) 64 with
      | (s, .error _) => (s, .error sBADFIELD)
      | (s, .ok bs) =>
        let ts := bitmapTiles bs
        match readTree s cn (fun t => ts.contains t) (p.w 8) blocks with
        | (s, none) => (s, .error sBADFIELD)
        | (s, some t) =>
          if treeIsol t && budgetZero t then (s, .error sBADFIELD)
          else if vaultsTaken s ts || (treeIsol t && !(isolSupplied s t && Config.isolFits s.tick)) then (s, .error sNORESOURCE)
          else (s, .ok (ts, t))

/-- A refused packet changes nothing, but waits with what its checks wait for. -/
def heldOf (s t : State) : State := { asks s t with hubWait := t.hubWait }

/-- The page-table root is a 64 KiB-aligned address of installed HBM (R398). -/
def rootOk (a : Word) : Bool := a.toNat % 65536 = 0 && a.toNat < 2 ^ 41 && hbmInstalled a.toNat 65536

/-- `CREATE`: the context is CREATED; its CREATE event is the next thing before the packet's completion. -/
def execCreate (q : Nat) (blocks : List Word) (s : State) : Outcome State Fault Refusal :=
  .next <| takePacket s q (fun p => p.kind = 1) fun s p =>
    if p.ctx ≠ 0 || !p.reservedOk [(8, 25), (40, 8)] || p.f 32 1 < 4 || 20 < p.f 32 1 || !rootOk (p.w 16) then finish s p sBADFIELD 0
    else if ownsOne s (q / 16) then finish s p sNORESOURCE 0
    else match freeContext s with
      | none => finish s p sNORESOURCE 0
      | some cn =>
        let o := s.ctx cn
        let c : Ctx := { Ctx.reset with lmax := o.lmax, mapseq := o.mapseq, mapdone := o.mapdone, mapq := o.mapq, st := .created, owner := q / 16, ptRoot := (p.w 16).toNat, logBase := p.w 24, logL := p.f 32 1 }
        match createCheck (s.setCtx cn c) cn p blocks with
        | (t, .error st) => finish (heldOf s t) p st 0
        | (t, .ok (ts, tree)) =>
          let t := t.setCtx cn { c with allots := tree }
          let t := ts.foldl (fun t k => t.modTile k fun x => { x with vault := cn }) t
          t.modQueue q fun x => { x with pends := x.pends ++ [(.measure cn, { p.compl sOK (BitVec.ofNat 64 cn) with ctx := cn })] }

/-! ### ALLOT (R315) -/

/-- `ALLOT`: a new tree, in force from the next period; every refusal changes nothing. -/
def execAllot (q : Nat) (blocks : List Word) (s : State) : Outcome State Fault Refusal :=
  .next <| ctxPacket s q (fun p => p.kind = 3) [.measured, .running, .faulted] [(8, 8)] fun s p =>
    match readTree s p.ctx (fun t => (s.tile t).vault = p.ctx) (p.w 8) blocks with
    | (t, none) => finish (heldOf s t) p sBADFIELD 0
    | (s, some t) => finish (s.modCtx p.ctx fun c => { c with pending := some t }) p sOK 0

/-! ### DESTROY and teardown (R329) -/

/-- Receipt requests of a context that the hand-over window holds are refused: no signature has started for them (R329 step 1). -/
def refuseHeld (s : State) (cn : Nat) : State :=
  let l := s.fw.held.filter (·.ctx = cn)
  let s := { s with fw := { s.fw with held := s.fw.held.filter (·.ctx ≠ cn) } }
  l.foldl (fun s r => complete s r.queue { r.compl with status := sBADSTATE }) s

/-- Teardown begins: every allotment is stopped, without a report (R329 step 1). -/
def beginTeardown (s : State) (cn : Nat) : State :=
  let c := s.ctx cn
  let ev := s.dev.events
  let s := refuseHeld s cn
  let s := c.allots.foldl (fun s ja => if ja.2.parent.isNone then stopSubtree s cn ja.1 0 else s) s
  let s := s.modCtx cn fun c => { c with st := .teardown, pending := none }
  { s with dev := { s.dev with events := ev } }

/-- `DESTROY`: completes when the context is FREE. -/
def execDestroy (q : Nat) (s : State) : Outcome State Fault Refusal :=
  .next <| ctxPacket s q (fun p => p.kind = 2) [.created, .measured, .running, .faulted] [] fun s p =>
    (beginTeardown s p.ctx).modQueue q fun x => { x with pends := x.pends ++ [(.free p.ctx, p.compl sOK 0)] }

/-- Tiles whose scratchpad is the context's. -/
def spTiles (s : State) (cn : Nat) : List Nat := (s.tiles.filter fun kt => kt.2.spOwner = cn && kt.1 < 512).map (·.1)

/-- Nothing of the context remains that teardown waits for: errands, kernels' completions, receipts, leases, walks, and dirty lines that have no way home at
this moment (R15, R311, R329, R403, R411). -/
def mayFree (s : State) (cn : Nat) : Bool :=
  (allErrands s).all (fun x => x.2.2.ctx ≠ cn || x.2.2.st.final) && s.kernels.all (fun kk => kk.2.ctx ≠ cn || kk.2.written) &&
  s.fw.pend.all (fun r => r.ctx ≠ cn) && s.tiles.all (fun kt => kt.2.tlb.all fun e => e.ctx ≠ cn || !e.live s.dev.hubNs) &&
  s.walkCache.all (fun e => e.2.ctx ≠ cn || !e.2.live s.dev.hubNs) && s.walks.all (fun w => w.ctx ≠ cn || w.res.isSome) &&
  (knownTiles s).all (fun t => !drainHeld s t fun _ => true) && (spTiles s cn).all fun t => !tileHeld s t

/-- Zero one tile's share of the context: scratchpad, vault, fault records and errand slots, macros, carried state, planes; an eviction area goes
altogether (R329 step 3). -/
def scrubTile (s : State) (cn : Nat) (kt : Nat × Tile) : State :=
  let n := kt.1
  let s := kt.2.errands.foldl (fun s se => if se.2.ctx = cn then s.freeErrand n se.1 else s) s
  let s := kt.2.records.foldl (fun s rc => if rc.2 = cn then zeroRange s (recordAddr n rc.1) (recordAddr n rc.1 + 32) else s) s
  let s := s.modTile n fun t => { t with records := t.records.filter (·.2 ≠ cn) }
  let s := if kt.2.spOwner = cn || 1024 ≤ n && (s.kernels.any fun kk => kk.2.ctx = cn && kk.1 = (n - 1024) / 512) then
      let s := zeroRange s (scratchBase n) (scratchBase n + 2 ^ 20)
      s.modTile n fun t => { t with
        group := none, spOwner := 0, bfmt := Vector.replicate 16 0, spmap := Vector.replicate 16 0, spFilled := 0, spDirty := 0
        sems := Vector.replicate 32 0, semQ := [], bars := Vector.replicate 16 { gen := 0, arrived := [] }
        macros := Vector.replicate 4 none, carried := [], frozen := 0, planes := Vector.replicate 4 none, ports := Vector.replicate 16 Port.reset }
    else s
  if kt.2.vault = cn then
    let s := zeroRange s (vaultBase n) (vaultBase n + 0xBFE000)
    s.modTile n fun t => { t with vault := 0 }
  else s

/-- The hidden face of a twin object is zeroed, and its face bit freed. -/
def scrubFace (s : State) (f : Nat × Face) : State :=
  let at_ := f.1 + (if f.2.bit then 0 else 2 ^ f.2.bits)
  { zeroRange s at_ (at_ + 2 ^ f.2.size) with faces := Tbl.erase s.faces f.1 }

/-- The entries of a table that are not zero, as they stand at their places. -/
def tableEntries (s : State) (table size : Nat) : List Word :=
  let at_ := ((s.mem.filter fun c => table ≤ c.1 && c.1 < table + size).map fun c => c.1 / 8 * 8).eraseDups
  at_.map fun a => BitVec.ofNat 64 (leNat (Memory.readN s.mem a 8))

/-- The ranges of this device's HBM that the leaves below a table map (R398, R399). -/
def mappedRanges (s : State) (lvl table : Nat) : Nat → List (Nat × Nat)
  | 0 => []
  | n + 1 => (tableEntries s table (lvlTable lvl)).flatMap fun e =>
    if !pteV e then []
    else if pteLeaf e then
      if lvl = 0 || !leafOk s e (lvlBits lvl) || pteLoc e ≠ 0 then [] else [(pteAddr e, 2 ^ lvlBits lvl * (if pteTwin e then 2 else 1))]
    else if tableOk e (lvl + 1) then mappedRanges s (lvl + 1) (pteAddr e) n else []

/-- The coherence regions of a context that is torn down: those of its pages, and those that its `cmode.soft` switched (Table 20-5; log 117). -/
def ctxRegions (s : State) (cn : Nat) : List Nat :=
  let l := mappedRanges s 0 (s.ctx cn).ptRoot 4
  let mine := fun (r : Nat) => Tbl.find? s.softBy r = some cn || l.any fun m => m.1 < r * 65536 + 65536 && r * 65536 < m.1 + m.2
  (s.regions.map (·.1)).filter fun r => hbmInstalled (r * 65536) 65536 && mine r

/-- A region goes to HOME whatever its state: its token and exclusive lines are recalled, and this device's requests for it are over (Table 20-5). -/
def regionHome (s : State) (r : Nat) : State :=
  let s := recallExcls (recallToken s r) r
  { s with regions := Tbl.erase s.regions r, softBy := Tbl.erase s.softBy r, peerReqs := s.peerReqs.filter (· ≠ (256, r)) }

/-- `TEARDOWN_COMPLETE`: dirty lines go back, what R329 names is zeroed, and the number is FREE. -/
def execTeardownComplete (cn : Nat) (s : State) : Outcome State Fault Refusal :=
  .next <| if (s.ctx cn).st ≠ .teardown || !mayFree s cn then s else
    let s := (knownTiles s).foldl (fun s t => drainIf s t fun _ => true) s
    let s := (spTiles s cn).foldl spReset s
    let s := (ctxRegions s cn).foldl regionHome s
    let s := s.tiles.foldl (fun s kt => scrubTile s cn kt) s
    let s := (s.faces.filter fun f => f.2.ctx = cn).foldl scrubFace s
    let c := s.ctx cn
    let tl := fun (kt : Nat × Tile) => (kt.1, { kt.2 with tlb := kt.2.tlb.filter fun e => e.ctx ≠ cn })
    { s with
      ctxs := Tbl.set s.ctxs cn { Ctx.reset with lmax := c.lmax, mapseq := c.mapseq, mapdone := c.mapdone, mapq := c.mapq.map fun r => { r with gone := [] } }
      tiles := (s.tiles.filter fun kt => kt.1 < 1024 || kt.2.group.isSome).map tl
      walkCache := s.walkCache.filter fun e => e.2.ctx ≠ cn
      threads := s.threads.filter fun kt => kt.2.ctx ≠ cn
      kernels := s.kernels.filter fun kk => kk.2.ctx ≠ cn
      tasks := s.tasks.filter fun t => t.ctx ≠ cn
      walks := s.walks.filter fun w => w.ctx ≠ cn
      ownReqs := s.ownReqs.filter fun r => r.ctx ≠ cn
      ownLost := s.ownLost.filter fun r => r.ctx ≠ cn
      colls := s.colls.filter fun c => c.2.ctx ≠ cn }

end Sys2Proof.Machine
end

