-- ==== Sys2Proof/Machine/Hss.lean ====
section
/-!
DEFINITION. HSS signatures of RFC 8554 with two levels, LMS_SHA256_M32_H15 over LMOTS_SHA256_N32_W8 (R326, R327). The key is free; all else is SHA-256 of it (log 11).
-/
namespace Sys2Proof.Machine
open Sys2Proof

namespace Hss

/-- Big-endian fields of `n` bytes. -/
def be (n v : Nat) : List Byte := (natLe n v).reverse

/-- SHA-256 as bytes. -/
def hash (bs : List Byte) : List Byte := bytesOf 32 (sha256 bs)

/-- A hash within a tree: its identifier, a number and a tag of two bytes (a chain's number, or D_PBLC, D_MESG, D_LEAF, D_INTR) come first. -/
def tagged (tree number tag : Nat) (bs : List Byte) : List Byte := hash (bytesOf 16 (Config.hssId tree) ++ be 4 number ++ be 2 tag ++ bs)

/-- `n` steps along a chain of a one-time key, from step `j`. -/
def chain (tree leaf i j : Nat) (v : List Byte) : Nat → List Byte
  | 0 => v
  | n + 1 => chain tree leaf i (j + 1) (tagged tree leaf i (be 1 j ++ v)) n

/-- Step `n` of chain `i` of a one-time key, from its secret. -/
def chainAt (tree leaf n i : Nat) : List Byte := chain tree leaf i 0 (bytesOf 32 (Config.hssSecret tree leaf i)) n

/-- The hash of a one-time public key: the ends of its 34 chains. -/
def otsPublic (tree leaf : Nat) : List Byte := tagged tree leaf 0x8080 ((List.range 34).flatMap (chainAt tree leaf 255))

/-- The 34 digits of a message's hash: its bytes, then their checksum. -/
def digits (q : List Byte) : List Nat :=
  let d := q.map BitVec.toNat
  let sum := d.foldl (fun n b => n + (255 - b)) 0
  d ++ [sum / 256, sum % 256]

/-- A one-time signature: type, randomiser, a value of each chain. -/
def otsSign (tree leaf : Nat) (msg : List Byte) : List Byte :=
  let c := bytesOf 32 (Config.hssRandom tree leaf)
  let ds := digits (tagged tree leaf 0x8181 (c ++ msg))
  be 4 4 ++ c ++ ds.zipIdx.flatMap fun d => chainAt tree leaf d.1 d.2

/-- Node `r` of a tree, `n` levels above the leaves, which are nodes 2^15 and up. -/
def node (tree : Nat) : Nat → Nat → List Byte
  | 0, r => tagged tree r 0x8282 (otsPublic tree (r - 2 ^ 15))
  | n + 1, r => tagged tree r 0x8383 (node tree n (2 * r) ++ node tree n (2 * r + 1))

/-- A tree's LMS public key. -/
def treePublic (tree : Nat) : List Byte := be 4 7 ++ be 4 4 ++ bytesOf 16 (Config.hssId tree) ++ node tree 15 1

/-- An LMS signature: leaf, one-time signature, type, and the sibling of each node on the path to the root. -/
def treeSign (tree leaf : Nat) (msg : List Byte) : List Byte :=
  be 4 leaf ++ otsSign tree leaf msg ++ be 4 7 ++ (List.range 15).flatMap fun i => node tree i (((2 ^ 15 + leaf) / 2 ^ i) ^^^ 1)

end Hss

/-- The signature of a receipt's body with one-time index `i` (R327, R431): one signed public key, that of the tree below top leaf i ÷ 2^15, then the body signed
by that tree's leaf i mod 2^15. -/
def hssSignature (i : Nat) (body : List Byte) : List Byte :=
  let top := i / 2 ^ 15
  let low := Hss.treePublic (top + 1)
  Hss.be 4 1 ++ Hss.treeSign 0 top low ++ low ++ Hss.treeSign (top + 1) (i % 2 ^ 15) body

/-- The device's public key of 60 bytes: L = 2, then the top tree's (R327). -/
def hssPublicKey : List Byte := Hss.be 4 2 ++ Hss.treePublic 0

end Sys2Proof.Machine
end

