-- ==== Sys2Proof/Machine/Links.lean ====
section
/-!
DEFINITION. Links (chapter 21): their life cycle (R411), Mirfer flits and retry (R413 to R415), page ownership between devices (R302, R407, R408), and
the warm reset of one compute die (R420 to R422).
-/
namespace Sys2Proof.Machine
open Sys2Proof
open Host (Outcome)

/-! ### Life cycle (Table 21-2) -/

/-- A training attempt has failed: the fourth within 10 ms makes the link FAILED, and what its retry buffer holds is discarded (R415). -/
def Link.trainFailed (l : Link) (now : Nat) : Link :=
  let fs := (now :: l.fails).filter fun t => now < t + 10000000
  let l := { l with trainFail := satAdd l.trainFail 1, fails := fs, quiescePending := false }
  if 4 ≤ fs.length then { l with st := .failed, since := now, retry := [], outbox := [], unsent := [] } else { l with st := .training }

/-- Service level 3 is entered once all dies are admitted and every Mirfer link is UP or FAILED (Table 22-3). -/
def raiseLevel (s : State) : State :=
  if s.dev.service = 2 && s.dev.dieup = 15 && ((List.range 12).all fun i => (s.link (8 + i)).st = .up || (s.link (8 + i)).st = .failed)
  then { s with dev := { s.dev with service := 3 } } else s

/-- The host's control reaches links 8 to 20, above service level 0 (R411, Table 22-3). -/
def hostLink (s : State) (n : Nat) : Bool := 8 ≤ n && n ≤ 20 && s.dev.service ≠ 0

/-- The host's write of LCTL of a link. -/
def lctlReq (n : Nat) (v : Word) : HostReq := .regWrite 0 (.pw0 (0x10008 + 0x40 * n)) v

/-- A link after REQ 1, 2 or 3 of LCTL at a hub time (Table 21-2); REQ 0 asks for nothing. -/
def Link.control (l : Link) (now req : Nat) : Link :=
  match req, l.st with
  | 1, .up => { l with lctl := 1, st := .quiescing }
  | 1, .retraining => { l with lctl := 1, quiescePending := true }
  | 2, .quiesced => { l with lctl := 2, st := .up }
  | 3, .down => { l with lctl := 3, st := .training }
  | 3, .up => { l.retrainNow now with lctl := 3 }
  | 3, .quiesced => { l.retrainNow now with lctl := 3 }
  | 3, .failed => { l with lctl := 3, st := .down, trainFail := 0, fails := [], lanes := 0, rate := 0 }
  | n, _ => { l with lctl := BitVec.ofNat 2 n }

/-- The host's LCTL request of a link. -/
def linkControl (s : State) (n req : Nat) : State := if hostLink s n then s.modLink n fun l => l.control s.dev.hubNs req else s

/-- `QUIESCE`: LCTL REQ 1. -/
def execQuiesce (n : Nat) (s : State) : Outcome State Fault Refusal := .next <| inOrder (lctlReq n 1) (linkControl · n 1) s

/-- `RESUME`: LCTL REQ 2. -/
def execResume (n : Nat) (s : State) : Outcome State Fault Refusal := .next <| inOrder (lctlReq n 2) (linkControl · n 2) s

/-- `RETRAIN`: LCTL REQ 3. -/
def execRetrain (n : Nat) (s : State) : Outcome State Fault Refusal := .next <| inOrder (lctlReq n 3) (linkControl · n 3) s

/-- Die links and hub link of a die (Table 21-1). -/
def dieLinks (d : Nat) : List Nat :=
  (match d with | 0 => [0, 1] | 1 => [0, 2] | 2 => [1, 3] | _ => [2, 3]) ++ [4 + d]

/-- A warm reset still holds the link to QUIESCING (R420 step 2). -/
def resetHolds (s : State) (n : Nat) : Bool := s.dierst.active && !s.dierst.zeroed && (dieLinks s.dierst.die.toNat).contains n

/-- A request that crosses the link has not completed: an access of a thread, a request for a page, one that waits to go, or on link 20 one of the host (R15, R302,
R304, R411). -/
def linkBusy (s : State) (n : Nat) : Bool :=
  (n = 20 && !s.posted.isEmpty) || s.carried.any (·.link = n) || !(s.link n).unsent.isEmpty ||
  s.threads.any fun kt => kt.2.fills.any (fun f => f.via.getLsbD n && f.kind = .value) || kt.2.stores.any fun w => w.via.getLsbD n

/-- `LINK_QUIESCED`: nothing that the link carries is outstanding. -/
def execLinkQuiesced (n : Nat) (s : State) : Outcome State Fault Refusal :=
  .next <| s.modLink n fun l => if l.st = .quiescing && l.retry.isEmpty && !linkBusy s n then { l with st := .quiesced } else l

/-- `RETRAIN_COMPLETE`: within 1 ms; the retry buffer is replayed in order. -/
def execRetrainComplete (n : Nat) (s : State) : Outcome State Fault Refusal :=
  .next <| raiseLevel <| s.modLink n fun l =>
    if l.st = .retraining && s.dev.hubNs ≤ l.since + 1000000 then
      ({ l with st := if l.quiescePending then .quiescing else .up, quiescePending := false } : Link).again s.dev.hubNs
    else l

/-- `LANE_LOCK_LOSS`: a retrain condition (R414). -/
def execLaneLockLoss (n : Nat) (s : State) : Outcome State Fault Refusal :=
  .next <| s.modLink n fun l => if l.st = .up || l.st = .quiescing then l.retrainNow s.dev.hubNs else l

/-! ### Flits (R413, R414) -/

/-- The word of a peer's atomic lies in memory that this device owns: its own HBM, or a page of a peer that has moved here (R81, R302). -/
def ownsWord (s : State) (k : Nat) : Bool := (hbmInstalled k 8 || isPeer k) && !elsewhere s k

/-- A request of a peer that has been delivered: it reaches memory without owning the page only as an atomic at system scope, which executes at the home
slice of a word that this device owns (R81, R302; log 17). A poisoned word stays as it is, and its reply is poison (R17). -/
def peerRequest (s : State) (n : Nat) (payload : BitVec 1920) : State :=
  let k := Config.peerAtomicAt payload / 8 * 8
  if !ownsWord s k then s else
  let r := hubRead s k 8
  let old := leNat r.2
  let bad := poisoned s k 8
  let s := if bad then r.1 else hubWrite r.1 k (natLe 8 (Config.peerAtomicWord payload old))
  s.modLink n fun l => l.send s.dev.hubNs 2 (Config.peerAtomicReply payload (if bad then none else some old))

/-- A request flit cannot be served at this moment: the word is out of reach (R15, R30). It is received later. -/
def requestHeld (s : State) (payload : BitVec 1920) : Bool :=
  let k := Config.peerAtomicAt payload / 8 * 8
  ownsWord s k && !pathOpen s 0 k

/-- `FLIT_RECEIVE`: of a Mirfer link, at a service level that offers Mirfer (Table 22-3); an accepted request flit is served. -/
def execFlitReceive (n : Nat) (f : BitVec 2048) (good : Bool) (s : State) : Outcome State Fault Refusal :=
  .next <| if !(8 ≤ n && n ≤ 19) || s.dev.service.toNat < 2 then s else
    let t := s.modLink n fun l => l.receive s.dev.hubNs f good
    if flitKind f = 1 && (s.link n).inbox.length < (t.link n).inbox.length then
      if requestHeld s (f.extractLsb' 32 1920) then s else peerRequest t n (f.extractLsb' 32 1920)
    else t

/-- `ACK_TIMEOUT`: 20 µs without an acknowledgement while flits are outstanding. -/
def execAckTimeout (n : Nat) (s : State) : Outcome State Fault Refusal :=
  .next <| s.modLink n fun l =>
    if (l.st = .up || l.st = .quiescing) && !l.retry.isEmpty && l.ackNs + 20000 ≤ s.dev.hubNs then l.retrainNow s.dev.hubNs else l

/-! ### Page ownership (R302, R407, R408) -/

/-- A dirty line of a region has no way home at this moment, from an L1 or from a scratchpad that backs it: its write-back waits (R15, R411). -/
def regionHeld (s : State) (r : Nat) : Bool :=
  ((knownTiles s).any fun t => drainHeld s t fun ln => regionOf ln = r) ||
  s.mapped.any fun km => regionOf km.1 = r && spIsDirty s km.2 && (route s (dieOf (placeTile km.2)) (homeDie km.1)).isNone

/-- Drop every copy of a region's lines, dirty ones drained first, from L1s and from scratchpads that back them (R73, R302 steps 1 and 2, R303). -/
def yieldRegion (s : State) (r : Nat) : State :=
  let s := spReleaseIf (recallExcls (recallToken s r) r) fun ln => regionOf ln = r
  let s := (knownTiles s).foldl (fun s t => drainIf s t fun ln => regionOf ln = r) s
  let s := (knownTiles s).foldl (fun s t => dropIf s t fun ln _ => regionOf ln = r) s
  { s with l2 := s.l2.filter fun l => regionOf l.1 ≠ r }

/-- The link that carries ownership between this device and a peer at this moment: a request goes over one that is UP, and the answer to one over a link that is
QUIESCING too (R411). -/
def answerLink (s : State) (p : Nat) : Option Nat :=
  if s.dev.service.toNat < 2 then none else
  ((List.range 12).find? fun i => (s.peer p).links.getLsbD i && ((s.link (8 + i)).st = .up || (s.link (8 + i)).st = .quiescing)).map (8 + ·)

/-- A region of this device goes to a peer: MOVING, its token and exclusive lines recalled. -/
def moveOut (s : State) (p r : Nat) : State :=
  let soft := Tbl.get s.regions .home r = .soft
  setRegion (recallExcls (recallToken s r) r) r (.moving p soft true)

/-- A region or page lies in this device's HBM. -/
def ownRegion (r : Nat) : Bool := hbmInstalled (r * 65536) 65536

/-- An owner keeps a page for 2 µs after its grant; one that has never been granted has been here since reset. -/
def holdOver (s : State) (page : Nat) : Bool := match Tbl.find? s.grants page with | some t => t + 2000 ≤ s.dev.hubNs | none => true

/-- Some agent waits for a page or region that is elsewhere: one of this device, or a peer's queued request for it (R302). -/
def wanted (s : State) (page : Nat) : Bool := s.ownReqs.any (·.page = page) || s.peerReqs.any (·.2 = page)

/-- This device has asked for the page, and is not answered yet. -/
def askedFor (s : State) (page : Nat) : Bool := s.carried.any fun c => c.mine && c.page = page

/-- This device asks the peer that owns a page that it wants, once; a region of its own that is REMOTE begins to move back, after the owner's hold (Table 20-5). The agent that waited first pays for the flit. -/
def askOwner (s : State) (p page n : Nat) : State :=
  let who := match s.ownReqs.find? (·.page = page) with | some r => r.who | none => .nobody
  let sent := fun (s : State) =>
    { sendFlit s who n 3 (Config.flitPayload page) with carried := s.carried ++ [{ link := n, peer := p, page := page, mine := true }] }
  if !wanted s page || askedFor s page then s
  else if ownRegion page then
    match Tbl.get s.regions .home page with
    | .remote q soft => if q = p && holdOver s page then setRegion (sent s) page (.moving p soft false) else s
    | _ => s
  else if isPeer (page * 65536) && peerOf (page * 65536) = p then sent s else s

/-- `OWNERSHIP_REQUEST`: this device asks a peer (`mine`), or a peer asks for a region of this device; one that finds it away, or others before it, is
queued. -/
def execOwnershipRequest (p page : Nat) (mine : Bool) (s : State) : Outcome State Fault Refusal :=
  .next <|
    if mine then
      match peerLink s p with
      | none => s
      | some n => askOwner s p page n
    else match answerLink s p with
      | none => s
      | some n =>
        if !ownRegion page then s else
        let s : State := { s with carried := s.carried ++ [{ link := n, peer := p, page := page, mine := false }] }
        match Tbl.get s.regions .home page with
        | .home | .held _ | .soft =>
          if s.peerReqs.all (·.2 ≠ page) && holdOver s page && !regionHeld s page then moveOut s p page else { s with peerReqs := s.peerReqs ++ [(p, page)] }
        | _ => { s with peerReqs := s.peerReqs ++ [(p, page)] }

/-- The device that a region's oldest queued request comes from: a peer, or 256 for this device (R302). -/
def nextFor (s : State) (r : Nat) : Option Nat := (s.peerReqs.find? (·.2 = r)).map (·.1)

/-- A region has come back: it goes on to the peer whose request is the oldest, or it is home, with this device's own request served. -/
def comeHome (s : State) (r : Nat) (soft : Bool) : State :=
  match nextFor s r with
  | some p =>
    let s := { s with peerReqs := s.peerReqs.erase (p, r) }
    if p = 256 then grantHere s r soft else setRegion s r (.moving p soft true)
  | none => grantHere s r soft
where
  grantHere (s : State) (r : Nat) (soft : Bool) : State :=
    let s := setRegion s r (if soft then .soft else .home)
    { s with grants := Tbl.set s.grants r s.dev.hubNs, ownReqs := s.ownReqs.filter (·.page ≠ r) }

/-- The bytes of a 64 KiB page that a transfer brings: to a region of this device the writes that its owner performs at the page's place, each clearing its byte of a
poisoned line's mask (R17, R302 step 1); of a peer's page the contents. -/
def bringPage (s : State) (page : Nat) (data : List Host.Cell) : State :=
  let lo := page * 65536
  let cells := data.filter fun c => lo ≤ c.1 && c.1 < lo + 65536
  if ownRegion page then cells.foldl (fun s c => pokeByte s c.1 c.2) s
  else { s with mem := cells.foldl (fun m c => Memory.write m c.1 c.2) (Memory.zero s.mem lo (lo + 65536)) }

/-- A request for a page has been answered. -/
def answered (s : State) (p page : Nat) (mine : Bool) : State :=
  { s with carried := s.carried.filter fun c => !(c.peer = p && c.page = page && c.mine = mine) }

/-- `OWNERSHIP_TRANSFER`: over a link to the peer, a page or region comes to this device with its bytes (`mine`), or goes to a peer after its drain; one that is here
first stops serving this device for the peer whose queued request is the oldest. A page of a peer comes in its home device's mode, which is free (R406; log 17). -/
def execOwnershipTransfer (p page : Nat) (mine : Bool) (data : List Host.Cell) (s : State) : Outcome State Fault Refusal :=
  .next <|
    let granted := fun (s : State) => answered { s with grants := Tbl.set s.grants page s.dev.hubNs } p page mine
    if (answerLink s p).isNone then s
    else if ownRegion page then
      match Tbl.get s.regions .home page with
      | .moving q soft out =>
        if q ≠ p || out = mine then s
        else if mine then comeHome (bringPage (answered s p page mine) page data) page soft
        else if !holdOver s page || regionHeld s page then s else granted (setRegion (yieldRegion s page) page (.remote p soft))
      | .remote _ _ => s
      | _ => if !mine && nextFor s page = some p && holdOver s page && !regionHeld s page then moveOut { s with peerReqs := s.peerReqs.erase (p, page) } p page else s
    else if !isPeer (page * 65536) || peerOf (page * 65536) ≠ p then s
    else if mine then
      if !askedFor s page || s.owned.contains page then s else
      let s := { bringPage s page data with ownReqs := s.ownReqs.filter (·.page ≠ page) }
      granted (setRegion { s with owned := s.owned ++ [page] } page (if Config.peerSoft page s.tick then .soft else .home))
    else if !s.owned.contains page || !holdOver s page || regionHeld s page then s
    else
      let s := yieldRegion s page
      answered { s with owned := s.owned.filter (· ≠ page), regions := Tbl.erase s.regions page } p page mine

/-- Poison every line of a region (R408). -/
def poisonRegion (s : State) (r : Nat) : State :=
  (List.range 512).foldl (fun s i => { s with poison := Tbl.set s.poison (r * 65536 + 128 * i) 0 }) s

/-- Every path to a peer has been FAILED for 1 ms. -/
def lostFor1ms (s : State) (p : Nat) : Bool :=
  peerLost s p && (List.range 12).all fun i => !(s.peer p).links.getLsbD i || (s.link (8 + i)).since + 1000000 ≤ s.dev.hubNs

/-- Error replies to the peers whose requests waited on a region (R408). -/
def refusePeers (s : State) (r : Nat) : State :=
  let ps := (s.peerReqs.filter fun x => x.2 = r && x.1 < 255).map (·.1)
  let s := { s with peerReqs := s.peerReqs.filter (·.2 ≠ r), carried := s.carried.filter fun c => c.mine || c.page ≠ r }
  ps.foldl (fun s p => match answerLink s p with
    | some n => s.modLink n fun l => l.send s.dev.hubNs 2 (Config.flitPayload r)
    | none => s) s

/-- A lost device owns the region: it is there, or on its way back from there (R408). -/
def lostRegion (p : Nat) (r : RStat) : Bool := match r with | .remote q _ => q = p | .moving q _ out => q = p && !out | _ => false

/-- A region on its way out to a lost device has not been granted to it, and stays with this device (R302, R407). -/
def stayHome (s : State) (p : Nat) : State :=
  s.regions.foldl (fun s kr => match kr.2 with
    | .moving q soft true => if q = p then comeHome s kr.1 soft else s
    | _ => s) s

/-- The accesses that wait for a page among `rs` receive the error reply (R408, R415). -/
def loseReqs (s : State) (rs : List Nat) : State :=
  let gone := s.ownReqs.filter fun r => rs.contains r.page && r.who ≠ .nobody
  { s with ownReqs := s.ownReqs.filter (fun r => !rs.contains r.page), ownLost := s.ownLost ++ gone
           carried := s.carried.filter fun c => !(c.mine && rs.contains c.page) }

/-- `OWNER_UNREACHABLE`: regions that the lost device owns come home poisoned, and the requests that waited for them get error replies. -/
def execOwnerUnreachable (p : Nat) (s : State) : Outcome State Fault Refusal :=
  .next <| if !lostFor1ms s p then s else
    let rs := (s.regions.filter fun kr => lostRegion p kr.2).map (·.1)
    let s := stayHome { s with peerReqs := s.peerReqs.filter (·.1 ≠ p), carried := s.carried.filter fun c => c.mine || c.peer ≠ p } p
    rs.foldl (fun s r => setRegion (refusePeers (poisonRegion s r) r) r .home) (loseReqs s rs)

/-! ### Links that fail (R415) -/

/-- The requests for pages that a failed link has carried are over: this device's receive the error reply, with a region on its way back REMOTE again, and a
peer's, which its device has given up, is served no more. -/
def failCarried (s : State) (n : Nat) : State :=
  let cs := s.carried.filter (·.link = n)
  let mine := (cs.filter (·.mine)).map (·.page)
  let s := loseReqs { s with peerReqs := s.peerReqs.filter fun r => !(r.1 = 256 && mine.contains r.2) } mine
  let s := mine.foldl (fun s r => match Tbl.get s.regions .home r with
    | .moving p soft false => setRegion s r (.remote p soft)
    | _ => s) s
  let s := { s with carried := s.carried.filter (·.link ≠ n) }
  (cs.filter (!·.mine)).foldl (fun s c =>
    let s := { s with peerReqs := s.peerReqs.erase (c.peer, c.page) }
    match Tbl.get s.regions .home c.page with
    | .moving p soft true => if p = c.peer then comeHome s c.page soft else s
    | _ => s) s

/-- A link that has become FAILED: what was in flight over it receives the error reply (R15, R411, R415). -/
def failInFlight (s : State) (n : Nat) : State :=
  if (s.link n).st ≠ .failed then s else
  let fill := fun (f : Fill) => if f.via.getLsbD n && f.kind = .value && !f.err
    then { f with err := true, pois := some { cause := cLINK_ERR, addr := f.addr } } else f
  let store := fun (w : StoreWait) => if w.via.getLsbD n && w.err.isNone then { w with err := some w.addr } else w
  let s := failCarried s n
  { s with threads := s.threads.map fun kt => (kt.1, { kt.2 with fills := kt.2.fills.map fill, stores := kt.2.stores.map store }) }

/-- `TRAINING_FAILURE`. -/
def execTrainingFailure (n : Nat) (s : State) : Outcome State Fault Refusal :=
  .next <| raiseLevel <| (failInFlight · n) <| s.modLink n fun l => if l.st = .training then l.trainFailed s.dev.hubNs else l

/-- `RETRAIN_TIMEOUT`: 1 ms has passed; it counts as a failed attempt. -/
def execRetrainTimeout (n : Nat) (s : State) : Outcome State Fault Refusal :=
  .next <| raiseLevel <| (failInFlight · n) <| s.modLink n fun l =>
    if l.st = .retraining && l.since + 1000000 ≤ s.dev.hubNs then l.trainFailed s.dev.hubNs else l

/-! ### Warm reset of a die (R420 to R422) -/

/-- Allotments with a group, a running or parked errand, or a vault of their context on the die (R422): context and index. -/
def dieAllots (s : State) (d : Nat) : List (Nat × Nat) :=
  let here := s.tiles.filter fun kt => kt.1 < 512 && dieOf kt.1 = d
  let groups := here.filterMap fun kt => match kt.2.group with
    | some g => if g.stat = .live || g.stat = .reserved then (s.kern? g.kernel).map fun k => (k.ctx, k.allot) else none
    | none => none
  let errs := (allErrands s).filterMap fun x =>
    if x.2.2.at_ < 512 && dieOf x.2.2.at_ = d && (x.2.2.st = .running || x.2.2.st = .parked) then some (x.2.2.ctx, x.2.2.allot) else none
  let vaults := (here.filter fun kt => kt.2.vault ≠ 0).flatMap fun kt =>
    ((s.ctx kt.2.vault).allots.filter fun ja => ja.2.parent.isNone).map fun ja => (kt.2.vault, ja.1)
  groups ++ errs ++ vaults

/-- Steps 1 and 2: the die leaves service, its allotments stop, its links quiesce, its targets give error replies. -/
def startDieReset (s : State) (d : Nat) : State :=
  let s := { s with dev := { s.dev with dieup := s.dev.dieup &&& ~~~(1#4 <<< d), service := 2 }
                    dierst := { s.dierst with stat := 1, die := BitVec.ofNat 2 d, active := true, moved := false, zeroed := false
                                              lost := s.dierst.lost ||| (1#4 <<< d) } }
  let s := (dieAllots s d).foldl (fun s x => allotStop s x.1 x.2 cLINK_ERR) s
  (dieLinks d).foldl (fun s n => s.modLink n fun l => match l.st with
    | .up => { l with st := .quiescing }
    | .retraining => { l with quiescePending := true }
    | _ => l) s

/-- A write of DIERST: GO starts the reset of the die it names when STAT is 0 or 2; otherwise it is refused. -/
def dierstWrite (s : State) (v : Word) : State :=
  let die := v.extractLsb' 4 2
  if s.dev.service = 0 then s
  else if !v.getLsbD 0 then { s with dierst := { s.dierst with sel := die } }
  else if (s.dierst.stat = 0 || s.dierst.stat = 2) && !s.dierst.active && die ≠ 0 then
    startDieReset { s with dierst := { s.dierst with sel := die } } die.toNat
  else { s with dierst := { s.dierst with stat := 3 } }

/-- `DIERST`. -/
def execDierst (v : Word) (s : State) : Outcome State Fault Refusal := .next <| inOrder (.regWrite 0 (.pw0 0x200) v) (dierstWrite · v) s

/-- `DIE_FATAL_ERROR`: the reeve column starts a warm reset. -/
def execDieFatalError (d : Nat) (s : State) : Outcome State Fault Refusal :=
  .next <| if d = 0 || 3 < d || s.dierst.active || s.dev.service = 0 then s else startDieReset s d

/-- Tiles of a die that hold anything. -/
def dieTiles (s : State) (d : Nat) : List Nat := (knownTiles s).filter fun t => t < 512 && dieOf t = d

/-- `HOME_MOVE`: the die's dirty lines go back to their places, but those for which its failed hub link leaves no way, and die 0 becomes their home: a request to a
line that is homed there and lives in another die's scratchpad goes on to it. -/
def execHomeMove (d : Nat) (s : State) : Outcome State Fault Refusal :=
  .next <| if !s.dierst.active || s.dierst.die.toNat ≠ d || s.dierst.moved then s else
    let s := (dieTiles s d).foldl (fun s t => drainIf (if (s.link (4 + d)).st = .failed && tileHeld s t then s else spReset s t) t
      fun ln => homeDie ln = d || (s.link (4 + d)).st ≠ .failed) s
    { s with dierst := { s.dierst with moved := true } }

/-- A dirty line that cannot be written back, in the tile's L1 or in its scratchpad under a mapping entry, is poisoned at its place (R421). -/
def poisonDirty (s : State) (t : Nat) : State :=
  let s := (s.mapped.filter fun km => placeTile km.2 = t && spIsDirty s km.2).foldl (fun s km => { s with poison := Tbl.set s.poison km.1 0 }) s
  (s.tile t).l1.foldl (fun s l => if l.2.dirty = 0 then s else { s with poison := Tbl.set s.poison l.1 0 }) s

/-- A tile after its reset: its memories are zero; what its vault is assigned to is the context's. -/
def zeroTile (s : State) (t : Nat) : State :=
  let old := s.tile t
  let s := poisonDirty s t
  let s := zeroRange (zeroRange s (scratchBase t) (scratchBase t + 2 ^ 20)) (vaultBase t) (vaultBase t + 0xC00000)
  { s with tiles := Tbl.set s.tiles t { Tile.reset with vault := old.vault, fwall := old.fwall }
           regions := s.regions.map fun kr => if kr.2 = .held t then (kr.1, .home) else kr
           excl := s.excl.filter fun lt => lt.2 ≠ t
           mapped := s.mapped.filter fun km => !(scratchBase t ≤ km.2 && km.2 < scratchBase t + 2 ^ 20)
           threads := s.threads.filter fun kt => tileOf kt.1 ≠ t }

/-- Step 5 for one link of the die. -/
def Link.afterReset (l : Link) (now : Nat) : Link :=
  match l.st with
  | .quiesced => l.retrainNow now
  | .failed => { l with st := .training, trainFail := 0, fails := [], lanes := 0, rate := 0 }
  | _ => l

/-- `DIE_RESET`: steps 4 and 5, once every link of the die is QUIESCED (or FAILED). -/
def execDieReset (d : Nat) (s : State) : Outcome State Fault Refusal :=
  .next <|
    let ready := (dieLinks d).all fun n => (s.link n).st = .quiesced || (s.link n).st = .failed
    if !s.dierst.active || s.dierst.die.toNat ≠ d || !s.dierst.moved || s.dierst.zeroed || !ready then s else
    let acts := (s.acts.filter fun ka => ka.2.tile < 512 && dieOf ka.2.tile = d).map (·.1)
    let s := acts.foldl dropAct s
    let s := (dieTiles s d).foldl zeroTile s
    let frame := s.dev.frame.mapIdx fun i x => if i = d then Vector.replicate 64 0x00E4 else x
    let slot := s.dev.slot.mapIdx fun i x => if i = d then 0 else x
    let s := { s with walks := s.walks.filter (fun w => w.die ≠ d), walkCache := s.walkCache.filter fun e => e.1 / 4 ≠ d
                      dev := { s.dev with frame := frame, slot := slot }
                      dierst := { s.dierst with zeroed := true } }
    (dieLinks d).foldl (fun s n => s.modLink n fun l => l.afterReset s.dev.hubNs) s

/-- `DIE_READMIT`: step 6, once the die's links are all UP; with one FAILED the die stays out of service. -/
def execDieReadmit (d : Nat) (s : State) : Outcome State Fault Refusal :=
  .next <| if !s.dierst.active || s.dierst.die.toNat ≠ d || !s.dierst.zeroed then s else
    let done := fun (s : State) => { s with dierst := { s.dierst with stat := 2, active := false } }
    if (dieLinks d).any fun n => (s.link n).st = .failed then done s
    else if (dieLinks d).all fun n => (s.link n).st = .up then
      let s := done s
      let s : State := { s with dierst := { s.dierst with lost := s.dierst.lost &&& ~~~(1#4 <<< d) }
                                dev := { s.dev with dieup := s.dev.dieup ||| (1#4 <<< d) } }
      raiseLevel (writeRanks s d false)
    else s

end Sys2Proof.Machine
end

