-- ==== Sys2Proof/Machine/Loader.lean ====
section
/-!
DEFINITION. LOAD (R335): the ELF64 container (R120, R121; log 12), its kernel index (R122), and the copy into the context's memory.
-/
namespace Sys2Proof.Machine
open Sys2Proof
open Host (Outcome)

/-- Little-endian field of an object's bytes. -/
def fileLe (bs : List Byte) (off n : Nat) : Nat := leNat ((bs.drop off).take n)

/-- A program header: type, flags, offset, address, sizes in file and memory. -/
structure ElfSeg where
  type   : Nat
  flags  : Nat
  off    : Nat
  va     : Nat
  filesz : Nat
  memsz  : Nat
deriving DecidableEq, Repr

/-- A section header: name, address, offset, size. -/
structure ElfSec where
  name : List Byte
  addr : Nat
  off  : Nat
  size : Nat
deriving DecidableEq, Repr

/-- The header fields of R120. -/
def elfHeaderOk (bs : List Byte) : Bool :=
  64 ≤ bs.length && fileLe bs 0 4 = 0x464C457F && fileLe bs 4 1 = 2 && fileLe bs 5 1 = 1 && fileLe bs 6 1 = 1 && fileLe bs 7 1 = 0 &&
  fileLe bs 16 2 = 2 && fileLe bs 18 2 = 0xCAE0 && fileLe bs 20 4 = 1 && fileLe bs 24 8 = 0 && fileLe bs 48 4 = 1 &&
  (fileLe bs 54 2 = 56 || fileLe bs 56 2 = 0) && (fileLe bs 58 2 = 64 || fileLe bs 60 2 = 0) &&
  fileLe bs 32 8 + 56 * fileLe bs 56 2 ≤ bs.length && fileLe bs 40 8 + 64 * fileLe bs 60 2 ≤ bs.length

def elfSegs (bs : List Byte) : List ElfSeg :=
  (List.range (fileLe bs 56 2)).map fun i =>
    let o := fileLe bs 32 8 + 56 * i
    { type := fileLe bs o 4, flags := fileLe bs (o + 4) 4, off := fileLe bs (o + 8) 8, va := fileLe bs (o + 16) 8
      filesz := fileLe bs (o + 32) 8, memsz := fileLe bs (o + 40) 8 }

/-- Bytes up to the first zero. -/
def cString (bs : List Byte) : List Byte := bs.takeWhile (· ≠ 0)

def elfSecs (bs : List Byte) : List ElfSec :=
  let sh := fileLe bs 40 8
  let str := fileLe bs (sh + 64 * fileLe bs 62 2 + 24) 8
  (List.range (fileLe bs 60 2)).map fun i =>
    let o := sh + 64 * i
    { name := cString (bs.drop (str + fileLe bs o 4)), addr := fileLe bs (o + 16) 8, off := fileLe bs (o + 24) 8, size := fileLe bs (o + 32) 8 }

/-- A name as bytes. -/
def nameBytes (n : String) : List Byte := n.toList.map fun c => BitVec.ofNat 8 c.toNat
def elfSec (bs : List Byte) (name : String) : Option ElfSec := (elfSecs bs).find? (·.name = nameBytes name)

/-- A PT_LOAD segment keeps its ranges in the file and in W0. -/
def segOk (bs : List Byte) (g : ElfSeg) : Bool :=
  g.type ≠ 1 || (g.off + g.filesz ≤ bs.length && g.filesz ≤ g.memsz && g.va + g.memsz ≤ 2 ^ 56)

/-! ### The kernel index (R122) -/

/-- A placement entry, its function moved by the load base; none where the load is refused. -/
def placeEntry (k : List Byte) (o : Nat) (base : Word) : Option Placement :=
  let d := fileLe k (o + 10) 2
  if 2 ≤ fileLe k (o + 8) 1 || 16 ≤ fileLe k (o + 9) 1 || fileLe k (o + 12) 4 ≠ 0 || k.length < o + 16 then none else
  some { fn := BitVec.ofNat 64 (fileLe k o 8) + base, mode := fileLe k (o + 8) 1, planes := BitVec.ofNat 4 (fileLe k (o + 9) 1)
         delta := (BitVec.ofNat 16 d).toInt }

/-- The index entries from offset `o`: they end where the section or the first placement entry does. -/
def kernEntries (k : List Byte) (base : Word) (o stop : Nat) : Nat → Option (List (Word × List Placement))
  | 0 => some []
  | n + 1 =>
    if stop < o + 32 then some [] else
    let np := fileLe k (o + 16) 4
    let po := fileLe k (o + 24) 8
    if 32 < np || fileLe k (o + 20) 4 ≠ 0 then none else
    let ps := (List.range np).map fun j => placeEntry k (po + 16 * j) base
    if ps.any (·.isNone) then none else
    (kernEntries k base (o + 32) (if np = 0 then stop else min stop po) n).map
      fun l => (BitVec.ofNat 64 (fileLe k o 8) + base, ps.filterMap id) :: l

/-- Bytes from the load base to the end of an object's last segment. -/
def objSpan (bs : List Byte) : Nat := ((elfSegs bs).filter (·.type = 1)).foldl (fun m g => max m (g.va + g.memsz)) 1

/-- The loaded object that bytes describe at a load base; none where they are no code object. Where it has no `.data` section, gp is the load base, which the
spec leaves open (R130; log 118). -/
def codeObj (bs : List Byte) (base : Word) : Option CodeObj :=
  if !elfHeaderOk bs || !(elfSegs bs).all (segOk bs) then none else
  let k := match elfSec bs ".kernhdr" with | some x => (bs.drop x.off).take x.size | none => []
  let gp := match elfSec bs ".data" with | some x => base + BitVec.ofNat 64 x.addr | none => base
  match kernEntries k base 0 k.length (k.length / 32) with
  | none => none
  | some ks =>
    let code := (elfSegs bs).filter fun g => g.type = 1 && g.flags % 2 = 1
    some { base := base, gp := gp, kerns := ks
           segs := code.map fun g => (base + BitVec.ofNat 64 g.va, g.memsz, g.flags / 2 ^ 20 % 2 = 1)
           parts := [(base.toNat, objSpan bs)] }

/-! ### The copy -/

/-- Bytes into a context's memory for the loader, through its tables. -/
def loaderWrite (s : State) (cn : Nat) (va : Word) : List Byte → State × Except Fail Unit
  | [] => (s, .ok ())
  | b :: r =>
    match translateHub s cn va .wr with
    | (s, .error f) => (s, .error f)
    | (s, .ok k) => match hubOwn s cn k with
      | (s, .error f) => (s, .error f)
      | (s, .ok ()) => loaderWrite (hubWrite s k [b]) cn (va + 1) r

/-- The place of the leaf entry that maps an address, by the tables alone. -/
def leafAt (s : State) (va lvl table : Nat) : Nat → Option Nat
  | 0 => none
  | n + 1 =>
    let k := table + 8 * lvlIndex lvl va
    let e := BitVec.ofNat 64 (leNat (readHome s k 8))
    if !pteV e then none else if pteLeaf e then some k else leafAt s va (lvl + 1) (pteAddr e) n

/-- Set the code kind of the pages of a segment (R121). -/
def setKinds (s : State) (cn : Nat) (va n : Nat) (kind : Bool) : State :=
  (List.range ((va % 65536 + n + 65535) / 65536)).foldl (fun s i =>
    match leafAt s (va / 65536 * 65536 + i * 65536) 0 (s.ctx cn).ptRoot 4 with
    | none => s
    | some k =>
      let e := BitVec.ofNat 64 (leNat (hubRead s k 8).2)
      hubWrite s k (bytesOf 8 (if kind then e ||| 1#64 <<< 52 else e &&& ~~~(1#64 <<< 52)))) s

/-! ### Relocation (R123; log 12) -/

/-- Replace `n` bits from bit `lo` of the word at `off` by those of `v`. -/
def patch (bs : List Byte) (off lo n v : Nat) : List Byte :=
  let len := (lo + n + 7) / 8
  let old := leNat ((bs.drop off).take len)
  if bs.length < off + len then bs else
  bs.take off ++ natLe len (old % 2 ^ lo + v % 2 ^ n * 2 ^ lo + old / 2 ^ (lo + n) * 2 ^ (lo + n)) ++ bs.drop (off + len)

/-- The field of a relocation type and its value from S + A and the tag of S: those that hold an absolute address (Table 06-5). The others hold a distance, which a
load base leaves as it is. -/
def relocField (type sa : Nat) (tag : Bool) : Option (Nat × Nat × Nat) :=
  match type with
  | 1 => some (0, 64, sa)
  | 2 => some (0, 64, if tag then sa / 2 * 2 + 1 else sa)
  | 3 => some (52, 44, sa)
  | 4 => some (52, 20, sa / 2 ^ 44)
  | 8 => some (48, 40, sa)
  | _ => none

/-- One entry of a `.rela` section, applied to the bytes of a segment as they stand at a load base: r_offset, r_info and r_addend, with the symbol's address and the
tag in bit 7 of its `st_other` (R120). -/
def relocate (bs : List Byte) (base : Word) (g : ElfSeg) (seg : List Byte) (o : Nat) : List Byte :=
  let at_ := fileLe bs o 8
  let sym := match elfSec bs ".symtab" with | some x => x.off + 24 * fileLe bs (o + 12) 4 | none => bs.length
  let sa := (BitVec.ofNat 64 (fileLe bs (sym + 8) 8 + fileLe bs (o + 16) 8) + base).toNat
  match relocField (fileLe bs (o + 8) 4) sa (128 ≤ fileLe bs (sym + 5) 1) with
  | none => seg
  | some (lo, n, v) => if at_ < g.va || g.va + g.filesz ≤ at_ then seg else patch seg (at_ - g.va) lo n v

/-- The file bytes of a segment at a load base, every `.rela` section's entries applied. -/
def segBytes (bs : List Byte) (base : Word) (g : ElfSeg) : List Byte :=
  let rela := (elfSecs bs).filter fun x => x.name.take 5 = nameBytes ".rela"
  let ents := rela.flatMap fun x => (List.range (x.size / 24)).map fun i => x.off + 24 * i
  ents.foldl (relocate bs base g) ((bs.drop g.off).take g.filesz)

/-- Copy the loadable segments, relocated to the load base and zero-filled to their sizes in memory. -/
def copySegs (s : State) (cn : Nat) (base : Word) (bs : List Byte) : List ElfSeg → State × Except Fail Unit
  | [] => (s, .ok ())
  | g :: r =>
    if g.type ≠ 1 then copySegs s cn base bs r else
    let at_ := base + BitVec.ofNat 64 g.va
    match loaderWrite s cn at_ (segBytes bs base g ++ List.replicate (g.memsz - g.filesz) 0) with
    | (s, .error f) => (s, .error f)
    | (s, .ok ()) =>
      copySegs (if g.flags % 2 = 1 then setKinds s cn at_.toNat g.memsz (g.flags / 2 ^ 20 % 2 = 1) else s) cn base bs r

/-- Load base that firmware chooses for a context's next object: a 64 KiB boundary in W0, with the object clear of what the context has in use, other objects
among them (R348; log 13). -/
def baseFor (s : State) (cn : Nat) (bs : List Byte) : Word :=
  BitVec.ofNat 64 (pickArea (areas s cn) (Config.areaAt s.tick 514) (objSpan bs))

/-- `LOAD`. -/
def execLoad (q : Nat) (s : State) : Outcome State Fault Refusal :=
  .next <| ctxPacket s q (fun p => p.kind = 4) [.measured, .running] [(8, 16)] fun s p =>
    if 2 ^ 30 < p.f 16 8 then finish s p sBADFIELD 0 else
    match hubCheck s p.ctx (p.w 8) (p.f 16 8) .rd with
    | (s, .error _) => finish s p sBADFIELD 0
    | (s, .ok ()) =>
      match hubReadVa s p.ctx (p.w 8) (p.f 16 8) with
      | (s, .error f) => failPkt s p f
      | (s, .ok bs) =>
        let base := baseFor s p.ctx bs
        match codeObj bs base with
        | none => finish s p sREJECTED 0
        | some o =>
          match copySegs s p.ctx base bs (elfSegs bs) with
          | (s, .error f) => failPkt s p f
          | (s, .ok ()) =>
            finish (appendEvent (s.modCtx p.ctx fun c => { c with objs := c.objs ++ [o] }) p.ctx 2 bs) p sOK base

end Sys2Proof.Machine
end

