-- ==== Sys2Proof/Machine/Launch.lean ====
section
/-!
DEFINITION. LAUNCH (R339, R348 to R351): the checks of Table 16-2 in their order, the copy of the arguments, the kernel in QUEUED.
-/
namespace Sys2Proof.Machine
open Sys2Proof
open Host (Outcome)

/-! ### Buffer lists (Table 15-5) -/

def bufAt (bs : List Byte) (i : Nat) : BitVec 256 := BitVec.ofNat 256 (leNat ((bs.drop (32 * i)).take 32))

/-- One entry, or none where it breaks R339. -/
def bufOf (e : BitVec 256) : Option Buf :=
  let m := hdrField e 16 1
  let b : Buf := { addr := BitVec.ofNat 64 (hdrField e 0 8), len := hdrField e 8 8, mode := m % 4, measure := m / 4 % 2 = 1 }
  if 8 ≤ m || hdrField e 17 15 ≠ 0 || b.len = 0 || 2 ^ 40 < b.len || (b.measure && b.mode < 2) then none else some b

/-- The permission that a buffer's use needs: read for a source, and for what MEASURE reads at the end; write for a destination (R335, R339). -/
def Buf.need (b : Buf) : Need :=
  match b.mode with
  | 0 => .any
  | 1 => .rd
  | 2 => if b.measure then .rw else .wr
  | _ => .rw

/-- The list's entries pass R339 and the address check of R335. -/
def bufsOk (s : State) (cn : Nat) : List (BitVec 256) → State × Option (List Buf)
  | [] => (s, some [])
  | e :: r =>
    match bufOf e with
    | none => (s, none)
    | some b =>
      match hubCheck s cn b.addr b.len b.need with
      | (s, .error _) => (s, none)
      | (s, .ok ()) => match bufsOk s cn r with
        | (s, some l) => (s, some (b :: l))
        | (s, none) => (s, none)

/-! ### Headers and shape records -/

/-- The header keeps its ranges (R124 to R126) and the relations of row 6. -/
def headerOk (h : BitVec 512) : Bool :=
  let tag := hdrField h 5 1
  let roles := hdrRoles h
  let lead := roles % 2 = 1
  hdrField h 0 4 = 0x484B5842 && hdrField h 4 1 = 1 && tag ≤ 1 && 1 ≤ hdrField h 6 1 && hdrField h 6 1 ≤ 64 && hdrField h 7 1 ≤ 32 &&
  hdrField h 8 4 ≤ 0x100000 && roles < 128 && hdrPlanes h ≤ 4 && hdrField h 14 1 ≤ 16 && hdrField h 15 1 ≤ 16 &&
  (hdrStage h || hdrField h 15 1 = 0) && (hdrField h 16 8) % 2 = 0 && (hdrField h 16 8) < 2 ^ 61 && hdrField h 24 8 % 16 = 0 &&
  hdrField h 33 3 = 0 && hdrField h 36 4 % 4096 = 0 && hdrField h 36 4 ≤ 2 ^ 30 && hdrField h 48 8 % 16 = 0 && hdrField h 48 8 ≤ 2 ^ 30 &&
  hdrField h 56 1 ≤ 3 && 1 ≤ hdrField h 57 1 && hdrField h 57 1 ≤ 3 && hdrField h 58 6 = 0 &&
  (if tag = 1 then hdrField h 14 1 = 0 && hdrField h 15 1 = 0 && !lead && 1 ≤ hdrPlanes h else 1 ≤ hdrField h 14 1 && lead)

/-- Code kind of the loaded page that holds an address: the segment's of an object (R121). -/
def segKind (o : CodeObj) (a : Word) : Option Bool := (o.segs.find? fun g => (a - g.1).toNat < g.2.1).map (·.2.2)

/-- Kind of the page that maps an address now, where it is executable. -/
def pageKind (s : State) (cn : Nat) (a : Word) : State × Option Bool :=
  match walk s 0 cn a.toNat with
  | (s, .ok l) => (s, if pteEx l.word then some (pteKind l.word) else none)
  | (s, .error f) => ({ s with hubWait := s.hubWait || f = notYet }, none)

/-- HANDLER, where the header has one, lies in a C page of the same code object (row 5). -/
def handlerOk (s : State) (cn : Nat) (o : CodeObj) (at_ : Word) (h : BitVec 512) : State × Bool :=
  if hdrField h 24 8 = 0 then (s, true)
  else if segKind o (hdrHandler at_ h) ≠ some false then (s, false)
  else
    let r := pageKind s cn (hdrHandler at_ h)
    (r.1, r.2 = some false)

/-- The shape record passes R84: its BASE, for every byte of its first element. -/
def shapeOk (r : BitVec 512) : Bool :=
  ((List.range 4).all fun i => hdrField r (4 * i) 4 ≠ 0) && hdrField r 32 1 < 24 && hdrField r 33 3 = 0 && hdrField r 48 16 = 0 &&
  (match checkWindow (BitVec.ofNat 64 (hdrField r 40 8)) ((fmtBits (hdrField r 32 1) + 7) / 8) with | .ok _ => true | .error _ => false)

/-- The record broadcast where neither the packet nor the header names one (R124). -/
def defaultShape : BitVec 512 := BitVec.ofNat 512 (leNat ((List.replicate 8 (natLe 4 1)).flatten ++ List.replicate 32 0))

/-- The shape record of a launch, from the packet, the header or the default (R124); none where it cannot be read. -/
def launchShape (s : State) (cn : Nat) (pkt hdrAt : Word) (h : BitVec 512) : State × Option (BitVec 512) :=
  let off := hdrField h 40 8
  let a := if pkt ≠ 0 then pkt else hdrAt + BitVec.ofNat 64 off
  if pkt = 0 && off = 0 then (s, some defaultShape)
  else if a.toNat % 8 ≠ 0 then (s, none)
  else match hubCheck s cn a 64 .rd with
    | (s, .error _) => (s, none)
    | (s, .ok ()) => match hubReadVa s cn a 64 with
      | (s, .ok bs) => (s, some (BitVec.ofNat 512 (leNat bs)))
      | (s, .error _) => (s, none)

/-- Non-reeve tiles of the allowed dies (row 8: a tile takes one group, whatever a legal header asks). -/
def tilesAllowed (s : State) (dies : BitVec 4) : Nat := ((List.range 512).filter fun t => dies.getLsbD (dieOf t) && !isReeve s t).length

/-! ### The checks (Table 16-2) -/

/-- Rows 4 to 8: the object, the header, its placement entries and the shape record of a launch, or the status of the first row that fails. -/
def launchCheck (s : State) (p : Pkt) : State × Except Nat (CodeObj × List Placement × BitVec 512 × BitVec 512) :=
  let cn := p.ctx
  let at_ := p.w 8
  match (s.ctx cn).objs.findSome? fun o => (List.find? (fun k : Word × List Placement => k.1 = at_) o.kerns).map fun k => (o, k.2) with
  | none => (s, .error sREJECTED)
  | some (o, places) =>
    if (Tbl.find? (s.ctx cn).allots (p.f 28 2)).isNone then (s, .error sREJECTED)
    else if allotStopped s cn (p.f 28 2) then (s, .error sBADSTATE)
    else if at_.toNat % 16 ≠ 0 then (s, .error sREJECTED)
    else match hubReadVa s cn at_ 64 with
      | (s, .error _) => (s, .error sREJECTED)
      | (s, .ok bs) =>
        let h := BitVec.ofNat 512 (leNat bs)
        let kind := pageKind s cn (at_ + 64)
        let good := handlerOk kind.1 cn o at_ h
        let s := good.1
        if !headerOk h || kind.2 ≠ some (hdrGraph h) || !good.2 then (s, .error sREJECTED)
        else match launchShape s cn (p.w 48) at_ h with
          | (s, none) => (s, .error sREJECTED)
          | (s, some r) =>
            if !shapeOk r || tilesAllowed s (BitVec.ofNat 4 (p.f 32 1)) < p.f 30 2 then (s, .error sREJECTED)
            else (s, .ok (o, places, h, r))

/-- Row 2 without the addresses. -/
def launchFieldsOk (p : Pkt) : Bool :=
  1 ≤ p.f 30 2 && p.f 30 2 ≤ 512 && p.f 24 4 ≤ 65536 && 1 ≤ p.f 32 1 && p.f 32 1 < 16 && p.f 36 4 ≤ 64

/-- Argument area that firmware reserves for a kernel in W0, beside what the context has in use, the bytes at ARGS and the kernel's buffers; none where there are
no arguments (R351; log 13). -/
def argAddr (s : State) (p : Pkt) (bufs : List Buf) : Word :=
  if p.f 24 4 = 0 then 0 else
  let taken := (((p.w 16).toNat, p.f 24 4) :: bufs.map fun b => (b.addr.toNat, b.len)) ++ areas s p.ctx
  BitVec.ofNat 64 (pickArea taken (Config.areaAt s.tick 513) (p.f 24 4))

/-- The 64 KiB frames at whose places the pages of `[va, va + n)` lie, for the hub. -/
def framesOf (s : State) (cn va n : Nat) : List Nat :=
  (List.range ((va % 65536 + n + 65535) / 65536)).filterMap fun i =>
    match (translateHub s cn (BitVec.ofNat 64 (va / 65536 * 65536 + 65536 * i)) .any).2 with
    | .ok k => some (k / 65536)
    | .error _ => none

/-- No page of the argument area lies where one of the original bytes does, by another address (R351). -/
def areaApart (s : State) (cn area args n : Nat) : Bool := (framesOf s cn area n).all fun p => !(framesOf s cn args n).contains p

/-- Acceptance (R351): an argument area that the kernel may read and write, apart from the original bytes (log 13), arguments copied, ARGS appended over the copy, the kernel QUEUED, the context RUNNING. -/
def acceptLaunch (s : State) (p : Pkt) (bufs : List Buf) (args : List Byte) (x : CodeObj × List Placement × BitVec 512 × BitVec 512) : State :=
  let cn := p.ctx
  let (kn, s) := s.fresh
  let area := argAddr s p bufs
  match hubCheck s cn area args.length .rw with
  | (s, .error f) => failPkt s p f
  | (s, .ok ()) =>
  if !areaApart s cn area.toNat (p.w 16).toNat args.length then finish s p sNORESOURCE 0 else
  match hubWriteVa s cn area args with
  | (s, .error f) => failPkt s p f
  | (s, .ok ()) =>
    let s := appendEvent s cn 3 args
    let k : Kernel :=
      { st := .queued, ctx := cn, hdrAddr := p.w 8, hdr := x.2.2.1, argAddr := area, argLen := args.length, allot := p.f 28 2, groups := p.f 30 2
        dies := BitVec.ofNat 4 (p.f 32 1), bufs := bufs, shape := x.2.2.2, gp := x.1.gp, places := x.2.1, queue := p.queue, pkt := p.index
        tag := p.f 4 4, notify := p.f 1 1 % 2 = 1, tiles := [], live := [], since := s.dev.hubNs, starve := false, cause := 0
        gbars := Vector.replicate 4 { gen := 0, arrived := [] }, root := none, written := false }
    (s.setKern kn k).modCtx cn fun c => { c with st := .running }

/-- `LAUNCH`. -/
def execLaunch (q : Nat) (s : State) : Outcome State Fault Refusal :=
  .next <| ctxPacket s q (fun p => p.kind = 5) [.measured, .running] [(8, 25), (36, 20)] fun s p =>
    if !launchFieldsOk p then finish s p sBADFIELD 0 else
    match hubCheck s p.ctx (p.w 16) (p.f 24 4) .rd with
    | (s, .error _) => finish s p sBADFIELD 0
    | (s, .ok ()) =>
      match hubCheck s p.ctx (p.w 40) (32 * p.f 36 4) .rd with
      | (s, .error _) => finish s p sBADFIELD 0
      | (s, .ok ()) =>
        match hubReadVa s p.ctx (p.w 40) (32 * p.f 36 4) with
        | (s, .error f) => failPkt s p f
        | (s, .ok bs) =>
          match bufsOk s p.ctx ((List.range (p.f 36 4)).map (bufAt bs)) with
          | (s, none) => finish s p sBADFIELD 0
          | (s, some bufs) =>
            match launchCheck s p with
            | (s, .error st) => finish s p st 0
            | (s, .ok x) =>
              match hubReadVa s p.ctx (p.w 16) (p.f 24 4) with
              | (s, .error f) => failPkt s p f
              | (s, .ok args) => acceptLaunch s p bufs args x

end Sys2Proof.Machine
end

