-- ==== Sys2Proof/Machine/Packets.lean ====
section
/-!
DEFINITION. The other packets of Table 15-4: COPY, RECEIPT (R325, R328), BARRIER and SIGNAL (R336), PREEMPT and restore (R335), GROUPTAB (R337),
PEERTAB (R338), and unknown kinds.
-/
namespace Sys2Proof.Machine
open Sys2Proof
open Host (Outcome)

/-- `COPY`: every byte is read, then written, at system scope. -/
def execCopy (q : Nat) (s : State) : Outcome State Fault Refusal :=
  .next <| ctxPacket s q (fun p => p.kind = 6) [.measured, .running, .faulted] [(8, 24)] fun s p =>
    match hubCheck s p.ctx (p.w 16) (p.f 24 8) .rd with
    | (s, .error _) => finish s p sBADFIELD 0
    | (s, .ok ()) =>
      match hubCheck s p.ctx (p.w 8) (p.f 24 8) .wr with
      | (s, .error _) => finish s p sBADFIELD 0
      | (s, .ok ()) =>
        match hubReadVa s p.ctx (p.w 16) (p.f 24 8) with
        | (s, .error f) => failPkt s p f
        | (s, .ok bs) => match hubWriteVa s p.ctx (p.w 8) bs with
          | (s, .error f) => failPkt s p f
          | (s, .ok ()) => finish s p sOK 0

/-! ### Receipts -/

/-- Fix what a receipt covers: the last event, the chain after it, and the latest RESULT digests, in the order of their numbers (R325). -/
def fixReceipt (s : State) (r : ReceiptReq) : ReceiptReq :=
  let c := s.ctx r.ctx
  { r with seq := c.seq, chain := c.h, digs := c.results.drop (c.results.length - r.n) }

/-- Bytes of a receipt with `n` digest entries (R326). -/
def receiptLen (n : Nat) : Nat := 128 + 48 * n + 3284

/-- `RECEIPT`: taken, or held while the hand-over window is open (R328). -/
def execReceipt (q : Nat) (s : State) : Outcome State Fault Refusal :=
  .next <| ctxPacket s q (fun p => p.kind = 7) [.measured, .running, .faulted] [(8, 9), (24, 8)] fun s p =>
    if 32 < p.f 16 1 then finish s p sBADFIELD 0 else
    match outCheck s p.ctx (p.w 24) (receiptLen (p.f 16 1)) .wr with
    | (s, .error _) => finish s p sBADFIELD 0
    | (s, .ok ()) =>
      let r : ReceiptReq := { queue := q, compl := p.compl sOK 0, ctx := p.ctx, nonce := p.w 8, n := p.f 16 1, out := p.w 24, seq := 0, chain := 0, digs := [] }
      if s.fw.window then { s with fw := { s.fw with held := s.fw.held ++ [r] } }
      else { s with fw := { s.fw with pend := s.fw.pend ++ [fixReceipt s r] } }

/-! ### BARRIER and SIGNAL -/

def liveStates : List CStat := [.created, .measured, .running, .faulted]

/-- `BARRIER`: the queue takes nothing more until every earlier packet has completed. -/
def execBarrier (q : Nat) (s : State) : Outcome State Fault Refusal :=
  .next <| ctxPacket s q (fun p => p.kind = 8) liveStates [] fun s p =>
    settlePends (s.modQueue q fun x =>
      { x with barrier := some (p.index, p.compl sOK 0), st := if x.opened.length = 1 then x.st else .held }) q

/-- `SIGNAL`. -/
def execSignal (q : Nat) (s : State) : Outcome State Fault Refusal :=
  .next <| ctxPacket s q (fun p => p.kind = 9) liveStates [(8, 16)] fun s p =>
    if p.f 8 8 % 8 ≠ 0 then finish s p sBADFIELD 0 else
    match hubCheck s p.ctx (p.w 8) 8 .wr with
    | (s, .error _) => finish s p sBADFIELD 0
    | (s, .ok ()) => match hubWriteVa s p.ctx (p.w 8) (bytesOf 8 (p.w 16)) with
      | (s, .error f) => failPkt s p f
      | (s, .ok ()) => finish s p sOK 0

/-! ### PREEMPT -/

/-- Live groups of the kernels of an allotment's subtree: kernel, rank, tile or eviction area. -/
def subtreeGroups (s : State) (cn i : Nat) : List (Nat × Nat × Nat) :=
  (s.kernels.filter fun kk => kk.2.ctx = cn && (allotPath (s.ctx cn) kk.2.allot).contains i).flatMap fun kk =>
    (kk.2.tiles.zipIdx.filter fun tr => match (s.tile tr.1).group with
      | some g => g.kernel = kk.1 && g.stat = .live
      | none => false).map fun tr => (kk.1, tr.2, tr.1)

/-- A PREEMPT packet: every group of the subtree is asked to move; one that an eviction has left without a tile, or on a die that a stop mark
halts, waits for a dispatcher's restore (R30). -/
def preemptPacket (q : Nat) (restore : Bool) (s : State) : State :=
  let want := fun (p : Pkt) => p.kind = 10 && (p.f 10 1 % 2 = 1) = restore
  ctxPacket s q want [.measured, .running, .faulted] [(8, 3)] fun s p =>
    if 2 ≤ p.f 10 1 || (Tbl.find? (s.ctx p.ctx).allots (p.f 8 2)).isNone then finish s p sBADFIELD 0
    else if (s.ctx p.ctx).st ≠ .running then finish s p sOK 0
    else
      let gs := subtreeGroups s p.ctx (p.f 8 2)
      let ask := fun (s : State) (t : Nat) => if !restore then requestPreempt s t else if runsOn s t p.ctx then requestRestore s t else s
      let s := gs.foldl (fun s g => if 512 ≤ g.2.2 then s else ask s g.2.2) s
      s.modQueue q fun x => { x with pends := x.pends ++ [(.move (gs.map fun g => (g.1, g.2.1)) restore, p.compl sOK 0)] }

/-- `PREEMPT`. -/
def execPreempt (q : Nat) (s : State) : Outcome State Fault Refusal := .next (preemptPacket q false s)
/-- `RESTORE`: a PREEMPT packet with its restore bit. -/
def execRestore (q : Nat) (s : State) : Outcome State Fault Refusal := .next (preemptPacket q true s)

/-! ### Tables of groups and peers -/

/-- A member entry, or none where it is refused (R337). -/
def memberOf (s : State) (b : List Byte) : Option Member :=
  let dev := fileLe b 0 1
  if fileLe b 1 1 ≠ 0 || fileLe b 4 4 ≠ 0 || (dev ≠ 255 && !(s.peer dev).valid) then none else some { dev := dev, ctx := fileLe b 2 2 }
where
  fileLe (bs : List Byte) (off n : Nat) : Nat := leNat ((bs.drop off).take n)

/-- `GROUPTAB`. -/
def execGrouptab (q : Nat) (s : State) : Outcome State Fault Refusal :=
  .next <| ctxPacket s q (fun p => p.kind = 11) [.measured, .running, .faulted] [(8, 6), (16, 8)] fun s p =>
    let g := p.f 8 4
    let n := p.f 12 2
    if n = 0 then finish (s.modCtx p.ctx fun c => { c with groups := Tbl.erase c.groups g }) p sOK 0 else
    match hubCheck s p.ctx (p.w 16) (8 * n) .rd with
    | (s, .error _) => finish s p sBADFIELD 0
    | (s, .ok ()) => match hubReadVa s p.ctx (p.w 16) (8 * n) with
      | (s, .error f) => failPkt s p f
      | (s, .ok bs) =>
        let ms := (List.range n).map fun i => memberOf s ((bs.drop (8 * i)).take 8)
        let full := (Tbl.find? (s.ctx p.ctx).groups g).isNone && 1024 ≤ (s.ctx p.ctx).groups.length
        if ms.any (·.isNone) || full then finish s p sBADFIELD 0
        else finish (s.modCtx p.ctx fun c => { c with groups := Tbl.set c.groups g (ms.filterMap id) }) p sOK 0

/-- `PEERTAB`: of the physical function only. -/
def execPeertab (q : Nat) (s : State) : Outcome State Fault Refusal :=
  .next <| takePacket s q (fun p => p.kind = 12) fun s p =>
    if q / 16 ≠ 0 then finish s p sNOTOWNER 0
    else if p.ctx ≠ 0 || !p.reservedOk [(8, 4), (16, 8)] || 254 < p.f 8 1 || 2 ≤ p.f 9 1 || 4096 ≤ p.f 10 2 then finish s p sBADFIELD 0
    else
      let e : Peer := { valid := p.f 9 1 = 1, links := BitVec.ofNat 12 (p.f 10 2), devser := p.w 16 }
      finish { s with peers := Tbl.set s.peers (p.f 8 1) e } p sOK 0

/-- `BADKIND`. -/
def execBadkind (q : Nat) (s : State) : Outcome State Fault Refusal :=
  .next <| takePacket s q (fun p => p.kind = 0 || 12 < p.kind) fun s p => finish s p sBADKIND 0

end Sys2Proof.Machine
end

