-- ==== Sys2Proof/Machine/Firmware.lean ====
section
/-!
DEFINITION. Bring-up and firmware (chapter 22): the segment store (R424, R425), boot (R423, R426, R427), service levels (R428), the mailbox (R429), live
hand-over (R430), receipt signatures (R326, R327, R431), thermal limits (R30).
-/
namespace Sys2Proof.Machine
open Sys2Proof
open Host (Outcome)

/-! ### The segment store -/

/-- Bytes 0 to 63 of a record as its signature covers them (Table 22-1). -/
def segHead (g : Seg) : List Byte :=
  natLe 4 0x47535842 ++ natLe 1 g.kind ++ natLe 3 0 ++ natLe 8 g.signedGen ++ natLe 8 g.payload.length ++ bytesOf 32 g.digest ++ bytesOf 8 g.arg

/-- DIGEST and signature verify. -/
def segVerifies (g : Seg) : Bool := g.digest = sha256 g.payload && Config.imageSigOk (segHead g ++ g.payload) g.sig

/-- A committed reject names the generation. -/
def rejected (fw : Firm) (gen : Nat) : Bool := fw.segs.any fun g => g.committed && g.kind = 4 && g.arg.toNat = gen

/-- A record of KIND 1 or 2 is a candidate (R425). -/
def qualifies (fw : Firm) (kind : Nat) (g : Seg) : Bool := g.kind = kind && g.committed && !rejected fw g.gen && segVerifies g

def newest (l : List Seg) : Option Seg :=
  l.foldl (fun m g => match m with
    | some x => if x.gen < g.gen then some g else m
    | none => some g) none

/-- What the flash holds has been verified: a record with a payload by its digest and signature, another by its digest. -/
def recordOk (g : Seg) : Bool := if g.kind = 1 || g.kind = 2 then segVerifies g else g.digest = sha256 g.payload

/-- The flash controller may erase a record: two newer ones of its KIND are committed and verified (R424). -/
def mayErase (fw : Firm) (g : Seg) : Bool := 2 ≤ (fw.segs.filter fun x => x.kind = g.kind && x.gen > g.gen && x.committed && recordOk x).length

/-- The store once the flash controller has erased, before an append, the records that it chooses among those (log 25). -/
def tidied (fw : Firm) (tick : Nat) : Firm := { fw with segs := fw.segs.filter fun g => !(mayErase fw g && Config.flashErases tick g.gen) }

/-- The newest image that may boot, among those whose self-check has not failed. -/
def bootImage (fw : Firm) : Option Seg :=
  newest (fw.segs.filter fun g => qualifies fw 1 g && decide (fw.fwmin.toNat ≤ g.arg.toNat) && !fw.failedGens.contains g.gen)

/-- A configuration table: COLUMN, WIDTH and roles, if the payload is one (R426). -/
def tableOf (p : List Byte) : Option (Nat × Nat × List (BitVec 4)) :=
  let b := fun i => fileLe p i 1
  let w := b 6
  let roles := (List.range w).map fun j => b (8 + j)
  let once := (List.range 4).all fun r => ((roles.filter fun x => x / 2 ^ r % 2 = 1).length = 1)
  if p.length = 16 && fileLe p 0 4 = 0x54435842 && b 4 = 1 && b 5 < 16 && 1 ≤ w && w ≤ 4 && b 7 = 0 && roles.all (· < 16) && once &&
    ((List.range 8).all fun j => j < w || b (8 + j) = 0)
  then some (b 5, w, roles.map (BitVec.ofNat 4)) else none

/-- The table in force: the newest that qualifies, else the default. -/
def configTable (fw : Firm) : Nat × Nat × List (BitVec 4) :=
  match newest (fw.segs.filter fun g => qualifies fw 2 g && (tableOf g.payload).isSome) with
  | some g => (tableOf g.payload).getD (15, 4, [1, 2, 4, 8])
  | none => (15, 4, [1, 2, 4, 8])

/-- One more than the newest record of any kind (Table 22-1). -/
def nextGen (fw : Firm) : Nat := (fw.segs.filter (·.committed)).foldl (fun m g => max m g.gen) 0 + 1

/-- Append a committed record without payload: a key reservation or a reject. -/
def appendMark (fw : Firm) (kind : Nat) (arg : Nat) : Firm :=
  let g : Seg := { kind := kind, gen := nextGen fw, signedGen := nextGen fw, arg := BitVec.ofNat 64 arg, payload := [], digest := sha256 []
                   sig := [], commit := Seg.mark }
  { fw with segs := fw.segs ++ [g] }

/-! ### Boot (R423) -/

/-- Take the image that boots now; NOIMAGE where none qualifies. -/
def chooseImage (fw : Firm) : Firm :=
  match bootImage fw with
  | some g => { fw with booted := some g.gen, version := g.arg, meas := sha256 g.payload, fwstat := 0 }
  | none => { fw with booted := none, version := 0, meas := 0, fwstat := 4 }

/-- Firmware's write of FWALL of a tile, which LOCK ignores; its reserved bits stay zero (Table 22-2). -/
def fwallWrite (s : State) (t : Nat) (v : BitVec 9) : State :=
  s.modTile t fun x => if x.fwall.getLsbD 8 then x else { x with fwall := v &&& 0x10F }

/-- The tiles of the reeve column. -/
def reeveTiles (s : State) : List Nat := (List.range s.fw.width).map (s.fw.column * 8 + ·)

/-- Start a reeve tile's work-core context 0 at the entry of an image (R423 step 4). -/
def startFirmware (s : State) (gen t : Nat) : State :=
  s.setThr (threadKey t 0) { Thread.reset with stat := .live, role := .firmware, pc := Config.imageEntry gen }

/-- Steps 3 and 4 of R423, once link H0 is UP and while no image has reported ready: the chosen image is loaded into every reeve tile, the tiles' firewalls are written,
locked, and their work-core contexts 0 start. -/
def bootLoad (s : State) : State :=
  match s.fw.booted with
  | none => s
  | some gen =>
    if (s.link 4).st ≠ .up || s.fw.running || s.fw.bootNs.isSome then s else
    let s := (reeveTiles s).foldl (fun s t =>
      let s := fwallWrite (s.modTile t fun x => { x with image := gen }) t (0x100#9 ||| (Config.fwallBits t).setWidth 9)
      startFirmware s gen t) s
    { s with fw := { s.fw with bootNs := some s.dev.hubNs } }

/-- `LINK_TRAINED`. A link that a warm reset wants quiesced goes on to that; what the retry buffer still holds is replayed (R414). Over link H0 the image is loaded and
started at boot. -/
def execLinkTrained (n : Nat) (lanes : BitVec 8) (rate : BitVec 12) (s : State) : Outcome State Fault Refusal :=
  .next <| bootLoad <| raiseLevel <| s.modLink n fun l =>
    if l.st = .training then ({ l with st := if resetHolds s n then .quiescing else .up, lanes := lanes, rate := rate } : Link).again s.dev.hubNs else l

/-- The image at boot has this many ns of its self-check's 50 ms behind it (R425). -/
def bootAge (s : State) : Nat := match s.fw.bootNs with | some t => s.dev.hubNs - t | none => 0

/-- `COLD_RESET`: what is not in flash or the key store, or outside the device, is lost; every link trains; the ROM selects the table and the image. -/
def execColdReset (s : State) : Outcome State Fault Refusal :=
  .next <|
    let fw := { Firm.reset with segs := s.fw.segs, fwmin := s.fw.fwmin, devser := s.fw.devser }
    let cfg := configTable fw
    let fw := chooseImage { fw with column := cfg.1, width := cfg.2.1, roles := cfg.2.2 }
    let train := fun (l : Link) => { l with st := .training }
    { State.reset with
      fw := fw, links := State.reset.links.map train, mem := s.mem.filter fun c => 2 ^ 64 ≤ c.1
      nextId := s.nextId, tick := s.tick, agenda := s.agenda }

/-- `SELF_CHECK_TIMEOUT`: the image at boot has not completed its self-check within 50 ms; the next candidate boots (R425). -/
def execSelfCheckTimeout (s : State) : Outcome State Fault Refusal :=
  .next <| match s.fw.booted with
  | none => s
  | some g =>
    if s.fw.running || s.fw.bootNs.isNone || bootAge s < 50000000 then s
    else bootLoad { s with fw := chooseImage { s.fw with bootNs := none, failedGens := s.fw.failedGens ++ [g] } }

/-- The newest committed reservation's first index. -/
def newestKeys (fw : Firm) : Option Nat := (newest (fw.segs.filter fun g => g.committed && g.kind = 3)).map (·.arg.toNat)

/-- Reserve the block of one-time indices that starts at `a`; none that would start at 2^30 is made (R431). -/
def reserveKeys (fw : Firm) (a : Nat) : Firm :=
  if 2 ^ 30 ≤ a then { fw with keyNext := 2 ^ 30, keyEnd := 2 ^ 30 } else { appendMark fw 3 a with keyNext := a, keyEnd := a + 1024 }

/-- Service level 1: die 0 at 300 MHz (Table 22-3). -/
def levelOne (s : State) : State := { s with dev := { s.dev with service := 1, dieup := 1 } }

/-- `IMAGE_READY`: the image that the reeve tiles run reports ready, within 50 ms of its start (R423 step 5, R425); the unused rest of the last key block is
skipped. -/
def execImageReady (s : State) : Outcome State Fault Refusal :=
  .next <| if s.fw.booted.isNone || s.fw.running || s.fw.bootNs.isNone || 50000000 < bootAge s then s else
    let fw := reserveKeys (tidied s.fw s.tick) (match newestKeys s.fw with | some a => a + 1024 | none => 0)
    levelOne (writeRanks { s with fw := { fw with running := true } } 0 false)

/-- `DIE_ADMIT`: die 0 at 600 MHz enters level 2; from there a die whose links are UP is admitted. -/
def execDieAdmit (d : Nat) (s : State) : Outcome State Fault Refusal :=
  .next <|
    if !s.fw.running || s.dev.service = 0 || 3 < d || s.dierst.lost.getLsbD d then s
    else if d = 0 then raiseLevel (if s.dev.service = 1 then { s with dev := { s.dev with service := 2 } } else s)
    else if 2 ≤ s.dev.service.toNat && (dieLinks d).all fun n => (s.link n).st = .up then
      raiseLevel (writeRanks { s with dev := { s.dev with dieup := s.dev.dieup ||| (1#4 <<< d) } } d false)
    else s

/-! ### The mailbox (R429) -/

def sBusy : BitVec 8 := 1
def sDone : BitVec 8 := 2
def sBadsig : BitVec 8 := 3
def sNoimage : BitVec 8 := 4
def sRefused : BitVec 8 := 5
def sStorefull : BitVec 8 := 6

def setStat (s : State) (v : BitVec 8) : State := { s with fw := { s.fw with fwstat := v } }

/-- A record image in bytes. -/
def segOf (bs : List Byte) : Option Seg :=
  let n := fileLe bs 16 8
  if fileLe bs 0 4 ≠ 0x47535842 || fileLe bs 5 3 ≠ 0 || bs.length < 64 + n then none else
  some { kind := fileLe bs 4 1, gen := 0, signedGen := fileLe bs 8 8, arg := BitVec.ofNat 64 (fileLe bs 56 8), payload := (bs.drop 64).take n
         digest := BitVec.ofNat 256 (leNat ((bs.drop 24).take 32)), sig := (bs.drop (64 + n)).take 3284, commit := Seg.mark }

/-- A store: the record image is read from host memory, verified, and appended with a fresh GEN; whether it was. -/
def storeSeg (s : State) : State × Bool :=
  if 2 ^ 28 < s.fw.fwlen.toNat then (setStat s sRefused, false) else
  match busRead s (s.fw.fwaddr.toNat % 2 ^ 63) s.fw.fwlen.toNat with
  | (s, .error _) => (setStat s sBadsig, false)
  | (s, .ok bs) =>
  match segOf bs with
  | none => (setStat s sBadsig, false)
  | some g =>
    if g.kind ≠ 1 && g.kind ≠ 2 then (setStat s sRefused, false)
    else if !segVerifies g then (setStat s sBadsig, false)
    else if (g.kind = 1 && g.arg.toNat < s.fw.fwmin.toNat) || (g.kind = 2 && (tableOf g.payload).isNone) then (setStat s sRefused, false)
    else if Config.storeFull s.tick s.fw.fwlen.toNat then (setStat s sStorefull, false)
    else
      let fw := tidied s.fw s.tick
      let gen := nextGen fw
      ({ s with fw := { fw with segs := fw.segs ++ [{ g with gen := gen }], fwgen := gen, fwstat := sDone } }, true)

/-- Change every reeve tile. -/
def modReeve (s : State) (f : Tile → Tile) : State := (reeveTiles s).foldl (fun s t => s.modTile t f) s

/-- Begin a hand-over to the newest committed image: it is measured and loaded into the spare instruction memory of the reeve tiles, and the window opens (R430
step 1). -/
def startHandover (s : State) : State :=
  match newest (s.fw.segs.filter fun g => g.kind = 1 && g.committed) with
  | none => setStat s sNoimage
  | some g => modReeve { s with fw := { s.fw with staged := some g, checked := false, window := true, fwstat := sBusy } } fun x => { x with spare := g.gen }

/-- A command that finds the mailbox busy is refused; the others run. A hand-over needs firmware to hand over from. -/
def mailbox (s : State) (store handover : Bool) : State :=
  if s.fw.fwstat = sBusy then setStat s sRefused
  else
    let r := if store then storeSeg s else (s, true)
    if handover && r.2 then (if r.1.fw.running then startHandover r.1 else setStat r.1 sRefused) else r.1

/-- The host's write of FWCMD; a store that waits for the path to its record stands in the queue. -/
def fwcmdReq (n : Word) : HostReq := .regWrite 0 (.mailbox 16) n
def fwcmd (n : Word) (s : State) : State :=
  match n with
  | 1 => orPosted (fwcmdReq 1) (fun s => mailbox s true false) s
  | 2 => mailbox s false true
  | 3 => orPosted (fwcmdReq 3) (fun s => mailbox s true true) s
  | _ => if s.fw.fwstat = sBusy then setStat s sRefused else s

def execFwcmdStore (s : State) : Outcome State Fault Refusal := .next (inOrder (fwcmdReq 1) (fwcmd 1) s)
def execFwcmdHandover (s : State) : Outcome State Fault Refusal := .next (inOrder (fwcmdReq 2) (fwcmd 2) s)
def execFwcmdStoreHandover (s : State) : Outcome State Fault Refusal := .next (inOrder (fwcmdReq 3) (fwcmd 3) s)

/-! ### Live hand-over (R328, R430) -/

/-- Take the receipt requests that the window held. -/
def takeHeld (s : State) : State :=
  let l := s.fw.held
  let s := { s with fw := { s.fw with held := [] } }
  l.foldl (fun s r =>
    let st := (s.ctx r.ctx).st
    if st = .measured || st = .running || st = .faulted then { s with fw := { s.fw with pend := s.fw.pend ++ [fixReceipt s r] } }
    else complete s r.queue { r.compl with status := sBADSTATE }) s

/-- `SELF_CHECK_COMPLETE`: the staged image passes, or is rejected by a record and the window closes. -/
def execSelfCheckComplete (pass : Bool) (s : State) : Outcome State Fault Refusal :=
  .next <| match s.fw.staged with
  | none => s
  | some g =>
    if pass then { s with fw := { s.fw with checked := true } }
    else takeHeld <| modReeve { s with fw := { appendMark s.fw 4 g.gen with staged := none, checked := false, window := false, fwstat := sRefused } } fun x => { x with spare := 0 }

/-- Content of a HANDOVER event (Table 14-5). -/
def handoverBytes (om : BitVec 256) (ov : Word) (nm : BitVec 256) (nv : Word) : List Byte :=
  bytesOf 32 om ++ bytesOf 8 ov ++ bytesOf 32 nm ++ bytesOf 8 nv

/-- `HANDOVER_COMMIT`: every reeve tile switches to the spare image in one step, and HANDOVER goes into the chain of every measured context. -/
def execHandoverCommit (s : State) : Outcome State Fault Refusal :=
  .next <| heldBack id (fun s => match s.fw.staged with
  | none => s
  | some g =>
    if !s.fw.checked then s else
    let m := sha256 g.payload
    let ev := handoverBytes s.fw.meas s.fw.version m g.arg
    let old := s.ctxs.filter fun kc => kc.2.st = .measured || kc.2.st = .running || kc.2.st = .faulted
    let s := modReeve { s with fw := { s.fw with booted := some g.gen, version := g.arg, meas := m, staged := none, checked := false, window := false, fwstat := sDone } }
      fun x => { x with image := x.spare, spare := 0 }
    takeHeld (old.foldl (fun s kc => appendEvent s kc.1 6 ev) s)) s

/-! ### Receipts (Table 14-6) -/

/-- The body of a receipt signed now. -/
def receiptBody (s : State) (r : ReceiptReq) : List Byte :=
  [0x42, 0x58, 0x52, 0x43] ++ natLe 1 1 ++ natLe 1 r.digs.length ++ natLe 2 r.ctx ++ natLe 8 r.seq ++ bytesOf 32 r.chain ++
  bytesOf 8 s.fw.version ++ bytesOf 32 s.fw.meas ++ natLe 8 s.dev.hubNs ++ bytesOf 8 r.nonce ++ bytesOf 8 s.fw.devser ++ List.replicate 16 0 ++
  r.digs.flatMap fun d => natLe 8 d.1 ++ bytesOf 8 d.2.1 ++ bytesOf 32 d.2.2

/-- `RECEIPT_SIGNED`: the oldest request takes the next one-time index; none starts while the hand-over window is open. -/
def execReceiptSigned (s : State) : Outcome State Fault Refusal :=
  .next <| heldBack id (fun s => match s.fw.pend with
  | [] => s
  | r :: rest =>
    if s.fw.window then s else
    let fw := if s.fw.keyNext < s.fw.keyEnd then s.fw else reserveKeys s.fw s.fw.keyEnd
    let s := { s with fw := { fw with pend := rest } }
    if 2 ^ 30 ≤ fw.keyNext then complete s r.queue { r.compl with status := sKEYSPENT } else
    let s := { s with fw := { s.fw with keyNext := fw.keyNext + 1 } }
    let body := receiptBody s r
    let bs := body ++ hssSignature fw.keyNext body
    match outWrite s r.ctx r.out bs with
    | (s, .error f) => complete s r.queue { r.compl with status := sFAILED, value := BitVec.ofNat 64 f.1.toNat }
    | (s, .ok ()) => complete s r.queue { r.compl with status := sOK, value := BitVec.ofNat 64 bs.length }) s

/-! ### Thermal limits and power (R30, R424) -/

/-- A mark with hysteresis: set at `stop`, cleared below `throttle`. -/
def marked (old : Bool) (t throttle stop : Nat) : Bool := if stop ≤ t then true else if t < throttle then false else old

def bitsFrom (n : Nat) (f : Nat → Bool) : Nat := (List.range n).foldl (fun v i => if f i then v + 2 ^ i else v) 0

/-- Pre-empt every group of the tiles that satisfy `p`. -/
def preemptTiles (s : State) (p : Nat → Bool) : State :=
  ((knownTiles s).filter fun t => t < 512 && p t).foldl requestPreempt s

/-- `THERMAL_SAMPLE`: the hottest sensor of each die, each stack, and the hub, in °C (Table 01-6). -/
def execThermalSample (dies stackTemps : List Nat) (hub : Nat) (s : State) : Outcome State Fault Refusal :=
  .next <|
    let was := fun d => dieHalted s d
    let dev := { s.dev with
      thStopped := BitVec.ofNat 4 (bitsFrom 4 fun d => marked (s.dev.thStopped.getLsbD d) (dies.getD d 0) 100 110)
      thThrottled := BitVec.ofNat 4 (bitsFrom 4 fun d => 100 < dies.getD d 0)
      stackHalf := BitVec.ofNat 16 (bitsFrom 16 fun i => 95 < stackTemps.getD i 0)
      stackStop := BitVec.ofNat 16 (bitsFrom 16 fun i => marked (s.dev.stackStop.getLsbD i) (stackTemps.getD i 0) 95 105)
      hubHalf := 100 < hub, hubStop := marked s.dev.hubStop hub 100 110 }
    let hubWas := s.dev.hubStop
    let s := { s with dev := dev }
    let lower := fun (d : Nat) (h : Headroom) => { h with head := loweredHead s d h.head }
    let s := { s with dev := { s.dev with headroom := s.dev.headroom.mapIdx lower } }
    let s := preemptTiles s fun t => dieHalted s (dieOf t) && !was (dieOf t)
    if dev.hubStop && !hubWas then
      let s := serviceZero (preemptTiles s fun _ => true)
      { s with dev := { s.dev with dieup := 0, events := s.dev.events ++ [(0, 0, 0)] } }
    else if hubWas && !dev.hubStop && s.fw.running then levelOne s
    else s

/-- `THERMAL_TRIP`: a die at 125 °C, a compute die or the hub die (4), removes module power. -/
def execThermalTrip (d : Nat) (s : State) : Outcome State Fault Refusal :=
  .next <| if d < 5 then { s with dev := { s.dev with powered := false } } else s

/-- `POWER_LOSS`: nothing happens until a cold reset; a record counts only once committed, so one that was being written is as if it had not begun. -/
def execPowerLoss (s : State) : Outcome State Fault Refusal := .next { s with dev := { s.dev with powered := false } }

end Sys2Proof.Machine
end

