-- ==== Sys2Proof/Machine/Handles.lean ====
section
/-!
DEFINITION. Handle instructions (R274 to R281), and the events of a thread: fetch traps, fills, store acceptance, error replies, the return of a call across the
encodings, and line poisoning (R17, R90, R94, R96, R152, R421).
-/
namespace Sys2Proof.Machine
open Sys2Proof
open Host (Outcome)

/-! ### Status delivery (R276) -/

/-- The trap that `e.wait.t` adds for a status (R276): none for DONE, GONE and a plain reading. -/
def statusTrap (h st : Word) : Option (BitVec 6 × Word) :=
  if fieldOf st 0 8 = 1 || fieldOf st 0 8 = 2 then
    if fieldOf st 8 8 = cDEP_FAILED.toNat then some (cDEP_FAILED, 0)
    else some (cERRAND_FAILED, BitVec.ofNat 64 (recordAddr (handleTile h) (handleSlot h)))
  else none

/-- What an `e.wait.t` owes its thread once the errand's status has come: a trap at that bundle (R276, log 57). -/
def owe (from_ : Option (Word × Bool)) (h st : Word) : List OwedTrap :=
  match from_, statusTrap h st with
  | some (pc, inh), some (c, a) => [{ cause := c, tepc := pc, addr := a, info := h, inh := inh }]
  | _, _ => []

/-- Fill `D` of the `i`th pending fill of a thread with a status, an acquire at device scope (R310); an `e.wait.t` owes the trap of a status that is not DONE. -/
def fillStatus (s : State) (k i : Nat) (from_ : Option (Word × Bool)) (h st : Word) : State :=
  let t := s.thr k
  match t.fills[i]? with
  | none => s
  | some f =>
    let t := ({ t with fills := t.fills.eraseIdx i }.arrive f.reg (st.setWidth 2048) none).dropTicket f.ticket
    acquireDevice (s.setThr k { t with owed := t.owed ++ owe from_ h st }) (tileOf k)

/-- The errand of a waiting block: once final it is reaped, which makes its status due at every waiter. -/
def statusDue (s : State) (ctx : Nat) (h : Word) : State :=
  match errandOf s ctx h with
  | some x => if x.2.2.st.final then reap s x.1 x.2.1 else s
  | none => shareStatus s ctx h 3

/-- An `e.wait` of a block sends a status that is due, after an acquire at device scope on its tile (R213, R310). -/
def lateStatus (s : State) (tile inst : Nat) (w : LateWait) : State :=
  match (s.inst? inst).bind fun n => (n.ewaits.find? (·.node = w.node)).bind fun x => x.due.map fun st => (x, st) with
  | some (x, st) => sendLate (acquireDevice s tile) inst w.node x.lead st fun n => { n with ewaits := n.ewaits.filter (· ≠ x) }
  | none => s

/-- `e.wait` and `e.wait.t`: `D` is empty until the errand is final; the thread goes on (R437). In a block the status is a token (R213). -/
def execEWait (f : Form) (s : State) : Outcome State Fault Refusal :=
  match f with
  | .c f => .next <| runC 0xA0 f s fun e s =>
    .ok (s.modThr e.k fun t => t.await
      { reg := f.d.toNat, val := 0, pois := none, ticket := e.ticket, err := false
        kind := .errand e.a (if f.md.getLsbD 5 then some (e.pc, t.inh) else none) }) true
  | .g f =>
    let inst := s.curNode.1
    let ix := s.curNode.2
    match (s.inst? inst).bind fun n => (n.ewaits.find? (·.node = ix)).map fun w => (n, w) with
    | some (n, w) => .next <| match s.act? n.act with
      | none => s
      | some a => lateStatus (statusDue s a.ctx w.handle) a.tile inst w
    | none => .next <| runG 0xA0 f s fun e s =>
      .hold (s.modInst e.inst fun n => { n with ewaits := n.ewaits ++ [{ node := e.ix, handle := e.a, lead := e.lead, due := none }] })

/-- `e.test`: the current status. -/
def execETest (f : Form) (s : State) : Outcome State Fault Refusal :=
  match f with
  | .c f => .next <| runC 0xA1 f s fun e s => retX e s (statusOf ((errandOf s e.ctx e.a).map (·.2.2)))
  | .g f => .next <| runG 0xA1 f s fun e s => .send s (statusOf ((errandOf s e.a_.ctx e.a).map (·.2.2)))

/-- `e.cancel` (Table 11-14). -/
def execECancel (f : CForm) (s : State) : Outcome State Fault Refusal :=
  .next <| runC 0xA2 f s fun e s =>
    match errandOf s e.ctx e.a with
    | none => retX e s 3
    | some x => let r := cancelErrand s x.1 x.2.1 0; retX e r.1 r.2

/-- The owner of an errand that a thread of a kernel detaches: the kernel's group on the tile, and once that has ended nobody (R279, R355). -/
def groupOwner (s : State) (kn tile : Nat) : Owner :=
  match (s.tile tile).group with
  | some g => if g.kernel = kn && g.stat = .live then .group kn tile else .orphan kn
  | none => .orphan kn

/-- `e.detach` (R279): from the thread to its group. -/
def execEDetach (f : CForm) (s : State) : Outcome State Fault Refusal :=
  .next <| runC 0xA3 f s fun e s =>
    match errandOf s e.ctx e.a with
    | none => retX e s 3
    | some x =>
      if x.2.2.owner ≠ .thread e.k then retX e s 5
      else retX e (settleAll (s.setErrand x.1 x.2.1 { x.2.2 with owner := groupOwner s (s.thr e.k).kernel e.tile })) 0

/-- `e.adopt` (R279, R379): to the thread and its kernel, with its warnings; its tile and slice stay. -/
def execEAdopt (f : CForm) (s : State) : Outcome State Fault Refusal :=
  .next <| runC 0xA4 f s fun e s =>
    match errandOf s e.ctx e.a with
    | none => retX e s 3
    | some x =>
      let s := s.setErrand x.1 x.2.1 { x.2.2 with owner := .thread e.k, warnTo := some e.k, kernel := (s.thr e.k).kernel, gone := false }
      retX e (settleAll s) 0

/-- `e.prio` (R280): at most the allotment's priority. -/
def execEPrio (f : CForm) (s : State) : Outcome State Fault Refusal :=
  .next <| runC 0xA5 f s fun e s =>
    match errandOf s e.ctx e.a with
    | none => retX e s 3
    | some x => retX e (s.setErrand x.1 x.2.1 { x.2.2 with prio := min (e.b.toNat % 8) (effPrio (s.ctx e.ctx) x.2.2.allot) }) 0

/-- `e.fault` (R281): the W1 address of the fault record. -/
def execEFault (f : CForm) (s : State) : Outcome State Fault Refusal :=
  .next <| runC 0xA6 f s fun e s =>
    match errandOf s e.ctx e.a with
    | none => retX e s 0
    | some x => retX e s (BitVec.ofNat 64 (recordAddr x.1 x.2.1))

/-! ### Events of a thread -/

/-- `FETCH_TRAP`: the fetch at a thread's pc traps in its turn (R90, R364). -/
def execFetchTrap (k : Nat) (s : State) : Outcome State Fault Refusal :=
  .next <|
    let t := s.thr k
    if !t.running || t.wait ≠ .none || 0 < t.hold || !runsOn s (tileOf k) t.ctx || t.role = .firmware ||
      (match (s.tile (tileOf k)).group with | some g => g.resid ≠ .resident | none => false) then s else
    match fetchC (toSlot s k) (tileOf k) t.ctx t.pc with
    | (s, .trap c a i) => takeFetchTrap s k c a i
    | _ => s

/-- `LONG_LATENCY_FILL` (R94): the `i`th pending fill of a thread arrives, if what it waits for has happened. -/
def execLongLatencyFill (k i : Nat) (s : State) : Outcome State Fault Refusal :=
  .next <|
    let t := s.thr k
    match t.fills[i]? with
    | none => s
    | some f =>
      let done := fun (s : State) (v : Vec) (p : Option PoisonInfo) =>
        s.modThr k fun t => ({ t with fills := t.fills.eraseIdx i }.arrive f.reg v p).dropTicket f.ticket
      if f.err then s else
      match f.kind with
      | .value => done s f.val f.pois
      | .call _ => s
      | .errand h w =>
        match errandOf s t.ctx h with
        | none => fillStatus s k i w h 3
        | some x =>
          if !x.2.2.st.final then s else
          let st := statusOf (some x.2.2)
          let s := fillStatus s k i w h st
          if (owe w h st).isEmpty then reap s x.1 x.2.1 else s
      | .reap n =>
        let u := s.thr n
        if u.stat = .ended then done ((s.setThr n { u with stat := .free })) ((u.xr 10).setWidth 2048) none else s
      | .status h st w => fillStatus s k i w h st

/-- `STORE_ACCEPT` (R96): the L1, vault port or bank accepts the `i`th outstanding store. -/
def execStoreAccept (k i : Nat) (s : State) : Outcome State Fault Refusal :=
  .next <|
    let t := s.thr k
    match t.stores[i]? with
    | none => s
    | some w => if w.err.isSome then s else s.setThr k ({ t with stores := t.stores.eraseIdx i }.dropTicket w.ticket)

/-- `ERROR_REPLY` (R421): a load's destination is filled and poisoned with `LINK_ERR`; a store's error is deferred (R249). -/
def execErrorReply (k : Nat) (store : Bool) (i : Nat) (s : State) : Outcome State Fault Refusal :=
  .next <|
    let t := s.thr k
    if store then
      match t.stores[i]? with
      | none => s
      | some w => match w.err with
        | none => s
        | some a =>
          let d : Deferred := { cause := cLINK_ERR, addr := a, info := 0x4000000000000000#64 }
          s.setThr k ({ t with stores := t.stores.eraseIdx i, deferred := t.deferred ++ [d] }.dropTicket w.ticket)
    else
      match t.fills[i]? with
      | none => s
      | some f => if !f.err then s else s.setThr k (({ t with fills := t.fills.eraseIdx i }.arrive f.reg f.val f.pois).dropTicket f.ticket)

/-- `CROSS_CALL_RETURN` (R152): DONE of the frame is set and the caller's `a0` fills with RETV. -/
def execCrossCallReturn (k : Nat) (s : State) : Outcome State Fault Refusal :=
  .next <|
    let t := s.thr k
    if !t.running || (t.wait ≠ .call && t.hwait ≠ .call) then s else
    match t.fills.findIdx? fun f => match f.kind with | .call _ => true | _ => false with
    | none => s
    | some i => match t.fills[i]? with
      | none => s
      | some f => match f.kind with
        | .call fa =>
          match frameDone s { tile := tileOf k, ctx := t.ctx } fa with
          | (s, none) => s
          | (s, some v) => s.modThr k fun t =>
            { (({ t with fills := t.fills.eraseIdx i }.arrive 10 (v.setWidth 2048) none).dropTicket f.ticket) with
              wait := if t.wait = .call then .none else t.wait, hwait := if t.hwait = .call then .none else t.hwait }
        | _ => s

/-- `LINE_POISONING` (R17): an uncorrectable error marks an HBM line poisoned, with an empty written-byte mask, and counts. A second error on a line that is
already poisoned begins the mask anew, which the spec leaves open (log 94). -/
def execLinePoisoning (line : Nat) (s : State) : Outcome State Fault Refusal :=
  .next <|
    if line % 128 ≠ 0 || !hbmInstalled line 128 then s else
    { s with poison := Tbl.set s.poison line 0, hbmUnc := Tbl.upd s.hbmUnc 0 (channelOf line) (· + 1) }

/-- `CORRECTED_ERROR` (R17): a pseudo-channel's counter. -/
def execCorrectedError (channel : Nat) (s : State) : Outcome State Fault Refusal :=
  .next <| if channel < 1024 then { s with hbmCorr := Tbl.upd s.hbmCorr 0 channel (· + 1) } else s

end Sys2Proof.Machine
end

