-- ==== Sys2Proof/Machine/Host.lean ====
section
/-!
DEFINITION. What the host does through its windows: queue registers (R330 to R332, R340, R455), `PW0` registers (R416), translation registers (R403), `PW2` accesses
(R417), and a function-level reset (R341). A request arrives over link 20 and takes its turn among those of the host (R304, R411; log 116).
-/
namespace Sys2Proof.Machine
open Sys2Proof
open Host (Outcome)

/-! ### Queue registers (Tables 15-1 to 15-3) -/

/-- `PW4` takes writes: service level 1 has been entered since the cold reset (R333). -/
def pw4Open (s : State) (q : Nat) : Bool := s.fw.running && q < 1024

/-- The effect of a QCFG write (R331). -/
def Queue.writeCfg (x : Queue) (v : Word) : Queue :=
  let vec := v.extractLsb' 16 8
  let on := v.getLsbD 8
  if x.st = .draining then { x with vec := vec, cfgerr := x.cfgerr || on }
  else if x.en then
    if on then { x with vec := vec } else ({ x with vec := vec, en := false, st := .draining } : Queue).after
  else
    let y := { x with vec := vec, loc := v.getLsbD 9, logn := v.extractLsb' 0 5 }
    if !on then y
    else if 4 ≤ y.logn.toNat && y.logn.toNat ≤ 16 && y.qbase.toNat % 128 = 0 && y.cbase.toNat % 32 = 0 then
      { y with en := true, st := .idle, qhead := 0, qtail := 0, ctail := 0, chead := 0 }
    else { y with cfgerr := true }

/-- A doorbell (R332). -/
def Queue.writeTail (x : Queue) (t : BitVec 32) : Queue :=
  let n := 2 ^ x.logn.toNat
  if x.en && decide ((t - x.qhead).toNat ≤ n) && decide ((t - x.qtail).toNat ≤ n) then
    { x with qtail := t, st := if x.st = .idle && t ≠ x.qhead then .busy else x.st }
  else { x with dberr := true }

/-- A CHEAD write; one beyond CTAIL is ignored (R340). -/
def Queue.writeHead (x : Queue) (h : BitVec 32) : Queue :=
  if (x.ctail - x.chead).toNat < (h - x.chead).toNat then { x with dberr := true } else ({ x with chead := h } : Queue).after

/-- A QSTAT write: bits written 1 are cleared (Table 15-3). -/
def Queue.writeStat (x : Queue) (v : Word) : Queue :=
  { x with ringerr := x.ringerr && !v.getLsbD 3, dberr := x.dberr && !v.getLsbD 2, cfgerr := x.cfgerr && !v.getLsbD 1 }

def onQueue (s : State) (q : Nat) (f : Queue → Queue) : State := if pw4Open s q then s.modQueue q f else s

/-- A write at a queue's offset. -/
def pw4Write (s : State) (q off : Nat) (v : Word) : State :=
  onQueue s q fun x =>
    let free := !x.en && x.st ≠ .draining
    match off with
    | 0x00 => if free then { x with qbase := v } else x
    | 0x08 => x.writeCfg v
    | 0x10 => x.writeTail (v.setWidth 32)
    | 0x20 => if free then { x with cbase := v } else x
    | 0x30 => x.writeHead (v.setWidth 32)
    | 0x38 => x.writeStat v
    | _ => x

/-! ### `PW0` registers (Table 21-4) -/

/-- Active power limit as stored: clamped to 1,200 to 2,800 W and rounded down to a step of 50 W (R29). -/
def clampLimit (w : Nat) : Nat := min 2800 (max 1200 w) / 50 * 50

/-- A write of PLIMIT, in force from the next headroom period. -/
def limitWrite (s : State) (v : Word) : State := { s with dev := { s.dev with plimit := clampLimit (fieldOf v 0 16) } }

/-- A write of LMAX: clamped to 1 to 256 µs. -/
def lmaxWrite (s : State) (cn : Nat) (v : Word) : State :=
  if cn < 4096 then s.modCtx cn fun c => { c with lmax := min 256 (max 1 v.toNat) } else s

/-- The largest lease, in µs, among the context's unexpired entries. -/
def longestLease (s : State) (cn : Nat) : Nat :=
  let es := s.tiles.flatMap (fun kt => kt.2.tlb) ++ s.walkCache.map (·.2)
  (es.filter fun e => e.ctx = cn && e.live s.dev.hubNs).foldl (fun m e => max m e.lease) 0

/-- The page tables, read at their places, no longer map the object that a face bit was made for. An entry that is out of reach at this moment tells nothing. -/
def unmapped (s : State) (f : Nat × Face) : Bool :=
  match (walk { s with walkCache := [] } 0 f.2.ctx f.2.va).2 with
  | .ok l => !pteTwin l.word || twinObj l.word (f.2.va % 2 ^ l.bits) ≠ f.1
  | .error e => e = notPresent || e = badEntry

/-- The face bits whose objects the page tables have unmapped are marked in the step after that change (R405). -/
def facesNow (s : State) : State := { s with faces := s.faces.map fun f => if unmapped s f then (f.1, { f.2 with gone := true }) else f }

/-- A write of MAPSEQ: the value, with its time, the longest lease that lives and the objects unmapped so far, and a replay of every stalled errand of the
context (R387, R403, R405). -/
def mapseqWrite (s : State) (cn : Nat) (v : Word) : State :=
  if 4096 ≤ cn then s else
    let gone := ((facesNow s).faces.filter fun f => f.2.ctx = cn && f.2.gone).map (·.1)
    let s := s.modCtx cn fun c =>
      { c with mapseq := v, mapq := c.mapq ++ [{ value := v, ns := s.dev.hubNs, lease := longestLease s cn, gone := gone }] }
    let again := (allErrands s).filter fun x => x.2.2.ctx = cn && x.2.2.stalled.isSome
    { s with agenda := s.agenda ++ again.map fun x => .event (.fetchReplay x.1 x.2.1) }

/-- A translation register of a context by its offset: 0 LMAX, 8 MAPSEQ. -/
def transWrite (s : State) (cn off : Nat) (v : Word) : State :=
  match off with
  | 0 => lmaxWrite s cn v
  | 8 => mapseqWrite s cn v
  | _ => s

/-- The hub time at which MAPDONE may take a MAPSEQ value: the longest lease of its write and 1 µs are over (R403). -/
def MapReq.due (r : MapReq) : Nat := r.ns + 1000 * r.lease + 1000

/-- The wait reads a counter of W0 where a translation made before a hub time leads. -/
def oldWait (w : Wait) (due : Nat) : Bool :=
  match w with
  | .ctr ea _ _ (some _) ns => windowOf ea.toNat = some .w0 && decide (ns < due)
  | _ => false

/-- An access of the context that may have been translated under an entry read before a MAPSEQ write is still to be performed at its place: a walk that runs, a
store that an instance buffers, a counter that a thread waits on where the translation of its last turn led, an errand that holds a twin object, or bytes of a
software-managed region that an L1 has not written back (R285, R403). -/
def underOld (s : State) (cn : Nat) (r : MapReq) : Bool :=
  s.walks.any (fun w => w.ctx = cn && w.res.isNone) ||
  s.threads.any (fun kt => kt.2.ctx = cn && kt.2.running && (oldWait kt.2.wait r.due || oldWait kt.2.hwait r.due)) ||
  s.insts.any (fun n => ((s.act? n.2.act).any fun a => a.ctx = cn) && n.2.stores.any fun g => g.ns < r.due) ||
  (allErrands s).any (fun x => x.2.2.ctx = cn && !x.2.2.st.final && x.2.2.twin.isSome && decide (x.2.2.twinNs < r.due)) ||
  s.tiles.any fun kt => kt.2.l1.any fun l => l.2.dirty ≠ 0 && regionStat s l.1 = .soft

/-- `MAPDONE_ADVANCE`: MAPDONE takes the oldest MAPSEQ value that it has not taken, once the leases that could have held the old entries are over and every
access translated under them has been performed (R403, R409). The face bits of the objects that this covers are freed (R405). -/
def execMapdoneAdvance (cn : Nat) (s : State) : Outcome State Fault Refusal :=
  .next <| match (s.ctx cn).mapq with
  | [] => s
  | r :: rest =>
    if s.dev.hubNs < r.due || underOld s cn r then s else
    let s := s.modCtx cn fun c => { c with mapdone := r.value, mapq := rest }
    { s with faces := s.faces.filter fun f => !r.gone.contains f.1 }

/-- What a host read of a function returns. -/
def reply (s : State) (f : Nat) (v : Word) : State := s.modFunc f fun x => { x with reply := x.reply ++ [some (bytesOf 8 v)] }

/-- A read of LERR: the counters, which it clears (Table 21-6). -/
def readLerr (s : State) (n : Nat) : State × Word :=
  let l := s.link n
  (s.modLink n fun l => { l with retrain := 0, replay := 0, crcErr := 0 }, l.retrain ++ (l.replay ++ l.crcErr))

/-- A read of PW2ERR: the count of failed `PW2` accesses, which it clears (R417). -/
def readPw2err (s : State) (f : Nat) : State × Word :=
  (s.modFunc f fun x => { x with pw2err := 0 }, (s.func f).pw2err.setWidth 64)

/-- A function's aperture registers. -/
def writePw2 (s : State) (f : Nat) (base : Bool) (v : Word) : State :=
  s.modFunc f fun x => if base then { x with pw2base := v &&& ~~~0xFFFF#64 } else { x with pw2ctx := v.setWidth 12 }

/-! ### `PW2` accesses (R417) -/

/-- One failed access is counted, saturating. -/
def countPw2 (s : State) (f : Nat) : State :=
  s.modFunc f fun x => { x with pw2err := if x.pw2err = BitVec.allOnes 32 then x.pw2err else x.pw2err + 1 }

/-- The access lies in the 256 GiB window of an existing function. -/
def pw2In (f off n : Nat) : Bool := f < 64 && off + n ≤ 2 ^ 38

/-- Bytes, or Completer Abort, go back to the host. -/
def pw2Reply (s : State) (f : Nat) (r : Option (List Byte)) : State := s.modFunc f fun x => { x with reply := x.reply ++ [r] }

/-- The bytes of a read go back to the host, or Completer Abort: a failure to translate is counted, and what comes of the bytes themselves, out of reach or
poisoned, is not; at service level 0 `PW2` is not served (Table 22-3; log 90). A page that another device owns moves here first (R302, R304). -/
def pw2ReadNow (f off n : Nat) (s : State) : State :=
  if !pw2In f off n then s
  else if s.dev.service = 0 then pw2Reply s f none
  else orPosted (.pw2Read f off n) (fun s =>
    match pw2Check s f off n .rd with
    | (s, .error _) => pw2Reply (countPw2 s f) f none
    | (s, .ok ()) => match pw2Read s f off n with
      | (s, .ok bs) => pw2Reply s f (some bs)
      | (s, .error _) => pw2Reply s f none) s

/-- A write at its place, which a failure drops whole. -/
def pw2WriteNow (f off : Nat) (bs : List Byte) (s : State) : State :=
  if !pw2In f off bs.length || s.dev.service = 0 then s
  else orPosted (.pw2Write f off bs) (fun s =>
    match pw2Check s f off bs.length .wr with
    | (s, .error _) => countPw2 s f
    | (s, .ok ()) => (pw2Write s f off bs).1) s

/-- The host writes its own memory, which the device does not snoop: copies in L1s and L2 slices stay as they are (R304). -/
def hostStores (s : State) (a : Nat) (bs : List Byte) : State :=
  if a + bs.length ≤ 2 ^ 64 then { s with mem := Memory.writeN s.mem (hostPlace a) bs } else s

/-! ### Function-level reset -/

/-- What would complete in a queue of the function, of kernels and of receipt requests, has no queue any more. -/
def dropQueues (s : State) (f : Nat) : State :=
  let home := fun (q : Nat) => if q / 16 = f then noQueue else q
  let req := fun (r : ReceiptReq) => { r with queue := home r.queue }
  { s with queues := s.queues.filter fun kq => kq.1 / 16 ≠ f
           kernels := s.kernels.map fun kk => (kk.1, { kk.2 with queue := home kk.2.queue })
           fw := { s.fw with pend := s.fw.pend.map req, held := s.fw.held.map req } }

/-- `FUNCTION_LEVEL_RESET`: the queues are disabled, and the contexts go to TEARDOWN (R314, R341). -/
def execFunctionLevelReset (f : Nat) (s : State) : Outcome State Fault Refusal :=
  .next <|
    let s := dropQueues s f
    let live := fun (kc : Nat × Ctx) => kc.2.owner = f && kc.2.st ≠ .free && kc.2.st ≠ .teardown && 0 < kc.1
    (s.ctxs.filter live).foldl (fun s kc => beginTeardown s kc.1) s

end Sys2Proof.Machine
end

