-- ==== Sys2Proof/Machine/Pages.lean ====
section
/-!
DEFINITION. Page walks that a prefetch has started, leases, and evictions (R285, R401, R402).
-/
namespace Sys2Proof.Machine
open Sys2Proof
open Host (Outcome)

/-- The walk at index `i` runs: it has not ended, and fewer than 64 of its die are before it (R401). -/
def running? (s : State) (i : Nat) : Option Walk :=
  match s.walks[i]? with
  | none => none
  | some w => if w.res.isNone && (dieWalks { s with walks := s.walks.take i } w.die).length < 64 then some w else none

/-- A successful walk's leaf goes to every tile that joined it, and brings in the lines that they prefetch (R148, R401); lines still to come stay. -/
def walkDone (s : State) (i : Nat) (w : Walk) (l : Leaf) : State :=
  let s := { s with walks := s.walks.eraseIdx i }
  let s := (w.tiles ++ w.waiting.map (·.1)).foldl (fun s t => tlbInstall s t (l.entry w.ctx w.va.toNat)) s
  if !grants l.word .rd then s else
  let r := bringLines s w.ctx l.word l.bits w.lines
  if r.2.isEmpty then r.1 else { r.1 with walks := r.1.walks ++ [{ w with tiles := [], waiting := [], lines := r.2 }] }

/-- A failed walk installs nothing; its failure goes to every access that waits for it (R401), and its prefetches end. -/
def walkFailed (s : State) (i : Nat) (w : Walk) (f : Fail) : State :=
  { s with walks := if w.waiting.isEmpty then s.walks.eraseIdx i
      else s.walks.mapIdx fun j x => if j = i then { w with tiles := [], lines := [], res := some f } else x }

/-- `WALK_COMPLETE`: a running walk ends, if its entries can be read. -/
def execWalkComplete (i : Nat) (s : State) : Outcome State Fault Refusal :=
  .next <| match running? s i with
  | none => s
  | some w =>
    match walk s w.die w.ctx w.va.toNat with
    | (s, .error f) => if f = notYet then s else walkFailed s i w f
    | (s, .ok l) => walkDone s i w l

/-- `WALK_INSTALL_TIMEOUT`: what the walk read is discarded, and it walks again. -/
def execWalkInstallTimeout (i : Nat) (s : State) : Outcome State Fault Refusal :=
  .next <| match running? s i with
  | none => s
  | some w => (walk s w.die w.ctx w.va.toNat).1

/-- The list without its entry `i`, if that one's lease has ended. -/
def dropExpired (now : Nat) (l : List TlbEntry) (i : Nat) : List TlbEntry :=
  match l[i]? with
  | some e => if e.live now then l else l.eraseIdx i
  | none => l

/-- `LEASE_EXPIRY`: of an entry of a tile's TLB (units 0 to 511), or of the walk caches (any other unit). -/
def execLeaseExpiry (unit i : Nat) (s : State) : Outcome State Fault Refusal :=
  .next <|
    if unit < 512 then s.modTile unit fun t => { t with tlb := dropExpired s.dev.hubNs t.tlb i }
    else match s.walkCache[i]? with
      | some e => if e.2.live s.dev.hubNs then s else { s with walkCache := s.walkCache.eraseIdx i }
      | none => s

/-- `LINE_EVICTION`: from a tile's L1 (0 to 511), the lazy write-back of a dirty scratchpad line that backs a line (R73; the number 512), or of a host line's
copy in an L2 slice (any other number). Dirty bytes leave only over links that are UP (R15, R411). -/
def execLineEviction (tile ln : Nat) (s : State) : Outcome State Fault Refusal :=
  .next <|
    if tile = 512 then
      match Tbl.find? s.mapped ln with
      | some sk =>
        if spIsDirty s sk && (route s (dieOf (placeTile sk)) (homeDie ln)).isSome then spLineBack s (placeTile sk) (sk % 2 ^ 20 / 128) ln else s
      | none => s
    else if 512 < tile then { s with l2 := Tbl.erase s.l2 ln }
    else match l1? s tile ln with
      | some l => if mayLeave s tile (ln, l) then evictLine s tile ln else s
      | none => s

end Sys2Proof.Machine
end

