-- ==== Sys2Proof/Machine/Registers.lean ====
section
/-!
DEFINITION. The host's accesses to registers (R8), of 8 bytes each; one of another size is dropped and reads zero (R416): at an offset of `PW0` (Table 21-4), `PW4` (Table 15-1) or the mailbox (R429). Where a register
has an event of its own, a write does what that event does; an unlisted or read-only offset drops it, and reads zero where it is unlisted or write-only.
Reserved bits read zero.
-/
namespace Sys2Proof.Machine
open Sys2Proof
open Host (Outcome)

/-- `PW0` of the physical function. -/
def pfWrite (s : State) (off : Nat) (v : Word) : State :=
  if off = 0x100 then limitWrite s v
  else if off = 0x200 then dierstWrite s v
  else if 0x10000 ≤ off && off < 0x10000 + 0x40 * 21 then
    if off % 0x40 = 8 then linkControl s ((off - 0x10000) / 0x40) (fieldOf v 0 2) else s
  else if 0x200000 ≤ off && off < 0x200000 + 0x20 * 64 then
    let f := (off - 0x200000) / 0x20
    if off % 0x20 = 0 then writePw2 s f false v else if off % 0x20 = 8 then writePw2 s f true v else s
  else if 0x1000000 ≤ off && off < 0x1000000 + 0x20 * 4096 then transWrite s ((off - 0x1000000) / 0x20) (off % 0x20) v
  else s

/-- The one context of a virtual function. -/
def vfContext (s : State) (f : Nat) : Option Nat :=
  (List.find? (fun kc : Nat × Ctx => kc.2.owner = f && kc.2.st ≠ .free) s.ctxs).map (·.1)

/-- `PW0` of a virtual function (R416). -/
def vfWrite (s : State) (f off : Nat) (v : Word) : State :=
  if off = 0x100 || off = 0x108 then (match vfContext s f with | some c => transWrite s c (off - 0x100) v | none => s)
  else if off = 0x200 then writePw2 s f false v
  else if off = 0x208 then writePw2 s f true v
  else s

/-- The firmware mailbox (R429). -/
def mailboxWrite (s : State) (off : Nat) (v : Word) : State :=
  match off with
  | 0 => { s with fw := { s.fw with fwaddr := v } }
  | 8 => { s with fw := { s.fw with fwlen := v } }
  | 16 => fwcmd v s
  | _ => s

/-- A write of 8 bytes to a function's `PW0`. -/
def pw0Write (s : State) (f off : Nat) (v : Word) : State :=
  if s.dev.service = 0 then s else if f = 0 then pfWrite s off v else vfWrite s f off v

/-- A write of a register by a function: at service level 0 only the mailbox answers, and `PW4` once level 1 has been entered (Table 22-3, R333). -/
def registerWrite (s : State) (f : Nat) (r : HostReg) (v : Word) : State :=
  if 64 ≤ f then s else
  match r with
  | .mailbox off => if f = 0 then mailboxWrite s off v else s
  | .pw4 off => if off / 0x10000 = f then pw4Write s (off / 0x1000) (off % 0x1000) v else s
  | .pw0 off => pw0Write s f off v
  | .sized off n => if n = 8 then pw0Write s f off v else s
  | .dvsec _ => s

/-! ### Reads (R8) -/

/-- A queue's register as the host reads it (Tables 15-1 to 15-3). -/
def Queue.read (x : Queue) (off : Nat) : Word :=
  let bit := fun (b : Bool) (n : Nat) => if b then 2 ^ n else 0
  match off with
  | 0x00 => x.qbase
  | 0x08 => BitVec.ofNat 64 (x.vec.toNat * 2 ^ 16 + bit x.loc 9 + bit x.en 8 + x.logn.toNat)
  | 0x18 => x.qhead.setWidth 64
  | 0x20 => x.cbase
  | 0x28 => x.ctail.setWidth 64
  | 0x30 => x.chead.setWidth 64
  | 0x38 => BitVec.ofNat 64 (bit x.ringerr 3 + bit x.dberr 2 + bit x.cfgerr 1 + bit (!x.opened.isEmpty) 0)
  | _ => 0

/-- STATE of LSTAT, and the register (Table 21-5). -/
def LStat.code : LStat → Nat
  | .down => 0 | .training => 1 | .up => 2 | .quiescing => 3 | .quiesced => 4 | .retraining => 5 | .failed => 6
def Link.lstat (l : Link) : Word := 0#32 ++ (l.trainFail ++ (l.lanes ++ (l.rate ++ BitVec.ofNat 4 l.st.code)))

/-- A translation register of a context (R403). -/
def transRead (s : State) (cn off : Nat) : Word :=
  match off with
  | 0 => BitVec.ofNat 64 (s.ctx cn).lmax
  | 8 => (s.ctx cn).mapseq
  | 16 => (s.ctx cn).mapdone
  | _ => 0

/-- An aperture register of a function. -/
def apertureRead (s : State) (f off : Nat) : State × Word :=
  match off with
  | 0 => (s, (s.func f).pw2ctx.setWidth 64)
  | 8 => (s, (s.func f).pw2base)
  | 16 => readPw2err s f
  | _ => (s, 0)

/-- A link's register. -/
def linkRead (s : State) (n off : Nat) : State × Word :=
  match off with
  | 0 => (s, (s.link n).lstat)
  | 8 => (s, (s.link n).lctl.setWidth 64)
  | 16 => readLerr s n
  | _ => (s, 0)

/-- `PW0` of the physical function, beyond `SR.DEVID`. DIERST.GO is write-only (Table 21-7). -/
def pfRead (s : State) (off : Nat) : State × Word :=
  if off = 0x100 then (s, BitVec.ofNat 64 s.dev.plimit)
  else if off = 0x200 then (s, BitVec.ofNat 64 (s.dierst.stat.toNat * 2 ^ 8 + s.dierst.sel.toNat * 2 ^ 4))
  else if 0x10000 ≤ off && off < 0x10000 + 0x40 * 21 then linkRead s ((off - 0x10000) / 0x40) (off % 0x40)
  else if 0x100000 ≤ off && off < 0x104000 then
    if off % 8 = 0 && off % 0x1000 < 512 then
      (s, (getV (getV s.dev.frame (Vector.replicate 64 0) ((off - 0x100000) / 0x1000)) 0 (off % 0x1000 / 8)).setWidth 64)
    else (s, 0)
  else if 0x200000 ≤ off && off < 0x200000 + 0x20 * 64 then apertureRead s ((off - 0x200000) / 0x20) (off % 0x20)
  else if 0x1000000 ≤ off && off < 0x1000000 + 0x20 * 4096 then (s, transRead s ((off - 0x1000000) / 0x20) (off % 0x20))
  else (s, 0)

/-- `PW0` of a virtual function, beyond `SR.DEVID` (R416). -/
def vfRead (s : State) (f off : Nat) : State × Word :=
  if 0x100 ≤ off && off < 0x118 then (s, match vfContext s f with | some c => transRead s c (off - 0x100) | none => 0)
  else if 0x200 ≤ off && off < 0x218 then apertureRead s f (off - 0x200)
  else (s, 0)

/-- The firmware mailbox; FWSTAT shows the GEN of the last stored record. -/
def mailboxRead (s : State) (off : Nat) : Word :=
  match off with
  | 0 => s.fw.fwaddr
  | 8 => s.fw.fwlen
  | 24 => BitVec.ofNat 64 (s.fw.fwgen * 2 ^ 8 + s.fw.fwstat.toNat)
  | _ => 0

/-- A word of the physical function's DVSEC header: the capability's ID, as PCI Express numbers it (log 25), Caerrek's vendor ID, and DVSEC ID 1 (R429). -/
def dvsecRead (off : Nat) : BitVec 32 :=
  match off with
  | 0 => Config.dvsecRest 0 ++ 0x0023#16
  | 4 => Config.dvsecRest 4 ++ Config.vendorId
  | 8 => Config.dvsecRest 8 ++ 0x0001#16
  | _ => 0

/-- A read of 8 bytes of a function's `PW0`. -/
def pw0Read (s : State) (f off : Nat) : State × Word :=
  if off = 0 then (s, devId s)
  else if s.dev.service = 0 then (s, 0)
  else if f = 0 then pfRead s off else vfRead s f off

/-- A host read of a register: `SR.DEVID` at every level (R31, R428), the rest of `PW0` above level 0, `PW4` once level 1 has been entered (R333), and of
`PW4` only the function's own 64 KiB (R330). -/
def regRead (s : State) (f : Nat) (r : HostReg) : State × Word :=
  match r with
  | .mailbox off => (s, if f = 0 then mailboxRead s off else 0)
  | .pw4 off => (s, if off / 0x10000 = f && pw4Open s (off / 0x1000) then (s.queue (off / 0x1000)).read (off % 0x1000) else 0)
  | .pw0 off => pw0Read s f off
  | .sized off n => if n = 8 then pw0Read s f off else (s, 0)
  | .dvsec off => (s, if f = 0 then (dvsecRead off).setWidth 64 else 0)

/-- A host read of a register by a function: the value goes back to the host. -/
def readRegister (s : State) (f : Nat) (r : HostReg) : State :=
  if 64 ≤ f then s else
  let x := regRead s f r
  reply x.1 f x.2

/-! ### Requests of the host (R304) -/

/-- What a request of the host does. -/
def hostPerform (r : HostReq) (s : State) : State :=
  match r with
  | .pw2Write f off bs => pw2WriteNow f off bs s
  | .pw2Read f off n => pw2ReadNow f off n s
  | .regWrite f r v => registerWrite s f r v
  | .regRead f r => readRegister s f r

/-- The oldest of the waiting requests is tried again; the others keep their order. -/
def postedNow (s : State) : State :=
  match s.posted with
  | [] => s
  | r :: rest =>
    let t := hostPerform r { s with posted := [] }
    { t with posted := t.posted ++ rest }

/-- A request of the host. -/
def fromHost (r : HostReq) (s : State) : State := inOrder r (hostPerform r) s

/-- The move of the host that reads a register. -/
def hostReads (s : State) (f : Nat) (r : HostReg) : State := fromHost (.regRead f r) s

/-- `REGISTER_WRITE`. -/
def execRegisterWrite (f : Nat) (r : HostReg) (v : Word) (s : State) : Outcome State Fault Refusal := .next (fromHost (.regWrite f r v) s)

/-- `HOST_PW2_READ`. -/
def execHostPw2Read (f off n : Nat) (s : State) : Outcome State Fault Refusal := .next (fromHost (.pw2Read f off n) s)

/-- `HOST_PW2_WRITE`. -/
def execHostPw2Write (f off : Nat) (bs : List Byte) (s : State) : Outcome State Fault Refusal := .next (fromHost (.pw2Write f off bs) s)

/-- A write at an offset of queue `q`, by the queue's function (Table 15-1). -/
def queueReq (q off : Nat) (v : Word) : HostReq := .regWrite (q / 16) (.pw4 (q * 0x1000 + off)) v

/-- `QCFG`. -/
def execQcfg (q : Nat) (v : Word) (s : State) : Outcome State Fault Refusal := .next (fromHost (queueReq q 0x08 v) s)

/-- `QTAIL`. -/
def execQtail (q : Nat) (v : Word) (s : State) : Outcome State Fault Refusal := .next (fromHost (queueReq q 0x10 v) s)

/-- `CHEAD`. -/
def execChead (q : Nat) (v : Word) (s : State) : Outcome State Fault Refusal := .next (fromHost (queueReq q 0x30 v) s)

/-- `RINGERR`: a QSTAT write; the failed ring access is made again by the next packet or completion that the queue handles. -/
def execRingerr (q : Nat) (v : Word) (s : State) : Outcome State Fault Refusal := .next (fromHost (queueReq q 0x38 v) s)

/-- `PLIMIT`. -/
def execPlimit (v : Word) (s : State) : Outcome State Fault Refusal := .next (fromHost (.regWrite 0 (.pw0 0x100) v) s)

/-- The physical function's write of a translation register of a context: 0 LMAX, 8 MAPSEQ. -/
def transReq (cn off : Nat) (v : Word) : HostReq := .regWrite 0 (.pw0 (0x1000000 + 0x20 * cn + off)) v

/-- `LMAX`. -/
def execLmax (cn : Nat) (v : Word) (s : State) : Outcome State Fault Refusal := .next (fromHost (transReq cn 0 v) s)

/-- `MAPSEQ`. -/
def execMapseq (cn : Nat) (v : Word) (s : State) : Outcome State Fault Refusal := .next (fromHost (transReq cn 8 v) s)

/-- `LERR`: a read of the register. -/
def execLerr (n : Nat) (s : State) : Outcome State Fault Refusal := .next (fromHost (.regRead 0 (.pw0 (0x10010 + 0x40 * n))) s)

/-- `PW2ERR`: a function's read of its register. -/
def execPw2err (f : Nat) (s : State) : Outcome State Fault Refusal :=
  .next (fromHost (.regRead f (.pw0 (if f = 0 then 0x200010 else 0x210))) s)

end Sys2Proof.Machine
end

