-- ==== Sys2Proof/Machine/VectorOps.lean ====
section
/-!
DEFINITION. Vector and mask opcodes 0x40 to 0x52 (R172 to R177, R454).
-/
namespace Sys2Proof.Machine
open Sys2Proof
open Host (Outcome)

/-- A lane-moving bundle: active destination elements take `op i`, no flags (R164, R172). -/
def moveLanes (opc : Nat) (long : Bool) (f : CForm) (s : State) (op : CEnv → State → Nat → Nat) : Outcome State Fault Refusal :=
  .next <| runC opc f s fun e s => readOld e s f.fmt (retV e s long (mergeV e s f.fmt (op e s)))

def execVbcast (f : CForm) (s : State) : Outcome State Fault Refusal := moveLanes 0x40 false f s fun e _ _ => e.a.toNat
/-- `vperm`: the low 32 bits of B's lane, modulo E, choose an element of A; long-latency. -/
def execVperm (f : CForm) (s : State) : Outcome State Fault Refusal :=
  moveLanes 0x41 true f s fun e _ i => elemOf f.fmt e.va (laneOf f.fmt e.vb i % 2 ^ 32 % elems f.fmt)
/-- `vlane` (R172): d[i] := i, as the integer pattern i under every FMT, a float or tapered one too (log 122). -/
def execVlane (f : CForm) (s : State) : Outcome State Fault Refusal := moveLanes 0x48 false f s fun _ _ i => i
def execVrev (f : CForm) (s : State) : Outcome State Fault Refusal :=
  moveLanes 0x51 false f s fun e _ i => elemOf f.fmt e.va (elems f.fmt - 1 - i)
def execVrot (f : CForm) (s : State) : Outcome State Fault Refusal :=
  moveLanes 0x52 false f s fun e _ i => elemOf f.fmt e.va ((i + e.b.toNat) % elems f.fmt)
/-- `vspread` (R175): the k-th active element of D receives `a[k]`. -/
def execVspread (f : CForm) (s : State) : Outcome State Fault Refusal :=
  moveLanes 0x47 false f s fun e _ i => elemOf f.fmt e.va (((activeList f.fmt e.mask).takeWhile (· ≠ i)).length)

/-- `vmerge`: every element written, from A where active, else from B. -/
def execVmerge (f : CForm) (s : State) : Outcome State Fault Refusal :=
  .next <| runC 0x45 f s fun e s => retV e s false <| packLanes (stride f.fmt) <| (List.range (elems f.fmt)).map fun i =>
    extendTo (stride f.fmt) f.fmt (elemOf f.fmt (if active e.mask i then e.va else e.vb) i)

/-- `vcomp` (R175): active elements of A move down to `d[0]` and onward; the rest are kept or zeroed. -/
def execVcomp (f : CForm) (s : State) : Outcome State Fault Refusal :=
  .next <| runC 0x46 f s fun e s =>
    let k := f.fmt
    let act := activeList k e.mask
    readOld e s k <| retV e s false <| packLanes (stride k) <| (List.range (elems k)).map fun i =>
      match act[i]? with
      | some j => extendTo (stride k) k (elemOf k e.va j)
      | none => if zeroing f then 0 else laneOf k ((s.thr e.k).vr f.d.toNat) i

/-- `vcmp` (R172, R454). -/
def execVcmp (f : CForm) (s : State) : Outcome State Fault Refusal :=
  .next <| runC 0x44 f s fun e s =>
    let k := f.fmt
    laneMaskRes e s k fun i =>
      if isIntFmt k then let r := opCmp (laneArgs e k i); (r.1, 0, r.2)
      else if isIeee k then let r := opFcmp (fArgsC f k (laneOf k e.va i) (laneOf k e.vb i) 0); (r.1, r.2, 0)
      else let r := condNum f.var (valueOf k (laneOf k e.va i)).1 (valueOf k (laneOf k e.vb i)).1; (r.1, r.2, 0)

/-- `vins`: one element of D replaced; an index at or above E leaves D unchanged. -/
def execVins (f : CForm) (s : State) : Outcome State Fault Refusal :=
  .next <| runC 0x49 f s fun e s =>
    let k := f.fmt
    let old := (s.thr e.k).vr f.d.toNat
    retV e s false <| packLanes (stride k) <| (List.range (elems k)).map fun i =>
      if i = e.b.toNat then extendTo (stride k) k (e.a.toNat % 2 ^ fmtBits k) else laneOf k old i

/-- `vext`: an element of A, extended by R136; 0 for an index at or above E. -/
def execVext (f : CForm) (s : State) : Outcome State Fault Refusal :=
  .next <| runC 0x4A f s fun e s =>
    retX e s (if e.b.toNat < elems f.fmt then BitVec.ofNat 64 (extendTo 64 f.fmt (elemOf f.fmt e.va e.b.toNat)) else 0)

/-- `mlog`: masks combined bitwise by `VAR` (Table 05-6). -/
def execMlog (f : CForm) (s : State) : Outcome State Fault Refusal :=
  .next <| runC 0x4B f s fun e s =>
    let t := s.thr e.k
    let a := t.mr (f.a.toNat % 8)
    let b := t.mr (f.b.toNat % 8)
    let v := match f.var with
      | 0 => a &&& b | 1 => a ||| b | 2 => a ^^^ b | 3 => a &&& ~~~b | _ => ~~~a
    .ok (s.setThr e.k (t.mw f.d.toNat v)) false

/-- Indices below E whose bit of mask A is set and that are active. -/
def maskHits (e : CEnv) (s : State) : List Nat :=
  (activeList e.f.fmt e.mask).filter fun i => active ((s.thr e.k).mr (e.f.a.toNat % 8)) i
def execMpop (f : CForm) (s : State) : Outcome State Fault Refusal :=
  .next <| runC 0x4C f s fun e s => retX e s (BitVec.ofNat 64 (maskHits e s).length)
def execMfirst (f : CForm) (s : State) : Outcome State Fault Refusal :=
  .next <| runC 0x4D f s fun e s => retX e s (BitVec.ofNat 64 ((maskHits e s).headD (elems f.fmt)))

/-! ### Reductions and scans (R56, R173, R174) -/

/-- Identity of an operation (R173): none for b1. -/
def redIdent (k var : Nat) (sgn : Bool) : Option Nat :=
  if isIeee k then some (match var with | 0 => signBit k | 1 => binInfPat k | _ => signBit k + binInfPat k)
  else if k = 10 then none
  else
    let n := fmtBits k
    match var with
    | 1 => some (if k = 11 then 1 else if sgn then 2 ^ n - 1 else 2 ^ (n - 1) - 1)
    | 2 => some (if k = 11 then 3 else if sgn then 0 else 2 ^ (n - 1))
    | 3 => some (2 ^ n - 1)
    | _ => some 0

/-- One combination: an integer opcode by R136, or a float opcode rounded with the code of `IMM[2:0]` (R98). -/
def combine (f : CForm) (a b : Nat) : Res :=
  let k := f.fmt
  if isIntFmt k then
    let x : IArgs := { k := k, a := BitVec.ofNat 64 a, b := BitVec.ofNat 64 b, c := 0, var := 0, sgn := f.sgn, sat := f.sat }
    match f.var with
    | 0 => opAdd x | 1 => opMin x | 2 => opMax x | 3 => opAnd x | 4 => opOr x | _ => opXor x
  else
    let x := { fArgsC f k a b 0 with rm := effRnd (f.imm.toNat % 8) }
    match f.var with
    | 0 => opFadd x | 1 => opFmin x | _ => opFmax x

/-- A value that may be absent (an inactive b1 element), with the flags and warnings gathered so far. -/
abbrev Part := Option Nat × BitVec 13 × BitVec 16

def combPart (f : CForm) (x y : Part) : Part :=
  match x.1, y.1 with
  | some a, some b => let r := combine f a b; (some r.pat, x.2.1 ||| y.2.1 ||| r.fl, x.2.2 ||| y.2.2 ||| r.warn)
  | some a, none => (some a, x.2.1 ||| y.2.1, x.2.2 ||| y.2.2)
  | none, b => (b, x.2.1 ||| y.2.1, x.2.2 ||| y.2.2)

/-- The pairwise tree of R56: element i with element i + n/2, level by level. -/
def redTree (f : CForm) : Nat → List Part → List Part
  | 0, l => l
  | n + 1, l =>
    if l.length ≤ 1 then l else
    let h := l.length / 2
    redTree f n ((l.take h).zipWith (combPart f) (l.drop h))

/-- Elements as they enter the tree: active ones, and the identity for the others. -/
def redInputs (e : CEnv) (k : Nat) : List Part :=
  (List.range (elems k)).map fun i =>
    (if active e.mask i then some (elemOf k e.va i) else redIdent k e.f.var e.f.sgn, 0, 0)

/-- `vred` (R173): long-latency, to an x-register. -/
def execVred (f : CForm) (s : State) : Outcome State Fault Refusal :=
  .next <| runC 0x42 f s fun e s =>
    let k := f.fmt
    let r := (redTree f 6 (redInputs e k)).headD (none, 0, 0)
    raiseC e (addWarn s e.k r.2.2) r.2.1 fun s =>
      retFill e s (match r.1 with | some p => BitVec.ofNat 64 (extendTo 64 k p) | none => 0)

/-- Running values of an inclusive scan: at each index the value if active. -/
def scanGo (e : CEnv) (f : CForm) (s : Part) : List Nat → List (Option Nat) × Part
  | [] => ([], s)
  | i :: r =>
    if active e.mask i then
      let s' := combPart f s (some (elemOf f.fmt e.va i), 0, 0)
      let rest := scanGo e f s' r
      (s'.1 :: rest.1, rest.2)
    else
      let rest := scanGo e f s r
      (none :: rest.1, rest.2)

/-- `vscan` (R174): inclusive, ascending, long-latency. -/
def execVscan (f : CForm) (s : State) : Outcome State Fault Refusal :=
  .next <| runC 0x43 f s fun e s =>
    let k := f.fmt
    let r := scanGo e f (redIdent k f.var f.sgn, 0, 0) (List.range (elems k))
    readOld e s k <| raiseC e (addWarn s e.k r.2.2.2) r.2.2.1 fun s =>
      retV e s true (mergeV e s k fun i => (r.1.getD i none).getD 0)

/-! ### Width changes and dot products -/

/-- `vnarrow` and `vwiden` convert element `i` of the destination from a source pattern (R176). Bit [45] is SGN or FTZ by the kind of `FMT`, the destination's
(Table 05-5; log 134). -/
def crossWidth (opc : Nat) (f : CForm) (s : State) (src : CEnv → Nat → Nat) : Outcome State Fault Refusal :=
  .next <| runC opc f s fun e s =>
    lanewise e s f.fmt false fun i => opFcvt (cvtArgs f.fmt (src e i) (effRnd f.var) (f.sgn && !isIntFmt f.fmt) f.sat (f.imm.toNat % 32))

def execVnarrow (f : CForm) (s : State) : Outcome State Fault Refusal :=
  crossWidth 0x4E f s fun e i =>
    let k := f.imm.toNat % 32
    if i < 32 then elemOf k e.va i else elemOf k e.vb (i - 32)
def execVwiden (f : CForm) (s : State) : Outcome State Fault Refusal :=
  crossWidth 0x4F f s fun e i => elemOf (f.imm.toNat % 32) e.va (i + (if f.imm.getLsbD 6 then 32 else 0))

/-- Exact sum of products of the packed elements of one 32-bit lane (R177). -/
def dotLane (k : Nat) (sgn : Bool) (a b : Nat) : Num × Bool × BitVec 13 × Int :=
  let w := fmtBits k
  (List.range (32 / w)).foldl (fun acc j =>
    let pa := a / 2 ^ (w * j) % 2 ^ w
    let pb := b / 2 ^ (w * j) % 2 ^ w
    if isIntFmt k then (acc.1, acc.2.1, acc.2.2.1, acc.2.2.2 + (intVal k (!sgn) pa).1 * (intVal k (!sgn) pb).1)
    else
      let x := if isIeee k then operand k sgn pa else (valueOf k pa).1
      let y := if isIeee k then operand k sgn pb else (valueOf k pb).1
      let m := numMul x y
      let t := numAdd 0 acc.1 m.1
      (t.1, acc.2.1 || x.isSnan || y.isSnan, acc.2.2.1 ||| m.2 ||| t.2, acc.2.2.2))
    (Num.fin true 0 0, false, 0, 0)

/-- `vdot` (R177): exact before its one rounding; the result is i32 or n32 for integers, f32 otherwise; long-latency. -/
def execVdot (f : CForm) (s : State) : Outcome State Fault Refusal :=
  .next <| runC 0x50 f s fun e s =>
    let k := f.fmt
    let out := if isIntFmt k then (if f.sgn then 5 else 4) else 14
    lanewise e s out true fun i =>
      let r := dotLane k f.sgn (laneOf 4 e.va i) (laneOf 4 e.vb i)
      let c := laneOf 4 e.vc i
      if isIntFmt k then intResult out f.sat ((intVal out (!f.sgn) c).1 + r.2.2.2)
      else
        let cv := operand 14 f.sgn c
        let t := numAdd (effRnd f.var) cv r.1
        (roundBin 14 (effRnd f.var) false f.sgn t.1).raise
          (r.2.2.1 ||| t.2 ||| (if r.2.1 || cv.isSnan then flNV else 0))

end Sys2Proof.Machine
end

