-- ==== Sys2Proof/Machine/Dispatch.lean ====
section
/-!
DEFINITION. One arm per constructor of `Instr`: the meaning of each instruction, or its refusal by name.
-/
namespace Sys2Proof.Machine
open Sys2Proof

def exec (i : Instr) (s : State) : Host.Outcome State Fault Refusal :=
  match i with
  | .nop f => Sys2Proof.Machine.execNop f s
  | .add f => Sys2Proof.Machine.execAdd f s
  | .sub f => Sys2Proof.Machine.execSub f s
  | .mul f => Sys2Proof.Machine.execMul f s
  | .mulh f => Sys2Proof.Machine.execMulh f s
  | .div f => Sys2Proof.Machine.execDiv f s
  | .rem f => Sys2Proof.Machine.execRem f s
  | .madd f => Sys2Proof.Machine.execMadd f s
  | .and f => Sys2Proof.Machine.execAnd f s
  | .or f => Sys2Proof.Machine.execOr f s
  | .xor f => Sys2Proof.Machine.execXor f s
  | .andn f => Sys2Proof.Machine.execAndn f s
  | .shl f => Sys2Proof.Machine.execShl f s
  | .shr f => Sys2Proof.Machine.execShr f s
  | .rot f => Sys2Proof.Machine.execRot f s
  | .min f => Sys2Proof.Machine.execMin f s
  | .max f => Sys2Proof.Machine.execMax f s
  | .cmp f => Sys2Proof.Machine.execCmp f s
  | .sel f => Sys2Proof.Machine.execSel f s
  | .clz f => Sys2Proof.Machine.execClz f s
  | .popc f => Sys2Proof.Machine.execPopc f s
  | .brev f => Sys2Proof.Machine.execBrev f s
  | .bfx f => Sys2Proof.Machine.execBfx f s
  | .bfi f => Sys2Proof.Machine.execBfi f s
  | .sext f => Sys2Proof.Machine.execSext f s
  | .zext f => Sys2Proof.Machine.execZext f s
  | .mov f => Sys2Proof.Machine.execMov f s
  | .li f => Sys2Proof.Machine.execLi f s
  | .lih f => Sys2Proof.Machine.execLih f s
  | .adr f => Sys2Proof.Machine.execAdr f s
  | .abs f => Sys2Proof.Machine.execAbs f s
  | .fadd f => Sys2Proof.Machine.execFadd f s
  | .fsub f => Sys2Proof.Machine.execFsub f s
  | .fmul f => Sys2Proof.Machine.execFmul f s
  | .fma f => Sys2Proof.Machine.execFma f s
  | .fmin f => Sys2Proof.Machine.execFmin f s
  | .fmax f => Sys2Proof.Machine.execFmax f s
  | .fcmp f => Sys2Proof.Machine.execFcmp f s
  | .fsgn f => Sys2Proof.Machine.execFsgn f s
  | .fcvt f => Sys2Proof.Machine.execFcvt f s
  | .fcls f => Sys2Proof.Machine.execFcls f s
  | .frnd f => Sys2Proof.Machine.execFrnd f s
  | .fdiv f => Sys2Proof.Machine.execFdiv f s
  | .fsqrt f => Sys2Proof.Machine.execFsqrt f s
  | .frcp f => Sys2Proof.Machine.execFrcp f s
  | .frsq f => Sys2Proof.Machine.execFrsq f s
  | .fex2 f => Sys2Proof.Machine.execFex2 f s
  | .flg2 f => Sys2Proof.Machine.execFlg2 f s
  | .fsin f => Sys2Proof.Machine.execFsin f s
  | .fcos f => Sys2Proof.Machine.execFcos f s
  | .ftanh f => Sys2Proof.Machine.execFtanh f s
  | .fsigm f => Sys2Proof.Machine.execFsigm f s
  | .fgelu f => Sys2Proof.Machine.execFgelu f s
  | .fsilu f => Sys2Proof.Machine.execFsilu f s
  | .vbcast f => Sys2Proof.Machine.execVbcast f s
  | .vperm f => Sys2Proof.Machine.execVperm f s
  | .vred f => Sys2Proof.Machine.execVred f s
  | .vscan f => Sys2Proof.Machine.execVscan f s
  | .vcmp f => Sys2Proof.Machine.execVcmp f s
  | .vmerge f => Sys2Proof.Machine.execVmerge f s
  | .vcomp f => Sys2Proof.Machine.execVcomp f s
  | .vspread f => Sys2Proof.Machine.execVspread f s
  | .vlane f => Sys2Proof.Machine.execVlane f s
  | .vins f => Sys2Proof.Machine.execVins f s
  | .vext f => Sys2Proof.Machine.execVext f s
  | .mlog f => Sys2Proof.Machine.execMlog f s
  | .mpop f => Sys2Proof.Machine.execMpop f s
  | .mfirst f => Sys2Proof.Machine.execMfirst f s
  | .vnarrow f => Sys2Proof.Machine.execVnarrow f s
  | .vwiden f => Sys2Proof.Machine.execVwiden f s
  | .vdot f => Sys2Proof.Machine.execVdot f s
  | .vrev f => Sys2Proof.Machine.execVrev f s
  | .vrot f => Sys2Proof.Machine.execVrot f s
  | .ld f => Sys2Proof.Machine.execLd f s
  | .st f => Sys2Proof.Machine.execSt f s
  | .prf f => Sys2Proof.Machine.execPrf f s
  | .vld f => Sys2Proof.Machine.execVld f s
  | .vst f => Sys2Proof.Machine.execVst f s
  | .vgat f => Sys2Proof.Machine.execVgat f s
  | .vsct f => Sys2Proof.Machine.execVsct f s
  | .vlds f => Sys2Proof.Machine.execVlds f s
  | .vsts f => Sys2Proof.Machine.execVsts f s
  | .cwb f => Sys2Proof.Machine.execCwb f s
  | .cinv f => Sys2Proof.Machine.execCinv f s
  | .amo f => Sys2Proof.Machine.execAmo f s
  | .cas f => Sys2Proof.Machine.execCas f s
  | .fence f => Sys2Proof.Machine.execFence f s
  | .pub f => Sys2Proof.Machine.execPub f s
  | .synPost f => Sys2Proof.Machine.execSynPost f s
  | .synRead f => Sys2Proof.Machine.execSynRead f s
  | .synWait f => Sys2Proof.Machine.execSynWait f s
  | .ctrAdd f => Sys2Proof.Machine.execCtrAdd f s
  | .ctrWait f => Sys2Proof.Machine.execCtrWait f s
  | .semSig f => Sys2Proof.Machine.execSemSig f s
  | .semWait f => Sys2Proof.Machine.execSemWait f s
  | .barArr f => Sys2Proof.Machine.execBarArr f s
  | .barWait f => Sys2Proof.Machine.execBarWait f s
  | .gbarArr f => Sys2Proof.Machine.execGbarArr f s
  | .gbarWait f => Sys2Proof.Machine.execGbarWait f s
  | .cmodeCoh f => Sys2Proof.Machine.execCmodeCoh f s
  | .cmodeSoft f => Sys2Proof.Machine.execCmodeSoft f s
  | .tfence f => Sys2Proof.Machine.execTfence f s
  | .br f => Sys2Proof.Machine.execBr f s
  | .jmp f => Sys2Proof.Machine.execJmp f s
  | .jmpr f => Sys2Proof.Machine.execJmpr f s
  | .call f => Sys2Proof.Machine.execCall f s
  | .callr f => Sys2Proof.Machine.execCallr f s
  | .ret f => Sys2Proof.Machine.execRet f s
  | .exit f => Sys2Proof.Machine.execExit f s
  | .steer f => Sys2Proof.Machine.execSteer f s
  | .fan f => Sys2Proof.Machine.execFan f s
  | .null f => Sys2Proof.Machine.execNull f s
  | .gate f => Sys2Proof.Machine.execGate f s
  | .fwr f => Sys2Proof.Machine.execFwr f s
  | .acc f => Sys2Proof.Machine.execAcc f s
  | .merge f => Sys2Proof.Machine.execMerge f s
  | .mm f => Sys2Proof.Machine.execMm f s
  | .mmb f => Sys2Proof.Machine.execMmb f s
  | .rstep f => Sys2Proof.Machine.execRstep f s
  | .cp f => Sys2Proof.Machine.execCp f s
  | .gath f => Sys2Proof.Machine.execGath f s
  | .cps f => Sys2Proof.Machine.execCps f s
  | .slotFree f => Sys2Proof.Machine.execSlotFree f s
  | .coll f => Sys2Proof.Machine.execColl f s
  | .sbind f => Sys2Proof.Machine.execSbind f s
  | .sbar f => Sys2Proof.Machine.execSbar f s
  | .eWait f => Sys2Proof.Machine.execEWait f s
  | .eTest f => Sys2Proof.Machine.execETest f s
  | .eCancel f => Sys2Proof.Machine.execECancel f s
  | .eDetach f => Sys2Proof.Machine.execEDetach f s
  | .eAdopt f => Sys2Proof.Machine.execEAdopt f s
  | .ePrio f => Sys2Proof.Machine.execEPrio f s
  | .eFault f => Sys2Proof.Machine.execEFault f s
  | .ctxStart f => Sys2Proof.Machine.execCtxStart f s
  | .ctxReap f => Sys2Proof.Machine.execCtxReap f s
  | .getsr f => Sys2Proof.Machine.execGetsr f s
  | .setsr f => Sys2Proof.Machine.execSetsr f s
  | .yield f => Sys2Proof.Machine.execYield f s
  | .halt f => Sys2Proof.Machine.execHalt f s
  | .trap f => Sys2Proof.Machine.execTrap f s
  | .brk f => Sys2Proof.Machine.execBrk f s
  | .taskPost f => Sys2Proof.Machine.execTaskPost f s
  | .chanBlk f => Sys2Proof.Machine.execChanBlk f s
  | .meas f => Sys2Proof.Machine.execMeas f s
  | .eret f => Sys2Proof.Machine.execEret f s
  | .taskCancel f => Sys2Proof.Machine.execTaskCancel f s
  | .fetchTrap thread => Sys2Proof.Machine.execFetchTrap thread s
  | .longLatencyFill thread idx => Sys2Proof.Machine.execLongLatencyFill thread idx s
  | .storeAccept thread idx => Sys2Proof.Machine.execStoreAccept thread idx s
  | .errorReply thread store idx => Sys2Proof.Machine.execErrorReply thread store idx s
  | .crossCallReturn thread => Sys2Proof.Machine.execCrossCallReturn thread s
  | .linePoisoning line => Sys2Proof.Machine.execLinePoisoning line s
  | .blockLoad act => Sys2Proof.Machine.execBlockLoad act s
  | .instanceStart act => Sys2Proof.Machine.execInstanceStart act s
  | .tokenArrival idx => Sys2Proof.Machine.execTokenArrival idx s
  | .instanceQuiescent inst => Sys2Proof.Machine.execInstanceQuiescent inst s
  | .instanceCommit inst => Sys2Proof.Machine.execInstanceCommit inst s
  | .instanceTimeout inst => Sys2Proof.Machine.execInstanceTimeout inst s
  | .graphFaultTaken inst => Sys2Proof.Machine.execGraphFaultTaken inst s
  | .graphHandlerStart act => Sys2Proof.Machine.execGraphHandlerStart act s
  | .graphCallReturn inst => Sys2Proof.Machine.execGraphCallReturn inst s
  | .streamPortEmit tile port => Sys2Proof.Machine.execStreamPortEmit tile port s
  | .portFetchFault tile port => Sys2Proof.Machine.execPortFetchFault tile port s
  | .errandQueued tile slot => Sys2Proof.Machine.execErrandQueued tile slot s
  | .errandStart tile slot => Sys2Proof.Machine.execErrandStart tile slot s
  | .errandPreemptionPoint tile slot => Sys2Proof.Machine.execErrandPreemptionPoint tile slot s
  | .errandResume tile slot => Sys2Proof.Machine.execErrandResume tile slot s
  | .errandChunkDone tile slot => Sys2Proof.Machine.execErrandChunkDone tile slot s
  | .errandPublish tile slot => Sys2Proof.Machine.execErrandPublish tile slot s
  | .operandFetchFault tile slot => Sys2Proof.Machine.execOperandFetchFault tile slot s
  | .fetchReplay tile slot => Sys2Proof.Machine.execFetchReplay tile slot s
  | .replayTimeout tile slot => Sys2Proof.Machine.execReplayTimeout tile slot s
  | .groupPlacement => Sys2Proof.Machine.execGroupPlacement s
  | .groupStart kernel => Sys2Proof.Machine.execGroupStart kernel s
  | .launchStarvation kernel => Sys2Proof.Machine.execLaunchStarvation kernel s
  | .taskDispatch die => Sys2Proof.Machine.execTaskDispatch die s
  | .kernelCompletion kernel => Sys2Proof.Machine.execKernelCompletion kernel s
  | .preemptRequest tile => Sys2Proof.Machine.execPreemptRequest tile s
  | .saveComplete tile => Sys2Proof.Machine.execSaveComplete tile s
  | .groupEviction tile => Sys2Proof.Machine.execGroupEviction tile s
  | .restoreRequest kernel rank tile => Sys2Proof.Machine.execRestoreRequest kernel rank tile s
  | .restoreComplete tile => Sys2Proof.Machine.execRestoreComplete tile s
  | .budgetPeriod => Sys2Proof.Machine.execBudgetPeriod s
  | .headroomUpdate h0 h1 h2 h3 => Sys2Proof.Machine.execHeadroomUpdate h0 h1 h2 h3 s
  | .bellSlot die => Sys2Proof.Machine.execBellSlot die s
  | .thermalSample dies stackTemps hub => Sys2Proof.Machine.execThermalSample dies stackTemps hub s
  | .thermalTrip die => Sys2Proof.Machine.execThermalTrip die s
  | .coldReset => Sys2Proof.Machine.execColdReset s
  | .selfCheckTimeout => Sys2Proof.Machine.execSelfCheckTimeout s
  | .imageReady => Sys2Proof.Machine.execImageReady s
  | .dieAdmit die => Sys2Proof.Machine.execDieAdmit die s
  | .fwcmdStore => Sys2Proof.Machine.execFwcmdStore s
  | .fwcmdHandover => Sys2Proof.Machine.execFwcmdHandover s
  | .fwcmdStoreHandover => Sys2Proof.Machine.execFwcmdStoreHandover s
  | .handoverCommit => Sys2Proof.Machine.execHandoverCommit s
  | .receiptSigned => Sys2Proof.Machine.execReceiptSigned s
  | .create queue blocks => Sys2Proof.Machine.execCreate queue blocks s
  | .destroy queue => Sys2Proof.Machine.execDestroy queue s
  | .teardownComplete ctx => Sys2Proof.Machine.execTeardownComplete ctx s
  | .allot queue blocks => Sys2Proof.Machine.execAllot queue blocks s
  | .load queue => Sys2Proof.Machine.execLoad queue s
  | .launch queue => Sys2Proof.Machine.execLaunch queue s
  | .copy queue => Sys2Proof.Machine.execCopy queue s
  | .receipt queue => Sys2Proof.Machine.execReceipt queue s
  | .barrier queue => Sys2Proof.Machine.execBarrier queue s
  | .signal queue => Sys2Proof.Machine.execSignal queue s
  | .preempt queue => Sys2Proof.Machine.execPreempt queue s
  | .restore queue => Sys2Proof.Machine.execRestore queue s
  | .grouptab queue => Sys2Proof.Machine.execGrouptab queue s
  | .peertab queue => Sys2Proof.Machine.execPeertab queue s
  | .badkind queue => Sys2Proof.Machine.execBadkind queue s
  | .completionEntryWrite queue => Sys2Proof.Machine.execCompletionEntryWrite queue s
  | .qcfg queue value => Sys2Proof.Machine.execQcfg queue value s
  | .qtail queue value => Sys2Proof.Machine.execQtail queue value s
  | .chead queue value => Sys2Proof.Machine.execChead queue value s
  | .ringerr queue value => Sys2Proof.Machine.execRingerr queue value s
  | .plimit value => Sys2Proof.Machine.execPlimit value s
  | .dierst value => Sys2Proof.Machine.execDierst value s
  | .dieReset die => Sys2Proof.Machine.execDieReset die s
  | .dieReadmit die => Sys2Proof.Machine.execDieReadmit die s
  | .quiesce link => Sys2Proof.Machine.execQuiesce link s
  | .resume link => Sys2Proof.Machine.execResume link s
  | .retrain link => Sys2Proof.Machine.execRetrain link s
  | .lerr link => Sys2Proof.Machine.execLerr link s
  | .pw2err func => Sys2Proof.Machine.execPw2err func s
  | .lmax ctx value => Sys2Proof.Machine.execLmax ctx value s
  | .mapseq ctx value => Sys2Proof.Machine.execMapseq ctx value s
  | .mapdoneAdvance ctx => Sys2Proof.Machine.execMapdoneAdvance ctx s
  | .registerWrite func reg value => Sys2Proof.Machine.execRegisterWrite func reg value s
  | .hostPw2Read func offset bytes => Sys2Proof.Machine.execHostPw2Read func offset bytes s
  | .hostPw2Write func offset data => Sys2Proof.Machine.execHostPw2Write func offset data s
  | .functionLevelReset func => Sys2Proof.Machine.execFunctionLevelReset func s
  | .linkTrained link lanes rate => Sys2Proof.Machine.execLinkTrained link lanes rate s
  | .trainingFailure link => Sys2Proof.Machine.execTrainingFailure link s
  | .linkQuiesced link => Sys2Proof.Machine.execLinkQuiesced link s
  | .retrainComplete link => Sys2Proof.Machine.execRetrainComplete link s
  | .retrainTimeout link => Sys2Proof.Machine.execRetrainTimeout link s
  | .flitReceive link flit good => Sys2Proof.Machine.execFlitReceive link flit good s
  | .ackTimeout link => Sys2Proof.Machine.execAckTimeout link s
  | .laneLockLoss link => Sys2Proof.Machine.execLaneLockLoss link s
  | .ownershipRequest peer page mine => Sys2Proof.Machine.execOwnershipRequest peer page mine s
  | .ownershipTransfer peer page mine data => Sys2Proof.Machine.execOwnershipTransfer peer page mine data s
  | .ownerUnreachable peer => Sys2Proof.Machine.execOwnerUnreachable peer s
  | .walkComplete idx => Sys2Proof.Machine.execWalkComplete idx s
  | .walkInstallTimeout idx => Sys2Proof.Machine.execWalkInstallTimeout idx s
  | .leaseExpiry unit idx => Sys2Proof.Machine.execLeaseExpiry unit idx s
  | .powerLoss => Sys2Proof.Machine.execPowerLoss s
  | .lineEviction tile line => Sys2Proof.Machine.execLineEviction tile line s
  | .correctedError channel => Sys2Proof.Machine.execCorrectedError channel s
  | .dieFatalError die => Sys2Proof.Machine.execDieFatalError die s
  | .homeMove die => Sys2Proof.Machine.execHomeMove die s
  | .selfCheckComplete pass => Sys2Proof.Machine.execSelfCheckComplete pass s

end Sys2Proof.Machine
end

