-- ==== Sys2Proof/Machine/Turns.lean ====
section
/-!
DEFINITION. Moves of agents before their instruction runs: a thread's turn (R364, R365), the firing of a block's instruction (R189, R368), the
passing of time, and placing a word where the next step fetches it.
-/
namespace Sys2Proof.Machine
open Sys2Proof

/-- What a move comes to: the state stays, an instruction runs on it, or the whole device has no power. -/
inductive Turn where
  | done (s : State)
  | run (i : Instr) (s : State)
deriving DecidableEq, Repr

/-- What a thread goes on waiting for after its turn has looked at its counter again: the counter, at its new place, or what it waited for before. -/
def Wait.keep (new old : Wait) : Wait := match new with | .ctr _ _ _ _ _ => new | _ => old

/-- What a trapped thread waited for, tested while its handler runs (R251); a `yield` goes on after the return, and so does the trap of a word that is out of
reach or poisoned. -/
def handlerWait (s : State) (k : Nat) : State :=
  match (s.thr k).hwait with
  | .none => s
  | .yield _ => s
  | w =>
    match lookAgain s k w with
    | (s, .error _) => s
    | (s, .ok w) =>
      let r := waitEnds s k w
      r.1.modThr k fun t => { t with hwait := if r.2 then .none else w.keep t.hwait }

/-- The trap of an `e.wait.t` that a thread takes in this turn: one that its handler owes, or any once no handler runs (R276, log 57). -/
def dueNow (t : Thread) : Option OwedTrap := t.owed.find? fun o => o.inh || t.stat = .live

/-- Take it. -/
def takeOwed (s : State) (k : Nat) : State :=
  match dueNow (s.thr k) with
  | some o => takeTrap (s.modThr k fun t => { t with owed := t.owed.erase o }) k o.cause o.tepc o.addr o.info
  | none => s

/-- The meaning of a bundle whose request may be held (R365). -/
def heldBody (r : HeldReq) (s : State) : BRes :=
  match r.opc with
  | 0x60 => ldBody r.env s
  | 0x61 => stBody r.env s
  | 0x62 => vecLoadBody 0x62 addrUnit r.env s
  | 0x63 => vecStoreBody 0x63 addrUnit (·.vb) r.env s
  | 0x64 => vecLoadBody 0x64 addrIndex r.env s
  | 0x65 => vecStoreBody 0x65 addrIndex (·.vc) r.env s
  | 0x66 => vecLoadBody 0x66 addrStride r.env s
  | 0x67 => vecStoreBody 0x67 addrStride (·.vc) r.env s
  | 0x70 => atomicBody 0x70 amoOp r.env s
  | 0x71 => atomicBody 0x71 casOp r.env s
  | 0x76 => synReadBody r.env s
  | _ => ctrAddBody r.env s

/-- A held request that can no longer be made, its mapping having gone: its destination reads as poisoned with the cause, and without one the thread reports
it later (log 5). -/
def heldFails (s : State) (k : Nat) (r : HeldReq) (c : BitVec 6) (a i : Word) : State :=
  match regIx (useOf r.opc r.env.f).d r.env.f.d with
  | some i => s.modThr k fun t => t.await { reg := i, val := 0, pois := some { cause := c, addr := a }, ticket := r.env.ticket, kind := .value, err := false }
  | none => noteStore (s.modThr k fun t => { t with deferred := t.deferred ++ [{ cause := c, addr := a, info := i ||| 0x4000000000000000 }] }) k r.env.ticket none

/-- The held request of thread `k` is made as soon as nothing holds it; its ticket falls as that of any bundle of its kind (R96, R370). -/
def heldTurn (s : State) (k : Nat) (r : HeldReq) : State :=
  let keep := fun (s : State) => s.modThr k fun t => { t with held := some r }
  match heldBody r ({ s with mover := .thread k }.modThr k fun t => { t with held := none }) with
  | .ok s true => s
  | .ok s false => s.modThr k (·.dropTicket r.env.ticket)
  | .trap s c a i => heldFails s k r c a i
  | .held s _ => keep s
  | .wait s => keep s
  | .jump s _ => s
  | .after s _ _ => s
  | .stop s => s

def heldsNow (s : State) : State := s.threads.foldl (fun s kt => match kt.2.held with | some r => heldTurn s kt.1 r | none => s) s

/-- A turn of thread `k`, in its slot: nothing unless it is LIVE or HANDLER with a RESIDENT group, where its context runs; a wait or a `HOLD` count
takes the turn; otherwise the bundle at pc is fetched, and runs or traps. Its allotment pays for the work (R316). -/
def threadTurn (s : State) (k : Nat) : Turn :=
  let s := toSlot s k
  let s := if mayTurn s k then handlerWait s k else s
  let t := s.thr k
  if !mayTurn s k then .done s
  else if dueNow t ≠ none then .done (takeOwed s k)
  else if t.wait ≠ .none then
    match lookAgain s k t.wait with
    | (s, .error x) => .done (trapWait s k x.1 x.2.1 x.2.2)
    | (s, .ok w) =>
      let r := waitEnds s k w
      .done (r.1.modThr k fun t => { t with wait := if r.2 then .none else w.keep t.wait })
  else if 0 < t.hold then .done (s.setThr k { t with hold := t.hold - 1 })
  else
    match fetchC s (tileOf k) t.ctx t.pc with
    | (s, .instr i) => .run i { chargeWork s t.ctx t.allot with curThread := k }
    | (s, .trap c a i) => .done (takeFetchTrap s k c a i)
    | (s, .wait) => .done s

/-- A firing of instruction `ix` of an instance: its word of the loaded block, at the cost of its allotment. -/
def nodeTurn (s : State) (inst ix : Nat) : Turn :=
  match s.inst? inst with
  | none => .done s
  | some n =>
    match s.act? n.act with
    | none => .done s
    | some a =>
      if !planeMayFire s (dieOf a.tile) n.plane || !runsOn s a.tile a.ctx then .done s else
      match n.block.words[ix]? with
      | none => .done s
      | some w =>
        match decodeG w with
        | .ok i => .run i { chargeWork s a.ctx a.allot with curNode := (inst, ix) }
        | .error _ => .done s

/-- An event of the device or the host; the environment cannot make an instruction run by itself. -/
def eventTurn (s : State) (i : Instr) : Turn :=
  match i.parts with
  | none => .run i s
  | some _ => .done s

def turn (s : State) (m : Move) : Turn :=
  let s := { s with mover := m.mover }
  match m with
  | .thread k => threadTurn s k
  | .node i ix => nodeTurn s i ix
  | .event i => eventTurn s i
  | .hostRead f r => .done (hostReads s f r)
  | .hostMem a bs => .done (hostStores s a bs)

/-- The oldest request of the host that waits is tried again (R304). -/
def hostNow (s : State) : State := dropTaken (postedNow { s with mover := .host }) .host

/-- Time passes: the device clock and the hub's nanoseconds advance by amounts that the spec leaves open (log 4). The words that threads wait on are tested, as
the last step has left them (R231, R233), held requests are made where nothing holds them any more (R365), peer entries follow their links (R338) and face bits their mappings (R405), the timeouts of instances count (R203), packets whose wait is over complete (R335), and the oldest request of the host
that waits is tried again (R304). -/
def passTime (s : State) : State :=
  let s := timeoutsNow (hostNow (heldsNow (pendsNow (testAll (facesNow (peersNow (dropTaken s s.mover)))))))
  { s with tick := s.tick + 1
           dev := { s.dev with cycles := s.dev.cycles + Config.cyclesTaken s.tick, hubNs := s.dev.hubNs + Config.nsTaken s.tick } }

/-- The next move: the queued one, else the environment's choice (log 3), and the state without it. -/
def takeMove (s : State) : Move × State :=
  match s.agenda with
  | m :: r => (m, { s with agenda := r })
  | [] => (Config.nextMove s.tick, s)

/-! ### Placing a word (log 8) -/

/-- Where a placed bundle stands, and the level-1 table that maps it: physical addresses. -/
def placedAt : Nat := 0x10000
def placedTable : Nat := 0x20000

/-- Bytes put into memory from outside, whatever caches, marks and mappings held of their line. -/
def putLine (s : State) (k : Nat) (bs : List Byte) : State :=
  let drop := fun (kt : Nat × Tile) => (kt.1, { kt.2 with l1 := kt.2.l1.filter fun l => l.1 ≠ lineOf k })
  { s with mem := Memory.writeN s.mem k bs, tiles := s.tiles.map drop, mapped := Tbl.erase s.mapped (lineOf k)
           poison := Tbl.erase s.poison (lineOf k), regions := Tbl.erase s.regions (regionOf k) }

/-- Store a bundle at the placed page, map its first GiB for thread 0 of tile 0, and make that thread fetch it next. -/
def placeC (s : State) (w : IWord) : State :=
  let cn := (s.thr 0).ctx
  let s := putLine s placedAt (bytesOf 16 w)
  let s := putLine s placedTable (bytesOf 8 (0xD1 : Word))
  let s := putLine s (s.ctx cn).ptRoot (bytesOf 8 (BitVec.ofNat 64 (placedTable + 1)))
  let s := { s with walkCache := s.walkCache.filter fun e => e.2.ctx ≠ cn, walks := s.walks.filter fun w => w.die ≠ 0, agenda := [.thread 0]
                    dev := { s.dev with powered := true, service := 3, thStopped := 0, stackStop := 0 } }
  let s := s.modTile 0 fun t =>
    { t with icache := [], tlb := t.tlb.filter fun e => e.ctx ≠ cn, group := t.group.map fun g => { g with resid := .resident } }
  s.modThr 0 fun t => { t with stat := .live, role := if t.role = .firmware then .lead else t.role, pc := 0x10000, hold := 0, wait := .none, hwait := .none, owed := [] }

/-- Make a block of the one graph word the block of a new instance, whose instruction 0 fires next. -/
def placeG (s : State) (w : IWord) : State :=
  let b : Block := { entry := 0x10000, ctx := 0, hdr0 := 0, hdr1 := 0, words := [w] }
  let a : Act := { stat := .live, ctx := 0, kernel := 0, allot := 0, tile := 0, planes := 1, tag := 0, frame := 0
                   f := Vector.replicate 64 0, next := 0x10000, seq := 0, base := 0, root := false
                   insts := [s.nextId + 1], fault := none, tinfo := 0, held := none }
  let n : Inst := { act := s.nextId, seq := 0, block := b, plane := 0, slots := [], fired := 0, done := 0, fwr := [], fwrs := 0
                    stores := [], exits := 0, exitTo := 0, rets := 0, retv := 0, irrev := false, accs := [], latch := []
                    gates := [], call := none, arrivals := [], ports := 0, ewaits := [], fault := none, held := false, quiet := false
                    fregs := Vector.replicate 64 0 }
  { ((s.setAct s.nextId a).setInst (s.nextId + 1) n) with nextId := s.nextId + 2, agenda := [.node (s.nextId + 1) 0]
                                                          dev := { s.dev with powered := true, service := 3, thStopped := 0, stackStop := 0 } }

/-- Place a word of either encoding where the next step fetches it. -/
def placeWord (s : State) (w : IWord) : State := if (w.extractLsb' 0 4) = 12#4 then placeG s w else placeC s w

end Sys2Proof.Machine
end

