-- ==== Sys2Proof/Machine/Step.lean ====
section
/-!
DEFINITION. One step of the machine: time passes, the next agent moves, and its instruction runs.
-/
namespace Sys2Proof.Machine
open Sys2Proof

/-- One step. Without power nothing but a cold reset happens (R30, R424). -/
def step (s : State) : Host.Outcome State Fault Refusal :=
  let m := takeMove (passTime s)
  if !s.dev.powered && m.1 ≠ .event .coldReset then .fault .noPower else
  match turn m.2 m.1 with
  | .done s => .next s
  | .run i s => exec i s

/-- `s` with the instruction of the low `nbits` bits of `w` where the next step fetches and runs it (log 8). -/
def State.withFetchWord (s : State) (nbits w : Nat) : State := placeWord s (BitVec.ofNat 128 (w % 2 ^ nbits))

end Sys2Proof.Machine
end

