-- ==== Sys2Proof/Safety.lean ====
section
/-!
DEFINITION. What a safe run is (it never stops, and memory keeps its canonical form), and the terms in which claims speak of one instruction: when a bundle
issues and reaches its own effect, what it leaves of its thread, and when a block's instruction fires.
-/
namespace Sys2Proof.Machine
open Sys2Proof

/-- The machine's invariant: the memory list is in canonical form. -/
def State.Inv (s : State) : Prop := Memory.wf s.mem = true

/-- A step that answers a next state. -/
def State.Goes (s : State) : Prop := ∃ t, step s = .next t

/-- A run of `n` steps from `s` is safe: every one of them answers a next state. -/
def SafeFor : Nat → State → Prop
  | 0, _ => True
  | n + 1, s => ∃ t, step s = .next t ∧ SafeFor n t

/-- The current thread, and its bundle's address. -/
def State.cur (s : State) : Thread := s.thr s.curThread
def State.curPc (s : State) : Word := s.cur.pc

/-- The bundle `f` of opcode `opc` issues for the current thread and has its own effect: the thread runs (R365), every register lies within its counts
(R92), the unit is its group's (R254 step 1), no held request and no full store buffer is in its way (R365), no warning traps (R100), its `NEED` tickets are zero and its own is below 63 (R96), its guard holds
(R93), and the registers of its fields are full and, as sources, not poisoned (R94, R146). -/
structure Issues (opc : Nat) (f : CForm) (s : State) : Prop where
  running : s.cur.running = true
  counts  : beyondAny opc f s.cur = false
  unit    : workDenied s s.curThread opc = false
  warn    : decodeWarn opc f = 0 ∨ s.cur.traps.getLsbD 33 = false
  need    : ∀ n < 8, f.need.getLsbD n = true → getV s.cur.tickets 0 n = 0
  guard   : maskedOpc opc f = true ∨ guardOf s.cur f = true
  ticket  : ∀ n, ticketOf f = some n → getV s.cur.tickets 0 n < 63
  dest    : emptyReg s.cur (regIx (useOf opc f).d f.d) = false
  full    : ∀ x ∈ srcsOf opc f, emptyReg s.cur x.1 = false
  free    : behindHeld s.cur opc = false
  clean   : ∀ i, some i ∈ readsOf opc f → Tbl.find? s.cur.pois i = none

/-- What a bundle leaves once its meaning has made `s1` of `s`: the decode warnings are set, `HOLD` begins, the bundle counts as issued, the thread goes
on at `pc`; a `late` bundle holds its ticket (R90, R96, R100, R364). -/
def finished (opc : Nat) (f : CForm) (s s1 : State) (late : Bool) (pc : Word) : State :=
  s1.modThr s.curThread fun t =>
    { t with warn := t.warn ||| decodeWarn opc f, hold := f.hold.toNat, issued := t.issued + 1, pc := pc
             tickets := match late, ticketOf f with | true, some n => putV t.tickets n (getV t.tickets 0 n + 1) | _, _ => t.tickets }

/-- The bundle completes and its thread goes on behind it. -/
def completed (opc : Nat) (f : CForm) (s s1 : State) (late : Bool) : State := finished opc f s s1 late (s.curPc + 16)

/-- The current instruction of a block fires with its own effect (R193 to R198, R216): its instance is live, its tokens have arrived, it has not fired
before (a stream instruction fires per element), the targets of a stream token have room, its predicate matches, and no operand is null. -/
structure Fires (opc : Nat) (f : GForm) (s : State) (n : Inst) (a : Act) : Prop where
  inst  : s.inst? s.curNode.1 = some n
  act   : s.act? n.act = some a
  live  : instLive s n = true
  toks  : ∀ x ∈ neededToks n s.curNode.2 f, x.isSome = true
  once  : n.fired.getLsbD s.curNode.2 = false ∨ isStrm n s.curNode.2 f = true
  room  : isStrm n s.curNode.2 f = true → ∀ t ∈ allTargets opc f, hasRoom s s.curNode.1 n t = true
  hit   : predHit n s.curNode.2 f = true
  nulls : anyNull n s.curNode.2 f = false ∨ nullAct opc = .own

/-- The values that a firing instruction works with. -/
def fireEnv (f : GForm) (s : State) (n : Inst) (a : Act) : GEnv := genv f n a s.curNode.1 s.curNode.2

/-- A firing that made `s1` of `s` and sends the token `k` to `ts`: where the tokens have room in the matching stores and the barn; until they have, nothing
of the firing happens (R194). -/
def emitted (opc : Nat) (f : GForm) (s s1 : State) (n : Inst) (ts : List (Nat × Nat)) (k : Token) : State :=
  sendFit s s.curNode.1 (sendTo (fireNode opc f n s.curNode.1 s.curNode.2 s1 true) s.curNode.1 ts k)

/-- A firing that made `s1` of `s` and sends a token with value `v` to every target. -/
def sent (opc : Nat) (f : GForm) (s s1 : State) (n : Inst) (v : Word) : State :=
  emitted opc f s s1 n (allTargets opc f) (sentTok n s.curNode.2 f v false)

/-- The thread has no deferred error to report, nor a store whose error reply may still come (R249). -/
abbrev Quiet (t : Thread) : Prop := t.deferred = [] ∧ t.stores.any (·.awaited) = false

/-- A bundle of the current thread that reports, and that releases at a scope, has nothing to report and nothing to wait for: at device scope or wider, every
dirty line of its tile has its way home (R249, R300, R411). -/
abbrev Settled (scope : Nat) (s : State) : Prop := Quiet s.cur ∧ (2 ≤ scope → drainHeld s (tileOf s.curThread) (fun _ => true) = false)

/-- A firing that made `s1` of `s` and sends nothing. -/
def silent (opc : Nat) (f : GForm) (s s1 : State) (n : Inst) : State := fireNode opc f n s.curNode.1 s.curNode.2 s1 true

/-- Flags and warnings of a firing, in the frame's status word (R101, R155). -/
def noted (s : State) (a : Act) (fl : BitVec 13) (w : BitVec 16) : State := if fl = 0 ∧ w = 0 then s else (noteStatus s a fl w).1

end Sys2Proof.Machine
end

