-- ==== Sys2Proof/WellFormed.lean ====
section
/-!
DEFINITION. Well-formed instructions: those the encodings of the spec admit. The checks of one word are the decoder's
(`legalC`, `legalG`); here they are asked of an instruction as syntax.
-/
namespace Sys2Proof

/-- An instruction is well formed when its form is legal under its opcode: a class that accepts it (Table 05-11), a listed variant
(Table 05-6), an accepted format, register fields in range (R92), and, in a graph word, Table 09-1; and when its opcode and
variant name this instruction. Steps of the device and the host have no word and are always well formed. -/
def Instr.wf (i : Instr) : Bool :=
  match i.parts with
  | none => true
  | some (opc, .c f) => legalC opc.toNat f && mkC opc.toNat f = some i
  | some (opc, .g f) => legalG opc.toNat f && mkG opc.toNat f = some i

end Sys2Proof
end

