-- ==== Sys2Proof/Certificates/Slice0/Obligations.lean ====
section
/-!
DEFINITION. The statements of the model's first slice, from the numbered rules of the spec.
-/

/-! ### The integer opcodes (R135 to R142, R155, R165) -/

namespace Sys2Proof.Claims
open Sys2Proof Sys2Proof.Machine

/-- The integer opcodes with one value result: constructor, opcode, and its function of the sources (Table 07-1). -/
def intOps : List ((Form → Instr) × Nat × (IArgs → Res)) :=
  [(.add, 0x01, opAdd), (.sub, 0x02, opSub), (.mul, 0x03, opMul), (.mulh, 0x04, opMulh), (.div, 0x05, opDiv), (.rem, 0x06, opRem),
   (.madd, 0x07, opMadd), (.and, 0x08, opAnd), (.or, 0x09, opOr), (.xor, 0x0A, opXor), (.andn, 0x0B, opAndn), (.shl, 0x0C, opShl),
   (.shr, 0x0D, opShr), (.rot, 0x0E, opRot), (.min, 0x0F, opMin), (.max, 0x10, opMax), (.clz, 0x13, opClz), (.popc, 0x14, opPopc),
   (.brev, 0x15, opBrev), (.bfx, 0x16, opBfx), (.bfi, 0x17, opBfi), (.sext, 0x18, opSext), (.zext, 0x19, opZext), (.mov, 0x1A, opMov),
   (.abs, 0x1E, opAbs)]

/-- Flags and warnings of a result, in the thread's `SR.FSTAT` and `SR.WARN`. -/
def note (t : Thread) (fl : BitVec 13) (w : BitVec 16) : Thread := { t with warn := t.warn ||| w, fstat := t.fstat ||| fl }

/-- A state with the current thread changed, and nothing else. -/
def own (s : State) (g : Thread → Thread) : State := s.modThr s.curThread g

/-- The sources of an integer bundle in class R or I. -/
def regArgs (opc : Nat) (f : CForm) (s : State) : IArgs :=
  let e := cenv opc f s
  { k := intFmt f.fmt, a := e.a, b := e.b, c := e.c, var := f.var, sgn := f.sgn, sat := f.sat }

/-- The sources of an integer instruction of a block. -/
def tokArgs (f : GForm) (s : State) (n : Inst) (a : Act) : IArgs :=
  let e := fireEnv f s n a
  { k := intFmt f.fmt, a := e.a, b := e.b, c := e.c, var := f.var, sgn := f.sgn, sat := f.sat }

/-- Lanes of a vector register after a lane-wise bundle: the results of the active elements extended by R160, the others kept or zeroed (R162). -/
def lanesOf (f : CForm) (s : State) (k : Nat) (res : Nat → Nat) : Vec :=
  packLanes (stride k) <| (List.range (elems k)).map fun i =>
    if active (laneMask s.cur f) i then extendTo (stride k) k (res i) else if zeroing f then 0 else laneOf k (s.cur.vr f.d.toNat) i

/-- Flags and warnings of the active elements, together (R165, R166). -/
def laneFlags (f : CForm) (s : State) (k : Nat) (res : Nat → Res) : BitVec 13 × BitVec 16 :=
  foldRes ((List.range (elems k)).map fun i => if active (laneMask s.cur f) i then res i else { pat := 0 })

/-- No poison is read through the kept elements of the destination (R163). -/
def oldClean (f : CForm) (s : State) (k : Nat) : Prop :=
  keepsOld k (laneMask s.cur f) (zeroing f) = true → Tbl.find? s.cur.pois (64 + f.d.toNat) = none

end Sys2Proof.Claims

open Sys2Proof Sys2Proof.Machine Sys2Proof.Claims

/-- In class R or I each integer opcode completes: `D` receives the result extended by R136, `SR.FSTAT` its flags, and nothing else changes but
the issue itself. -/
def Sys2Proof.Claims.IntegerRegisterResult : Prop :=
  ∀ x ∈ intOps, ∀ (f : CForm) (s : State), Issues x.2.1 f s → f.cls ≠ 4 →
    let r := x.2.2 (regArgs x.2.1 f s)
    exec (x.1 (.c f)) s = .next (completed x.2.1 f s (own s fun t => (note t r.fl r.warn).xw f.d.toNat (intReg (intFmt f.fmt) r)) false)

/-- In class V each integer opcode completes lane by lane: active elements take their results, the others are kept or zeroed. -/
def Sys2Proof.Claims.IntegerLaneResult : Prop :=
  ∀ x ∈ intOps, ∀ (f : CForm) (s : State), Issues x.2.1 f s → f.cls = 4 → oldClean f s (intFmt f.fmt) →
    let k := intFmt f.fmt
    let res := fun i => x.2.2 (laneArgs (cenv x.2.1 f s) k i)
    exec (x.1 (.c f)) s = .next (completed x.2.1 f s
      (own s fun t => (note t (laneFlags f s k res).1 (laneFlags f s k res).2).vw f.d.toNat (lanesOf f s k fun i => (res i).pat)) false)

/-- In a block each integer opcode sends the value that its C form would write (R155). -/
def Sys2Proof.Claims.IntegerTokenResult : Prop :=
  ∀ x ∈ intOps, ∀ (f : GForm) (s : State) (n : Inst) (a : Act), Fires x.2.1 f s n a →
    let r := x.2.2 (tokArgs f s n a)
    exec (x.1 (.g f)) s = .next (sent x.2.1 f s (noted s a r.fl (r.warn ||| intWarnG x.2.1 f)) n (intReg (intFmt f.fmt) r))

/-- Each integer opcode completes in every form with the result that Table 07-1 gives: in class R or I in register `D`, in class V lane by lane, in a block as a token; its
flags and warnings are noted and nothing else changes but the issue itself (R135 to R142, R155, R162, R165). That a t2 source used as a
bit pattern sets no FMT warning, and which opcodes set SGNI under b1 and t2, are the model's choices (logs 127 and 132). -/
def Obligations.IntegerResult : Prop := IntegerRegisterResult ∧ IntegerLaneResult ∧ IntegerTokenResult

/-! ### Compares, selections, immediates (R139, R141, R142, R168) -/

namespace Sys2Proof.Claims
open Sys2Proof Sys2Proof.Machine

/-- A lane mask after a lane-wise compare: the active elements' results, other bits kept or zeroed (R162). -/
def maskOk (f : CForm) (s : State) (k : Nat) (res : Nat → Bool) (m : Word) : Prop :=
  ∀ i < 64, m.getLsbD i = if i < elems k ∧ active (laneMask s.cur f) i = true then res i
    else !zeroing f && (s.cur.mr f.d.toNat).getLsbD i

/-- Flags and warnings of the active elements of a compare. -/
def maskFlags (f : CForm) (s : State) (k : Nat) (fl : Nat → BitVec 13) : BitVec 13 :=
  (activeList k (laneMask s.cur f)).foldl (fun a i => a ||| fl i) 0
def maskWarns (f : CForm) (s : State) (k : Nat) (w : Nat → BitVec 16) : BitVec 16 :=
  (activeList k (laneMask s.cur f)).foldl (fun a i => a ||| w i) 0

/-- None of these flags is enabled as an exception by the thread (R41). -/
abbrev unmasked (s : State) (fl : BitVec 13) : Prop := fl.extractLsb' 0 5 &&& s.cur.fstat.extractLsb' 8 5 = 0

/-- The patterns that a float opcode works on, from the lanes `i` or the registers of a bundle. -/
def fltLane (opc : Nat) (f : CForm) (s : State) (k i : Nat) : FArgs :=
  let e := cenv opc f s
  fArgsC f k (laneOf k e.va i) (laneOf k e.vb i) (laneOf k e.vc i)
def fltReg (opc : Nat) (f : CForm) (s : State) : FArgs :=
  let e := cenv opc f s
  fArgsC f (fltFmt f.fmt) e.a.toNat e.b.toNat e.c.toNat
def fltTok (f : GForm) (s : State) (n : Inst) (a : Act) : FArgs :=
  let e := fireEnv f s n a
  fArgsG f (fltFmt f.fmt) e.a.toNat e.b.toNat e.c.toNat

end Sys2Proof.Claims

/-- `cmp` and `fcmp` complete in every form: predicate `D` in class R or I, lane mask `D` in class V, a token 1 or 0 in a block (R139, R168). What becomes of
the mask bits that belong to no element of a 64-bit format is the model's choice (log 121). -/
def Obligations.CompareResult : Prop :=
  (∀ (f : CForm) (s : State), Issues 0x11 f s → f.cls ≠ 4 →
    let r := opCmp (regArgs 0x11 f s)
    exec (.cmp (.c f)) s = .next (completed 0x11 f s (own s fun t => (note t 0 r.2).pw f.d.toNat r.1) false)) ∧
  (∀ (f : CForm) (s : State), Issues 0x11 f s → f.cls = 4 →
    let k := intFmt f.fmt
    let res := fun i => opCmp (laneArgs (cenv 0x11 f s) k i)
    ∃ m, maskOk f s k (fun i => (res i).1) m ∧
      exec (.cmp (.c f)) s = .next (completed 0x11 f s (own s fun t => (note t 0 (maskWarns f s k fun i => (res i).2)).mw f.d.toNat m) false)) ∧
  (∀ (f : GForm) (s : State) (n : Inst) (a : Act), Fires 0x11 f s n a →
    let r := opCmp (tokArgs f s n a)
    exec (.cmp (.g f)) s = .next (sent 0x11 f s (noted s a 0 (r.2 ||| intWarnG 0x11 f)) n (if r.1 then 1 else 0))) ∧
  (∀ (f : CForm) (s : State), Issues 0x26 f s → f.cls ≠ 4 →
    let r := opFcmp (fltReg 0x26 f s)
    unmasked s r.2 →
    exec (.fcmp (.c f)) s = .next (completed 0x26 f s (own s fun t => (note t r.2 0).pw f.d.toNat r.1) false)) ∧
  (∀ (f : CForm) (s : State), Issues 0x26 f s → f.cls = 4 →
    let k := fltFmt f.fmt
    let res := fun i => opFcmp (fltLane 0x26 f s k i)
    unmasked s (maskFlags f s k fun i => (res i).2) →
    ∃ m, maskOk f s k (fun i => (res i).1) m ∧
      exec (.fcmp (.c f)) s = .next (completed 0x26 f s (own s fun t => (note t (maskFlags f s k fun i => (res i).2) 0).mw f.d.toNat m) false)) ∧
  (∀ (f : GForm) (s : State) (n : Inst) (a : Act), Fires 0x26 f s n a →
    let r := opFcmp (fltTok f s n a)
    let w := fltWarnG 0x26 f
    r.2.extractLsb' 0 5 &&& (noteStatus s a r.2 w).2 = 0 →
    exec (.fcmp (.g f)) s = .next (sent 0x26 f s (noted s a r.2 w) n (if r.1 then 1 else 0)))

/-- `sel`, `li`, `lih`, `adr` and `nop` complete in every form (R139, R141, R142, R155). That nonzero reserved bits of a block's `lih` set no RSVD, and that `sel` reads no t2
value, are the model's choices (logs 120 and 127). -/
def Obligations.SelectAndImmediateResult : Prop :=
  (∀ (f : CForm) (s : State), Issues 0x12 f s → f.cls ≠ 4 →
    let e := cenv 0x12 f s
    let k := intFmt f.fmt
    exec (.sel (.c f)) s = .next (completed 0x12 f s (own s fun t =>
      t.xw f.d.toNat (intReg k { pat := (if s.cur.pr (f.c.toNat % 8) then e.a else e.b).toNat % 2 ^ fmtBits k })) false)) ∧
  (∀ (f : CForm) (s : State), Issues 0x12 f s → f.cls = 4 → oldClean f s (intFmt f.fmt) →
    let e := cenv 0x12 f s
    let k := intFmt f.fmt
    exec (.sel (.c f)) s = .next (completed 0x12 f s (own s fun t =>
      t.vw f.d.toNat (lanesOf f s k fun i => elemOf k (if active (s.cur.mr (f.c.toNat % 8)) i then e.va else e.vb) i)) false)) ∧
  (∀ (f : GForm) (s : State) (n : Inst) (a : Act), Fires 0x12 f s n a →
    let e := fireEnv f s n a
    let k := intFmt f.fmt
    exec (.sel (.g f)) s = .next (sent 0x12 f s (noted s a 0 (intWarnG 0x12 f)) n
      (intReg k { pat := (if e.c.getLsbD 0 then e.a else e.b).toNat % 2 ^ fmtBits k }))) ∧
  (∀ (f : CForm) (s : State), Issues 0x1B f s →
    let r := intResult (intFmt f.fmt) f.sat f.simm.toInt
    exec (.li (.c f)) s = .next (completed 0x1B f s (own s fun t => (note t r.fl 0).xw f.d.toNat (intReg (intFmt f.fmt) r)) false)) ∧
  (∀ (f : GForm) (s : State) (n : Inst) (a : Act), Fires 0x1B f s n a →
    let r := intResult (intFmt f.fmt) f.sat f.imm48.toInt
    exec (.li (.g f)) s = .next (sent 0x1B f s (noted s a r.fl (if isIntFmt f.fmt then 0 else wFMTK)) n (intReg (intFmt f.fmt) r))) ∧
  (∀ (f : CForm) (s : State), Issues 0x1C f s →
    exec (.lih (.c f)) s = .next (completed 0x1C f s (own s fun t =>
      t.xw f.d.toNat (f.imm.extractLsb' 0 20 ++ (t.xr f.d.toNat).extractLsb' 0 44)) false)) ∧
  (∀ (f : GForm) (s : State) (n : Inst) (a : Act), Fires 0x1C f s n a →
    exec (.lih (.g f)) s = .next (sent 0x1C f s (noted s a 0 (if f.fmt = 6 || f.fmt = 7 then 0 else wFMTK)) n
      (f.imm.extractLsb' 0 20 ++ (fireEnv f s n a).a.extractLsb' 0 44))) ∧
  (∀ (f : CForm) (s : State), Issues 0x1D f s →
    exec (.adr (.c f)) s = .next (completed 0x1D f s (own s fun t => t.xw f.d.toNat (s.curPc + f.simm)) false)) ∧
  (∀ (f : GForm) (s : State) (n : Inst) (a : Act), Fires 0x1D f s n a →
    exec (.adr (.g f)) s = .next (sent 0x1D f s (noted s a 0 (if f.fmt = 6 || f.fmt = 7 then 0 else wFMTK)) n ((fireEnv f s n a).pc + f.imm48))) ∧
  (∀ (f : CForm) (s : State), Issues 0x00 f s → exec (.nop (.c f)) s = .next (completed 0x00 f s s false)) ∧
  (∀ (f : GForm) (s : State) (n : Inst) (a : Act), Fires 0x00 f s n a → exec (.nop (.g f)) s = .next (silent 0x00 f s s n))

/-! ### The float opcodes and special functions (R40, R41, R166 to R171) -/

namespace Sys2Proof.Claims
open Sys2Proof Sys2Proof.Machine

/-- Float opcodes with one value result: constructor, opcode, long latency, and the result function (Tables 08-1, 08-2). -/
def fltOps : List ((Form → Instr) × Nat × Bool × (FArgs → Res)) :=
  [(.fadd, 0x20, false, opFadd), (.fsub, 0x21, false, opFsub), (.fmul, 0x22, false, opFmul), (.fma, 0x23, false, opFma),
   (.fmin, 0x24, false, opFmin), (.fmax, 0x25, false, opFmax), (.fsgn, 0x27, false, opFsgn), (.fcls, 0x29, false, opFcls),
   (.frnd, 0x2A, false, opFrnd), (.fdiv, 0x2B, true, opFdiv), (.fsqrt, 0x2C, true, opFsqrt),
   (.frcp, 0x30, true, opSpecial 0x30), (.frsq, 0x31, true, opSpecial 0x31), (.fex2, 0x32, true, opSpecial 0x32),
   (.flg2, 0x33, true, opSpecial 0x33), (.fsin, 0x34, true, opSpecial 0x34), (.fcos, 0x35, true, opSpecial 0x35),
   (.ftanh, 0x36, true, opSpecial 0x36), (.fsigm, 0x37, true, opSpecial 0x37), (.fgelu, 0x38, true, opSpecial 0x38),
   (.fsilu, 0x39, true, opSpecial 0x39)]

/-- A register result: written at once, or as the pending fill of a long-latency bundle (R94). -/
def putX (long : Bool) (f : CForm) (v : Word) (t : Thread) : Thread :=
  if long then t.await { reg := f.d.toNat, val := v.setWidth 2048, pois := none, ticket := ticketOf f, kind := .value, err := false }
  else t.xw f.d.toNat v
def putV (long : Bool) (f : CForm) (v : Vec) (t : Thread) : Thread :=
  if long then t.await { reg := 64 + f.d.toNat, val := v, pois := none, ticket := ticketOf f, kind := .value, err := false }
  else t.vw f.d.toNat v

/-- The result of `fcvt` of one element (R170), scaled or not. -/
def cvtRes (x : FArgs) : Res := if cvtScaled x then (cvtBlock [x]).headD { pat := 0 } else opFcvt x

end Sys2Proof.Claims

/-- In class R each float opcode whose flags are not enabled as exceptions completes: `D` receives the pattern, zero-extended, at once or as a pending fill. -/
def Sys2Proof.Claims.FloatRegisterResult : Prop :=
  ∀ x ∈ fltOps, ∀ (f : CForm) (s : State), Issues x.2.1 f s → f.cls ≠ 4 →
    let r := x.2.2.2 (fltReg x.2.1 f s)
    unmasked s r.fl →
    exec (x.1 (.c f)) s = .next (completed x.2.1 f s
      (own s fun t => putX x.2.2.1 f (BitVec.ofNat 64 r.pat) (note t r.fl r.warn)) x.2.2.1)

/-- In class V each float opcode completes lane by lane under the same condition. -/
def Sys2Proof.Claims.FloatLaneResult : Prop :=
  ∀ x ∈ fltOps, ∀ (f : CForm) (s : State), Issues x.2.1 f s → f.cls = 4 → oldClean f s (fltFmt f.fmt) →
    let k := fltFmt f.fmt
    let res := fun i => x.2.2.2 (fltLane x.2.1 f s k i)
    unmasked s (laneFlags f s k res).1 →
    exec (x.1 (.c f)) s = .next (completed x.2.1 f s
      (own s fun t => putV x.2.2.1 f (lanesOf f s k fun i => (res i).pat) (note t (laneFlags f s k res).1 (laneFlags f s k res).2)) x.2.2.1)

/-- In a block each float opcode sends the pattern that its C form would write, where no flag it raises is enabled in the frame's status word. -/
def Sys2Proof.Claims.FloatTokenResult : Prop :=
  ∀ x ∈ fltOps, ∀ (f : GForm) (s : State) (n : Inst) (a : Act), Fires x.2.1 f s n a →
    let r := x.2.2.2 (fltTok f s n a)
    let w := r.warn ||| fltWarnG x.2.1 f
    r.fl.extractLsb' 0 5 &&& (noteStatus s a r.fl w).2 = 0 →
    exec (x.1 (.g f)) s = .next (sent x.2.1 f s (noted s a r.fl w) n (BitVec.ofNat 64 r.pat))

/-- Each float opcode and special function whose flags are not enabled as exceptions completes in every form (R40, R41, R166 to R171). -/
def Obligations.FloatResult : Prop := FloatRegisterResult ∧ FloatLaneResult ∧ FloatTokenResult

/-- `fcvt` completes in every form (R170): one element in class R and in a block; in class V element by element, or as one scaled block. -/
def Obligations.ConvertResult : Prop :=
  (∀ (f : CForm) (s : State), Issues 0x28 f s → f.cls ≠ 4 →
    let x := cvtArgs f.fmt (cenv 0x28 f s).a.toNat (effRnd f.var) f.sgn f.sat f.imm.toNat
    let r := cvtRes x
    unmasked s r.fl →
    exec (.fcvt (.c f)) s = .next (completed 0x28 f s (own s fun t => (note t r.fl r.warn).xw f.d.toNat (cvtReg x r)) false)) ∧
  (∀ (f : CForm) (s : State), Issues 0x28 f s → f.cls = 4 → oldClean f s f.fmt →
    let arg := fun i => cvtArgs f.fmt (laneOf f.fmt (cenv 0x28 f s).va i) (effRnd f.var) f.sgn f.sat f.imm.toNat
    cvtScaled (arg 0) = false →
    let fw := laneFlags f s f.fmt fun i => opFcvt (arg i)
    unmasked s fw.1 →
    exec (.fcvt (.c f)) s = .next (completed 0x28 f s
      (own s fun t => (note t fw.1 fw.2).vw f.d.toNat (lanesOf f s f.fmt fun i => (opFcvt (arg i)).pat)) false)) ∧
  (∀ (f : CForm) (s : State), Issues 0x28 f s → f.cls = 4 → oldClean f s f.fmt →
    let arg := fun i => cvtArgs f.fmt (laneOf f.fmt (cenv 0x28 f s).va i) (effRnd f.var) f.sgn f.sat f.imm.toNat
    cvtScaled (arg 0) = true →
    let act := activeList f.fmt (laneMask s.cur f)
    let rs := cvtBlock (act.map arg)
    let fw := foldRes rs
    unmasked s fw.1 →
    exec (.fcvt (.c f)) s = .next (completed 0x28 f s (own s fun t => (note t fw.1 fw.2).vw f.d.toNat
      (packLanes 32 ((List.range 64).map fun i => match act.idxOf? i with
        | some j => (rs.getD j { pat := 0 }).pat
        | none => if zeroing f then 0 else laneOf f.fmt (s.cur.vr f.d.toNat) i))) false)) ∧
  (∀ (f : GForm) (s : State) (n : Inst) (a : Act), Fires 0x28 f s n a →
    let x := cvtArgs f.fmt (fireEnv f s n a).a.toNat (effRnd f.var) f.sgn f.sat f.imm.toNat
    let r := cvtRes x
    let w := r.warn ||| fltWarnG 0x28 f
    r.fl.extractLsb' 0 5 &&& (noteStatus s a r.fl w).2 = 0 →
    exec (.fcvt (.g f)) s = .next (sent 0x28 f s (noted s a r.fl w) n (cvtReg x r)))

/-! ### Vector and mask opcodes (R172 to R177, R454) -/

namespace Sys2Proof.Claims
open Sys2Proof Sys2Proof.Machine

/-- Opcodes that move lanes: constructor, opcode, long latency, and the pattern that destination element `i` takes (Table 08-3, R175). -/
def laneMoves : List ((CForm → Instr) × Nat × Bool × (CForm → CEnv → Nat → Nat)) :=
  [(.vbcast, 0x40, false, fun _ e _ => e.a.toNat),
   (.vperm, 0x41, true, fun f e i => elemOf f.fmt e.va (laneOf f.fmt e.vb i % 2 ^ 32 % elems f.fmt)),
   (.vlane, 0x48, false, fun _ _ i => i),
   (.vrev, 0x51, false, fun f e i => elemOf f.fmt e.va (elems f.fmt - 1 - i)),
   (.vrot, 0x52, false, fun f e i => elemOf f.fmt e.va ((i + e.b.toNat) % elems f.fmt)),
   (.vspread, 0x47, false, fun f e i => elemOf f.fmt e.va ((activeList f.fmt e.mask).takeWhile (· ≠ i)).length)]

/-- All lanes of a format, from the value of each. -/
def allLanes (k : Nat) (v : Nat → Nat) : Vec := packLanes (stride k) ((List.range (elems k)).map v)

end Sys2Proof.Claims

/-- The lane moves complete: active elements of `D` take the moved patterns, the others are kept or zeroed. -/
def Sys2Proof.Claims.LaneMoveResult : Prop :=
  ∀ x ∈ laneMoves, ∀ (f : CForm) (s : State), Issues x.2.1 f s → oldClean f s f.fmt →
    exec (x.1 f) s = .next (completed x.2.1 f s
      (own s fun t => putV x.2.2.1 f (lanesOf f s f.fmt (x.2.2.2 f (cenv x.2.1 f s))) t) x.2.2.1)

/-- `vmerge`, `vcomp`, `vins`, `vext`, `mlog`, `mpop` and `mfirst` complete (R172, R175). -/
def Sys2Proof.Claims.LaneSelectResult : Prop :=
  (∀ (f : CForm) (s : State), Issues 0x45 f s →
    let e := cenv 0x45 f s
    exec (.vmerge f) s = .next (completed 0x45 f s (own s fun t => t.vw f.d.toNat (allLanes f.fmt fun i =>
      extendTo (stride f.fmt) f.fmt (elemOf f.fmt (if active e.mask i then e.va else e.vb) i))) false)) ∧
  (∀ (f : CForm) (s : State), Issues 0x46 f s → oldClean f s f.fmt →
    let e := cenv 0x46 f s
    let act := activeList f.fmt e.mask
    exec (.vcomp f) s = .next (completed 0x46 f s (own s fun t => t.vw f.d.toNat (allLanes f.fmt fun i =>
      match act[i]? with
      | some j => extendTo (stride f.fmt) f.fmt (elemOf f.fmt e.va j)
      | none => if zeroing f then 0 else laneOf f.fmt (s.cur.vr f.d.toNat) i)) false)) ∧
  (∀ (f : CForm) (s : State), Issues 0x49 f s →
    let e := cenv 0x49 f s
    exec (.vins f) s = .next (completed 0x49 f s (own s fun t => t.vw f.d.toNat (allLanes f.fmt fun i =>
      if i = e.b.toNat then extendTo (stride f.fmt) f.fmt (e.a.toNat % 2 ^ fmtBits f.fmt) else laneOf f.fmt (s.cur.vr f.d.toNat) i)) false)) ∧
  (∀ (f : CForm) (s : State), Issues 0x4A f s →
    let e := cenv 0x4A f s
    exec (.vext f) s = .next (completed 0x4A f s (own s fun t => t.xw f.d.toNat
      (if e.b.toNat < elems f.fmt then BitVec.ofNat 64 (extendTo 64 f.fmt (elemOf f.fmt e.va e.b.toNat)) else 0)) false)) ∧
  (∀ (f : CForm) (s : State), Issues 0x4B f s →
    let a := s.cur.mr (f.a.toNat % 8)
    let b := s.cur.mr (f.b.toNat % 8)
    exec (.mlog f) s = .next (completed 0x4B f s (own s fun t => t.mw f.d.toNat (match f.var with
      | 0 => a &&& b | 1 => a ||| b | 2 => a ^^^ b | 3 => a &&& ~~~b | _ => ~~~a)) false)) ∧
  (∀ (f : CForm) (s : State), Issues 0x4C f s →
    let hits := (activeList f.fmt (laneMask s.cur f)).filter fun i => (s.cur.mr (f.a.toNat % 8)).getLsbD i
    exec (.mpop f) s = .next (completed 0x4C f s (own s fun t => t.xw f.d.toNat (BitVec.ofNat 64 hits.length)) false)) ∧
  (∀ (f : CForm) (s : State), Issues 0x4D f s →
    let hits := (activeList f.fmt (laneMask s.cur f)).filter fun i => (s.cur.mr (f.a.toNat % 8)).getLsbD i
    exec (.mfirst f) s = .next (completed 0x4D f s (own s fun t => t.xw f.d.toNat (BitVec.ofNat 64 (hits.headD (elems f.fmt)))) false))

/-- The vector opcodes that move and select lanes complete with the lanes of Table 08-3 (R172, R175). That `vlane` writes its integer as a pattern under
every `FMT` is the model's choice (log 122). -/
def Obligations.LaneOperationResult : Prop := LaneMoveResult ∧ LaneSelectResult

namespace Sys2Proof.Claims
open Sys2Proof Sys2Proof.Machine

/-- One element of `vcmp` (R172, R454): integers by value, IEEE formats with their flags, other formats by value. -/
def vcmpElem (f : CForm) (s : State) (i : Nat) : Bool × BitVec 13 × BitVec 16 :=
  let e := cenv 0x44 f s
  let k := f.fmt
  if isIntFmt k then ((opCmp (laneArgs e k i)).1, 0, (opCmp (laneArgs e k i)).2)
  else if isIeee k then ((opFcmp (fltLane 0x44 f s k i)).1, (opFcmp (fltLane 0x44 f s k i)).2, 0)
  else
    let r := condNum f.var (valueOf k (laneOf k e.va i)).1 (valueOf k (laneOf k e.vb i)).1
    (r.1, r.2, 0)

/-- The format of a `vdot` result (R177). -/
def dotOut (f : CForm) : Nat := if isIntFmt f.fmt then (if f.sgn then 5 else 4) else 14

/-- One lane of `vdot`: the exact sum of products with the lane of `C`, rounded once. -/
def dotElem (f : CForm) (s : State) (i : Nat) : Res :=
  let e := cenv 0x50 f s
  let r := dotLane f.fmt f.sgn (laneOf 4 e.va i) (laneOf 4 e.vb i)
  let c := laneOf 4 e.vc i
  if isIntFmt f.fmt then intResult (dotOut f) f.sat ((intVal (dotOut f) (!f.sgn) c).1 + r.2.2.2)
  else
    let cv := operand 14 f.sgn c
    let t := numAdd (effRnd f.var) cv r.1
    (roundBin 14 (effRnd f.var) false f.sgn t.1).raise (r.2.2.1 ||| t.2 ||| (if r.2.1 || cv.isSnan then flNV else 0))

/-- One element of `vnarrow` or `vwiden`: the source pattern of element `i`, converted (R176). -/
def widthElem (f : CForm) (src : Nat) : Res := opFcvt (cvtArgs f.fmt src (effRnd f.var) (f.sgn && !isIntFmt f.fmt) f.sat (f.imm.toNat % 32))
def narrowSrc (f : CForm) (s : State) (i : Nat) : Nat :=
  let e := cenv 0x4E f s
  if i < 32 then elemOf (f.imm.toNat % 32) e.va i else elemOf (f.imm.toNat % 32) e.vb (i - 32)
def widenSrc (f : CForm) (s : State) (i : Nat) : Nat :=
  elemOf (f.imm.toNat % 32) (cenv 0x4F f s).va (i + (if f.imm.getLsbD 6 then 32 else 0))

end Sys2Proof.Claims

/-- `vcmp`, `vred`, `vscan`, `vnarrow`, `vwiden` and `vdot` complete where no flag they raise is enabled as an exception (R173, R174, R176, R177, R454). The mask
bits that belong to no element (log 121) and the kind of bit [45] of a width change (log 134) are the model's choices. -/
def Obligations.VectorArithmeticResult : Prop :=
  (∀ (f : CForm) (s : State), Issues 0x44 f s →
    let fl := maskFlags f s f.fmt fun i => (vcmpElem f s i).2.1
    unmasked s fl →
    ∃ m, maskOk f s f.fmt (fun i => (vcmpElem f s i).1) m ∧
      exec (.vcmp f) s = .next (completed 0x44 f s (own s fun t => (note t fl (maskWarns f s f.fmt fun i => (vcmpElem f s i).2.2)).mw f.d.toNat m) false)) ∧
  (∀ (f : CForm) (s : State), Issues 0x42 f s →
    let r := (redTree f 6 (redInputs (cenv 0x42 f s) f.fmt)).headD (none, 0, 0)
    unmasked s r.2.1 →
    exec (.vred f) s = .next (completed 0x42 f s (own s fun t => putX true f
      (match r.1 with | some p => BitVec.ofNat 64 (extendTo 64 f.fmt p) | none => 0) (note t r.2.1 r.2.2)) true)) ∧
  (∀ (f : CForm) (s : State), Issues 0x43 f s → oldClean f s f.fmt →
    let r := scanGo (cenv 0x43 f s) f (redIdent f.fmt f.var f.sgn, 0, 0) (List.range (elems f.fmt))
    unmasked s r.2.2.1 →
    exec (.vscan f) s = .next (completed 0x43 f s (own s fun t =>
      putV true f (lanesOf f s f.fmt fun i => (r.1.getD i none).getD 0) (note t r.2.2.1 r.2.2.2)) true)) ∧
  (∀ (f : CForm) (s : State), Issues 0x4E f s → oldClean f s f.fmt →
    let fw := laneFlags f s f.fmt fun i => widthElem f (narrowSrc f s i)
    unmasked s fw.1 →
    exec (.vnarrow f) s = .next (completed 0x4E f s (own s fun t =>
      (note t fw.1 fw.2).vw f.d.toNat (lanesOf f s f.fmt fun i => (widthElem f (narrowSrc f s i)).pat)) false)) ∧
  (∀ (f : CForm) (s : State), Issues 0x4F f s → oldClean f s f.fmt →
    let fw := laneFlags f s f.fmt fun i => widthElem f (widenSrc f s i)
    unmasked s fw.1 →
    exec (.vwiden f) s = .next (completed 0x4F f s (own s fun t =>
      (note t fw.1 fw.2).vw f.d.toNat (lanesOf f s f.fmt fun i => (widthElem f (widenSrc f s i)).pat)) false)) ∧
  (∀ (f : CForm) (s : State), Issues 0x50 f s → oldClean f s (dotOut f) →
    let fw := laneFlags f s (dotOut f) (dotElem f s)
    unmasked s fw.1 →
    exec (.vdot f) s = .next (completed 0x50 f s (own s fun t =>
      putV true f (lanesOf f s (dotOut f) fun i => (dotElem f s i).pat) (note t fw.1 fw.2)) true))

/-! ### Flags enabled as exceptions (R41, R155) -/

namespace Sys2Proof.Claims
open Sys2Proof Sys2Proof.Machine

/-- A bundle that raises the flags `fl`, some of them enabled, and the warnings `w`: it traps `FP_EXC` with `D` as it was, the flags and warnings are set, and
`SR.TINFO` holds the raised flags. -/
def raised (opc : Nat) (f : CForm) (s : State) (fl : BitVec 13) (w : BitVec 16) : State :=
  takeTrap (own s fun t => { note t fl (w ||| decodeWarn opc f) with issued := t.issued + 1 }) s.curThread cFP_EXC s.curPc 0 ((fl.extractLsb' 0 5).setWidth 64)

/-- A firing that made `s1` and faults its instance with a cause at an address. -/
def firingFault (f : GForm) (s s1 : State) (n : Inst) (cause : BitVec 6) (addr : Word) : State :=
  let k := leadTok n s.curNode.2 f
  faultInst s1 s.curNode.1 { cause := cause, addr := addr, node := s.curNode.2, multi := false, strm := isStrm n s.curNode.2 f, port := k.port, elem := k.idx }

/-- A firing that raises the flags `fl`, some of them enabled in its frame's status word, and the warnings `w`: they are set there, and the instance faults. -/
def raisedG (f : GForm) (s : State) (n : Inst) (a : Act) (fl : BitVec 13) (w : BitVec 16) : State :=
  firingFault f s (noteStatus s a fl w).1 n cFP_EXC 0

/-- Some raised flag is enabled in the frame's status word. -/
abbrev maskedG (s : State) (a : Act) (fl : BitVec 13) (w : BitVec 16) : Prop := fl.extractLsb' 0 5 &&& (noteStatus s a fl w).2 ≠ 0

end Sys2Proof.Claims

/-- The float opcodes, `fcmp` and `fcvt` in class R, and in class V where any active lane raises the flag. -/
def Sys2Proof.Claims.FloatBundleTraps : Prop :=
  (∀ x ∈ fltOps, ∀ (f : CForm) (s : State), Issues x.2.1 f s → f.cls ≠ 4 →
    let r := x.2.2.2 (fltReg x.2.1 f s)
    ¬ unmasked s r.fl → exec (x.1 (.c f)) s = .next (raised x.2.1 f s r.fl r.warn)) ∧
  (∀ x ∈ fltOps, ∀ (f : CForm) (s : State), Issues x.2.1 f s → f.cls = 4 → oldClean f s (fltFmt f.fmt) →
    let fw := laneFlags f s (fltFmt f.fmt) fun i => x.2.2.2 (fltLane x.2.1 f s (fltFmt f.fmt) i)
    ¬ unmasked s fw.1 → exec (x.1 (.c f)) s = .next (raised x.2.1 f s fw.1 fw.2)) ∧
  (∀ (f : CForm) (s : State), Issues 0x26 f s → f.cls ≠ 4 →
    let r := opFcmp (fltReg 0x26 f s)
    ¬ unmasked s r.2 → exec (.fcmp (.c f)) s = .next (raised 0x26 f s r.2 0)) ∧
  (∀ (f : CForm) (s : State), Issues 0x26 f s → f.cls = 4 →
    let fl := maskFlags f s (fltFmt f.fmt) fun i => (opFcmp (fltLane 0x26 f s (fltFmt f.fmt) i)).2
    ¬ unmasked s fl → exec (.fcmp (.c f)) s = .next (raised 0x26 f s fl 0)) ∧
  (∀ (f : CForm) (s : State), Issues 0x28 f s →
    let arg := fun a => cvtArgs f.fmt a (effRnd f.var) f.sgn f.sat f.imm.toNat
    let lane := fun i => arg (laneOf f.fmt (cenv 0x28 f s).va i)
    let r := cvtRes (arg (cenv 0x28 f s).a.toNat)
    let fw := if cvtScaled (arg 0) then foldRes (cvtBlock ((activeList f.fmt (laneMask s.cur f)).map lane)) else laneFlags f s f.fmt fun i => opFcvt (lane i)
    (f.cls ≠ 4 → ¬ unmasked s r.fl → exec (.fcvt (.c f)) s = .next (raised 0x28 f s r.fl r.warn)) ∧
    (f.cls = 4 → oldClean f s f.fmt → ¬ unmasked s fw.1 → exec (.fcvt (.c f)) s = .next (raised 0x28 f s fw.1 fw.2)))

/-- The vector opcodes that raise flags: `vcmp`, `vred`, `vscan`, `vnarrow`, `vwiden`, `vdot`. -/
def Sys2Proof.Claims.VectorFlagTraps : Prop :=
  ∀ (f : CForm) (s : State),
  (Issues 0x44 f s →
    let fl := maskFlags f s f.fmt fun i => (vcmpElem f s i).2.1
    ¬ unmasked s fl → exec (.vcmp f) s = .next (raised 0x44 f s fl (maskWarns f s f.fmt fun i => (vcmpElem f s i).2.2))) ∧
  (Issues 0x42 f s →
    let r := (redTree f 6 (redInputs (cenv 0x42 f s) f.fmt)).headD (none, 0, 0)
    ¬ unmasked s r.2.1 → exec (.vred f) s = .next (raised 0x42 f s r.2.1 r.2.2)) ∧
  (Issues 0x43 f s → oldClean f s f.fmt →
    let r := scanGo (cenv 0x43 f s) f (redIdent f.fmt f.var f.sgn, 0, 0) (List.range (elems f.fmt))
    ¬ unmasked s r.2.2.1 → exec (.vscan f) s = .next (raised 0x43 f s r.2.2.1 r.2.2.2)) ∧
  (Issues 0x4E f s → oldClean f s f.fmt →
    let fw := laneFlags f s f.fmt fun i => widthElem f (narrowSrc f s i)
    ¬ unmasked s fw.1 → exec (.vnarrow f) s = .next (raised 0x4E f s fw.1 fw.2)) ∧
  (Issues 0x4F f s → oldClean f s f.fmt →
    let fw := laneFlags f s f.fmt fun i => widthElem f (widenSrc f s i)
    ¬ unmasked s fw.1 → exec (.vwiden f) s = .next (raised 0x4F f s fw.1 fw.2)) ∧
  (Issues 0x50 f s → oldClean f s (dotOut f) →
    let fw := laneFlags f s (dotOut f) (dotElem f s)
    ¬ unmasked s fw.1 → exec (.vdot f) s = .next (raised 0x50 f s fw.1 fw.2))

/-- The block forms: the float opcodes, `fcmp` and `fcvt`. -/
def Sys2Proof.Claims.FloatFiringFaults : Prop :=
  ∀ (f : GForm) (s : State) (n : Inst) (a : Act),
  (∀ x ∈ fltOps, Fires x.2.1 f s n a →
    let r := x.2.2.2 (fltTok f s n a)
    let w := r.warn ||| fltWarnG x.2.1 f
    maskedG s a r.fl w → exec (x.1 (.g f)) s = .next (raisedG f s n a r.fl w)) ∧
  (Fires 0x26 f s n a →
    let r := opFcmp (fltTok f s n a)
    maskedG s a r.2 (fltWarnG 0x26 f) → exec (.fcmp (.g f)) s = .next (raisedG f s n a r.2 (fltWarnG 0x26 f))) ∧
  (Fires 0x28 f s n a →
    let r := cvtRes (cvtArgs f.fmt (fireEnv f s n a).a.toNat (effRnd f.var) f.sgn f.sat f.imm.toNat)
    let w := r.warn ||| fltWarnG 0x28 f
    maskedG s a r.fl w → exec (.fcvt (.g f)) s = .next (raisedG f s n a r.fl w))

/-- A raised flag that the thread enables as an exception traps `FP_EXC`, in a vector bundle where any active lane raises it: the flags are set, `D` keeps its
value, and `SR.TINFO` holds the raised flags; in a block it faults the instance under the enables of the frame's status word (R41, R155). -/
def Obligations.FloatExceptionTraps : Prop := FloatBundleTraps ∧ VectorFlagTraps ∧ FloatFiringFaults

/-! ### Loads, stores, prefetch and cache operations (R144 to R148, R156, R178 to R184) -/

namespace Sys2Proof.Claims
open Sys2Proof Sys2Proof.Machine

/-- The current thread as an agent: its tile, context and allotment. -/
def curAgent (s : State) : Agent := { tile := tileOf s.curThread, ctx := s.cur.ctx, allot := some s.cur.allot }

/-- An access of `n` bytes at `ea` reaches place `k`, leaving `s1`: every check of R64, R62 and translation passes, and no die or link answers for it. -/
def Reaches (s : State) (ag : Agent) (ea : Word) (n align : Nat) (need : Need) (s1 : State) (k : Nat) : Prop :=
  resolve s ag ea n align need = (s1, .ok k) ∧ errReply s1 k = false

/-- A pending fill of register `reg` (0–63 `x`, 64–95 `v`) with a value; of a load at `ea`, with the links that its request crosses (R15). -/
def fillOf (f : CForm) (reg : Nat) (v : Vec) (ea : Word := 0) (via : BitVec 21 := 0) : Fill :=
  { reg := reg, val := v, pois := none, ticket := ticketOf f, kind := .value, err := false, via := via, addr := ea }

/-- The current thread's pending fill in a state that an access has made. -/
def filled (s s1 : State) (f : CForm) (reg : Nat) (v : Vec) (ea : Word := 0) (via : BitVec 21 := 0) : State :=
  s1.modThr s.curThread fun t => t.await (fillOf f reg v ea via)

/-- The current thread's store waits for its acceptance in a state that the store has made; it crosses the links `via` to `ea`. -/
def stored (s s1 : State) (f : CForm) (ea : Word := 0) (via : BitVec 21 := 0) : State :=
  s1.modThr s.curThread fun t => { t with stores := t.stores ++ [{ ticket := ticketOf f, err := none, via := via, addr := ea }] }

/-- A release finds nothing to report and nothing to wait for (R249, R300). -/
abbrev noErrors (ord scope : Nat) (s : State) : Prop := ord = 3 → Settled scope s

/-- A load's register value from its bytes (R136, R144, R145). -/
def loadValue (k : Nat) (bs : List Byte) : Nat := extendTo 64 k (dataMask k (leNat bs))

/-- A line is dirty at byte `i` in a tile's L1. -/
def dirtyAt (t : Tile) (line i : Nat) : Bool := match Tbl.find? t.l1 line with | some l => l.dirty.getLsbD i | none => false

/-- The byte that a place holds: the newest written one, dirty in some tile's L1, else that of its home. -/
def newest (s : State) (j : Nat) : Byte :=
  match List.find? (fun kt : Nat × Tile => dirtyAt kt.2 (lineOf j) (j % 128)) s.tiles with
  | some kt => (match Tbl.find? kt.2.l1 (lineOf j) with | some l => l.data.extractLsb' (j % 128 * 8) 8 | none => 0)
  | none => Memory.read s.mem (homePlace s j)

/-- The caches are in order about a place: tables list each tile and line once, lines begin at multiples of 128, at most one tile holds the place's byte
dirty, and no other dirty byte has the same home. -/
structure CachesOk (s : State) (j : Nat) : Prop where
  tiles : s.tiles.Pairwise fun a b => a.1 < b.1
  lines : ∀ kt ∈ s.tiles, kt.2.l1.Pairwise (fun a b => a.1 < b.1) ∧ ∀ kl ∈ kt.2.l1, kl.1 % 128 = 0
  sole  : ∀ a ∈ s.tiles, ∀ b ∈ s.tiles, dirtyAt a.2 (lineOf j) (j % 128) = true → dirtyAt b.2 (lineOf j) (j % 128) = true → a.1 = b.1
  homes : ∀ a ∈ s.tiles, ∀ d, dirtyAt a.2 (lineOf d) (d % 128) = true → d ≠ j → homePlace s d ≠ homePlace s j

/-- Vector loads and stores: constructor, opcode and the address of an element (R179 to R181); for stores also the data vector. -/
def vecLoads : List ((CForm → Instr) × Nat × (CEnv → Nat → Word)) := [(.vld, 0x62, addrUnit), (.vgat, 0x64, addrIndex), (.vlds, 0x66, addrStride)]
def vecStores : List ((CForm → Instr) × Nat × (CEnv → Nat → Word) × (CEnv → Vec)) :=
  [(.vst, 0x63, addrUnit, (·.vb)), (.vsct, 0x65, addrIndex, (·.vc)), (.vsts, 0x67, addrStride, (·.vc))]

/-- The packed form's own alignment of R178. -/
def packedAligned (f : CForm) (e : CEnv) : Prop := isPacked f.fmt = true → (e.a + f.simm).toNat % 4 = 0

/-- The elements that a vector load reads, in ascending order, each at its place or places. -/
def readElements (f : CForm) (tile : Nat) (s : State) (l : List (VAcc × List Nat)) : State × Tbl Nat :=
  l.foldl (fun acc ak =>
    if elemErr acc.1 ak.2 then acc else
    let x := loadElem acc.1 tile (ldOrd f.ord f.scope) f.scope ak.1 ak.2
    (x.1, Tbl.set acc.2 ak.1.i (unpackElem f.fmt ak.1.i x.2))) (s, [])

/-- The elements that a vector store of the agent `ag` of thread `k` writes, in ascending order, so that the highest wins (R182); those in the fault
records are ignored with a warning (R281). A scratchpad line that another bank has taken meanwhile is filled again first (R73). -/
def writeElements (f : CForm) (ag : Agent) (k : Nat) (v : Vec) (s : State) (l : List (VAcc × List Nat)) : State :=
  l.foldl (fun s ak =>
    if elemRecord ak.2 then addWarn s k wPRIV
    else if elemErr s ak.2 then s
    else
    let s := ak.2.foldl (refill · ag) s
    let old := if isPacked f.fmt then oldElem s (tileOf k) f.scope ak.1 ak.2 else (s, [])
    storeElem old.1 (tileOf k) (stOrd f.ord f.scope) f.scope (packElem f.fmt ak.1.i (elemOf f.fmt v ak.1.i) old.2) ak.2) s

/-- The address of the first active element, which an error reply of a vector access gives. -/
def firstEa (l : List (VAcc × List Nat)) : Word := match l with | ak :: _ => ak.1.ea | [] => 0

end Sys2Proof.Claims

/-- `ld` completes: the bytes at the place of `xr(A) + imm44()` fill `D`, by R136 and R145. -/
def Sys2Proof.Claims.LoadResult : Prop :=
  ∀ (f : CForm) (s s1 : State) (k : Nat), Issues 0x60 f s →
    let ea := (cenv 0x60 f s).a + f.simm
    let ord := ldOrd f.ord f.scope
    Reaches s ((curAgent s).at ord f.scope) ea (accSize f.fmt) (accSize f.fmt) .rd s1 k → poisoned s1 k (accSize f.fmt) = false →
    let r := readAt s1 (tileOf s.curThread) k (accSize f.fmt) ord f.scope
    exec (.ld (.c f)) s = .next (completed 0x60 f s
      (filled s r.1 f f.d.toNat (BitVec.ofNat 2048 (loadValue f.fmt r.2)) ea (viaOf s1 (tileOf s.curThread) k)) true)

/-- A load whose checks pass and which a closed path, a stopped stack or a spent meter keeps from its place issues all the same: its ticket is taken, `D` is empty, and the thread
goes on with its request held (R365). -/
def Sys2Proof.Claims.HeldLoad : Prop :=
  ∀ (f : CForm) (s s1 s2 : State) (k : Nat), Issues 0x60 f s →
    let ea := (cenv 0x60 f s).a + f.simm
    let ag := (curAgent s).at (ldOrd f.ord f.scope) f.scope
    resolve s ag ea (accSize f.fmt) (accSize f.fmt) .rd = (s1, .error .hold) →
    resolve s1 { ag with free := true } ea (accSize f.fmt) (accSize f.fmt) .rd = (s2, .ok k) →
    exec (.ld (.c f)) s = .next ((completed 0x60 f s s1 true).modThr s.curThread fun t => t.holdReq { opc := 0x60, env := cenv 0x60 f s })

/-- `st` completes: the low bytes of `xr(B)` are written at the place of `xr(A) + imm44()` (R147), but into the fault records nothing is written and
`SR.WARN.PRIV` is set (R281); a `.rel` store first has no error to report (R249). -/
def Sys2Proof.Claims.StoreResult : Prop :=
  ∀ (f : CForm) (s s1 : State) (k : Nat), Issues 0x61 f s → noErrors (stOrd f.ord f.scope) f.scope s →
    let ea := (cenv 0x61 f s).a + f.simm
    let ord := stOrd f.ord f.scope
    Reaches s ((curAgent s).at ord f.scope) ea (accSize f.fmt) (accSize f.fmt) .wr s1 k →
    (recordStore k = false →
      let s2 := writeAt s1 (tileOf s.curThread) k (natLe (accSize f.fmt) (dataMask f.fmt (cenv 0x61 f s).b.toNat)) ord f.scope
      exec (.st (.c f)) s = .next (completed 0x61 f s (stored s s2 f ea (viaOf s2 (tileOf s.curThread) k)) true)) ∧
    (recordStore k = true → exec (.st (.c f)) s = .next (completed 0x61 f s (stored s (addWarn s1 s.curThread wPRIV) f) true))

/-- `ld` and `st` complete: `D` fills with the bytes read, and the low bytes of `B` are written (R136, R144, R145, R147); a load that cannot go out yet issues
with `D` empty (R365). That the bytes are read and written as soon as the bundle issues is the model's choice (log 5). -/
def Obligations.ScalarMemoryResult : Prop := LoadResult ∧ HeldLoad ∧ StoreResult

/-- A context with the HBM meters of its allotments left out. -/
def Sys2Proof.Claims.unmetered (c : Ctx) : Ctx := { c with allots := c.allots.map fun ja => (ja.1, { ja.2 with mHbm := 0 }) }

/-- What `st` leaves as it was: every register, flag and special register of every thread, everything of a tile but its cached lines, its
translations and the marks of its mapped lines, the device, contexts but for the bytes counted against their HBM budgets (R370), kernels and frames; and every byte of memory whose home is not a stored one, read as the newest value written there. The stored bytes start at the place that the access reaches. -/
def Obligations.StoreFrame : Prop :=
  ∀ (f : CForm) (s s1 t : State) (k : Nat), Issues 0x61 f s → noErrors (stOrd f.ord f.scope) f.scope s →
    Reaches s ((curAgent s).at (stOrd f.ord f.scope) f.scope) ((cenv 0x61 f s).a + f.simm) (accSize f.fmt) (accSize f.fmt) .wr s1 k →
    recordStore k = false →
    exec (.st (.c f)) s = .next t →
    (∀ j ≠ s.curThread, t.thr j = s.thr j) ∧
    (let u := t.thr s.curThread
     u = { s.cur with stores := u.stores, warn := u.warn, hold := u.hold, issued := u.issued, pc := u.pc, tickets := u.tickets }) ∧
    (∀ n, let a := t.tile n
      a = { s.tile n with l1 := a.l1, tlb := a.tlb, spFilled := a.spFilled, spDirty := a.spDirty }) ∧
    (t.dev, t.links, t.dierst, t.funcs, t.peers, t.fw, t.queues) = (s.dev, s.links, s.dierst, s.funcs, s.peers, s.fw, s.queues) ∧
    (∀ n, unmetered (t.ctx n) = unmetered (s.ctx n)) ∧
    (t.kernels, t.tasks, t.colls) = (s.kernels, s.tasks, s.colls) ∧ (t.acts, t.insts, t.transit) = (s.acts, s.insts, s.transit) ∧
    ∀ j, (∀ i < accSize f.fmt, homePlace s1 j ≠ homePlace s1 (k + i)) → CachesOk s1 j → newest t j = newest s1 j

/-- The vector loads complete: with every active element's access allowed and unpoisoned, the register fills with the elements read, the others kept or
zeroed (R178, R183). -/
def Sys2Proof.Claims.VectorLoadResult : Prop :=
  ∀ x ∈ vecLoads, ∀ (f : CForm) (s s1 : State) (l : List (VAcc × List Nat)), Issues x.2.1 f s → oldClean f s f.fmt →
    let e := cenv x.2.1 f s
    packedAligned f e → checkElems s ((curAgent s).at (ldOrd f.ord f.scope) f.scope) (isPacked f.fmt) .rd (vaccs e (x.2.2 e)) = (s1, .ok l) →
    (∀ ak ∈ l, elemErr s1 ak.2 = false) →
    (∀ ak ∈ l, elemPoisoned s1 ak.1 ak.2 = false) →
    let r := readElements f (tileOf s.curThread) s1 l
    let s2 := if ldOrd f.ord f.scope = 2 then acquireAt r.1 (tileOf s.curThread) f.scope else r.1
    exec (x.1 f) s = .next (completed x.2.1 f s (filled s s2 f (64 + f.d.toNat) (lanesOf f s f.fmt fun i => Tbl.get r.2 0 i)
      (firstEa l) (elemsVia s1 (tileOf s.curThread) l)) true)

/-- The vector stores complete: the active elements are written in ascending order, none of them into the fault records (R178, R182, R281). -/
def Sys2Proof.Claims.VectorStoreResult : Prop :=
  ∀ x ∈ vecStores, ∀ (f : CForm) (s s1 : State) (l : List (VAcc × List Nat)), Issues x.2.1 f s → noErrors (stOrd f.ord f.scope) f.scope s →
    let e := cenv x.2.1 f s
    packedAligned f e → checkElems s ((curAgent s).at (stOrd f.ord f.scope) f.scope) (isPacked f.fmt) .wr (vaccs e (x.2.2.1 e)) = (s1, .ok l) →
    let s2 := if stOrd f.ord f.scope = 3 ∧ l ≠ [] then releaseAt s1 (tileOf s.curThread) f.scope else s1
    (∀ ak ∈ l, elemErr s2 ak.2 = false) →
    exec (x.1 f) s = .next (completed x.2.1 f s
      (stored s (writeElements f (curAgent s) s.curThread (x.2.2.2 e) s2 l) f (firstEa l) (elemsVia s2 (tileOf s.curThread) l)) true)

/-- The vector loads and stores complete: the active elements are read or written in ascending order (R178 to R183). That they are as soon as the bundle issues is the model's
choice (log 5). -/
def Obligations.VectorMemoryResult : Prop := VectorLoadResult ∧ VectorStoreResult

/-- `prf`, `cwb` and `cinv` complete: `prf` never traps (R148); the others write back, or also drop, the tile's copies of the range's lines in W0, and do
nothing in another window (R184). They wait only for a line's way home (R15, R411). -/
def Obligations.PrefetchAndCacheResult : Prop :=
  (∀ (f : CForm) (s : State), Issues 0x68 f s →
    exec (.prf (.c f)) s = .next (completed 0x68 f s (prefetch s (curAgent s) ((cenv 0x68 f s).a + f.simm) f.nt) false)) ∧
  (∀ (f : GForm) (s : State) (n : Inst) (a : Act), Fires 0x68 f s n a →
    let e := fireEnv f s n a
    let w := (if f.ord ≠ 0 || f.scope ≠ 0 then wORDR else 0) ||| rsvG 0x68 f
    exec (.prf (.g f)) s = .next (silent 0x68 f s
      (prefetch (noteStatus s a 0 w).1 e.agent (e.a + e.b) (f.var % 2 = 1)) n)) ∧
  (∀ x ∈ [((Instr.cwb : CForm → Instr), 0x69, false), (.cinv, 0x6A, true)], ∀ (f : CForm) (s : State), Issues x.2.1 f s →
    let e := cenv x.2.1 f s
    let ea := e.a + f.simm
    let lines := (min (ea.toNat + e.b.toNat) (2 ^ 56) + 127) / 128 - ea.toNat / 128
    let r := backLines s (curAgent s) x.2.2 (ea.toNat / 128 * 128) lines
    (e.b ≠ 0 → windowOf ea.toNat = some .w0 → r.2 = false →
      exec (x.1 f) s = .next (completed x.2.1 f s (stored s r.1 f) true)) ∧
    (e.b = 0 ∨ (windowOf ea.toNat ≠ none ∧ windowOf ea.toNat ≠ some .w0) →
      exec (x.1 f) s = .next (completed x.2.1 f s (stored s s f) true)))

/-- Loads, stores and reads of a block complete: an unfaulted load sends the bytes it sees, its instance's and its predecessors' buffered stores over
memory; a store is buffered until commit, but one into the fault records only warns (R156, R199, R200, R281). -/
def Obligations.BlockMemoryResult : Prop :=
  (∀ (f : GForm) (s s1 : State) (n : Inst) (a : Act) (k : Nat), Fires 0x60 f s n a →
    let e := fireEnv f s n a
    let ea := e.a + e.b
    loadMayFire n s.curNode.2 a.tile ea (accSize f.fmt) = true →
    Reaches (noteStatus s a 0 (memWarnG true f)).1 (e.agent.at (ldOrd f.ord f.scope) f.scope) ea (accSize f.fmt) (accSize f.fmt) .rd s1 k →
    poisoned s1 k (accSize f.fmt) = false →
    let r := readAt s1 a.tile k (accSize f.fmt) (ldOrd f.ord f.scope) f.scope
    exec (.ld (.g f)) s = .next (sent 0x60 f s r.1 n
      (BitVec.ofNat 64 (loadValue f.fmt (overlayStores r.1 (visibleStores r.1 s.curNode.1 n s.curNode.2) k r.2))))) ∧
  (∀ (f : GForm) (s s1 : State) (n : Inst) (a : Act) (k : Nat), Fires 0x61 f s n a →
    let e := fireEnv f s n a
    let ea := e.a + e.c
    resolve (noteStatus s a 0 (memWarnG false f)).1 (e.agent.at (stOrd f.ord f.scope) f.scope) ea (accSize f.fmt) (accSize f.fmt) .wr = (s1, .ok k) →
    exec (.st (.g f)) s = .next (silent 0x61 f s
      (if recordStore k then (noteStatus s1 a 0 wPRIV).1
       else bufferStore e s1 0x61 ea k (natLe (accSize f.fmt) (dataMask f.fmt e.b.toNat)) (accSize f.fmt) (stOrd f.ord f.scope) f.scope) n))

/-- A store to a scratchpad or a vault writes exactly its bytes: memory then reads them from the place on, and every other place of memory is unchanged. That memory holds them as soon as
the bundle issues is the model's choice (log 5). -/
def Obligations.OnTileStoreBytes : Prop :=
  ∀ (f : CForm) (s s1 t : State) (k : Nat), Issues 0x61 f s → stOrd f.ord f.scope ≠ 3 → f.fmt ≤ 23 → Memory.wf s1.mem = true →
    Reaches s ((curAgent s).at (stOrd f.ord f.scope) f.scope) ((cenv 0x61 f s).a + f.simm) (accSize f.fmt) (accSize f.fmt) .wr s1 k → recordStore k = false →
    (∀ i < accSize f.fmt, isOnTile (k + i) = true ∧ Tbl.find? s1.mapped (lineOf (k + i)) = none) →
    exec (.st (.c f)) s = .next t →
    Memory.readN t.mem k (accSize f.fmt) = natLe (accSize f.fmt) (dataMask f.fmt (cenv 0x61 f s).b.toNat) ∧
    ∀ j, j < k ∨ k + accSize f.fmt ≤ j → Memory.read t.mem j = Memory.read s1.mem j

/-! ### Atomics, fences, sync words, counters, semaphores, barriers (R223 to R238) -/

namespace Sys2Proof.Claims
open Sys2Proof Sys2Proof.Machine

/-- The new word of `amo`, and of `cas` (none: nothing is written), from the old one (R224, R225). -/
def amoWord (f : CForm) (b : Word) (old : Nat) : Option Nat := some (amoNew f.fmt f.var old (b.toNat % 2 ^ fmtBits f.fmt))
def casWord (f : CForm) (b c : Word) (old : Nat) : Option Nat :=
  if old = b.toNat % 2 ^ fmtBits f.fmt then some (c.toNat % 2 ^ fmtBits f.fmt) else none

/-- The instance may perform the irrevocable instruction (R201), and is marked so. -/
def mayNow (s : State) (n : Inst) : Prop := irrevMayFire s s.curNode.1 n s.curNode.2 = true
def irrevocably (s s1 : State) : State := s1.modInst s.curNode.1 fun m => { m with irrev := true }

/-- Nothing keeps back an atomic that has been checked to a place: a link leads to the device that owns its page (R411), and at system scope over the host
port no earlier write of its agent is still due (R418). -/
def atomicFree (s s1 : State) (k scope : Nat) : Prop :=
  peerHeld s1 k scope = false ∧ (overHost k scope = true → writesDue s1 s.curThread (tileOf s.curThread) = false)
def atomicFreeG (a : Act) (s1 : State) (k scope : Nat) : Prop :=
  peerHeld s1 k scope = false ∧ (overHost k scope = true → drainHeld s1 a.tile (fun _ => true) = false)

/-- Release and acquire parts of an access by its order and scope. -/
def released (s : State) (tile ord scope : Nat) : State := if ord = 3 then releaseAt s tile scope else s

end Sys2Proof.Claims

/-- `amo` and `cas` complete, in a bundle and in a block: the old word fills `D`, or is sent, and the new word is written at the place where the atomic
executes (R81, R224 to R226); into the fault records nothing is written and a warning is set (R281). At system scope on a page that another device owns it
executes there, with its release and acquire parts here, and the old word is free (R300, R302, log 17). That a fault record counts as a store's target here
is the model's reading (log 51). -/
def Obligations.AtomicResult : Prop :=
  (∀ (f : CForm) (s s1 : State) (k : Nat),
    ∀ x ∈ [((fun f => Instr.amo (.c f)), 0x70, amoWord f (cenv 0x70 f s).b), ((fun f => Instr.cas (.c f)), 0x71, casWord f (cenv 0x71 f s).b (cenv 0x71 f s).c)],
    Issues x.2.1 f s → noErrors f.ord f.scope s →
    let ea := (cenv x.2.1 f s).a + f.simm
    let tile := tileOf s.curThread
    let word := fun old => BitVec.ofNat 2048 (extendTo 64 f.fmt old)
    resolveAt (f.scope ≠ 3) s ((curAgent s).at 1 f.scope) ea (accSize f.fmt) (accSize f.fmt) .rw = (s1, .ok k) → errReply s1 k = false →
    (f.scope = 3 → elsewhere s1 k = false) → atomicFree s s1 k f.scope → poisoned s1 k (accSize f.fmt) = false →
    let s2 := if recordStore k then addWarn s1 s.curThread wPRIV else s1
    let r := rmw s2 tile k (accSize f.fmt) f.ord f.scope x.2.2
    exec (x.1 f) s = .next (completed x.2.1 f s (filled s r.1 f f.d.toNat (word r.2) ea (viaOf s2 tile k)) true)) ∧
  (∀ (f : CForm) (s s1 : State) (k : Nat), ∀ x ∈ [((fun f => Instr.amo (.c f)), 0x70), ((fun f => Instr.cas (.c f)), 0x71)],
    Issues x.2 f s → noErrors f.ord f.scope s → f.scope = 3 →
    let ea := (cenv x.2 f s).a + f.simm
    let tile := tileOf s.curThread
    resolveAt false s ((curAgent s).at 1 3) ea (accSize f.fmt) (accSize f.fmt) .rw = (s1, .ok k) → errReply s1 k = false → elsewhere s1 k = true →
    atomicFree s s1 k f.scope →
    ∃ old < 2 ^ (8 * accSize f.fmt), exec (x.1 f) s = .next (completed x.2 f s
      (filled s (peerAtomic s1 tile k f.ord) f f.d.toNat (BitVec.ofNat 2048 (extendTo 64 f.fmt old)) ea (viaOf s1 tile k)) true)) ∧
  (∀ (f : GForm) (s s1 : State) (n : Inst) (a : Act) (k : Nat),
    let e := fireEnv f s n a
    let m := 2 ^ fmtBits f.fmt
    ∀ x ∈ [((fun f => Instr.amo (.g f)), 0x70, fun old => some (amoNew f.fmt f.var old (e.b.toNat % m))),
           ((fun f => Instr.cas (.g f)), 0x71, fun old => if old = e.b.toNat % m then some (e.c.toNat % m) else none)],
    Fires x.2.1 f s n a → mayNow s n →
    resolveAt (f.scope ≠ 3) (noteStatus s a 0 (rsvG x.2.1 f)).1 (e.agent.at 1 f.scope) e.a (accSize f.fmt) (accSize f.fmt) .rw = (s1, .ok k) →
    errReply s1 k = false → (f.scope = 3 → elsewhere s1 k = false) → atomicFreeG a s1 k f.scope → poisoned s1 k (accSize f.fmt) = false →
    let r := rmw (if recordStore k then (noteStatus s1 a 0 wPRIV).1 else s1) a.tile k (accSize f.fmt) f.ord f.scope x.2.2
    exec (x.1 f) s = .next (sent x.2.1 f s (irrevocably s r.1) n (BitVec.ofNat 64 (extendTo 64 f.fmt r.2))))

/-- `fence` and `pub` complete: the release part writes the tile's copies back, the acquire part drops its stale copies (R227, R228, R300); in a block
the release part is buffered until commit, and both wait for the loads of lower `LSID` (R200). -/
def Obligations.FenceResult : Prop :=
  (∀ (f : CForm) (s : State), Issues 0x72 f s → Settled (if fenceRel f.ord then f.scope else 0) s →
    let s1 := if fenceRel f.ord then releaseAt s (tileOf s.curThread) f.scope else s
    exec (.fence (.c f)) s = .next (completed 0x72 f s (if fenceAcq f.ord then acquireAt s1 (tileOf s.curThread) f.scope else s1) false)) ∧
  (∀ (f : GForm) (s : State) (n : Inst) (a : Act), Fires 0x72 f s n a → fenceMayFire n s.curNode.2 = true →
    let s1 := if fenceAcq f.ord then acquireAt s a.tile f.scope else s
    exec (.fence (.g f)) s = .next (silent 0x72 f s
      (if fenceRel f.ord then bufferStore (fireEnv f s n a) s1 0x72 0 0 [] 0 f.ord f.scope else s1) n)) ∧
  (∀ (f : CForm) (s s1 : State) (k : Nat), Issues 0x73 f s → Quiet s.cur →
    let e := cenv 0x73 f s
    (e.b = 0 → exec (.pub (.c f)) s = .next (completed 0x73 f s (stored s s f) true)) ∧
    let r := pubLines s1 (curAgent s) (f.ord = 2) (e.a + f.simm) e.b.toNat
    (e.b ≠ 0 → resolve s (curAgent s) (e.a + f.simm) 1 1 (pubNeed f.ord) = (s1, .ok k) → r.2 = false →
      exec (.pub (.c f)) s = .next (completed 0x73 f s (stored s r.1 f) true))) ∧
  (∀ (f : GForm) (s s1 : State) (n : Inst) (a : Act) (k : Nat), Fires 0x73 f s n a → fenceMayFire n s.curNode.2 = true →
    let e := fireEnv f s n a
    (e.b = 0 → exec (.pub (.g f)) s = .next (silent 0x73 f s s n)) ∧
    let r := pubLines s1 e.agent true e.a e.b.toNat
    (e.b ≠ 0 → resolve s e.agent e.a 1 1 (pubNeed f.ord) = (s1, .ok k) → (f.ord = 2 → r.2 = false) →
      exec (.pub (.g f)) s = .next (silent 0x73 f s
        (if f.ord = 2 then r.1 else bufferStore e s1 0x73 e.a k [] e.b.toNat f.ord f.scope) n)))

/-- `syn.post`, `syn.read` and `syn.wait` complete: a post raises TARGET and applies the advance test; a read fills `D` with GEN; a wait whose GEN has
changed goes on with an acquire, at device scope whatever `SCOPE` it names, which is the model's choice (log 93), and another holds the thread (R229 to
R231). -/
def Obligations.SyncWordResult : Prop :=
  (∀ (f : CForm) (s s1 : State) (k : Nat) (w : BitVec 128), Issues 0x74 f s → noErrors f.ord f.scope s →
    let e := cenv 0x74 f s
    synPlace s (curAgent s) e.a .rw = (s1, .ok k) → errReply s1 k = false → poisoned s1 k 16 = false → synPostW (synRead s1 k) (e.b + f.simm).toNat = some w →
    let s2 := synWrite (released s1 (tileOf s.curThread) f.ord f.scope) k w
    exec (.synPost (.c f)) s = .next (completed 0x74 f s (if f.ord = 2 then acquireAt s2 (tileOf s.curThread) f.scope else s2) false)) ∧
  (∀ (f : GForm) (s s1 : State) (n : Inst) (a : Act) (k : Nat) (w : BitVec 128), Fires 0x74 f s n a → mayNow s n →
    let e := fireEnv f s n a
    synPlace s e.agent e.a .rw = (s1, .ok k) → errReply s1 k = false → poisoned s1 k 16 = false → synPostW (synRead s1 k) e.b.toNat = some w →
    let s2 := synWrite (released s1 a.tile f.ord f.scope) k w
    exec (.synPost (.g f)) s = .next (sent 0x74 f s (irrevocably s (if f.ord = 2 then acquireAt s2 a.tile f.scope else s2)) n 0)) ∧
  (∀ (f : CForm) (s s1 : State) (k : Nat), Issues 0x76 f s → synPlace s (curAgent s) ((cenv 0x76 f s).a + f.simm) .rd = (s1, .ok k) →
    errReply s1 k = false → poisoned s1 k 16 = false →
    exec (.synRead (.c f)) s = .next (completed 0x76 f s
      (filled s (if 2 ≤ f.ord then acquireAt s1 (tileOf s.curThread) f.scope else s1) f f.d.toNat (((synGen (synRead s1 k)).setWidth 64).setWidth 2048)) true)) ∧
  (∀ (f : GForm) (s s1 : State) (n : Inst) (a : Act) (k : Nat), Fires 0x76 f s n a →
    let e := fireEnv f s n a
    loadMayFire n s.curNode.2 a.tile e.a 16 = true → synPlace s e.agent e.a .rd = (s1, .ok k) → errReply s1 k = false → poisoned s1 k 16 = false →
    let bs := overlayStores s1 (visibleStores s1 s.curNode.1 n s.curNode.2) k (Memory.readN s1.mem k 16)
    exec (.synRead (.g f)) s = .next (sent 0x76 f s (if 2 ≤ f.ord then acquireAt s1 a.tile f.scope else s1) n
      ((synGen (BitVec.ofNat 128 (leNat bs))).setWidth 64))) ∧
  (∀ (f : CForm) (s s1 : State) (k : Nat), Issues 0x75 f s →
    let e := cenv 0x75 f s
    let v := (e.b + f.simm).setWidth 24
    synPlace s (curAgent s) e.a .rd = (s1, .ok k) → errReply s1 k = false → poisoned s1 k 16 = false →
    exec (.synWait f) s = .next (completed 0x75 f s
      (if synGen (synRead s1 k) ≠ v then acquireDevice s1 (tileOf s.curThread)
       else s1.modThr s.curThread fun t => { t with wait := .syn e.a v }) false))

/-- `ctr.add` and `ctr.wait` complete (R232, R233): the value is added, at the place or at the device that owns it, or arrives at a sync word; a counter that
has reached the value lets the thread go on, with an acquire at device scope whatever `ORD` and `SCOPE` it names, which is the model's choice (log 93), and
another holds it. -/
def Obligations.CounterResult : Prop :=
  (∀ (f : CForm) (s s1 : State) (k : Nat), Issues 0x78 f s → noErrors f.ord f.scope s →
    let e := cenv 0x78 f s
    let arr := f.imm.getLsbD 43
    ctrPlace s ((curAgent s).at 1 f.scope) e.a arr f.scope = (s1, .ok k) → errReply s1 k = false →
    let there := decide (f.scope = 3) && elsewhere s1 k
    atomicFree s s1 k f.scope → (there = false → poisoned s1 k (if arr then 16 else 8) = false) →
    exec (.ctrAdd (.c f)) s = .next (completed 0x78 f s
      (if there then peerAtomic s1 (tileOf s.curThread) k f.ord else ctrApply s1 (tileOf s.curThread) k (ctrValue e.b f.imm) arr f.ord f.scope) false)) ∧
  (∀ (f : GForm) (s s1 : State) (n : Inst) (a : Act) (k : Nat), Fires 0x78 f s n a → mayNow s n →
    let e := fireEnv f s n a
    let arr := e.c.getLsbD 0
    ctrPlace s (e.agent.at 1 f.scope) e.a arr f.scope = (s1, .ok k) → errReply s1 k = false →
    let there := decide (f.scope = 3) && elsewhere s1 k
    atomicFreeG a s1 k f.scope → (there = false → poisoned s1 k (if arr then 16 else 8) = false) →
    exec (.ctrAdd (.g f)) s = .next (sent 0x78 f s
      (irrevocably s (if there then peerAtomic s1 a.tile k f.ord else ctrApply s1 a.tile k e.b arr f.ord f.scope)) n 0)) ∧
  (∀ (f : CForm) (s s1 : State) (k : Nat), Issues 0x77 f s →
    let e := cenv 0x77 f s
    let v := e.b + f.simm
    let tile := tileOf s.curThread
    resolve s ((curAgent s).at 1 f.scope) e.a 8 8 .rd = (s1, .ok k) → errReply s1 k = false → poisoned s1 k 8 = false →
    let s2 := if 2 ≤ f.scope ∧ isOnTile k = false then recallHome s1 k else s1
    exec (.ctrWait f) s = .next (completed 0x77 f s
      (if v.toNat ≤ leNat (placeView s2 tile k 8 f.scope) then acquireDevice s2 tile
       else s2.modThr s.curThread fun t => { t with wait := .ctr e.a v f.scope (some k) s2.dev.hubNs }) false))

/-- `sem.sig`, `sem.wait`, `bar.arr`, `bar.wait`, `gbar.arr` and `gbar.wait` complete where they need not wait (R234 to R236, R388 to R392): the count moves by
one; an arrival is recorded, once what its tile has to write back has its way home (R15); a participant that has not arrived passes. -/
def Sys2Proof.Claims.SemaphoreAndBarrierResult : Prop :=
  (∀ (f : CForm) (s : State), Issues 0x79 f s →
    let tile := tileOf s.curThread
    let j := ((cenv 0x79 f s).a + f.simm).toNat % 32
    let c := getV (s.tile tile).sems 0 j
    c < 2 ^ 20 - 1 → semQueue s tile j true = [] →
    exec (.semSig f) s = .next (completed 0x79 f s (s.modTile tile fun t => { t with sems := Machine.putV t.sems j (c + 1) }) false)) ∧
  (∀ (f : CForm) (s : State), Issues 0x7A f s →
    let tile := tileOf s.curThread
    let j := ((cenv 0x7A f s).a + f.simm).toNat % 32
    let c := getV (s.tile tile).sems 0 j
    0 < c → semQueue s tile j false = [] →
    exec (.semWait f) s = .next (completed 0x7A f s (s.modTile tile fun t => { t with sems := Machine.putV t.sems j (c - 1) }) false)) ∧
  (∀ (f : CForm) (s : State), Issues 0x7B f s → s.cur.member = true →
    let b := ((cenv 0x7B f s).a + f.simm).toNat % 16
    s.curThread ∉ (barOf s (tileOf s.curThread) b).arrived →
    exec (.barArr f) s = .next (completed 0x7B f s (barArrive s s.curThread b) false)) ∧
  (∀ (f : CForm) (s : State), Issues 0x7C f s →
    let b := ((cenv 0x7C f s).a + f.simm).toNat % 16
    s.curThread ∉ (barOf s (tileOf s.curThread) b).arrived →
    exec (.barWait f) s = .next (completed 0x7C f s s false)) ∧
  (∀ (f : CForm) (s : State) (kn rank : Nat), Issues 0x7D f s → s.cur.member = true → groupOf s s.curThread = some (kn, rank) →
    let g := ((cenv 0x7D f s).a + f.simm).toNat % 4
    let s1 := settleGbar (releaseDevice s (tileOf s.curThread)) kn rank g
    drainHeld s (tileOf s.curThread) (fun _ => true) = false → rank ∉ (gbarOf s1 kn g).arrived →
    exec (.gbarArr f) s = .next (completed 0x7D f s (gbarArrive s1 kn rank g) false)) ∧
  (∀ (f : CForm) (s : State) (kn rank : Nat), Issues 0x7D f s → s.cur.member = true → groupOf s s.curThread = some (kn, rank) →
    let g := ((cenv 0x7D f s).a + f.simm).toNat % 4
    let s1 := settleGbar s kn rank g
    rank ∉ (gbarOf s1 kn g).arrived →
    exec (.gbarWait f) s = .next (completed 0x7D f s (acquireDevice s1 (tileOf s.curThread)) false))

/-- A tile barrier closes with its last arrival: the generation advances and no arrival is kept; an earlier one only records the participant (R390). -/
def Sys2Proof.Claims.BarrierCloses : Prop :=
  ∀ (s : State) (k b : Nat), b < 16 →
    let x := barOf s (tileOf k) b
    let y := barOf (barArrive s k b) (tileOf k) b
    (x.arrived.length + 1 = members s (tileOf k) → y.gen = x.gen + 1 ∧ y.arrived = []) ∧
    (x.arrived.length + 1 ≠ members s (tileOf k) → y.gen = x.gen ∧ y.arrived = x.arrived ++ [k])

/-- The semaphore and barrier opcodes complete, and the last arrival of a barrier closes it (R234 to R236, R388 to R392). -/
def Obligations.SemaphoreAndBarrierRules : Prop := SemaphoreAndBarrierResult ∧ BarrierCloses

/-- `cmode.coh`, `cmode.soft` and `tfence` complete (R237, R238): every region of an allowed range switches between a release and an acquire; the tile's
translations of the context go, with its part in the walks that run and in the lines that they are to bring. -/
def Obligations.CoherenceModeResult : Prop :=
  (∀ x ∈ [((Instr.cmodeCoh : CForm → Instr), false), (.cmodeSoft, true)], ∀ (f : CForm) (s s1 : State) (ps : List Nat), Issues 0x7E f s →
    let e := cenv 0x7E f s
    let tile := tileOf s.curThread
    (e.b = 0 → exec (x.1 f) s = .next (completed 0x7E f s s false)) ∧
    (e.b ≠ 0 → windowOf e.a.toNat = some .w0 → e.a.toNat + e.b.toNat ≤ 2 ^ 56 →
      cmodeCheck s (curAgent s) e.a (regionVas e.a.toNat e.b.toNat) = (s1, .ok ps) → cmodeHeld s1 tile f.scope ps = false →
      let s2 := acquireAt (releaseAt s1 tile f.scope) tile f.scope
      let s3 := ps.foldl (fun s' p => switchRegion s' s.curThread x.2 p) s2
      exec (x.1 f) s = .next (completed 0x7E f s (acquireAt (releaseAt s3 tile f.scope) tile f.scope) false))) ∧
  (∀ (f : CForm) (s : State), Issues 0x7F f s →
    ∃ s1, exec (.tfence f) s = .next (completed 0x7F f s s1 false) ∧
      (s1.tile (tileOf s.curThread)).tlb = (s.tile (tileOf s.curThread)).tlb.filter (fun x => x.ctx ≠ s.cur.ctx) ∧
      (∀ w ∈ s1.walks, w.ctx = s.cur.ctx → tileOf s.curThread ∉ w.tiles ∧ (∀ l ∈ w.lines, l.tile ≠ tileOf s.curThread) ∧
        ∀ x ∈ w.waiting, x.1 ≠ tileOf s.curThread) ∧
      s1 = { s with tiles := s1.tiles, walks := s1.walks } ∧ ∀ n ≠ tileOf s.curThread, s1.tile n = s.tile n)

/-! ### Control flow (R149 to R159, R241) -/

namespace Sys2Proof.Claims
open Sys2Proof Sys2Proof.Machine

/-- The registers are full and not poisoned in the current thread's view of a state. -/
def Readable (s s1 : State) (rs : List Nat) : Prop :=
  ∀ r ∈ rs, (s1.thr s.curThread).isFull r = true ∧ Tbl.find? (s1.thr s.curThread).pois r = none

/-- A bundle after which its thread does not go on: it counts as issued and its decode warnings are set. -/
def endedAt (opc : Nat) (f : CForm) (s s1 : State) : State :=
  s1.modThr s.curThread fun t => { t with warn := t.warn ||| decodeWarn opc f, issued := t.issued + 1 }

/-- The eight argument registers `a0` to `a7`. -/
def argRegs : List Nat := [10, 11, 12, 13, 14, 15, 16, 17]

/-- The pointer of a call in a bundle, and in a block. -/
def callPtrC (opc : Nat) (f : CForm) (s : State) : Word := if opc = 0x83 then s.curPc + f.simm else (cenv opc f s).a
def callPtrG (opc : Nat) (f : GForm) (s : State) (n : Inst) (a : Act) : Word :=
  let e := fireEnv f s n a
  if opc = 0x83 then e.pc + f.imm48 else e.a

/-- A `gate` or `merge` may pass the token `k` on: room for a stream token, its predicate matches, and it has not fired before, but as a stream or a join. -/
structure MayPass (g : GSelf) (f : GForm) (s : State) (k : Token) (join : Bool) : Prop where
  room : k.strm = true → ∀ t ∈ Machine.targets f, hasRoom s g.inst g.n t = true
  hit  : g.hit = true
  once : k.strm = true ∨ g.n.fired.getLsbD g.ix = false ∨ join = true

/-- The state after it has passed `out` for the token `k` of slot `sl`, where that has room (R194). -/
def passed (g : GSelf) (f : GForm) (s : State) (sl : Nat) (k out : Token) (join : Bool) (upd : Inst → Inst) : State :=
  sendFit s g.inst <| sendTo (s.modInst g.inst fun n =>
    consume (consume (upd { n with fired := n.fired ||| (1#128 <<< g.ix) }) g.ix [sl] k.strm) g.ix [3] (k.strm || join)) g.inst (Machine.targets f) out

end Sys2Proof.Claims

/-! ### Misaligned accesses (R65, R178, R223) -/

namespace Sys2Proof.Claims
open Sys2Proof Sys2Proof.Machine

/-- A bundle that made `s1` of `s` and traps `MISALIGN`: nothing is read, written or filled. -/
def misaligned (opc : Nat) (f : CForm) (s s1 : State) (ea info : Word) : State := takeTrap (endedAt opc f s s1) s.curThread cMISALIGN s.curPc ea info

/-- Bundles with one aligned access: instruction, opcode, address, size, and the order whose release reports first. -/
def alignedC (f : CForm) (s : State) : List (Instr × Nat × Word × Nat × Nat) :=
  let a := fun opc => (cenv opc f s).a
  [(.ld (.c f), 0x60, a 0x60 + f.simm, accSize f.fmt, 0), (.st (.c f), 0x61, a 0x61 + f.simm, accSize f.fmt, stOrd f.ord f.scope),
   (.amo (.c f), 0x70, a 0x70 + f.simm, accSize f.fmt, f.ord), (.cas (.c f), 0x71, a 0x71 + f.simm, accSize f.fmt, f.ord),
   (.synPost (.c f), 0x74, a 0x74, 16, f.ord), (.synWait f, 0x75, a 0x75, 16, 0), (.synRead (.c f), 0x76, a 0x76 + f.simm, 16, 0),
   (.ctrWait f, 0x77, a 0x77, 8, 0), (.ctrAdd (.c f), 0x78, a 0x78, if f.imm.getLsbD 43 then 16 else 8, f.ord)]

/-- The same of a block: instruction, opcode, the state in which its access is made, when its place in memory order lets it fire, address, size. -/
def alignedG (f : GForm) (s : State) (n : Inst) (a : Act) : List (Instr × Nat × State × Prop × Word × Nat) :=
  let e := fireEnv f s n a
  let noted := fun w => (noteStatus s a 0 w).1
  let z := accSize f.fmt
  [(.ld (.g f), 0x60, noted (memWarnG true f), loadMayFire n s.curNode.2 a.tile (e.a + e.b) z = true, e.a + e.b, z),
   (.st (.g f), 0x61, noted (memWarnG false f), True, e.a + e.c, z),
   (.amo (.g f), 0x70, noted (rsvG 0x70 f), mayNow s n, e.a, z), (.cas (.g f), 0x71, noted (rsvG 0x71 f), mayNow s n, e.a, z),
   (.synPost (.g f), 0x74, s, mayNow s n, e.a, 16), (.synRead (.g f), 0x76, s, loadMayFire n s.curNode.2 a.tile e.a 16 = true, e.a, 16),
   (.ctrAdd (.g f), 0x78, s, mayNow s n, e.a, if e.c.getLsbD 0 then 16 else 8)]

/-- Some window holds the whole access. -/
def inWindow (ea : Word) (n : Nat) : Prop := ∃ u, checkWindow ea n = .ok u

end Sys2Proof.Claims

/-- The scalar accesses, atomics, sync words and counters trap at their address, in a bundle, and fault the instance, in a block (R65, R223). -/
def Sys2Proof.Claims.ScalarMisaligned : Prop :=
  (∀ (f : CForm) (s : State), ∀ x ∈ alignedC f s, Issues x.2.1 f s → noErrors x.2.2.2.2 f.scope s →
    inWindow x.2.2.1 x.2.2.2.1 → x.2.2.1.toNat % x.2.2.2.1 ≠ 0 → exec x.1 s = .next (misaligned x.2.1 f s s x.2.2.1 0)) ∧
  (∀ (f : GForm) (s : State) (n : Inst) (a : Act), ∀ x ∈ alignedG f s n a, Fires x.2.1 f s n a → x.2.2.2.1 →
    inWindow x.2.2.2.2.1 x.2.2.2.2.2 → x.2.2.2.2.1.toNat % x.2.2.2.2.2 ≠ 0 → exec x.1 s = .next (firingFault f s x.2.2.1 n cMISALIGN x.2.2.2.2.1))

/-- A vector access: the first element that is no multiple of min(its size, 8) traps at its own address with its index in `SR.TINFO`, once the elements before
it have passed; the packed form traps at a base that is no multiple of 4, once the first active element's window has passed (R178). -/
def Sys2Proof.Claims.VectorMisaligned : Prop :=
  (∀ x ∈ vecLoads, ∀ (f : CForm) (s s1 : State) (pre post : List VAcc) (v : VAcc) (l : List (VAcc × List Nat)), Issues x.2.1 f s → oldClean f s f.fmt →
    vaccs (cenv x.2.1 f s) (x.2.2 (cenv x.2.1 f s)) = pre ++ v :: post → isPacked f.fmt = false →
    checkElems s ((curAgent s).at (ldOrd f.ord f.scope) f.scope) false .rd pre = (s1, .ok l) → inWindow v.ea v.n → v.ea.toNat % min v.n 8 ≠ 0 →
    exec (x.1 f) s = .next (misaligned x.2.1 f s s1 v.ea (BitVec.ofNat 64 (v.i * 2 ^ 16)))) ∧
  (∀ x ∈ vecStores, ∀ (f : CForm) (s s1 : State) (pre post : List VAcc) (v : VAcc) (l : List (VAcc × List Nat)), Issues x.2.1 f s →
    noErrors (stOrd f.ord f.scope) f.scope s →
    vaccs (cenv x.2.1 f s) (x.2.2.1 (cenv x.2.1 f s)) = pre ++ v :: post → isPacked f.fmt = false →
    checkElems s ((curAgent s).at (stOrd f.ord f.scope) f.scope) false .wr (pre.filter fun a => !fireElem s (curAgent s) false a) = (s1, .ok l) →
    inWindow v.ea v.n → v.ea.toNat % min v.n 8 ≠ 0 →
    exec (x.1 f) s = .next (misaligned x.2.1 f s s1 v.ea (BitVec.ofNat 64 (v.i * 2 ^ 16)))) ∧
  (∀ (f : CForm) (s : State) (v : VAcc) (post : List VAcc), isPacked f.fmt = true → inWindow v.ea v.n →
    (∀ x ∈ vecLoads, Issues x.2.1 f s → oldClean f s f.fmt → vaccs (cenv x.2.1 f s) (x.2.2 (cenv x.2.1 f s)) = v :: post →
      let ea := (cenv x.2.1 f s).a + f.simm
      ea.toNat % 4 ≠ 0 → exec (x.1 f) s = .next (misaligned x.2.1 f s s ea 0)) ∧
    (∀ x ∈ vecStores, Issues x.2.1 f s → noErrors (stOrd f.ord f.scope) f.scope s → vaccs (cenv x.2.1 f s) (x.2.2.1 (cenv x.2.1 f s)) = v :: post →
      let ea := (cenv x.2.1 f s).a + f.simm
      ea.toNat % 4 ≠ 0 → exec (x.1 f) s = .next (misaligned x.2.1 f s s ea 0)))

/-- A misaligned access traps `MISALIGN` at its address with nothing read, written or filled: scalar loads and stores, atomics, sync words and counters, in
both encodings, and the elements of the vector loads and stores (R65, R178, R223). -/
def Obligations.MisalignedAccessTraps : Prop := ScalarMisaligned ∧ VectorMisaligned

/-- The jumps complete in a bundle: `br` goes to pc + `IMM[43:4]` times 16, `jmp` to a multiple of 16, `jmpr` through a checked pointer of its own
encoding (R149, R150). -/
def Sys2Proof.Claims.JumpResult : Prop :=
  (∀ (f : CForm) (s : State), Issues 0x80 f s →
    exec (.br (.c f)) s = .next (finished 0x80 f s s false (s.curPc + BitVec.ofInt 64 (16 * (f.imm.extractLsb' 4 40).toInt)))) ∧
  (∀ (f : CForm) (s : State), Issues 0x81 f s →
    let t := (cenv 0x81 f s).a + f.simm
    (t.toNat % 16 = 0 → exec (.jmp (.c f)) s = .next (finished 0x81 f s s false t)) ∧
    (t.toNat % 16 ≠ 0 → exec (.jmp (.c f)) s = .next (takeTrap (endedAt 0x81 f s s) s.curThread cMISALIGN s.curPc t 0))) ∧
  (∀ (f : CForm) (s s1 : State), Issues 0x82 f s →
    let e := cenv 0x82 f s
    checkPtr s e.tile e.ctx e.a = (s1, .ok false) → exec (.jmpr (.c f)) s = .next (finished 0x82 f s s1 false e.a)) ∧
  (∀ (f : CForm) (s s1 : State), Issues 0x82 f s →
    let e := cenv 0x82 f s
    checkPtr s e.tile e.ctx e.a = (s1, .ok true) →
    exec (.jmpr (.c f)) s = .next (takeTrap (endedAt 0x82 f s s1) s.curThread cEXEC_KIND s.curPc (e.a &&& ~~~1#64) 0))

/-- In a block the jumps send the address that they would go to, as a token for `exit` (R157). -/
def Sys2Proof.Claims.AddressTokenResult : Prop :=
  (∀ (f : GForm) (s : State) (n : Inst) (a : Act), Fires 0x80 f s n a →
    exec (.br (.g f)) s = .next (sent 0x80 f s s n ((fireEnv f s n a).pc + f.imm48))) ∧
  (∀ (f : GForm) (s : State) (n : Inst) (a : Act), Fires 0x81 f s n a →
    exec (.jmp (.g f)) s = .next (sent 0x81 f s s n ((fireEnv f s n a).a + f.imm48))) ∧
  (∀ (f : GForm) (s s1 : State) (n : Inst) (a : Act), Fires 0x82 f s n a →
    let e := fireEnv f s n a
    checkPtr s a.tile a.ctx e.a = (s1, .ok true) → exec (.jmpr (.g f)) s = .next (sent 0x82 f s s1 n (e.a &&& ~~~1#64)))

/-- `br`, `jmp` and `jmpr` complete: a bundle goes on at the target, and a block sends the address (R149, R150, R157). -/
def Obligations.TransferResult : Prop := JumpResult ∧ AddressTokenResult

/-- `call` and `callr` complete: a C callee is jumped to with `ra` = pc + 16, once an earlier fill of `ra` has come (R95); a G callee is woken with a frame below `sp` that holds `a0` to `a7`, and the
caller waits with `a0` empty; a block's call builds its frame below the activation's local area (R151, R152, R158). That the frame's release reports no deferred error at the call is
the model's choice (log 133). -/
def Obligations.CallResult : Prop :=
  ∀ x ∈ [(Instr.call, 0x83), (Instr.callr, 0x84)],
  (∀ (f : CForm) (s s1 : State), Issues x.2 f s →
    let p := callPtrC x.2 f s
    checkPtr s (tileOf s.curThread) s.cur.ctx p = (s1, .ok false) →
    exec (x.1 (.c f)) s = .next (if (s1.thr s.curThread).isFull 1
      then finished x.2 f s (s1.modThr s.curThread fun t => t.xw 1 (s.curPc + 16)) false p else s1)) ∧
  (∀ (f : CForm) (s s1 s2 : State), Issues x.2 f s →
    let p := callPtrC x.2 f s
    let k := s.curThread
    let fa := (s1.thr k).xr 2 - 128
    checkPtr s (tileOf k) s.cur.ctx p = (s1, .ok true) → Readable s s1 [2] →
    frameBad fa (s1.thr k).stackBase = none → Readable s s1 argRegs →
    wakeCallee s1 (curAgent s) (s1.thr k).kernel (s1.thr k).allot p fa (s1.thr k).stackBase (s.curPc + 16) ((s1.thr k).xr 2) false
      (argRegs.map fun r => (s1.thr k).xr r) = .ok s2 →
    exec (x.1 (.c f)) s = .next (completed x.2 f s (s2.modThr k fun t =>
      { t.await { reg := 10, val := 0, pois := none, ticket := ticketOf f, kind := .call fa, err := false } with wait := .call }) true)) ∧
  (∀ (f : GForm) (s s0 s1 s2 : State) (n : Inst) (a : Act) (b : Bool), Fires x.2 f s n a → mayNow s n → callOut s a = false →
    let p := callPtrG x.2 f s n a
    let e := fireEnv f s n a
    let fa := a.frame - BitVec.ofNat 64 (bLocal n.block.hdr0) - 128
    calleeDone s e.agent a = (s0, true) → checkPtr (s0.modAct n.act fun a => { a with callee := none }) a.tile a.ctx p = (s1, .ok b) →
    frameBad fa a.base = none →
    wakeCallee s1 e.agent a.kernel a.allot p fa a.base (e.pc ||| 1) a.frame true ((List.range 8).map fun j => getV n.fregs 0 j) = .ok s2 →
    exec (x.1 (.g f)) s = .next (silent x.2 f s (s2.modInst s.curNode.1 fun n => { n with irrev := true, call := some (s.curNode.2, fa, e.lead) }) n))

/-- `ret` and `halt` complete (R154, R159, R241): `ret` goes to a nonzero `ra`; with `ra` zero it ends the thread, after it has written the frame of a call
across the encodings; `halt` ends the thread, and one that ends a graph fault's handler stops the frame and its fault domain (R221); in a block `ret` records its value once. -/
def Obligations.ReturnResult : Prop :=
  (∀ (f : CForm) (s s1 : State), Issues 0x85 f s → Readable s s [1] → s.cur.xr 1 ≠ 0 →
    checkPtr s (tileOf s.curThread) s.cur.ctx (s.cur.xr 1) = (s1, .ok false) →
    exec (.ret (.c f)) s = .next (finished 0x85 f s s1 false (s.cur.xr 1))) ∧
  (∀ (f : CForm) (s : State), Issues 0x85 f s → Readable s s [1, 10] → s.cur.xr 1 = 0 → s.cur.frame = none → Settled 2 s →
    (∀ n, s.cur.role ≠ .faultHandler n) →
    exec (.ret (.c f)) s = .next (endedAt 0x85 f s (endThread s s.curThread))) ∧
  (∀ (f : CForm) (s s1 : State) (fa : Word), Issues 0x85 f s → Readable s s [1, 10] → s.cur.xr 1 = 0 → s.cur.frame = some fa →
    Settled 2 s → returnReach s (curAgent s) fa = (s1, .ok ()) →
    let s2 := finishFrame s1 (curAgent s) fa ((s1.thr s.curThread).xr 10)
    Quiet (s2.thr s.curThread) → drainHeld s2 (tileOf s.curThread) (fun _ => true) = false → Readable s s2 [10] →
    (∀ n, (s2.thr s.curThread).role ≠ .faultHandler n) →
    exec (.ret (.c f)) s = .next (endedAt 0x85 f s (endThread s2 s.curThread))) ∧
  (∀ (f : GForm) (s : State) (n : Inst) (a : Act), Fires 0x85 f s n a → n.rets = 0 →
    exec (.ret (.g f)) s = .next (silent 0x85 f s (s.setInst s.curNode.1 { n with rets := 1, retv := (fireEnv f s n a).a }) n)) ∧
  (∀ (f : CForm) (s : State), Issues 0xB5 f s → Readable s s [10] → Settled 2 s →
    let t := endThread s s.curThread
    ((∀ n, s.cur.role ≠ .faultHandler n) → exec (.halt f) s = .next (endedAt 0xB5 f s t)) ∧
    (∀ n a, s.cur.role = .faultHandler n → t.act? n = some a →
      exec (.halt f) s = .next (endedAt 0xB5 f s (allotStop (t.modAct n fun a => { a with stat := .stopped }) a.ctx a.allot s.cur.tcause))))

/-! ### Graph-only opcodes (R204 to R212) -/

/-- `exit`, `steer`, `fan`, `null` and `fwr` complete: the next-block address is recorded; a token goes to one side, to every target, or as a null one; the value
of a frame register is kept until commit, none for a null one (R205 to R208, R210). -/
def Sys2Proof.Claims.GraphRoutingResult : Prop :=
  (∀ (f : GForm) (s : State) (n : Inst) (a : Act), Fires 0x86 f s n a → n.exits = 0 →
    let e := fireEnv f s n a
    exec (.exit f) s = .next (silent 0x86 f s
      (s.setInst s.curNode.1 { n with exits := 1, exitTo := if f.nopnd = 0 then e.pc + f.imm48 else e.a }) n)) ∧
  (∀ (f : GForm) (s : State) (n : Inst) (a : Act), Fires 0x87 f s n a →
    let e := fireEnv f s n a
    exec (.steer f) s = .next (emitted 0x87 f s s n (target (if e.b.getLsbD 0 then f.t0.toNat else f.t1.toNat)).toList
      (sentTok n s.curNode.2 f e.a false))) ∧
  (∀ (f : GForm) (s : State) (n : Inst) (a : Act), Fires 0x88 f s n a →
    exec (.fan f) s = .next (sent 0x88 f s s n (fireEnv f s n a).a)) ∧
  (∀ (f : GForm) (s : State) (n : Inst) (a : Act), Fires 0x89 f s n a →
    exec (.null f) s = .next (emitted 0x89 f s s n (Machine.targets f) (sentTok n s.curNode.2 f 0 true))) ∧
  (∀ (f : GForm) (s : State) (n : Inst) (a : Act), Fires 0x8B f s n a →
    let e := fireEnv f s n a
    exec (.fwr f) s = .next (silent 0x8B f s (s.modInst s.curNode.1 fun n =>
      { n with fwrs := n.fwrs + 1, fwr := Tbl.set n.fwr s.curNode.2 (if anyNull n s.curNode.2 f then none else some e.a) }) n))

/-- `gate` and `merge` complete (R209, R212): a closed gate takes its control token; an open one passes data; a join passes tokens in arrival order; a latch
sends the latched value with each token of A. -/
def Sys2Proof.Claims.GateMergeResult : Prop :=
  (∀ (f : GForm) (s : State) (g : GSelf) (k c : Token), selfNode f s = some g → Tbl.get g.n.gates .closed g.ix = .closed →
    (g.n.slot g.ix 0).head? = some k → (g.n.slot g.ix 1).head? = some c →
    exec (.gate f) s = .next (s.modInst g.inst fun m =>
      { consume m g.ix [1] false with gates := Tbl.set m.gates g.ix (if c.null then .nulled else .opened) })) ∧
  (∀ (f : GForm) (s : State) (g : GSelf) (k : Token), selfNode f s = some g → wOpc (g.n.block.words.getD g.ix 0) = 0x8A →
    Tbl.get g.n.gates .closed g.ix ≠ .closed → (g.n.slot g.ix 0).head? = some k → MayPass g f s k false →
    exec (.gate f) s = .next (passed g f s 0 k
      (if Tbl.get g.n.gates .closed g.ix = .opened then k else { k with val := 0, null := true }) false id)) ∧
  (∀ (f : GForm) (s : State) (g : GSelf) (k : Token) (sl : Nat) (rest : List Nat), selfNode f s = some g →
    wOpc (g.n.block.words.getD g.ix 0) = 0x8D → fieldOf f.imm 0 2 = 0 →
    Tbl.get g.n.arrivals [] g.ix = sl :: rest → (g.n.slot g.ix sl).head? = some k → MayPass g f s k true →
    exec (.merge f) s = .next (passed g f s sl k k true fun m => { m with arrivals := Tbl.set m.arrivals g.ix rest })) ∧
  (∀ (f : GForm) (s : State) (g : GSelf) (k b : Token), selfNode f s = some g → fieldOf f.imm 0 2 ≠ 0 →
    (g.n.slot g.ix 0).head? = some k →
    (match Tbl.find? g.n.latch g.ix with | some b => some b | none => (g.n.slot g.ix 1).head?) = some b → MayPass g f s k false →
    exec (.merge f) s = .next (passed g f s 0 k { k with val := if k.null then 0 else b.val } false fun m =>
      let m := if (Tbl.find? g.n.latch g.ix).isNone && b.strm then consume m g.ix [1] true else m
      { m with latch := if k.null || k.ends.getLsbD (fieldOf f.imm 2 2) then Tbl.erase m.latch g.ix else Tbl.set m.latch g.ix b }))

/-- The graph-only opcodes but `acc` complete (R205 to R210, R212). Which delivery of a stream `fwr` counts (log 124), and that reserved bits of a
`fan` warn of nothing (log 131), are the model's choices. -/
def Obligations.GraphOnlyResult : Prop := GraphRoutingResult ∧ GateMergeResult

namespace Sys2Proof.Claims
open Sys2Proof Sys2Proof.Machine

/-- Warnings of `acc`'s modifiers: `VAR` under an integer format, reserved rounding and `SAT` under a float one (R99). -/
def accWarn (f : GForm) : BitVec 16 :=
  (if isIntFmt f.fmt && f.var ≠ 0 then wRNDI else 0) ||| (if !isIntFmt f.fmt && 6 ≤ f.var then wRNDR else 0) |||
    (if !isIntFmt f.fmt && f.sat then wSATF else 0)

/-- The running sum of an `acc` after an element: the first value starts it, a null one leaves it, another is added under `FMT`. -/
def accSum (f : GForm) (old : Option Word) (null : Bool) (v : Word) : Res :=
  match old with
  | some o => if null then { pat := o.toNat } else accAdd f.fmt f.var f.sat o v
  | none => { pat := v.toNat }

end Sys2Proof.Claims

/-- `acc` completes (R211): a single token passes; of a stream, the first value starts the sum, each next one is added under `FMT`, a null one leaves it, and
the element that ends dimension d sends the sum and clears it. -/
def Obligations.AccumulateResult : Prop :=
  (∀ (f : GForm) (s : State) (n : Inst) (a : Act), Fires 0x8C f s n a → isStrm n s.curNode.2 f = false →
    let null := anyNull n s.curNode.2 f
    exec (.acc f) s = .next (emitted 0x8C f s s n (Machine.targets f)
      (sentTok n s.curNode.2 f (if null then 0 else (fireEnv f s n a).a) null))) ∧
  (∀ (f : GForm) (s : State) (n : Inst) (a : Act), Fires 0x8C f s n a → isStrm n s.curNode.2 f = true →
    let e := fireEnv f s n a
    let d := fieldOf f.imm 0 2
    let null := anyNull n s.curNode.2 f
    let old := Tbl.find? n.accs s.curNode.2
    let r := accSum f old null e.a
    let new := if null then old else some (BitVec.ofNat 64 r.pat)
    let s1 := noted s a r.fl (r.warn ||| accWarn f)
    r.fl.extractLsb' 0 5 &&& (noteStatus s a r.fl (r.warn ||| accWarn f)).2 = 0 →
    (e.ends.getLsbD d = false →
      exec (.acc f) s = .next (silent 0x8C f s (match new with
        | some v => s1.modInst s.curNode.1 fun n => { n with accs := Tbl.set n.accs s.curNode.2 v }
        | none => s1) n)) ∧
    (e.ends.getLsbD d = true →
      exec (.acc f) s = .next (emitted 0x8C f s (s1.modInst s.curNode.1 fun n => { n with accs := Tbl.erase n.accs s.curNode.2 }) n (Machine.targets f)
        { sentTok n s.curNode.2 f (new.getD 0) new.isNone with ends := e.ends &&& ~~~(BitVec.ofNat 3 (2 ^ d - 1)) })))

/-! ### Engines and handles (R253 to R282, R376 to R383) -/

namespace Sys2Proof.Claims
open Sys2Proof Sys2Proof.Machine

/-- The engine bundles: constructor, opcode, and the `MD` bits that their class uses (R253, Table 11-1). -/
def engines : List ((CForm → Instr) × Nat × BitVec 12) :=
  [(.mm, 0x90, 0xFFF), (.mmb, 0x91, 0x09F), (.rstep, 0x92, 0xFFF), (fun f => .cp (.c f), 0x93, 0xFFF), (.cps, 0x94, 0xC40),
   (fun f => .gath (.c f), 0x95, 0xFFF), (.coll, 0x96, 0xCFF), (.sbind, 0x98, 0), (.sbar, 0x99, 0)]

/-- A trailing operand: the register that the field names, where its `MD` bit is set and the opcode has it. -/
def trailX (f : CForm) (s : State) (has : Bool) (bit lo : Nat) : Word := if has && f.md.getLsbD bit then s.cur.xr (fieldOf f.imm lo 6) else 0

/-- What an engine bundle asks for, and who asks. -/
def askC (opc : Nat) (mdMask : BitVec 12) (f : CForm) (s : State) : Ask :=
  let e := cenv opc f s
  { op := BitVec.ofNat 8 opc, md := f.md &&& mdMask, imm := f.imm, a := e.a, b := e.b, c := e.c
    ctr := trailX f s (opc ≠ 0x91) 10 0, syn := trailX f s (opc ≠ 0x91) 11 6, after := trailX f s (opc ≠ 0x94) 7 12 }
def issuerC (s : State) : Issuer :=
  { tile := tileOf s.curThread, ctx := s.cur.ctx, kernel := s.cur.kernel, allot := s.cur.allot, owner := .thread s.curThread, who := s.curThread }

/-- What `cp` and `gath` of a block ask for (R282). -/
def askG (opc : Nat) (f : GForm) (s : State) (n : Inst) (a : Act) : Ask :=
  let e := fireEnv f s n a
  { op := BitVec.ofNat 8 opc
    md := BitVec.ofNat 12 (f.fmt + 64 * bitsOf f.xmod 0 1 + 256 * bitsOf f.xmod 1 1 + 32 * bitsOf f.xmod 2 1)
    imm := if opc = 0x95 then BitVec.ofNat 44 (fieldOf f.imm 0 20 * 2 ^ 18 + fieldOf f.imm 20 4 * 2 ^ 38) else 0
    a := e.a, b := e.b, c := e.c, ctr := 0, syn := 0, after := 0 }
def issuerG (n : Inst) (a : Act) : Issuer :=
  { tile := a.tile, ctx := a.ctx, kernel := a.kernel, allot := a.allot, owner := .group a.kernel a.tile, who := 2 ^ 32 + n.act }

/-- The errand that a handle names to the current thread. -/
def named (s : State) (h : Word) : Option (Nat × Nat × Errand) := errandOf s s.cur.ctx h

end Sys2Proof.Claims

/-- Each engine bundle whose operands pass the steps of R254 completes: an errand is issued and `D` receives its handle. -/
def Sys2Proof.Claims.EngineIssueResult : Prop :=
  ∀ x ∈ engines, ∀ (f : CForm) (s s1 : State) (h : Word), Issues x.2.1 f s → Readable s s ((trailing x.2.1 f).map (·.toNat)) →
    issueErrand s (issuerC s) (askC x.2.1 x.2.2 f s) = .ok s1 h →
    exec (x.1 f) s = .next (completed x.2.1 f s (s1.modThr s.curThread fun t => t.xw f.d.toNat h) false)

/-- `cp` and `gath` of a block issue a detached errand and send its handle (R282). -/
def Sys2Proof.Claims.BlockEngineResult : Prop :=
  ∀ x ∈ [((fun f => Instr.cp (.g f)), 0x93), ((fun f => Instr.gath (.g f)), 0x95)],
    ∀ (f : GForm) (s s1 : State) (n : Inst) (a : Act) (h : Word), Fires x.2 f s n a → mayNow s n →
    issueErrand (noteStatus s a 0 (rsvG x.2 f)).1 (issuerG n a) (askG x.2 f s n a) = .ok s1 h →
    exec (x.1 f) s = .next (sent x.2 f s (irrevocably s s1) n h)

/-- An issue takes the lowest-numbered free slot of the tile's errand table and the next serial; the errand stands ISSUED there with its operands, and the
handle names it (R254, R274, R377). -/
def Obligations.IssueFillsSlot : Prop :=
  ∀ (s s1 : State) (i : Issuer) (q : Ask) (h : Word), issueErrand s i q = .ok s1 h →
    ∃ slot < 256, s.errand? i.tile slot = none ∧ (∀ j < slot, s.errand? i.tile j ≠ none) ∧
      ∃ e, s1.errand? i.tile slot = some e ∧ h = handleOf i.tile slot e ∧ e.st = .issued ∧ e.serial < 2 ^ 44 ∧
        e.owner = i.owner ∧ e.ctx = i.ctx ∧ e.allot = i.allot ∧ e.op = q.op ∧ e.a = q.a ∧ e.b = q.b ∧ e.c = q.c ∧ e.unit = 0 ∧ e.cancel = none

/-- `slot.free` completes: the notice reaches the ring's `cps` after a release at device scope (R270). -/
def Sys2Proof.Claims.SlotFreeResult : Prop :=
  (∀ (f : CForm) (s : State), Issues 0x97 f s →
    let e := cenv 0x97 f s
    let tile := tileOf s.curThread
    drainHeld s tile (fun _ => true) = false →
    exec (.slotFree (.c f)) s = .next (completed 0x97 f s (freeNotice (releaseDevice s tile) tile e.a e.b (fieldOf f.imm 18 2)) false)) ∧
  (∀ (f : GForm) (s : State) (n : Inst) (a : Act), Fires 0x97 f s n a → mayNow s n → drainHeld s a.tile (fun _ => true) = false →
    let e := fireEnv f s n a
    exec (.slotFree (.g f)) s = .next (sent 0x97 f s
      (irrevocably s (freeNotice (releaseDevice s a.tile) a.tile e.a e.b (fieldOf f.imm 0 2))) n 0))

/-- The engine instructions of both encodings complete: an errand is issued and its handle returned; a freed slot is reported (R253, R254, R270, R282). -/
def Obligations.EngineResult : Prop := EngineIssueResult ∧ BlockEngineResult ∧ SlotFreeResult

/-- `e.wait` and `e.test` complete (R213, R276, R277): `D` awaits the errand's status and the thread goes on; under `.t` the fill keeps the bundle's pc, at which a
status that is not DONE will trap, and whether a handler ran then (log 57); a test reads the status as it stands; in a
block a wait fires, its node then waits for the status, and once that is due sends it as a token after an acquire (R310). -/
def Obligations.WaitAndTestResult : Prop :=
  (∀ (f : CForm) (s : State), Issues 0xA0 f s →
    let h := (cenv 0xA0 f s).a
    exec (.eWait (.c f)) s = .next (completed 0xA0 f s (own s fun t =>
      t.await { reg := f.d.toNat, val := 0, pois := none, ticket := ticketOf f, err := false
                kind := .errand h (if f.md.getLsbD 5 then some (s.curPc, s.cur.inh) else none) }) true)) ∧
  (∀ (f : GForm) (s : State) (n : Inst) (a : Act), Fires 0xA0 f s n a → (∀ w ∈ n.ewaits, w.node ≠ s.curNode.2) →
    let w : LateWait := { node := s.curNode.2, handle := (fireEnv f s n a).a, lead := leadTok n s.curNode.2 f, due := none }
    exec (.eWait (.g f)) s = .next (fireNode 0xA0 f n s.curNode.1 s.curNode.2
      (s.modInst s.curNode.1 fun n => { n with ewaits := n.ewaits ++ [w] }) false)) ∧
  (∀ (f : GForm) (s : State) (n : Inst) (a : Act) (w : LateWait), s.inst? s.curNode.1 = some n → s.act? n.act = some a →
    n.ewaits.find? (·.node = s.curNode.2) = some w →
    let s1 := statusDue s a.ctx w.handle
    exec (.eWait (.g f)) s = .next (lateStatus s1 a.tile s.curNode.1 w) ∧
    ∀ (m : Inst) (x : LateWait) (st : Word), s1.inst? s.curNode.1 = some m → m.ewaits.find? (·.node = w.node) = some x → x.due = some st →
      lateStatus s1 a.tile s.curNode.1 w =
        sendLate (acquireDevice s1 a.tile) s.curNode.1 w.node x.lead st fun n => { n with ewaits := n.ewaits.filter (· ≠ x) }) ∧
  (∀ (f : CForm) (s : State), Issues 0xA1 f s →
    exec (.eTest (.c f)) s = .next (completed 0xA1 f s (own s fun t =>
      t.xw f.d.toNat (statusOf ((named s (cenv 0xA1 f s).a).map (·.2.2)))) false)) ∧
  (∀ (f : GForm) (s : State) (n : Inst) (a : Act), Fires 0xA1 f s n a →
    exec (.eTest (.g f)) s = .next (sent 0xA1 f s s n (statusOf ((errandOf s a.ctx (fireEnv f s n a).a).map (·.2.2)))))

/-- `e.cancel`, `e.detach`, `e.adopt`, `e.prio` and `e.fault` complete (R278 to R281): with 3 (0 for `e.fault`) where the handle names no errand; else the
errand is cancelled, changes its owner (a detached one belongs to the thread's group, or to nobody once that has ended), takes the lower of the asked and the allotment's priority, or names its fault record. -/
def Obligations.HandleOperationResult : Prop :=
  (∀ x ∈ [((Instr.eCancel : CForm → Instr), 0xA2, (3 : Word)), (.eDetach, 0xA3, 3), (.eAdopt, 0xA4, 3), (.ePrio, 0xA5, 3), (.eFault, 0xA6, 0)],
    ∀ (f : CForm) (s : State), Issues x.2.1 f s → named s (cenv x.2.1 f s).a = none →
    exec (x.1 f) s = .next (completed x.2.1 f s (own s fun t => t.xw f.d.toNat x.2.2) false)) ∧
  (∀ (f : CForm) (s : State) (tile slot : Nat) (e : Errand), Issues 0xA2 f s → named s (cenv 0xA2 f s).a = some (tile, slot, e) →
    let r := cancelErrand s tile slot 0
    exec (.eCancel f) s = .next (completed 0xA2 f s (r.1.modThr s.curThread fun t => t.xw f.d.toNat r.2) false)) ∧
  (∀ (f : CForm) (s : State) (tile slot : Nat) (e : Errand), Issues 0xA3 f s → named s (cenv 0xA3 f s).a = some (tile, slot, e) →
    exec (.eDetach f) s = .next (completed 0xA3 f s
      (if e.owner = .thread s.curThread then
        (settleAll (s.setErrand tile slot { e with owner := groupOwner s s.cur.kernel (tileOf s.curThread) })).modThr s.curThread fun t => t.xw f.d.toNat 0
       else own s fun t => t.xw f.d.toNat 5) false)) ∧
  (∀ (f : CForm) (s : State) (tile slot : Nat) (e : Errand), Issues 0xA4 f s → named s (cenv 0xA4 f s).a = some (tile, slot, e) →
    let s1 := s.setErrand tile slot { e with owner := .thread s.curThread, warnTo := some s.curThread, kernel := s.cur.kernel, gone := false }
    exec (.eAdopt f) s = .next (completed 0xA4 f s ((settleAll s1).modThr s.curThread fun t => t.xw f.d.toNat 0) false)) ∧
  (∀ (f : CForm) (s : State) (tile slot : Nat) (e : Errand), Issues 0xA5 f s → named s (cenv 0xA5 f s).a = some (tile, slot, e) →
    let p := min ((cenv 0xA5 f s).b.toNat % 8) (effPrio (s.ctx s.cur.ctx) e.allot)
    exec (.ePrio f) s = .next (completed 0xA5 f s
      ((s.setErrand tile slot { e with prio := p }).modThr s.curThread fun t => t.xw f.d.toNat 0) false)) ∧
  (∀ (f : CForm) (s : State) (tile slot : Nat) (e : Errand), Issues 0xA6 f s → named s (cenv 0xA6 f s).a = some (tile, slot, e) →
    exec (.eFault f) s = .next (completed 0xA6 f s (own s fun t => t.xw f.d.toNat (BitVec.ofNat 64 (recordAddr tile slot))) false))

/-! ### System instructions (R239 to R252) -/

namespace Sys2Proof.Claims
open Sys2Proof Sys2Proof.Machine

/-- What a `setsr` of a register of the thread writes (Table 10-2): number, and the thread after it; the trap registers only in a handler. -/
def srWrites : List (Nat × (Word → Thread → Thread)) :=
  [(0x08, fun v t => { t with fstat := v.setWidth 13 &&& 0x1FDF#13 }), (0x09, fun v t => { t with warn := t.warn &&& ~~~(v.setWidth 16) }),
   (0x0A, fun v t => { t with cancelq := t.cancelq && !v.getLsbD 0 }), (0x38, fun v t => { t with tsave := Machine.putV t.tsave 0 v }),
   (0x39, fun v t => { t with tsave := Machine.putV t.tsave 1 v }), (0x3A, fun v t => { t with tsave := Machine.putV t.tsave 2 v }),
   (0x3B, fun v t => { t with tsave := Machine.putV t.tsave 3 v })]

/-- Registers that a `setsr` never changes (Table 10-2, R242). -/
def srReadOnly : List Nat := [0x00, 0x01, 0x02, 0x03, 0x04, 0x40, 0x41, 0x50, 0x51, 0x52]

/-- The number that a `getsr` or `setsr` names. -/
def srOf (f : CForm) : Nat := fieldOf f.imm 0 12

/-- The task that a `task.cancel` names is queued; or was dispatched in this very cycle to the thread. -/
def isQueued (s : State) (id : Word) (t : Task) : Bool := t.ctx = s.cur.ctx && t.call.isNone && t.id = id
def justSent (s : State) (id : Word) (t : Thread) : Bool :=
  t.running && t.role = .task && t.ctx = s.cur.ctx && t.task = id && t.started = s.dev.cycles

/-- No cancel of the id has been made in this cycle (R347); and the cancel that a thread notes. -/
def firstCancel (s : State) (id : Word) : Prop := ∀ c ∈ s.dev.cancels, c.cycle = s.dev.cycles → c.id = id → (s.thr c.thread).ctx ≠ s.cur.ctx
def cancelOf (s : State) (f : CForm) (st : Word) : Cancel :=
  { cycle := s.dev.cycles, id := (cenv 0xBC f s).a, thread := s.curThread, reg := f.d.toNat, status := st }

end Sys2Proof.Claims

/-- `ctx.start` and `ctx.reap` complete where R239 and R240 permit the context: a thread begins at the entry with its argument in `a0`, and has its first turn no earlier than the issuer's next one; or `D` awaits the
result of a running or ended one. -/
def Obligations.ContextResult : Prop :=
  (∀ (f : CForm) (s s1 : State) (tp : Nat) (k : Kernel), Issues 0xB0 f s →
    let e := cenv 0xB0 f s
    let key := threadKey (tileOf s.curThread) tp
    namedContext s.curThread e.a = .ok tp → s.kern? s.cur.kernel = some k → rolesPermit k.hdr tp = true → (s.thr key).stat = .free →
    checkPtr s (tileOf s.curThread) s.cur.ctx e.b = (s1, .ok false) →
    exec (.ctxStart f) s = .next (completed 0xB0 f s (s1.setThr key
      ({ bornThread s1 (tileOf s.curThread) tp (s1.thr s.curThread).kernel k .worker (s1.thr s.curThread).allot e.b with
           turned := s1.dev.cycles + 16 }.xw 10 e.c)) false)) ∧
  (∀ (f : CForm) (s : State) (tp : Nat), Issues 0xB1 f s →
    let n := threadKey (tileOf s.curThread) tp
    namedContext s.curThread (cenv 0xB1 f s).a = .ok tp → ((s.thr n).running = true ∨ (s.thr n).stat = .ended) → beingReaped s n = false →
    exec (.ctxReap f) s = .next (completed 0xB1 f s (own s fun t =>
      t.await { reg := f.d.toNat, val := 0, pois := none, ticket := ticketOf f, kind := .reap n, err := false }) true))

/-- `getsr` completes: `D` receives the register's value, a counter's as a pending fill; a read of `SR.CMCONF` clears it (R242). -/
def Sys2Proof.Claims.GetsrResult : Prop :=
  ∀ (f : CForm) (s : State), Issues 0xB2 f s →
    let v := srRead s s.curThread (srOf f)
    (0x50 ≤ srOf f → exec (.getsr f) s = .next (completed 0xB2 f s (own s fun t =>
      t.await { reg := f.d.toNat, val := v.setWidth 2048, pois := none, ticket := ticketOf f, kind := .value, err := false }) true)) ∧
    (srOf f < 0x50 → srOf f ≠ 0x41 → exec (.getsr f) s = .next (completed 0xB2 f s (own s fun t => t.xw f.d.toNat v) false)) ∧
    (srOf f = 0x41 → exec (.getsr f) s = .next (completed 0xB2 f s (own s fun t => { t with cmconf := 0 }.xw f.d.toNat v) false))

/-- `setsr` completes: a writable register of the thread or of its tile's banks takes the value; a trap register outside a handler is refused with a warning; a
read-only register keeps its value; of two writes of a bank's format register in one cycle the work core's counts (R242, R67, R69, R71). -/
def Sys2Proof.Claims.SetsrResult : Prop :=
  (∀ x ∈ srWrites, ∀ (f : CForm) (s : State), Issues 0xB3 f s → srOf f = x.1 →
    exec (.setsr f) s = .next (completed 0xB3 f s (own s (x.2 (cenv 0xB3 f s).a)) false)) ∧
  (∀ (f : CForm) (s : State), Issues 0xB3 f s → srOf f ∈ srReadOnly → exec (.setsr f) s = .next (completed 0xB3 f s s false)) ∧
  (∀ (f : CForm) (s : State), Issues 0xB3 f s → 0x10 ≤ srOf f → srOf f < 0x20 →
    let v := (cenv 0xB3 f s).a
    let i := srOf f - 0x10
    let stage := isStage s.curThread = true
    let second := stage ∧ Tbl.get (s.tile (tileOf s.curThread)).bfmtAt 0 i = s.dev.cycles + 1
    let warned := fun (b : Bool) => own s fun t => { t with warn := t.warn ||| if b then wFMT else 0 }
    (24 ≤ fieldOf v 0 5 → exec (.setsr f) s = .next (completed 0xB3 f s (warned true) false)) ∧
    (fieldOf v 0 5 < 24 → second → exec (.setsr f) s = .next (completed 0xB3 f s (warned (6 ≤ fieldOf v 15 3)) false)) ∧
    (fieldOf v 0 5 < 24 → ¬ second → exec (.setsr f) s = .next (completed 0xB3 f s ((warned (6 ≤ fieldOf v 15 3)).modTile (tileOf s.curThread) fun t =>
      { t with bfmt := Machine.putV t.bfmt i (v &&& 0xFFFFF01F#64)
               bfmtAt := if isStage s.curThread then t.bfmtAt else Tbl.set t.bfmtAt i (s.dev.cycles + 1) }) false))) ∧
  (∀ (f : CForm) (s : State), Issues 0xB3 f s → 0x20 ≤ srOf f → srOf f < 0x30 →
    let r := spmapWrite s s.curThread s.cur.ctx (srOf f - 0x20) (cenv 0xB3 f s).a
    r.2 = true → exec (.setsr f) s = .next (completed 0xB3 f s r.1 false)) ∧
  (∀ (f : CForm) (s : State), Issues 0xB3 f s → 0x30 ≤ srOf f → srOf f ≤ 0x37 →
    (s.cur.inh = true →
      exec (.setsr f) s = .next (completed 0xB3 f s (if srOf f = 0x31 then own s fun t => { t with tepc := (cenv 0xB3 f s).a } else s) false)) ∧
    (s.cur.inh = false → s.cur.traps.getLsbD 33 = false →
      exec (.setsr f) s = .next (completed 0xB3 f s (own s fun t => { t with warn := t.warn ||| wPRIV }) false)) ∧
    (s.cur.inh = false → s.cur.traps.getLsbD 33 = true →
      exec (.setsr f) s = .next (takeTrap (endedAt 0xB3 f s s) s.curThread cPRIV s.curPc 0 8)))

/-- `getsr` and `setsr` complete under the access rules of Table 10-2 (R242). -/
def Obligations.StateRegisterResult : Prop := GetsrResult ∧ SetsrResult

/-- `yield` completes: the thread gives up its turns for min(n, 2^20) cycles, none for 0 (R243). -/
def Sys2Proof.Claims.YieldResult : Prop :=
  ∀ (f : CForm) (s : State), Issues 0xB4 f s →
    let n := min ((cenv 0xB4 f s).a + f.simm).toNat (2 ^ 20)
    exec (.yield f) s = .next (completed 0xB4 f s (if n = 0 then s else own s fun t => { t with wait := .yield ((n + 15) / 16) }) false)

/-- `trap` and `brk` complete and then raise their cause, with `SR.TEPC` behind the bundle and `SR.TINFO` = `IMM[15:0]` (R244). -/
def Sys2Proof.Claims.TrapInstructionResult : Prop :=
  ∀ x ∈ [((Instr.trap : CForm → Instr), 0xB6, cTRAP_INSTR), (.brk, 0xB7, cBREAK)], ∀ (f : CForm) (s : State), Issues x.2.1 f s →
    exec (x.1 f) s = .next (takeTrap (endedAt x.2.1 f s s) s.curThread x.2.2 (s.curPc + 16) 0 ((f.imm.extractLsb' 0 16).setWidth 64))

/-- A cause is delivered to the handler where the header names one, its DELIV bit is 1 and the thread is not in its handler (R126, R250): the trap registers hold cause, pc,
address and information, INH is set, the thread goes on at `SR.TVEC`, what it waits for is kept for its return (R251), and nothing else of the machine changes. Otherwise the thread
stops where it faulted, with its registers kept, and so does its fault domain. -/
def Obligations.TrapEntry : Prop :=
  (∀ (h : BitVec 512) (c : Nat), 0 < c → c < 28 →
    (hdrTraps h).getLsbD c = (decide (hdrField h 24 8 ≠ 0) && h.getLsbD (128 + c))) ∧
  ∀ (s : State) (k : Nat) (c : BitVec 6) (pc addr info : Word),
    let t := s.thr k
    (t.traps.getLsbD c.toNat = true → t.inh = false →
      takeTrap s k c pc addr info = s.modThr k fun t =>
        { t with stat := .handler, tcause := c, tepc := pc, taddr := addr, tinfo := info, tframe := 0, inh := true, hold := 0, hwait := t.wait, wait := .none,
                 pc := t.tvec }) ∧
    (t.traps.getLsbD c.toNat = false ∨ t.inh = true → ∃ u, takeTrap s k c pc addr info = allotStop u t.ctx t.allot c ∧
      (u.thr k).stat = .stopped ∧ (u.thr k).pc = t.pc ∧ (u.thr k).x = t.x ∧ (u.thr k).v = t.v ∧ (u.thr k).p = t.p ∧ (u.thr k).m = t.m ∧
      (u.thr k).full = t.full ∧ (u.thr k).fstat = t.fstat ∧ ∀ j, j ≠ k → u.thr j = s.thr j)

/-- `eret` completes: a thread's handler returns to `SR.TEPC` with INH clear, and waits on for what the trap had interrupted (R251); FATAL causes, and an `eret` outside a handler, stop the thread and its fault
domain; a graph fault's handler resumes its frame, or stops it too (R252, log 58). A cause that is not delivered writes the trap registers of the thread that it stops; inside a
handler it leaves them as they were (log 58). -/
def Obligations.EretResult : Prop :=
  (∀ (s : State) (k : Nat) (c : BitVec 6) (pc addr info : Word),
    let t := s.thr k
    (t.traps.getLsbD c.toNat = false → t.inh = false →
      takeTrap s k c pc addr info = allotStop (stopThread (s.modThr k fun t =>
        { t with tcause := c, tepc := pc, taddr := addr, tinfo := info, tframe := 0 }) k) t.ctx t.allot c) ∧
    (t.inh = true → takeTrap s k c pc addr info = allotStop (stopThread s k) t.ctx t.allot c)) ∧
  (∀ (f : CForm) (s : State), Issues 0xBB f s → s.cur.stat = .handler → s.cur.inh = true → s.cur.traps.getLsbD (33 + s.cur.tcause.toNat) = false →
    (∀ n, s.cur.role ≠ .faultHandler n) →
    exec (.eret f) s = .next (finished 0xBB f s (own s fun t =>
      { t with stat := .live, inh := false, wait := t.hwait, hwait := .none }) false s.cur.tepc)) ∧
  (∀ (f : CForm) (s : State) (n : Nat), Issues 0xBB f s → s.cur.stat = .handler → s.cur.inh = true →
    s.cur.traps.getLsbD (33 + s.cur.tcause.toNat) = false → s.cur.role = .faultHandler n →
    exec (.eret f) s = .next (endedAt 0xBB f s (resumeFrame (endThread s s.curThread) n))) ∧
  (∀ (f : CForm) (s : State), Issues 0xBB f s → (s.cur.stat ≠ .handler ∨ s.cur.inh = false) →
    exec (.eret f) s = .next (endedAt 0xBB f s (allotStop (stopThread s s.curThread) s.cur.ctx s.cur.allot cPRIV))) ∧
  (∀ (f : CForm) (s : State), Issues 0xBB f s → s.cur.stat = .handler → s.cur.inh = true → s.cur.traps.getLsbD (33 + s.cur.tcause.toNat) = true →
    (∀ n, s.cur.role ≠ .faultHandler n) →
    exec (.eret f) s = .next (endedAt 0xBB f s (allotStop (stopThread s s.curThread) s.cur.ctx s.cur.allot s.cur.tcause))) ∧
  (∀ (f : CForm) (s : State) (n : Nat), Issues 0xBB f s → s.cur.stat = .handler → s.cur.inh = true → s.cur.traps.getLsbD (33 + s.cur.tcause.toNat) = true →
    s.cur.role = .faultHandler n →
    exec (.eret f) s = .next (endedAt 0xBB f s
      (allotStop (stopThread (s.modAct n fun a => { a with stat := .stopped }) s.curThread) s.cur.ctx s.cur.allot s.cur.tcause)))

/-- `task.post`, `chan.blk` and `task.cancel` complete (R245 to R247): a record with room goes on the queue, a full ring or none gives 0; a type's blocked bit is
written; a queued task is removed, one dispatched in this cycle is late (a thread of it is marked), another is gone; of two cancels of one task in one cycle
the one of the lower tile comes first (R347). -/
def Obligations.TaskResult : Prop :=
  (∀ (f : CForm) (s s1 s2 : State) (k : Nat) (rec : List Byte), Issues 0xB8 f s →
    let a := (cenv 0xB8 f s).a
    drainHeld s (tileOf s.curThread) (fun _ => true) = false → resolve s (curAgent s) a 32 8 .rd = (s1, .ok k) →
    readRange (releaseDevice s1 (tileOf s.curThread)) { curAgent s with dev := true } a 32 = (s2, .ok rec) →
    let allot := (s2.thr s.curThread).allot
    let q := taskQ s2 s.cur.ctx allot
    let fill := fun (s3 : State) (v : Word) => completed 0xB8 f s (s3.modThr s.curThread fun t => t.xw f.d.toNat v) false
    typeBeyond q (leNat (rec.take 2)) = false →
    exec (.taskPost f) s = .next (match q with
      | none => fill s2 0
      | some q => if 2 ^ q.logq ≤ (q.tail + 2 ^ 32 - q.head) % 2 ^ 32 then fill s2 0
        else fill (postTask s2 s.cur.ctx allot q rec).1 (postTask s2 s.cur.ctx allot q rec).2)) ∧
  (∀ (f : CForm) (s : State) (q : TaskQ), Issues 0xB9 f s →
    let e := cenv 0xB9 f s
    taskQ s s.cur.ctx s.cur.allot = some q → e.a.toNat < q.ntype →
    let p := q.ttbase + 64 * e.a.toNat + 17
    exec (.chanBlk f) s = .next (completed 0xB9 f s
      (writeHome s p [(Memory.read s.mem p &&& 0xFE) ||| (if e.b.getLsbD 0 then 1 else 0)]) false)) ∧
  (∀ (f : CForm) (s : State) (t : Task), Issues 0xBC f s →
    let id := (cenv 0xBC f s).a
    firstCancel s id → s.tasks.find? (isQueued s id) = some t →
    exec (.taskCancel f) s = .next (completed 0xBC f s
      ((noteCancel (syncHead { s with tasks := s.tasks.filter fun u => !isQueued s id u } s.cur.ctx t.allot) (cancelOf s f 0)).modThr s.curThread
        fun t => t.xw f.d.toNat 0) false)) ∧
  (∀ (f : CForm) (s : State), Issues 0xBC f s →
    let id := (cenv 0xBC f s).a
    firstCancel s id → s.tasks.find? (isQueued s id) = none →
    let r := match List.find? (fun kt : Nat × Thread => justSent s id kt.2) s.threads with
      | some kt => (s.setThr kt.1 { kt.2 with cancelq := true }, (1 : Word))
      | none => (s, if s.acts.any fun ka => ka.2.ctx = s.cur.ctx && ka.2.task = some (id, s.dev.cycles) then 1 else 2)
    exec (.taskCancel f) s = .next (completed 0xBC f s ((noteCancel r.1 (cancelOf s f r.2)).modThr s.curThread fun t => t.xw f.d.toNat r.2) false)) ∧
  (∀ (f : CForm) (s : State) (c : Cancel), Issues 0xBC f s →
    let id := (cenv 0xBC f s).a
    s.dev.cancels.find? (fun c => c.cycle = s.dev.cycles && c.id = id && (s.thr c.thread).ctx = s.cur.ctx) = some c →
    exec (.taskCancel f) s = .next (completed 0xBC f s (if tileOf c.thread ≤ tileOf s.curThread then own s fun t => t.xw f.d.toNat 2
      else (noteCancel (s.modThr c.thread fun t => t.xw c.reg 2) (cancelOf s f c.status)).modThr s.curThread fun t => t.xw f.d.toNat c.status) false))

/-- `meas` completes: the range is read after a release, its digest goes into the context's log as a KMEAS event, and `D` holds the event's number (R248). -/
def Sys2Proof.Claims.MeasureResult : Prop :=
  ∀ (f : CForm) (s s1 : State) (bs : List Byte), Issues 0xBA f s →
    let e := cenv 0xBA f s
    (∃ u, checkWindow e.a e.b.toNat = .ok u) → e.b.toNat ≤ 2 ^ 32 → (2 ≤ f.scope → drainHeld s (tileOf s.curThread) (fun _ => true) = false) →
    readRange (releaseAt s (tileOf s.curThread) f.scope) { curAgent s with dev := true } e.a e.b.toNat = (s1, .ok bs) →
    let s2 := appendEvent s1 s.cur.ctx 5 bs
    s2.hubWait = false →
    exec (.meas f) s = .next (completed 0xBA f s (s2.modThr s.curThread fun t => t.xw f.d.toNat (BitVec.ofNat 64 (s2.ctx s.cur.ctx).seq)) false)

/-- `yield`, `trap`, `brk` and `meas` complete (R243, R244, R248). -/
def Obligations.TurnInstructionResult : Prop := YieldResult ∧ TrapInstructionResult ∧ MeasureResult

/-! ### Issue: what a bundle that does not have its own effect does (R92 to R100) -/

namespace Sys2Proof.Claims
open Sys2Proof Sys2Proof.Machine

/-- The bundles whose meanings go through the common issue, one per shape: constructor and opcode. -/
def plainBundles : List ((CForm → Instr) × Nat) :=
  [(fun f => .nop (.c f), 0x00), (fun f => .add (.c f), 0x01), (fun f => .fadd (.c f), 0x20), (.vbcast, 0x40), (fun f => .ld (.c f), 0x60),
   (fun f => .st (.c f), 0x61), (.vld, 0x62), (fun f => .amo (.c f), 0x70), (.semWait, 0x7A), (fun f => .br (.c f), 0x80), (.mm, 0x90),
   (fun f => .eWait (.c f), 0xA0), (.getsr, 0xB2), (.eret, 0xBB)]

end Sys2Proof.Claims

/-- A bundle that cannot issue, or whose guard fails, has none of its effect (R92 to R96, R100, R254, R365): a thread that does not run, an awaited or a full
ticket or an empty register leaves the state as it is; a failed guard passes on to the next bundle; a register beyond the counts and a trapping warning trap
`ILLEGAL_OPC`, a unit that is not the group's `PRIV`; a held request of the thread, or a full store buffer, lets it wait; an empty source under its `FEM` bit traps `EMPTY_READ` with the operand's number, and a poisoned one its
mark's cause. That EMPTY_READ
comes before POISON, and the first of A, B, C is named, is the model's choice (log 130). -/
def Obligations.IssueRules : Prop :=
  ∀ x ∈ plainBundles, ∀ (f : CForm) (s : State),
    let opc := x.2
    let t := s.cur
    let dest := emptyReg t (regIx (useOf opc f).d f.d)
    let ready := t.running = true ∧ beyondAny opc f t = false ∧ workDenied s s.curThread opc = false ∧
      (decodeWarn opc f = 0 ∨ t.traps.getLsbD 33 = false)
    let tickets := (∀ n < 8, f.need.getLsbD n = true → getV t.tickets 0 n = 0) ∧ ∀ n, ticketOf f = some n → getV t.tickets 0 n < 63
    let guard := maskedOpc opc f = true ∨ guardOf t f = true
    let clear := behindHeld t opc = false
    (t.running = false → exec (x.1 f) s = .next s) ∧
    (t.running = true → beyondAny opc f t = true → exec (x.1 f) s = .next (takeTrap (own s fun t => { t with issued := t.issued + 1 }) s.curThread
      cILLEGAL_OPC s.curPc 0 (BitVec.ofNat 64 (opc * 16 + f.cls.toNat) ||| 0x1000))) ∧
    (t.running = true → beyondAny opc f t = false → workDenied s s.curThread opc = true →
      exec (x.1 f) s = .next (takeTrap (own s fun t => { t with issued := t.issued + 1 }) s.curThread cPRIV s.curPc 0 2)) ∧
    (t.running = true → beyondAny opc f t = false → workDenied s s.curThread opc = false → decodeWarn opc f ≠ 0 → t.traps.getLsbD 33 = true →
      exec (x.1 f) s = .next (takeTrap (own s fun t => { t with issued := t.issued + 1 }) s.curThread
        cILLEGAL_OPC s.curPc 0 (0x8000000000000000#64 ||| (decodeWarn opc f).setWidth 64))) ∧
    (ready → ¬ tickets → exec (x.1 f) s = .next s) ∧
    (ready → tickets → ¬ guard → exec (x.1 f) s = .next (completed opc f s s false)) ∧
    (ready → tickets → guard → ¬ clear → exec (x.1 f) s = .next s) ∧
    (ready → tickets → guard → clear → (dest = true ∨ ∃ y ∈ srcsOf opc f, emptyReg t y.1 = true ∧ y.2.1 = false) → exec (x.1 f) s = .next s) ∧
    (ready → tickets → guard → clear → dest = false → (∀ y ∈ srcsOf opc f, emptyReg t y.1 = true → y.2.1 = true) →
      ∀ y, (srcsOf opc f).find? (fun y => emptyReg t y.1) = some y →
      exec (x.1 f) s = .next (takeTrap (endedAt opc f s s) s.curThread cEMPTY_READ s.curPc 0 (BitVec.ofNat 64 y.2.2))) ∧
    (ready → tickets → guard → clear → dest = false → (∀ y ∈ srcsOf opc f, emptyReg t y.1 = false) →
      ∀ p, firstPoison t (readsOf opc f) = some p →
      exec (x.1 f) s = .next (takeTrap (endedAt opc f s s) s.curThread p.cause s.curPc p.addr (if p.cause = cPOISON then 1 else 0)))

/-! ### Events of threads, pages and memory -/

namespace Sys2Proof.Claims
open Sys2Proof Sys2Proof.Machine

/-- The `i`th pending fill of a thread arrives with a value. -/
def arrives (s : State) (k i : Nat) (f : Fill) (reg : Nat) (v : Vec) (p : Option PoisonInfo) : State :=
  s.modThr k fun t => ({ t with fills := t.fills.eraseIdx i }.arrive reg v p).dropTicket f.ticket

/-- It arrives with an errand's status, an acquire at device scope (R310); an `e.wait.t` owes its thread the trap of a status that is not DONE, at that bundle. -/
def filledStatus (s : State) (k i : Nat) (f : Fill) (w : Option (Word × Bool)) (h st : Word) : State :=
  acquireDevice ((arrives s k i f f.reg (st.setWidth 2048) none).modThr k fun t => { t with owed := t.owed ++ match w, statusTrap h st with
    | some (pc, inh), some (c, a) => [{ cause := c, tepc := pc, addr := a, info := h, inh := inh : OwedTrap }]
    | _, _ => [] }) (tileOf k)

end Sys2Proof.Claims

/-- The events of a thread have their effect where what they report has happened (R90, R94, R96, R152, R240, R276, R421): a fetch traps; a pending fill
arrives with its value, an errand's status (an errand whose status is to trap keeps its slot until then) or a thread's result; a store is accepted; an error reply poisons a register or defers an error; a call across
the encodings returns. -/
def Sys2Proof.Claims.ThreadEventResult : Prop :=
  (∀ (s s1 : State) (k : Nat) (c : BitVec 6) (a i : Word), (s.thr k).running = true → residentOk s k = true → runsOn s (tileOf k) (s.thr k).ctx = true →
    (s.thr k).role ≠ .firmware →
    (s.thr k).wait = .none → (s.thr k).hold = 0 → fetchC (toSlot s k) (tileOf k) (s.thr k).ctx (s.thr k).pc = (s1, .trap c a i) → exec (.fetchTrap k) s = .next (takeFetchTrap s1 k c a i)) ∧
  (∀ (s : State) (k i : Nat) (f : Fill), (s.thr k).fills[i]? = some f → f.err = false →
    (f.kind = .value → exec (.longLatencyFill k i) s = .next (arrives s k i f f.reg f.val f.pois)) ∧
    (∀ n, f.kind = .reap n → (s.thr n).stat = .ended →
      exec (.longLatencyFill k i) s = .next (arrives (s.setThr n { s.thr n with stat := .free }) k i f f.reg (((s.thr n).xr 10).setWidth 2048) none)) ∧
    (∀ h w, f.kind = .errand h w → errandOf s (s.thr k).ctx h = none → exec (.longLatencyFill k i) s = .next (filledStatus s k i f w h 3)) ∧
    (∀ h w x, f.kind = .errand h w → errandOf s (s.thr k).ctx h = some x → x.2.2.st.final = true →
      let st := statusOf (some x.2.2)
      let s1 := filledStatus s k i f w h st
      let traps := w.isSome = true ∧ (statusTrap h st).isSome = true
      (traps → exec (.longLatencyFill k i) s = .next s1) ∧ (¬ traps → exec (.longLatencyFill k i) s = .next (reap s1 x.1 x.2.1))) ∧
    (∀ h st w, f.kind = .status h st w → exec (.longLatencyFill k i) s = .next (filledStatus s k i f w h st))) ∧
  (∀ (s : State) (k i : Nat) (w : StoreWait), (s.thr k).stores[i]? = some w →
    (w.err = none → exec (.storeAccept k i) s = .next (s.modThr k fun t => { t with stores := t.stores.eraseIdx i }.dropTicket w.ticket)) ∧
    (∀ a, w.err = some a → exec (.errorReply k true i) s = .next (s.modThr k fun t =>
      { t with stores := t.stores.eraseIdx i, deferred := t.deferred ++ [(⟨cLINK_ERR, a, 0x4000000000000000#64⟩ : Deferred)] }.dropTicket w.ticket))) ∧
  (∀ (s : State) (k i : Nat) (f : Fill), (s.thr k).fills[i]? = some f → f.err = true →
    exec (.errorReply k false i) s = .next (arrives s k i f f.reg f.val f.pois)) ∧
  (∀ (s s1 : State) (k i : Nat) (f : Fill) (fa v : Word), (s.thr k).running = true → ((s.thr k).wait = .call ∨ (s.thr k).hwait = .call) →
    (s.thr k).fills.findIdx? (fun f => match f.kind with | .call _ => true | _ => false) = some i → (s.thr k).fills[i]? = some f → f.kind = .call fa →
    frameDone s { tile := tileOf k, ctx := (s.thr k).ctx } fa = (s1, some v) →
    exec (.crossCallReturn k) s = .next (s1.modThr k fun t =>
      { ({ t with fills := t.fills.eraseIdx i }.arrive 10 (v.setWidth 2048) none).dropTicket f.ticket with
        wait := if t.wait = .call then .none else t.wait, hwait := if t.hwait = .call then .none else t.hwait }))

/-- The events of memory and translation have their effect (R17, R285, R401, R402): an HBM line is poisoned and counted; a line leaves a cache, or a dirty
scratchpad line goes back to the place it maps (R73), where its way home is open (R411); a running walk's leaf goes to every tile that joined it, with the lines that
wait for it, its failure to every access that waits, or the walk is made again; an entry whose lease is over goes. -/
def Sys2Proof.Claims.MemoryEventResult : Prop :=
  (∀ (s : State) (ln : Nat), ln % 128 = 0 → hbmInstalled ln 128 = true →
    exec (.linePoisoning ln) s = .next { s with poison := Tbl.set s.poison ln 0, hbmUnc := Tbl.upd s.hbmUnc 0 (channelOf ln) (· + 1) }) ∧
  (∀ (s : State) (c : Nat), c < 1024 → exec (.correctedError c) s = .next { s with hbmCorr := Tbl.upd s.hbmCorr 0 c (· + 1) }) ∧
  (∀ (s : State) (t ln : Nat) (l : L1Line), t < 512 → l1? s t ln = some l →
    exec (.lineEviction t ln) s = .next (if mayLeave s t (ln, l) then evictLine s t ln else s)) ∧
  (∀ (s : State) (t ln : Nat), 512 < t → exec (.lineEviction t ln) s = .next { s with l2 := Tbl.erase s.l2 ln }) ∧
  (∀ (s : State) (ln sk : Nat), Tbl.find? s.mapped ln = some sk → spHas s sk = true →
    (s.tile (placeTile sk)).spDirty.getLsbD (sk % 2 ^ 20 / 128) = true →
    exec (.lineEviction 512 ln) s = .next (if (route s (dieOf (placeTile sk)) (homeDie ln)).isSome
      then spLineBack s (placeTile sk) (sk % 2 ^ 20 / 128) ln else s)) ∧
  (∀ (s s1 : State) (i : Nat) (w : Walk) (l : Leaf), running? s i = some w → walk s w.die w.ctx w.va.toNat = (s1, .ok l) →
    let s2 := (w.tiles ++ w.waiting.map (·.1)).foldl (fun s t => tlbInstall s t
      { ctx := w.ctx, page := w.va.toNat >>> l.bits, bits := l.bits, leaf := l.word, ns := l.lease.1, lease := l.lease.2 })
      { s1 with walks := s1.walks.eraseIdx i }
    let r := bringLines s2 w.ctx l.word l.bits w.lines
    (grants l.word .rd = false → exec (.walkComplete i) s = .next s2) ∧
    (grants l.word .rd = true → exec (.walkComplete i) s = .next (if r.2.isEmpty then r.1
      else { r.1 with walks := r.1.walks ++ [{ w with tiles := [], waiting := [], lines := r.2 }] }))) ∧
  (∀ (s s1 : State) (i : Nat) (w : Walk) (f : Fail), running? s i = some w → walk s w.die w.ctx w.va.toNat = (s1, .error f) →
    exec (.walkComplete i) s = .next (if f = notYet then s1 else walkFailed s1 i w f)) ∧
  (∀ (s : State) (i : Nat) (w : Walk), running? s i = some w → exec (.walkInstallTimeout i) s = .next (walk s w.die w.ctx w.va.toNat).1) ∧
  (∀ (s : State) (u i : Nat) (e : TlbEntry), u < 512 → (s.tile u).tlb[i]? = some e → e.live s.dev.hubNs = false →
    exec (.leaseExpiry u i) s = .next (s.modTile u fun t => { t with tlb := t.tlb.eraseIdx i })) ∧
  (∀ (s : State) (u i : Nat) (e : Nat × TlbEntry), 512 ≤ u → s.walkCache[i]? = some e → e.2.live s.dev.hubNs = false →
    exec (.leaseExpiry u i) s = .next { s with walkCache := s.walkCache.eraseIdx i })

/-- The events of threads, memory and translation have their effect where what they report has happened (R17, R90, R94, R96, R152, R285, R401, R402, R421). That a second error on a poisoned
line sets its mask to zero again is the model's choice (log 94). -/
def Obligations.ThreadAndMemoryEventResult : Prop := ThreadEventResult ∧ MemoryEventResult

/-! ### Events of the fabric (R189 to R222) -/

namespace Sys2Proof.Claims
open Sys2Proof Sys2Proof.Machine

/-- The fresh instance of a block in a plane (R190). -/
def freshInst (an : Nat) (seq : BitVec 32) (b : Block) (p : Nat) (regs : Vector Word 64) : Inst :=
  { act := an, seq := seq, block := b, plane := p, slots := [], fired := 0, done := 0, fwr := [], fwrs := 0, stores := []
    exits := 0, exitTo := 0, rets := 0, retv := 0, irrev := false, accs := [], latch := [], gates := [], call := none
    arrivals := [], ports := 0, ewaits := [], fault := none, held := false, quiet := false, fregs := regs }

/-- An instance that has become its frame's oldest and may commit, before its timeout (R202, R203). -/
structure Ready (s : State) (i : Nat) (n : Inst) (a : Act) : Prop where
  inst : s.inst? i = some n
  act  : s.act? n.act = some a
  live : instLive s n = true
  quiet : n.quiet = true
  time : timedOut s n = false
  head : a.insts.head? = some i
  may  : mayCommit n = true

/-- Plain token with a value. -/
def token (v : Word) : Token := { val := v, ends := 0, null := false, strm := false, idx := 0 }

end Sys2Proof.Claims

/-- The fabric's events have their effect (R158, R189 to R193, R202, R203, R214, R219 to R222): a block enters a plane; an instance starts with its read
entries' tokens; a token arrives; an instance becomes quiescent, commits its stores and frame registers, or faults, as it does where a store or its return cannot be
written, or once 2^`TIMEOUT` cycles have counted in which it might have fired;
a handler starts; a call's value
is sent; a port emits its next element. -/
def Obligations.FabricEventResult : Prop :=
  (∀ (s s1 : State) (an p : Nat) (a : Act) (x : Word × BitVec 32) (b : Block), s.act? an = some a → nextOf s a = some x → planeHolding s a.tile a.ctx x.1 = none →
    (loadPlanes s a).find? (planeEmpty s a.tile) = some p → loadBlock s a.tile a.ctx x.1 = (s1, .ok b) →
    exec (.blockLoad an) s = .next (s1.modTile a.tile fun t => { t with planes := Machine.putV t.planes p (some b) })) ∧
  (∀ (s : State) (an p : Nat) (a : Act) (x : Word × BitVec 32) (b : Block), s.act? an = some a → nextOf s a = some x → planeHolding s a.tile a.ctx x.1 = some p →
    getV (s.tile a.tile).planes none p = some b →
    let regs := nextRegs s a
    let id := s.fresh.1
    let s1 := (s.fresh.2.setInst id (freshInst an x.2 b p regs)).setAct an { a with insts := a.insts ++ [id], plane := p }
    let s2 := (readEntries b.hdr0 b.hdr1).foldl (fun s r => sendTo s id [(r.2.2, r.2.1)] (token (getV regs 0 r.1))) s1
    exec (.instanceStart an) s = .next (if barnRoom s.fresh.2 s2 a.tile then s2 else s.fresh.2)) ∧
  (∀ (s : State) (idx : Nat) (x : Transit), s.transit[idx]? = some x →
    (∀ y ∈ s.transit.take idx, ¬ (y.inst = x.inst ∧ y.node = x.node ∧ y.slot = x.slot)) →
    exec (.tokenArrival idx) s = .next ({ s with transit := s.transit.eraseIdx idx }.modInst x.inst fun n =>
      let n := n.setSlot x.node x.slot (n.slot x.node x.slot ++ [x.tok])
      if isJoin (n.block.words.getD x.node 0) && x.slot ≠ 3
        then { n with arrivals := Tbl.set n.arrivals x.node (Tbl.get n.arrivals [] x.node ++ [x.slot]) } else n)) ∧
  (∀ (s : State) (i : Nat) (n : Inst) (a : Act), s.inst? i = some n → s.act? n.act = some a → instLive s n = true → n.quiet = false → isQuiescent s i n = true →
    (mayCommit n = false → exec (.instanceQuiescent i) s = .next (faultInst s i (plainFault cNO_EXIT 0))) ∧
    (mayCommit n = true → 0 < n.rets → exec (.instanceQuiescent i) s = .next (s.setInst i { n with quiet := true })) ∧
    (mayCommit n = true → n.rets = 0 → ∀ s1, wakeCheck s a.tile a.ctx n.exitTo = (s1, none) →
      exec (.instanceQuiescent i) s = .next (s1.modInst i fun n => { n with quiet := true })) ∧
    (mayCommit n = true → n.rets = 0 → ∀ s1 w, wakeCheck s a.tile a.ctx n.exitTo = (s1, some w) →
      exec (.instanceQuiescent i) s = .next (if w = fetchHeld then s1 else faultInst s1 i (plainFault w.1 w.2.1)))) ∧
  (∀ (s s0 s0' : State) (i : Nat) (n : Inst) (a : Act), Ready s i n a → exitHeld s a n = (s0, none) →
    let ag : Agent := { tile := a.tile, ctx := a.ctx, allot := some a.allot }
    (∀ c sub st, commitStop s0 ag (sortStores n.stores) = (s0', some (.trap c sub, st)) →
      exec (.instanceCommit i) s = .next (faultInst s0' i { plainFault c st.addr with node := st.node })) ∧
    (commitStop s0 ag (sortStores n.stores) = (s0', none) →
    let performed := fun (s : State) => (sortStores n.stores).foldl (fun s st => performStore s ag st) s
    (n.rets = 0 → exec (.instanceCommit i) s = .next (dropInst ((performed s0').modAct n.act fun x =>
      { x with f := nextRegs.applyFwr n a.f, seq := x.seq + 1, next := n.exitTo }) i)) ∧
    (0 < n.rets → ∀ s2 p, retFrame s0' ag a = (s2, .ok p) →
      exec (.instanceCommit i) s = .next (endAct (if p = 0 then performed s2 else finishFrame (performed s2) ag a.frame n.retv) n.act a)) ∧
    (0 < n.rets → ∀ s2 c sub ad, retFrame s0' ag a = (s2, .error (.trap c sub, ad)) →
      exec (.instanceCommit i) s = .next (faultInst s2 i (plainFault c ad))))) ∧
  (∀ (s : State) (i : Nat) (n : Inst) (a : Act) (k : Kernel), s.inst? i = some n → s.act? n.act = some a → s.kern? a.kernel = some k → instLive s n = true →
    exec (.instanceTimeout i) s = .next (if 2 ^ bTimeout n.block.hdr0 (hdrField k.hdr 32 1) ≤ n.ran then faultInst s i (plainFault cNO_EXIT 0) else s)) ∧
  (∀ (s : State) (i : Nat) (n : Inst) (a : Act), s.inst? i = some n → s.act? n.act = some a → instLive s n = true → n.call = none → n.ewaits = [] →
    planeMayFire s (dieOf a.tile) n.plane = true → awaitsPlane s a = false → gateClosed n = false → irrevIdle a i n = false →
    (timeoutsNow s).inst? i = some { n with ran := n.ran + (s.dev.cycles - s.dev.counted) }) ∧
  (∀ (s s0 : State) (i : Nat) (n : Inst) (a a1 : Act) (fl : GFault) (r : Except (Stop × Word) Unit), s.inst? i = some n → s.act? n.act = some a →
    n.fault = some fl → a.stat = .live → runsOn s a.tile a.ctx = true → a.insts.head? = some i →
    frameReach s { tile := a.tile, ctx := a.ctx } (a.frame + 24) 8 .rw = (s0, r) → (∀ ad, r ≠ .error (.hold, ad)) →
    let s1 := (a.insts.filter (· ≠ i)).foldl discardInst s0
    let s2 := if n.held then s1 else discardInst s1 i
    s2.act? n.act = some a1 →
    exec (.graphFaultTaken i) s = .next (frameFault s2 n.act a1 fl n.seq n.plane n.irrev (if n.held then some i else none))) ∧
  (∀ (s : State) (an n : Nat) (a : Act) (fl : GFault) (k : Kernel), s.act? an = some a → a.fault = some fl → s.kern? a.kernel = some k →
    spareContext s a.tile = some n → a.stat = .faulted →
    let t := (bornThread s a.tile n a.kernel k (.faultHandler an) a.allot (hdrHandler k.hdrAddr k.hdr)).xw 10 a.frame
    exec (.graphHandlerStart an) s = .next ((s.setThr (threadKey a.tile n)
      { t with stat := .handler, inh := true, tcause := fl.cause, tepc := a.next, taddr := fl.addr, tinfo := a.tinfo, tframe := a.frame
               telem := if fl.strm then fl.elem.setWidth 64 else 0 }).setAct an { a with stat := .handling })) ∧
  (∀ (s s1 : State) (i ix : Nat) (n : Inst) (a : Act) (fa v : Word) (lead : Token), s.inst? i = some n → n.call = some (ix, fa, lead) → s.act? n.act = some a →
    frameDone s { tile := a.tile, ctx := a.ctx } fa = (s1, some v) →
    exec (.graphCallReturn i) s = .next (sendLate s1 i ix lead v fun n => { n with call := none })) ∧
  (∀ (s s1 : State) (tile port i ix sl : Nat) (p : Port) (n : Inst) (a : Act) (v : Word), portReady s tile port = some (p, i, n, ix, sl) →
    s.act? n.act = some a → hasRoom s i n (sl, ix) = true → portElem s { tile := tile, ctx := a.ctx } (bytesOf 64 p.pat) p.elem = (s1, .ok v) →
    let start := if p.inst.isNone then p.elem else p.start
    let s2 := s1.modTile tile fun t => { t with ports := Machine.putV t.ports port { p with elem := p.elem + 1, start := start, inst := some i } }
    let s3 := if p.elem + 1 = patTotal (bytesOf 64 p.pat) then s2.modInst i fun n => { n with ports := n.ports ||| (1#16 <<< port) } else s2
    exec (.streamPortEmit tile port) s = .next (sendFit s1 i (sendTo s3 i [(sl, ix)]
      { val := v, ends := endFlags (bytesOf 64 p.pat) p.elem, null := false, strm := true, idx := BitVec.ofNat 32 (p.elem - start), port := port }))) ∧
  (∀ (s s1 : State) (tile port i ix sl sub : Nat) (p : Port) (n : Inst) (a : Act) (c : BitVec 6) (ea : Word), portReady s tile port = some (p, i, n, ix, sl) →
    s.act? n.act = some a → portElem s { tile := tile, ctx := a.ctx } (bytesOf 64 p.pat) p.elem = (s1, .error (.trap c sub, ea)) →
    let start := if p.inst.isNone then p.elem else p.start
    exec (.portFetchFault tile port) s = .next ((s1.modTile tile fun t =>
      { t with ports := Machine.putV t.ports port { p with start := start, inst := some i } }).modInst i fun n =>
        { n with held := true, fault := some (n.fault.getD
          { cause := c, addr := ea, node := ix, multi := false, strm := true, port := port, elem := BitVec.ofNat 32 (p.elem - start) }) }))

/-! ### Events of errands (R257, R258, R266, R380 to R387) -/

namespace Sys2Proof.Claims
open Sys2Proof Sys2Proof.Machine

/-- Another errand of the tile that is ready would start before `e` at this engine (R257). -/
def outrun (s : State) (tile slot : Nat) (e : Errand) : Prop :=
  ∃ x ∈ allErrands s, (x.1, x.2.1) ≠ (tile, slot) ∧ x.2.2.at_ = e.at_ ∧ engineGroup x.2.2.engine = engineGroup e.engine ∧ goesFirst x.2.2 e = true ∧
    errReady s x.1 x.2.1 x.2.2 = true

/-- What an errand counts when it reaches a pre-emption point: an `sbind` the elements that its port has given out (Table 11-15), the others their units. -/
def counted (s : State) (tile slot : Nat) (e : Errand) : Errand :=
  match (if e.op = 0x98 then sbindUsed s e.at_ tile slot else none) with
  | some u => { e with progress := u, step := u }
  | none => e

/-- A running errand that its engine may work on: no cancel, park, stall, stopped level or spent meter holds it at its pre-emption point. -/
structure Working (s : State) (e : Errand) : Prop where
  run  : e.st = .running
  runs : errRuns s e = true
  more : e.finished = false
  free : e.cancel = none ∧ e.park = false ∧ e.stalled = none
  paid : ecycSpent s e.ctx e.allot = false ∧ energySpent s e.ctx e.allot = false

/-- Earlier errands of the issuer at the engine are final, where `.ord` asks for it. -/
def ordMet (s : State) (tile slot : Nat) (e : Errand) : Prop :=
  e.ordb = true → ∀ x ∈ otherErrands s tile slot, x.issuer = e.issuer → x.engine = e.engine → x.order < e.order → x.st.final = true

/-- An errand whose next unit may meet a fault: it works, or is stalled, and has its descriptor. -/
def AtUnit (s : State) (e : Errand) : Prop := e.st = .running ∧ errRuns s e = true ∧ needsDesc e = false

end Sys2Proof.Claims

/-- The events of an errand have their effect (R257, R258, R380 to R387): it is queued; a ready one that goes first starts, or fails or is cancelled; its descriptor is read
and a unit done and charged; a pending cancel ends it and a pending park parks it; a parked one resumes; a finished one publishes; a fault stalls or fails it; a replay or
its time-out ends a stall, which a replay that waits, or meets the same fault again, leaves as it began. -/
def Obligations.ErrandEventResult : Prop :=
  ∀ (s : State) (tile slot : Nat) (e : Errand), s.errand? tile slot = some e →
  (e.st = .issued → exec (.errandQueued tile slot) s = .next (s.setErrand tile slot { e with st := .waiting })) ∧
  (e.st = .waiting → afterState s e = some false →
    exec (.errandStart tile slot) s = .next (endErrand s tile slot e .cancelled cDEP_FAILED 0 0)) ∧
  (mayRun s tile slot e = true → portBusy s tile slot e = false →
    (∀ x, e.failAtStart = some x → exec (.errandStart tile slot) s = .next (endErrand s tile slot e .failed x.1 x.2.1 x.2.2)) ∧
    (e.failAtStart = none → ∀ s1 t, twinAt s tile slot e = (s1, t) →
      (t = .wait → exec (.errandStart tile slot) s = .next s1) ∧
      (t = .held → exec (.errandStart tile slot) s = .next (s1.setErrand tile slot { e with stalled := none })) ∧
      ((t = .none ∨ ∃ o bits size va, t = .take o bits size va) → ¬ outrun s1 tile slot e →
        exec (.errandStart tile slot) s = .next (startErrand s1 tile slot e t)))) ∧
  (Working s e → (needsDesc e = true → exec (.errandChunkDone tile slot) s = .next (goStart s tile slot e)) ∧
    (needsDesc e = false → ∀ s1 e1, doUnit s tile slot e = .ok s1 e1 →
      exec (.errandChunkDone tile slot) s = .next (chargeUnit (s1.setErrand tile slot { e1 with got := [] }) e1))) ∧
  (e.st = .running → ∀ c, e.cancel = some c →
    exec (.errandPreemptionPoint tile slot) s = .next (endErrand s tile slot (counted s tile slot e) .cancelled c 0 0)) ∧
  (e.st = .running → e.cancel = none → e.park = true →
    exec (.errandPreemptionPoint tile slot) s = .next (s.setErrand tile slot { counted s tile slot e with st := .parked, park := false })) ∧
  (e.st = .parked → errResident s e = true → errRuns s e = true → engineFree s tile slot e = true →
    exec (.errandResume tile slot) s = .next (s.setErrand tile slot { e with st := .running })) ∧
  (e.st = .running → errRuns s e = true → e.finished = true → e.cancel = none → ordMet s tile slot e → collReady s tile slot e = true →
    exec (.errandPublish tile slot) s = .next (publish (enterPublish s tile slot e) tile slot { e with st := .publishing })) ∧
  (e.st = .publishing → errRuns s e = true → exec (.errandPublish tile slot) s = .next (publish s tile slot e)) ∧
  (AtUnit s e → e.finished = false → e.stalled = none → ∀ s1 e1 a, doUnit s tile slot e = .stall s1 e1 a →
    exec (.operandFetchFault tile slot) s = .next (s1.setErrand tile slot { withGot s1 tile slot e1 with stalled := some a, stallNs := s1.dev.hubNs })) ∧
  (AtUnit s e → e.finished = false → e.stalled = none → ∀ s1 e1 c sub a, doUnit s tile slot e = .fail s1 e1 c sub a →
    exec (.operandFetchFault tile slot) s = .next (endErrand s1 tile slot e1 .failed c sub a)) ∧
  (AtUnit s e → e.stalled ≠ none → ∀ s1 e1, doUnit s tile slot { e with stalled := none } = .ok s1 e1 →
    exec (.fetchReplay tile slot) s = .next (s.setErrand tile slot { e with stalled := none })) ∧
  (AtUnit s e → ∀ a, e.stalled = some a → ∀ s1 e1, doUnit s tile slot { e with stalled := none } = .wait s1 e1 →
    exec (.fetchReplay tile slot) s = .next (s1.setErrand tile slot { withGot s1 tile slot e1 with stalled := some a })) ∧
  (AtUnit s e → ∀ a, e.stalled = some a → ∀ s1 e1, doUnit s tile slot { e with stalled := none } = .stall s1 e1 a →
    exec (.fetchReplay tile slot) s = .next (s1.setErrand tile slot { withGot s1 tile slot e1 with stalled := some a, stallNs := e1.stallNs })) ∧
  (e.st = .running → errRuns s e = true → e.stalled ≠ none → needsDesc e = true → exec (.fetchReplay tile slot) s = .next (goStart s tile slot e)) ∧
  ((e.st = .running ∨ e.st = .waiting) → ∀ a, e.stalled = some a → e.stallNs + 1000000 ≤ s.dev.hubNs →
    exec (.replayTimeout tile slot) s = .next (endErrand s tile slot e .failed cPAGE_NOT_PRESENT 0 a))

/-! ### Events of the dispatchers, of pre-emption and of periods (R316 to R322, R344 to R373) -/

namespace Sys2Proof.Claims
open Sys2Proof Sys2Proof.Machine

/-- A group of a tile with its state. -/
def At (s : State) (tile : Nat) (g : Group) : Prop := (s.tile tile).group = some g
def setGroup (s : State) (tile : Nat) (g : Group) : State := s.modTile tile fun t => { t with group := some g }

/-- What a whole action of the hub comes to that would leave `t`: nothing but its requests while it waits for a page, else `t` (R302, R304). -/
def waited (s t : State) : State := if t.hubWait then asks s t else t

/-- The running threads of a tile. -/
def runners (s : State) (tile : Nat) : List (Nat × Thread) := (tileThreads s tile).filter fun kt => kt.2.running

/-- The tiles whose last group was the kernel's. -/
def ownTiles (s : State) (kn : Nat) (k : Kernel) : List Nat := k.tiles.filter fun t => (s.tile t).last = some kn

/-- A kernel after its completion entry: reset tiles, written-back buffers, result digests or a failure, errand slots freed, the context MEASURED behind its
last kernel (R355, R356). -/
def afterKernel (s : State) (kn : Nat) (k : Kernel) : State × Nat × Word :=
  let s := buffersOut ((ownTiles s kn k).foldl spReset s) k.ctx k.bufs
  let fail := fun (s : State) (c : BitVec 6) => (s, 6, BitVec.ofNat 64 (c.toNat + k.allot * 2 ^ 16), KStat.failed, c)
  let r := if k.st = .complete then (match measured s k.ctx k.bufs with
      | (s, .ok l) => (l.foldl (fun s x => appendResult s k.ctx x.1 x.2) s, 0, 0, KStat.complete, 0)
      | (s, .error c) => fail s c)
    else fail s k.cause
  let s := (freeKernelErrands r.1 kn).setKern kn { k with st := r.2.2.2.1, cause := r.2.2.2.2, written := true }
  (if lastKernel s k.ctx then s.modCtx k.ctx fun c => { c with st := if c.st = .running then .measured else c.st } else s, r.2.1, r.2.2.1)

end Sys2Proof.Claims

/-- The dispatchers' events have their effect: a launch whose groups fit is placed, and starts its leads or its root; a starving launch is marked; the first eligible
task leaves its queue for the next cycle and starts as a thread, a callee or an activation; a complete or failed kernel without a live errand makes its completion; periods restart the meters and the frame table, and update
the headroom within the power limit, 0 for a die at a stop mark (R28 to R30, R345, R346, R352 to R356, R359, R367, R371, R372). Which throttle mark
lowers a headroom, and which dies are served first within the power limit, are the model's choices (logs 98 and 99). -/
def Obligations.DispatchEventResult : Prop :=
  (∀ (s : State) (n : Nat) (k : Kernel) (ts : List Nat), pickLaunch s (queuedLaunches s) = some (n, k, ts) →
    exec .groupPlacement s = .next ((ts.zipIdx.foldl (fun s tr => reserveTile s n k.ctx tr) s).setKern n
      { k with st := .placed, tiles := ts, live := List.range k.groups, stackAt := kernelBlocks s k })) ∧
  (∀ (s : State) (kn : Nat) (k : Kernel), s.kern? kn = some k → k.st = .placed → startOpen s k = true →
    let r0 := buffersIn s k.ctx k.bufs
    let r := k.tiles.foldl (fun s t => resetTile s k t) r0
    (r0.hubWait = true → exec (.groupStart kn) s = .next (asks s r0)) ∧
    (r0.hubWait = false → hdrGraph k.hdr = false →
      exec (.groupStart kn) s = .next (waited s (k.tiles.foldl (fun s t => startLead s kn k t) (r.setKern kn { k with st := .running })))) ∧
    (r0.hubWait = false → hdrGraph k.hdr = true → ∀ s1, injectRoot r kn k = some s1 → exec (.groupStart kn) s = .next (waited s s1)) ∧
    (r0.hubWait = false → hdrGraph k.hdr = true → injectRoot r kn k = none → exec (.groupStart kn) s = .next s)) ∧
  (∀ (s : State) (kn : Nat) (k : Kernel), s.kern? kn = some k → startOpen s k = false → exec (.groupStart kn) s = .next s) ∧
  (∀ (s : State) (n : Nat) (k : Kernel), s.kern? n = some k → k.st = .queued → k.since + 200000 ≤ s.dev.hubNs →
    exec (.launchStarvation n) s = .next (s.setKern n { k with starve := true })) ∧
  (∀ (s : State) (die ix tile kn tp : Nat) (t : Task) (ty : Option (TaskType × Nat)) (k : Kernel), pickTask s die = some (ix, t, tile, ty) →
    groupKernel s tile = some kn → spareContext s tile = some tp → s.kern? kn = some k →
    let u := { s with tasks := s.tasks.eraseIdx ix, dev := { s.dev with cycles := s.dev.cycles + 1 } }
    let v := syncHead u t.ctx t.allot
    (∀ fa c s1, t.call = some (fa, c) → startCallee u tile tp t fa kn k = some s1 → exec (.taskDispatch die) s = .next s1) ∧
    (∀ y o, t.call = none → ty = some (y, o) → y.entry.getLsbD 0 = false → exec (.taskDispatch die) s = .next (startTaskC v tile tp t y o kn k)) ∧
    (∀ y o s1, t.call = none → ty = some (y, o) → y.entry.getLsbD 0 = true → startTaskG v tile t y o kn k = some s1 →
      exec (.taskDispatch die) s = .next s1)) ∧
  (∀ (s : State) (kn : Nat) (k : Kernel), s.kern? kn = some k → (k.st = .complete ∨ k.st = .failed) → k.written = false →
    liveErrands s kn = false → (∀ t ∈ ownTiles s kn k, tileHeld s t = false) →
    let r := afterKernel s kn k
    exec (.kernelCompletion kn) s = .next (waited s (complete r.1 k.queue
      { tag := k.tag, ctx := k.ctx, status := r.2.1, value := r.2.2, index := k.pkt, notify := k.notify }))) ∧
  (∀ (s : State), ∃ t, exec .budgetPeriod s = .next t ∧ t.dev = { s.dev with slot := Vector.replicate 4 0 } ∧
    ((∀ kc ∈ s.ctxs, kc.2.pending = none) →
      t.ctxs = s.ctxs.map (fun kc => (kc.1, { kc.2 with allots := kc.2.allots.map fun ja => (ja.1, ja.2.nextPeriod) })) ∧
      t = { s with ctxs := t.ctxs, dev := t.dev })) ∧
  (∀ (s : State) (h0 h1 h2 h3 : BitVec 24), ∃ t, exec (.headroomUpdate h0 h1 h2 h3) s = .next t ∧
    t = { s with dev := { s.dev with active := s.dev.plimit, headroom := t.dev.headroom } } ∧
    let was := fun i => getV s.dev.headroom { head := 0, epoch := 0 } i
    let now := fun i => getV t.dev.headroom { head := 0, epoch := 0 } i
    ((List.range 4).map fun i => (now i).head.toNat).sum ≤ 1000 * s.dev.plimit ∧
    (∀ i < 4, (now i).epoch = (was i).epoch + 1 ∧ ((now i).thr = true ↔ (now i).head.toNat < 150000) ∧ (dieHalted s i = true → (now i).head = 0) ∧
      (isolShare s i = 0 → (now i).head.toNat ≤ ([h0, h1, h2, h3].getD i 0).toNat)) ∧
    ((∀ d < 4, isolShare s d = 0) → h0.toNat + h1.toNat + h2.toNat + h3.toNat ≤ 1000 * s.dev.plimit →
      ∀ i < 4, dieHalted s i = false → s.dev.thThrottled.getLsbD i = false → (now i).head = [h0, h1, h2, h3].getD i 0)) ∧
  (∀ (s : State) (die : Nat), die < 4 → ∃ t, exec (.bellSlot die) s = .next t ∧ t = { s with dev := { s.dev with slot := t.dev.slot } } ∧
    getV t.dev.slot 0 die = (getV s.dev.slot 0 die + 1) % 64 ∧ ∀ i < 4, i ≠ die → getV t.dev.slot 0 i = getV s.dev.slot 0 i)

/-- Pre-emption and restore move a live group through RESIDENT, PREEMPTING, SAVED and RESTORING (R312, R319 to R322, Tables 14-3, 14-4): a deferred error is
reported before the save; the save releases, the restore acquires; an evicted group moves to its area and back to a tile that fits it. -/
def Obligations.ResidencyEventResult : Prop :=
  (∀ (s : State) (tile : Nat) (g : Group), tile < 512 → At s tile g → g.stat = .live →
    (g.resid = .resident → exec (.preemptRequest tile) s = .next (beginPreempt s tile g)) ∧
    (g.resid = .restoring → exec (.preemptRequest tile) s = .next (setGroup s tile { g with preemptReq := true })) ∧
    (g.resid = .preempting → exec (.preemptRequest tile) s = .next (setGroup s tile { g with restoreReq := false })) ∧
    (g.resid = .saved → exec (.preemptRequest tile) s = .next s)) ∧
  (∀ (s : State) (tile : Nat) (g : Group), At s tile g → g.resid = .preempting →
    (∀ kt d r, (runners s tile).find? (fun kt => !kt.2.deferred.isEmpty) = some kt → kt.2.deferred = d :: r →
      exec (.saveComplete tile) s = .next (takeTrap (s.setThr kt.1 { kt.2 with deferred := r }) kt.1 d.cause kt.2.pc d.addr d.info)) ∧
    ((∀ kt ∈ runners s tile, kt.2.deferred = [] ∧ settled kt.2 = true) → drainHeld s tile (fun _ => true) = false →
      (∀ x ∈ tileErrands s tile, parks s x.2.2 = true → x.2.2.st ≠ .running ∧ x.2.2.st ≠ .publishing) →
      let s1 := unplaceWaits (releaseDevice s tile) tile
      let back := g.restoreReq && (s1.kern? g.kernel).any fun k => runsOn s1 tile k.ctx
      exec (.saveComplete tile) s = .next (setGroup s1 tile { g with resid := if back then .restoring else .saved, restoreReq := false }))) ∧
  (∀ (s : State) (tile : Nat) (g : Group), tile < 512 → At s tile g → g.resid = .saved →
    tileHeld s tile = false → (∀ x ∈ allErrands s, goesAlong tile g x.2.2 = true → x.2.2.st ≠ .running ∧ x.2.2.st ≠ .publishing) →
    exec (.groupEviction tile) s = .next (moveGroup
      ((s.tile tile).spmap.toList.foldl (fun s' e => if e.getLsbD 63 then spWriteBack s' tile e else s') s)
      tile (evictionArea g.kernel g.rank) g)) ∧
  (∀ (s : State) (kn rank tile : Nat) (k : Kernel) (g : Group), s.kern? kn = some k → k.tiles.getD rank 512 = tile → tile < 512 →
    runsOn s tile k.ctx = true → At s tile g → g.resid = .saved →
    exec (.restoreRequest kn rank tile) s = .next (setGroup s tile { g with resid := .restoring })) ∧
  (∀ (s : State) (kn rank tile : Nat) (k : Kernel) (g : Group), s.kern? kn = some k → k.tiles.getD rank 512 = evictionArea kn rank →
    tile ≠ evictionArea kn rank → At s (evictionArea kn rank) g → g.resid = .saved → tileFits s k tile = true →
    roomFor s (evictionArea kn rank) tile = true → runsOn s tile k.ctx = true →
    let area := evictionArea kn rank
    let s1 := moveGroup (handTile s tile k.ctx) area tile { g with resid := .restoring }
    let s2 := zeroRange { s1 with tiles := Tbl.erase s1.tiles area } (scratchBase area) (scratchBase area + 2 ^ 20)
    exec (.restoreRequest kn rank tile) s = .next (registerAll s2 tile k.ctx)) ∧
  (∀ (s : State) (tile : Nat) (g : Group), At s tile g → g.resid = .restoring →
    exec (.restoreComplete tile) s = .next (if g.preemptReq then beginPreempt (acquireDevice s tile) tile { g with resid := .resident }
      else setGroup (acquireDevice s tile) tile { g with resid := .resident }))

/-! ### Packets, completions and receipts (R313 to R315, R325 to R340, R350, R351) -/

namespace Sys2Proof.Claims
open Sys2Proof Sys2Proof.Machine

/-- The packet that the reeve column takes next from a queue, and the state that has taken it (R333). -/
def taken (s : State) (q : Nat) : Option (State × Pkt) :=
  if !mayTake s q then none else
  let x := s.queue q
  match ringRead s q x.qbase (x.qhead.toNat % 2 ^ x.logn.toNat * 128) 128 with
  | (_, .error _) => none
  | (s, .ok bs) =>
    let p : Pkt := { bytes := BitVec.ofNat 1024 (leNat bs), index := x.qhead.toNat, queue := q }
    some ((servedQ q s).modQueue q fun x => { x with st := .busy, qhead := x.qhead + 1, opened := x.opened ++ [p.index] }, p)

/-- What a packet's handling comes to that would leave `t`: while it waits for a page, its queue has only had its turn (R302, R333). -/
def turned (s : State) (q : Nat) (t : State) : State := if t.hubWait then servedQ q (asks s t) else t

/-- A packet of a context of the queue's function, in a state that accepts it, with its reserved bytes zero. -/
structure Accepts (s s1 : State) (q : Nat) (p : Pkt) (kind : Nat) (sts : List CStat) (named : List (Nat × Nat)) : Prop where
  taken : taken s q = some (s1, p)
  kind  : p.kind = kind
  some_ : p.ctx ≠ 0 ∧ p.ctx < 4096
  owner : (s1.ctx p.ctx).st ≠ .free ∧ (s1.ctx p.ctx).owner = q / 16
  state : (s1.ctx p.ctx).st ∈ sts
  bytes : p.reservedOk named = true

/-- Running and measured states. -/
def active3 : List CStat := [.measured, .running, .faulted]

/-- The packets that name a context: constructor, KIND, the states that accept it, and the fields that it names (Table 15-4). -/
def ctxKinds (bl : List Word) : List ((Nat → Instr) × Nat × List CStat × List (Nat × Nat)) :=
  [(.destroy, 2, [.created, .measured, .running, .faulted], []), ((.allot · bl), 3, active3, [(8, 8)]), (.load, 4, [.measured, .running], [(8, 16)]),
   (.launch, 5, [.measured, .running], [(8, 25), (36, 20)]), (.copy, 6, active3, [(8, 24)]), (.receipt, 7, active3, [(8, 9), (24, 8)]),
   (.barrier, 8, liveStates, []), (.signal, 9, liveStates, [(8, 16)]), (.grouptab, 11, active3, [(8, 6), (16, 8)])]

/-- A new context's record: page tables, log and owner from the packet; the translation registers stay (R313). -/
def newCtx (s : State) (cn q : Nat) (p : Pkt) : Ctx :=
  let o := s.ctx cn
  { Ctx.reset with lmax := o.lmax, mapseq := o.mapseq, mapdone := o.mapdone, mapq := o.mapq, st := .created, owner := q / 16, ptRoot := (p.w 16).toNat, logBase := p.w 24, logL := p.f 32 1 }

/-- A waiting completion of a queue. -/
def pend (s : State) (q : Nat) (w : Pend) (c : Compl) : State := s.modQueue q fun x => { x with pends := x.pends ++ [(w, c)] }

/-- The receipt request of a packet. -/
def receiptOf (q : Nat) (p : Pkt) : ReceiptReq :=
  { queue := q, compl := p.compl sOK 0, ctx := p.ctx, nonce := p.w 8, n := p.f 16 1, out := p.w 24, seq := 0, chain := 0, digs := [] }

end Sys2Proof.Claims

/-- A packet that names no context of its function, one whose state does not accept it, or has a reserved byte set, completes with NOTOWNER, BADSTATE or BADFIELD and has no
other effect but its queue's turn; an unknown KIND completes with BADKIND (R333 to R335, Tables 15-4, 15-6). -/
def Obligations.PacketRefusals : Prop :=
  (∀ bl, ∀ x ∈ ctxKinds bl, ∀ (s s1 : State) (q : Nat) (p : Pkt), taken s q = some (s1, p) → p.kind = x.2.1 →
    let c := s1.ctx p.ctx
    let own := p.ctx ≠ 0 ∧ p.ctx < 4096 ∧ c.st ≠ .free ∧ c.owner = q / 16
    (¬ own → exec (x.1 q) s = .next (turned s q (finish s1 p sNOTOWNER 0))) ∧
    (own → c.st ∉ x.2.2.1 → exec (x.1 q) s = .next (turned s q (finish s1 p sBADSTATE 0))) ∧
    (own → c.st ∈ x.2.2.1 → p.reservedOk x.2.2.2 = false → exec (x.1 q) s = .next (turned s q (finish s1 p sBADFIELD 0)))) ∧
  (∀ (s s1 : State) (q : Nat) (p : Pkt), taken s q = some (s1, p) → (p.kind = 0 ∨ 12 < p.kind) → exec (.badkind q) s = .next (turned s q (finish s1 p sBADKIND 0)))

/-- Each packet that passes its checks has its effect: a context is created or destroyed, its tree changes, an object is loaded, a kernel queued, bytes copied, a
receipt asked for, a barrier raised, a word signalled, groups moved, a table of groups or a peer's entry written (R313, R315, R325, R329, R335 to R339, R351). -/
def Obligations.PacketResult : Prop :=
  (∀ (s s1 s2 : State) (q cn : Nat) (p : Pkt) (ts : List Nat) (tree : Tbl Allot) (bl : List Word), taken s q = some (s1, p) → p.kind = 1 → p.ctx = 0 →
    p.reservedOk [(8, 25), (40, 8)] = true → 4 ≤ p.f 32 1 → p.f 32 1 ≤ 20 → rootOk (p.w 16) = true → ownsOne s1 (q / 16) = false →
    freeContext s1 = some cn → createCheck (s1.setCtx cn (newCtx s1 cn q p)) cn p bl = (s2, .ok (ts, tree)) →
    exec (.create q bl) s = .next (turned s q (pend (ts.foldl (fun t k => t.modTile k fun x => { x with vault := cn })
      (s2.setCtx cn { newCtx s1 cn q p with allots := tree })) q (.measure cn) { p.compl sOK (BitVec.ofNat 64 cn) with ctx := cn }))) ∧
  (∀ (s s1 : State) (q : Nat) (p : Pkt), Accepts s s1 q p 2 [.created, .measured, .running, .faulted] [] →
    exec (.destroy q) s = .next (turned s q (pend (beginTeardown s1 p.ctx) q (.free p.ctx) (p.compl sOK 0)))) ∧
  (∀ (s s1 s2 : State) (q : Nat) (p : Pkt) (t : Tbl Allot) (bl : List Word), Accepts s s1 q p 3 active3 [(8, 8)] →
    readTree s1 p.ctx (fun t => (s1.tile t).vault = p.ctx) (p.w 8) bl = (s2, some t) →
    exec (.allot q bl) s = .next (turned s q (finish (s2.modCtx p.ctx fun c => { c with pending := some t }) p sOK 0))) ∧
  (∀ (s s1 s2 s3 s4 : State) (q : Nat) (p : Pkt) (bs : List Byte) (o : CodeObj), Accepts s s1 q p 4 [.measured, .running] [(8, 16)] → p.f 16 8 ≤ 2 ^ 30 →
    hubCheck s1 p.ctx (p.w 8) (p.f 16 8) .rd = (s2, .ok ()) → hubReadVa s2 p.ctx (p.w 8) (p.f 16 8) = (s3, .ok bs) →
    let base := baseFor s3 p.ctx bs
    codeObj bs base = some o → copySegs s3 p.ctx base bs (elfSegs bs) = (s4, .ok ()) →
    exec (.load q) s = .next (turned s q (finish (appendEvent (s4.modCtx p.ctx fun c => { c with objs := c.objs ++ [o] }) p.ctx 2 bs) p sOK base))) ∧
  (∀ (s s1 s2 s3 s4 s5 s6 s7 : State) (q : Nat) (p : Pkt) (bs args : List Byte) (bufs : List Buf) (x : CodeObj × List Placement × BitVec 512 × BitVec 512),
    Accepts s s1 q p 5 [.measured, .running] [(8, 25), (36, 20)] → launchFieldsOk p = true →
    hubCheck s1 p.ctx (p.w 16) (p.f 24 4) .rd = (s2, .ok ()) → hubCheck s2 p.ctx (p.w 40) (32 * p.f 36 4) .rd = (s3, .ok ()) →
    hubReadVa s3 p.ctx (p.w 40) (32 * p.f 36 4) = (s4, .ok bs) → bufsOk s4 p.ctx ((List.range (p.f 36 4)).map (bufAt bs)) = (s5, some bufs) →
    launchCheck s5 p = (s6, .ok x) → hubReadVa s6 p.ctx (p.w 16) (p.f 24 4) = (s7, .ok args) →
    exec (.launch q) s = .next (turned s q (acceptLaunch s7 p bufs args x))) ∧
  (∀ (s s1 s2 s3 s4 s5 : State) (q : Nat) (p : Pkt) (bs : List Byte), Accepts s s1 q p 6 active3 [(8, 24)] →
    hubCheck s1 p.ctx (p.w 16) (p.f 24 8) .rd = (s2, .ok ()) → hubCheck s2 p.ctx (p.w 8) (p.f 24 8) .wr = (s3, .ok ()) →
    hubReadVa s3 p.ctx (p.w 16) (p.f 24 8) = (s4, .ok bs) → hubWriteVa s4 p.ctx (p.w 8) bs = (s5, .ok ()) →
    exec (.copy q) s = .next (turned s q (finish s5 p sOK 0))) ∧
  (∀ (s s1 s2 : State) (q : Nat) (p : Pkt), Accepts s s1 q p 7 active3 [(8, 9), (24, 8)] → p.f 16 1 ≤ 32 →
    outCheck s1 p.ctx (p.w 24) (receiptLen (p.f 16 1)) .wr = (s2, .ok ()) →
    exec (.receipt q) s = .next (turned s q (if s2.fw.window then { s2 with fw := { s2.fw with held := s2.fw.held ++ [receiptOf q p] } }
      else { s2 with fw := { s2.fw with pend := s2.fw.pend ++ [fixReceipt s2 (receiptOf q p)] } }))) ∧
  (∀ (s s1 : State) (q : Nat) (p : Pkt), Accepts s s1 q p 8 liveStates [] →
    exec (.barrier q) s = .next (turned s q (settlePends (s1.modQueue q fun x =>
      { x with barrier := some (p.index, p.compl sOK 0), st := if x.opened.length = 1 then x.st else .held }) q))) ∧
  (∀ (s s1 s2 s3 : State) (q : Nat) (p : Pkt), Accepts s s1 q p 9 liveStates [(8, 16)] → p.f 8 8 % 8 = 0 →
    hubCheck s1 p.ctx (p.w 8) 8 .wr = (s2, .ok ()) → hubWriteVa s2 p.ctx (p.w 8) (bytesOf 8 (p.w 16)) = (s3, .ok ()) →
    exec (.signal q) s = .next (turned s q (finish s3 p sOK 0))) ∧
  (∀ x ∈ [((Instr.preempt : Nat → Instr), false), (.restore, true)], ∀ (s s1 : State) (q : Nat) (p : Pkt), Accepts s s1 q p 10 active3 [(8, 3)] →
    p.f 10 1 = (if x.2 then 1 else 0) → (Tbl.find? (s1.ctx p.ctx).allots (p.f 8 2)).isSome = true → (s1.ctx p.ctx).st = .running →
    let gs := subtreeGroups s1 p.ctx (p.f 8 2)
    let s2 := gs.foldl (fun s g => if 512 ≤ g.2.2 then s else if x.2 then (if runsOn s g.2.2 p.ctx then requestRestore s g.2.2 else s) else requestPreempt s g.2.2) s1
    exec (x.1 q) s = .next (turned s q (pend s2 q (.move (gs.map fun g => (g.1, g.2.1)) x.2) (p.compl sOK 0)))) ∧
  (∀ (s s1 s2 s3 : State) (q : Nat) (p : Pkt) (bs : List Byte), Accepts s s1 q p 11 active3 [(8, 6), (16, 8)] → 0 < p.f 12 2 →
    hubCheck s1 p.ctx (p.w 16) (8 * p.f 12 2) .rd = (s2, .ok ()) → hubReadVa s2 p.ctx (p.w 16) (8 * p.f 12 2) = (s3, .ok bs) →
    let ms := (List.range (p.f 12 2)).map fun i => memberOf s3 ((bs.drop (8 * i)).take 8)
    (∀ m ∈ ms, m ≠ none) → ((Tbl.find? (s3.ctx p.ctx).groups (p.f 8 4)).isSome = true ∨ (s3.ctx p.ctx).groups.length < 1024) →
    exec (.grouptab q) s = .next (turned s q (finish (s3.modCtx p.ctx fun c => { c with groups := Tbl.set c.groups (p.f 8 4) (ms.filterMap id) }) p sOK 0))) ∧
  (∀ (s s1 : State) (q : Nat) (p : Pkt), Accepts s s1 q p 11 active3 [(8, 6), (16, 8)] → p.f 12 2 = 0 →
    exec (.grouptab q) s = .next (turned s q (finish (s1.modCtx p.ctx fun c => { c with groups := Tbl.erase c.groups (p.f 8 4) }) p sOK 0))) ∧
  (∀ (s s1 : State) (q : Nat) (p : Pkt), taken s q = some (s1, p) → p.kind = 12 → q < 16 → p.ctx = 0 → p.reservedOk [(8, 4), (16, 8)] = true →
    p.f 8 1 ≤ 254 → p.f 9 1 < 2 → p.f 10 2 < 4096 →
    exec (.peertab q) s = .next (turned s q (finish { s1 with peers := Tbl.set s1.peers (p.f 8 1) { valid := p.f 9 1 = 1, links := BitVec.ofNat 12 (p.f 10 2), devser := p.w 16 } } p sOK 0)))

/-- Completions and receipts: the oldest completion of a queue goes to its ring slot, advances CTAIL and sends the message that NOTIFY asks for; the oldest receipt request
takes the next one-time index and completes with the length written; teardown leaves the context FREE (R326, R327, R329, R340). -/
def Obligations.CompletionResult : Prop :=
  (∀ (s s1 : State) (q : Nat) (c : Compl) (r : List Compl),
    let s0 := settlePends (measureNew s q) q
    let x := s0.queue q
    x.compls = c :: r → x.ringerr = false → (x.ctail - x.chead).toNat < 2 ^ x.logn.toNat →
    ringWrite s0 q x.cbase (x.ctail.toNat % 2 ^ x.logn.toNat * 32) (complBytes c x.ctail.toNat x.logn.toNat) = (s1, .ok ()) →
    let s2 := s1.modQueue q fun x => { x with compls := r, opened := x.opened.filter (· ≠ c.index), ctail := x.ctail + 1 }
    let s3 := if c.notify then { s2 with dev := { s2.dev with msix := s2.dev.msix ++ [(q / 16, x.vec.toNat)] } } else s2
    exec (.completionEntryWrite q) s = .next (waited s ((settlePends s3 q).modQueue q Queue.after))) ∧
  (∀ (s s1 : State) (r : ReceiptReq) (rest : List ReceiptReq), s.fw.pend = r :: rest → s.fw.window = false → s.fw.keyNext < s.fw.keyEnd → s.fw.keyNext < 2 ^ 30 →
    let s0 := { s with fw := { s.fw with pend := rest, keyNext := s.fw.keyNext + 1 } }
    let body := receiptBody s0 r
    let bs := body ++ hssSignature s.fw.keyNext body
    outWrite s0 r.ctx r.out bs = (s1, .ok ()) →
    exec .receiptSigned s = .next (waited s (complete s1 r.queue { r.compl with status := sOK, value := BitVec.ofNat 64 bs.length }))) ∧
  (∀ (s : State) (cn : Nat), (s.ctx cn).st = .teardown → mayFree s cn = true →
    ∃ t, exec (.teardownComplete cn) s = .next t ∧ (t.ctx cn).st = .free ∧ (∀ kk ∈ t.kernels, kk.2.ctx ≠ cn) ∧ (∀ x ∈ t.tasks, x.ctx ≠ cn) ∧
      (∀ kt ∈ t.tiles, ∀ e ∈ kt.2.tlb, e.ctx ≠ cn) ∧ (∀ e ∈ t.walkCache, e.2.ctx ≠ cn) ∧ (∀ kt ∈ t.threads, kt.2.ctx ≠ cn))

/-! ### Host registers, apertures, links, die reset (R29, R302, R331, R332, R340, R341, R403, R408, R411 to R417, R420 to R422, R455) -/

namespace Sys2Proof.Claims
open Sys2Proof Sys2Proof.Machine

/-- A host reply of a function. -/
def replied (s : State) (f : Nat) (r : Option (List Byte)) : State := s.modFunc f fun x => { x with reply := x.reply ++ [r] }

/-- One failed `PW2` access, counted up to all ones (R417). -/
def pw2Failed (s : State) (f : Nat) : State :=
  s.modFunc f fun x => { x with pw2err := if x.pw2err = BitVec.allOnes 32 then x.pw2err else x.pw2err + 1 }

/-- The host's requests reach the device, and none waits for an earlier one (R304, R411). -/
def HostOpen (s : State) : Prop := (s.link 20).st = .up ∧ s.posted = []

/-- What a request of the host that leaves `t` comes to: while it waits for a page or a path, it stands in the queue (R302, R304). -/
def queued (r : HostReq) (s t : State) : State := if t.hubWait then enqueue r (asks s t) else t

/-- The links of a die are ready for its reset: each QUIESCED or FAILED. -/
def linksDown (s : State) (d : Nat) : Prop := ∀ n ∈ dieLinks d, (s.link n).st = .quiesced ∨ (s.link n).st = .failed

/-- A region that lies in this device's HBM is in a state. -/
def Owns (s : State) (page : Nat) (r : RStat) : Prop := ownRegion page = true ∧ Tbl.get s.regions .home page = r

end Sys2Proof.Claims

/-- A write of a queue register completes where the host's requests reach the device and service level 1 has been entered (R331, R332, R340, R455), as the event of that
register or as the write at its offset (R8). -/
def Sys2Proof.Claims.QueueRegisterResult : Prop :=
  (∀ (s : State) (q : Nat) (v : Word), HostOpen s → s.fw.running = true → q < 1024 →
    exec (.qcfg q v) s = .next (s.modQueue q (·.writeCfg v)) ∧
    exec (.qtail q v) s = .next (s.modQueue q (·.writeTail (v.setWidth 32))) ∧
    exec (.chead q v) s = .next (s.modQueue q (·.writeHead (v.setWidth 32))) ∧
    exec (.ringerr q v) s = .next (s.modQueue q fun x =>
      { x with ringerr := x.ringerr && !v.getLsbD 3, dberr := x.dberr && !v.getLsbD 2, cfgerr := x.cfgerr && !v.getLsbD 1 }) ∧
    exec (.registerWrite (q / 16) (.pw4 (q * 0x1000 + 0x08)) v) s = .next (s.modQueue q (·.writeCfg v)) ∧
    exec (.registerWrite (q / 16) (.pw4 (q * 0x1000 + 0x10)) v) s = .next (s.modQueue q (·.writeTail (v.setWidth 32))) ∧
    ((s.queue q).en = false → (s.queue q).st ≠ .draining →
      exec (.registerWrite (q / 16) (.pw4 (q * 0x1000)) v) s = .next (s.modQueue q fun x => { x with qbase := v }))) ∧
  (∀ (x : Queue) (t : BitVec 32), x.en = true → (t - x.qhead).toNat ≤ 2 ^ x.logn.toNat → (t - x.qtail).toNat ≤ 2 ^ x.logn.toNat →
    (x.writeTail t).qtail = t ∧ (x.writeTail t).dberr = x.dberr) ∧
  (∀ (x : Queue) (t : BitVec 32), (x.en = false ∨ 2 ^ x.logn.toNat < (t - x.qhead).toNat) →
    (x.writeTail t).qtail = x.qtail ∧ (x.writeTail t).dberr = true)

/-- A write or a counting read of a `PW0` register, and a mailbox register, completes where the host's requests reach the device, above service level 0 (R8, R29, R403,
R416, R417, R429); a write of MAPSEQ asks for a replay of the context's stalled errands (R387), and MAPDONE takes the oldest value whose leases are over. -/
def Sys2Proof.Claims.HostRegisterResult : Prop :=
  (∀ (s : State) (v : Word), HostOpen s → s.dev.service ≠ 0 →
    exec (.plimit v) s = .next { s with dev := { s.dev with plimit := min 2800 (max 1200 (fieldOf v 0 16)) / 50 * 50 } } ∧
    exec (.registerWrite 0 (.pw0 0x100) v) s = exec (.plimit v) s) ∧
  (∀ (s : State) (v : Word), HostOpen s →
    exec (.registerWrite 0 (.mailbox 0) v) s = .next { s with fw := { s.fw with fwaddr := v } } ∧
    exec (.registerWrite 0 (.mailbox 8) v) s = .next { s with fw := { s.fw with fwlen := v } }) ∧
  (∀ (s : State) (f : Nat) (v : Word), HostOpen s → s.dev.service ≠ 0 → 0 < f → f < 64 →
    exec (.registerWrite f (.pw0 0x200) v) s = .next (s.modFunc f fun x => { x with pw2ctx := v.setWidth 12 })) ∧
  (∀ (s : State) (cn : Nat) (v : Word), HostOpen s → s.dev.service ≠ 0 → cn < 4096 →
    exec (.lmax cn v) s = .next (s.modCtx cn fun c => { c with lmax := min 256 (max 1 v.toNat) }) ∧
    let t := mapseqWrite s cn v
    exec (.mapseq cn v) s = .next t ∧ (t.ctx cn).mapseq = v ∧
      (∃ r, (t.ctx cn).mapq = (s.ctx cn).mapq ++ [r] ∧ r.value = v ∧ r.ns = s.dev.hubNs ∧ r.lease = longestLease s cn) ∧
      (∀ i, (∃ x ∈ allErrands s, x.2.2.ctx = cn ∧ x.2.2.stalled ≠ none ∧ i = Instr.fetchReplay x.1 x.2.1) → Move.event i ∈ t.agenda) ∧
      t = { s with ctxs := t.ctxs, agenda := t.agenda }) ∧
  (∀ (s : State) (cn : Nat) (r : MapReq) (rest : List MapReq), (s.ctx cn).mapq = r :: rest → r.ns + 1000 * r.lease + 1000 ≤ s.dev.hubNs →
    underOld s cn r = false →
    exec (.mapdoneAdvance cn) s = .next { s.modCtx cn (fun c => { c with mapdone := r.value, mapq := rest }) with
      faces := s.faces.filter fun f => !r.gone.contains f.1 }) ∧
  (∀ (s : State) (n : Nat), HostOpen s → s.dev.service ≠ 0 → n < 21 →
    exec (.lerr n) s = .next (replied (s.modLink n fun l => { l with retrain := 0, replay := 0, crcErr := 0 }) 0
      (some (bytesOf 8 ((s.link n).retrain ++ ((s.link n).replay ++ (s.link n).crcErr) : Word))))) ∧
  (∀ (s : State) (f : Nat), HostOpen s → s.dev.service ≠ 0 → f < 64 →
    exec (.pw2err f) s = .next (replied (s.modFunc f fun x => { x with pw2err := 0 }) f (some (bytesOf 8 ((s.func f).pw2err.setWidth 64)))))

/-- A request of the host that finds an earlier one waiting is queued behind it, and one that the link does not carry does nothing (R304, R411; log 116). -/
def Sys2Proof.Claims.HostOrderResult : Prop :=
  ∀ (s : State) (f : Nat) (r : HostReg) (v : Word),
    ((s.link 20).st = .up → s.posted ≠ [] → exec (.registerWrite f r v) s = .next (enqueue (.regWrite f r v) s)) ∧
    ((s.link 20).st ≠ .up → ownControl (.regWrite f r v) = false → exec (.registerWrite f r v) s = .next s)

/-- What the host reads in registers (R8, R31, R330, R403, R416, R420): a queue's pointers and state, zero where an offset is write-only or lies outside the function's own
64 KiB; an access of another size than 8 bytes is dropped and reads zero; the DVSEC header names the vendor and DVSEC ID 1 (R429); `SR.DEVID` at every level; the power limit, the reset register without GO, and a context's translation registers, above level 0. -/
def Sys2Proof.Claims.HostReadResult : Prop :=
  (∀ (s : State) (f : Nat), (regRead s f (.pw0 0)).2 = devId s) ∧
  (∀ (s : State) (f off : Nat), s.dev.service = 0 → off ≠ 0 → regRead s f (.pw0 off) = (s, 0)) ∧
  (∀ (s : State) (f off n : Nat) (v : Word), regRead s f (.sized off 8) = regRead s f (.pw0 off) ∧
    (n ≠ 8 → regRead s f (.sized off n) = (s, 0) ∧ (HostOpen s → f < 64 → exec (.registerWrite f (.sized off n) v) s = .next s))) ∧
  (∀ (s : State), (regRead s 0 (.dvsec 4)).2.extractLsb' 0 16 = Config.vendorId ∧ (regRead s 0 (.dvsec 8)).2.extractLsb' 0 16 = 0x0001#16) ∧
  (∀ (s : State) (q : Nat), q < 1024 →
    let rd := fun off => (regRead s (q / 16) (.pw4 (q * 0x1000 + off))).2
    let x := s.queue q
    (s.fw.running = true →
      rd 0x00 = x.qbase ∧ rd 0x10 = 0 ∧ rd 0x18 = x.qhead.setWidth 64 ∧ rd 0x20 = x.cbase ∧ rd 0x28 = x.ctail.setWidth 64 ∧ rd 0x30 = x.chead.setWidth 64 ∧
      (rd 0x38).getLsbD 0 = !x.opened.isEmpty ∧ (rd 0x38).getLsbD 3 = x.ringerr ∧ (rd 0x08).getLsbD 8 = x.en) ∧
    (s.fw.running = false → ∀ off < 0x1000, rd off = 0) ∧
    ∀ f off, f ≠ off / 0x10000 → (regRead s f (.pw4 off)).2 = 0) ∧
  (∀ (s : State), s.dev.service ≠ 0 →
    (regRead s 0 (.pw0 0x100)).2 = BitVec.ofNat 64 s.dev.plimit ∧ (regRead s 0 (.pw0 0x200)).2.getLsbD 0 = false ∧
    (regRead s 0 (.pw0 0x200)).2.extractLsb' 4 2 = s.dierst.sel ∧
    ∀ c < 4096, (regRead s 0 (.pw0 (0x1000000 + 0x20 * c))).2 = BitVec.ofNat 64 (s.ctx c).lmax ∧
      (regRead s 0 (.pw0 (0x1000000 + 0x20 * c + 8))).2 = (s.ctx c).mapseq ∧ (regRead s 0 (.pw0 (0x1000000 + 0x20 * c + 16))).2 = (s.ctx c).mapdone)

/-- A `PW2` access reaches the mapped context's memory; one that fails to translate is counted, and one whose bytes are out of reach or poisoned is not: a read is then
answered with Completer Abort, a write dropped whole, as at service level 0 (R417, R428; log 90). A function-level reset disables the function's queues and sends its contexts
to TEARDOWN (R314, R341). -/
def Sys2Proof.Claims.HostAccessResult : Prop :=
  (∀ (s s1 s2 : State) (f off n : Nat) (r : Except Fail (List Byte)), HostOpen s → f < 64 → off + n ≤ 2 ^ 38 → s.dev.service ≠ 0 →
    pw2Check s f off n .rd = (s1, .ok ()) → pw2Read s1 f off n = (s2, r) →
    exec (.hostPw2Read f off n) s = .next (queued (.pw2Read f off n) s (replied s2 f r.toOption))) ∧
  (∀ (s s1 : State) (f off n : Nat) (x : Fail), HostOpen s → f < 64 → off + n ≤ 2 ^ 38 → s.dev.service ≠ 0 → pw2Check s f off n .rd = (s1, .error x) →
    exec (.hostPw2Read f off n) s = .next (queued (.pw2Read f off n) s (replied (pw2Failed s1 f) f none))) ∧
  (∀ (s s1 s2 : State) (f off : Nat) (bs : List Byte) (r : Except Fail Unit), HostOpen s → f < 64 → off + bs.length ≤ 2 ^ 38 → s.dev.service ≠ 0 →
    pw2Check s f off bs.length .wr = (s1, .ok ()) → pw2Write s1 f off bs = (s2, r) →
    exec (.hostPw2Write f off bs) s = .next (queued (.pw2Write f off bs) s s2)) ∧
  (∀ (s s1 : State) (f off : Nat) (bs : List Byte) (x : Fail), HostOpen s → f < 64 → off + bs.length ≤ 2 ^ 38 → s.dev.service ≠ 0 →
    pw2Check s f off bs.length .wr = (s1, .error x) →
    exec (.hostPw2Write f off bs) s = .next (queued (.pw2Write f off bs) s (pw2Failed s1 f))) ∧
  (∀ (s : State) (f off n : Nat) (bs : List Byte), HostOpen s → f < 64 → off + n ≤ 2 ^ 38 → s.dev.service = 0 →
    exec (.hostPw2Read f off n) s = .next (replied s f none) ∧ exec (.hostPw2Write f off bs) s = .next s) ∧
  (∀ (s : State) (f : Nat), ∃ t, exec (.functionLevelReset f) s = .next t ∧ (∀ kq ∈ t.queues, kq.1 / 16 ≠ f) ∧
    ((∀ kc ∈ s.ctxs, kc.2.owner ≠ f) → t = dropQueues s f))

/-- Writes and reads of host registers, `PW2` accesses and a function-level reset have their effect (R8, R29, R31, R304, R330 to R332, R340, R341, R387, R403, R411, R416, R417, R429,
R455). -/
def Obligations.HostEventResult : Prop := QueueRegisterResult ∧ HostRegisterResult ∧ HostOrderResult ∧ HostReadResult ∧ HostAccessResult

/-- The life of a link (R411, Table 21-2) and its flits (R413, R414): requests of the host, training, quiescing, retraining; a good flit in order is taken and acknowledged,
a bad one counts and is asked for again; a flit that may not go yet waits its turn, and a link that comes UP replays what is not acknowledged. A request between dies takes the first path of R15 whose links are all UP, and has none where each crosses a link that is not (R412). -/
def Obligations.LinkEventResult : Prop :=
  (∀ (s : State) (n : Nat), 8 ≤ n → n ≤ 20 → s.dev.service ≠ 0 → ((s.link 20).st = .up → s.posted = []) → (n ≠ 20 → (s.link 20).st = .up) →
    let l := s.link n
    (l.st = .retraining → exec (.quiesce n) s = .next (s.modLink n fun l => { l with lctl := 1, quiescePending := true })) ∧
    (l.st = .up → exec (.quiesce n) s = .next (s.modLink n fun l => { l with lctl := 1, st := .quiescing })) ∧
    (l.st = .quiesced → exec (.resume n) s = .next (s.modLink n fun l => { l with lctl := 2, st := .up })) ∧
    (l.st = .up ∨ l.st = .quiesced → exec (.retrain n) s = .next (s.modLink n fun l => { l with lctl := 3 }.retrainNow s.dev.hubNs)) ∧
    (l.st = .down → exec (.retrain n) s = .next (s.modLink n fun l => { l with lctl := 3, st := .training })) ∧
    (l.st = .failed → exec (.retrain n) s = .next (s.modLink n fun l => { l with lctl := 3, st := .down, trainFail := 0, fails := [], lanes := 0, rate := 0 }))) ∧
  (∀ (s : State) (n : Nat),
    let l := s.link n
    (∀ lanes rate, l.st = .training →
      exec (.linkTrained n lanes rate) s = .next (bootLoad (raiseLevel (s.modLink n fun l =>
        ({ l with st := if resetHolds s n then .quiescing else .up, lanes := lanes, rate := rate } : Link).again s.dev.hubNs)))) ∧
    (l.st = .training → exec (.trainingFailure n) s = .next (raiseLevel (failInFlight (s.modLink n fun l => l.trainFailed s.dev.hubNs) n))) ∧
    (l.st = .quiescing → l.retry = [] → linkBusy s n = false → exec (.linkQuiesced n) s = .next (s.modLink n fun l => { l with st := .quiesced })) ∧
    (l.st = .retraining → s.dev.hubNs ≤ l.since + 1000000 → exec (.retrainComplete n) s = .next (raiseLevel (s.modLink n fun l =>
      ({ l with st := if l.quiescePending then .quiescing else .up, quiescePending := false } : Link).again s.dev.hubNs))) ∧
    (∀ now, l.unsent = [] → l.again now = { l with outbox := l.outbox ++ l.retry, replay := satAdd l.replay l.retry.length, ackNs := now }) ∧
    (∀ now kind payload, (l.unsent ≠ [] ∨ l.maySend kind = false) → l.send now kind payload = { l with unsent := l.unsent ++ [(kind, payload)] }) ∧
    (l.st = .retraining → l.since + 1000000 ≤ s.dev.hubNs →
      exec (.retrainTimeout n) s = .next (raiseLevel (failInFlight (s.modLink n fun l => l.trainFailed s.dev.hubNs) n))) ∧
    (l.st = .up ∨ l.st = .quiescing →
      exec (.laneLockLoss n) s = .next (s.modLink n fun l => l.retrainNow s.dev.hubNs)) ∧
    (l.st = .up ∨ l.st = .quiescing → l.retry ≠ [] → l.ackNs + 20000 ≤ s.dev.hubNs →
      exec (.ackTimeout n) s = .next (s.modLink n fun l => l.retrainNow s.dev.hubNs))) ∧
  (∀ (s : State) (n : Nat) (f : BitVec 2048), 8 ≤ n → n ≤ 19 → 2 ≤ s.dev.service.toNat → ((s.link n).st = .up ∨ (s.link n).st = .quiescing) →
    let l := s.link n
    let m := l.acked s.dev.hubNs (flitAck f) (flitNak f)
    (exec (.flitReceive n f false) s = .next (s.modLink n fun l => { l with crcErr := satAdd l.crcErr 1 }.answer true)) ∧
    (flitKind f ≠ 0 → flitKind f ≠ 5 → flitSeq f = m.rxSeq →
      let t := s.modLink n fun _ => { m with rxSeq := m.rxSeq + 1, inbox := m.inbox ++ [f] }.answer false
      exec (.flitReceive n f true) s = .next (if flitKind f = 1 then
        (if requestHeld s (f.extractLsb' 32 1920) then s else peerRequest t n (f.extractLsb' 32 1920)) else t)) ∧
    (flitKind f ≠ 0 → flitKind f ≠ 5 → flitSeq f ≠ m.rxSeq → exec (.flitReceive n f true) s = .next (s.modLink n fun _ => m.answer true)) ∧
    (flitKind f = 0 ∨ flitKind f = 5 → exec (.flitReceive n f true) s = .next (s.modLink n fun _ => m))) ∧
  (∀ (s : State) (a b : Nat),
    (∀ p, route s a b = some p → (∀ l ∈ p, (s.link l).st = .up) ∧
      ∃ before rest, paths a b = before ++ p :: rest ∧ ∀ q ∈ before, ∃ l ∈ q, (s.link l).st ≠ .up) ∧
    (route s a b = none → ∀ q ∈ paths a b, ∃ l ∈ q, (s.link l).st ≠ .up))

namespace Sys2Proof.Claims
open Sys2Proof Sys2Proof.Machine

/-- A region of this device that it serves: at home, under a tile's token, or software-managed. -/
def Here (s : State) (page : Nat) : Prop := Owns s page .home ∨ Owns s page .soft ∨ ∃ t, Owns s page (.held t)

/-- A page or region is granted, and the request for it answered (R302). -/
def grantedTo (s : State) (p page : Nat) (mine : Bool) : State := answered { s with grants := Tbl.set s.grants page s.dev.hubNs } p page mine

end Sys2Proof.Claims

/-- This device asks a peer for a page once, while some agent waits for it; a region of its own then begins its way back, once the peer has kept it for its 2 µs (R302, R407,
R411). -/
def Sys2Proof.Claims.AskOwnerResult : Prop :=
  ∀ (s : State) (p page n : Nat), peerLink s p = some n →
    ((wanted s page = false ∨ askedFor s page = true) → exec (.ownershipRequest p page true) s = .next s) ∧
    (∀ r, s.ownReqs.find? (·.page = page) = some r → askedFor s page = false →
      let s0 := sendFlit s r.who n 3 (Config.flitPayload page)
      let s1 := { s0 with carried := s.carried ++ [{ link := n, peer := p, page := page, mine := true }] }
      (∀ soft, Owns s page (.remote p soft) → holdOver s page = true → exec (.ownershipRequest p page true) s = .next (setRegion s1 page (.moving p soft false))) ∧
      (∀ soft, Owns s page (.remote p soft) → holdOver s page = false → exec (.ownershipRequest p page true) s = .next s) ∧
      (ownRegion page = false → isPeer (page * 65536) = true → peerOf (page * 65536) = p → exec (.ownershipRequest p page true) s = .next s1))

/-- A region of this device goes to a peer that asks, or its request is queued; a transfer drains it and gives it away, or brings it back with its bytes, to stay or to go on to
the oldest request (R302, R407). -/
def Sys2Proof.Claims.OwnRegionResult : Prop :=
  (∀ (s : State) (p page n : Nat), answerLink s p = some n → Here s page →
    let s1 := { s with carried := s.carried ++ [{ link := n, peer := p, page := page, mine := false }] }
    let free := (∀ x ∈ s1.peerReqs, x.2 ≠ page) ∧ holdOver s1 page = true ∧ regionHeld s1 page = false
    (free → exec (.ownershipRequest p page false) s = .next (moveOut s1 p page)) ∧
    (¬ free → exec (.ownershipRequest p page false) s = .next { s1 with peerReqs := s1.peerReqs ++ [(p, page)] })) ∧
  (∀ (s : State) (p page : Nat) (data : List Host.Cell), answerLink s p ≠ none →
    (Here s page → nextFor s page = some p → holdOver s page = true → regionHeld s page = false →
      exec (.ownershipTransfer p page false data) s = .next (moveOut { s with peerReqs := s.peerReqs.erase (p, page) } p page)) ∧
    (∀ soft, Owns s page (.moving p soft true) → holdOver s page = true → regionHeld s page = false →
      exec (.ownershipTransfer p page false data) s = .next (grantedTo (setRegion (yieldRegion s page) page (.remote p soft)) p page false)) ∧
    (∀ soft, Owns s page (.moving p soft false) →
      let s1 := bringPage (answered s p page true) page data
      (nextFor s1 page = none →
        let s2 := setRegion s1 page (if soft then .soft else .home)
        exec (.ownershipTransfer p page true data) s =
          .next { s2 with grants := Tbl.set s2.grants page s2.dev.hubNs, ownReqs := s2.ownReqs.filter (·.page ≠ page) }) ∧
      (∀ q, nextFor s1 page = some q → q ≠ 256 → exec (.ownershipTransfer p page true data) s =
        .next (setRegion { s1 with peerReqs := s1.peerReqs.erase (q, page) } page (.moving q soft true)))))

/-- A page of a peer comes to this device with its bytes, and goes back after its 2 µs and its drain (R302; its mode is the free value of log 17). -/
def Sys2Proof.Claims.PeerPageResult : Prop :=
  ∀ (s : State) (p page : Nat) (data : List Host.Cell), answerLink s p ≠ none → ownRegion page = false → isPeer (page * 65536) = true → peerOf (page * 65536) = p →
    (askedFor s page = true → page ∉ s.owned →
      let s1 := { bringPage s page data with ownReqs := (bringPage s page data).ownReqs.filter (·.page ≠ page) }
      exec (.ownershipTransfer p page true data) s =
        .next (grantedTo (setRegion { s1 with owned := s1.owned ++ [page] } page (if Config.peerSoft page s1.tick then .soft else .home)) p page true)) ∧
    (page ∈ s.owned → holdOver s page = true → regionHeld s page = false →
      let s1 := yieldRegion s page
      exec (.ownershipTransfer p page false data) s =
        .next (answered { s1 with owned := s1.owned.filter (· ≠ page), regions := Tbl.erase s1.regions page } p page false))

/-- What a peer that has been lost for 1 ms held comes home poisoned, with error replies to the agents and peers that waited for it, and what was on its way out to it stays
(R408, R415). -/
def Sys2Proof.Claims.OwnerLostResult : Prop :=
  (∀ (s : State) (p : Nat), lostFor1ms s p = true →
    let rs := (s.regions.filter fun kr => lostRegion p kr.2).map (·.1)
    let s1 := stayHome { s with peerReqs := s.peerReqs.filter (·.1 ≠ p), carried := s.carried.filter fun c => c.mine || c.peer ≠ p } p
    let lost := s1.ownReqs.filter fun r => rs.contains r.page
    let s2 := { s1 with ownReqs := s1.ownReqs.filter (fun r => !rs.contains r.page), ownLost := s1.ownLost ++ lost.filter (·.who ≠ .nobody)
                        carried := s1.carried.filter fun c => !(c.mine && rs.contains c.page) }
    exec (.ownerUnreachable p) s = .next (rs.foldl (fun s r => setRegion (refusePeers (poisonRegion s r) r) r .home) s2)) ∧
  (∀ (s : State) (p : Nat), lostFor1ms s p = false → exec (.ownerUnreachable p) s = .next s)

/-- Page ownership between devices (R302, R407, R408): requests of this device and of peers, transfers of regions and of peers' pages, and what a lost owner held. -/
def Obligations.OwnershipEventResult : Prop := AskOwnerResult ∧ OwnRegionResult ∧ PeerPageResult ∧ OwnerLostResult

/-- The warm reset of a compute die takes its steps (R420 to R422): GO or a fatal error takes the die out of service, stops its allotments and quiesces its links; its lines
get die 0 as their home; its tiles are zeroed; it is admitted again, or stays out where a link failed. -/
def Obligations.DieResetResult : Prop :=
  (∀ (s : State) (v : Word), HostOpen s → s.dev.service ≠ 0 → v.getLsbD 0 = true → (s.dierst.stat = 0 ∨ s.dierst.stat = 2) → s.dierst.active = false → v.extractLsb' 4 2 ≠ 0 →
    exec (.dierst v) s = .next (startDieReset { s with dierst := { s.dierst with sel := v.extractLsb' 4 2 } } (v.extractLsb' 4 2).toNat)) ∧
  (∀ (s : State) (v : Word), HostOpen s → s.dev.service ≠ 0 → v.getLsbD 0 = false →
    exec (.dierst v) s = .next { s with dierst := { s.dierst with sel := v.extractLsb' 4 2 } }) ∧
  (∀ (s : State) (v : Word), HostOpen s → s.dev.service ≠ 0 → v.getLsbD 0 = true → v.extractLsb' 4 2 = 0 → exec (.dierst v) s = .next { s with dierst := { s.dierst with stat := 3 } }) ∧
  (∀ (s : State) (d : Nat), 0 < d → d ≤ 3 → s.dierst.active = false → s.dev.service ≠ 0 → exec (.dieFatalError d) s = .next (startDieReset s d)) ∧
  (∀ (s : State) (d : Nat), s.dierst.active = true → s.dierst.die.toNat = d →
    (s.dierst.moved = false →
      let failed := fun (s : State) => (s.link (4 + d)).st = .failed
      let s1 := (dieTiles s d).foldl (fun s t => drainIf (if failed s ∧ tileHeld s t = true then s else spReset s t) t
        fun ln => homeDie ln = d || !decide (failed s)) s
      exec (.homeMove d) s = .next { s1 with dierst := { s1.dierst with moved := true } }) ∧
    (s.dierst.moved = true → s.dierst.zeroed = false → linksDown s d → ∃ t, exec (.dieReset d) s = .next t ∧ t.dierst.zeroed = true ∧
      (∀ n ∈ dieTiles s d, (t.tile n).vault = (s.tile n).vault ∧ (t.tile n).errands = [] ∧ (t.tile n).l1 = [] ∧ (t.tile n).group = none) ∧
      (∀ n ∈ dieLinks d, (s.link n).st = .quiesced → (t.link n).st = .retraining) ∧ (∀ n ∈ dieLinks d, (s.link n).st = .failed → (t.link n).st = .training)) ∧
    (s.dierst.zeroed = true →
      ((∃ n ∈ dieLinks d, (s.link n).st = .failed) → exec (.dieReadmit d) s = .next { s with dierst := { s.dierst with stat := 2, active := false } }) ∧
      ((∀ n ∈ dieLinks d, (s.link n).st = .up) → exec (.dieReadmit d) s = .next (raiseLevel (writeRanks
        { s with dierst := { s.dierst with stat := 2, active := false, lost := s.dierst.lost &&& ~~~(1#4 <<< d) }
                 dev := { s.dev with dieup := s.dev.dieup ||| (1#4 <<< d) } } d false)))))

/-- Bring-up, firmware, limits of temperature and power (R30, R423 to R430): a cold reset keeps flash, key store and host memory and boots the newest image that qualifies, which
link H0 loads into the reeve tiles and starts, and which has 50 ms for its self-check; levels are entered; the mailbox stores and hands over, and refuses while it is busy; a commit switches images and marks every measured context's log; a trip or a power loss leaves the device without power. -/
def Obligations.FirmwareEventResult : Prop :=
  (∀ (s : State), ∃ t, exec .coldReset s = .next t ∧ t.fw.segs = s.fw.segs ∧ t.fw.fwmin = s.fw.fwmin ∧ t.fw.devser = s.fw.devser ∧ t.fw.running = false ∧
    t.dev = State.reset.dev ∧ t.threads = State.reset.threads ∧ t.ctxs = State.reset.ctxs ∧ (∀ kl ∈ t.links, kl.st = .training) ∧
    t.fw.booted = (bootImage { t.fw with failedGens := [] }).map (·.gen) ∧ ∀ a, 2 ^ 64 ≤ a → Memory.read t.mem a = Memory.read s.mem a) ∧
  (∀ (s : State) (lanes : BitVec 8) (rate : BitVec 12) (g : Nat), s.fw.booted = some g → s.fw.running = false → s.fw.bootNs = none → (s.link 4).st = .training →
    resetHolds s 4 = false → ∃ t, exec (.linkTrained 4 lanes rate) s = .next t ∧ t.fw.bootNs = some s.dev.hubNs ∧
      ∀ n ∈ reeveTiles s, (t.tile n).image = g ∧ (t.tile n).fwall.getLsbD 8 = true ∧ (t.thr (threadKey n 0)).stat = .live ∧
        (t.thr (threadKey n 0)).role = .firmware ∧ (t.thr (threadKey n 0)).pc = Config.imageEntry g) ∧
  (∀ (s : State) (g b : Nat), s.fw.booted = some g → s.fw.running = false → s.fw.bootNs = some b → b + 50000000 ≤ s.dev.hubNs →
    exec .selfCheckTimeout s = .next (bootLoad { s with fw := chooseImage { s.fw with bootNs := none, failedGens := s.fw.failedGens ++ [g] } })) ∧
  (∀ (s : State) (b : Nat), s.fw.running = false → s.fw.bootNs = some b → s.dev.hubNs < b + 50000000 → exec .selfCheckTimeout s = .next s) ∧
  (∀ (s : State) (b : Nat), s.fw.bootNs = some b → b + 50000000 < s.dev.hubNs → exec .imageReady s = .next s) ∧
  (∀ (s : State) (b : Nat), s.fw.booted ≠ none → s.fw.running = false → s.fw.bootNs = some b → s.dev.hubNs ≤ b + 50000000 → ∃ t, exec .imageReady s = .next t ∧ t.fw.running = true ∧ t.dev.service = 1 ∧ t.dev.dieup = 1) ∧
  (∀ (s : State), s.fw.running = true → s.dev.service = 1 → s.dierst.lost.getLsbD 0 = false →
    exec (.dieAdmit 0) s = .next (raiseLevel { s with dev := { s.dev with service := 2 } })) ∧
  (∀ (s : State) (d : Nat), s.fw.running = true → 2 ≤ s.dev.service.toNat → 0 < d → d ≤ 3 → s.dierst.lost.getLsbD d = false → (∀ n ∈ dieLinks d, (s.link n).st = .up) →
    exec (.dieAdmit d) s = .next (raiseLevel (writeRanks { s with dev := { s.dev with dieup := s.dev.dieup ||| (1#4 <<< d) } } d false))) ∧
  (∀ (s : State), HostOpen s → s.fw.fwstat = sBusy →
    exec .fwcmdStore s = .next (queued (fwcmdReq 1) s (setStat s sRefused)) ∧ exec .fwcmdHandover s = .next (setStat s sRefused) ∧
    exec .fwcmdStoreHandover s = .next (queued (fwcmdReq 3) s (setStat s sRefused)) ∧
    ∀ v, v ∉ [1#64, 2#64, 3#64] → exec (.registerWrite 0 (.mailbox 16) v) s = .next (setStat s sRefused)) ∧
  (∀ (s : State), HostOpen s → s.fw.fwstat ≠ sBusy →
    exec .fwcmdStore s = .next (queued (fwcmdReq 1) s (storeSeg s).1) ∧
    (s.fw.running = true → exec .fwcmdHandover s = .next (startHandover s)) ∧
    (s.fw.running = true → exec .fwcmdStoreHandover s = .next (queued (fwcmdReq 3) s (if (storeSeg s).2 then (if (storeSeg s).1.fw.running then startHandover (storeSeg s).1 else setStat (storeSeg s).1 sRefused) else (storeSeg s).1)))) ∧
  (∀ (s : State) (g : Seg), s.fw.staged = some g →
    exec (.selfCheckComplete true) s = .next { s with fw := { s.fw with checked := true } } ∧
    exec (.selfCheckComplete false) s = .next (takeHeld (modReeve
      { s with fw := { appendMark s.fw 4 g.gen with staged := none, checked := false, window := false, fwstat := sRefused } } fun x => { x with spare := 0 })) ∧
    (s.fw.checked = true →
      let ev := handoverBytes s.fw.meas s.fw.version (sha256 g.payload) g.arg
      let old := s.ctxs.filter fun kc => kc.2.st = .measured || kc.2.st = .running || kc.2.st = .faulted
      let s1 := modReeve
        { s with fw := { s.fw with booted := some g.gen, version := g.arg, meas := sha256 g.payload, staged := none, checked := false, window := false, fwstat := sDone } }
        fun x => { x with image := x.spare, spare := 0 }
      exec .handoverCommit s = .next (waited s (takeHeld (old.foldl (fun s kc => appendEvent s kc.1 6 ev) s1))))) ∧
  (∀ (s : State) (dies temps : List Nat) (hub : Nat), ∃ t, exec (.thermalSample dies temps hub) s = .next t ∧
    (∀ d < 4, (110 ≤ dies.getD d 0 → t.dev.thStopped.getLsbD d = true) ∧ (dies.getD d 0 < 100 → t.dev.thStopped.getLsbD d = false) ∧
      (100 < dies.getD d 0 → t.dev.thThrottled.getLsbD d = true)) ∧ (110 ≤ hub → t.dev.hubStop = true) ∧ (hub < 100 → t.dev.hubStop = false)) ∧
  (∀ (s : State), exec .powerLoss s = .next { s with dev := { s.dev with powered := false } }) ∧
  (∀ (s : State) (d : Nat), d < 5 → exec (.thermalTrip d) s = .next { s with dev := { s.dev with powered := false } })

/-! ### Rules of the integer unit, frames (R135 to R138, R155) -/

namespace Sys2Proof.Claims
open Sys2Proof Sys2Proof.Machine

/-- The signed and unsigned readings of the low `n` bits of a register (R135). -/
def readInt (n : Nat) (signed : Bool) (v : Word) : Int := if signed then (BitVec.ofNat n v.toNat).toInt else ((v.toNat % 2 ^ n : Nat) : Int)

/-- An `n`-bit pattern as a register holds it: sign-extended for an i format, else zero-extended (R136). -/
def regOf (n : Nat) (iFmt : Bool) (p : Nat) : Word := if iFmt then (BitVec.ofNat n p).signExtend 64 else (BitVec.ofNat n p).setWidth 64

/-- The 32-bit and 64-bit integer formats, with their widths (Table 02-1). -/
def wideInts : List (Nat × Nat × Bool) := [(4, 32, true), (5, 32, false), (6, 64, true), (7, 64, false)]

/-- The bundle completes with a register result and flags. -/
def writes (opc : Nat) (f : CForm) (s : State) (fl : BitVec 13) (v : Word) : State := completed opc f s (own s fun t => { t with fstat := t.fstat ||| fl }.xw f.d.toNat v) false

/-- What an instruction that only computes leaves as it was: everything but threads; every other thread; of its own thread every register but the destination `x` `dx`
or `v` `dv`, predicates, masks, and the special, trap and exception registers; and of `SR.FSTAT` every bit but those of `fl`. -/
structure OnlyRegister (s t : State) (dx dv : Nat) (fl : BitVec 13) : Prop where
  rest    : t = { s with threads := t.threads }
  others  : ∀ j ≠ s.curThread, t.thr j = s.thr j
  xs      : ∀ n, n ≠ dx → t.cur.xr n = s.cur.xr n
  vs      : ∀ n, n ≠ dv → t.cur.vr n = s.cur.vr n
  preds   : t.cur.p = s.cur.p ∧ t.cur.m = s.cur.m
  flags   : t.cur.fstat &&& ~~~fl = s.cur.fstat &&& ~~~fl
  special : t.cur.tepc = s.cur.tepc ∧ t.cur.tcause = s.cur.tcause ∧ t.cur.taddr = s.cur.taddr ∧ t.cur.tinfo = s.cur.tinfo ∧
    t.cur.tvec = s.cur.tvec ∧ t.cur.tframe = s.cur.tframe ∧ t.cur.tsave = s.cur.tsave ∧ t.cur.inh = s.cur.inh ∧ t.cur.cmconf = s.cur.cmconf ∧
    t.cur.deferred = s.cur.deferred ∧ t.cur.stores = s.cur.stores ∧ t.cur.wait = s.cur.wait ∧ t.cur.held = s.cur.held ∧ t.cur.owed = s.cur.owed

end Sys2Proof.Claims

/-- `div` and `rem` of the 32-bit and 64-bit formats in class R or I: the whole next state (R138). -/
def Sys2Proof.Claims.DivisionRegisters : Prop :=
  ∀ y ∈ wideInts, ∀ (f : CForm) (s : State), f.fmt = y.1 → f.cls ≠ 4 →
    let n := y.2.1
    let args := fun opc => regArgs opc f s
    let a := fun opc => readInt n (!f.sgn) (args opc).a
    let b := fun opc => readInt n (!f.sgn) (args opc).b
    let corner := fun opc => f.sgn = false ∧ a opc = -(2 ^ (n - 1) : Int) ∧ b opc = -1
    (Issues 0x05 f s →
      (b 0x05 = 0 → exec (.div (.c f)) s = .next (writes 0x05 f s 0 (regOf n y.2.2 (2 ^ n - 1)))) ∧
      (b 0x05 ≠ 0 → y.2.2 = !f.sgn → ¬ corner 0x05 →
        exec (.div (.c f)) s = .next (writes 0x05 f s 0 (BitVec.ofInt 64 (Int.tdiv (a 0x05) (b 0x05))))) ∧
      (corner 0x05 → f.sat = false → exec (.div (.c f)) s = .next (writes 0x05 f s 0 (regOf n y.2.2 (2 ^ (n - 1))))) ∧
      (corner 0x05 → f.sat = true → y.2.2 = true → exec (.div (.c f)) s = .next (writes 0x05 f s 0x080 (BitVec.ofNat 64 (2 ^ (n - 1) - 1))))) ∧
    (Issues 0x06 f s → y.2.2 = !f.sgn →
      (b 0x06 = 0 → exec (.rem (.c f)) s = .next (writes 0x06 f s 0 (BitVec.ofInt 64 (a 0x06)))) ∧
      (b 0x06 ≠ 0 → exec (.rem (.c f)) s = .next (writes 0x06 f s 0 (BitVec.ofInt 64 (a 0x06 - b 0x06 * Int.tdiv (a 0x06) (b 0x06))))))

/-- The patterns and flags of `div` and `rem` in every integer format (R138): i and n formats by the signed or unsigned readings; b1 and t2 by their values. -/
def Sys2Proof.Claims.DivisionPatterns : Prop :=
  (∀ x : IArgs, x.k ≤ 9 →
    let n := fmtBits x.k
    let a := readInt n (!x.sgn) x.a
    let b := readInt n (!x.sgn) x.b
    (b = 0 → (opDiv x).pat = 2 ^ n - 1 ∧ (opDiv x).fl = 0) ∧
    (b ≠ 0 → x.sat = false → (opDiv x).pat = (Int.tdiv a b % 2 ^ n).toNat ∧ (opDiv x).fl = 0) ∧
    (x.sat = false → (opRem x).pat = ((if b = 0 then a else a - b * Int.tdiv a b) % 2 ^ n).toNat ∧ (opRem x).fl = 0) ∧
    (x.sgn = false → a = -(2 ^ (n - 1) : Int) → b = -1 → x.sat = true → isIFmt x.k = true →
      (opDiv x).pat = 2 ^ (n - 1) - 1 ∧ (opDiv x).fl = 0x080 ∧ (opRem x).pat = 0 ∧ (opRem x).fl = 0)) ∧
  (∀ x : IArgs, x.k = 10 → (opDiv x).pat = (if x.a.getLsbD 0 = x.b.getLsbD 0 then 1 else 0) ∧ (opRem x).pat = 1 ∧ (opDiv x).fl = 0 ∧ (opRem x).fl = 0) ∧
  (∀ x : IArgs, x.k = 11 →
    let code := fun (v : Word) => if v.toNat % 4 = 2 then 0 else v.toNat % 4
    let a := code x.a
    let b := code x.b
    (opDiv x).pat = (if b = 0 then 3 else if a = 0 then 0 else if a = b then 1 else 3) ∧
    (opRem x).pat = (if b = 0 then a else 0) ∧ (opDiv x).fl = 0 ∧ (opRem x).fl = 0)

/-- `div` and `rem` (R138): all ones and the dividend for a zero divisor; else the quotient truncated toward zero and the remainder of the dividend's sign; the quotient
2^(n−1) wraps to the dividend, or is clamped and sets `SATC` under `SAT`, with remainder 0. Said of the patterns of every format, which every form writes
(`IntegerResult`), and of the whole next state for the 32-bit and 64-bit formats in class R or I: neither instruction traps or raises another flag. -/
def Obligations.DivisionResult : Prop := DivisionRegisters ∧ DivisionPatterns

/-- The 64-bit integer opcodes are those of 64-bit words, without saturation (R135 to R137): sums, differences and products modulo 2^64, bitwise operations, shifts and
rotations by the count modulo 64, minima, maxima, counts and the reversal of bits. -/
def Obligations.WordArithmetic : Prop :=
  ∀ x : IArgs, x.k = 6 → x.sat = false →
    let v := fun (r : Res) => intReg 6 r
    let n := x.b.toNat % 64
    v (opAdd x) = x.a + x.b ∧ v (opSub x) = x.a - x.b ∧ v (opMul x) = x.a * x.b ∧ v (opMadd x) = x.a * x.b + x.c ∧
    v (opAnd x) = x.a &&& x.b ∧ v (opOr x) = x.a ||| x.b ∧ v (opXor x) = x.a ^^^ x.b ∧ v (opAndn x) = x.a &&& ~~~x.b ∧
    v (opShl x) = x.a <<< n ∧ v (opShr x) = (if x.sgn then x.a.sshiftRight n else x.a >>> n) ∧ v (opRot x) = x.a.rotateLeft n ∧
    v (opMin x) = (if (if x.sgn then x.a.ult x.b else x.a.slt x.b) then x.a else x.b) ∧
    v (opMax x) = (if (if x.sgn then x.a.ult x.b else x.a.slt x.b) then x.b else x.a) ∧
    v (opMov x) = x.a ∧ v (opAbs x) = x.a.abs ∧ (∀ i < 64, (v (opBrev x)).getLsbD i = x.a.getLsbD (63 - i)) ∧
    (∀ i < 64, x.a.getLsbD i = true → (∀ j, i < j → x.a.getLsbD j = false) → v (opClz x) = BitVec.ofNat 64 (63 - i)) ∧
    (x.a = 0 → v (opClz x) = 64 ∧ v (opPopc x) = 0) ∧
    ∀ r ∈ [opAdd x, opSub x, opMul x, opMadd x, opAnd x, opOr x, opXor x, opAndn x, opShl x, opShr x, opRot x, opMin x, opMax x, opMov x, opAbs x, opBrev x, opClz x, opPopc x],
      r.fl = 0

/-- What an integer or float bundle leaves as it was when it completes (R94, R131, R136): all of memory and every tile, every other thread, every register but its
destination, every flag but `SATC` for the integers and the IEEE flags, `SATC` and `TMIN` for the floats. -/
def Obligations.ComputeFrame : Prop :=
  (∀ x ∈ intOps, ∀ (f : CForm) (s t : State), Issues x.2.1 f s → (f.cls = 4 → oldClean f s (intFmt f.fmt)) → exec (x.1 (.c f)) s = .next t →
    OnlyRegister s t (if f.cls = 4 then 64 else f.d.toNat) (if f.cls = 4 then f.d.toNat else 32) 0x080) ∧
  (∀ x ∈ fltOps, ∀ (f : CForm) (s t : State), Issues x.2.1 f s → f.cls ≠ 4 → unmasked s (x.2.2.2 (fltReg x.2.1 f s)).fl →
    exec (x.1 (.c f)) s = .next t → OnlyRegister s t f.d.toNat 32 0x0FF) ∧
  (∀ x ∈ fltOps, ∀ (f : CForm) (s t : State), Issues x.2.1 f s → f.cls = 4 → oldClean f s (fltFmt f.fmt) →
    unmasked s (laneFlags f s (fltFmt f.fmt) fun i => x.2.2.2 (fltLane x.2.1 f s (fltFmt f.fmt) i)).1 →
    exec (x.1 (.c f)) s = .next t → OnlyRegister s t 64 f.d.toNat 0x0FF)

/-! ### Decoding, steps, reset -/

namespace Sys2Proof.Claims
open Sys2Proof Sys2Proof.Machine

/-- A C bundle with no annotation and no guard. -/
def plainC (cls : BitVec 4) (d a b c : BitVec 6) (md : BitVec 12) (imm : BitVec 44) : CForm :=
  { cls := cls, d := d, a := a, b := b, c := c, md := md, prd := 0, imm := imm, hold := 0, tkn := 0, need := 0, keep := 0, park := 0, fem := 0, rsv := 0 }

/-- A 128-bit word from the 16 bytes that the spec lists, the first at the lowest address. -/
def wordOf (l : List Nat) : IWord := BitVec.ofNat 128 (l.foldr (fun b acc => b + 256 * acc) 0)

/-- The next move of a step, and the state in which it is made. -/
def moveOf (s : State) : Move × State := takeMove (passTime s)

/-- The state in which that move begins: its agent is the one that moves. -/
def moving (s : State) : State := { (moveOf s).2 with mover := (moveOf s).1.mover }

end Sys2Proof.Claims

/-- The words that the spec writes out decode to the instructions that it gives them for (the worked encodings of chapters 5, 7, 8, 10 to 13, 24 to 27): one of each class of a
bundle, and a graph word. -/
def Obligations.DecodedWords : Prop :=
  decodeWord (wordOf [0x10, 0x20, 0x8A, 0x06, 0x60, 0, 0, 0, 0, 0, 0, 0, 0, 0, 0, 0]) = .ok (.add (.c (plainC 0 34 34 6 0 0x006 0))) ∧
  decodeWord (wordOf [0x11, 0x11, 0x14, 0x00, 0x60, 0x06, 0xF0, 0, 0, 0, 0, 0, 0, 0, 0, 0]) = .ok (.cmp (.c (plainC 1 1 5 0 0 0x066 15))) ∧
  decodeWord (wordOf [0x34, 0x32, 0x04, 0x02, 0xE0, 0x00, 0x02, 0, 0, 0, 0, 0, 0, 0, 0, 0]) = .ok (.fma (.c { plainC 4 3 1 2 0 0x00E 0 with prd := 2 })) ∧
  decodeWord (wordOf [0x06, 0xC7, 0x15, 0x07, 0x60, 0x28, 0, 0, 0, 0, 0, 0, 0, 0, 0, 0]) = .ok (.amo (.c (plainC 6 28 5 7 0 0x286 0))) ∧
  decodeWord (wordOf [0x05, 0x49, 0x46, 0x14, 0x70, 0x4B, 0x50, 0x01, 0x23, 0, 0, 0, 0, 0, 0, 0]) = .ok (.mm (plainC 5 36 17 20 0 0x4B7 0x23015)) ∧
  decodeWord (wordOf [0x02, 0x66, 0x2C, 0x00, 0x60, 0x50, 0, 0, 0, 0, 0, 0, 0, 0, 0, 0]) = .ok (.ld (.c (plainC 2 6 11 0 0 0x506 0))) ∧
  decodeWord (wordOf [0x26, 0x07, 0, 0, 0x60, 0x60, 0, 0, 0, 0, 0, 0, 0, 0, 0, 0]) = .ok (.fence (.c (plainC 6 0 0 0 0 0x606 0))) ∧
  decodeWord (wordOf [0x25, 0x29, 0x4E, 0xDC, 0x71, 0x0D, 0, 0, 0x21, 0, 0, 0, 0, 0, 0, 0]) = .ok (.rstep (plainC 5 34 19 28 7 0x0D7 0x21000)) ∧
  decodeWord (wordOf [0x12, 0x06, 0x54, 0x19, 0x40, 0xF0, 0, 0, 0, 0, 0, 0, 0, 0, 0, 0]) = .ok (.st (.c (plainC 2 0 21 25 0 0xF04 0))) ∧
  decodeWord (wordOf [0x0C, 0x27, 0, 0, 0x20, 0x18, 0, 0, 0, 0, 0, 0xE0, 0x0F, 0, 0, 0]) = .ok (.amo (.g
    { nopnd := 2, pmode := 0, urg := 0, t0 := 0, t1 := 0, lsid := 1, md := 6, imm := 0xE00000000000, place := 15, rsv := 0 }))

/-- Encoding and decoding agree: every well-formed instruction that a word encodes has one, and it decodes to that very instruction. -/
def Obligations.EncodeDecode : Prop :=
  ∀ (i : Instr), i.wf = true → i.parts ≠ none → ∃ w, encode i = some w ∧ decodeWord w = .ok i

/-- The other direction: what a word decodes to is well formed and is encoded by that word alone; class 15 is refused as the pool's, classes 8 to 11, 13 and 14 as
illegal (R90, R91, R110). -/
def Obligations.DecodeEncode : Prop :=
  (∀ (w : IWord) (i : Instr), decodeWord w = .ok i → i.wf = true ∧ encode i = some w) ∧
  (∀ (w : IWord), w.extractLsb' 0 4 = 15 → decodeWord w = .error .poolExec) ∧
  (∀ (w : IWord), w.extractLsb' 0 4 ∈ [(8 : BitVec 4), 9, 10, 11, 13, 14] → decodeWord w = .error .illegalCls)

/-- A step runs the decoded instruction: where a running thread's turn comes, in its slot (R364), the 16 bytes at its pc, from its tile's instruction cache or from their
home, decode to an instruction, then the step is exec of it for that thread; where they
do not decode, the thread takes the cause of the rejection; a block's instruction and an event run likewise; the agent's allotment pays for the work; a host read of a
register replies, and the host writes its own memory past the device's caches; and nothing runs without power. That the cached line
or the home serves a fetch, past a dirty copy in the tile's own L1, is the model's choice (log 92). -/
def Obligations.StepRunsDecoded : Prop :=
  (∀ (s s1 : State) (k p : Nat) (leaf : Word),
    let u := toSlot (moving s) k
    let t := u.thr k
    let c := codeBytes s1 (tileOf k) p 16
    let w := BitVec.ofNat 128 (leNat c.2)
    s.dev.powered = true → (moveOf s).1 = .thread k → t.running = true → t.role ≠ .firmware → residentOk u k = true → runsOn u (tileOf k) t.ctx = true →
    t.hwait = .none → dueNow t = none → t.wait = .none → t.hold = 0 → windowOf t.pc.toNat = some .w0 →
    translateLeaf u (tileOf k) t.ctx t.pc .exC = (s1, .ok (leaf, p)) →
    fetchWaits s1 (tileOf k) p = false → (icacheLine s1 (tileOf k) p = none → errReply s1 p = false ∧ poisoned s1 p 16 = false) →
    (icacheLine s1 (tileOf k) p = none → c.2 = readHome s1 p 16) ∧
    (∀ i, decodeC w = .ok i → step s = exec i { chargeWork c.1 t.ctx t.allot with curThread := k }) ∧
    (∀ e, decodeC w = .error e → step s = .next (takeFetchTrap c.1 k
      (match e with | .illegalCls => cILLEGAL_CLS | .poolExec => cPOOL_EXEC | _ => cILLEGAL_OPC) 0
      (if e = .poolExec then 0 else w.setWidth 64 &&& 0xFFF)))) ∧
  (∀ (s : State) (j ix : Nat) (n : Inst) (a : Act) (w : IWord) (i : Instr),
    let u := moving s
    s.dev.powered = true → (moveOf s).1 = .node j ix → u.inst? j = some n → u.act? n.act = some a → planeMayFire u (dieOf a.tile) n.plane = true →
    runsOn u a.tile a.ctx = true → n.block.words[ix]? = some w → decodeG w = .ok i →
    step s = exec i { chargeWork u a.ctx a.allot with curNode := (j, ix) }) ∧
  (∀ (s : State) (i : Instr), s.dev.powered = true ∨ i = .coldReset → (moveOf s).1 = .event i → i.parts = none → step s = exec i (moving s)) ∧
  (∀ (s : State) (f : Nat) (r : HostReg), s.dev.powered = true → (moveOf s).1 = .hostRead f r → f < 64 → HostOpen (moving s) →
    let x := regRead (moving s) f r
    step s = .next (replied x.1 f (some (bytesOf 8 x.2)))) ∧
  (∀ (s : State) (at_ : Nat) (bs : List Byte), s.dev.powered = true → (moveOf s).1 = .hostMem at_ bs → at_ + bs.length ≤ 2 ^ 64 →
    step s = .next { moving s with mem := Memory.writeN (moving s).mem (hostPlace at_) bs }) ∧
  (∀ (s : State), s.dev.powered = false → (moveOf s).1 ≠ .event .coldReset → step s = .fault .noPower)

/-- What a cold reset leaves (R29, R313, R331, R367, R373, R411, Tables 01-7, 14-1, 15-2, 17-4, 17-6): service level 0, no die admitted, all of HBM enabled, 2,800 W, LIMIT 4 and THR 0, every
frame-table entry 0x00E4 and slot 0, every context FREE, every queue disabled, every link DOWN, no thread running. -/
def Obligations.ResetValues : Prop :=
  State.reset.dev.service = 0 ∧ State.reset.dev.dieup = 0 ∧ State.reset.dev.hbmset = 0xF ∧ State.reset.dev.plimit = 2800 ∧ State.reset.dev.active = 2800 ∧
  (∀ d < 4, limitOf State.reset d = 4 ∧ (headroomWord State.reset d).getLsbD 3 = false ∧ getV State.reset.dev.slot 64 d = 0 ∧
    ∀ k < 64, getV (getV State.reset.dev.frame (Vector.replicate 64 0) d) 0 k = 0x00E4) ∧
  (∀ n, (State.reset.ctx n).st = .free) ∧ (∀ q, (State.reset.queue q).st = .disabled ∧ (State.reset.queue q).en = false) ∧
  (∀ n < 21, (State.reset.link n).st = .down) ∧ (∀ k, (State.reset.thr k).running = false) ∧ State.reset.dierst.stat = 0

/-- After reset the memory list is in canonical form (the model's own invariant, log 2). -/
def Obligations.ResetKeepsForm : Prop := State.reset.Inv

/-- Every step that answers a next state keeps the canonical form of memory (the model's own invariant, log 2): equal memories stay equal data. -/
def Obligations.StepKeepsMemoryForm : Prop := ∀ (s t : State), s.Inv → step s = .next t → t.Inv
end

