-- ==== Sys2Proof/Laws/Areas.lean ====
section
/-!
SUPPORT. The choice of an area in a context's memory: whatever address the firmware would choose, the area that is taken meets no other one where room is left
behind them all.
-/
namespace Sys2Proof.Machine
open Sys2Proof

/-- The end of the last area. -/
def lastEnd (l : List (Nat × Nat)) : Nat := l.foldl (fun m a => max m (a.1 + a.2)) 0

theorem le_foldl_max (l : List (Nat × Nat)) : ∀ m, m ≤ l.foldl (fun m a => max m (a.1 + a.2)) m ∧ ∀ a ∈ l, a.1 + a.2 ≤ l.foldl (fun m a => max m (a.1 + a.2)) m := by
  induction l with
  | nil => exact fun m => ⟨Nat.le_refl m, fun a h => (nomatch h)⟩
  | cons b l ih =>
    intro m
    have h := ih (max m (b.1 + b.2))
    refine ⟨by simp only [List.foldl_cons]; omega, fun a ha => ?_⟩
    simp only [List.foldl_cons]
    rcases List.mem_cons.mp ha with rfl | ha
    · omega
    · exact h.2 a ha

/-- The area taken is clear of the others where there is room behind the last one. -/
theorem clearOf_pickArea {l : List (Nat × Nat)} {n : Nat} (room : (lastEnd l + 65535) / 65536 * 65536 + n ≤ 2 ^ 56) (cand : Nat) : clearOf l (pickArea l cand n) n = true := by
  simp only [pickArea]
  split
  · assumption
  · have hm := (le_foldl_max l 0).2
    unfold lastEnd at room
    simp only [clearOf, Bool.and_eq_true, decide_eq_true_eq, List.all_eq_true, Bool.or_eq_true]
    refine ⟨room, fun a ha => .inr ?_⟩
    have := hm a ha
    omega

/-- A launch of one group fits where there is room for its block behind the context's other areas. -/
theorem blocksFit_one {s : State} {k : Kernel} (one : k.groups = 1)
    (room : (lastEnd (areas s k.ctx) + 65535) / 65536 * 65536 + blockBytes k.hdr 0 ≤ 2 ^ 56) : blocksFit s k = true := by
  simp only [blocksFit, kernelBlocks, one, pickBlocks, List.zipIdx_cons, List.zipIdx_nil, List.all_cons, List.all_nil, Bool.and_true]
  exact clearOf_pickArea room _

end Sys2Proof.Machine
end

