-- ==== Sys2Proof/Laws/Memory.lean ====
section
/-!
SUPPORT. Laws of memory bytes: a read after a write, and the canonical form that every operation keeps.
-/
namespace Sys2Proof.Machine
open Sys2Proof

/-- The canonical form, as one pairwise fact and one fact about each entry. -/
theorem Memory.wf_iff (m : List Host.Cell) :
    Memory.wf m = true ↔ m.Pairwise (fun a b => a.1 < b.1) ∧ ∀ c ∈ m, c.2 ≠ unlisted := by
  induction m with
  | nil => simp [Memory.wf]
  | cons x r ih =>
    obtain ⟨a, b⟩ := x
    cases r with
    | nil => simp [Memory.wf]
    | cons y r =>
      obtain ⟨a', b'⟩ := y
      simp only [Memory.wf, Bool.and_eq_true, decide_eq_true_eq, ih, List.pairwise_cons, List.mem_cons]
      constructor
      · rintro ⟨⟨hb, hlt⟩, ⟨h1, h2⟩, h3⟩
        refine ⟨⟨?_, h1, h2⟩, ?_⟩
        · rintro c (rfl | hc)
          · exact hlt
          · exact Nat.lt_trans hlt (h1 c hc)
        · rintro c (rfl | hc)
          · exact hb
          · exact h3 c hc
      · rintro ⟨⟨h0, h1, h2⟩, h3⟩
        exact ⟨⟨h3 (a, b) (.inl rfl), h0 _ (.inl rfl)⟩, ⟨h1, h2⟩, fun c hc => h3 c (.inr hc)⟩

@[simp] theorem Memory.wf_nil : Memory.wf [] = true := rfl

theorem Memory.read_write_self (m : List Host.Cell) (k : Nat) (v : Byte) (h : Memory.wf m = true) :
    Memory.read (Memory.write m k v) k = v := by
  obtain ⟨hs, -⟩ := (Memory.wf_iff m).1 h
  clear h
  have none_below : ∀ r : List Host.Cell, (∀ c ∈ r, k < c.1) → Memory.read r k = unlisted := by
    intro r hr
    induction r with
    | nil => rfl
    | cons x r ih =>
      have h1 := hr x (by simp)
      have : x.1 ≠ k := by omega
      simp [Memory.read, this, ih fun c hc => hr c (by simp [hc])]
  induction m with
  | nil => by_cases hv : v = unlisted <;> simp [Memory.write, Memory.read, hv]
  | cons x r ih =>
    obtain ⟨a, b⟩ := x
    obtain ⟨h0, h1⟩ := List.pairwise_cons.1 hs
    by_cases ha : a = k
    · subst ha
      by_cases hv : v = unlisted
      · simp [Memory.write, hv, none_below r h0]
      · simp [Memory.write, hv, Memory.read]
    · by_cases hk : k < a
      · have hn : Memory.read ((a, b) :: r) k = unlisted := none_below _ (by
          intro c hc
          rcases List.mem_cons.1 hc with rfl | hc
          · exact hk
          · exact Nat.lt_trans hk (h0 c hc))
        by_cases hv : v = unlisted
        · simpa [Memory.write, ha, hk, hv] using hn
        · simp [Memory.write, ha, hk, hv, Memory.read]
      · simp [Memory.write, ha, hk, Memory.read, ih h1]

theorem Memory.read_write_ne (m : List Host.Cell) (k j : Nat) (v : Byte) (h : j ≠ k) :
    Memory.read (Memory.write m k v) j = Memory.read m j := by
  induction m with
  | nil => by_cases hv : v = unlisted <;> simp [Memory.write, Memory.read, hv, Ne.symm h]
  | cons x r ih =>
    obtain ⟨a, b⟩ := x
    by_cases ha : a = k
    · subst ha
      by_cases hv : v = unlisted <;> simp [Memory.write, hv, Memory.read, Ne.symm h]
    · by_cases hk : k < a
      · by_cases hv : v = unlisted <;> simp [Memory.write, ha, hk, hv, Memory.read, Ne.symm h]
      · simp [Memory.write, ha, hk, Memory.read, ih]

/-- Every entry after a write was there before, or is the written one. -/
theorem Memory.mem_write (m : List Host.Cell) (k : Nat) (v : Byte) (c : Host.Cell) (h : c ∈ Memory.write m k v) :
    c ∈ m ∨ (c = (k, v) ∧ v ≠ unlisted) := by
  induction m with
  | nil => by_cases hv : v = unlisted <;> simp_all [Memory.write]
  | cons x r ih =>
    obtain ⟨a, b⟩ := x
    by_cases ha : a = k
    · by_cases hv : v = unlisted <;> simp_all [Memory.write]; grind
    · by_cases hk : k < a
      · by_cases hv : v = unlisted <;> simp_all [Memory.write]; grind
      · simp only [Memory.write, ha, hk, if_false, List.mem_cons] at h ⊢
        rcases h with h | h
        · exact .inl (.inl h)
        · rcases ih h with h | h
          · exact .inl (.inr h)
          · exact .inr h

theorem Memory.wf_write (m : List Host.Cell) (k : Nat) (v : Byte) (h : Memory.wf m = true) : Memory.wf (Memory.write m k v) = true := by
  rw [Memory.wf_iff] at h ⊢
  obtain ⟨hs, hz⟩ := h
  refine ⟨?_, fun c hc => ?_⟩
  · clear hz
    induction m with
    | nil => by_cases hv : v = unlisted <;> simp [Memory.write, hv]
    | cons x r ih =>
      obtain ⟨a, b⟩ := x
      obtain ⟨h0, h1⟩ := List.pairwise_cons.1 hs
      by_cases ha : a = k
      · subst ha
        by_cases hv : v = unlisted
        · simpa [Memory.write, hv] using h1
        · simpa [Memory.write, hv] using hs
      · by_cases hk : k < a
        · by_cases hv : v = unlisted
          · simpa [Memory.write, ha, hk, hv] using hs
          · simp only [Memory.write, ha, hk, hv, if_false, if_true]
            refine List.pairwise_cons.2 ⟨?_, hs⟩
            intro c hc
            rcases List.mem_cons.1 hc with rfl | hc
            · exact hk
            · exact Nat.lt_trans hk (h0 c hc)
        · simp only [Memory.write, ha, hk, if_false]
          refine List.pairwise_cons.2 ⟨fun c hc => ?_, ih h1⟩
          rcases Memory.mem_write r k v c hc with hc | ⟨rfl, -⟩
          · exact h0 c hc
          · show a < k
            omega
  · rcases Memory.mem_write m k v c hc with hc | ⟨rfl, hv⟩
    · exact hz c hc
    · exact hv

theorem Memory.wf_writeN (bs : List Byte) : ∀ (m : List Host.Cell) (k : Nat), Memory.wf m = true → Memory.wf (Memory.writeN m k bs) = true := by
  induction bs with
  | nil => intro m k h; exact h
  | cons b r ih => intro m k h; exact ih _ _ (Memory.wf_write m k b h)

theorem Memory.wf_filter (m : List Host.Cell) (p : Host.Cell → Bool) (h : Memory.wf m = true) : Memory.wf (m.filter p) = true := by
  rw [Memory.wf_iff] at h ⊢
  exact ⟨h.1.filter p, fun c hc => h.2 c ((List.mem_filter.1 hc).1)⟩

theorem Memory.wf_zero (m : List Host.Cell) (lo hi : Nat) (h : Memory.wf m = true) : Memory.wf (Memory.zero m lo hi) = true :=
  Memory.wf_filter m _ h

theorem Memory.wf_foldWrite (l : List Host.Cell) (f : Host.Cell → Nat) :
    ∀ m, Memory.wf m = true → Memory.wf (l.foldl (fun m c => Memory.write m (f c) c.2) m) = true := by
  induction l with
  | nil => intro m h; exact h
  | cons c r ih => intro m h; exact ih _ (Memory.wf_write m _ _ h)

theorem Memory.wf_copy (m : List Host.Cell) (src dst n : Nat) (h : Memory.wf m = true) : Memory.wf (Memory.copy m src dst n) = true :=
  Memory.wf_foldWrite _ _ _ (Memory.wf_zero m dst (dst + n) h)

/-- Dropping places by a test keeps the others' bytes. -/
theorem Memory.read_filter (p : Nat → Bool) (m : List Host.Cell) (k : Nat) :
    Memory.read (m.filter fun c => p c.1) k = if p k then Memory.read m k else unlisted := by
  induction m with
  | nil => simp [Memory.read]
  | cons x r ih =>
    obtain ⟨a, b⟩ := x
    rw [List.filter_cons]
    by_cases ha : a = k
    · subst ha
      cases hp : p a
      · simp only [Bool.false_eq_true, if_false, ih, hp]
      · simp [Memory.read]
    · cases hp : p a
      · simp only [Bool.false_eq_true, if_false, ih, Memory.read, ha]
      · simp only [if_true, Memory.read, ha, if_false, ih]

theorem Memory.read_zero (m : List Host.Cell) (lo hi k : Nat) :
    Memory.read (Memory.zero m lo hi) k = if lo ≤ k ∧ k < hi then unlisted else Memory.read m k := by
  have := Memory.read_filter (fun a => !(decide (lo ≤ a) && decide (a < hi))) m k
  rw [Memory.zero, this]
  by_cases h : lo ≤ k ∧ k < hi
  · simp [h.1, h.2]
  · have h2 : (!(decide (lo ≤ k) && decide (k < hi))) = true := by simp; omega
    simp [h, h2]

/-- Bytes beyond a run of written bytes keep their values. -/
theorem Memory.read_writeN_out (bs : List Byte) : ∀ (m : List Host.Cell) (k j : Nat), (j < k ∨ k + bs.length ≤ j) →
    Memory.read (Memory.writeN m k bs) j = Memory.read m j := by
  induction bs with
  | nil => intro m k j _; rfl
  | cons b r ih =>
    intro m k j h
    simp only [List.length_cons] at h
    rw [Memory.writeN, ih _ _ _ (by omega), Memory.read_write_ne _ _ _ _ (by omega)]

/-- A run of written bytes reads back. -/
theorem Memory.read_writeN_in (bs : List Byte) : ∀ (m : List Host.Cell) (k i : Nat), Memory.wf m = true → i < bs.length →
    Memory.read (Memory.writeN m k bs) (k + i) = bs.getD i 0 := by
  induction bs with
  | nil => intro m k i _ h; simp at h
  | cons b r ih =>
    intro m k i hw h
    cases i with
    | zero =>
      rw [Memory.writeN, Memory.read_writeN_out _ _ _ _ (by omega)]
      simpa using Memory.read_write_self m k b hw
    | succ i =>
      have := ih (Memory.write m k b) (k + 1) i (Memory.wf_write m k b hw) (by simpa using h)
      rw [Memory.writeN, show k + (i + 1) = k + 1 + i by omega, this]
      simp

end Sys2Proof.Machine
end

