-- ==== Sys2Proof/Laws/Table.lean ====
section
/-!
SUPPORT. Laws of the sparse tables: a read after a write.
-/
namespace Sys2Proof

theorem Tbl.find?_set_self {α : Type} (t : Tbl α) (k : Nat) (a : α) : Tbl.find? (Tbl.set t k a) k = some a := by
  induction t with
  | nil => simp [Tbl.set, Tbl.find?]
  | cons x r ih =>
    obtain ⟨j, b⟩ := x
    by_cases h : j = k
    · simp [Tbl.set, Tbl.find?, h]
    · by_cases h2 : k < j <;> simp [Tbl.set, Tbl.find?, h, h2, ih]

theorem Tbl.find?_set_ne {α : Type} (t : Tbl α) (k j : Nat) (a : α) (h : j ≠ k) : Tbl.find? (Tbl.set t k a) j = Tbl.find? t j := by
  induction t with
  | nil => simp [Tbl.set, Tbl.find?, Ne.symm h]
  | cons x r ih =>
    obtain ⟨i, b⟩ := x
    by_cases h1 : i = k
    · subst h1; simp [Tbl.set, Tbl.find?, Ne.symm h]
    · by_cases h2 : k < i <;> simp [Tbl.set, Tbl.find?, h1, h2, ih, Ne.symm h]

@[simp] theorem Tbl.get_set_self {α : Type} (t : Tbl α) (d : α) (k : Nat) (a : α) : Tbl.get (Tbl.set t k a) d k = a := by
  simp [Tbl.get, Tbl.find?_set_self]

theorem Tbl.get_set_ne {α : Type} (t : Tbl α) (d : α) (k j : Nat) (a : α) (h : j ≠ k) : Tbl.get (Tbl.set t k a) d j = Tbl.get t d j := by
  simp [Tbl.get, Tbl.find?_set_ne t k j a h]

@[simp] theorem Tbl.set_set {α : Type} (t : Tbl α) (k : Nat) (a b : α) : Tbl.set (Tbl.set t k a) k b = Tbl.set t k b := by
  induction t with
  | nil => simp [Tbl.set]
  | cons x r ih =>
    obtain ⟨j, c⟩ := x
    by_cases h : j = k
    · simp [Tbl.set, h]
    · by_cases h2 : k < j <;> simp [Tbl.set, h, h2, ih]

theorem Tbl.find?_erase_ne {α : Type} (t : Tbl α) (k j : Nat) (h : j ≠ k) : Tbl.find? (Tbl.erase t k) j = Tbl.find? t j := by
  induction t with
  | nil => rfl
  | cons x r ih =>
    obtain ⟨i, b⟩ := x
    by_cases h1 : i = k
    · subst h1; simp [Tbl.erase, Tbl.find?, Ne.symm h]
    · simp [Tbl.erase, Tbl.find?, h1, ih]

end Sys2Proof
end

