-- ==== Sys2Proof/Laws/State.lean ====
section
/-!
SUPPORT. One lemma per field for each named update of the state and of a thread: no proof needs to unfold a record update.
-/
namespace Sys2Proof.Machine
open Sys2Proof

namespace State

@[simp] theorem setThr_dev (s : State) (k : Nat) (t : Thread) : (s.setThr k t).dev = s.dev := rfl
@[simp] theorem setThr_links (s : State) (k : Nat) (t : Thread) : (s.setThr k t).links = s.links := rfl
@[simp] theorem setThr_dierst (s : State) (k : Nat) (t : Thread) : (s.setThr k t).dierst = s.dierst := rfl
@[simp] theorem setThr_queues (s : State) (k : Nat) (t : Thread) : (s.setThr k t).queues = s.queues := rfl
@[simp] theorem setThr_funcs (s : State) (k : Nat) (t : Thread) : (s.setThr k t).funcs = s.funcs := rfl
@[simp] theorem setThr_peers (s : State) (k : Nat) (t : Thread) : (s.setThr k t).peers = s.peers := rfl
@[simp] theorem setThr_fw (s : State) (k : Nat) (t : Thread) : (s.setThr k t).fw = s.fw := rfl
@[simp] theorem setThr_ctxs (s : State) (k : Nat) (t : Thread) : (s.setThr k t).ctxs = s.ctxs := rfl
@[simp] theorem setThr_kernels (s : State) (k : Nat) (t : Thread) : (s.setThr k t).kernels = s.kernels := rfl
@[simp] theorem setThr_tiles (s : State) (k : Nat) (t : Thread) : (s.setThr k t).tiles = s.tiles := rfl
@[simp] theorem setThr_acts (s : State) (k : Nat) (t : Thread) : (s.setThr k t).acts = s.acts := rfl
@[simp] theorem setThr_insts (s : State) (k : Nat) (t : Thread) : (s.setThr k t).insts = s.insts := rfl
@[simp] theorem setThr_transit (s : State) (k : Nat) (t : Thread) : (s.setThr k t).transit = s.transit := rfl
@[simp] theorem setThr_tasks (s : State) (k : Nat) (t : Thread) : (s.setThr k t).tasks = s.tasks := rfl
@[simp] theorem setThr_colls (s : State) (k : Nat) (t : Thread) : (s.setThr k t).colls = s.colls := rfl
@[simp] theorem setThr_mem (s : State) (k : Nat) (t : Thread) : (s.setThr k t).mem = s.mem := rfl
@[simp] theorem setThr_poison (s : State) (k : Nat) (t : Thread) : (s.setThr k t).poison = s.poison := rfl
@[simp] theorem setThr_hbmCorr (s : State) (k : Nat) (t : Thread) : (s.setThr k t).hbmCorr = s.hbmCorr := rfl
@[simp] theorem setThr_hbmUnc (s : State) (k : Nat) (t : Thread) : (s.setThr k t).hbmUnc = s.hbmUnc := rfl
@[simp] theorem setThr_l2 (s : State) (k : Nat) (t : Thread) : (s.setThr k t).l2 = s.l2 := rfl
@[simp] theorem setThr_regions (s : State) (k : Nat) (t : Thread) : (s.setThr k t).regions = s.regions := rfl
@[simp] theorem setThr_softBy (s : State) (k : Nat) (t : Thread) : (s.setThr k t).softBy = s.softBy := rfl
@[simp] theorem setThr_excl (s : State) (k : Nat) (t : Thread) : (s.setThr k t).excl = s.excl := rfl
@[simp] theorem setThr_mapped (s : State) (k : Nat) (t : Thread) : (s.setThr k t).mapped = s.mapped := rfl
@[simp] theorem setThr_faces (s : State) (k : Nat) (t : Thread) : (s.setThr k t).faces = s.faces := rfl
@[simp] theorem setThr_owned (s : State) (k : Nat) (t : Thread) : (s.setThr k t).owned = s.owned := rfl
@[simp] theorem setThr_grants (s : State) (k : Nat) (t : Thread) : (s.setThr k t).grants = s.grants := rfl
@[simp] theorem setThr_ownReqs (s : State) (k : Nat) (t : Thread) : (s.setThr k t).ownReqs = s.ownReqs := rfl
@[simp] theorem setThr_ownLost (s : State) (k : Nat) (t : Thread) : (s.setThr k t).ownLost = s.ownLost := rfl
@[simp] theorem setThr_carried (s : State) (k : Nat) (t : Thread) : (s.setThr k t).carried = s.carried := rfl
@[simp] theorem setThr_peerReqs (s : State) (k : Nat) (t : Thread) : (s.setThr k t).peerReqs = s.peerReqs := rfl
@[simp] theorem setThr_hubWait (s : State) (k : Nat) (t : Thread) : (s.setThr k t).hubWait = s.hubWait := rfl
@[simp] theorem setThr_posted (s : State) (k : Nat) (t : Thread) : (s.setThr k t).posted = s.posted := rfl
@[simp] theorem setThr_walks (s : State) (k : Nat) (t : Thread) : (s.setThr k t).walks = s.walks := rfl
@[simp] theorem setThr_walkCache (s : State) (k : Nat) (t : Thread) : (s.setThr k t).walkCache = s.walkCache := rfl
@[simp] theorem setThr_nextId (s : State) (k : Nat) (t : Thread) : (s.setThr k t).nextId = s.nextId := rfl
@[simp] theorem setThr_tick (s : State) (k : Nat) (t : Thread) : (s.setThr k t).tick = s.tick := rfl
@[simp] theorem setThr_agenda (s : State) (k : Nat) (t : Thread) : (s.setThr k t).agenda = s.agenda := rfl
@[simp] theorem setThr_mover (s : State) (k : Nat) (t : Thread) : (s.setThr k t).mover = s.mover := rfl
@[simp] theorem setThr_curThread (s : State) (k : Nat) (t : Thread) : (s.setThr k t).curThread = s.curThread := rfl
@[simp] theorem setThr_curNode (s : State) (k : Nat) (t : Thread) : (s.setThr k t).curNode = s.curNode := rfl

@[simp] theorem modThr_dev (s : State) (k : Nat) (f : Thread → Thread) : (s.modThr k f).dev = s.dev := rfl
@[simp] theorem modThr_links (s : State) (k : Nat) (f : Thread → Thread) : (s.modThr k f).links = s.links := rfl
@[simp] theorem modThr_dierst (s : State) (k : Nat) (f : Thread → Thread) : (s.modThr k f).dierst = s.dierst := rfl
@[simp] theorem modThr_queues (s : State) (k : Nat) (f : Thread → Thread) : (s.modThr k f).queues = s.queues := rfl
@[simp] theorem modThr_funcs (s : State) (k : Nat) (f : Thread → Thread) : (s.modThr k f).funcs = s.funcs := rfl
@[simp] theorem modThr_peers (s : State) (k : Nat) (f : Thread → Thread) : (s.modThr k f).peers = s.peers := rfl
@[simp] theorem modThr_fw (s : State) (k : Nat) (f : Thread → Thread) : (s.modThr k f).fw = s.fw := rfl
@[simp] theorem modThr_ctxs (s : State) (k : Nat) (f : Thread → Thread) : (s.modThr k f).ctxs = s.ctxs := rfl
@[simp] theorem modThr_kernels (s : State) (k : Nat) (f : Thread → Thread) : (s.modThr k f).kernels = s.kernels := rfl
@[simp] theorem modThr_tiles (s : State) (k : Nat) (f : Thread → Thread) : (s.modThr k f).tiles = s.tiles := rfl
@[simp] theorem modThr_acts (s : State) (k : Nat) (f : Thread → Thread) : (s.modThr k f).acts = s.acts := rfl
@[simp] theorem modThr_insts (s : State) (k : Nat) (f : Thread → Thread) : (s.modThr k f).insts = s.insts := rfl
@[simp] theorem modThr_transit (s : State) (k : Nat) (f : Thread → Thread) : (s.modThr k f).transit = s.transit := rfl
@[simp] theorem modThr_tasks (s : State) (k : Nat) (f : Thread → Thread) : (s.modThr k f).tasks = s.tasks := rfl
@[simp] theorem modThr_colls (s : State) (k : Nat) (f : Thread → Thread) : (s.modThr k f).colls = s.colls := rfl
@[simp] theorem modThr_mem (s : State) (k : Nat) (f : Thread → Thread) : (s.modThr k f).mem = s.mem := rfl
@[simp] theorem modThr_poison (s : State) (k : Nat) (f : Thread → Thread) : (s.modThr k f).poison = s.poison := rfl
@[simp] theorem modThr_hbmCorr (s : State) (k : Nat) (f : Thread → Thread) : (s.modThr k f).hbmCorr = s.hbmCorr := rfl
@[simp] theorem modThr_hbmUnc (s : State) (k : Nat) (f : Thread → Thread) : (s.modThr k f).hbmUnc = s.hbmUnc := rfl
@[simp] theorem modThr_l2 (s : State) (k : Nat) (f : Thread → Thread) : (s.modThr k f).l2 = s.l2 := rfl
@[simp] theorem modThr_regions (s : State) (k : Nat) (f : Thread → Thread) : (s.modThr k f).regions = s.regions := rfl
@[simp] theorem modThr_softBy (s : State) (k : Nat) (f : Thread → Thread) : (s.modThr k f).softBy = s.softBy := rfl
@[simp] theorem modThr_excl (s : State) (k : Nat) (f : Thread → Thread) : (s.modThr k f).excl = s.excl := rfl
@[simp] theorem modThr_mapped (s : State) (k : Nat) (f : Thread → Thread) : (s.modThr k f).mapped = s.mapped := rfl
@[simp] theorem modThr_faces (s : State) (k : Nat) (f : Thread → Thread) : (s.modThr k f).faces = s.faces := rfl
@[simp] theorem modThr_owned (s : State) (k : Nat) (f : Thread → Thread) : (s.modThr k f).owned = s.owned := rfl
@[simp] theorem modThr_grants (s : State) (k : Nat) (f : Thread → Thread) : (s.modThr k f).grants = s.grants := rfl
@[simp] theorem modThr_ownReqs (s : State) (k : Nat) (f : Thread → Thread) : (s.modThr k f).ownReqs = s.ownReqs := rfl
@[simp] theorem modThr_ownLost (s : State) (k : Nat) (f : Thread → Thread) : (s.modThr k f).ownLost = s.ownLost := rfl
@[simp] theorem modThr_carried (s : State) (k : Nat) (f : Thread → Thread) : (s.modThr k f).carried = s.carried := rfl
@[simp] theorem modThr_peerReqs (s : State) (k : Nat) (f : Thread → Thread) : (s.modThr k f).peerReqs = s.peerReqs := rfl
@[simp] theorem modThr_hubWait (s : State) (k : Nat) (f : Thread → Thread) : (s.modThr k f).hubWait = s.hubWait := rfl
@[simp] theorem modThr_posted (s : State) (k : Nat) (f : Thread → Thread) : (s.modThr k f).posted = s.posted := rfl
@[simp] theorem modThr_walks (s : State) (k : Nat) (f : Thread → Thread) : (s.modThr k f).walks = s.walks := rfl
@[simp] theorem modThr_walkCache (s : State) (k : Nat) (f : Thread → Thread) : (s.modThr k f).walkCache = s.walkCache := rfl
@[simp] theorem modThr_nextId (s : State) (k : Nat) (f : Thread → Thread) : (s.modThr k f).nextId = s.nextId := rfl
@[simp] theorem modThr_tick (s : State) (k : Nat) (f : Thread → Thread) : (s.modThr k f).tick = s.tick := rfl
@[simp] theorem modThr_agenda (s : State) (k : Nat) (f : Thread → Thread) : (s.modThr k f).agenda = s.agenda := rfl
@[simp] theorem modThr_mover (s : State) (k : Nat) (f : Thread → Thread) : (s.modThr k f).mover = s.mover := rfl
@[simp] theorem modThr_curThread (s : State) (k : Nat) (f : Thread → Thread) : (s.modThr k f).curThread = s.curThread := rfl
@[simp] theorem modThr_curNode (s : State) (k : Nat) (f : Thread → Thread) : (s.modThr k f).curNode = s.curNode := rfl

@[simp] theorem setTile_dev (s : State) (n : Nat) (t : Tile) : (s.setTile n t).dev = s.dev := rfl
@[simp] theorem setTile_links (s : State) (n : Nat) (t : Tile) : (s.setTile n t).links = s.links := rfl
@[simp] theorem setTile_dierst (s : State) (n : Nat) (t : Tile) : (s.setTile n t).dierst = s.dierst := rfl
@[simp] theorem setTile_queues (s : State) (n : Nat) (t : Tile) : (s.setTile n t).queues = s.queues := rfl
@[simp] theorem setTile_funcs (s : State) (n : Nat) (t : Tile) : (s.setTile n t).funcs = s.funcs := rfl
@[simp] theorem setTile_peers (s : State) (n : Nat) (t : Tile) : (s.setTile n t).peers = s.peers := rfl
@[simp] theorem setTile_fw (s : State) (n : Nat) (t : Tile) : (s.setTile n t).fw = s.fw := rfl
@[simp] theorem setTile_ctxs (s : State) (n : Nat) (t : Tile) : (s.setTile n t).ctxs = s.ctxs := rfl
@[simp] theorem setTile_kernels (s : State) (n : Nat) (t : Tile) : (s.setTile n t).kernels = s.kernels := rfl
@[simp] theorem setTile_threads (s : State) (n : Nat) (t : Tile) : (s.setTile n t).threads = s.threads := rfl
@[simp] theorem setTile_acts (s : State) (n : Nat) (t : Tile) : (s.setTile n t).acts = s.acts := rfl
@[simp] theorem setTile_insts (s : State) (n : Nat) (t : Tile) : (s.setTile n t).insts = s.insts := rfl
@[simp] theorem setTile_transit (s : State) (n : Nat) (t : Tile) : (s.setTile n t).transit = s.transit := rfl
@[simp] theorem setTile_tasks (s : State) (n : Nat) (t : Tile) : (s.setTile n t).tasks = s.tasks := rfl
@[simp] theorem setTile_colls (s : State) (n : Nat) (t : Tile) : (s.setTile n t).colls = s.colls := rfl
@[simp] theorem setTile_mem (s : State) (n : Nat) (t : Tile) : (s.setTile n t).mem = s.mem := rfl
@[simp] theorem setTile_poison (s : State) (n : Nat) (t : Tile) : (s.setTile n t).poison = s.poison := rfl
@[simp] theorem setTile_hbmCorr (s : State) (n : Nat) (t : Tile) : (s.setTile n t).hbmCorr = s.hbmCorr := rfl
@[simp] theorem setTile_hbmUnc (s : State) (n : Nat) (t : Tile) : (s.setTile n t).hbmUnc = s.hbmUnc := rfl
@[simp] theorem setTile_l2 (s : State) (n : Nat) (t : Tile) : (s.setTile n t).l2 = s.l2 := rfl
@[simp] theorem setTile_regions (s : State) (n : Nat) (t : Tile) : (s.setTile n t).regions = s.regions := rfl
@[simp] theorem setTile_softBy (s : State) (n : Nat) (t : Tile) : (s.setTile n t).softBy = s.softBy := rfl
@[simp] theorem setTile_excl (s : State) (n : Nat) (t : Tile) : (s.setTile n t).excl = s.excl := rfl
@[simp] theorem setTile_mapped (s : State) (n : Nat) (t : Tile) : (s.setTile n t).mapped = s.mapped := rfl
@[simp] theorem setTile_faces (s : State) (n : Nat) (t : Tile) : (s.setTile n t).faces = s.faces := rfl
@[simp] theorem setTile_owned (s : State) (n : Nat) (t : Tile) : (s.setTile n t).owned = s.owned := rfl
@[simp] theorem setTile_grants (s : State) (n : Nat) (t : Tile) : (s.setTile n t).grants = s.grants := rfl
@[simp] theorem setTile_ownReqs (s : State) (n : Nat) (t : Tile) : (s.setTile n t).ownReqs = s.ownReqs := rfl
@[simp] theorem setTile_ownLost (s : State) (n : Nat) (t : Tile) : (s.setTile n t).ownLost = s.ownLost := rfl
@[simp] theorem setTile_carried (s : State) (n : Nat) (t : Tile) : (s.setTile n t).carried = s.carried := rfl
@[simp] theorem setTile_peerReqs (s : State) (n : Nat) (t : Tile) : (s.setTile n t).peerReqs = s.peerReqs := rfl
@[simp] theorem setTile_hubWait (s : State) (n : Nat) (t : Tile) : (s.setTile n t).hubWait = s.hubWait := rfl
@[simp] theorem setTile_posted (s : State) (n : Nat) (t : Tile) : (s.setTile n t).posted = s.posted := rfl
@[simp] theorem setTile_walks (s : State) (n : Nat) (t : Tile) : (s.setTile n t).walks = s.walks := rfl
@[simp] theorem setTile_walkCache (s : State) (n : Nat) (t : Tile) : (s.setTile n t).walkCache = s.walkCache := rfl
@[simp] theorem setTile_nextId (s : State) (n : Nat) (t : Tile) : (s.setTile n t).nextId = s.nextId := rfl
@[simp] theorem setTile_tick (s : State) (n : Nat) (t : Tile) : (s.setTile n t).tick = s.tick := rfl
@[simp] theorem setTile_agenda (s : State) (n : Nat) (t : Tile) : (s.setTile n t).agenda = s.agenda := rfl
@[simp] theorem setTile_mover (s : State) (n : Nat) (t : Tile) : (s.setTile n t).mover = s.mover := rfl
@[simp] theorem setTile_curThread (s : State) (n : Nat) (t : Tile) : (s.setTile n t).curThread = s.curThread := rfl
@[simp] theorem setTile_curNode (s : State) (n : Nat) (t : Tile) : (s.setTile n t).curNode = s.curNode := rfl

@[simp] theorem modTile_dev (s : State) (n : Nat) (f : Tile → Tile) : (s.modTile n f).dev = s.dev := rfl
@[simp] theorem modTile_links (s : State) (n : Nat) (f : Tile → Tile) : (s.modTile n f).links = s.links := rfl
@[simp] theorem modTile_dierst (s : State) (n : Nat) (f : Tile → Tile) : (s.modTile n f).dierst = s.dierst := rfl
@[simp] theorem modTile_queues (s : State) (n : Nat) (f : Tile → Tile) : (s.modTile n f).queues = s.queues := rfl
@[simp] theorem modTile_funcs (s : State) (n : Nat) (f : Tile → Tile) : (s.modTile n f).funcs = s.funcs := rfl
@[simp] theorem modTile_peers (s : State) (n : Nat) (f : Tile → Tile) : (s.modTile n f).peers = s.peers := rfl
@[simp] theorem modTile_fw (s : State) (n : Nat) (f : Tile → Tile) : (s.modTile n f).fw = s.fw := rfl
@[simp] theorem modTile_ctxs (s : State) (n : Nat) (f : Tile → Tile) : (s.modTile n f).ctxs = s.ctxs := rfl
@[simp] theorem modTile_kernels (s : State) (n : Nat) (f : Tile → Tile) : (s.modTile n f).kernels = s.kernels := rfl
@[simp] theorem modTile_threads (s : State) (n : Nat) (f : Tile → Tile) : (s.modTile n f).threads = s.threads := rfl
@[simp] theorem modTile_acts (s : State) (n : Nat) (f : Tile → Tile) : (s.modTile n f).acts = s.acts := rfl
@[simp] theorem modTile_insts (s : State) (n : Nat) (f : Tile → Tile) : (s.modTile n f).insts = s.insts := rfl
@[simp] theorem modTile_transit (s : State) (n : Nat) (f : Tile → Tile) : (s.modTile n f).transit = s.transit := rfl
@[simp] theorem modTile_tasks (s : State) (n : Nat) (f : Tile → Tile) : (s.modTile n f).tasks = s.tasks := rfl
@[simp] theorem modTile_colls (s : State) (n : Nat) (f : Tile → Tile) : (s.modTile n f).colls = s.colls := rfl
@[simp] theorem modTile_mem (s : State) (n : Nat) (f : Tile → Tile) : (s.modTile n f).mem = s.mem := rfl
@[simp] theorem modTile_poison (s : State) (n : Nat) (f : Tile → Tile) : (s.modTile n f).poison = s.poison := rfl
@[simp] theorem modTile_hbmCorr (s : State) (n : Nat) (f : Tile → Tile) : (s.modTile n f).hbmCorr = s.hbmCorr := rfl
@[simp] theorem modTile_hbmUnc (s : State) (n : Nat) (f : Tile → Tile) : (s.modTile n f).hbmUnc = s.hbmUnc := rfl
@[simp] theorem modTile_l2 (s : State) (n : Nat) (f : Tile → Tile) : (s.modTile n f).l2 = s.l2 := rfl
@[simp] theorem modTile_regions (s : State) (n : Nat) (f : Tile → Tile) : (s.modTile n f).regions = s.regions := rfl
@[simp] theorem modTile_softBy (s : State) (n : Nat) (f : Tile → Tile) : (s.modTile n f).softBy = s.softBy := rfl
@[simp] theorem modTile_excl (s : State) (n : Nat) (f : Tile → Tile) : (s.modTile n f).excl = s.excl := rfl
@[simp] theorem modTile_mapped (s : State) (n : Nat) (f : Tile → Tile) : (s.modTile n f).mapped = s.mapped := rfl
@[simp] theorem modTile_faces (s : State) (n : Nat) (f : Tile → Tile) : (s.modTile n f).faces = s.faces := rfl
@[simp] theorem modTile_owned (s : State) (n : Nat) (f : Tile → Tile) : (s.modTile n f).owned = s.owned := rfl
@[simp] theorem modTile_grants (s : State) (n : Nat) (f : Tile → Tile) : (s.modTile n f).grants = s.grants := rfl
@[simp] theorem modTile_ownReqs (s : State) (n : Nat) (f : Tile → Tile) : (s.modTile n f).ownReqs = s.ownReqs := rfl
@[simp] theorem modTile_ownLost (s : State) (n : Nat) (f : Tile → Tile) : (s.modTile n f).ownLost = s.ownLost := rfl
@[simp] theorem modTile_carried (s : State) (n : Nat) (f : Tile → Tile) : (s.modTile n f).carried = s.carried := rfl
@[simp] theorem modTile_peerReqs (s : State) (n : Nat) (f : Tile → Tile) : (s.modTile n f).peerReqs = s.peerReqs := rfl
@[simp] theorem modTile_hubWait (s : State) (n : Nat) (f : Tile → Tile) : (s.modTile n f).hubWait = s.hubWait := rfl
@[simp] theorem modTile_posted (s : State) (n : Nat) (f : Tile → Tile) : (s.modTile n f).posted = s.posted := rfl
@[simp] theorem modTile_walks (s : State) (n : Nat) (f : Tile → Tile) : (s.modTile n f).walks = s.walks := rfl
@[simp] theorem modTile_walkCache (s : State) (n : Nat) (f : Tile → Tile) : (s.modTile n f).walkCache = s.walkCache := rfl
@[simp] theorem modTile_nextId (s : State) (n : Nat) (f : Tile → Tile) : (s.modTile n f).nextId = s.nextId := rfl
@[simp] theorem modTile_tick (s : State) (n : Nat) (f : Tile → Tile) : (s.modTile n f).tick = s.tick := rfl
@[simp] theorem modTile_agenda (s : State) (n : Nat) (f : Tile → Tile) : (s.modTile n f).agenda = s.agenda := rfl
@[simp] theorem modTile_mover (s : State) (n : Nat) (f : Tile → Tile) : (s.modTile n f).mover = s.mover := rfl
@[simp] theorem modTile_curThread (s : State) (n : Nat) (f : Tile → Tile) : (s.modTile n f).curThread = s.curThread := rfl
@[simp] theorem modTile_curNode (s : State) (n : Nat) (f : Tile → Tile) : (s.modTile n f).curNode = s.curNode := rfl

@[simp] theorem setCtx_dev (s : State) (n : Nat) (c : Ctx) : (s.setCtx n c).dev = s.dev := rfl
@[simp] theorem setCtx_links (s : State) (n : Nat) (c : Ctx) : (s.setCtx n c).links = s.links := rfl
@[simp] theorem setCtx_dierst (s : State) (n : Nat) (c : Ctx) : (s.setCtx n c).dierst = s.dierst := rfl
@[simp] theorem setCtx_queues (s : State) (n : Nat) (c : Ctx) : (s.setCtx n c).queues = s.queues := rfl
@[simp] theorem setCtx_funcs (s : State) (n : Nat) (c : Ctx) : (s.setCtx n c).funcs = s.funcs := rfl
@[simp] theorem setCtx_peers (s : State) (n : Nat) (c : Ctx) : (s.setCtx n c).peers = s.peers := rfl
@[simp] theorem setCtx_fw (s : State) (n : Nat) (c : Ctx) : (s.setCtx n c).fw = s.fw := rfl
@[simp] theorem setCtx_kernels (s : State) (n : Nat) (c : Ctx) : (s.setCtx n c).kernels = s.kernels := rfl
@[simp] theorem setCtx_tiles (s : State) (n : Nat) (c : Ctx) : (s.setCtx n c).tiles = s.tiles := rfl
@[simp] theorem setCtx_threads (s : State) (n : Nat) (c : Ctx) : (s.setCtx n c).threads = s.threads := rfl
@[simp] theorem setCtx_acts (s : State) (n : Nat) (c : Ctx) : (s.setCtx n c).acts = s.acts := rfl
@[simp] theorem setCtx_insts (s : State) (n : Nat) (c : Ctx) : (s.setCtx n c).insts = s.insts := rfl
@[simp] theorem setCtx_transit (s : State) (n : Nat) (c : Ctx) : (s.setCtx n c).transit = s.transit := rfl
@[simp] theorem setCtx_tasks (s : State) (n : Nat) (c : Ctx) : (s.setCtx n c).tasks = s.tasks := rfl
@[simp] theorem setCtx_colls (s : State) (n : Nat) (c : Ctx) : (s.setCtx n c).colls = s.colls := rfl
@[simp] theorem setCtx_mem (s : State) (n : Nat) (c : Ctx) : (s.setCtx n c).mem = s.mem := rfl
@[simp] theorem setCtx_poison (s : State) (n : Nat) (c : Ctx) : (s.setCtx n c).poison = s.poison := rfl
@[simp] theorem setCtx_hbmCorr (s : State) (n : Nat) (c : Ctx) : (s.setCtx n c).hbmCorr = s.hbmCorr := rfl
@[simp] theorem setCtx_hbmUnc (s : State) (n : Nat) (c : Ctx) : (s.setCtx n c).hbmUnc = s.hbmUnc := rfl
@[simp] theorem setCtx_l2 (s : State) (n : Nat) (c : Ctx) : (s.setCtx n c).l2 = s.l2 := rfl
@[simp] theorem setCtx_regions (s : State) (n : Nat) (c : Ctx) : (s.setCtx n c).regions = s.regions := rfl
@[simp] theorem setCtx_softBy (s : State) (n : Nat) (c : Ctx) : (s.setCtx n c).softBy = s.softBy := rfl
@[simp] theorem setCtx_excl (s : State) (n : Nat) (c : Ctx) : (s.setCtx n c).excl = s.excl := rfl
@[simp] theorem setCtx_mapped (s : State) (n : Nat) (c : Ctx) : (s.setCtx n c).mapped = s.mapped := rfl
@[simp] theorem setCtx_faces (s : State) (n : Nat) (c : Ctx) : (s.setCtx n c).faces = s.faces := rfl
@[simp] theorem setCtx_owned (s : State) (n : Nat) (c : Ctx) : (s.setCtx n c).owned = s.owned := rfl
@[simp] theorem setCtx_grants (s : State) (n : Nat) (c : Ctx) : (s.setCtx n c).grants = s.grants := rfl
@[simp] theorem setCtx_ownReqs (s : State) (n : Nat) (c : Ctx) : (s.setCtx n c).ownReqs = s.ownReqs := rfl
@[simp] theorem setCtx_ownLost (s : State) (n : Nat) (c : Ctx) : (s.setCtx n c).ownLost = s.ownLost := rfl
@[simp] theorem setCtx_carried (s : State) (n : Nat) (c : Ctx) : (s.setCtx n c).carried = s.carried := rfl
@[simp] theorem setCtx_peerReqs (s : State) (n : Nat) (c : Ctx) : (s.setCtx n c).peerReqs = s.peerReqs := rfl
@[simp] theorem setCtx_hubWait (s : State) (n : Nat) (c : Ctx) : (s.setCtx n c).hubWait = s.hubWait := rfl
@[simp] theorem setCtx_posted (s : State) (n : Nat) (c : Ctx) : (s.setCtx n c).posted = s.posted := rfl
@[simp] theorem setCtx_walks (s : State) (n : Nat) (c : Ctx) : (s.setCtx n c).walks = s.walks := rfl
@[simp] theorem setCtx_walkCache (s : State) (n : Nat) (c : Ctx) : (s.setCtx n c).walkCache = s.walkCache := rfl
@[simp] theorem setCtx_nextId (s : State) (n : Nat) (c : Ctx) : (s.setCtx n c).nextId = s.nextId := rfl
@[simp] theorem setCtx_tick (s : State) (n : Nat) (c : Ctx) : (s.setCtx n c).tick = s.tick := rfl
@[simp] theorem setCtx_agenda (s : State) (n : Nat) (c : Ctx) : (s.setCtx n c).agenda = s.agenda := rfl
@[simp] theorem setCtx_mover (s : State) (n : Nat) (c : Ctx) : (s.setCtx n c).mover = s.mover := rfl
@[simp] theorem setCtx_curThread (s : State) (n : Nat) (c : Ctx) : (s.setCtx n c).curThread = s.curThread := rfl
@[simp] theorem setCtx_curNode (s : State) (n : Nat) (c : Ctx) : (s.setCtx n c).curNode = s.curNode := rfl

@[simp] theorem modCtx_dev (s : State) (n : Nat) (f : Ctx → Ctx) : (s.modCtx n f).dev = s.dev := rfl
@[simp] theorem modCtx_links (s : State) (n : Nat) (f : Ctx → Ctx) : (s.modCtx n f).links = s.links := rfl
@[simp] theorem modCtx_dierst (s : State) (n : Nat) (f : Ctx → Ctx) : (s.modCtx n f).dierst = s.dierst := rfl
@[simp] theorem modCtx_queues (s : State) (n : Nat) (f : Ctx → Ctx) : (s.modCtx n f).queues = s.queues := rfl
@[simp] theorem modCtx_funcs (s : State) (n : Nat) (f : Ctx → Ctx) : (s.modCtx n f).funcs = s.funcs := rfl
@[simp] theorem modCtx_peers (s : State) (n : Nat) (f : Ctx → Ctx) : (s.modCtx n f).peers = s.peers := rfl
@[simp] theorem modCtx_fw (s : State) (n : Nat) (f : Ctx → Ctx) : (s.modCtx n f).fw = s.fw := rfl
@[simp] theorem modCtx_kernels (s : State) (n : Nat) (f : Ctx → Ctx) : (s.modCtx n f).kernels = s.kernels := rfl
@[simp] theorem modCtx_tiles (s : State) (n : Nat) (f : Ctx → Ctx) : (s.modCtx n f).tiles = s.tiles := rfl
@[simp] theorem modCtx_threads (s : State) (n : Nat) (f : Ctx → Ctx) : (s.modCtx n f).threads = s.threads := rfl
@[simp] theorem modCtx_acts (s : State) (n : Nat) (f : Ctx → Ctx) : (s.modCtx n f).acts = s.acts := rfl
@[simp] theorem modCtx_insts (s : State) (n : Nat) (f : Ctx → Ctx) : (s.modCtx n f).insts = s.insts := rfl
@[simp] theorem modCtx_transit (s : State) (n : Nat) (f : Ctx → Ctx) : (s.modCtx n f).transit = s.transit := rfl
@[simp] theorem modCtx_tasks (s : State) (n : Nat) (f : Ctx → Ctx) : (s.modCtx n f).tasks = s.tasks := rfl
@[simp] theorem modCtx_colls (s : State) (n : Nat) (f : Ctx → Ctx) : (s.modCtx n f).colls = s.colls := rfl
@[simp] theorem modCtx_mem (s : State) (n : Nat) (f : Ctx → Ctx) : (s.modCtx n f).mem = s.mem := rfl
@[simp] theorem modCtx_poison (s : State) (n : Nat) (f : Ctx → Ctx) : (s.modCtx n f).poison = s.poison := rfl
@[simp] theorem modCtx_hbmCorr (s : State) (n : Nat) (f : Ctx → Ctx) : (s.modCtx n f).hbmCorr = s.hbmCorr := rfl
@[simp] theorem modCtx_hbmUnc (s : State) (n : Nat) (f : Ctx → Ctx) : (s.modCtx n f).hbmUnc = s.hbmUnc := rfl
@[simp] theorem modCtx_l2 (s : State) (n : Nat) (f : Ctx → Ctx) : (s.modCtx n f).l2 = s.l2 := rfl
@[simp] theorem modCtx_regions (s : State) (n : Nat) (f : Ctx → Ctx) : (s.modCtx n f).regions = s.regions := rfl
@[simp] theorem modCtx_softBy (s : State) (n : Nat) (f : Ctx → Ctx) : (s.modCtx n f).softBy = s.softBy := rfl
@[simp] theorem modCtx_excl (s : State) (n : Nat) (f : Ctx → Ctx) : (s.modCtx n f).excl = s.excl := rfl
@[simp] theorem modCtx_mapped (s : State) (n : Nat) (f : Ctx → Ctx) : (s.modCtx n f).mapped = s.mapped := rfl
@[simp] theorem modCtx_faces (s : State) (n : Nat) (f : Ctx → Ctx) : (s.modCtx n f).faces = s.faces := rfl
@[simp] theorem modCtx_owned (s : State) (n : Nat) (f : Ctx → Ctx) : (s.modCtx n f).owned = s.owned := rfl
@[simp] theorem modCtx_grants (s : State) (n : Nat) (f : Ctx → Ctx) : (s.modCtx n f).grants = s.grants := rfl
@[simp] theorem modCtx_ownReqs (s : State) (n : Nat) (f : Ctx → Ctx) : (s.modCtx n f).ownReqs = s.ownReqs := rfl
@[simp] theorem modCtx_ownLost (s : State) (n : Nat) (f : Ctx → Ctx) : (s.modCtx n f).ownLost = s.ownLost := rfl
@[simp] theorem modCtx_carried (s : State) (n : Nat) (f : Ctx → Ctx) : (s.modCtx n f).carried = s.carried := rfl
@[simp] theorem modCtx_peerReqs (s : State) (n : Nat) (f : Ctx → Ctx) : (s.modCtx n f).peerReqs = s.peerReqs := rfl
@[simp] theorem modCtx_hubWait (s : State) (n : Nat) (f : Ctx → Ctx) : (s.modCtx n f).hubWait = s.hubWait := rfl
@[simp] theorem modCtx_posted (s : State) (n : Nat) (f : Ctx → Ctx) : (s.modCtx n f).posted = s.posted := rfl
@[simp] theorem modCtx_walks (s : State) (n : Nat) (f : Ctx → Ctx) : (s.modCtx n f).walks = s.walks := rfl
@[simp] theorem modCtx_walkCache (s : State) (n : Nat) (f : Ctx → Ctx) : (s.modCtx n f).walkCache = s.walkCache := rfl
@[simp] theorem modCtx_nextId (s : State) (n : Nat) (f : Ctx → Ctx) : (s.modCtx n f).nextId = s.nextId := rfl
@[simp] theorem modCtx_tick (s : State) (n : Nat) (f : Ctx → Ctx) : (s.modCtx n f).tick = s.tick := rfl
@[simp] theorem modCtx_agenda (s : State) (n : Nat) (f : Ctx → Ctx) : (s.modCtx n f).agenda = s.agenda := rfl
@[simp] theorem modCtx_mover (s : State) (n : Nat) (f : Ctx → Ctx) : (s.modCtx n f).mover = s.mover := rfl
@[simp] theorem modCtx_curThread (s : State) (n : Nat) (f : Ctx → Ctx) : (s.modCtx n f).curThread = s.curThread := rfl
@[simp] theorem modCtx_curNode (s : State) (n : Nat) (f : Ctx → Ctx) : (s.modCtx n f).curNode = s.curNode := rfl

@[simp] theorem setKern_dev (s : State) (n : Nat) (c : Kernel) : (s.setKern n c).dev = s.dev := rfl
@[simp] theorem setKern_links (s : State) (n : Nat) (c : Kernel) : (s.setKern n c).links = s.links := rfl
@[simp] theorem setKern_dierst (s : State) (n : Nat) (c : Kernel) : (s.setKern n c).dierst = s.dierst := rfl
@[simp] theorem setKern_queues (s : State) (n : Nat) (c : Kernel) : (s.setKern n c).queues = s.queues := rfl
@[simp] theorem setKern_funcs (s : State) (n : Nat) (c : Kernel) : (s.setKern n c).funcs = s.funcs := rfl
@[simp] theorem setKern_peers (s : State) (n : Nat) (c : Kernel) : (s.setKern n c).peers = s.peers := rfl
@[simp] theorem setKern_fw (s : State) (n : Nat) (c : Kernel) : (s.setKern n c).fw = s.fw := rfl
@[simp] theorem setKern_ctxs (s : State) (n : Nat) (c : Kernel) : (s.setKern n c).ctxs = s.ctxs := rfl
@[simp] theorem setKern_tiles (s : State) (n : Nat) (c : Kernel) : (s.setKern n c).tiles = s.tiles := rfl
@[simp] theorem setKern_threads (s : State) (n : Nat) (c : Kernel) : (s.setKern n c).threads = s.threads := rfl
@[simp] theorem setKern_acts (s : State) (n : Nat) (c : Kernel) : (s.setKern n c).acts = s.acts := rfl
@[simp] theorem setKern_insts (s : State) (n : Nat) (c : Kernel) : (s.setKern n c).insts = s.insts := rfl
@[simp] theorem setKern_transit (s : State) (n : Nat) (c : Kernel) : (s.setKern n c).transit = s.transit := rfl
@[simp] theorem setKern_tasks (s : State) (n : Nat) (c : Kernel) : (s.setKern n c).tasks = s.tasks := rfl
@[simp] theorem setKern_colls (s : State) (n : Nat) (c : Kernel) : (s.setKern n c).colls = s.colls := rfl
@[simp] theorem setKern_mem (s : State) (n : Nat) (c : Kernel) : (s.setKern n c).mem = s.mem := rfl
@[simp] theorem setKern_poison (s : State) (n : Nat) (c : Kernel) : (s.setKern n c).poison = s.poison := rfl
@[simp] theorem setKern_hbmCorr (s : State) (n : Nat) (c : Kernel) : (s.setKern n c).hbmCorr = s.hbmCorr := rfl
@[simp] theorem setKern_hbmUnc (s : State) (n : Nat) (c : Kernel) : (s.setKern n c).hbmUnc = s.hbmUnc := rfl
@[simp] theorem setKern_l2 (s : State) (n : Nat) (c : Kernel) : (s.setKern n c).l2 = s.l2 := rfl
@[simp] theorem setKern_regions (s : State) (n : Nat) (c : Kernel) : (s.setKern n c).regions = s.regions := rfl
@[simp] theorem setKern_softBy (s : State) (n : Nat) (c : Kernel) : (s.setKern n c).softBy = s.softBy := rfl
@[simp] theorem setKern_excl (s : State) (n : Nat) (c : Kernel) : (s.setKern n c).excl = s.excl := rfl
@[simp] theorem setKern_mapped (s : State) (n : Nat) (c : Kernel) : (s.setKern n c).mapped = s.mapped := rfl
@[simp] theorem setKern_faces (s : State) (n : Nat) (c : Kernel) : (s.setKern n c).faces = s.faces := rfl
@[simp] theorem setKern_owned (s : State) (n : Nat) (c : Kernel) : (s.setKern n c).owned = s.owned := rfl
@[simp] theorem setKern_grants (s : State) (n : Nat) (c : Kernel) : (s.setKern n c).grants = s.grants := rfl
@[simp] theorem setKern_ownReqs (s : State) (n : Nat) (c : Kernel) : (s.setKern n c).ownReqs = s.ownReqs := rfl
@[simp] theorem setKern_ownLost (s : State) (n : Nat) (c : Kernel) : (s.setKern n c).ownLost = s.ownLost := rfl
@[simp] theorem setKern_carried (s : State) (n : Nat) (c : Kernel) : (s.setKern n c).carried = s.carried := rfl
@[simp] theorem setKern_peerReqs (s : State) (n : Nat) (c : Kernel) : (s.setKern n c).peerReqs = s.peerReqs := rfl
@[simp] theorem setKern_hubWait (s : State) (n : Nat) (c : Kernel) : (s.setKern n c).hubWait = s.hubWait := rfl
@[simp] theorem setKern_posted (s : State) (n : Nat) (c : Kernel) : (s.setKern n c).posted = s.posted := rfl
@[simp] theorem setKern_walks (s : State) (n : Nat) (c : Kernel) : (s.setKern n c).walks = s.walks := rfl
@[simp] theorem setKern_walkCache (s : State) (n : Nat) (c : Kernel) : (s.setKern n c).walkCache = s.walkCache := rfl
@[simp] theorem setKern_nextId (s : State) (n : Nat) (c : Kernel) : (s.setKern n c).nextId = s.nextId := rfl
@[simp] theorem setKern_tick (s : State) (n : Nat) (c : Kernel) : (s.setKern n c).tick = s.tick := rfl
@[simp] theorem setKern_agenda (s : State) (n : Nat) (c : Kernel) : (s.setKern n c).agenda = s.agenda := rfl
@[simp] theorem setKern_mover (s : State) (n : Nat) (c : Kernel) : (s.setKern n c).mover = s.mover := rfl
@[simp] theorem setKern_curThread (s : State) (n : Nat) (c : Kernel) : (s.setKern n c).curThread = s.curThread := rfl
@[simp] theorem setKern_curNode (s : State) (n : Nat) (c : Kernel) : (s.setKern n c).curNode = s.curNode := rfl

@[simp] theorem setAct_dev (s : State) (n : Nat) (c : Act) : (s.setAct n c).dev = s.dev := rfl
@[simp] theorem setAct_links (s : State) (n : Nat) (c : Act) : (s.setAct n c).links = s.links := rfl
@[simp] theorem setAct_dierst (s : State) (n : Nat) (c : Act) : (s.setAct n c).dierst = s.dierst := rfl
@[simp] theorem setAct_queues (s : State) (n : Nat) (c : Act) : (s.setAct n c).queues = s.queues := rfl
@[simp] theorem setAct_funcs (s : State) (n : Nat) (c : Act) : (s.setAct n c).funcs = s.funcs := rfl
@[simp] theorem setAct_peers (s : State) (n : Nat) (c : Act) : (s.setAct n c).peers = s.peers := rfl
@[simp] theorem setAct_fw (s : State) (n : Nat) (c : Act) : (s.setAct n c).fw = s.fw := rfl
@[simp] theorem setAct_ctxs (s : State) (n : Nat) (c : Act) : (s.setAct n c).ctxs = s.ctxs := rfl
@[simp] theorem setAct_kernels (s : State) (n : Nat) (c : Act) : (s.setAct n c).kernels = s.kernels := rfl
@[simp] theorem setAct_tiles (s : State) (n : Nat) (c : Act) : (s.setAct n c).tiles = s.tiles := rfl
@[simp] theorem setAct_threads (s : State) (n : Nat) (c : Act) : (s.setAct n c).threads = s.threads := rfl
@[simp] theorem setAct_insts (s : State) (n : Nat) (c : Act) : (s.setAct n c).insts = s.insts := rfl
@[simp] theorem setAct_transit (s : State) (n : Nat) (c : Act) : (s.setAct n c).transit = s.transit := rfl
@[simp] theorem setAct_tasks (s : State) (n : Nat) (c : Act) : (s.setAct n c).tasks = s.tasks := rfl
@[simp] theorem setAct_colls (s : State) (n : Nat) (c : Act) : (s.setAct n c).colls = s.colls := rfl
@[simp] theorem setAct_mem (s : State) (n : Nat) (c : Act) : (s.setAct n c).mem = s.mem := rfl
@[simp] theorem setAct_poison (s : State) (n : Nat) (c : Act) : (s.setAct n c).poison = s.poison := rfl
@[simp] theorem setAct_hbmCorr (s : State) (n : Nat) (c : Act) : (s.setAct n c).hbmCorr = s.hbmCorr := rfl
@[simp] theorem setAct_hbmUnc (s : State) (n : Nat) (c : Act) : (s.setAct n c).hbmUnc = s.hbmUnc := rfl
@[simp] theorem setAct_l2 (s : State) (n : Nat) (c : Act) : (s.setAct n c).l2 = s.l2 := rfl
@[simp] theorem setAct_regions (s : State) (n : Nat) (c : Act) : (s.setAct n c).regions = s.regions := rfl
@[simp] theorem setAct_softBy (s : State) (n : Nat) (c : Act) : (s.setAct n c).softBy = s.softBy := rfl
@[simp] theorem setAct_excl (s : State) (n : Nat) (c : Act) : (s.setAct n c).excl = s.excl := rfl
@[simp] theorem setAct_mapped (s : State) (n : Nat) (c : Act) : (s.setAct n c).mapped = s.mapped := rfl
@[simp] theorem setAct_faces (s : State) (n : Nat) (c : Act) : (s.setAct n c).faces = s.faces := rfl
@[simp] theorem setAct_owned (s : State) (n : Nat) (c : Act) : (s.setAct n c).owned = s.owned := rfl
@[simp] theorem setAct_grants (s : State) (n : Nat) (c : Act) : (s.setAct n c).grants = s.grants := rfl
@[simp] theorem setAct_ownReqs (s : State) (n : Nat) (c : Act) : (s.setAct n c).ownReqs = s.ownReqs := rfl
@[simp] theorem setAct_ownLost (s : State) (n : Nat) (c : Act) : (s.setAct n c).ownLost = s.ownLost := rfl
@[simp] theorem setAct_carried (s : State) (n : Nat) (c : Act) : (s.setAct n c).carried = s.carried := rfl
@[simp] theorem setAct_peerReqs (s : State) (n : Nat) (c : Act) : (s.setAct n c).peerReqs = s.peerReqs := rfl
@[simp] theorem setAct_hubWait (s : State) (n : Nat) (c : Act) : (s.setAct n c).hubWait = s.hubWait := rfl
@[simp] theorem setAct_posted (s : State) (n : Nat) (c : Act) : (s.setAct n c).posted = s.posted := rfl
@[simp] theorem setAct_walks (s : State) (n : Nat) (c : Act) : (s.setAct n c).walks = s.walks := rfl
@[simp] theorem setAct_walkCache (s : State) (n : Nat) (c : Act) : (s.setAct n c).walkCache = s.walkCache := rfl
@[simp] theorem setAct_nextId (s : State) (n : Nat) (c : Act) : (s.setAct n c).nextId = s.nextId := rfl
@[simp] theorem setAct_tick (s : State) (n : Nat) (c : Act) : (s.setAct n c).tick = s.tick := rfl
@[simp] theorem setAct_agenda (s : State) (n : Nat) (c : Act) : (s.setAct n c).agenda = s.agenda := rfl
@[simp] theorem setAct_mover (s : State) (n : Nat) (c : Act) : (s.setAct n c).mover = s.mover := rfl
@[simp] theorem setAct_curThread (s : State) (n : Nat) (c : Act) : (s.setAct n c).curThread = s.curThread := rfl
@[simp] theorem setAct_curNode (s : State) (n : Nat) (c : Act) : (s.setAct n c).curNode = s.curNode := rfl

@[simp] theorem setInst_dev (s : State) (n : Nat) (c : Inst) : (s.setInst n c).dev = s.dev := rfl
@[simp] theorem setInst_links (s : State) (n : Nat) (c : Inst) : (s.setInst n c).links = s.links := rfl
@[simp] theorem setInst_dierst (s : State) (n : Nat) (c : Inst) : (s.setInst n c).dierst = s.dierst := rfl
@[simp] theorem setInst_queues (s : State) (n : Nat) (c : Inst) : (s.setInst n c).queues = s.queues := rfl
@[simp] theorem setInst_funcs (s : State) (n : Nat) (c : Inst) : (s.setInst n c).funcs = s.funcs := rfl
@[simp] theorem setInst_peers (s : State) (n : Nat) (c : Inst) : (s.setInst n c).peers = s.peers := rfl
@[simp] theorem setInst_fw (s : State) (n : Nat) (c : Inst) : (s.setInst n c).fw = s.fw := rfl
@[simp] theorem setInst_ctxs (s : State) (n : Nat) (c : Inst) : (s.setInst n c).ctxs = s.ctxs := rfl
@[simp] theorem setInst_kernels (s : State) (n : Nat) (c : Inst) : (s.setInst n c).kernels = s.kernels := rfl
@[simp] theorem setInst_tiles (s : State) (n : Nat) (c : Inst) : (s.setInst n c).tiles = s.tiles := rfl
@[simp] theorem setInst_threads (s : State) (n : Nat) (c : Inst) : (s.setInst n c).threads = s.threads := rfl
@[simp] theorem setInst_acts (s : State) (n : Nat) (c : Inst) : (s.setInst n c).acts = s.acts := rfl
@[simp] theorem setInst_transit (s : State) (n : Nat) (c : Inst) : (s.setInst n c).transit = s.transit := rfl
@[simp] theorem setInst_tasks (s : State) (n : Nat) (c : Inst) : (s.setInst n c).tasks = s.tasks := rfl
@[simp] theorem setInst_colls (s : State) (n : Nat) (c : Inst) : (s.setInst n c).colls = s.colls := rfl
@[simp] theorem setInst_mem (s : State) (n : Nat) (c : Inst) : (s.setInst n c).mem = s.mem := rfl
@[simp] theorem setInst_poison (s : State) (n : Nat) (c : Inst) : (s.setInst n c).poison = s.poison := rfl
@[simp] theorem setInst_hbmCorr (s : State) (n : Nat) (c : Inst) : (s.setInst n c).hbmCorr = s.hbmCorr := rfl
@[simp] theorem setInst_hbmUnc (s : State) (n : Nat) (c : Inst) : (s.setInst n c).hbmUnc = s.hbmUnc := rfl
@[simp] theorem setInst_l2 (s : State) (n : Nat) (c : Inst) : (s.setInst n c).l2 = s.l2 := rfl
@[simp] theorem setInst_regions (s : State) (n : Nat) (c : Inst) : (s.setInst n c).regions = s.regions := rfl
@[simp] theorem setInst_softBy (s : State) (n : Nat) (c : Inst) : (s.setInst n c).softBy = s.softBy := rfl
@[simp] theorem setInst_excl (s : State) (n : Nat) (c : Inst) : (s.setInst n c).excl = s.excl := rfl
@[simp] theorem setInst_mapped (s : State) (n : Nat) (c : Inst) : (s.setInst n c).mapped = s.mapped := rfl
@[simp] theorem setInst_faces (s : State) (n : Nat) (c : Inst) : (s.setInst n c).faces = s.faces := rfl
@[simp] theorem setInst_owned (s : State) (n : Nat) (c : Inst) : (s.setInst n c).owned = s.owned := rfl
@[simp] theorem setInst_grants (s : State) (n : Nat) (c : Inst) : (s.setInst n c).grants = s.grants := rfl
@[simp] theorem setInst_ownReqs (s : State) (n : Nat) (c : Inst) : (s.setInst n c).ownReqs = s.ownReqs := rfl
@[simp] theorem setInst_ownLost (s : State) (n : Nat) (c : Inst) : (s.setInst n c).ownLost = s.ownLost := rfl
@[simp] theorem setInst_carried (s : State) (n : Nat) (c : Inst) : (s.setInst n c).carried = s.carried := rfl
@[simp] theorem setInst_peerReqs (s : State) (n : Nat) (c : Inst) : (s.setInst n c).peerReqs = s.peerReqs := rfl
@[simp] theorem setInst_hubWait (s : State) (n : Nat) (c : Inst) : (s.setInst n c).hubWait = s.hubWait := rfl
@[simp] theorem setInst_posted (s : State) (n : Nat) (c : Inst) : (s.setInst n c).posted = s.posted := rfl
@[simp] theorem setInst_walks (s : State) (n : Nat) (c : Inst) : (s.setInst n c).walks = s.walks := rfl
@[simp] theorem setInst_walkCache (s : State) (n : Nat) (c : Inst) : (s.setInst n c).walkCache = s.walkCache := rfl
@[simp] theorem setInst_nextId (s : State) (n : Nat) (c : Inst) : (s.setInst n c).nextId = s.nextId := rfl
@[simp] theorem setInst_tick (s : State) (n : Nat) (c : Inst) : (s.setInst n c).tick = s.tick := rfl
@[simp] theorem setInst_agenda (s : State) (n : Nat) (c : Inst) : (s.setInst n c).agenda = s.agenda := rfl
@[simp] theorem setInst_mover (s : State) (n : Nat) (c : Inst) : (s.setInst n c).mover = s.mover := rfl
@[simp] theorem setInst_curThread (s : State) (n : Nat) (c : Inst) : (s.setInst n c).curThread = s.curThread := rfl
@[simp] theorem setInst_curNode (s : State) (n : Nat) (c : Inst) : (s.setInst n c).curNode = s.curNode := rfl

@[simp] theorem setErrand_dev (s : State) (n j : Nat) (c : Errand) : (s.setErrand n j c).dev = s.dev := rfl
@[simp] theorem setErrand_links (s : State) (n j : Nat) (c : Errand) : (s.setErrand n j c).links = s.links := rfl
@[simp] theorem setErrand_dierst (s : State) (n j : Nat) (c : Errand) : (s.setErrand n j c).dierst = s.dierst := rfl
@[simp] theorem setErrand_queues (s : State) (n j : Nat) (c : Errand) : (s.setErrand n j c).queues = s.queues := rfl
@[simp] theorem setErrand_funcs (s : State) (n j : Nat) (c : Errand) : (s.setErrand n j c).funcs = s.funcs := rfl
@[simp] theorem setErrand_peers (s : State) (n j : Nat) (c : Errand) : (s.setErrand n j c).peers = s.peers := rfl
@[simp] theorem setErrand_fw (s : State) (n j : Nat) (c : Errand) : (s.setErrand n j c).fw = s.fw := rfl
@[simp] theorem setErrand_ctxs (s : State) (n j : Nat) (c : Errand) : (s.setErrand n j c).ctxs = s.ctxs := rfl
@[simp] theorem setErrand_kernels (s : State) (n j : Nat) (c : Errand) : (s.setErrand n j c).kernels = s.kernels := rfl
@[simp] theorem setErrand_threads (s : State) (n j : Nat) (c : Errand) : (s.setErrand n j c).threads = s.threads := rfl
@[simp] theorem setErrand_acts (s : State) (n j : Nat) (c : Errand) : (s.setErrand n j c).acts = s.acts := rfl
@[simp] theorem setErrand_insts (s : State) (n j : Nat) (c : Errand) : (s.setErrand n j c).insts = s.insts := rfl
@[simp] theorem setErrand_transit (s : State) (n j : Nat) (c : Errand) : (s.setErrand n j c).transit = s.transit := rfl
@[simp] theorem setErrand_tasks (s : State) (n j : Nat) (c : Errand) : (s.setErrand n j c).tasks = s.tasks := rfl
@[simp] theorem setErrand_colls (s : State) (n j : Nat) (c : Errand) : (s.setErrand n j c).colls = s.colls := rfl
@[simp] theorem setErrand_mem (s : State) (n j : Nat) (c : Errand) : (s.setErrand n j c).mem = s.mem := rfl
@[simp] theorem setErrand_poison (s : State) (n j : Nat) (c : Errand) : (s.setErrand n j c).poison = s.poison := rfl
@[simp] theorem setErrand_hbmCorr (s : State) (n j : Nat) (c : Errand) : (s.setErrand n j c).hbmCorr = s.hbmCorr := rfl
@[simp] theorem setErrand_hbmUnc (s : State) (n j : Nat) (c : Errand) : (s.setErrand n j c).hbmUnc = s.hbmUnc := rfl
@[simp] theorem setErrand_l2 (s : State) (n j : Nat) (c : Errand) : (s.setErrand n j c).l2 = s.l2 := rfl
@[simp] theorem setErrand_regions (s : State) (n j : Nat) (c : Errand) : (s.setErrand n j c).regions = s.regions := rfl
@[simp] theorem setErrand_softBy (s : State) (n j : Nat) (c : Errand) : (s.setErrand n j c).softBy = s.softBy := rfl
@[simp] theorem setErrand_excl (s : State) (n j : Nat) (c : Errand) : (s.setErrand n j c).excl = s.excl := rfl
@[simp] theorem setErrand_mapped (s : State) (n j : Nat) (c : Errand) : (s.setErrand n j c).mapped = s.mapped := rfl
@[simp] theorem setErrand_faces (s : State) (n j : Nat) (c : Errand) : (s.setErrand n j c).faces = s.faces := rfl
@[simp] theorem setErrand_owned (s : State) (n j : Nat) (c : Errand) : (s.setErrand n j c).owned = s.owned := rfl
@[simp] theorem setErrand_grants (s : State) (n j : Nat) (c : Errand) : (s.setErrand n j c).grants = s.grants := rfl
@[simp] theorem setErrand_ownReqs (s : State) (n j : Nat) (c : Errand) : (s.setErrand n j c).ownReqs = s.ownReqs := rfl
@[simp] theorem setErrand_ownLost (s : State) (n j : Nat) (c : Errand) : (s.setErrand n j c).ownLost = s.ownLost := rfl
@[simp] theorem setErrand_carried (s : State) (n j : Nat) (c : Errand) : (s.setErrand n j c).carried = s.carried := rfl
@[simp] theorem setErrand_peerReqs (s : State) (n j : Nat) (c : Errand) : (s.setErrand n j c).peerReqs = s.peerReqs := rfl
@[simp] theorem setErrand_hubWait (s : State) (n j : Nat) (c : Errand) : (s.setErrand n j c).hubWait = s.hubWait := rfl
@[simp] theorem setErrand_posted (s : State) (n j : Nat) (c : Errand) : (s.setErrand n j c).posted = s.posted := rfl
@[simp] theorem setErrand_walks (s : State) (n j : Nat) (c : Errand) : (s.setErrand n j c).walks = s.walks := rfl
@[simp] theorem setErrand_walkCache (s : State) (n j : Nat) (c : Errand) : (s.setErrand n j c).walkCache = s.walkCache := rfl
@[simp] theorem setErrand_nextId (s : State) (n j : Nat) (c : Errand) : (s.setErrand n j c).nextId = s.nextId := rfl
@[simp] theorem setErrand_tick (s : State) (n j : Nat) (c : Errand) : (s.setErrand n j c).tick = s.tick := rfl
@[simp] theorem setErrand_agenda (s : State) (n j : Nat) (c : Errand) : (s.setErrand n j c).agenda = s.agenda := rfl
@[simp] theorem setErrand_mover (s : State) (n j : Nat) (c : Errand) : (s.setErrand n j c).mover = s.mover := rfl
@[simp] theorem setErrand_curThread (s : State) (n j : Nat) (c : Errand) : (s.setErrand n j c).curThread = s.curThread := rfl
@[simp] theorem setErrand_curNode (s : State) (n j : Nat) (c : Errand) : (s.setErrand n j c).curNode = s.curNode := rfl

@[simp] theorem setQueue_dev (s : State) (n : Nat) (c : Queue) : (s.setQueue n c).dev = s.dev := rfl
@[simp] theorem setQueue_links (s : State) (n : Nat) (c : Queue) : (s.setQueue n c).links = s.links := rfl
@[simp] theorem setQueue_dierst (s : State) (n : Nat) (c : Queue) : (s.setQueue n c).dierst = s.dierst := rfl
@[simp] theorem setQueue_funcs (s : State) (n : Nat) (c : Queue) : (s.setQueue n c).funcs = s.funcs := rfl
@[simp] theorem setQueue_peers (s : State) (n : Nat) (c : Queue) : (s.setQueue n c).peers = s.peers := rfl
@[simp] theorem setQueue_fw (s : State) (n : Nat) (c : Queue) : (s.setQueue n c).fw = s.fw := rfl
@[simp] theorem setQueue_ctxs (s : State) (n : Nat) (c : Queue) : (s.setQueue n c).ctxs = s.ctxs := rfl
@[simp] theorem setQueue_kernels (s : State) (n : Nat) (c : Queue) : (s.setQueue n c).kernels = s.kernels := rfl
@[simp] theorem setQueue_tiles (s : State) (n : Nat) (c : Queue) : (s.setQueue n c).tiles = s.tiles := rfl
@[simp] theorem setQueue_threads (s : State) (n : Nat) (c : Queue) : (s.setQueue n c).threads = s.threads := rfl
@[simp] theorem setQueue_acts (s : State) (n : Nat) (c : Queue) : (s.setQueue n c).acts = s.acts := rfl
@[simp] theorem setQueue_insts (s : State) (n : Nat) (c : Queue) : (s.setQueue n c).insts = s.insts := rfl
@[simp] theorem setQueue_transit (s : State) (n : Nat) (c : Queue) : (s.setQueue n c).transit = s.transit := rfl
@[simp] theorem setQueue_tasks (s : State) (n : Nat) (c : Queue) : (s.setQueue n c).tasks = s.tasks := rfl
@[simp] theorem setQueue_colls (s : State) (n : Nat) (c : Queue) : (s.setQueue n c).colls = s.colls := rfl
@[simp] theorem setQueue_mem (s : State) (n : Nat) (c : Queue) : (s.setQueue n c).mem = s.mem := rfl
@[simp] theorem setQueue_poison (s : State) (n : Nat) (c : Queue) : (s.setQueue n c).poison = s.poison := rfl
@[simp] theorem setQueue_hbmCorr (s : State) (n : Nat) (c : Queue) : (s.setQueue n c).hbmCorr = s.hbmCorr := rfl
@[simp] theorem setQueue_hbmUnc (s : State) (n : Nat) (c : Queue) : (s.setQueue n c).hbmUnc = s.hbmUnc := rfl
@[simp] theorem setQueue_l2 (s : State) (n : Nat) (c : Queue) : (s.setQueue n c).l2 = s.l2 := rfl
@[simp] theorem setQueue_regions (s : State) (n : Nat) (c : Queue) : (s.setQueue n c).regions = s.regions := rfl
@[simp] theorem setQueue_softBy (s : State) (n : Nat) (c : Queue) : (s.setQueue n c).softBy = s.softBy := rfl
@[simp] theorem setQueue_excl (s : State) (n : Nat) (c : Queue) : (s.setQueue n c).excl = s.excl := rfl
@[simp] theorem setQueue_mapped (s : State) (n : Nat) (c : Queue) : (s.setQueue n c).mapped = s.mapped := rfl
@[simp] theorem setQueue_faces (s : State) (n : Nat) (c : Queue) : (s.setQueue n c).faces = s.faces := rfl
@[simp] theorem setQueue_owned (s : State) (n : Nat) (c : Queue) : (s.setQueue n c).owned = s.owned := rfl
@[simp] theorem setQueue_grants (s : State) (n : Nat) (c : Queue) : (s.setQueue n c).grants = s.grants := rfl
@[simp] theorem setQueue_ownReqs (s : State) (n : Nat) (c : Queue) : (s.setQueue n c).ownReqs = s.ownReqs := rfl
@[simp] theorem setQueue_ownLost (s : State) (n : Nat) (c : Queue) : (s.setQueue n c).ownLost = s.ownLost := rfl
@[simp] theorem setQueue_carried (s : State) (n : Nat) (c : Queue) : (s.setQueue n c).carried = s.carried := rfl
@[simp] theorem setQueue_peerReqs (s : State) (n : Nat) (c : Queue) : (s.setQueue n c).peerReqs = s.peerReqs := rfl
@[simp] theorem setQueue_hubWait (s : State) (n : Nat) (c : Queue) : (s.setQueue n c).hubWait = s.hubWait := rfl
@[simp] theorem setQueue_posted (s : State) (n : Nat) (c : Queue) : (s.setQueue n c).posted = s.posted := rfl
@[simp] theorem setQueue_walks (s : State) (n : Nat) (c : Queue) : (s.setQueue n c).walks = s.walks := rfl
@[simp] theorem setQueue_walkCache (s : State) (n : Nat) (c : Queue) : (s.setQueue n c).walkCache = s.walkCache := rfl
@[simp] theorem setQueue_nextId (s : State) (n : Nat) (c : Queue) : (s.setQueue n c).nextId = s.nextId := rfl
@[simp] theorem setQueue_tick (s : State) (n : Nat) (c : Queue) : (s.setQueue n c).tick = s.tick := rfl
@[simp] theorem setQueue_agenda (s : State) (n : Nat) (c : Queue) : (s.setQueue n c).agenda = s.agenda := rfl
@[simp] theorem setQueue_mover (s : State) (n : Nat) (c : Queue) : (s.setQueue n c).mover = s.mover := rfl
@[simp] theorem setQueue_curThread (s : State) (n : Nat) (c : Queue) : (s.setQueue n c).curThread = s.curThread := rfl
@[simp] theorem setQueue_curNode (s : State) (n : Nat) (c : Queue) : (s.setQueue n c).curNode = s.curNode := rfl

@[simp] theorem modQueue_dev (s : State) (n : Nat) (f : Queue → Queue) : (s.modQueue n f).dev = s.dev := rfl
@[simp] theorem modQueue_links (s : State) (n : Nat) (f : Queue → Queue) : (s.modQueue n f).links = s.links := rfl
@[simp] theorem modQueue_dierst (s : State) (n : Nat) (f : Queue → Queue) : (s.modQueue n f).dierst = s.dierst := rfl
@[simp] theorem modQueue_funcs (s : State) (n : Nat) (f : Queue → Queue) : (s.modQueue n f).funcs = s.funcs := rfl
@[simp] theorem modQueue_peers (s : State) (n : Nat) (f : Queue → Queue) : (s.modQueue n f).peers = s.peers := rfl
@[simp] theorem modQueue_fw (s : State) (n : Nat) (f : Queue → Queue) : (s.modQueue n f).fw = s.fw := rfl
@[simp] theorem modQueue_ctxs (s : State) (n : Nat) (f : Queue → Queue) : (s.modQueue n f).ctxs = s.ctxs := rfl
@[simp] theorem modQueue_kernels (s : State) (n : Nat) (f : Queue → Queue) : (s.modQueue n f).kernels = s.kernels := rfl
@[simp] theorem modQueue_tiles (s : State) (n : Nat) (f : Queue → Queue) : (s.modQueue n f).tiles = s.tiles := rfl
@[simp] theorem modQueue_threads (s : State) (n : Nat) (f : Queue → Queue) : (s.modQueue n f).threads = s.threads := rfl
@[simp] theorem modQueue_acts (s : State) (n : Nat) (f : Queue → Queue) : (s.modQueue n f).acts = s.acts := rfl
@[simp] theorem modQueue_insts (s : State) (n : Nat) (f : Queue → Queue) : (s.modQueue n f).insts = s.insts := rfl
@[simp] theorem modQueue_transit (s : State) (n : Nat) (f : Queue → Queue) : (s.modQueue n f).transit = s.transit := rfl
@[simp] theorem modQueue_tasks (s : State) (n : Nat) (f : Queue → Queue) : (s.modQueue n f).tasks = s.tasks := rfl
@[simp] theorem modQueue_colls (s : State) (n : Nat) (f : Queue → Queue) : (s.modQueue n f).colls = s.colls := rfl
@[simp] theorem modQueue_mem (s : State) (n : Nat) (f : Queue → Queue) : (s.modQueue n f).mem = s.mem := rfl
@[simp] theorem modQueue_poison (s : State) (n : Nat) (f : Queue → Queue) : (s.modQueue n f).poison = s.poison := rfl
@[simp] theorem modQueue_hbmCorr (s : State) (n : Nat) (f : Queue → Queue) : (s.modQueue n f).hbmCorr = s.hbmCorr := rfl
@[simp] theorem modQueue_hbmUnc (s : State) (n : Nat) (f : Queue → Queue) : (s.modQueue n f).hbmUnc = s.hbmUnc := rfl
@[simp] theorem modQueue_l2 (s : State) (n : Nat) (f : Queue → Queue) : (s.modQueue n f).l2 = s.l2 := rfl
@[simp] theorem modQueue_regions (s : State) (n : Nat) (f : Queue → Queue) : (s.modQueue n f).regions = s.regions := rfl
@[simp] theorem modQueue_softBy (s : State) (n : Nat) (f : Queue → Queue) : (s.modQueue n f).softBy = s.softBy := rfl
@[simp] theorem modQueue_excl (s : State) (n : Nat) (f : Queue → Queue) : (s.modQueue n f).excl = s.excl := rfl
@[simp] theorem modQueue_mapped (s : State) (n : Nat) (f : Queue → Queue) : (s.modQueue n f).mapped = s.mapped := rfl
@[simp] theorem modQueue_faces (s : State) (n : Nat) (f : Queue → Queue) : (s.modQueue n f).faces = s.faces := rfl
@[simp] theorem modQueue_owned (s : State) (n : Nat) (f : Queue → Queue) : (s.modQueue n f).owned = s.owned := rfl
@[simp] theorem modQueue_grants (s : State) (n : Nat) (f : Queue → Queue) : (s.modQueue n f).grants = s.grants := rfl
@[simp] theorem modQueue_ownReqs (s : State) (n : Nat) (f : Queue → Queue) : (s.modQueue n f).ownReqs = s.ownReqs := rfl
@[simp] theorem modQueue_ownLost (s : State) (n : Nat) (f : Queue → Queue) : (s.modQueue n f).ownLost = s.ownLost := rfl
@[simp] theorem modQueue_carried (s : State) (n : Nat) (f : Queue → Queue) : (s.modQueue n f).carried = s.carried := rfl
@[simp] theorem modQueue_peerReqs (s : State) (n : Nat) (f : Queue → Queue) : (s.modQueue n f).peerReqs = s.peerReqs := rfl
@[simp] theorem modQueue_hubWait (s : State) (n : Nat) (f : Queue → Queue) : (s.modQueue n f).hubWait = s.hubWait := rfl
@[simp] theorem modQueue_posted (s : State) (n : Nat) (f : Queue → Queue) : (s.modQueue n f).posted = s.posted := rfl
@[simp] theorem modQueue_walks (s : State) (n : Nat) (f : Queue → Queue) : (s.modQueue n f).walks = s.walks := rfl
@[simp] theorem modQueue_walkCache (s : State) (n : Nat) (f : Queue → Queue) : (s.modQueue n f).walkCache = s.walkCache := rfl
@[simp] theorem modQueue_nextId (s : State) (n : Nat) (f : Queue → Queue) : (s.modQueue n f).nextId = s.nextId := rfl
@[simp] theorem modQueue_tick (s : State) (n : Nat) (f : Queue → Queue) : (s.modQueue n f).tick = s.tick := rfl
@[simp] theorem modQueue_agenda (s : State) (n : Nat) (f : Queue → Queue) : (s.modQueue n f).agenda = s.agenda := rfl
@[simp] theorem modQueue_mover (s : State) (n : Nat) (f : Queue → Queue) : (s.modQueue n f).mover = s.mover := rfl
@[simp] theorem modQueue_curThread (s : State) (n : Nat) (f : Queue → Queue) : (s.modQueue n f).curThread = s.curThread := rfl
@[simp] theorem modQueue_curNode (s : State) (n : Nat) (f : Queue → Queue) : (s.modQueue n f).curNode = s.curNode := rfl

@[simp] theorem modFunc_dev (s : State) (n : Nat) (f : Func → Func) : (s.modFunc n f).dev = s.dev := rfl
@[simp] theorem modFunc_links (s : State) (n : Nat) (f : Func → Func) : (s.modFunc n f).links = s.links := rfl
@[simp] theorem modFunc_dierst (s : State) (n : Nat) (f : Func → Func) : (s.modFunc n f).dierst = s.dierst := rfl
@[simp] theorem modFunc_queues (s : State) (n : Nat) (f : Func → Func) : (s.modFunc n f).queues = s.queues := rfl
@[simp] theorem modFunc_peers (s : State) (n : Nat) (f : Func → Func) : (s.modFunc n f).peers = s.peers := rfl
@[simp] theorem modFunc_fw (s : State) (n : Nat) (f : Func → Func) : (s.modFunc n f).fw = s.fw := rfl
@[simp] theorem modFunc_ctxs (s : State) (n : Nat) (f : Func → Func) : (s.modFunc n f).ctxs = s.ctxs := rfl
@[simp] theorem modFunc_kernels (s : State) (n : Nat) (f : Func → Func) : (s.modFunc n f).kernels = s.kernels := rfl
@[simp] theorem modFunc_tiles (s : State) (n : Nat) (f : Func → Func) : (s.modFunc n f).tiles = s.tiles := rfl
@[simp] theorem modFunc_threads (s : State) (n : Nat) (f : Func → Func) : (s.modFunc n f).threads = s.threads := rfl
@[simp] theorem modFunc_acts (s : State) (n : Nat) (f : Func → Func) : (s.modFunc n f).acts = s.acts := rfl
@[simp] theorem modFunc_insts (s : State) (n : Nat) (f : Func → Func) : (s.modFunc n f).insts = s.insts := rfl
@[simp] theorem modFunc_transit (s : State) (n : Nat) (f : Func → Func) : (s.modFunc n f).transit = s.transit := rfl
@[simp] theorem modFunc_tasks (s : State) (n : Nat) (f : Func → Func) : (s.modFunc n f).tasks = s.tasks := rfl
@[simp] theorem modFunc_colls (s : State) (n : Nat) (f : Func → Func) : (s.modFunc n f).colls = s.colls := rfl
@[simp] theorem modFunc_mem (s : State) (n : Nat) (f : Func → Func) : (s.modFunc n f).mem = s.mem := rfl
@[simp] theorem modFunc_poison (s : State) (n : Nat) (f : Func → Func) : (s.modFunc n f).poison = s.poison := rfl
@[simp] theorem modFunc_hbmCorr (s : State) (n : Nat) (f : Func → Func) : (s.modFunc n f).hbmCorr = s.hbmCorr := rfl
@[simp] theorem modFunc_hbmUnc (s : State) (n : Nat) (f : Func → Func) : (s.modFunc n f).hbmUnc = s.hbmUnc := rfl
@[simp] theorem modFunc_l2 (s : State) (n : Nat) (f : Func → Func) : (s.modFunc n f).l2 = s.l2 := rfl
@[simp] theorem modFunc_regions (s : State) (n : Nat) (f : Func → Func) : (s.modFunc n f).regions = s.regions := rfl
@[simp] theorem modFunc_softBy (s : State) (n : Nat) (f : Func → Func) : (s.modFunc n f).softBy = s.softBy := rfl
@[simp] theorem modFunc_excl (s : State) (n : Nat) (f : Func → Func) : (s.modFunc n f).excl = s.excl := rfl
@[simp] theorem modFunc_mapped (s : State) (n : Nat) (f : Func → Func) : (s.modFunc n f).mapped = s.mapped := rfl
@[simp] theorem modFunc_faces (s : State) (n : Nat) (f : Func → Func) : (s.modFunc n f).faces = s.faces := rfl
@[simp] theorem modFunc_owned (s : State) (n : Nat) (f : Func → Func) : (s.modFunc n f).owned = s.owned := rfl
@[simp] theorem modFunc_grants (s : State) (n : Nat) (f : Func → Func) : (s.modFunc n f).grants = s.grants := rfl
@[simp] theorem modFunc_ownReqs (s : State) (n : Nat) (f : Func → Func) : (s.modFunc n f).ownReqs = s.ownReqs := rfl
@[simp] theorem modFunc_ownLost (s : State) (n : Nat) (f : Func → Func) : (s.modFunc n f).ownLost = s.ownLost := rfl
@[simp] theorem modFunc_carried (s : State) (n : Nat) (f : Func → Func) : (s.modFunc n f).carried = s.carried := rfl
@[simp] theorem modFunc_peerReqs (s : State) (n : Nat) (f : Func → Func) : (s.modFunc n f).peerReqs = s.peerReqs := rfl
@[simp] theorem modFunc_hubWait (s : State) (n : Nat) (f : Func → Func) : (s.modFunc n f).hubWait = s.hubWait := rfl
@[simp] theorem modFunc_posted (s : State) (n : Nat) (f : Func → Func) : (s.modFunc n f).posted = s.posted := rfl
@[simp] theorem modFunc_walks (s : State) (n : Nat) (f : Func → Func) : (s.modFunc n f).walks = s.walks := rfl
@[simp] theorem modFunc_walkCache (s : State) (n : Nat) (f : Func → Func) : (s.modFunc n f).walkCache = s.walkCache := rfl
@[simp] theorem modFunc_nextId (s : State) (n : Nat) (f : Func → Func) : (s.modFunc n f).nextId = s.nextId := rfl
@[simp] theorem modFunc_tick (s : State) (n : Nat) (f : Func → Func) : (s.modFunc n f).tick = s.tick := rfl
@[simp] theorem modFunc_agenda (s : State) (n : Nat) (f : Func → Func) : (s.modFunc n f).agenda = s.agenda := rfl
@[simp] theorem modFunc_mover (s : State) (n : Nat) (f : Func → Func) : (s.modFunc n f).mover = s.mover := rfl
@[simp] theorem modFunc_curThread (s : State) (n : Nat) (f : Func → Func) : (s.modFunc n f).curThread = s.curThread := rfl
@[simp] theorem modFunc_curNode (s : State) (n : Nat) (f : Func → Func) : (s.modFunc n f).curNode = s.curNode := rfl

@[simp] theorem modLink_dev (s : State) (n : Nat) (f : Link → Link) : (s.modLink n f).dev = s.dev := rfl
@[simp] theorem modLink_dierst (s : State) (n : Nat) (f : Link → Link) : (s.modLink n f).dierst = s.dierst := rfl
@[simp] theorem modLink_queues (s : State) (n : Nat) (f : Link → Link) : (s.modLink n f).queues = s.queues := rfl
@[simp] theorem modLink_funcs (s : State) (n : Nat) (f : Link → Link) : (s.modLink n f).funcs = s.funcs := rfl
@[simp] theorem modLink_peers (s : State) (n : Nat) (f : Link → Link) : (s.modLink n f).peers = s.peers := rfl
@[simp] theorem modLink_fw (s : State) (n : Nat) (f : Link → Link) : (s.modLink n f).fw = s.fw := rfl
@[simp] theorem modLink_ctxs (s : State) (n : Nat) (f : Link → Link) : (s.modLink n f).ctxs = s.ctxs := rfl
@[simp] theorem modLink_kernels (s : State) (n : Nat) (f : Link → Link) : (s.modLink n f).kernels = s.kernels := rfl
@[simp] theorem modLink_tiles (s : State) (n : Nat) (f : Link → Link) : (s.modLink n f).tiles = s.tiles := rfl
@[simp] theorem modLink_threads (s : State) (n : Nat) (f : Link → Link) : (s.modLink n f).threads = s.threads := rfl
@[simp] theorem modLink_acts (s : State) (n : Nat) (f : Link → Link) : (s.modLink n f).acts = s.acts := rfl
@[simp] theorem modLink_insts (s : State) (n : Nat) (f : Link → Link) : (s.modLink n f).insts = s.insts := rfl
@[simp] theorem modLink_transit (s : State) (n : Nat) (f : Link → Link) : (s.modLink n f).transit = s.transit := rfl
@[simp] theorem modLink_tasks (s : State) (n : Nat) (f : Link → Link) : (s.modLink n f).tasks = s.tasks := rfl
@[simp] theorem modLink_colls (s : State) (n : Nat) (f : Link → Link) : (s.modLink n f).colls = s.colls := rfl
@[simp] theorem modLink_mem (s : State) (n : Nat) (f : Link → Link) : (s.modLink n f).mem = s.mem := rfl
@[simp] theorem modLink_poison (s : State) (n : Nat) (f : Link → Link) : (s.modLink n f).poison = s.poison := rfl
@[simp] theorem modLink_hbmCorr (s : State) (n : Nat) (f : Link → Link) : (s.modLink n f).hbmCorr = s.hbmCorr := rfl
@[simp] theorem modLink_hbmUnc (s : State) (n : Nat) (f : Link → Link) : (s.modLink n f).hbmUnc = s.hbmUnc := rfl
@[simp] theorem modLink_l2 (s : State) (n : Nat) (f : Link → Link) : (s.modLink n f).l2 = s.l2 := rfl
@[simp] theorem modLink_regions (s : State) (n : Nat) (f : Link → Link) : (s.modLink n f).regions = s.regions := rfl
@[simp] theorem modLink_softBy (s : State) (n : Nat) (f : Link → Link) : (s.modLink n f).softBy = s.softBy := rfl
@[simp] theorem modLink_excl (s : State) (n : Nat) (f : Link → Link) : (s.modLink n f).excl = s.excl := rfl
@[simp] theorem modLink_mapped (s : State) (n : Nat) (f : Link → Link) : (s.modLink n f).mapped = s.mapped := rfl
@[simp] theorem modLink_faces (s : State) (n : Nat) (f : Link → Link) : (s.modLink n f).faces = s.faces := rfl
@[simp] theorem modLink_owned (s : State) (n : Nat) (f : Link → Link) : (s.modLink n f).owned = s.owned := rfl
@[simp] theorem modLink_grants (s : State) (n : Nat) (f : Link → Link) : (s.modLink n f).grants = s.grants := rfl
@[simp] theorem modLink_ownReqs (s : State) (n : Nat) (f : Link → Link) : (s.modLink n f).ownReqs = s.ownReqs := rfl
@[simp] theorem modLink_ownLost (s : State) (n : Nat) (f : Link → Link) : (s.modLink n f).ownLost = s.ownLost := rfl
@[simp] theorem modLink_carried (s : State) (n : Nat) (f : Link → Link) : (s.modLink n f).carried = s.carried := rfl
@[simp] theorem modLink_peerReqs (s : State) (n : Nat) (f : Link → Link) : (s.modLink n f).peerReqs = s.peerReqs := rfl
@[simp] theorem modLink_hubWait (s : State) (n : Nat) (f : Link → Link) : (s.modLink n f).hubWait = s.hubWait := rfl
@[simp] theorem modLink_posted (s : State) (n : Nat) (f : Link → Link) : (s.modLink n f).posted = s.posted := rfl
@[simp] theorem modLink_walks (s : State) (n : Nat) (f : Link → Link) : (s.modLink n f).walks = s.walks := rfl
@[simp] theorem modLink_walkCache (s : State) (n : Nat) (f : Link → Link) : (s.modLink n f).walkCache = s.walkCache := rfl
@[simp] theorem modLink_nextId (s : State) (n : Nat) (f : Link → Link) : (s.modLink n f).nextId = s.nextId := rfl
@[simp] theorem modLink_tick (s : State) (n : Nat) (f : Link → Link) : (s.modLink n f).tick = s.tick := rfl
@[simp] theorem modLink_agenda (s : State) (n : Nat) (f : Link → Link) : (s.modLink n f).agenda = s.agenda := rfl
@[simp] theorem modLink_mover (s : State) (n : Nat) (f : Link → Link) : (s.modLink n f).mover = s.mover := rfl
@[simp] theorem modLink_curThread (s : State) (n : Nat) (f : Link → Link) : (s.modLink n f).curThread = s.curThread := rfl
@[simp] theorem modLink_curNode (s : State) (n : Nat) (f : Link → Link) : (s.modLink n f).curNode = s.curNode := rfl

@[simp] theorem modKern_dev (s : State) (n : Nat) (g : Kernel → Kernel) : (s.modKern n g).dev = s.dev := by unfold modKern; split <;> rfl
@[simp] theorem modKern_links (s : State) (n : Nat) (g : Kernel → Kernel) : (s.modKern n g).links = s.links := by unfold modKern; split <;> rfl
@[simp] theorem modKern_dierst (s : State) (n : Nat) (g : Kernel → Kernel) : (s.modKern n g).dierst = s.dierst := by unfold modKern; split <;> rfl
@[simp] theorem modKern_queues (s : State) (n : Nat) (g : Kernel → Kernel) : (s.modKern n g).queues = s.queues := by unfold modKern; split <;> rfl
@[simp] theorem modKern_funcs (s : State) (n : Nat) (g : Kernel → Kernel) : (s.modKern n g).funcs = s.funcs := by unfold modKern; split <;> rfl
@[simp] theorem modKern_peers (s : State) (n : Nat) (g : Kernel → Kernel) : (s.modKern n g).peers = s.peers := by unfold modKern; split <;> rfl
@[simp] theorem modKern_fw (s : State) (n : Nat) (g : Kernel → Kernel) : (s.modKern n g).fw = s.fw := by unfold modKern; split <;> rfl
@[simp] theorem modKern_ctxs (s : State) (n : Nat) (g : Kernel → Kernel) : (s.modKern n g).ctxs = s.ctxs := by unfold modKern; split <;> rfl
@[simp] theorem modKern_tiles (s : State) (n : Nat) (g : Kernel → Kernel) : (s.modKern n g).tiles = s.tiles := by unfold modKern; split <;> rfl
@[simp] theorem modKern_threads (s : State) (n : Nat) (g : Kernel → Kernel) : (s.modKern n g).threads = s.threads := by unfold modKern; split <;> rfl
@[simp] theorem modKern_acts (s : State) (n : Nat) (g : Kernel → Kernel) : (s.modKern n g).acts = s.acts := by unfold modKern; split <;> rfl
@[simp] theorem modKern_insts (s : State) (n : Nat) (g : Kernel → Kernel) : (s.modKern n g).insts = s.insts := by unfold modKern; split <;> rfl
@[simp] theorem modKern_transit (s : State) (n : Nat) (g : Kernel → Kernel) : (s.modKern n g).transit = s.transit := by unfold modKern; split <;> rfl
@[simp] theorem modKern_tasks (s : State) (n : Nat) (g : Kernel → Kernel) : (s.modKern n g).tasks = s.tasks := by unfold modKern; split <;> rfl
@[simp] theorem modKern_colls (s : State) (n : Nat) (g : Kernel → Kernel) : (s.modKern n g).colls = s.colls := by unfold modKern; split <;> rfl
@[simp] theorem modKern_mem (s : State) (n : Nat) (g : Kernel → Kernel) : (s.modKern n g).mem = s.mem := by unfold modKern; split <;> rfl
@[simp] theorem modKern_poison (s : State) (n : Nat) (g : Kernel → Kernel) : (s.modKern n g).poison = s.poison := by unfold modKern; split <;> rfl
@[simp] theorem modKern_hbmCorr (s : State) (n : Nat) (g : Kernel → Kernel) : (s.modKern n g).hbmCorr = s.hbmCorr := by unfold modKern; split <;> rfl
@[simp] theorem modKern_hbmUnc (s : State) (n : Nat) (g : Kernel → Kernel) : (s.modKern n g).hbmUnc = s.hbmUnc := by unfold modKern; split <;> rfl
@[simp] theorem modKern_l2 (s : State) (n : Nat) (g : Kernel → Kernel) : (s.modKern n g).l2 = s.l2 := by unfold modKern; split <;> rfl
@[simp] theorem modKern_regions (s : State) (n : Nat) (g : Kernel → Kernel) : (s.modKern n g).regions = s.regions := by unfold modKern; split <;> rfl
@[simp] theorem modKern_softBy (s : State) (n : Nat) (g : Kernel → Kernel) : (s.modKern n g).softBy = s.softBy := by unfold modKern; split <;> rfl
@[simp] theorem modKern_excl (s : State) (n : Nat) (g : Kernel → Kernel) : (s.modKern n g).excl = s.excl := by unfold modKern; split <;> rfl
@[simp] theorem modKern_mapped (s : State) (n : Nat) (g : Kernel → Kernel) : (s.modKern n g).mapped = s.mapped := by unfold modKern; split <;> rfl
@[simp] theorem modKern_faces (s : State) (n : Nat) (g : Kernel → Kernel) : (s.modKern n g).faces = s.faces := by unfold modKern; split <;> rfl
@[simp] theorem modKern_owned (s : State) (n : Nat) (g : Kernel → Kernel) : (s.modKern n g).owned = s.owned := by unfold modKern; split <;> rfl
@[simp] theorem modKern_grants (s : State) (n : Nat) (g : Kernel → Kernel) : (s.modKern n g).grants = s.grants := by unfold modKern; split <;> rfl
@[simp] theorem modKern_ownReqs (s : State) (n : Nat) (g : Kernel → Kernel) : (s.modKern n g).ownReqs = s.ownReqs := by unfold modKern; split <;> rfl
@[simp] theorem modKern_ownLost (s : State) (n : Nat) (g : Kernel → Kernel) : (s.modKern n g).ownLost = s.ownLost := by unfold modKern; split <;> rfl
@[simp] theorem modKern_carried (s : State) (n : Nat) (g : Kernel → Kernel) : (s.modKern n g).carried = s.carried := by unfold modKern; split <;> rfl
@[simp] theorem modKern_peerReqs (s : State) (n : Nat) (g : Kernel → Kernel) : (s.modKern n g).peerReqs = s.peerReqs := by unfold modKern; split <;> rfl
@[simp] theorem modKern_hubWait (s : State) (n : Nat) (g : Kernel → Kernel) : (s.modKern n g).hubWait = s.hubWait := by unfold modKern; split <;> rfl
@[simp] theorem modKern_posted (s : State) (n : Nat) (g : Kernel → Kernel) : (s.modKern n g).posted = s.posted := by unfold modKern; split <;> rfl
@[simp] theorem modKern_walks (s : State) (n : Nat) (g : Kernel → Kernel) : (s.modKern n g).walks = s.walks := by unfold modKern; split <;> rfl
@[simp] theorem modKern_walkCache (s : State) (n : Nat) (g : Kernel → Kernel) : (s.modKern n g).walkCache = s.walkCache := by unfold modKern; split <;> rfl
@[simp] theorem modKern_nextId (s : State) (n : Nat) (g : Kernel → Kernel) : (s.modKern n g).nextId = s.nextId := by unfold modKern; split <;> rfl
@[simp] theorem modKern_tick (s : State) (n : Nat) (g : Kernel → Kernel) : (s.modKern n g).tick = s.tick := by unfold modKern; split <;> rfl
@[simp] theorem modKern_agenda (s : State) (n : Nat) (g : Kernel → Kernel) : (s.modKern n g).agenda = s.agenda := by unfold modKern; split <;> rfl
@[simp] theorem modKern_mover (s : State) (n : Nat) (g : Kernel → Kernel) : (s.modKern n g).mover = s.mover := by unfold modKern; split <;> rfl
@[simp] theorem modKern_curThread (s : State) (n : Nat) (g : Kernel → Kernel) : (s.modKern n g).curThread = s.curThread := by unfold modKern; split <;> rfl
@[simp] theorem modKern_curNode (s : State) (n : Nat) (g : Kernel → Kernel) : (s.modKern n g).curNode = s.curNode := by unfold modKern; split <;> rfl

@[simp] theorem modAct_dev (s : State) (n : Nat) (g : Act → Act) : (s.modAct n g).dev = s.dev := by unfold modAct; split <;> rfl
@[simp] theorem modAct_links (s : State) (n : Nat) (g : Act → Act) : (s.modAct n g).links = s.links := by unfold modAct; split <;> rfl
@[simp] theorem modAct_dierst (s : State) (n : Nat) (g : Act → Act) : (s.modAct n g).dierst = s.dierst := by unfold modAct; split <;> rfl
@[simp] theorem modAct_queues (s : State) (n : Nat) (g : Act → Act) : (s.modAct n g).queues = s.queues := by unfold modAct; split <;> rfl
@[simp] theorem modAct_funcs (s : State) (n : Nat) (g : Act → Act) : (s.modAct n g).funcs = s.funcs := by unfold modAct; split <;> rfl
@[simp] theorem modAct_peers (s : State) (n : Nat) (g : Act → Act) : (s.modAct n g).peers = s.peers := by unfold modAct; split <;> rfl
@[simp] theorem modAct_fw (s : State) (n : Nat) (g : Act → Act) : (s.modAct n g).fw = s.fw := by unfold modAct; split <;> rfl
@[simp] theorem modAct_ctxs (s : State) (n : Nat) (g : Act → Act) : (s.modAct n g).ctxs = s.ctxs := by unfold modAct; split <;> rfl
@[simp] theorem modAct_kernels (s : State) (n : Nat) (g : Act → Act) : (s.modAct n g).kernels = s.kernels := by unfold modAct; split <;> rfl
@[simp] theorem modAct_tiles (s : State) (n : Nat) (g : Act → Act) : (s.modAct n g).tiles = s.tiles := by unfold modAct; split <;> rfl
@[simp] theorem modAct_threads (s : State) (n : Nat) (g : Act → Act) : (s.modAct n g).threads = s.threads := by unfold modAct; split <;> rfl
@[simp] theorem modAct_insts (s : State) (n : Nat) (g : Act → Act) : (s.modAct n g).insts = s.insts := by unfold modAct; split <;> rfl
@[simp] theorem modAct_transit (s : State) (n : Nat) (g : Act → Act) : (s.modAct n g).transit = s.transit := by unfold modAct; split <;> rfl
@[simp] theorem modAct_tasks (s : State) (n : Nat) (g : Act → Act) : (s.modAct n g).tasks = s.tasks := by unfold modAct; split <;> rfl
@[simp] theorem modAct_colls (s : State) (n : Nat) (g : Act → Act) : (s.modAct n g).colls = s.colls := by unfold modAct; split <;> rfl
@[simp] theorem modAct_mem (s : State) (n : Nat) (g : Act → Act) : (s.modAct n g).mem = s.mem := by unfold modAct; split <;> rfl
@[simp] theorem modAct_poison (s : State) (n : Nat) (g : Act → Act) : (s.modAct n g).poison = s.poison := by unfold modAct; split <;> rfl
@[simp] theorem modAct_hbmCorr (s : State) (n : Nat) (g : Act → Act) : (s.modAct n g).hbmCorr = s.hbmCorr := by unfold modAct; split <;> rfl
@[simp] theorem modAct_hbmUnc (s : State) (n : Nat) (g : Act → Act) : (s.modAct n g).hbmUnc = s.hbmUnc := by unfold modAct; split <;> rfl
@[simp] theorem modAct_l2 (s : State) (n : Nat) (g : Act → Act) : (s.modAct n g).l2 = s.l2 := by unfold modAct; split <;> rfl
@[simp] theorem modAct_regions (s : State) (n : Nat) (g : Act → Act) : (s.modAct n g).regions = s.regions := by unfold modAct; split <;> rfl
@[simp] theorem modAct_softBy (s : State) (n : Nat) (g : Act → Act) : (s.modAct n g).softBy = s.softBy := by unfold modAct; split <;> rfl
@[simp] theorem modAct_excl (s : State) (n : Nat) (g : Act → Act) : (s.modAct n g).excl = s.excl := by unfold modAct; split <;> rfl
@[simp] theorem modAct_mapped (s : State) (n : Nat) (g : Act → Act) : (s.modAct n g).mapped = s.mapped := by unfold modAct; split <;> rfl
@[simp] theorem modAct_faces (s : State) (n : Nat) (g : Act → Act) : (s.modAct n g).faces = s.faces := by unfold modAct; split <;> rfl
@[simp] theorem modAct_owned (s : State) (n : Nat) (g : Act → Act) : (s.modAct n g).owned = s.owned := by unfold modAct; split <;> rfl
@[simp] theorem modAct_grants (s : State) (n : Nat) (g : Act → Act) : (s.modAct n g).grants = s.grants := by unfold modAct; split <;> rfl
@[simp] theorem modAct_ownReqs (s : State) (n : Nat) (g : Act → Act) : (s.modAct n g).ownReqs = s.ownReqs := by unfold modAct; split <;> rfl
@[simp] theorem modAct_ownLost (s : State) (n : Nat) (g : Act → Act) : (s.modAct n g).ownLost = s.ownLost := by unfold modAct; split <;> rfl
@[simp] theorem modAct_carried (s : State) (n : Nat) (g : Act → Act) : (s.modAct n g).carried = s.carried := by unfold modAct; split <;> rfl
@[simp] theorem modAct_peerReqs (s : State) (n : Nat) (g : Act → Act) : (s.modAct n g).peerReqs = s.peerReqs := by unfold modAct; split <;> rfl
@[simp] theorem modAct_hubWait (s : State) (n : Nat) (g : Act → Act) : (s.modAct n g).hubWait = s.hubWait := by unfold modAct; split <;> rfl
@[simp] theorem modAct_posted (s : State) (n : Nat) (g : Act → Act) : (s.modAct n g).posted = s.posted := by unfold modAct; split <;> rfl
@[simp] theorem modAct_walks (s : State) (n : Nat) (g : Act → Act) : (s.modAct n g).walks = s.walks := by unfold modAct; split <;> rfl
@[simp] theorem modAct_walkCache (s : State) (n : Nat) (g : Act → Act) : (s.modAct n g).walkCache = s.walkCache := by unfold modAct; split <;> rfl
@[simp] theorem modAct_nextId (s : State) (n : Nat) (g : Act → Act) : (s.modAct n g).nextId = s.nextId := by unfold modAct; split <;> rfl
@[simp] theorem modAct_tick (s : State) (n : Nat) (g : Act → Act) : (s.modAct n g).tick = s.tick := by unfold modAct; split <;> rfl
@[simp] theorem modAct_agenda (s : State) (n : Nat) (g : Act → Act) : (s.modAct n g).agenda = s.agenda := by unfold modAct; split <;> rfl
@[simp] theorem modAct_mover (s : State) (n : Nat) (g : Act → Act) : (s.modAct n g).mover = s.mover := by unfold modAct; split <;> rfl
@[simp] theorem modAct_curThread (s : State) (n : Nat) (g : Act → Act) : (s.modAct n g).curThread = s.curThread := by unfold modAct; split <;> rfl
@[simp] theorem modAct_curNode (s : State) (n : Nat) (g : Act → Act) : (s.modAct n g).curNode = s.curNode := by unfold modAct; split <;> rfl

@[simp] theorem modInst_dev (s : State) (n : Nat) (g : Inst → Inst) : (s.modInst n g).dev = s.dev := by unfold modInst; split <;> rfl
@[simp] theorem modInst_links (s : State) (n : Nat) (g : Inst → Inst) : (s.modInst n g).links = s.links := by unfold modInst; split <;> rfl
@[simp] theorem modInst_dierst (s : State) (n : Nat) (g : Inst → Inst) : (s.modInst n g).dierst = s.dierst := by unfold modInst; split <;> rfl
@[simp] theorem modInst_queues (s : State) (n : Nat) (g : Inst → Inst) : (s.modInst n g).queues = s.queues := by unfold modInst; split <;> rfl
@[simp] theorem modInst_funcs (s : State) (n : Nat) (g : Inst → Inst) : (s.modInst n g).funcs = s.funcs := by unfold modInst; split <;> rfl
@[simp] theorem modInst_peers (s : State) (n : Nat) (g : Inst → Inst) : (s.modInst n g).peers = s.peers := by unfold modInst; split <;> rfl
@[simp] theorem modInst_fw (s : State) (n : Nat) (g : Inst → Inst) : (s.modInst n g).fw = s.fw := by unfold modInst; split <;> rfl
@[simp] theorem modInst_ctxs (s : State) (n : Nat) (g : Inst → Inst) : (s.modInst n g).ctxs = s.ctxs := by unfold modInst; split <;> rfl
@[simp] theorem modInst_kernels (s : State) (n : Nat) (g : Inst → Inst) : (s.modInst n g).kernels = s.kernels := by unfold modInst; split <;> rfl
@[simp] theorem modInst_tiles (s : State) (n : Nat) (g : Inst → Inst) : (s.modInst n g).tiles = s.tiles := by unfold modInst; split <;> rfl
@[simp] theorem modInst_threads (s : State) (n : Nat) (g : Inst → Inst) : (s.modInst n g).threads = s.threads := by unfold modInst; split <;> rfl
@[simp] theorem modInst_acts (s : State) (n : Nat) (g : Inst → Inst) : (s.modInst n g).acts = s.acts := by unfold modInst; split <;> rfl
@[simp] theorem modInst_transit (s : State) (n : Nat) (g : Inst → Inst) : (s.modInst n g).transit = s.transit := by unfold modInst; split <;> rfl
@[simp] theorem modInst_tasks (s : State) (n : Nat) (g : Inst → Inst) : (s.modInst n g).tasks = s.tasks := by unfold modInst; split <;> rfl
@[simp] theorem modInst_colls (s : State) (n : Nat) (g : Inst → Inst) : (s.modInst n g).colls = s.colls := by unfold modInst; split <;> rfl
@[simp] theorem modInst_mem (s : State) (n : Nat) (g : Inst → Inst) : (s.modInst n g).mem = s.mem := by unfold modInst; split <;> rfl
@[simp] theorem modInst_poison (s : State) (n : Nat) (g : Inst → Inst) : (s.modInst n g).poison = s.poison := by unfold modInst; split <;> rfl
@[simp] theorem modInst_hbmCorr (s : State) (n : Nat) (g : Inst → Inst) : (s.modInst n g).hbmCorr = s.hbmCorr := by unfold modInst; split <;> rfl
@[simp] theorem modInst_hbmUnc (s : State) (n : Nat) (g : Inst → Inst) : (s.modInst n g).hbmUnc = s.hbmUnc := by unfold modInst; split <;> rfl
@[simp] theorem modInst_l2 (s : State) (n : Nat) (g : Inst → Inst) : (s.modInst n g).l2 = s.l2 := by unfold modInst; split <;> rfl
@[simp] theorem modInst_regions (s : State) (n : Nat) (g : Inst → Inst) : (s.modInst n g).regions = s.regions := by unfold modInst; split <;> rfl
@[simp] theorem modInst_softBy (s : State) (n : Nat) (g : Inst → Inst) : (s.modInst n g).softBy = s.softBy := by unfold modInst; split <;> rfl
@[simp] theorem modInst_excl (s : State) (n : Nat) (g : Inst → Inst) : (s.modInst n g).excl = s.excl := by unfold modInst; split <;> rfl
@[simp] theorem modInst_mapped (s : State) (n : Nat) (g : Inst → Inst) : (s.modInst n g).mapped = s.mapped := by unfold modInst; split <;> rfl
@[simp] theorem modInst_faces (s : State) (n : Nat) (g : Inst → Inst) : (s.modInst n g).faces = s.faces := by unfold modInst; split <;> rfl
@[simp] theorem modInst_owned (s : State) (n : Nat) (g : Inst → Inst) : (s.modInst n g).owned = s.owned := by unfold modInst; split <;> rfl
@[simp] theorem modInst_grants (s : State) (n : Nat) (g : Inst → Inst) : (s.modInst n g).grants = s.grants := by unfold modInst; split <;> rfl
@[simp] theorem modInst_ownReqs (s : State) (n : Nat) (g : Inst → Inst) : (s.modInst n g).ownReqs = s.ownReqs := by unfold modInst; split <;> rfl
@[simp] theorem modInst_ownLost (s : State) (n : Nat) (g : Inst → Inst) : (s.modInst n g).ownLost = s.ownLost := by unfold modInst; split <;> rfl
@[simp] theorem modInst_carried (s : State) (n : Nat) (g : Inst → Inst) : (s.modInst n g).carried = s.carried := by unfold modInst; split <;> rfl
@[simp] theorem modInst_peerReqs (s : State) (n : Nat) (g : Inst → Inst) : (s.modInst n g).peerReqs = s.peerReqs := by unfold modInst; split <;> rfl
@[simp] theorem modInst_hubWait (s : State) (n : Nat) (g : Inst → Inst) : (s.modInst n g).hubWait = s.hubWait := by unfold modInst; split <;> rfl
@[simp] theorem modInst_posted (s : State) (n : Nat) (g : Inst → Inst) : (s.modInst n g).posted = s.posted := by unfold modInst; split <;> rfl
@[simp] theorem modInst_walks (s : State) (n : Nat) (g : Inst → Inst) : (s.modInst n g).walks = s.walks := by unfold modInst; split <;> rfl
@[simp] theorem modInst_walkCache (s : State) (n : Nat) (g : Inst → Inst) : (s.modInst n g).walkCache = s.walkCache := by unfold modInst; split <;> rfl
@[simp] theorem modInst_nextId (s : State) (n : Nat) (g : Inst → Inst) : (s.modInst n g).nextId = s.nextId := by unfold modInst; split <;> rfl
@[simp] theorem modInst_tick (s : State) (n : Nat) (g : Inst → Inst) : (s.modInst n g).tick = s.tick := by unfold modInst; split <;> rfl
@[simp] theorem modInst_agenda (s : State) (n : Nat) (g : Inst → Inst) : (s.modInst n g).agenda = s.agenda := by unfold modInst; split <;> rfl
@[simp] theorem modInst_mover (s : State) (n : Nat) (g : Inst → Inst) : (s.modInst n g).mover = s.mover := by unfold modInst; split <;> rfl
@[simp] theorem modInst_curThread (s : State) (n : Nat) (g : Inst → Inst) : (s.modInst n g).curThread = s.curThread := by unfold modInst; split <;> rfl
@[simp] theorem modInst_curNode (s : State) (n : Nat) (g : Inst → Inst) : (s.modInst n g).curNode = s.curNode := by unfold modInst; split <;> rfl

@[simp] theorem modErrand_dev (s : State) (n j : Nat) (g : Errand → Errand) : (s.modErrand n j g).dev = s.dev := by unfold modErrand; split <;> rfl
@[simp] theorem modErrand_links (s : State) (n j : Nat) (g : Errand → Errand) : (s.modErrand n j g).links = s.links := by unfold modErrand; split <;> rfl
@[simp] theorem modErrand_dierst (s : State) (n j : Nat) (g : Errand → Errand) : (s.modErrand n j g).dierst = s.dierst := by unfold modErrand; split <;> rfl
@[simp] theorem modErrand_queues (s : State) (n j : Nat) (g : Errand → Errand) : (s.modErrand n j g).queues = s.queues := by unfold modErrand; split <;> rfl
@[simp] theorem modErrand_funcs (s : State) (n j : Nat) (g : Errand → Errand) : (s.modErrand n j g).funcs = s.funcs := by unfold modErrand; split <;> rfl
@[simp] theorem modErrand_peers (s : State) (n j : Nat) (g : Errand → Errand) : (s.modErrand n j g).peers = s.peers := by unfold modErrand; split <;> rfl
@[simp] theorem modErrand_fw (s : State) (n j : Nat) (g : Errand → Errand) : (s.modErrand n j g).fw = s.fw := by unfold modErrand; split <;> rfl
@[simp] theorem modErrand_ctxs (s : State) (n j : Nat) (g : Errand → Errand) : (s.modErrand n j g).ctxs = s.ctxs := by unfold modErrand; split <;> rfl
@[simp] theorem modErrand_kernels (s : State) (n j : Nat) (g : Errand → Errand) : (s.modErrand n j g).kernels = s.kernels := by unfold modErrand; split <;> rfl
@[simp] theorem modErrand_threads (s : State) (n j : Nat) (g : Errand → Errand) : (s.modErrand n j g).threads = s.threads := by unfold modErrand; split <;> rfl
@[simp] theorem modErrand_acts (s : State) (n j : Nat) (g : Errand → Errand) : (s.modErrand n j g).acts = s.acts := by unfold modErrand; split <;> rfl
@[simp] theorem modErrand_insts (s : State) (n j : Nat) (g : Errand → Errand) : (s.modErrand n j g).insts = s.insts := by unfold modErrand; split <;> rfl
@[simp] theorem modErrand_transit (s : State) (n j : Nat) (g : Errand → Errand) : (s.modErrand n j g).transit = s.transit := by unfold modErrand; split <;> rfl
@[simp] theorem modErrand_tasks (s : State) (n j : Nat) (g : Errand → Errand) : (s.modErrand n j g).tasks = s.tasks := by unfold modErrand; split <;> rfl
@[simp] theorem modErrand_colls (s : State) (n j : Nat) (g : Errand → Errand) : (s.modErrand n j g).colls = s.colls := by unfold modErrand; split <;> rfl
@[simp] theorem modErrand_mem (s : State) (n j : Nat) (g : Errand → Errand) : (s.modErrand n j g).mem = s.mem := by unfold modErrand; split <;> rfl
@[simp] theorem modErrand_poison (s : State) (n j : Nat) (g : Errand → Errand) : (s.modErrand n j g).poison = s.poison := by unfold modErrand; split <;> rfl
@[simp] theorem modErrand_hbmCorr (s : State) (n j : Nat) (g : Errand → Errand) : (s.modErrand n j g).hbmCorr = s.hbmCorr := by unfold modErrand; split <;> rfl
@[simp] theorem modErrand_hbmUnc (s : State) (n j : Nat) (g : Errand → Errand) : (s.modErrand n j g).hbmUnc = s.hbmUnc := by unfold modErrand; split <;> rfl
@[simp] theorem modErrand_l2 (s : State) (n j : Nat) (g : Errand → Errand) : (s.modErrand n j g).l2 = s.l2 := by unfold modErrand; split <;> rfl
@[simp] theorem modErrand_regions (s : State) (n j : Nat) (g : Errand → Errand) : (s.modErrand n j g).regions = s.regions := by unfold modErrand; split <;> rfl
@[simp] theorem modErrand_softBy (s : State) (n j : Nat) (g : Errand → Errand) : (s.modErrand n j g).softBy = s.softBy := by unfold modErrand; split <;> rfl
@[simp] theorem modErrand_excl (s : State) (n j : Nat) (g : Errand → Errand) : (s.modErrand n j g).excl = s.excl := by unfold modErrand; split <;> rfl
@[simp] theorem modErrand_mapped (s : State) (n j : Nat) (g : Errand → Errand) : (s.modErrand n j g).mapped = s.mapped := by unfold modErrand; split <;> rfl
@[simp] theorem modErrand_faces (s : State) (n j : Nat) (g : Errand → Errand) : (s.modErrand n j g).faces = s.faces := by unfold modErrand; split <;> rfl
@[simp] theorem modErrand_owned (s : State) (n j : Nat) (g : Errand → Errand) : (s.modErrand n j g).owned = s.owned := by unfold modErrand; split <;> rfl
@[simp] theorem modErrand_grants (s : State) (n j : Nat) (g : Errand → Errand) : (s.modErrand n j g).grants = s.grants := by unfold modErrand; split <;> rfl
@[simp] theorem modErrand_ownReqs (s : State) (n j : Nat) (g : Errand → Errand) : (s.modErrand n j g).ownReqs = s.ownReqs := by unfold modErrand; split <;> rfl
@[simp] theorem modErrand_ownLost (s : State) (n j : Nat) (g : Errand → Errand) : (s.modErrand n j g).ownLost = s.ownLost := by unfold modErrand; split <;> rfl
@[simp] theorem modErrand_carried (s : State) (n j : Nat) (g : Errand → Errand) : (s.modErrand n j g).carried = s.carried := by unfold modErrand; split <;> rfl
@[simp] theorem modErrand_peerReqs (s : State) (n j : Nat) (g : Errand → Errand) : (s.modErrand n j g).peerReqs = s.peerReqs := by unfold modErrand; split <;> rfl
@[simp] theorem modErrand_hubWait (s : State) (n j : Nat) (g : Errand → Errand) : (s.modErrand n j g).hubWait = s.hubWait := by unfold modErrand; split <;> rfl
@[simp] theorem modErrand_posted (s : State) (n j : Nat) (g : Errand → Errand) : (s.modErrand n j g).posted = s.posted := by unfold modErrand; split <;> rfl
@[simp] theorem modErrand_walks (s : State) (n j : Nat) (g : Errand → Errand) : (s.modErrand n j g).walks = s.walks := by unfold modErrand; split <;> rfl
@[simp] theorem modErrand_walkCache (s : State) (n j : Nat) (g : Errand → Errand) : (s.modErrand n j g).walkCache = s.walkCache := by unfold modErrand; split <;> rfl
@[simp] theorem modErrand_nextId (s : State) (n j : Nat) (g : Errand → Errand) : (s.modErrand n j g).nextId = s.nextId := by unfold modErrand; split <;> rfl
@[simp] theorem modErrand_tick (s : State) (n j : Nat) (g : Errand → Errand) : (s.modErrand n j g).tick = s.tick := by unfold modErrand; split <;> rfl
@[simp] theorem modErrand_agenda (s : State) (n j : Nat) (g : Errand → Errand) : (s.modErrand n j g).agenda = s.agenda := by unfold modErrand; split <;> rfl
@[simp] theorem modErrand_mover (s : State) (n j : Nat) (g : Errand → Errand) : (s.modErrand n j g).mover = s.mover := by unfold modErrand; split <;> rfl
@[simp] theorem modErrand_curThread (s : State) (n j : Nat) (g : Errand → Errand) : (s.modErrand n j g).curThread = s.curThread := by unfold modErrand; split <;> rfl
@[simp] theorem modErrand_curNode (s : State) (n j : Nat) (g : Errand → Errand) : (s.modErrand n j g).curNode = s.curNode := by unfold modErrand; split <;> rfl

@[simp] theorem thr_setThr (s : State) (k : Nat) (t : Thread) : (s.setThr k t).thr k = t := by simp [thr, setThr]
@[simp] theorem thr_modThr (s : State) (k : Nat) (f : Thread → Thread) : (s.modThr k f).thr k = f (s.thr k) := by simp [modThr]
theorem thr_setThr_ne (s : State) (k j : Nat) (t : Thread) (h : j ≠ k) : (s.setThr k t).thr j = s.thr j := Tbl.get_set_ne _ _ _ _ _ h
theorem thr_modThr_ne (s : State) (k j : Nat) (f : Thread → Thread) (h : j ≠ k) : (s.modThr k f).thr j = s.thr j := thr_setThr_ne _ _ _ _ h
@[simp] theorem setThr_setThr (s : State) (k : Nat) (t u : Thread) : (s.setThr k t).setThr k u = s.setThr k u := by simp [setThr]
@[simp] theorem setThr_modThr (s : State) (k : Nat) (t : Thread) (f : Thread → Thread) : (s.setThr k t).modThr k f = s.setThr k (f t) := by simp [modThr]
@[simp] theorem modThr_modThr (s : State) (k : Nat) (f g : Thread → Thread) : (s.modThr k f).modThr k g = s.modThr k fun t => g (f t) := by simp [modThr]
@[simp] theorem tile_setTile (s : State) (n : Nat) (t : Tile) : (s.setTile n t).tile n = t := by simp [tile, setTile]
@[simp] theorem tile_modTile (s : State) (n : Nat) (f : Tile → Tile) : (s.modTile n f).tile n = f (s.tile n) := by simp [modTile]
theorem tile_setTile_ne (s : State) (n j : Nat) (t : Tile) (h : j ≠ n) : (s.setTile n t).tile j = s.tile j := Tbl.get_set_ne _ _ _ _ _ h
theorem tile_modTile_ne (s : State) (n j : Nat) (f : Tile → Tile) (h : j ≠ n) : (s.modTile n f).tile j = s.tile j := tile_setTile_ne _ _ _ _ h
@[simp] theorem ctx_setCtx (s : State) (n : Nat) (c : Ctx) : (s.setCtx n c).ctx n = c := by simp [ctx, setCtx]
@[simp] theorem ctx_modCtx (s : State) (n : Nat) (f : Ctx → Ctx) : (s.modCtx n f).ctx n = f (s.ctx n) := by simp [modCtx]
theorem ctx_setCtx_ne (s : State) (n j : Nat) (c : Ctx) (h : j ≠ n) : (s.setCtx n c).ctx j = s.ctx j := Tbl.get_set_ne _ _ _ _ _ h
@[simp] theorem queue_setQueue (s : State) (n : Nat) (q : Queue) : (s.setQueue n q).queue n = q := by simp [queue, setQueue]
@[simp] theorem queue_modQueue (s : State) (n : Nat) (f : Queue → Queue) : (s.modQueue n f).queue n = f (s.queue n) := by simp [modQueue]
theorem queue_setQueue_ne (s : State) (n j : Nat) (q : Queue) (h : j ≠ n) : (s.setQueue n q).queue j = s.queue j := Tbl.get_set_ne _ _ _ _ _ h
@[simp] theorem func_modFunc (s : State) (n : Nat) (f : Func → Func) : (s.modFunc n f).func n = f (s.func n) := by simp [func, modFunc]
@[simp] theorem kern?_setKern (s : State) (n : Nat) (k : Kernel) : (s.setKern n k).kern? n = some k := Tbl.find?_set_self _ _ _
@[simp] theorem act?_setAct (s : State) (n : Nat) (a : Act) : (s.setAct n a).act? n = some a := Tbl.find?_set_self _ _ _
@[simp] theorem inst?_setInst (s : State) (n : Nat) (a : Inst) : (s.setInst n a).inst? n = some a := Tbl.find?_set_self _ _ _
theorem kern?_setKern_ne (s : State) (n j : Nat) (k : Kernel) (h : j ≠ n) : (s.setKern n k).kern? j = s.kern? j := Tbl.find?_set_ne _ _ _ _ h
theorem act?_setAct_ne (s : State) (n j : Nat) (a : Act) (h : j ≠ n) : (s.setAct n a).act? j = s.act? j := Tbl.find?_set_ne _ _ _ _ h
theorem inst?_setInst_ne (s : State) (n j : Nat) (a : Inst) (h : j ≠ n) : (s.setInst n a).inst? j = s.inst? j := Tbl.find?_set_ne _ _ _ _ h
theorem modInst_of (s : State) (n : Nat) (i : Inst) (f : Inst → Inst) (h : s.inst? n = some i) : s.modInst n f = s.setInst n (f i) := by simp [modInst, h]
theorem modAct_of (s : State) (n : Nat) (a : Act) (f : Act → Act) (h : s.act? n = some a) : s.modAct n f = s.setAct n (f a) := by simp [modAct, h]
theorem modKern_of (s : State) (n : Nat) (k : Kernel) (f : Kernel → Kernel) (h : s.kern? n = some k) : s.modKern n f = s.setKern n (f k) := by simp [modKern, h]
theorem modErrand_of (s : State) (n j : Nat) (e : Errand) (f : Errand → Errand) (h : s.errand? n j = some e) :
    s.modErrand n j f = s.setErrand n j (f e) := by simp [modErrand, h]
@[simp] theorem errand?_setErrand (s : State) (n j : Nat) (e : Errand) : (s.setErrand n j e).errand? n j = some e := by
  simp [errand?, setErrand, Tbl.find?_set_self]
end State

namespace Thread

@[simp] theorem xw_stat (t : Thread) (n : Nat) (v : Word) : (t.xw n v).stat = t.stat := by unfold xw; split <;> rfl
@[simp] theorem xw_role (t : Thread) (n : Nat) (v : Word) : (t.xw n v).role = t.role := by unfold xw; split <;> rfl
@[simp] theorem xw_ctx (t : Thread) (n : Nat) (v : Word) : (t.xw n v).ctx = t.ctx := by unfold xw; split <;> rfl
@[simp] theorem xw_kernel (t : Thread) (n : Nat) (v : Word) : (t.xw n v).kernel = t.kernel := by unfold xw; split <;> rfl
@[simp] theorem xw_allot (t : Thread) (n : Nat) (v : Word) : (t.xw n v).allot = t.allot := by unfold xw; split <;> rfl
@[simp] theorem xw_v (t : Thread) (n : Nat) (v : Word) : (t.xw n v).v = t.v := by unfold xw; split <;> rfl
@[simp] theorem xw_p (t : Thread) (n : Nat) (v : Word) : (t.xw n v).p = t.p := by unfold xw; split <;> rfl
@[simp] theorem xw_m (t : Thread) (n : Nat) (v : Word) : (t.xw n v).m = t.m := by unfold xw; split <;> rfl
@[simp] theorem xw_pc (t : Thread) (n : Nat) (v : Word) : (t.xw n v).pc = t.pc := by unfold xw; split <;> rfl
@[simp] theorem xw_tickets (t : Thread) (n : Nat) (v : Word) : (t.xw n v).tickets = t.tickets := by unfold xw; split <;> rfl
@[simp] theorem xw_hold (t : Thread) (n : Nat) (v : Word) : (t.xw n v).hold = t.hold := by unfold xw; split <;> rfl
@[simp] theorem xw_wait (t : Thread) (n : Nat) (v : Word) : (t.xw n v).wait = t.wait := by unfold xw; split <;> rfl
@[simp] theorem xw_hwait (t : Thread) (n : Nat) (v : Word) : (t.xw n v).hwait = t.hwait := by unfold xw; split <;> rfl
@[simp] theorem xw_fills (t : Thread) (n : Nat) (v : Word) : (t.xw n v).fills = t.fills := by unfold xw; split <;> rfl
@[simp] theorem xw_stores (t : Thread) (n : Nat) (v : Word) : (t.xw n v).stores = t.stores := by unfold xw; split <;> rfl
@[simp] theorem xw_deferred (t : Thread) (n : Nat) (v : Word) : (t.xw n v).deferred = t.deferred := by unfold xw; split <;> rfl
@[simp] theorem xw_owed (t : Thread) (n : Nat) (v : Word) : (t.xw n v).owed = t.owed := by unfold xw; split <;> rfl
@[simp] theorem xw_held (t : Thread) (n : Nat) (v : Word) : (t.xw n v).held = t.held := by unfold xw; split <;> rfl
@[simp] theorem xw_fstat (t : Thread) (n : Nat) (v : Word) : (t.xw n v).fstat = t.fstat := by unfold xw; split <;> rfl
@[simp] theorem xw_warn (t : Thread) (n : Nat) (v : Word) : (t.xw n v).warn = t.warn := by unfold xw; split <;> rfl
@[simp] theorem xw_cancelq (t : Thread) (n : Nat) (v : Word) : (t.xw n v).cancelq = t.cancelq := by unfold xw; split <;> rfl
@[simp] theorem xw_cmconf (t : Thread) (n : Nat) (v : Word) : (t.xw n v).cmconf = t.cmconf := by unfold xw; split <;> rfl
@[simp] theorem xw_issued (t : Thread) (n : Nat) (v : Word) : (t.xw n v).issued = t.issued := by unfold xw; split <;> rfl
@[simp] theorem xw_tcause (t : Thread) (n : Nat) (v : Word) : (t.xw n v).tcause = t.tcause := by unfold xw; split <;> rfl
@[simp] theorem xw_tepc (t : Thread) (n : Nat) (v : Word) : (t.xw n v).tepc = t.tepc := by unfold xw; split <;> rfl
@[simp] theorem xw_taddr (t : Thread) (n : Nat) (v : Word) : (t.xw n v).taddr = t.taddr := by unfold xw; split <;> rfl
@[simp] theorem xw_tinfo (t : Thread) (n : Nat) (v : Word) : (t.xw n v).tinfo = t.tinfo := by unfold xw; split <;> rfl
@[simp] theorem xw_tvec (t : Thread) (n : Nat) (v : Word) : (t.xw n v).tvec = t.tvec := by unfold xw; split <;> rfl
@[simp] theorem xw_tframe (t : Thread) (n : Nat) (v : Word) : (t.xw n v).tframe = t.tframe := by unfold xw; split <;> rfl
@[simp] theorem xw_telem (t : Thread) (n : Nat) (v : Word) : (t.xw n v).telem = t.telem := by unfold xw; split <;> rfl
@[simp] theorem xw_inh (t : Thread) (n : Nat) (v : Word) : (t.xw n v).inh = t.inh := by unfold xw; split <;> rfl
@[simp] theorem xw_tsave (t : Thread) (n : Nat) (v : Word) : (t.xw n v).tsave = t.tsave := by unfold xw; split <;> rfl
@[simp] theorem xw_stackBase (t : Thread) (n : Nat) (v : Word) : (t.xw n v).stackBase = t.stackBase := by unfold xw; split <;> rfl
@[simp] theorem xw_frame (t : Thread) (n : Nat) (v : Word) : (t.xw n v).frame = t.frame := by unfold xw; split <;> rfl
@[simp] theorem xw_xregs (t : Thread) (n : Nat) (v : Word) : (t.xw n v).xregs = t.xregs := by unfold xw; split <;> rfl
@[simp] theorem xw_vregs (t : Thread) (n : Nat) (v : Word) : (t.xw n v).vregs = t.vregs := by unfold xw; split <;> rfl
@[simp] theorem xw_traps (t : Thread) (n : Nat) (v : Word) : (t.xw n v).traps = t.traps := by unfold xw; split <;> rfl
@[simp] theorem xw_scratch (t : Thread) (n : Nat) (v : Word) : (t.xw n v).scratch = t.scratch := by unfold xw; split <;> rfl
@[simp] theorem xw_scratchAt (t : Thread) (n : Nat) (v : Word) : (t.xw n v).scratchAt = t.scratchAt := by unfold xw; split <;> rfl
@[simp] theorem xw_task (t : Thread) (n : Nat) (v : Word) : (t.xw n v).task = t.task := by unfold xw; split <;> rfl
@[simp] theorem xw_started (t : Thread) (n : Nat) (v : Word) : (t.xw n v).started = t.started := by unfold xw; split <;> rfl
@[simp] theorem xw_turned (t : Thread) (n : Nat) (v : Word) : (t.xw n v).turned = t.turned := by unfold xw; split <;> rfl
@[simp] theorem vw_stat (t : Thread) (n : Nat) (v : Vec) : (t.vw n v).stat = t.stat := rfl
@[simp] theorem vw_role (t : Thread) (n : Nat) (v : Vec) : (t.vw n v).role = t.role := rfl
@[simp] theorem vw_ctx (t : Thread) (n : Nat) (v : Vec) : (t.vw n v).ctx = t.ctx := rfl
@[simp] theorem vw_kernel (t : Thread) (n : Nat) (v : Vec) : (t.vw n v).kernel = t.kernel := rfl
@[simp] theorem vw_allot (t : Thread) (n : Nat) (v : Vec) : (t.vw n v).allot = t.allot := rfl
@[simp] theorem vw_x (t : Thread) (n : Nat) (v : Vec) : (t.vw n v).x = t.x := rfl
@[simp] theorem vw_p (t : Thread) (n : Nat) (v : Vec) : (t.vw n v).p = t.p := rfl
@[simp] theorem vw_m (t : Thread) (n : Nat) (v : Vec) : (t.vw n v).m = t.m := rfl
@[simp] theorem vw_pc (t : Thread) (n : Nat) (v : Vec) : (t.vw n v).pc = t.pc := rfl
@[simp] theorem vw_tickets (t : Thread) (n : Nat) (v : Vec) : (t.vw n v).tickets = t.tickets := rfl
@[simp] theorem vw_hold (t : Thread) (n : Nat) (v : Vec) : (t.vw n v).hold = t.hold := rfl
@[simp] theorem vw_wait (t : Thread) (n : Nat) (v : Vec) : (t.vw n v).wait = t.wait := rfl
@[simp] theorem vw_hwait (t : Thread) (n : Nat) (v : Vec) : (t.vw n v).hwait = t.hwait := rfl
@[simp] theorem vw_fills (t : Thread) (n : Nat) (v : Vec) : (t.vw n v).fills = t.fills := rfl
@[simp] theorem vw_stores (t : Thread) (n : Nat) (v : Vec) : (t.vw n v).stores = t.stores := rfl
@[simp] theorem vw_deferred (t : Thread) (n : Nat) (v : Vec) : (t.vw n v).deferred = t.deferred := rfl
@[simp] theorem vw_owed (t : Thread) (n : Nat) (v : Vec) : (t.vw n v).owed = t.owed := rfl
@[simp] theorem vw_held (t : Thread) (n : Nat) (v : Vec) : (t.vw n v).held = t.held := rfl
@[simp] theorem vw_fstat (t : Thread) (n : Nat) (v : Vec) : (t.vw n v).fstat = t.fstat := rfl
@[simp] theorem vw_warn (t : Thread) (n : Nat) (v : Vec) : (t.vw n v).warn = t.warn := rfl
@[simp] theorem vw_cancelq (t : Thread) (n : Nat) (v : Vec) : (t.vw n v).cancelq = t.cancelq := rfl
@[simp] theorem vw_cmconf (t : Thread) (n : Nat) (v : Vec) : (t.vw n v).cmconf = t.cmconf := rfl
@[simp] theorem vw_issued (t : Thread) (n : Nat) (v : Vec) : (t.vw n v).issued = t.issued := rfl
@[simp] theorem vw_tcause (t : Thread) (n : Nat) (v : Vec) : (t.vw n v).tcause = t.tcause := rfl
@[simp] theorem vw_tepc (t : Thread) (n : Nat) (v : Vec) : (t.vw n v).tepc = t.tepc := rfl
@[simp] theorem vw_taddr (t : Thread) (n : Nat) (v : Vec) : (t.vw n v).taddr = t.taddr := rfl
@[simp] theorem vw_tinfo (t : Thread) (n : Nat) (v : Vec) : (t.vw n v).tinfo = t.tinfo := rfl
@[simp] theorem vw_tvec (t : Thread) (n : Nat) (v : Vec) : (t.vw n v).tvec = t.tvec := rfl
@[simp] theorem vw_tframe (t : Thread) (n : Nat) (v : Vec) : (t.vw n v).tframe = t.tframe := rfl
@[simp] theorem vw_telem (t : Thread) (n : Nat) (v : Vec) : (t.vw n v).telem = t.telem := rfl
@[simp] theorem vw_inh (t : Thread) (n : Nat) (v : Vec) : (t.vw n v).inh = t.inh := rfl
@[simp] theorem vw_tsave (t : Thread) (n : Nat) (v : Vec) : (t.vw n v).tsave = t.tsave := rfl
@[simp] theorem vw_stackBase (t : Thread) (n : Nat) (v : Vec) : (t.vw n v).stackBase = t.stackBase := rfl
@[simp] theorem vw_frame (t : Thread) (n : Nat) (v : Vec) : (t.vw n v).frame = t.frame := rfl
@[simp] theorem vw_xregs (t : Thread) (n : Nat) (v : Vec) : (t.vw n v).xregs = t.xregs := rfl
@[simp] theorem vw_vregs (t : Thread) (n : Nat) (v : Vec) : (t.vw n v).vregs = t.vregs := rfl
@[simp] theorem vw_traps (t : Thread) (n : Nat) (v : Vec) : (t.vw n v).traps = t.traps := rfl
@[simp] theorem vw_scratch (t : Thread) (n : Nat) (v : Vec) : (t.vw n v).scratch = t.scratch := rfl
@[simp] theorem vw_scratchAt (t : Thread) (n : Nat) (v : Vec) : (t.vw n v).scratchAt = t.scratchAt := rfl
@[simp] theorem vw_task (t : Thread) (n : Nat) (v : Vec) : (t.vw n v).task = t.task := rfl
@[simp] theorem vw_started (t : Thread) (n : Nat) (v : Vec) : (t.vw n v).started = t.started := rfl
@[simp] theorem vw_turned (t : Thread) (n : Nat) (v : Vec) : (t.vw n v).turned = t.turned := rfl
@[simp] theorem pw_stat (t : Thread) (n : Nat) (b : Bool) : (t.pw n b).stat = t.stat := by unfold pw; split <;> rfl
@[simp] theorem pw_role (t : Thread) (n : Nat) (b : Bool) : (t.pw n b).role = t.role := by unfold pw; split <;> rfl
@[simp] theorem pw_ctx (t : Thread) (n : Nat) (b : Bool) : (t.pw n b).ctx = t.ctx := by unfold pw; split <;> rfl
@[simp] theorem pw_kernel (t : Thread) (n : Nat) (b : Bool) : (t.pw n b).kernel = t.kernel := by unfold pw; split <;> rfl
@[simp] theorem pw_allot (t : Thread) (n : Nat) (b : Bool) : (t.pw n b).allot = t.allot := by unfold pw; split <;> rfl
@[simp] theorem pw_x (t : Thread) (n : Nat) (b : Bool) : (t.pw n b).x = t.x := by unfold pw; split <;> rfl
@[simp] theorem pw_v (t : Thread) (n : Nat) (b : Bool) : (t.pw n b).v = t.v := by unfold pw; split <;> rfl
@[simp] theorem pw_full (t : Thread) (n : Nat) (b : Bool) : (t.pw n b).full = t.full := by unfold pw; split <;> rfl
@[simp] theorem pw_pois (t : Thread) (n : Nat) (b : Bool) : (t.pw n b).pois = t.pois := by unfold pw; split <;> rfl
@[simp] theorem pw_m (t : Thread) (n : Nat) (b : Bool) : (t.pw n b).m = t.m := by unfold pw; split <;> rfl
@[simp] theorem pw_pc (t : Thread) (n : Nat) (b : Bool) : (t.pw n b).pc = t.pc := by unfold pw; split <;> rfl
@[simp] theorem pw_tickets (t : Thread) (n : Nat) (b : Bool) : (t.pw n b).tickets = t.tickets := by unfold pw; split <;> rfl
@[simp] theorem pw_hold (t : Thread) (n : Nat) (b : Bool) : (t.pw n b).hold = t.hold := by unfold pw; split <;> rfl
@[simp] theorem pw_wait (t : Thread) (n : Nat) (b : Bool) : (t.pw n b).wait = t.wait := by unfold pw; split <;> rfl
@[simp] theorem pw_hwait (t : Thread) (n : Nat) (b : Bool) : (t.pw n b).hwait = t.hwait := by unfold pw; split <;> rfl
@[simp] theorem pw_fills (t : Thread) (n : Nat) (b : Bool) : (t.pw n b).fills = t.fills := by unfold pw; split <;> rfl
@[simp] theorem pw_stores (t : Thread) (n : Nat) (b : Bool) : (t.pw n b).stores = t.stores := by unfold pw; split <;> rfl
@[simp] theorem pw_deferred (t : Thread) (n : Nat) (b : Bool) : (t.pw n b).deferred = t.deferred := by unfold pw; split <;> rfl
@[simp] theorem pw_owed (t : Thread) (n : Nat) (b : Bool) : (t.pw n b).owed = t.owed := by unfold pw; split <;> rfl
@[simp] theorem pw_held (t : Thread) (n : Nat) (b : Bool) : (t.pw n b).held = t.held := by unfold pw; split <;> rfl
@[simp] theorem pw_fstat (t : Thread) (n : Nat) (b : Bool) : (t.pw n b).fstat = t.fstat := by unfold pw; split <;> rfl
@[simp] theorem pw_warn (t : Thread) (n : Nat) (b : Bool) : (t.pw n b).warn = t.warn := by unfold pw; split <;> rfl
@[simp] theorem pw_cancelq (t : Thread) (n : Nat) (b : Bool) : (t.pw n b).cancelq = t.cancelq := by unfold pw; split <;> rfl
@[simp] theorem pw_cmconf (t : Thread) (n : Nat) (b : Bool) : (t.pw n b).cmconf = t.cmconf := by unfold pw; split <;> rfl
@[simp] theorem pw_issued (t : Thread) (n : Nat) (b : Bool) : (t.pw n b).issued = t.issued := by unfold pw; split <;> rfl
@[simp] theorem pw_tcause (t : Thread) (n : Nat) (b : Bool) : (t.pw n b).tcause = t.tcause := by unfold pw; split <;> rfl
@[simp] theorem pw_tepc (t : Thread) (n : Nat) (b : Bool) : (t.pw n b).tepc = t.tepc := by unfold pw; split <;> rfl
@[simp] theorem pw_taddr (t : Thread) (n : Nat) (b : Bool) : (t.pw n b).taddr = t.taddr := by unfold pw; split <;> rfl
@[simp] theorem pw_tinfo (t : Thread) (n : Nat) (b : Bool) : (t.pw n b).tinfo = t.tinfo := by unfold pw; split <;> rfl
@[simp] theorem pw_tvec (t : Thread) (n : Nat) (b : Bool) : (t.pw n b).tvec = t.tvec := by unfold pw; split <;> rfl
@[simp] theorem pw_tframe (t : Thread) (n : Nat) (b : Bool) : (t.pw n b).tframe = t.tframe := by unfold pw; split <;> rfl
@[simp] theorem pw_telem (t : Thread) (n : Nat) (b : Bool) : (t.pw n b).telem = t.telem := by unfold pw; split <;> rfl
@[simp] theorem pw_inh (t : Thread) (n : Nat) (b : Bool) : (t.pw n b).inh = t.inh := by unfold pw; split <;> rfl
@[simp] theorem pw_tsave (t : Thread) (n : Nat) (b : Bool) : (t.pw n b).tsave = t.tsave := by unfold pw; split <;> rfl
@[simp] theorem pw_stackBase (t : Thread) (n : Nat) (b : Bool) : (t.pw n b).stackBase = t.stackBase := by unfold pw; split <;> rfl
@[simp] theorem pw_frame (t : Thread) (n : Nat) (b : Bool) : (t.pw n b).frame = t.frame := by unfold pw; split <;> rfl
@[simp] theorem pw_xregs (t : Thread) (n : Nat) (b : Bool) : (t.pw n b).xregs = t.xregs := by unfold pw; split <;> rfl
@[simp] theorem pw_vregs (t : Thread) (n : Nat) (b : Bool) : (t.pw n b).vregs = t.vregs := by unfold pw; split <;> rfl
@[simp] theorem pw_traps (t : Thread) (n : Nat) (b : Bool) : (t.pw n b).traps = t.traps := by unfold pw; split <;> rfl
@[simp] theorem pw_scratch (t : Thread) (n : Nat) (b : Bool) : (t.pw n b).scratch = t.scratch := by unfold pw; split <;> rfl
@[simp] theorem pw_scratchAt (t : Thread) (n : Nat) (b : Bool) : (t.pw n b).scratchAt = t.scratchAt := by unfold pw; split <;> rfl
@[simp] theorem pw_task (t : Thread) (n : Nat) (b : Bool) : (t.pw n b).task = t.task := by unfold pw; split <;> rfl
@[simp] theorem pw_started (t : Thread) (n : Nat) (b : Bool) : (t.pw n b).started = t.started := by unfold pw; split <;> rfl
@[simp] theorem pw_turned (t : Thread) (n : Nat) (b : Bool) : (t.pw n b).turned = t.turned := by unfold pw; split <;> rfl
@[simp] theorem mw_stat (t : Thread) (n : Nat) (w : Word) : (t.mw n w).stat = t.stat := by unfold mw; split <;> rfl
@[simp] theorem mw_role (t : Thread) (n : Nat) (w : Word) : (t.mw n w).role = t.role := by unfold mw; split <;> rfl
@[simp] theorem mw_ctx (t : Thread) (n : Nat) (w : Word) : (t.mw n w).ctx = t.ctx := by unfold mw; split <;> rfl
@[simp] theorem mw_kernel (t : Thread) (n : Nat) (w : Word) : (t.mw n w).kernel = t.kernel := by unfold mw; split <;> rfl
@[simp] theorem mw_allot (t : Thread) (n : Nat) (w : Word) : (t.mw n w).allot = t.allot := by unfold mw; split <;> rfl
@[simp] theorem mw_x (t : Thread) (n : Nat) (w : Word) : (t.mw n w).x = t.x := by unfold mw; split <;> rfl
@[simp] theorem mw_v (t : Thread) (n : Nat) (w : Word) : (t.mw n w).v = t.v := by unfold mw; split <;> rfl
@[simp] theorem mw_full (t : Thread) (n : Nat) (w : Word) : (t.mw n w).full = t.full := by unfold mw; split <;> rfl
@[simp] theorem mw_pois (t : Thread) (n : Nat) (w : Word) : (t.mw n w).pois = t.pois := by unfold mw; split <;> rfl
@[simp] theorem mw_p (t : Thread) (n : Nat) (w : Word) : (t.mw n w).p = t.p := by unfold mw; split <;> rfl
@[simp] theorem mw_pc (t : Thread) (n : Nat) (w : Word) : (t.mw n w).pc = t.pc := by unfold mw; split <;> rfl
@[simp] theorem mw_tickets (t : Thread) (n : Nat) (w : Word) : (t.mw n w).tickets = t.tickets := by unfold mw; split <;> rfl
@[simp] theorem mw_hold (t : Thread) (n : Nat) (w : Word) : (t.mw n w).hold = t.hold := by unfold mw; split <;> rfl
@[simp] theorem mw_wait (t : Thread) (n : Nat) (w : Word) : (t.mw n w).wait = t.wait := by unfold mw; split <;> rfl
@[simp] theorem mw_hwait (t : Thread) (n : Nat) (w : Word) : (t.mw n w).hwait = t.hwait := by unfold mw; split <;> rfl
@[simp] theorem mw_fills (t : Thread) (n : Nat) (w : Word) : (t.mw n w).fills = t.fills := by unfold mw; split <;> rfl
@[simp] theorem mw_stores (t : Thread) (n : Nat) (w : Word) : (t.mw n w).stores = t.stores := by unfold mw; split <;> rfl
@[simp] theorem mw_deferred (t : Thread) (n : Nat) (w : Word) : (t.mw n w).deferred = t.deferred := by unfold mw; split <;> rfl
@[simp] theorem mw_owed (t : Thread) (n : Nat) (w : Word) : (t.mw n w).owed = t.owed := by unfold mw; split <;> rfl
@[simp] theorem mw_held (t : Thread) (n : Nat) (w : Word) : (t.mw n w).held = t.held := by unfold mw; split <;> rfl
@[simp] theorem mw_fstat (t : Thread) (n : Nat) (w : Word) : (t.mw n w).fstat = t.fstat := by unfold mw; split <;> rfl
@[simp] theorem mw_warn (t : Thread) (n : Nat) (w : Word) : (t.mw n w).warn = t.warn := by unfold mw; split <;> rfl
@[simp] theorem mw_cancelq (t : Thread) (n : Nat) (w : Word) : (t.mw n w).cancelq = t.cancelq := by unfold mw; split <;> rfl
@[simp] theorem mw_cmconf (t : Thread) (n : Nat) (w : Word) : (t.mw n w).cmconf = t.cmconf := by unfold mw; split <;> rfl
@[simp] theorem mw_issued (t : Thread) (n : Nat) (w : Word) : (t.mw n w).issued = t.issued := by unfold mw; split <;> rfl
@[simp] theorem mw_tcause (t : Thread) (n : Nat) (w : Word) : (t.mw n w).tcause = t.tcause := by unfold mw; split <;> rfl
@[simp] theorem mw_tepc (t : Thread) (n : Nat) (w : Word) : (t.mw n w).tepc = t.tepc := by unfold mw; split <;> rfl
@[simp] theorem mw_taddr (t : Thread) (n : Nat) (w : Word) : (t.mw n w).taddr = t.taddr := by unfold mw; split <;> rfl
@[simp] theorem mw_tinfo (t : Thread) (n : Nat) (w : Word) : (t.mw n w).tinfo = t.tinfo := by unfold mw; split <;> rfl
@[simp] theorem mw_tvec (t : Thread) (n : Nat) (w : Word) : (t.mw n w).tvec = t.tvec := by unfold mw; split <;> rfl
@[simp] theorem mw_tframe (t : Thread) (n : Nat) (w : Word) : (t.mw n w).tframe = t.tframe := by unfold mw; split <;> rfl
@[simp] theorem mw_telem (t : Thread) (n : Nat) (w : Word) : (t.mw n w).telem = t.telem := by unfold mw; split <;> rfl
@[simp] theorem mw_inh (t : Thread) (n : Nat) (w : Word) : (t.mw n w).inh = t.inh := by unfold mw; split <;> rfl
@[simp] theorem mw_tsave (t : Thread) (n : Nat) (w : Word) : (t.mw n w).tsave = t.tsave := by unfold mw; split <;> rfl
@[simp] theorem mw_stackBase (t : Thread) (n : Nat) (w : Word) : (t.mw n w).stackBase = t.stackBase := by unfold mw; split <;> rfl
@[simp] theorem mw_frame (t : Thread) (n : Nat) (w : Word) : (t.mw n w).frame = t.frame := by unfold mw; split <;> rfl
@[simp] theorem mw_xregs (t : Thread) (n : Nat) (w : Word) : (t.mw n w).xregs = t.xregs := by unfold mw; split <;> rfl
@[simp] theorem mw_vregs (t : Thread) (n : Nat) (w : Word) : (t.mw n w).vregs = t.vregs := by unfold mw; split <;> rfl
@[simp] theorem mw_traps (t : Thread) (n : Nat) (w : Word) : (t.mw n w).traps = t.traps := by unfold mw; split <;> rfl
@[simp] theorem mw_scratch (t : Thread) (n : Nat) (w : Word) : (t.mw n w).scratch = t.scratch := by unfold mw; split <;> rfl
@[simp] theorem mw_scratchAt (t : Thread) (n : Nat) (w : Word) : (t.mw n w).scratchAt = t.scratchAt := by unfold mw; split <;> rfl
@[simp] theorem mw_task (t : Thread) (n : Nat) (w : Word) : (t.mw n w).task = t.task := by unfold mw; split <;> rfl
@[simp] theorem mw_started (t : Thread) (n : Nat) (w : Word) : (t.mw n w).started = t.started := by unfold mw; split <;> rfl
@[simp] theorem mw_turned (t : Thread) (n : Nat) (w : Word) : (t.mw n w).turned = t.turned := by unfold mw; split <;> rfl
@[simp] theorem await_stat (t : Thread) (f : Fill) : (t.await f).stat = t.stat := rfl
@[simp] theorem await_role (t : Thread) (f : Fill) : (t.await f).role = t.role := rfl
@[simp] theorem await_ctx (t : Thread) (f : Fill) : (t.await f).ctx = t.ctx := rfl
@[simp] theorem await_kernel (t : Thread) (f : Fill) : (t.await f).kernel = t.kernel := rfl
@[simp] theorem await_allot (t : Thread) (f : Fill) : (t.await f).allot = t.allot := rfl
@[simp] theorem await_x (t : Thread) (f : Fill) : (t.await f).x = t.x := rfl
@[simp] theorem await_v (t : Thread) (f : Fill) : (t.await f).v = t.v := rfl
@[simp] theorem await_p (t : Thread) (f : Fill) : (t.await f).p = t.p := rfl
@[simp] theorem await_m (t : Thread) (f : Fill) : (t.await f).m = t.m := rfl
@[simp] theorem await_pc (t : Thread) (f : Fill) : (t.await f).pc = t.pc := rfl
@[simp] theorem await_tickets (t : Thread) (f : Fill) : (t.await f).tickets = t.tickets := rfl
@[simp] theorem await_hold (t : Thread) (f : Fill) : (t.await f).hold = t.hold := rfl
@[simp] theorem await_wait (t : Thread) (f : Fill) : (t.await f).wait = t.wait := rfl
@[simp] theorem await_hwait (t : Thread) (f : Fill) : (t.await f).hwait = t.hwait := rfl
@[simp] theorem await_stores (t : Thread) (f : Fill) : (t.await f).stores = t.stores := rfl
@[simp] theorem await_deferred (t : Thread) (f : Fill) : (t.await f).deferred = t.deferred := rfl
@[simp] theorem await_owed (t : Thread) (f : Fill) : (t.await f).owed = t.owed := rfl
@[simp] theorem await_held (t : Thread) (f : Fill) : (t.await f).held = t.held := rfl
@[simp] theorem await_fstat (t : Thread) (f : Fill) : (t.await f).fstat = t.fstat := rfl
@[simp] theorem await_warn (t : Thread) (f : Fill) : (t.await f).warn = t.warn := rfl
@[simp] theorem await_cancelq (t : Thread) (f : Fill) : (t.await f).cancelq = t.cancelq := rfl
@[simp] theorem await_cmconf (t : Thread) (f : Fill) : (t.await f).cmconf = t.cmconf := rfl
@[simp] theorem await_issued (t : Thread) (f : Fill) : (t.await f).issued = t.issued := rfl
@[simp] theorem await_tcause (t : Thread) (f : Fill) : (t.await f).tcause = t.tcause := rfl
@[simp] theorem await_tepc (t : Thread) (f : Fill) : (t.await f).tepc = t.tepc := rfl
@[simp] theorem await_taddr (t : Thread) (f : Fill) : (t.await f).taddr = t.taddr := rfl
@[simp] theorem await_tinfo (t : Thread) (f : Fill) : (t.await f).tinfo = t.tinfo := rfl
@[simp] theorem await_tvec (t : Thread) (f : Fill) : (t.await f).tvec = t.tvec := rfl
@[simp] theorem await_tframe (t : Thread) (f : Fill) : (t.await f).tframe = t.tframe := rfl
@[simp] theorem await_telem (t : Thread) (f : Fill) : (t.await f).telem = t.telem := rfl
@[simp] theorem await_inh (t : Thread) (f : Fill) : (t.await f).inh = t.inh := rfl
@[simp] theorem await_tsave (t : Thread) (f : Fill) : (t.await f).tsave = t.tsave := rfl
@[simp] theorem await_stackBase (t : Thread) (f : Fill) : (t.await f).stackBase = t.stackBase := rfl
@[simp] theorem await_frame (t : Thread) (f : Fill) : (t.await f).frame = t.frame := rfl
@[simp] theorem await_xregs (t : Thread) (f : Fill) : (t.await f).xregs = t.xregs := rfl
@[simp] theorem await_vregs (t : Thread) (f : Fill) : (t.await f).vregs = t.vregs := rfl
@[simp] theorem await_traps (t : Thread) (f : Fill) : (t.await f).traps = t.traps := rfl
@[simp] theorem await_scratch (t : Thread) (f : Fill) : (t.await f).scratch = t.scratch := rfl
@[simp] theorem await_scratchAt (t : Thread) (f : Fill) : (t.await f).scratchAt = t.scratchAt := rfl
@[simp] theorem await_task (t : Thread) (f : Fill) : (t.await f).task = t.task := rfl
@[simp] theorem await_started (t : Thread) (f : Fill) : (t.await f).started = t.started := rfl
@[simp] theorem await_turned (t : Thread) (f : Fill) : (t.await f).turned = t.turned := rfl
@[simp] theorem dropTicket_stat (t : Thread) (k : Option Nat) : (t.dropTicket k).stat = t.stat := by unfold dropTicket; split <;> rfl
@[simp] theorem dropTicket_role (t : Thread) (k : Option Nat) : (t.dropTicket k).role = t.role := by unfold dropTicket; split <;> rfl
@[simp] theorem dropTicket_ctx (t : Thread) (k : Option Nat) : (t.dropTicket k).ctx = t.ctx := by unfold dropTicket; split <;> rfl
@[simp] theorem dropTicket_kernel (t : Thread) (k : Option Nat) : (t.dropTicket k).kernel = t.kernel := by unfold dropTicket; split <;> rfl
@[simp] theorem dropTicket_allot (t : Thread) (k : Option Nat) : (t.dropTicket k).allot = t.allot := by unfold dropTicket; split <;> rfl
@[simp] theorem dropTicket_x (t : Thread) (k : Option Nat) : (t.dropTicket k).x = t.x := by unfold dropTicket; split <;> rfl
@[simp] theorem dropTicket_v (t : Thread) (k : Option Nat) : (t.dropTicket k).v = t.v := by unfold dropTicket; split <;> rfl
@[simp] theorem dropTicket_full (t : Thread) (k : Option Nat) : (t.dropTicket k).full = t.full := by unfold dropTicket; split <;> rfl
@[simp] theorem dropTicket_pois (t : Thread) (k : Option Nat) : (t.dropTicket k).pois = t.pois := by unfold dropTicket; split <;> rfl
@[simp] theorem dropTicket_p (t : Thread) (k : Option Nat) : (t.dropTicket k).p = t.p := by unfold dropTicket; split <;> rfl
@[simp] theorem dropTicket_m (t : Thread) (k : Option Nat) : (t.dropTicket k).m = t.m := by unfold dropTicket; split <;> rfl
@[simp] theorem dropTicket_pc (t : Thread) (k : Option Nat) : (t.dropTicket k).pc = t.pc := by unfold dropTicket; split <;> rfl
@[simp] theorem dropTicket_hold (t : Thread) (k : Option Nat) : (t.dropTicket k).hold = t.hold := by unfold dropTicket; split <;> rfl
@[simp] theorem dropTicket_wait (t : Thread) (k : Option Nat) : (t.dropTicket k).wait = t.wait := by unfold dropTicket; split <;> rfl
@[simp] theorem dropTicket_hwait (t : Thread) (k : Option Nat) : (t.dropTicket k).hwait = t.hwait := by unfold dropTicket; split <;> rfl
@[simp] theorem dropTicket_fills (t : Thread) (k : Option Nat) : (t.dropTicket k).fills = t.fills := by unfold dropTicket; split <;> rfl
@[simp] theorem dropTicket_stores (t : Thread) (k : Option Nat) : (t.dropTicket k).stores = t.stores := by unfold dropTicket; split <;> rfl
@[simp] theorem dropTicket_deferred (t : Thread) (k : Option Nat) : (t.dropTicket k).deferred = t.deferred := by unfold dropTicket; split <;> rfl
@[simp] theorem dropTicket_owed (t : Thread) (k : Option Nat) : (t.dropTicket k).owed = t.owed := by unfold dropTicket; split <;> rfl
@[simp] theorem dropTicket_held (t : Thread) (k : Option Nat) : (t.dropTicket k).held = t.held := by unfold dropTicket; split <;> rfl
@[simp] theorem dropTicket_fstat (t : Thread) (k : Option Nat) : (t.dropTicket k).fstat = t.fstat := by unfold dropTicket; split <;> rfl
@[simp] theorem dropTicket_warn (t : Thread) (k : Option Nat) : (t.dropTicket k).warn = t.warn := by unfold dropTicket; split <;> rfl
@[simp] theorem dropTicket_cancelq (t : Thread) (k : Option Nat) : (t.dropTicket k).cancelq = t.cancelq := by unfold dropTicket; split <;> rfl
@[simp] theorem dropTicket_cmconf (t : Thread) (k : Option Nat) : (t.dropTicket k).cmconf = t.cmconf := by unfold dropTicket; split <;> rfl
@[simp] theorem dropTicket_issued (t : Thread) (k : Option Nat) : (t.dropTicket k).issued = t.issued := by unfold dropTicket; split <;> rfl
@[simp] theorem dropTicket_tcause (t : Thread) (k : Option Nat) : (t.dropTicket k).tcause = t.tcause := by unfold dropTicket; split <;> rfl
@[simp] theorem dropTicket_tepc (t : Thread) (k : Option Nat) : (t.dropTicket k).tepc = t.tepc := by unfold dropTicket; split <;> rfl
@[simp] theorem dropTicket_taddr (t : Thread) (k : Option Nat) : (t.dropTicket k).taddr = t.taddr := by unfold dropTicket; split <;> rfl
@[simp] theorem dropTicket_tinfo (t : Thread) (k : Option Nat) : (t.dropTicket k).tinfo = t.tinfo := by unfold dropTicket; split <;> rfl
@[simp] theorem dropTicket_tvec (t : Thread) (k : Option Nat) : (t.dropTicket k).tvec = t.tvec := by unfold dropTicket; split <;> rfl
@[simp] theorem dropTicket_tframe (t : Thread) (k : Option Nat) : (t.dropTicket k).tframe = t.tframe := by unfold dropTicket; split <;> rfl
@[simp] theorem dropTicket_telem (t : Thread) (k : Option Nat) : (t.dropTicket k).telem = t.telem := by unfold dropTicket; split <;> rfl
@[simp] theorem dropTicket_inh (t : Thread) (k : Option Nat) : (t.dropTicket k).inh = t.inh := by unfold dropTicket; split <;> rfl
@[simp] theorem dropTicket_tsave (t : Thread) (k : Option Nat) : (t.dropTicket k).tsave = t.tsave := by unfold dropTicket; split <;> rfl
@[simp] theorem dropTicket_stackBase (t : Thread) (k : Option Nat) : (t.dropTicket k).stackBase = t.stackBase := by unfold dropTicket; split <;> rfl
@[simp] theorem dropTicket_frame (t : Thread) (k : Option Nat) : (t.dropTicket k).frame = t.frame := by unfold dropTicket; split <;> rfl
@[simp] theorem dropTicket_xregs (t : Thread) (k : Option Nat) : (t.dropTicket k).xregs = t.xregs := by unfold dropTicket; split <;> rfl
@[simp] theorem dropTicket_vregs (t : Thread) (k : Option Nat) : (t.dropTicket k).vregs = t.vregs := by unfold dropTicket; split <;> rfl
@[simp] theorem dropTicket_traps (t : Thread) (k : Option Nat) : (t.dropTicket k).traps = t.traps := by unfold dropTicket; split <;> rfl
@[simp] theorem dropTicket_scratch (t : Thread) (k : Option Nat) : (t.dropTicket k).scratch = t.scratch := by unfold dropTicket; split <;> rfl
@[simp] theorem dropTicket_scratchAt (t : Thread) (k : Option Nat) : (t.dropTicket k).scratchAt = t.scratchAt := by unfold dropTicket; split <;> rfl
@[simp] theorem dropTicket_task (t : Thread) (k : Option Nat) : (t.dropTicket k).task = t.task := by unfold dropTicket; split <;> rfl
@[simp] theorem dropTicket_started (t : Thread) (k : Option Nat) : (t.dropTicket k).started = t.started := by unfold dropTicket; split <;> rfl
@[simp] theorem dropTicket_turned (t : Thread) (k : Option Nat) : (t.dropTicket k).turned = t.turned := by unfold dropTicket; split <;> rfl

theorem getV_putV {n : Nat} {α : Type} (v : Vector α n) (d a : α) (i j : Nat) :
    getV (putV v i a) d j = if j = i ∧ i < n then a else getV v d j := by
  simp only [getV, putV, Vector.toList, Vector.toArray_mapIdx, Array.toList_mapIdx, List.getD_eq_getElem?_getD, List.getElem?_mapIdx]
  by_cases hj : j < n
  · have h : v.toArray.toList[j]? = some v[j] := by simp [hj]
    rw [h]
    by_cases hi : j = i
    · subst hi; simp [hj]
    · simp [hi]
  · have h : v.toArray.toList[j]? = none := by simp; omega
    rw [h]
    by_cases hi : j = i
    · subst hi; simp [hj]
    · simp [hi]

/-- `x0` reads zero, whatever is written. -/
@[simp] theorem xr_zero (t : Thread) : t.xr 0 = 0 := rfl
@[simp] theorem xw_zero (t : Thread) (v : Word) : t.xw 0 v = t := rfl
theorem xr_xw_self (t : Thread) (n : Nat) (v : Word) (h : n ≠ 0) (h2 : n < 64) : (t.xw n v).xr n = v := by
  simp [xr, xw, h, getV_putV, h2]
theorem xr_xw_ne (t : Thread) (n j : Nat) (v : Word) (h : j ≠ n) : (t.xw n v).xr j = t.xr j := by
  unfold xr xw; split
  · rfl
  · split <;> simp [getV_putV, h]
theorem vr_vw_self (t : Thread) (n : Nat) (v : Vec) (h : n < 32) : (t.vw n v).vr n = v := by simp [vr, vw, getV_putV, h]
theorem vr_vw_ne (t : Thread) (n j : Nat) (v : Vec) (h : j ≠ n) : (t.vw n v).vr j = t.vr j := by simp [vr, vw, getV_putV, h]
@[simp] theorem pr_zero (t : Thread) : t.pr 0 = true := rfl
@[simp] theorem mr_zero (t : Thread) : t.mr 0 = BitVec.allOnes 64 := rfl
@[simp] theorem vr_xw (t : Thread) (n j : Nat) (v : Word) : (t.xw n v).vr j = t.vr j := by simp [vr]
@[simp] theorem xr_vw (t : Thread) (n j : Nat) (v : Vec) : (t.vw n v).xr j = t.xr j := by simp [xr]
@[simp] theorem xr_pw (t : Thread) (n j : Nat) (b : Bool) : (t.pw n b).xr j = t.xr j := by simp [xr]
@[simp] theorem xr_mw (t : Thread) (n j : Nat) (w : Word) : (t.mw n w).xr j = t.xr j := by simp [xr]
@[simp] theorem xr_await (t : Thread) (f : Fill) (j : Nat) : (t.await f).xr j = t.xr j := by simp [xr]
end Thread

end Sys2Proof.Machine
end

