-- ==== Sys2Proof/Laws/Form.lean ====
section
/-!
SUPPORT. The operations over memory keep its canonical form: one lemma per operation, from the byte written at its home up to accesses, walks, translation,
ends and traps.
-/
namespace Sys2Proof.Machine
open Sys2Proof

/-! ### How the form carries over -/

/-- A state with the same memory keeps the form. -/
theorem State.Inv.of_mem {s t : State} (h : s.Inv) (e : t.mem = s.mem) : t.Inv := by
  unfold State.Inv at *; rw [e]; exact h

/-- A fold keeps the form where each of its steps does. -/
theorem inv_foldl {α : Type} {f : State → α → State} (hf : ∀ s a, s.Inv → (f s a).Inv) (l : List α) (s : State) (h : s.Inv) : (l.foldl f s).Inv := by
  induction l generalizing s with
  | nil => exact h
  | cons a l ih => exact ih _ (hf s a h)

theorem inv_setThr {s : State} (h : s.Inv) (k : Nat) (t : Thread) : (s.setThr k t).Inv := h
theorem inv_modThr {s : State} (h : s.Inv) (k : Nat) (f : Thread → Thread) : (s.modThr k f).Inv := h
theorem inv_modTile {s : State} (h : s.Inv) (k : Nat) (f : Tile → Tile) : (s.modTile k f).Inv := h
theorem inv_modCtx {s : State} (h : s.Inv) (k : Nat) (f : Ctx → Ctx) : (s.modCtx k f).Inv := h
theorem inv_modKern {s : State} (h : s.Inv) (k : Nat) (f : Kernel → Kernel) : (s.modKern k f).Inv := by
  unfold State.modKern; split <;> exact h
theorem inv_modAct {s : State} (h : s.Inv) (k : Nat) (f : Act → Act) : (s.modAct k f).Inv := by
  unfold State.modAct; split <;> exact h
theorem inv_modErrand {s : State} (h : s.Inv) (t k : Nat) (f : Errand → Errand) : (s.modErrand t k f).Inv := by
  unfold State.modErrand; split <;> exact h

/-! ### The home and the caches -/

theorem inv_writeMem {s : State} (h : s.Inv) (k : Nat) (bs : List Byte) : State.Inv { s with mem := Memory.writeN s.mem k bs } :=
  Memory.wf_writeN bs s.mem k h

theorem inv_poisonWritten {s : State} (h : s.Inv) (k : Nat) : (poisonWritten s k).Inv := by
  unfold poisonWritten; split <;> exact h

theorem inv_markSpDirty {s : State} (h : s.Inv) (k : Nat) : (markSpDirty s k).Inv := by
  unfold markSpDirty; split <;> exact h

theorem inv_pokeByte {s : State} (h : s.Inv) (k : Nat) (b : Byte) : (pokeByte s k b).Inv :=
  inv_poisonWritten (s := { markSpDirty s k with mem := Memory.write (markSpDirty s k).mem k b }) (Memory.wf_write _ k b (inv_markSpDirty h k)) k

theorem inv_homeByte {s : State} (h : s.Inv) (k : Nat) (b : Byte) : (homeByte s k b).Inv := inv_pokeByte h _ b

theorem inv_writeHome (bs : List Byte) : ∀ {s : State}, s.Inv → ∀ k, (writeHome s k bs).Inv := by
  induction bs with
  | nil => exact fun h _ => h
  | cons b r ih => exact fun h k => ih (inv_homeByte h k b) (k + 1)

theorem inv_charge {s : State} (h : s.Inv) (c i : Nat) (f : Allot → Allot) : (charge s c i f).Inv := h
theorem inv_chargeAgent {s : State} (h : s.Inv) (m : Mover) (f : Allot → Allot) : (chargeAgent s m f).Inv := by
  unfold chargeAgent; split <;> exact h
theorem inv_hbmMoved {s : State} (h : s.Inv) (l : Nat) : (hbmMoved s l).Inv := by
  unfold hbmMoved; split
  · exact inv_chargeAgent h _ _
  · exact h

theorem inv_setL1 {s : State} (h : s.Inv) (t l : Nat) (x : L1Line) : (setL1 s t l x).Inv := h
theorem inv_setRegion {s : State} (h : s.Inv) (r : Nat) (x : RStat) : (setRegion s r x).Inv := h
theorem inv_dropL1 {s : State} (h : s.Inv) (t l : Nat) : (dropL1 s t l).Inv := h
theorem inv_dropIf {s : State} (h : s.Inv) (t : Nat) (p : Nat → L1Line → Bool) : (dropIf s t p).Inv := h

theorem inv_l2Keep {s : State} (h : s.Inv) (l : Nat) (d : BitVec 1024) : (l2Keep s l d).Inv := h

theorem inv_sendDirty {s : State} (h : s.Inv) (t ln : Nat) : (sendDirty s t ln).Inv := by
  simp only [sendDirty]
  split
  · exact h
  · split
    · exact h
    · rename_i l _ _
      have hd : ((List.range 128).foldl (fun (s : State) i => if l.dirty.getLsbD i = true then writeHome s (ln + i) [l.data.extractLsb' (i * 8) 8] else s)
          (hbmMoved s ln)).Inv := inv_foldl (fun s i h => by split; exact inv_writeHome _ h _; exact h) _ _ (inv_hbmMoved h _)
      split
      · exact inv_dropL1 hd _ _
      · exact inv_setL1 hd _ _ _

theorem inv_recallExcl {s : State} (h : s.Inv) (l : Nat) : (recallExcl s l).Inv := by
  unfold recallExcl; split
  · exact (inv_sendDirty h _ l).of_mem rfl
  · exact h

theorem inv_drainLine {s : State} (h : s.Inv) (t l : Nat) : (drainLine s t l).Inv := by
  simp only [drainLine]
  repeat' split
  all_goals first | exact h | exact inv_sendDirty h _ _ | exact inv_sendDirty (inv_recallExcl h _) _ _

theorem inv_evictLine {s : State} (h : s.Inv) (t l : Nat) : (evictLine s t l).Inv := by
  simp only [evictLine]; split
  all_goals exact inv_drainLine h t l

theorem inv_makeRoom {s : State} (h : s.Inv) (t : Nat) : (makeRoom s t).Inv := by
  simp only [makeRoom]; repeat' split
  all_goals first | exact h | exact inv_evictLine h _ _

theorem inv_fetchLine {s : State} (h : s.Inv) (t l : Nat) : (fetchLine s t l).Inv := by
  have hm := inv_hbmMoved (inv_makeRoom h t) l
  have hb := inv_hbmMoved h l
  simp only [fetchLine]; repeat' split
  all_goals first
    | exact h | exact hm | exact inv_l2Keep hm _ _ | exact inv_setL1 hm _ _ _ | exact inv_setL1 (inv_l2Keep hm _ _) _ _ _
    | exact inv_setL1 hb _ _ _ | exact inv_setL1 (inv_l2Keep hb _ _) _ _ _

theorem inv_drainIf {s : State} (h : s.Inv) (t : Nat) (p : Nat → Bool) : (drainIf s t p).Inv :=
  inv_foldl (fun s l h => by split; exact inv_drainLine h t l; exact h) _ s h

theorem inv_dropCopies {s : State} (h : s.Inv) (q p : Nat → Bool) : (dropCopies s q p).Inv :=
  inv_foldl (fun s t h => by split; exact inv_dropIf h t _; exact h) _ s h

theorem inv_recallToken {s : State} (h : s.Inv) (r : Nat) : (recallToken s r).Inv := by
  unfold recallToken; split
  · exact inv_setRegion (inv_drainIf h _ _) _ _
  · exact h

theorem inv_recallExcls {s : State} (h : s.Inv) (r : Nat) : (recallExcls s r).Inv :=
  inv_foldl (fun s l h => by split; exact inv_recallExcl h _; exact h) _ s h

theorem inv_recallHome {s : State} (h : s.Inv) (k : Nat) : (recallHome s k).Inv := inv_recallExcl (inv_recallToken h _) _

theorem inv_refreshOwn {s : State} (h : s.Inv) (t k : Nat) : (refreshOwn s t k).Inv := by
  unfold refreshOwn; split <;> exact h

theorem inv_grantToken {s : State} (h : s.Inv) (t r : Nat) : (grantToken s t r).Inv := by
  simp only [grantToken]; repeat' split
  all_goals first
    | exact h
    | exact inv_setRegion (inv_dropCopies (inv_recallExcls (inv_recallToken h _) _) _ _) _ _
    | exact inv_setRegion (inv_dropCopies (inv_recallExcls h _) _ _) _ _

theorem inv_grantExcl {s : State} (h : s.Inv) (t k : Nat) : (grantExcl s t k).Inv := by
  have hr := inv_recallExcl (inv_recallToken h (regionOf k)) (lineOf k)
  simp only [grantExcl]; split
  · exact h
  · refine inv_refreshOwn ?_ t k
    split
    · exact hr
    · exact (inv_dropCopies hr _ _).of_mem rfl

theorem inv_grantWrite {s : State} (h : s.Inv) (t k : Nat) : (grantWrite s t k).Inv := by
  simp only [grantWrite]; repeat' split
  all_goals first | exact h | exact inv_grantExcl h t k | exact inv_grantToken h t _

theorem inv_releaseDevice {s : State} (h : s.Inv) (t : Nat) : (releaseDevice s t).Inv := (inv_drainIf h t _).of_mem rfl
theorem inv_dropRead {s : State} (h : s.Inv) (t : Nat) (p : Nat → L1Line → Bool) : (dropRead s t p).Inv := h
theorem inv_acquireDevice {s : State} (h : s.Inv) (t : Nat) : (acquireDevice s t).Inv := h
theorem inv_zeroRange {s : State} (h : s.Inv) (lo hi : Nat) : (zeroRange s lo hi).Inv := Memory.wf_zero s.mem lo hi h

/-! ### Accesses at places -/

theorem inv_loadPlace {s : State} (h : s.Inv) (t k n o sc : Nat) : (loadPlace s t k n o sc).1.Inv := by
  have hd : (drainLine (hbmMoved (recallHome s k) (lineOf k)) t (lineOf k)).Inv := inv_drainLine (inv_hbmMoved (inv_recallHome h k) _) _ _
  simp only [loadPlace]
  split
  · exact h
  · split
    · exact h
    · split
      · refine inv_refreshOwn ?_ t k
        repeat' split
        all_goals exact hd
      · exact inv_fetchLine h t _

theorem inv_storePlace {s : State} (h : s.Inv) (t k : Nat) (bs : List Byte) (o sc : Nat) : (storePlace s t k bs o sc).Inv := by
  have hw : ∀ {s : State}, s.Inv → (writeHome s k bs).Inv := fun h => inv_writeHome bs h k
  simp only [storePlace]
  split
  · exact hw h
  · split
    · exact hw h
    · split
      · repeat' split
        all_goals exact hw h
      · split
        · exact inv_refreshOwn (hw (inv_drainLine (inv_hbmMoved (inv_recallHome h k) _) _ _)) _ _
        · have hg : (if regionStat s k = .soft then s else grantWrite s t k).Inv := by
            split
            · exact h
            · exact inv_grantWrite h t k
          generalize (if regionStat s k = .soft then s else grantWrite s t k) = s1 at hg ⊢
          have hl : (if (l1? s1 t (lineOf k)).isSome = true then s1 else fetchLine s1 t (lineOf k)).Inv := by
            split
            · exact hg
            · exact inv_fetchLine hg _ _
          have hp := inv_foldl (f := fun s i => poisonWritten s (k + i)) (fun s i h => inv_poisonWritten h _) (List.range bs.length) _ hl
          generalize (List.range bs.length).foldl (fun s i => poisonWritten s (k + i))
            (if (l1? s1 t (lineOf k)).isSome = true then s1 else fetchLine s1 t (lineOf k)) = s2 at hp ⊢
          split
          · exact inv_setL1 hp _ _ _
          · exact hw (inv_recallExcl (inv_hbmMoved hp _) _)

theorem inv_atomicRead {s : State} (h : s.Inv) (t k n sc : Nat) : (atomicRead s t k n sc).1.Inv := by
  simp only [atomicRead]
  split
  · exact h
  · split
    · refine inv_refreshOwn ?_ t k
      split <;> exact h
    · split
      · exact inv_refreshOwn (inv_drainLine (inv_hbmMoved (inv_recallHome h k) _) _ _) _ _
      · exact inv_fetchLine (inv_grantWrite h t k) _ _

theorem inv_atomicWrite {s : State} (h : s.Inv) (t k : Nat) (bs : List Byte) (sc : Nat) : (atomicWrite s t k bs sc).Inv := by
  unfold atomicWrite; repeat' split
  all_goals exact inv_storePlace h t k bs _ _

theorem inv_drainAll {s : State} (h : s.Inv) (k n : Nat) : (drainAll s k n).Inv := inv_foldl (fun _ t h => inv_drainIf h t _) _ s h

theorem inv_hubRead {s : State} (h : s.Inv) (k n : Nat) : (hubRead s k n).1.Inv :=
  inv_foldl (fun s i h => by split; exact inv_recallHome h _; exact h) _ s h

theorem inv_hubWrite {s : State} (h : s.Inv) (k : Nat) (bs : List Byte) : (hubWrite s k bs).Inv :=
  inv_writeHome bs (inv_foldl (fun s i h => by split; exact inv_recallHome h _; exact h) _ s h) k

/-! ### Scratchpad lines under a mapping -/

theorem inv_spLineBack {s : State} (h : s.Inv) (t l p : Nat) : (spLineBack s t l p).Inv := by
  unfold spLineBack
  apply inv_modTile; apply inv_foldl
  · exact fun s b h => inv_pokeByte h _ _
  · exact h

theorem inv_spRelease {s : State} (h : s.Inv) (p k : Nat) : (spRelease s p k).Inv := by
  simp only [spRelease]
  apply inv_modTile
  refine State.Inv.of_mem (s := if spIsDirty s k then spLineBack s (placeTile k) (k % 2 ^ 20 / 128) p else s) ?_ rfl
  split
  · exact inv_spLineBack h _ _ _
  · exact h

theorem inv_spReleases {s : State} (h : s.Inv) (l : Tbl Nat) : (l.foldl (fun s km => spRelease s km.1 km.2) s).Inv :=
  inv_foldl (fun _ km h => inv_spRelease h km.1 km.2) l s h

theorem inv_registerLine {s : State} (h : s.Inv) (l k : Nat) : (registerLine s l k).Inv := by
  have hr : ∀ {s : State}, s.Inv → ((knownTiles (recallHome s l)).foldl (fun s t => evictLine s t l) (recallHome s l)).Inv :=
    fun h => inv_foldl (fun _ t h => inv_evictLine h t l) _ _ (inv_recallHome h l)
  simp only [registerLine]
  repeat' split
  all_goals first | exact (hr h).of_mem rfl | exact (hr (inv_spRelease h _ _)).of_mem rfl

/-! ### Walks and translation -/

theorem inv_askPage {s : State} (h : s.Inv) (t c k : Nat) (m : Mover) : (askPage s t c k m).Inv := h
theorem inv_keepEntry {s : State} (h : s.Inv) (d c l va : Nat) (e : Word) (x : Lease) : (keepEntry s d c l va e x).Inv := h

theorem inv_readEntry {s : State} (h : s.Inv) (d c k : Nat) : (readEntry s d c k).1.Inv := by
  simp only [readEntry]; repeat' split
  all_goals first | exact h | exact inv_hubRead h k 8

theorem inv_walkFrom (d c va : Nat) (n : Nat) : ∀ {s : State}, s.Inv → ∀ l tb x, (walkFrom s d c va l tb x n).1.Inv := by
  induction n with
  | zero => exact fun h _ _ _ => h
  | succ n ih =>
    intro s h l tb x
    cases hc : walkCached s d c l va with
    | some e =>
      simp only [walkFrom, hc]
      repeat' split
      all_goals first | exact h | exact ih h _ _ _ | exact ih (inv_keepEntry h _ _ _ _ _ _) _ _ _
    | none =>
      have hr := inv_readEntry h d c (tb + 8 * lvlIndex l va)
      simp only [walkFrom, hc]
      generalize readEntry s d c (tb + 8 * lvlIndex l va) = q at hr ⊢
      obtain ⟨s1, _ | e⟩ := q
      · exact hr
      · have hr : s1.Inv := hr
        simp only
        repeat' split
        all_goals first | exact hr | exact ih hr _ _ _ | exact ih (inv_keepEntry hr _ _ _ _ _ _) _ _ _

theorem inv_walk {s : State} (h : s.Inv) (d c va : Nat) : (walk s d c va).1.Inv := inv_walkFrom d c va 4 h 0 _ _

theorem inv_ensureFace {s t : State} (h : s.Inv) (c : Nat) (leaf : Word) (b va : Nat) (e : ensureFace s c leaf b va = .ok t) : t.Inv := by
  simp only [ensureFace] at e
  repeat' split at e
  all_goals first | (cases e; exact h) | cases e

theorem inv_findLeaf {s : State} (h : s.Inv) (t c : Nat) (va : Word) (n : Need) : (findLeaf s t c va n).1.Inv := by
  have hf : ∀ a, (findLeaf.fresh s t c n a).1.Inv := fun a => by
    have hw := inv_walk h (dieOf t) c a
    unfold findLeaf.fresh
    split
    all_goals (rename_i e; rw [e] at hw; exact hw)
  have hm : ∀ a, (findLeaf.miss s t c va n a).1.Inv := fun a => by
    unfold findLeaf.miss
    split
    · exact h
    · split
      · rename_i s1 e
        refine h.of_mem (t := s1) ?_
        simp only [joinWalk] at e
        repeat' split at e
        all_goals first | (cases e; rfl) | cases e
      · exact hf a
  simp only [findLeaf]
  repeat' split
  all_goals first | exact h | exact hm _

theorem inv_translateLeaf {s : State} (h : s.Inv) (t c : Nat) (va : Word) (n : Need) : (translateLeaf s t c va n).1.Inv := by
  have hf := inv_findLeaf h t c va n
  simp only [translateLeaf]
  split
  · rename_i e; rw [e] at hf; exact hf
  · rename_i e; rw [e] at hf
    split
    · exact hf
    · rename_i e2; exact inv_ensureFace hf _ _ _ _ e2

theorem inv_translate {s : State} (h : s.Inv) (t c : Nat) (va : Word) (n : Need) : (translate s t c va n).1.Inv := by
  have hf := inv_translateLeaf h t c va n
  unfold translate
  split
  all_goals (rename_i e; rw [e] at hf; exact hf)

theorem inv_translateHub {s : State} (h : s.Inv) (c : Nat) (va : Word) (n : Need) : (translateHub s c va n).1.Inv := by
  have hw := inv_walk h 0 c va.toNat
  simp only [translateHub]
  split
  · exact h
  · split
    · rename_i e; rw [e] at hw; exact hw
    · rename_i e; rw [e] at hw
      split
      · exact hw
      · split
        · exact hw
        · rename_i e2; exact inv_ensureFace hw _ _ _ _ e2

theorem inv_ownCheck {s : State} (h : s.Inv) (ag : Agent) (k : Nat) : (ownCheck s ag k).1.Inv := by
  simp only [ownCheck]; repeat' split
  all_goals exact h

theorem inv_reached {s : State} (h : s.Inv) (ag : Agent) (k : Nat) (n : Need) : (reached s ag k n).1.Inv := h

theorem inv_spFill {s : State} (h : s.Inv) (ag : Agent) (k : Nat) : (spFill s ag k).1.Inv := by
  simp only [spFill]
  split
  · exact h
  · rename_i e _
    split
    · exact h
    · have ht := inv_translate h (placeTile k) ag.ctx (BitVec.ofNat 64 (fieldOf e 0 40 * 65536 + (k % 2 ^ 20 / 128 * 128 - fieldOf e 58 4 * 65536))) .rd
      split
      · rename_i e; rw [e] at ht; exact ht
      · rename_i s1 p e; rw [e] at ht
        have ho := inv_ownCheck (s := s1) ht { ag with tile := placeTile k } p
        split
        · rename_i e; rw [e] at ho; exact ho
        · rename_i e; rw [e] at ho
          split
          · exact ho
          · split
            · exact ho
            · apply inv_modTile
              exact (inv_writeMem (inv_registerLine ho _ _) _ _).of_mem rfl

theorem inv_resolveAt {s : State} (h : s.Inv) (own : Bool) (ag : Agent) (ea : Word) (n al : Nat) (nd : Need) : (resolveAt own s ag ea n al nd).1.Inv := by
  have hs : ∀ k, (spFill s ag k).1.Inv := fun k => inv_spFill h _ k
  have ht := inv_translate h ag.tile ag.ctx ea nd
  simp only [resolveAt]
  split
  · exact h
  · split
    · exact h
    · split
      · exact h
      · split
        · exact h
        · have := hs ea.toNat
          split
          all_goals (rename_i e; rw [e] at this; exact this)
        · have := hs (scratchBase ag.tile + ea.toNat % 2 ^ 20)
          split
          all_goals (rename_i e; rw [e] at this; exact this)
        · split
          · rename_i e; rw [e] at ht; exact ht
          · rename_i s1 k e; rw [e] at ht
            have ho : (if own then ownCheck s1 ag k else (s1, .ok ())).1.Inv := by
              split
              · exact inv_ownCheck ht ag k
              · exact ht
            split
            all_goals (rename_i e2; rw [e2] at ho; exact ho)

theorem inv_resolve {s : State} (h : s.Inv) (ag : Agent) (ea : Word) (n al : Nat) (nd : Need) : (resolve s ag ea n al nd).1.Inv := inv_resolveAt h true ag ea n al nd

theorem inv_writeByte {s : State} (h : s.Inv) (ag : Agent) (k : Nat) (b : Byte) : (writeByte s ag k b).Inv := by
  unfold writeByte; repeat' split
  · exact inv_modThr h _ _
  · exact h
  · exact inv_storePlace h _ _ _ _ _

theorem inv_keepByte {s : State} (h : s.Inv) (ag : Agent) (va : Word) (b : Byte) : (keepByte s ag va b).Inv := by
  unfold keepByte; split
  · exact inv_modErrand h _ _ _
  · exact h

theorem inv_readByte {s : State} (h : s.Inv) (ag : Agent) (va : Word) : (readByte s ag va).1.Inv := by
  have hr := inv_resolve h ag va 1 1 .rd
  simp only [readByte]
  split
  · exact h
  · generalize resolve s ag va 1 1 .rd = q at hr ⊢
    obtain ⟨s1, _ | k⟩ := q
    · exact hr
    · have hr : s1.Inv := hr
      simp only
      repeat' split
      all_goals first | exact hr | exact inv_keepByte (inv_loadPlace hr _ _ _ _ _) _ _ _

theorem inv_readRange (ag : Agent) (n : Nat) : ∀ {s : State}, s.Inv → ∀ va, (readRange s ag va n).1.Inv := by
  induction n with
  | zero => exact fun h _ => h
  | succ n ih =>
    intro s h va
    have hr := inv_readByte h ag va
    simp only [readRange]
    generalize readByte s ag va = q at hr ⊢
    obtain ⟨s1, _ | b⟩ := q
    · exact hr
    · have := ih (s := s1) hr (va + 1)
      simp only
      split
      all_goals (rename_i e; rw [e] at this; exact this)

theorem inv_writeRange (ag : Agent) (bs : List Byte) : ∀ {s : State}, s.Inv → ∀ va, (writeRange s ag va bs).1.Inv := by
  induction bs with
  | nil => exact fun h _ => h
  | cons b r ih =>
    intro s h va
    have hr := inv_resolve h { ag with dev := true } va 1 1 .wr
    simp only [writeRange]
    generalize resolve s { ag with dev := true } va 1 1 .wr = q at hr ⊢
    obtain ⟨s1, _ | k⟩ := q
    · exact hr
    · simp only; split
      · exact hr
      · exact ih (inv_writeByte hr _ _ _) _

theorem inv_hubOwn {s : State} (h : s.Inv) (c k : Nat) : (hubOwn s c k).1.Inv := by
  have ho := inv_ownCheck h { tile := 512, ctx := c } k
  simp only [hubOwn]
  generalize ownCheck s { tile := 512, ctx := c } k = q at ho ⊢
  obtain ⟨s1, (_ | _) | _⟩ := q
  · exact ho
  · exact ho
  · have ho : s1.Inv := ho
    simp only; repeat' split
    all_goals exact ho

theorem inv_asks {s : State} (h : s.Inv) (t : State) : (asks s t).Inv := h

theorem inv_heldBack {s : State} {held f : State → State} (hh : ∀ t : State, (held (asks s t)).Inv) (hf : (f s).Inv) : (heldBack held f s).Inv := by
  simp only [heldBack]; split
  · exact hh _
  · exact hf

theorem inv_hubLine {s : State} (h : s.Inv) (c : Nat) (va : Word) (need : Need) : (hubLine s c va need).1.Inv := by
  have hr := inv_translateHub h c va need
  unfold hubLine
  generalize translateHub s c va need = q at hr ⊢
  obtain ⟨s1, _ | k⟩ := q
  · exact hr
  · have ho := inv_hubOwn (s := s1) hr c k
    simp only
    generalize hubOwn s1 c k = q at ho ⊢
    obtain ⟨s2, _ | u⟩ := q <;> exact ho

theorem inv_hubReadVa_go (c fuel : Nat) : ∀ {s : State}, s.Inv → ∀ va n, (hubReadVa.go c s va n fuel).1.Inv := by
  induction fuel with
  | zero => exact fun h _ _ => h
  | succ fuel ih =>
    intro s h va n
    have hl := inv_hubLine h c va .rd
    unfold hubReadVa.go
    split
    · exact h
    simp only
    generalize hubLine s c va .rd = q at hl ⊢
    obtain ⟨s1, _ | k⟩ := q
    · exact hl
    have := ih (inv_hubRead (s := s1) hl k (lineRest va n)) (va + BitVec.ofNat 64 (lineRest va n)) (n - lineRest va n)
    simp only
    repeat' split
    all_goals first | exact hl | (rename_i e; rw [e] at this; exact this)

theorem inv_hubReadVa (c n : Nat) {s : State} (h : s.Inv) (va : Word) : (hubReadVa s c va n).1.Inv := inv_hubReadVa_go c _ h va n

theorem inv_hubWriteVa_go (c fuel : Nat) : ∀ {s : State}, s.Inv → ∀ va bs, (hubWriteVa.go c s va bs fuel).1.Inv := by
  induction fuel with
  | zero => exact fun h _ _ => h
  | succ fuel ih =>
    intro s h va bs
    have hl := inv_hubLine h c va .wr
    unfold hubWriteVa.go
    split
    · exact h
    simp only
    generalize hubLine s c va .wr = q at hl ⊢
    obtain ⟨s1, _ | k⟩ := q
    · exact hl
    · exact ih (inv_hubWrite (s := s1) hl _ _) _ _

theorem inv_hubWriteVa (c : Nat) (bs : List Byte) {s : State} (h : s.Inv) (va : Word) : (hubWriteVa s c va bs).1.Inv := inv_hubWriteVa_go c _ h va bs

/-! ### Errands, ends, stops, traps -/

theorem inv_freeErrand {s : State} (h : s.Inv) (t k : Nat) : (s.freeErrand t k).Inv := h
theorem inv_reap {s : State} (h : s.Inv) (t k : Nat) : (reap s t k).Inv := by
  unfold reap; split <;> exact h
theorem inv_setErrand {s : State} (h : s.Inv) (t k : Nat) (e : Errand) : (s.setErrand t k e).Inv := h

theorem inv_unbindPort {s : State} (h : s.Inv) (t k : Nat) : (unbindPort s t k).Inv := h

theorem inv_finalize1 {s : State} (h : s.Inv) (t k : Nat) (st : EState) (c : BitVec 6) (sub : BitVec 8) (a : Word) : (finalize1 s t k st c sub a).Inv := by
  unfold finalize1
  split
  · exact h
  · split
    · exact h
    · rename_i e _ _
      have hu : (if e.op = 0x98 then unbindPort s t k else s).Inv := by
        split
        · exact inv_unbindPort h _ _
        · exact h
      dsimp only
      generalize (if e.op = 0x98 then unbindPort s t k else s) = s1 at hu ⊢
      split
      · exact inv_reap (inv_setErrand (inv_modTile (inv_writeMem hu _ _) _ _) _ _ _) _ _
      · exact inv_setErrand (inv_modTile (inv_writeMem hu _ _) _ _) _ _ _

theorem inv_failColl {s : State} (h : s.Inv) (t k : Nat) : (failColl s t k).Inv := by
  unfold failColl; repeat' split
  all_goals exact h

theorem inv_finalizeF (n : Nat) : ∀ {s : State}, s.Inv → ∀ t k st c sub a, (finalizeF s t k st c sub a n).Inv := by
  induction n with
  | zero => exact fun h t k st c sub a => inv_finalize1 h t k st c sub a
  | succ n ih =>
    intro s h t k st c sub a
    simp only [finalizeF]
    split
    · exact h
    · split
      · exact h
      · refine inv_foldl (fun s d h => by split <;> exact ih h _ _ _ _ _ _) _ _ (inv_finalize1 ?_ _ _ _ _ _ _)
        split
        · exact h
        · exact inv_failColl h _ _

theorem inv_checkKernel {s : State} (h : s.Inv) (k : Nat) : (checkKernel s k).Inv := by
  unfold checkKernel; repeat' split
  all_goals exact h

theorem inv_checkTileFree {s : State} (h : s.Inv) (t : Nat) : (checkTileFree s t).Inv := by
  unfold checkTileFree; repeat' split
  all_goals exact h

theorem inv_settleAll {s : State} (h : s.Inv) : (settleAll s).Inv :=
  inv_foldl (fun _ kk h => inv_checkKernel h kk.1) _ _ (inv_foldl (fun _ kt h => inv_checkTileFree h kt.1) _ s h)

theorem inv_finalize {s : State} (h : s.Inv) (t k : Nat) (st : EState) (c : BitVec 6) (sub : BitVec 8) (a : Word) : (finalize s t k st c sub a).Inv :=
  inv_settleAll (inv_finalizeF _ h t k st c sub a)

theorem inv_cancelErrand {s : State} (h : s.Inv) (t k : Nat) (c : BitVec 6) : (cancelErrand s t k c).1.Inv := by
  unfold cancelErrand
  split
  · exact h
  · split
    all_goals first | exact inv_finalize h _ _ _ _ _ _ | exact inv_modErrand h _ _ _ | exact h

theorem inv_syncHead {s : State} (h : s.Inv) (c i : Nat) : (syncHead s c i).Inv := by
  simp only [syncHead]; split
  · exact h
  · exact inv_writeMem h _ _

theorem inv_dropInst {s : State} (h : s.Inv) (i : Nat) : (dropInst s i).Inv := by
  unfold dropInst
  split
  · exact h
  · simp only
    split
    · apply inv_modTile; apply inv_modAct; exact h
    · apply inv_modAct; exact h

theorem inv_dropAct {s : State} (h : s.Inv) (n : Nat) : (dropAct s n).Inv := by
  unfold dropAct
  split
  · exact h
  · rename_i a _
    have hf : (a.insts.foldl dropInst s).Inv := inv_foldl (fun _ i h => inv_dropInst h i) _ s h
    apply inv_modCtx; exact hf

theorem inv_spWriteBack {s : State} (h : s.Inv) (t : Nat) (e : Word) : (spWriteBack s t e).Inv := inv_modTile (inv_spReleases h _) _ _

theorem inv_spReset {s : State} (h : s.Inv) (t : Nat) : (spReset s t).Inv := by
  unfold spReset
  apply inv_modTile; apply inv_foldl
  · intro s e h
    split
    · exact inv_spWriteBack h _ _
    · exact h
  · exact h

end Sys2Proof.Machine
end

