-- ==== Sys2Proof/Laws/FormEnds.lean ====
section
/-!
SUPPORT. The memory form through ends, stops, traps, the issue of a bundle and the firing of a block's instruction: each keeps it wherever the meaning does.
-/
namespace Sys2Proof.Machine
open Sys2Proof

/-! ### Groups, threads, fault domains -/

theorem inv_orphanErrands {s : State} (h : s.Inv) (k t : Nat) : (orphanErrands s k t).Inv := by
  unfold orphanErrands
  refine inv_foldl (fun s x h => ?_) _ s h
  split
  · split
    · exact inv_reap h _ _
    · exact inv_modErrand h _ _ _
  · exact h

theorem inv_freeEnded {s : State} (h : s.Inv) (t : Nat) : (freeEnded s t).Inv :=
  inv_foldl (fun s kt h => by split <;> exact h) _ s h

theorem inv_endGroup {s : State} (h : s.Inv) (t : Nat) : (endGroup s t).Inv := by
  unfold endGroup
  split
  · exact h
  · split
    · exact h
    · apply inv_checkKernel; apply inv_checkTileFree; apply inv_modKern; apply inv_orphanErrands
      exact inv_freeEnded (inv_modTile h _ _) t

theorem inv_checkGroupEnd {s : State} (h : s.Inv) (t : Nat) : (checkGroupEnd s t).Inv := by
  unfold checkGroupEnd
  split
  · exact h
  · split
    · exact h
    · split
      · exact h
      · simp only
        generalize hb : (if hdrGraph _ = true then _ else _ : Bool) = b
        cases b
        · exact inv_endGroup h t
        · exact h

theorem inv_leaveBars {s : State} (h : s.Inv) (k : Nat) : (leaveBars s k).Inv := inv_modTile h _ _
theorem inv_leaveSems {s : State} (h : s.Inv) (k : Nat) : (leaveSems s k).Inv := inv_modTile h _ _

theorem inv_dropAttached {s : State} (h : s.Inv) (k : Nat) : (dropAttached s k).Inv := by
  unfold dropAttached
  refine inv_foldl (fun s x h => ?_) _ s h
  split
  · exact h
  · split
    · exact h
    · split
      · exact inv_reap h _ _
      · exact inv_cancelErrand (inv_setErrand h _ _ _) _ _ _

theorem inv_dropWarnTo {s : State} (h : s.Inv) (k : Nat) : (dropWarnTo s k).Inv := h

theorem inv_endThread {s : State} (h : s.Inv) (k : Nat) : (endThread s k).Inv := by
  unfold endThread
  apply inv_checkKernel; apply inv_checkGroupEnd
  have hs : ∀ t : Thread, (leaveSems (dropWarnTo (dropAttached ((releaseDevice s (tileOf k)).setThr k t) k) k) k).Inv := fun t => by
    apply inv_leaveSems; apply inv_dropWarnTo; apply inv_dropAttached; exact inv_releaseDevice h (tileOf k)
  split
  · exact inv_leaveBars (hs _) _
  · exact hs _

theorem inv_stopThread {s : State} (h : s.Inv) (k : Nat) : (stopThread s k).Inv := by
  unfold stopThread; apply inv_leaveSems; exact inv_modThr h _ _

theorem inv_failKernel {s : State} (h : s.Inv) (k : Nat) (c : BitVec 6) : (failKernel s k c).Inv := by
  unfold failKernel
  split
  · exact h
  · split
    · exact h
    · refine inv_foldl (fun s t h => ?_) _ _ h
      split
      · split
        · apply inv_checkTileFree; apply inv_orphanErrands; apply inv_freeEnded; exact inv_modTile h _ _
        · exact h
      · exact h

theorem inv_stopSubtree {s : State} (h : s.Inv) (c i : Nat) (w : BitVec 6) : (stopSubtree s c i w).Inv := by
  unfold stopSubtree
  lift_lets
  intro ctx within s1 gone s2 s3 s4 s5 errs s6 s7 s8 s9 s10
  have h2 : s2.Inv := h
  have h3 : s3.Inv := inv_foldl (fun _ _ h => inv_syncHead h _ _) gone s2 h2
  have h4 : s4.Inv := inv_foldl (fun _ _ h => by split; exact inv_stopThread h _; exact h) _ s3 h3
  have h5 : s5.Inv := inv_foldl (fun _ _ h => by split; exact inv_dropAct h _; exact h) _ s4 h4
  have h6 : s6.Inv := inv_foldl (fun _ _ h => inv_modErrand h _ _ _) errs s5 h5
  have h7 : s7.Inv := inv_foldl (fun _ _ h => inv_cancelErrand h _ _ _) errs s6 h6
  have h8 : s8.Inv := inv_foldl (fun _ _ h => by split; exact inv_failKernel h _ _; exact h) _ s7 h7
  have h9 : s9.Inv := by
    simp only [s9]
    generalize (_ && decide ((s8.ctx c).st = CStat.running)) = b
    cases b
    · exact h8
    · exact h8
  have h10 : s10.Inv := inv_foldl (fun _ kt h => inv_checkGroupEnd h kt.1) s9.tiles s9 h9
  exact (inv_settleAll h10).of_mem rfl

theorem inv_allotStop {s : State} (h : s.Inv) (c i : Nat) (w : BitVec 6) : (allotStop s c i w).Inv := by
  unfold allotStop
  simp only
  split
  · exact h
  · exact inv_stopSubtree h _ _ _

/-! ### Traps and issue -/

theorem inv_takeTrap {s : State} (h : s.Inv) (k : Nat) (c : BitVec 6) (p a i : Word) : (takeTrap s k c p a i).Inv := by
  unfold takeTrap
  simp only
  split
  · exact inv_allotStop (inv_stopThread h k) _ _ _
  · split
    · exact inv_setThr h k _
    · exact inv_allotStop (inv_stopThread (inv_setThr h k _) k) _ _ _

theorem inv_returnTrap {s : State} (h : s.Inv) (k : Nat) : (returnTrap s k).Inv := by
  unfold returnTrap
  simp only
  split
  · exact inv_allotStop (inv_stopThread h k) _ _ _
  · exact h

theorem inv_takeFetchTrap {s : State} (h : s.Inv) (k : Nat) (c : BitVec 6) (a i : Word) : (takeFetchTrap s k c a i).Inv := by
  unfold takeFetchTrap; apply inv_takeTrap; exact inv_modThr h _ _

theorem inv_icacheKeep {s : State} (h : s.Inv) (t l : Nat) (d : BitVec 1024) : (icacheKeep s t l d).Inv := inv_modTile h _ _

theorem inv_codeBytes {s : State} (h : s.Inv) (t p n : Nat) : (codeBytes s t p n).1.Inv := by
  simp only [codeBytes]; repeat' split
  all_goals first | exact h | exact inv_icacheKeep (inv_hbmMoved h _) _ _ _

theorem inv_fetchC {s : State} (h : s.Inv) (t c : Nat) (pc : Word) : (fetchC s t c pc).1.Inv := by
  unfold fetchC
  split
  · exact h
  · have ht := inv_translateLeaf h t c pc .exC
    generalize translateLeaf s t c pc .exC = q at ht ⊢
    obtain ⟨s1, _ | ⟨l, p⟩⟩ := q
    · simp only; split <;> exact ht
    · have ht : s1.Inv := ht
      have hc := inv_codeBytes ht t p 16
      simp only
      generalize codeBytes s1 t p 16 = r at hc ⊢
      generalize decodeC _ = d
      repeat' split
      all_goals first | exact ht | exact hc
  · exact h

/-- The state that an answer carries. -/
def BRes.state : BRes → State
  | .ok s _ | .jump s _ | .trap s _ _ _ | .after s _ _ | .wait s | .stop s | .held s _ => s

theorem inv_settle {r : BRes} (h : r.state.Inv) (k : Nat) (f : CForm) (w : BitVec 16) (pc : Word) (tk : Option Nat) : (settle k f w pc tk r).Inv := by
  cases r with
  | ok s l =>
    have h : s.Inv := h
    cases l
    · exact h
    · exact h
  | jump s p => have h : s.Inv := h; exact h
  | trap s c a i => apply inv_takeTrap; have h : s.Inv := h; exact h
  | after s c i => apply inv_takeTrap; have h : s.Inv := h; exact h
  | wait s => exact h
  | stop s => have h : s.Inv := h; exact h
  | held s r => have h : s.Inv := h; exact h

theorem inv_issued {s : State} (h : s.Inv) (k : Nat) (f : CForm) (w : BitVec 16) (pc : Word) : (issued s k f w pc).Inv := h

theorem inv_poisTrap {s : State} (h : s.Inv) (p : PoisonInfo) : (poisTrap s p).state.Inv := h

/-- A bundle keeps the form where its meaning does. -/
theorem inv_runC {s : State} (h : s.Inv) (opc : Nat) (f : CForm) {body : CEnv → State → BRes} (hb : (body (cenv opc f s) s).state.Inv) :
    (runC opc f s body).Inv := by
  unfold runC
  simp only
  repeat' split
  all_goals first
    | with_reducible exact h
    | with_reducible exact inv_takeFetchTrap h _ _ _ _
    | with_reducible exact inv_settle hb _ _ _ _ _
    | with_reducible exact inv_settle (inv_poisTrap h _) _ _ _ _ _
    | exact inv_issued h _ _ _ _
    | exact inv_settle (r := .trap s _ _ _) h _ _ _ _ _

/-! ### Firing -/

theorem inv_modInst {s : State} (h : s.Inv) (k : Nat) (f : Inst → Inst) : (s.modInst k f).Inv := by
  unfold State.modInst; split <;> exact h

theorem inv_sendTo {s : State} (h : s.Inv) (i : Nat) (ts : List (Nat × Nat)) (k : Token) : (sendTo s i ts k).Inv := h

theorem inv_fireNode {s : State} (h : s.Inv) (opc : Nat) (f : GForm) (n : Inst) (i ix : Nat) (d : Bool) : (fireNode opc f n i ix s d).Inv := by
  unfold fireNode; exact inv_modInst h _ _

theorem inv_faultInst {s : State} (h : s.Inv) (i : Nat) (fl : GFault) : (faultInst s i fl).Inv := inv_modInst h _ _

theorem inv_readStatus {s : State} (h : s.Inv) (a : Act) : (readStatus s a).1.Inv := by
  have hr := inv_readRange { tile := a.tile, ctx := a.ctx } 8 h (a.frame + 24)
  unfold readStatus
  split
  all_goals (rename_i e; rw [e] at hr; exact hr)

theorem inv_writeStatus {s : State} (h : s.Inv) (a : Act) (v : Nat) : (writeStatus s a v).Inv := inv_writeRange _ _ h _

theorem inv_noteStatus {s : State} (h : s.Inv) (a : Act) (fl : BitVec 13) (w : BitVec 16) : (noteStatus s a fl w).1.Inv := by
  unfold noteStatus
  simp only
  split
  · exact inv_readStatus h a
  · exact inv_writeStatus (inv_readStatus h a) a _

/-- The state that a block instruction's answer carries. -/
def GRes.state : GRes → State
  | .send s _ | .emit s _ _ | .quiet s | .hold s | .fault s _ _ | .wait s => s

theorem inv_sendFit {s t : State} (h : s.Inv) (ht : t.Inv) (i : Nat) : (sendFit s i t).Inv := by
  unfold sendFit; split
  · exact ht
  · exact h

theorem inv_settleG {s : State} (h0 : s.Inv) {r : GRes} (h : r.state.Inv) (opc : Nat) (f : GForm) (n : Inst) (i ix : Nat) : (settleG opc f n i ix s r).Inv := by
  cases r with
  | send s v => exact inv_sendFit h0 (inv_sendTo (inv_fireNode h _ _ _ _ _ _) _ _ _) _
  | emit s ts k => exact inv_sendFit h0 (inv_sendTo (inv_fireNode h _ _ _ _ _ _) _ _ _) _
  | quiet s => exact inv_fireNode h _ _ _ _ _ _
  | hold s => exact inv_fireNode h _ _ _ _ _ _
  | wait s => exact h
  | fault s c a => exact inv_faultInst h _ _

/-- A block's instruction keeps the form where its meaning does. -/
theorem inv_runG {s : State} (h : s.Inv) (opc : Nat) (f : GForm) {body : GEnv → State → GRes} (hb : ∀ e, (body e s).state.Inv) : (runG opc f s body).Inv := by
  unfold runG
  simp only
  repeat' split
  all_goals first
    | with_reducible exact h
    | with_reducible exact inv_settleG h (hb _) _ _ _ _ _
    | with_reducible exact inv_sendFit h (inv_sendTo (inv_fireNode h _ _ _ _ _ _) _ _ _) _

end Sys2Proof.Machine
end

