-- ==== Sys2Proof/Laws/Issue.lean ====
section
/-!
SUPPORT. What issuing a bundle and firing a block's instruction can do, said once: the meaning runs and is settled, or the bundle does not issue.
-/
namespace Sys2Proof.Machine
open Sys2Proof

theorem any_false_of {α : Type} {l : List α} {p : α → Bool} (h : ∀ x ∈ l, p x = false) : l.any p = false := by
  simpa [List.any_eq_false] using h

/-- A bundle that issues runs its meaning, which is then settled. -/
theorem runC_issues {opc : Nat} {f : CForm} {s : State} (h : Issues opc f s) (body : CEnv → State → BRes) :
    runC opc f s body = settle s.curThread f (decodeWarn opc f) s.curPc (ticketOf f) (body (cenv opc f s) s) := by
  have hrun : (s.thr s.curThread).running = true := h.running
  have hcnt : beyondAny opc f (s.thr s.curThread) = false := h.counts
  have hneed : ((List.range 8).any fun n => f.need.getLsbD n && decide (getV (s.thr s.curThread).tickets 0 n ≠ 0)) = false := by
    apply any_false_of
    intro n hn
    have := h.need n (List.mem_range.1 hn)
    cases hb : f.need.getLsbD n
    · rfl
    · have h2 : getV (s.thr s.curThread).tickets 0 n = 0 := this hb
      simp [h2]
  have hwarn : (decide (decodeWarn opc f ≠ 0) && (s.thr s.curThread).traps.getLsbD 33) = false := by
    rcases h.warn with hw | hw
    · simp [hw]
    · have : (s.thr s.curThread).traps.getLsbD 33 = false := hw
      rw [this, Bool.and_false]
  have hguard : (!maskedOpc opc f && !guardOf (s.thr s.curThread) f) = false := by
    rcases h.guard with hg | hg
    · simp [hg]
    · have : guardOf (s.thr s.curThread) f = true := hg
      simp [this]
  have htick : ticketFull (s.thr s.curThread) f = false := by
    unfold ticketFull
    cases ht : ticketOf f with
    | none => rfl
    | some n =>
      have : getV (s.thr s.curThread).tickets 0 n < 63 := h.ticket n ht
      simp only [decide_eq_false_iff_not]; omega
  have hdest : emptyReg (s.thr s.curThread) (regIx (useOf opc f).d f.d) = false := h.dest
  have hfull : (srcsOf opc f).any (fun x => emptyReg (s.thr s.curThread) x.1 && !x.2.1) = false :=
    any_false_of fun x hx => by
      have : emptyReg (s.thr s.curThread) x.1 = false := h.full x hx
      simp [this]
  have hfind : (srcsOf opc f).find? (fun x => emptyReg (s.thr s.curThread) x.1) = none := by
    rw [List.find?_eq_none]; intro x hx
    have : emptyReg (s.thr s.curThread) x.1 = false := h.full x hx
    simp [this]
  have hpois : firstPoison (s.thr s.curThread) (readsOf opc f) = none := by
    rw [firstPoison, List.findSome?_eq_none_iff]; intro r hr
    cases r with
    | none => rfl
    | some i => exact h.clean i hr
  unfold runC
  have hfree : behindHeld (s.thr s.curThread) opc = false := h.free
  simp only [hrun, hcnt, h.unit, hneed, hwarn, hguard, htick, hfree, hdest, hfull, hfind, hpois, Bool.not_true, Bool.false_eq_true, if_false, Bool.or_self]
  rfl

/-- A completed bundle. -/
theorem settle_ok (opc : Nat) (f : CForm) (s s1 : State) (late : Bool) :
    settle s.curThread f (decodeWarn opc f) s.curPc (ticketOf f) (.ok s1 late) = completed opc f s s1 late := by
  cases late <;> cases h : ticketOf f <;> simp [settle, completed, finished, issued, Thread.takeTicket, h]

theorem settle_jump (opc : Nat) (f : CForm) (s s1 : State) (pc : Word) :
    settle s.curThread f (decodeWarn opc f) s.curPc (ticketOf f) (.jump s1 pc) = finished opc f s s1 false pc := by
  simp [settle, finished, issued]

/-- The meaning completed. -/
theorem runC_ok {opc : Nat} {f : CForm} {s s1 : State} {late : Bool} {body : CEnv → State → BRes} (h : Issues opc f s)
    (hb : body (cenv opc f s) s = .ok s1 late) : runC opc f s body = completed opc f s s1 late := by
  rw [runC_issues h, hb, settle_ok]

theorem runC_jump {opc : Nat} {f : CForm} {s s1 : State} {pc : Word} {body : CEnv → State → BRes} (h : Issues opc f s)
    (hb : body (cenv opc f s) s = .jump s1 pc) : runC opc f s body = finished opc f s s1 false pc := by
  rw [runC_issues h, hb, settle_jump]

/-- No enabled exception flag: the flags are noted and the meaning goes on. -/
theorem raiseC_go {e : CEnv} {s : State} {fl : BitVec 13} {go : State → BRes}
    (h : fl.extractLsb' 0 5 &&& (s.thr e.k).fstat.extractLsb' 8 5 = 0) :
    raiseC e s fl go = go (s.modThr e.k fun t => { t with fstat := t.fstat ||| fl }) := by
  simp [raiseC, h]

@[simp] theorem addWarn_zero_fstat (s : State) (k : Nat) (w : BitVec 16) : ((addWarn s k w).thr k).fstat = (s.thr k).fstat := by simp [addWarn]
@[simp] theorem cenv_k (opc : Nat) (f : CForm) (s : State) : (cenv opc f s).k = s.curThread := rfl
@[simp] theorem cenv_f (opc : Nat) (f : CForm) (s : State) : (cenv opc f s).f = f := rfl
@[simp] theorem cenv_pc (opc : Nat) (f : CForm) (s : State) : (cenv opc f s).pc = s.curPc := rfl
@[simp] theorem cenv_ticket (opc : Nat) (f : CForm) (s : State) : (cenv opc f s).ticket = ticketOf f := rfl
@[simp] theorem cenv_tile (opc : Nat) (f : CForm) (s : State) : (cenv opc f s).tile = tileOf s.curThread := rfl
@[simp] theorem cenv_ctx (opc : Nat) (f : CForm) (s : State) : (cenv opc f s).ctx = s.cur.ctx := rfl

/-- A graph instruction that fires runs its meaning, which is then settled. -/
theorem runG_fires {opc : Nat} {f : GForm} {s : State} {n : Inst} {a : Act} (h : Fires opc f s n a) (body : GEnv → State → GRes) :
    runG opc f s body = settleG opc f n s.curNode.1 s.curNode.2 s (body (fireEnv f s n a) s) := by
  have htoks : (neededToks n s.curNode.2 f).any (·.isNone) = false := any_false_of fun x hx => by
    have := h.toks x hx; cases x <;> simp_all
  have honce : (n.fired.getLsbD s.curNode.2 && !isStrm n s.curNode.2 f) = false := by
    rcases h.once with ho | ho <;> simp [ho]
  have hroom : (isStrm n s.curNode.2 f && (allTargets opc f).any fun t => !hasRoom s s.curNode.1 n t) = false := by
    cases hs : isStrm n s.curNode.2 f
    · rfl
    · simp only [Bool.true_and]; exact any_false_of fun t ht => by simp [h.room hs t ht]
  have hnull : (anyNull n s.curNode.2 f && decide (nullAct opc ≠ .own)) = false := by
    rcases h.nulls with ho | ho <;> simp [ho]
  unfold runG
  simp only [h.inst, h.act, h.live, htoks, honce, hroom, h.hit, hnull, Bool.not_true, Bool.false_eq_true, if_false]
  rfl

theorem runG_send {opc : Nat} {f : GForm} {s s1 : State} {n : Inst} {a : Act} {v : Word} {body : GEnv → State → GRes} (h : Fires opc f s n a)
    (hb : body (fireEnv f s n a) s = .send s1 v) : runG opc f s body = sent opc f s s1 n v := by
  rw [runG_fires h, hb]; rfl

theorem runG_quiet {opc : Nat} {f : GForm} {s s1 : State} {n : Inst} {a : Act} {body : GEnv → State → GRes} (h : Fires opc f s n a)
    (hb : body (fireEnv f s n a) s = .quiet s1) : runG opc f s body = silent opc f s s1 n := by
  rw [runG_fires h, hb]; rfl

end Sys2Proof.Machine
end

