-- ==== Sys2Proof/Laws/PerInstr.lean ====
section
/-!
SUPPORT. Per instruction: a well-formed instruction has a form that is legal under its opcode, and its opcode and form name it again.
-/
namespace Sys2Proof.Laws.WfParts
open Sys2Proof

/-- A well-formed instruction is what its own opcode and fields name, and they are legal together. -/
def Statement (i : Instr) : Prop :=
  i.wf = true →
    (∀ opc f, i.parts = some (opc, .c f) → legalC opc.toNat f = true ∧ mkC opc.toNat f = some i) ∧
    (∀ opc f, i.parts = some (opc, .g f) → legalG opc.toNat f = true ∧ mkG opc.toNat f = some i)

theorem holds (i : Instr) : Statement i := fun h => by
  refine ⟨fun opc f hp => ?_, fun opc f hp => ?_⟩ <;> simpa [Instr.wf, hp] using h

theorem nop a : Statement (.nop a) := holds _
theorem add a : Statement (.add a) := holds _
theorem sub a : Statement (.sub a) := holds _
theorem mul a : Statement (.mul a) := holds _
theorem mulh a : Statement (.mulh a) := holds _
theorem div a : Statement (.div a) := holds _
theorem rem a : Statement (.rem a) := holds _
theorem madd a : Statement (.madd a) := holds _
theorem and a : Statement (.and a) := holds _
theorem or a : Statement (.or a) := holds _
theorem xor a : Statement (.xor a) := holds _
theorem andn a : Statement (.andn a) := holds _
theorem shl a : Statement (.shl a) := holds _
theorem shr a : Statement (.shr a) := holds _
theorem rot a : Statement (.rot a) := holds _
theorem min a : Statement (.min a) := holds _
theorem max a : Statement (.max a) := holds _
theorem cmp a : Statement (.cmp a) := holds _
theorem sel a : Statement (.sel a) := holds _
theorem clz a : Statement (.clz a) := holds _
theorem popc a : Statement (.popc a) := holds _
theorem brev a : Statement (.brev a) := holds _
theorem bfx a : Statement (.bfx a) := holds _
theorem bfi a : Statement (.bfi a) := holds _
theorem sext a : Statement (.sext a) := holds _
theorem zext a : Statement (.zext a) := holds _
theorem mov a : Statement (.mov a) := holds _
theorem li a : Statement (.li a) := holds _
theorem lih a : Statement (.lih a) := holds _
theorem adr a : Statement (.adr a) := holds _
theorem abs a : Statement (.abs a) := holds _
theorem fadd a : Statement (.fadd a) := holds _
theorem fsub a : Statement (.fsub a) := holds _
theorem fmul a : Statement (.fmul a) := holds _
theorem fma a : Statement (.fma a) := holds _
theorem fmin a : Statement (.fmin a) := holds _
theorem fmax a : Statement (.fmax a) := holds _
theorem fcmp a : Statement (.fcmp a) := holds _
theorem fsgn a : Statement (.fsgn a) := holds _
theorem fcvt a : Statement (.fcvt a) := holds _
theorem fcls a : Statement (.fcls a) := holds _
theorem frnd a : Statement (.frnd a) := holds _
theorem fdiv a : Statement (.fdiv a) := holds _
theorem fsqrt a : Statement (.fsqrt a) := holds _
theorem frcp a : Statement (.frcp a) := holds _
theorem frsq a : Statement (.frsq a) := holds _
theorem fex2 a : Statement (.fex2 a) := holds _
theorem flg2 a : Statement (.flg2 a) := holds _
theorem fsin a : Statement (.fsin a) := holds _
theorem fcos a : Statement (.fcos a) := holds _
theorem ftanh a : Statement (.ftanh a) := holds _
theorem fsigm a : Statement (.fsigm a) := holds _
theorem fgelu a : Statement (.fgelu a) := holds _
theorem fsilu a : Statement (.fsilu a) := holds _
theorem vbcast a : Statement (.vbcast a) := holds _
theorem vperm a : Statement (.vperm a) := holds _
theorem vred a : Statement (.vred a) := holds _
theorem vscan a : Statement (.vscan a) := holds _
theorem vcmp a : Statement (.vcmp a) := holds _
theorem vmerge a : Statement (.vmerge a) := holds _
theorem vcomp a : Statement (.vcomp a) := holds _
theorem vspread a : Statement (.vspread a) := holds _
theorem vlane a : Statement (.vlane a) := holds _
theorem vins a : Statement (.vins a) := holds _
theorem vext a : Statement (.vext a) := holds _
theorem mlog a : Statement (.mlog a) := holds _
theorem mpop a : Statement (.mpop a) := holds _
theorem mfirst a : Statement (.mfirst a) := holds _
theorem vnarrow a : Statement (.vnarrow a) := holds _
theorem vwiden a : Statement (.vwiden a) := holds _
theorem vdot a : Statement (.vdot a) := holds _
theorem vrev a : Statement (.vrev a) := holds _
theorem vrot a : Statement (.vrot a) := holds _
theorem ld a : Statement (.ld a) := holds _
theorem st a : Statement (.st a) := holds _
theorem prf a : Statement (.prf a) := holds _
theorem vld a : Statement (.vld a) := holds _
theorem vst a : Statement (.vst a) := holds _
theorem vgat a : Statement (.vgat a) := holds _
theorem vsct a : Statement (.vsct a) := holds _
theorem vlds a : Statement (.vlds a) := holds _
theorem vsts a : Statement (.vsts a) := holds _
theorem cwb a : Statement (.cwb a) := holds _
theorem cinv a : Statement (.cinv a) := holds _
theorem amo a : Statement (.amo a) := holds _
theorem cas a : Statement (.cas a) := holds _
theorem fence a : Statement (.fence a) := holds _
theorem pub a : Statement (.pub a) := holds _
theorem synPost a : Statement (.synPost a) := holds _
theorem synRead a : Statement (.synRead a) := holds _
theorem synWait a : Statement (.synWait a) := holds _
theorem ctrAdd a : Statement (.ctrAdd a) := holds _
theorem ctrWait a : Statement (.ctrWait a) := holds _
theorem semSig a : Statement (.semSig a) := holds _
theorem semWait a : Statement (.semWait a) := holds _
theorem barArr a : Statement (.barArr a) := holds _
theorem barWait a : Statement (.barWait a) := holds _
theorem gbarArr a : Statement (.gbarArr a) := holds _
theorem gbarWait a : Statement (.gbarWait a) := holds _
theorem cmodeCoh a : Statement (.cmodeCoh a) := holds _
theorem cmodeSoft a : Statement (.cmodeSoft a) := holds _
theorem tfence a : Statement (.tfence a) := holds _
theorem br a : Statement (.br a) := holds _
theorem jmp a : Statement (.jmp a) := holds _
theorem jmpr a : Statement (.jmpr a) := holds _
theorem call a : Statement (.call a) := holds _
theorem callr a : Statement (.callr a) := holds _
theorem ret a : Statement (.ret a) := holds _
theorem exit a : Statement (.exit a) := holds _
theorem steer a : Statement (.steer a) := holds _
theorem fan a : Statement (.fan a) := holds _
theorem null a : Statement (.null a) := holds _
theorem gate a : Statement (.gate a) := holds _
theorem fwr a : Statement (.fwr a) := holds _
theorem acc a : Statement (.acc a) := holds _
theorem merge a : Statement (.merge a) := holds _
theorem mm a : Statement (.mm a) := holds _
theorem mmb a : Statement (.mmb a) := holds _
theorem rstep a : Statement (.rstep a) := holds _
theorem cp a : Statement (.cp a) := holds _
theorem gath a : Statement (.gath a) := holds _
theorem cps a : Statement (.cps a) := holds _
theorem slotFree a : Statement (.slotFree a) := holds _
theorem coll a : Statement (.coll a) := holds _
theorem sbind a : Statement (.sbind a) := holds _
theorem sbar a : Statement (.sbar a) := holds _
theorem eWait a : Statement (.eWait a) := holds _
theorem eTest a : Statement (.eTest a) := holds _
theorem eCancel a : Statement (.eCancel a) := holds _
theorem eDetach a : Statement (.eDetach a) := holds _
theorem eAdopt a : Statement (.eAdopt a) := holds _
theorem ePrio a : Statement (.ePrio a) := holds _
theorem eFault a : Statement (.eFault a) := holds _
theorem ctxStart a : Statement (.ctxStart a) := holds _
theorem ctxReap a : Statement (.ctxReap a) := holds _
theorem getsr a : Statement (.getsr a) := holds _
theorem setsr a : Statement (.setsr a) := holds _
theorem yield a : Statement (.yield a) := holds _
theorem halt a : Statement (.halt a) := holds _
theorem trap a : Statement (.trap a) := holds _
theorem brk a : Statement (.brk a) := holds _
theorem taskPost a : Statement (.taskPost a) := holds _
theorem chanBlk a : Statement (.chanBlk a) := holds _
theorem meas a : Statement (.meas a) := holds _
theorem eret a : Statement (.eret a) := holds _
theorem taskCancel a : Statement (.taskCancel a) := holds _
theorem fetchTrap a : Statement (.fetchTrap a) := holds _
theorem longLatencyFill a b : Statement (.longLatencyFill a b) := holds _
theorem storeAccept a b : Statement (.storeAccept a b) := holds _
theorem errorReply a b c : Statement (.errorReply a b c) := holds _
theorem crossCallReturn a : Statement (.crossCallReturn a) := holds _
theorem linePoisoning a : Statement (.linePoisoning a) := holds _
theorem blockLoad a : Statement (.blockLoad a) := holds _
theorem instanceStart a : Statement (.instanceStart a) := holds _
theorem tokenArrival a : Statement (.tokenArrival a) := holds _
theorem instanceQuiescent a : Statement (.instanceQuiescent a) := holds _
theorem instanceCommit a : Statement (.instanceCommit a) := holds _
theorem instanceTimeout a : Statement (.instanceTimeout a) := holds _
theorem graphFaultTaken a : Statement (.graphFaultTaken a) := holds _
theorem graphHandlerStart a : Statement (.graphHandlerStart a) := holds _
theorem graphCallReturn a : Statement (.graphCallReturn a) := holds _
theorem streamPortEmit a b : Statement (.streamPortEmit a b) := holds _
theorem portFetchFault a b : Statement (.portFetchFault a b) := holds _
theorem errandQueued a b : Statement (.errandQueued a b) := holds _
theorem errandStart a b : Statement (.errandStart a b) := holds _
theorem errandPreemptionPoint a b : Statement (.errandPreemptionPoint a b) := holds _
theorem errandResume a b : Statement (.errandResume a b) := holds _
theorem errandChunkDone a b : Statement (.errandChunkDone a b) := holds _
theorem errandPublish a b : Statement (.errandPublish a b) := holds _
theorem operandFetchFault a b : Statement (.operandFetchFault a b) := holds _
theorem fetchReplay a b : Statement (.fetchReplay a b) := holds _
theorem replayTimeout a b : Statement (.replayTimeout a b) := holds _
theorem groupPlacement : Statement .groupPlacement := holds _
theorem groupStart a : Statement (.groupStart a) := holds _
theorem launchStarvation a : Statement (.launchStarvation a) := holds _
theorem taskDispatch a : Statement (.taskDispatch a) := holds _
theorem kernelCompletion a : Statement (.kernelCompletion a) := holds _
theorem preemptRequest a : Statement (.preemptRequest a) := holds _
theorem saveComplete a : Statement (.saveComplete a) := holds _
theorem groupEviction a : Statement (.groupEviction a) := holds _
theorem restoreRequest a b c : Statement (.restoreRequest a b c) := holds _
theorem restoreComplete a : Statement (.restoreComplete a) := holds _
theorem budgetPeriod : Statement .budgetPeriod := holds _
theorem headroomUpdate a b c d : Statement (.headroomUpdate a b c d) := holds _
theorem bellSlot a : Statement (.bellSlot a) := holds _
theorem thermalSample a b c : Statement (.thermalSample a b c) := holds _
theorem thermalTrip a : Statement (.thermalTrip a) := holds _
theorem coldReset : Statement .coldReset := holds _
theorem selfCheckTimeout : Statement .selfCheckTimeout := holds _
theorem imageReady : Statement .imageReady := holds _
theorem dieAdmit a : Statement (.dieAdmit a) := holds _
theorem fwcmdStore : Statement .fwcmdStore := holds _
theorem fwcmdHandover : Statement .fwcmdHandover := holds _
theorem fwcmdStoreHandover : Statement .fwcmdStoreHandover := holds _
theorem handoverCommit : Statement .handoverCommit := holds _
theorem receiptSigned : Statement .receiptSigned := holds _
theorem create a b : Statement (.create a b) := holds _
theorem destroy a : Statement (.destroy a) := holds _
theorem teardownComplete a : Statement (.teardownComplete a) := holds _
theorem allot a b : Statement (.allot a b) := holds _
theorem load a : Statement (.load a) := holds _
theorem launch a : Statement (.launch a) := holds _
theorem copy a : Statement (.copy a) := holds _
theorem receipt a : Statement (.receipt a) := holds _
theorem barrier a : Statement (.barrier a) := holds _
theorem signal a : Statement (.signal a) := holds _
theorem preempt a : Statement (.preempt a) := holds _
theorem restore a : Statement (.restore a) := holds _
theorem grouptab a : Statement (.grouptab a) := holds _
theorem peertab a : Statement (.peertab a) := holds _
theorem badkind a : Statement (.badkind a) := holds _
theorem completionEntryWrite a : Statement (.completionEntryWrite a) := holds _
theorem qcfg a b : Statement (.qcfg a b) := holds _
theorem qtail a b : Statement (.qtail a b) := holds _
theorem chead a b : Statement (.chead a b) := holds _
theorem ringerr a b : Statement (.ringerr a b) := holds _
theorem plimit a : Statement (.plimit a) := holds _
theorem dierst a : Statement (.dierst a) := holds _
theorem dieReset a : Statement (.dieReset a) := holds _
theorem dieReadmit a : Statement (.dieReadmit a) := holds _
theorem quiesce a : Statement (.quiesce a) := holds _
theorem resume a : Statement (.resume a) := holds _
theorem retrain a : Statement (.retrain a) := holds _
theorem lerr a : Statement (.lerr a) := holds _
theorem pw2err a : Statement (.pw2err a) := holds _
theorem lmax a b : Statement (.lmax a b) := holds _
theorem mapseq a b : Statement (.mapseq a b) := holds _
theorem mapdoneAdvance a : Statement (.mapdoneAdvance a) := holds _
theorem registerWrite a b c : Statement (.registerWrite a b c) := holds _
theorem hostPw2Read a b c : Statement (.hostPw2Read a b c) := holds _
theorem hostPw2Write a b c : Statement (.hostPw2Write a b c) := holds _
theorem functionLevelReset a : Statement (.functionLevelReset a) := holds _
theorem linkTrained a b c : Statement (.linkTrained a b c) := holds _
theorem trainingFailure a : Statement (.trainingFailure a) := holds _
theorem linkQuiesced a : Statement (.linkQuiesced a) := holds _
theorem retrainComplete a : Statement (.retrainComplete a) := holds _
theorem retrainTimeout a : Statement (.retrainTimeout a) := holds _
theorem flitReceive a b c : Statement (.flitReceive a b c) := holds _
theorem ackTimeout a : Statement (.ackTimeout a) := holds _
theorem laneLockLoss a : Statement (.laneLockLoss a) := holds _
theorem ownershipRequest a b c : Statement (.ownershipRequest a b c) := holds _
theorem ownershipTransfer a b c d : Statement (.ownershipTransfer a b c d) := holds _
theorem ownerUnreachable a : Statement (.ownerUnreachable a) := holds _
theorem walkComplete a : Statement (.walkComplete a) := holds _
theorem walkInstallTimeout a : Statement (.walkInstallTimeout a) := holds _
theorem leaseExpiry a b : Statement (.leaseExpiry a b) := holds _
theorem powerLoss : Statement .powerLoss := holds _
theorem lineEviction a b : Statement (.lineEviction a b) := holds _
theorem correctedError a : Statement (.correctedError a) := holds _
theorem dieFatalError a : Statement (.dieFatalError a) := holds _
theorem homeMove a : Statement (.homeMove a) := holds _
theorem selfCheckComplete a : Statement (.selfCheckComplete a) := holds _

end Sys2Proof.Laws.WfParts
end

