-- ==== Sys2Proof/Tests/Slice0.lean ====
section
/-!
SUPPORT. Tests of the model: words written out from the spec's encodings, ill-formed terms that the checks refuse, single steps on small states, and for
every statement of the first slice a state and operands that meet its hypotheses.
-/
namespace Sys2Proof.Tests
open Sys2Proof Sys2Proof.Machine Sys2Proof.Claims
open Host (Outcome)
set_option Elab.async false

/-! ### Small states -/

/-- A kernel header (Table 06-6): 64 `x` and 32 `v` registers; ROLES for work cores, stage cores, workers and leads and one plane; WCTX 4, SCTX 2; every
cause delivered; HANDLER 0x100. -/
def hdr0 : BitVec 512 := BitVec.ofNat 512 (64 * 2 ^ 48 + 32 * 2 ^ 56 + 0x1F * 2 ^ 96 + 4 * 2 ^ 112 + 2 * 2 ^ 120 + (2 ^ 28 - 1) * 2 ^ 128 + 0x100 * 2 ^ 192)

/-- A running launch of one group on tile 0. -/
def kern0 : Kernel :=
  { st := .running, ctx := 9, hdrAddr := 0x10000, hdr := hdr0, argAddr := 0, argLen := 0, allot := 0, groups := 1, dies := 1, bufs := [], shape := 0, gp := 0
    places := [], queue := 0, pkt := 0, tag := 5, notify := true, tiles := [0], live := [0], since := 0, starve := false, cause := 0
    gbars := Vector.replicate 4 { gen := 0, arrived := [] }, root := none, written := false }

def allot0 : Allot :=
  { parent := none, hbm := 0, mirfer := 0, ecyc := 1000, energy := 1000, slots := 64, prio := 3, flags := 0, taskq := 0
    mHbm := 0, mMirfer := 0, mEcyc := 0, mEnergy := 0, mSlots := 0, stopped := false }

def ctx9 : Ctx := { Ctx.reset with st := .running, ptRoot := 0x30000, logBase := 0x40060000, logL := 4, allots := [(0, allot0)] }

def group0 : Group := { kernel := 7, rank := 0, stat := .live, resid := .resident, restoreReq := false, preemptReq := false }

def tile0 : Tile := { Tile.reset with group := some group0, spOwner := 9, vault := 9 }

/-- The lead of the group on context 0 of tile 0: `x5` = 5, `x6` = 6, `x10` an address of W0, `x11` one of W3, `x12` a shift. -/
def thread0 : Thread :=
  { Thread.reset with
    stat := .live, ctx := 9, kernel := 7, traps := 0xFFFFFFF, tvec := 0x10100, pc := 0x10000, stackBase := 0x40040000
    x := #v[0, 0x10040, 0x40048000, 0, 0, 5, 6, 0, 0, 0, 0x40050000, 0xFF00000000001000, 3, 0xFFFFFFFFFFFFFFFB, 0, 0, 0, 0, 0, 0, 0, 0, 0, 0, 0, 0, 0, 0, 0, 0, 0, 0, 0, 0, 0, 0, 0, 0, 0, 0, 0, 0, 0, 0, 0, 0, 0, 0, 0, 0, 0, 0, 0, 0, 0, 0, 0, 0, 0, 0, 0, 0, 0, 0] }

/-- A graph word's fields without targets. -/
def gm (nopnd : BitVec 2) (md : BitVec 6) (imm : BitVec 48) : GForm :=
  { nopnd := nopnd, pmode := 0, urg := 0, t0 := 0, t1 := 0, lsid := 0, md := md, imm := imm, place := 0, rsv := 0 }

/-- A device in service with that kernel, the context's second GiB mapped for reads and writes, the third as code of the fabric with a block of one
`exit`, the fourth as twins of 4 KiB, and a word that the thread fetches next. -/
def base : State :=
  { State.reset with
    dev := { State.reset.dev with service := 3, dieup := 0xF, headroom := Vector.replicate 4 { head := 400000, epoch := 0 } }, links := Vector.replicate 21 { Link.reset with st := .up }
    ctxs := [(9, ctx9)], kernels := [(7, kern0)], mem := Memory.writeN (Memory.writeN [] 0x20008 (bytesOf 8 (0x400000B1 : Word) ++ bytesOf 8 (0x00100000800000D1 : Word) ++ bytesOf 8 (0x0C200000C00000B1 : Word))) 0x80000000
      (bytesOf 16 (10 : IWord) ++ bytesOf 16 (11 : IWord) ++ bytesOf 16 (GForm.word (gm 0 0 0) 0x86)), tiles := [(0, tile0)], threads := [(0, thread0)] }
def withWord (w : IWord) : State := placeC base w
def demo : State := withWord 0

/-- Its current thread changed. -/
def demoT (g : Thread → Thread) : State := own demo g

/-- A bundle without annotations and guard, of class, operands, modifiers and immediate. -/
def fm (cls : BitVec 4) (d a b c : BitVec 6) (md : BitVec 12) (imm : BitVec 44) : CForm := plainC cls d a b c md imm

/-- The bundle issues, as a computation. -/
def goes (opc : Nat) (f : CForm) (s : State) : Bool :=
  let t := s.cur
  t.running && !beyondAny opc f t && !workDenied s s.curThread opc && (decodeWarn opc f == 0 || !t.traps.getLsbD 33) &&
  (List.range 8).all (fun n => !f.need.getLsbD n || getV t.tickets 0 n == 0) && (maskedOpc opc f || guardOf t f) &&
  (match ticketOf f with | some n => decide (getV t.tickets 0 n < 63) | none => true) &&
  !emptyReg t (regIx (useOf opc f).d f.d) && !behindHeld t opc && (srcsOf opc f).all (fun x => !emptyReg t x.1) &&
  (readsOf opc f).all fun r => match r with | some i => (Tbl.find? t.pois i).isNone | none => true

theorem goes_issues {opc : Nat} {f : CForm} {s : State} (h : goes opc f s = true) : Issues opc f s := by
  simp only [goes, Bool.and_eq_true, Bool.not_eq_true', Bool.or_eq_true, beq_iff_eq, List.all_eq_true, and_assoc] at h
  have ⟨live, inRange, able, calm, need, guard, ticket, dest, free, full, clean⟩ := h
  exact {
    running := live, counts := inRange, unit := able, warn := calm, guard := guard, dest := dest, full := full, free := free
    need := fun n small bit => (need n (List.mem_range.mpr small)).resolve_left (by simp [bit])
    ticket := fun n named => by simpa [named] using ticket
    clean := fun i read => Option.isNone_iff_eq_none.mp (clean _ read) }

/-- A frame of a G function on tile 0, and an instance of a block of one word in plane 0. -/
def act0 : Act :=
  { stat := .live, ctx := 9, kernel := 7, allot := 0, tile := 0, planes := 1, tag := 1, frame := 0x40047F80, f := Vector.replicate 64 0, next := 0x80000000, seq := 0
    base := 0x40040000, root := false, insts := [2], fault := none, tinfo := 0, held := none }
def inst0 (w : IWord) : Inst :=
  { act := 1, seq := 0, block := { entry := 0x80000000, ctx := 9, hdr0 := 0, hdr1 := 0, words := [w, 0] }, plane := 0, slots := [], fired := 0, done := 0, fwr := []
    fwrs := 0, stores := [], exits := 0, exitTo := 0, rets := 0, retv := 0, irrev := false, accs := [], latch := [], gates := [], call := none
    arrivals := [], ports := 0, ewaits := [], fault := none, held := false, quiet := false, fregs := Vector.replicate 64 0 }
def tok (v : Word) : Token := token v

/-- The instance's instruction 0 with its operand tokens. -/
def blockOf (opc : BitVec 8) (f : GForm) (ts : List Word) : Inst :=
  { inst0 (f.word opc) with slots := ts.zipIdx.map fun vi => (vi.2, [tok vi.1]) }
def graph (n : Inst) : State := { demo with acts := [(1, act0)], insts := [(2, n)], curNode := (2, 0) }
def demoG (opc : BitVec 8) (f : GForm) (ts : List Word) : State := graph (blockOf opc f ts)

/-- The instruction fires, as a computation. -/
def firing (opc : Nat) (f : GForm) (s : State) (n : Inst) : Bool :=
  instLive s n && (neededToks n s.curNode.2 f).all (·.isSome) && (!n.fired.getLsbD s.curNode.2 || isStrm n s.curNode.2 f) &&
  (!isStrm n s.curNode.2 f || (allTargets opc f).all (hasRoom s s.curNode.1 n)) && predHit n s.curNode.2 f &&
  (!anyNull n s.curNode.2 f || decide (nullAct opc = .own))

theorem firing_fires {opc : Nat} {f : GForm} {s : State} {n : Inst} {a : Act} (hi : s.inst? s.curNode.1 = some n) (ha : s.act? n.act = some a)
    (h : firing opc f s n = true) : Fires opc f s n a := by
  simp only [firing, Bool.and_eq_true, Bool.not_eq_true', Bool.or_eq_true, List.all_eq_true, decide_eq_true_eq, and_assoc] at h
  have ⟨live, toks, once, room, hit, nulls⟩ := h
  exact ⟨hi, ha, live, toks, once, fun hs => room.resolve_left (by simp [hs]), hit, nulls⟩

theorem fires_of {opc : Nat} {f : GForm} {o : BitVec 8} {ts : List Word} (h : firing opc f (demoG o f ts) (blockOf o f ts) = true) :
    Fires opc f (demoG o f ts) (blockOf o f ts) act0 := firing_fires rfl rfl h

/-- The next state of an outcome. -/
def nxt (o : Outcome State Fault Refusal) : State := match o with | .next s => s | _ => State.reset

/-- An operation's answer, as a computation. -/
def isOk {α β ε : Type} [DecidableEq β] (r : α × Except ε β) (b : β) : Bool := match r.2 with | .ok x => decide (x = b) | .error _ => false
theorem eq_ok {α β ε : Type} [DecidableEq β] {r : α × Except ε β} {b : β} (h : isOk r b = true) : r = (r.1, .ok b) := by
  obtain ⟨a, x⟩ := r
  cases x with
  | ok x => exact congrArg (Prod.mk a) (congrArg Except.ok (of_decide_eq_true h))
  | error e => cases h
def isErr {α β ε : Type} [DecidableEq ε] (r : α × Except ε β) (b : ε) : Bool := match r.2 with | .error x => decide (x = b) | .ok _ => false
theorem eq_err {α β ε : Type} [DecidableEq ε] {r : α × Except ε β} {b : ε} (h : isErr r b = true) : r = (r.1, .error b) := by
  obtain ⟨a, x⟩ := r
  cases x with
  | error x => exact congrArg (Prod.mk a) (congrArg Except.error (of_decide_eq_true h))
  | ok e => cases h
theorem eq_opt {α β : Type} [DecidableEq β] {r : α × Option β} {b : Option β} (h : decide (r.2 = b) = true) : r = (r.1, b) := by
  obtain ⟨a, x⟩ := r
  exact congrArg (Prod.mk a) (of_decide_eq_true h)

/-! ### Hypotheses of the statements are met: integers, compares, floats, vectors -/

/-- Operands in `x5` and `x6`. -/
def with56 (a b : Word) : State := demoT fun t => (t.xw 5 a).xw 6 b

theorem all_goes {α : Type} (l : List α) (opc : α → Nat) (f : CForm) (s : State) (h : l.all (fun x => goes (opc x) f s) = true) :
    ∀ x ∈ l, Issues (opc x) f s := fun x hx => goes_issues (List.all_eq_true.mp h x hx)

/-- A float's registers: 1.5 and -0.25 in f32. -/
def floats : State := with56 0x3FC00000 0xBE800000

theorem int_fires : intOps.all (fun x => firing x.2.1 (gm 0 6 0) (demoG (BitVec.ofNat 8 x.2.1) (gm 0 6 0) []) (blockOf (BitVec.ofNat 8 x.2.1) (gm 0 6 0) [])) = true := by
  decide +kernel

theorem wit_IntegerResult :
    (∀ x ∈ intOps, Issues x.2.1 (fm 0 7 5 6 12 6 0) demo) ∧
    (∀ x ∈ intOps, Issues x.2.1 (fm 4 7 5 6 12 6 0) demo) ∧ oldClean (fm 4 7 5 6 12 6 0) demo 6 ∧
    (∀ x ∈ intOps, Fires x.2.1 (gm 0 6 0) (demoG (BitVec.ofNat 8 x.2.1) (gm 0 6 0) []) (blockOf (BitVec.ofNat 8 x.2.1) (gm 0 6 0) []) act0) :=
  ⟨all_goes intOps (fun x => x.2.1) _ _ (by decide +kernel), all_goes intOps (fun x => x.2.1) _ _ (by decide +kernel), fun _ => rfl,
   fun x hx => fires_of (List.all_eq_true.mp int_fires x hx)⟩

theorem wit_CompareResult :
    (Issues 0x11 (fm 0 1 5 6 0 0x26 0) demo ∧ Issues 0x11 (fm 4 1 5 6 0 0x26 0) demo) ∧
    Fires 0x11 (gm 2 6 0) (demoG 0x11 (gm 2 6 0) [1, 2]) (blockOf 0x11 (gm 2 6 0) [1, 2]) act0 ∧
    (Issues 0x26 (fm 0 1 5 6 0 0x2E 0) floats ∧ unmasked floats (opFcmp (fltReg 0x26 (fm 0 1 5 6 0 0x2E 0) floats)).2) ∧
    (Issues 0x26 (fm 4 1 5 6 0 0x2E 0) floats ∧
      unmasked floats (maskFlags (fm 4 1 5 6 0 0x2E 0) floats 14 fun i => (opFcmp (fltLane 0x26 (fm 4 1 5 6 0 0x2E 0) floats 14 i)).2)) ∧
    (let n := blockOf 0x26 (gm 2 14 0) [0x3F800000, 0]
     let s := demoG 0x26 (gm 2 14 0) [0x3F800000, 0]
     let r := opFcmp (fltTok (gm 2 14 0) s n act0)
     Fires 0x26 (gm 2 14 0) s n act0 ∧ r.2.extractLsb' 0 5 &&& (noteStatus s act0 r.2 (fltWarnG 0x26 (gm 2 14 0))).2 = 0) :=
  ⟨⟨goes_issues (by decide +kernel), goes_issues (by decide +kernel)⟩, fires_of (by decide +kernel), ⟨goes_issues (by decide +kernel), by decide +kernel⟩, ⟨goes_issues (by decide +kernel), by decide +kernel⟩, fires_of (by decide +kernel), by decide +kernel⟩

theorem wit_SelectAndImmediateResult :
    (Issues 0x12 (fm 0 7 5 6 1 6 0) demo ∧ Issues 0x12 (fm 4 7 5 6 1 6 0) demo ∧ oldClean (fm 4 7 5 6 1 6 0) demo 6) ∧
    Fires 0x12 (gm 3 6 0) (demoG 0x12 (gm 3 6 0) [1, 2, 1]) (blockOf 0x12 (gm 3 6 0) [1, 2, 1]) act0 ∧
    Issues 0x1B (fm 1 7 0 0 0 6 0xFFFFFFFFFFF) demo ∧ Fires 0x1B (gm 0 6 0x800000000000) (demoG 0x1B (gm 0 6 0x800000000000) [])
      (blockOf 0x1B (gm 0 6 0x800000000000) []) act0 ∧
    Issues 0x1C (fm 1 7 0 0 0 6 0x12345) demo ∧ Fires 0x1C (gm 1 6 0x12345) (demoG 0x1C (gm 1 6 0x12345) [7]) (blockOf 0x1C (gm 1 6 0x12345) [7]) act0 ∧
    Issues 0x1D (fm 1 7 0 0 0 6 0x100) demo ∧ Fires 0x1D (gm 0 6 0x100) (demoG 0x1D (gm 0 6 0x100) []) (blockOf 0x1D (gm 0 6 0x100) []) act0 ∧
    Issues 0x00 (fm 0 0 0 0 0 0 0) demo ∧ Fires 0x00 (gm 0 0 0) (demoG 0x00 (gm 0 0 0) []) (blockOf 0x00 (gm 0 0 0) []) act0 :=
  ⟨⟨goes_issues (by decide +kernel), goes_issues (by decide +kernel), fun _ => rfl⟩, fires_of (by decide +kernel), goes_issues (by decide +kernel), fires_of (by decide +kernel), goes_issues (by decide +kernel),
   fires_of (by decide +kernel), goes_issues (by decide +kernel), fires_of (by decide +kernel), goes_issues (by decide +kernel), fires_of (by decide +kernel)⟩

theorem wit_FloatResult :
    (∀ x ∈ fltOps, Issues x.2.1 (fm 0 7 5 6 12 14 0) floats) ∧ unmasked floats (opFadd (fltReg 0x20 (fm 0 7 5 6 12 14 0) floats)).fl ∧
    (∀ x ∈ fltOps, Issues x.2.1 (fm 4 7 5 6 12 14 0) floats) ∧ oldClean (fm 4 7 5 6 12 14 0) floats 14 ∧
    unmasked floats (laneFlags (fm 4 7 5 6 12 14 0) floats 14 fun i => opFadd (fltLane 0x20 (fm 4 7 5 6 12 14 0) floats 14 i)).1 ∧
    (let n := blockOf 0x20 (gm 2 14 0) [0x3F800000, 0]
     let s := demoG 0x20 (gm 2 14 0) [0x3F800000, 0]
     let r := opFadd (fltTok (gm 2 14 0) s n act0)
     Fires 0x20 (gm 2 14 0) s n act0 ∧ r.fl.extractLsb' 0 5 &&& (noteStatus s act0 r.fl (r.warn ||| fltWarnG 0x20 (gm 2 14 0))).2 = 0) :=
  ⟨all_goes fltOps (fun x => x.2.1) _ _ (by decide +kernel), by decide +kernel, all_goes fltOps (fun x => x.2.1) _ _ (by decide +kernel), fun _ => rfl, by decide +kernel, fires_of (by decide +kernel), by decide +kernel⟩

/-- 1 ÷ 0 with DZ enabled. -/
def dzEnabled : State := demoT fun t => { (t.xw 5 0x3F800000).xw 6 0 with fstat := 0x1F00 }
def dzVector : State := demoT fun t => { (t.vw 5 0x3F800000).vw 6 0 with fstat := 0x1F00 }
theorem wit_FloatExceptionTraps :
    (Issues 0x2B (fm 0 7 5 6 0 14 0) dzEnabled ∧ ¬ unmasked dzEnabled (opFdiv (fltReg 0x2B (fm 0 7 5 6 0 14 0) dzEnabled)).fl) ∧
    (Issues 0x2B (fm 4 7 5 6 0 14 0) dzVector ∧ oldClean (fm 4 7 5 6 0 14 0) dzVector 14 ∧
      ¬ unmasked dzVector (laneFlags (fm 4 7 5 6 0 14 0) dzVector 14 fun i => opFdiv (fltLane 0x2B (fm 4 7 5 6 0 14 0) dzVector 14 i)).1) :=
  ⟨⟨goes_issues (by decide +kernel), by decide⟩, goes_issues (by decide +kernel), ⟨fun _ => by decide +kernel, by decide +kernel⟩⟩

/-- Signaling NaNs of f32, f64 and f16 with every exception enabled. -/
def snan : State := demoT fun t => { (((t.xw 5 0x7FA00000).xw 6 0).vw 5 0x7FA00000).vw 6 0x3F800000 with fstat := 0x1F00 }
def snan64 : State := demoT fun t => { t.vw 5 0x7FF4000000000000 with fstat := 0x1F00 }
def snan16 : State := demoT fun t => { (t.vw 5 0x7D00).vw 6 0x3C00 with fstat := 0x1F00 }
theorem flags_fcmp :
    (Issues 0x26 (fm 0 1 5 6 0 0x2E 0) snan ∧ ¬ unmasked snan (opFcmp (fltReg 0x26 (fm 0 1 5 6 0 0x2E 0) snan)).2) ∧
    (Issues 0x26 (fm 4 1 5 6 0 0x2E 0) snan ∧ ¬ unmasked snan (maskFlags (fm 4 1 5 6 0 0x2E 0) snan 14 fun i => (opFcmp (fltLane 0x26 (fm 4 1 5 6 0 0x2E 0) snan 14 i)).2)) ∧
    (Issues 0x44 (fm 4 1 5 6 0 0x2E 0) snan ∧ ¬ unmasked snan (maskFlags (fm 4 1 5 6 0 0x2E 0) snan 14 fun i => (vcmpElem (fm 4 1 5 6 0 0x2E 0) snan i).2.1)) :=
  ⟨⟨goes_issues (by decide +kernel), by decide +kernel⟩, ⟨goes_issues (by decide +kernel), by decide +kernel⟩, goes_issues (by decide +kernel), by decide +kernel⟩
theorem flags_fcvt :
    (Issues 0x28 (fm 0 7 5 0 0 4 14) snan ∧ ¬ unmasked snan (cvtRes (cvtArgs 4 0x7FA00000 0 false false 14)).fl) ∧
    (Issues 0x28 (fm 4 7 5 0 0 4 14) snan ∧ oldClean (fm 4 7 5 0 0 4 14) snan 4 ∧ cvtScaled (cvtArgs 4 0 0 false false 14) = false ∧
      ¬ unmasked snan (laneFlags (fm 4 7 5 0 0 4 14) snan 4 fun i => opFcvt (cvtArgs 4 (laneOf 4 (cenv 0x28 (fm 4 7 5 0 0 4 14) snan).va i) 0 false false 14)).1) :=
  ⟨⟨goes_issues (by decide +kernel), by decide +kernel⟩, goes_issues (by decide +kernel), fun _ => by decide +kernel, by decide +kernel, by decide +kernel⟩
theorem flags_reduce :
    (Issues 0x42 (fm 4 7 5 0 0 14 0) snan ∧ ¬ unmasked snan ((redTree (fm 4 7 5 0 0 14 0) 6 (redInputs (cenv 0x42 (fm 4 7 5 0 0 14 0) snan) 14)).headD (none, 0, 0)).2.1) ∧
    (Issues 0x43 (fm 4 7 5 0 0 14 0) snan ∧ oldClean (fm 4 7 5 0 0 14 0) snan 14 ∧
      ¬ unmasked snan (scanGo (cenv 0x43 (fm 4 7 5 0 0 14 0) snan) (fm 4 7 5 0 0 14 0) (redIdent 14 0 false, 0, 0) (List.range 64)).2.2.1) :=
  ⟨⟨goes_issues (by decide +kernel), by decide +kernel⟩, goes_issues (by decide +kernel), fun _ => by decide +kernel, by decide +kernel⟩
theorem flags_width :
    (Issues 0x4E (fm 4 7 5 6 0 14 15) snan64 ∧ oldClean (fm 4 7 5 6 0 14 15) snan64 14 ∧
      ¬ unmasked snan64 (laneFlags (fm 4 7 5 6 0 14 15) snan64 14 fun i => widthElem (fm 4 7 5 6 0 14 15) (narrowSrc (fm 4 7 5 6 0 14 15) snan64 i)).1) ∧
    (Issues 0x4F (fm 4 7 5 0 0 15 14) snan ∧ oldClean (fm 4 7 5 0 0 15 14) snan 15 ∧
      ¬ unmasked snan (laneFlags (fm 4 7 5 0 0 15 14) snan 15 fun i => widthElem (fm 4 7 5 0 0 15 14) (widenSrc (fm 4 7 5 0 0 15 14) snan i)).1) ∧
    (Issues 0x50 (fm 4 7 5 6 8 12 0) snan16 ∧ oldClean (fm 4 7 5 6 8 12 0) snan16 (dotOut (fm 4 7 5 6 8 12 0)) ∧
      ¬ unmasked snan16 (laneFlags (fm 4 7 5 6 8 12 0) snan16 (dotOut (fm 4 7 5 6 8 12 0)) (dotElem (fm 4 7 5 6 8 12 0) snan16)).1) :=
  ⟨⟨goes_issues (by decide +kernel), fun _ => by decide +kernel, by decide +kernel⟩, ⟨goes_issues (by decide +kernel), fun _ => by decide +kernel, by decide +kernel⟩,
   goes_issues (by decide +kernel), fun _ => by decide +kernel, by decide +kernel⟩
/-- A block's firing where the frame's status word enables every exception. -/
def enabledG (opc : BitVec 8) (f : GForm) (ts : List Word) : State :=
  { demoG opc f ts with mem := Memory.writeN demo.mem 0x40047F98 (bytesOf 8 (0x1F00 : Word)) }
theorem enabled_of {opc : Nat} {f : GForm} {o : BitVec 8} {ts : List Word} (h : firing opc f (enabledG o f ts) (blockOf o f ts) = true) :
    Fires opc f (enabledG o f ts) (blockOf o f ts) act0 := firing_fires rfl rfl h
theorem flags_blocks :
    (let f := gm 2 14 0
     let s := enabledG 0x2B f [0x3F800000, 0]
     let r := opFdiv (fltTok f s (blockOf 0x2B f [0x3F800000, 0]) act0)
     Fires 0x2B f s (blockOf 0x2B f [0x3F800000, 0]) act0 ∧ maskedG s act0 r.fl (r.warn ||| fltWarnG 0x2B f)) ∧
    (let f := gm 2 14 0x100000000000
     let s := enabledG 0x26 f [0x7FA00000, 0]
     Fires 0x26 f s (blockOf 0x26 f [0x7FA00000, 0]) act0 ∧ maskedG s act0 (opFcmp (fltTok f s (blockOf 0x26 f [0x7FA00000, 0]) act0)).2 (fltWarnG 0x26 f)) ∧
    (let f := gm 1 4 14
     let s := enabledG 0x28 f [0x7FA00000]
     let r := cvtRes (cvtArgs 4 0x7FA00000 0 false false 14)
     Fires 0x28 f s (blockOf 0x28 f [0x7FA00000]) act0 ∧ maskedG s act0 r.fl (r.warn ||| fltWarnG 0x28 f)) :=
  ⟨⟨enabled_of (by decide +kernel), by decide +kernel⟩, ⟨enabled_of (by decide +kernel), by decide +kernel⟩, enabled_of (by decide +kernel), by decide +kernel⟩

/-- `fcvt` from f32 to i32, and from f32 to scaled e4m3. -/
def toI32 (cls : BitVec 4) : CForm := fm cls 7 5 0 0 4 14
def toScaled : CForm := fm 4 7 5 0 0 18 0x2E
theorem wit_ConvertResult :
    (Issues 0x28 (toI32 0) floats ∧ unmasked floats (cvtRes (cvtArgs 4 0x3FC00000 0 false false 14)).fl) ∧
    (Issues 0x28 (toI32 4) floats ∧ oldClean (toI32 4) floats 4 ∧ cvtScaled (cvtArgs 4 0 0 false false 14) = false ∧
      unmasked floats (laneFlags (toI32 4) floats 4 fun i => opFcvt (cvtArgs 4 (laneOf 4 (cenv 0x28 (toI32 4) floats).va i) 0 false false 14)).1) ∧
    (Issues 0x28 toScaled floats ∧ oldClean toScaled floats 18 ∧ cvtScaled (cvtArgs 18 0 0 false false 0x2E) = true ∧
      unmasked floats (foldRes (cvtBlock ((activeList 18 (laneMask floats.cur toScaled)).map fun i =>
        cvtArgs 18 (laneOf 18 (cenv 0x28 toScaled floats).va i) 0 false false 0x2E))).1) ∧
    (let s := demoG 0x28 (gm 1 4 14) [0x3F800000]
     let n := blockOf 0x28 (gm 1 4 14) [0x3F800000]
     let r := cvtRes (cvtArgs 4 0x3F800000 0 false false 14)
     Fires 0x28 (gm 1 4 14) s n act0 ∧ r.fl.extractLsb' 0 5 &&& (noteStatus s act0 r.fl (r.warn ||| fltWarnG 0x28 (gm 1 4 14))).2 = 0) :=
  ⟨⟨goes_issues (by decide +kernel), by decide +kernel⟩, ⟨goes_issues (by decide +kernel), fun _ => rfl, rfl, by decide +kernel⟩, ⟨goes_issues (by decide +kernel), fun _ => rfl, rfl, by decide +kernel⟩, fires_of (by decide +kernel), by decide +kernel⟩

theorem wit_LaneOperationResult :
    (∀ x ∈ laneMoves, Issues x.2.1 (fm 4 7 5 6 0 4 0) demo) ∧ oldClean (fm 4 7 5 6 0 4 0) demo 4 ∧
    (∀ opc ∈ [0x45, 0x46, 0x49, 0x4A, 0x4B, 0x4C, 0x4D], Issues opc (fm 4 7 5 6 0 4 0) demo) :=
  ⟨all_goes laneMoves (fun x => x.2.1) _ _ (by decide +kernel), fun _ => rfl, all_goes [0x45, 0x46, 0x49, 0x4A, 0x4B, 0x4C, 0x4D] id _ _ (by decide +kernel)⟩

/-- `vnarrow` from i64 to i32, `vwiden` from i32 to i64, `vdot` of i8. -/
def narrow : CForm := fm 4 7 5 6 0 4 6
def widen : CForm := fm 4 7 5 0 0 6 4
def dot8 : CForm := fm 4 7 5 6 8 0 0
theorem wit_VectorArithmeticResult :
    (Issues 0x44 (fm 4 1 5 6 0 4 0) demo ∧ unmasked demo (maskFlags (fm 4 1 5 6 0 4 0) demo 4 fun i => (vcmpElem (fm 4 1 5 6 0 4 0) demo i).2.1)) ∧
    (Issues 0x42 (fm 4 7 5 0 0 4 0) demo ∧ unmasked demo ((redTree (fm 4 7 5 0 0 4 0) 6 (redInputs (cenv 0x42 (fm 4 7 5 0 0 4 0) demo) 4)).headD (none, 0, 0)).2.1) ∧
    (Issues 0x43 (fm 4 7 5 0 0 4 0) demo ∧ oldClean (fm 4 7 5 0 0 4 0) demo 4 ∧
      unmasked demo (scanGo (cenv 0x43 (fm 4 7 5 0 0 4 0) demo) (fm 4 7 5 0 0 4 0) (redIdent 4 0 false, 0, 0) (List.range 64)).2.2.1) ∧
    (Issues 0x4E narrow demo ∧ oldClean narrow demo 4 ∧ unmasked demo (laneFlags narrow demo 4 fun i => widthElem narrow (narrowSrc narrow demo i)).1) ∧
    (Issues 0x4F widen demo ∧ oldClean widen demo 6 ∧ unmasked demo (laneFlags widen demo 6 fun i => widthElem widen (widenSrc widen demo i)).1) ∧
    (Issues 0x50 dot8 demo ∧ oldClean dot8 demo 4 ∧ unmasked demo (laneFlags dot8 demo 4 (dotElem dot8 demo)).1) :=
  ⟨⟨goes_issues (by decide +kernel), by decide +kernel⟩, ⟨goes_issues (by decide +kernel), by decide +kernel⟩, ⟨goes_issues (by decide +kernel), fun _ => rfl, by decide +kernel⟩, ⟨goes_issues (by decide +kernel), fun _ => rfl, by decide +kernel⟩,
   ⟨goes_issues (by decide +kernel), fun _ => rfl, by decide +kernel⟩, ⟨goes_issues (by decide +kernel), fun _ => rfl, by decide +kernel⟩⟩

theorem wit_DivisionResult :
    let i32 := fm 0 7 5 6 0 4 0
    let i64 := fm 0 7 5 6 0 6 0
    (Issues 0x05 i32 (with56 7 0) ∧ readInt 32 true (regArgs 0x05 i32 (with56 7 0)).b = 0) ∧
    (Issues 0x05 i64 (with56 (-7) 2) ∧ readInt 64 true (regArgs 0x05 i64 (with56 (-7) 2)).b ≠ 0 ∧ ¬ (readInt 64 true (regArgs 0x05 i64 (with56 (-7) 2)).b = -1)) ∧
    (Issues 0x05 i32 (with56 0x80000000 0xFFFFFFFF) ∧ readInt 32 true (regArgs 0x05 i32 (with56 0x80000000 0xFFFFFFFF)).a = -(2 ^ 31) ∧
      readInt 32 true (regArgs 0x05 i32 (with56 0x80000000 0xFFFFFFFF)).b = -1) ∧
    (Issues 0x05 (fm 0 7 5 6 0 0x106 0) (with56 0x8000000000000000 (-1)) ∧ (fm 0 7 5 6 0 0x106 0).sat = true ∧
      readInt 64 true (regArgs 0x05 (fm 0 7 5 6 0 0x106 0) (with56 0x8000000000000000 (-1))).a = -(2 ^ 63)) ∧
    (Issues 0x06 i64 (with56 (-7) 0) ∧ readInt 64 true (regArgs 0x06 i64 (with56 (-7) 0)).b = 0) ∧
    (Issues 0x06 i64 (with56 (-7) 2) ∧ readInt 64 true (regArgs 0x06 i64 (with56 (-7) 2)).b ≠ 0) :=
  ⟨⟨goes_issues (by decide +kernel), by decide⟩, ⟨goes_issues (by decide +kernel), by decide, by decide⟩, ⟨goes_issues (by decide +kernel), by decide, by decide⟩, ⟨goes_issues (by decide +kernel), rfl, by decide⟩,
   ⟨goes_issues (by decide +kernel), by decide⟩, ⟨goes_issues (by decide +kernel), by decide⟩⟩

theorem wit_DivisionPatterns :
    (readInt 8 true 7 = 7 ∧ readInt 8 true 0x100 = 0) ∧ (readInt 4 true 0x8 = -(2 ^ 3 : Int) ∧ readInt 4 true 0xF = -1 ∧ isIFmt 8 = true) ∧
    (readInt 16 false 0x8000 = 2 ^ 15 ∧ readInt 16 false 0xFFFF ≠ 0) := by decide

theorem wit_WordArithmetic : ∃ x : IArgs, x.k = 6 ∧ x.sat = false ∧ x.a = 0 := ⟨{ k := 6, a := 0, b := 5, c := 1, var := 0, sgn := false, sat := false }, rfl, rfl, rfl⟩
theorem wit_WordArithmetic_clz : ∃ (x : IArgs) (i : Nat), x.k = 6 ∧ x.sat = false ∧ i < 64 ∧ x.a.getLsbD i = true ∧ ∀ j < 64, i < j → x.a.getLsbD j = false :=
  ⟨{ k := 6, a := 0x8000000000000000, b := 5, c := 1, var := 0, sgn := false, sat := false }, 63, rfl, rfl, by decide, rfl, by decide⟩

theorem wit_ComputeFrame :
    (Issues 0x01 (fm 0 7 5 6 0 6 0) demo ∧ exec (.add (.c (fm 0 7 5 6 0 6 0))) demo = .next (nxt (exec (.add (.c (fm 0 7 5 6 0 6 0))) demo))) ∧
    (Issues 0x01 (fm 4 7 5 6 0 6 0) demo ∧ oldClean (fm 4 7 5 6 0 6 0) demo 6) ∧
    (Issues 0x20 (fm 0 7 5 6 0 14 0) floats ∧ unmasked floats (opFadd (fltReg 0x20 (fm 0 7 5 6 0 14 0) floats)).fl) ∧
    (Issues 0x20 (fm 4 7 5 6 0 14 0) floats ∧ oldClean (fm 4 7 5 6 0 14 0) floats 14) :=
  ⟨⟨goes_issues (by decide +kernel), rfl⟩, ⟨goes_issues (by decide +kernel), fun _ => rfl⟩, ⟨goes_issues (by decide +kernel), by decide +kernel⟩, ⟨goes_issues (by decide +kernel), fun _ => rfl⟩⟩

/-! ### Memory -/

def cpu : Agent := { tile := 0, ctx := 9, allot := some 0 }
/-- Loads and stores of i64 at `x10` and of i32 at `x11`. -/
def ld64 : CForm := fm 2 7 10 0 0 6 0x40
def st64 (a : BitVec 6) : CForm := fm 2 0 a 6 0 6 0x40

theorem wit_ScalarMemoryResult :
    (Issues 0x60 ld64 demo ∧ ∃ s1, Reaches demo ((curAgent demo).at (ldOrd ld64.ord ld64.scope) ld64.scope) ((cenv 0x60 ld64 demo).a + ld64.simm) 8 8 .rd s1 0x40050040 ∧ poisoned s1 0x40050040 8 = false) ∧
    (Issues 0x61 (st64 10) demo ∧ noErrors (stOrd (st64 10).ord (st64 10).scope) (st64 10).scope demo ∧
      ∃ s1, Reaches demo ((curAgent demo).at (stOrd (st64 10).ord (st64 10).scope) (st64 10).scope) ((cenv 0x61 (st64 10) demo).a + (st64 10).simm) 8 8 .wr s1 0x40050040) ∧ recordStore 0x40050040 = false :=
  ⟨⟨goes_issues (by decide +kernel), _, ⟨eq_ok (by decide +kernel), by decide +kernel⟩, by decide +kernel⟩,
   ⟨goes_issues (by decide +kernel), fun _ => by decide +kernel, _, eq_ok (by decide +kernel), by decide +kernel⟩, by decide +kernel⟩

/-- The allotment's HBM budget is spent, and the page's translation is cached. -/
def metered : State :=
  { demo.modTile 0 fun t => { t with tlb := [{ ctx := 9, page := 1, bits := 30, leaf := 0x400000B1, ns := 0, lease := 16 }] } with
    ctxs := [(9, { ctx9 with allots := [(0, { allot0 with hbm := 1, mHbm := 1 })] })] }
theorem wit_HeldLoad :
    let ag := (curAgent metered).at (ldOrd ld64.ord ld64.scope) ld64.scope
    Issues 0x60 ld64 metered ∧ ∃ s1, resolve metered ag ((cenv 0x60 ld64 metered).a + ld64.simm) 8 8 .rd = (s1, .error .hold) ∧
      ∃ s2, resolve s1 { ag with free := true } ((cenv 0x60 ld64 metered).a + ld64.simm) 8 8 .rd = (s2, .ok 0x40050040) :=
  ⟨goes_issues (by decide +kernel), _, eq_err (by decide +kernel), _, eq_ok (by decide +kernel)⟩

theorem wit_StoreFrame :
    Issues 0x61 (st64 11) demo ∧ noErrors (stOrd (st64 11).ord (st64 11).scope) (st64 11).scope demo ∧
    (∃ s1, Reaches demo ((curAgent demo).at (stOrd (st64 11).ord (st64 11).scope) (st64 11).scope) ((cenv 0x61 (st64 11) demo).a + (st64 11).simm) 8 8 .wr s1 (scratchBase 0 + 0x1040) ∧
      (∀ i < 8, homePlace s1 0x40050000 ≠ homePlace s1 (scratchBase 0 + 0x1040 + i)) ∧ CachesOk s1 0x40050000) ∧
    recordStore (scratchBase 0 + 0x1040) = false ∧ exec (.st (.c (st64 11))) demo = .next (nxt (exec (.st (.c (st64 11))) demo)) :=
  ⟨goes_issues (by decide +kernel), fun _ => by decide +kernel, ⟨_, ⟨eq_ok (by decide +kernel), by decide +kernel⟩, by decide +kernel,
     ⟨by decide +kernel, by decide +kernel, fun a ha _ _ h => absurd h (by
        have : ∀ a ∈ (resolve demo ((curAgent demo).at (stOrd (st64 11).ord (st64 11).scope) (st64 11).scope) ((cenv 0x61 (st64 11) demo).a + (st64 11).simm) 8 8 .wr).1.tiles, dirtyAt a.2 (lineOf 0x40050000) (0x40050000 % 128) ≠ true := by
          decide +kernel
        exact this a ha),
      fun a ha d h => absurd h (by
        have : ∀ a ∈ (resolve demo ((curAgent demo).at (stOrd (st64 11).ord (st64 11).scope) (st64 11).scope) ((cenv 0x61 (st64 11) demo).a + (st64 11).simm) 8 8 .wr).1.tiles, a.2.l1 = [] := by decide +kernel
        simp [dirtyAt, this a ha, Tbl.find?])⟩⟩, by decide +kernel, rfl⟩

/-- Two active elements. -/
def two : State := demoT fun t => t.mw 1 3
def v32 (opc : Nat) : CForm := { fm 2 7 10 (if opc = 0x63 then 7 else if opc = 0x66 ∨ opc = 0x67 then 5 else 6) 7 4 0 with prd := 1 }
theorem wit_VectorMemoryResult :
    (∀ x ∈ vecLoads, Issues x.2.1 (v32 x.2.1) two ∧ oldClean (v32 x.2.1) two 4 ∧ packedAligned (v32 x.2.1) (cenv x.2.1 (v32 x.2.1) two)) ∧
    (∃ s1 l, checkElems two ((curAgent two).at (ldOrd (v32 0x62).ord (v32 0x62).scope) (v32 0x62).scope) false .rd (vaccs (cenv 0x62 (v32 0x62) two) (addrUnit (cenv 0x62 (v32 0x62) two))) = (s1, .ok l) ∧ l.length = 2 ∧
      (∀ ak ∈ l, elemErr s1 ak.2 = false) ∧ ∀ ak ∈ l, elemPoisoned s1 ak.1 ak.2 = false) ∧
    (∀ x ∈ vecStores, Issues x.2.1 (v32 x.2.1) two ∧ noErrors (stOrd (v32 x.2.1).ord (v32 x.2.1).scope) (v32 x.2.1).scope two) ∧
    (∃ s1 l, checkElems two ((curAgent two).at (stOrd (v32 0x63).ord (v32 0x63).scope) (v32 0x63).scope) false .wr (vaccs (cenv 0x63 (v32 0x63) two) (addrUnit (cenv 0x63 (v32 0x63) two))) = (s1, .ok l) ∧ l.length = 2 ∧
      ∀ ak ∈ l, elemErr s1 ak.2 = false) :=
  ⟨fun x hx => ⟨goes_issues (List.all_eq_true.mp (show vecLoads.all (fun x => goes x.2.1 (v32 x.2.1) two) = true by decide +kernel) x hx), fun _ => rfl,
     fun h => absurd (show isPacked 4 = true from h) (by decide)⟩,
   ⟨_, [({ i := 0, ea := 0x40050000, n := 4 }, [0x40050000]), ({ i := 1, ea := 0x40050004, n := 4 }, [0x40050004])], eq_ok (by decide +kernel), rfl, by decide +kernel⟩,
   fun x hx => ⟨goes_issues (List.all_eq_true.mp (show vecStores.all (fun x => goes x.2.1 (v32 x.2.1) two) = true by decide +kernel) x hx),
     fun _ => ⟨(show Quiet two.cur by decide +kernel), fun _ => (show drainHeld two 0 (fun _ => true) = false by decide +kernel)⟩⟩,
   ⟨_, [({ i := 0, ea := 0x40050000, n := 4 }, [0x40050000]), ({ i := 1, ea := 0x40050004, n := 4 }, [0x40050004])], eq_ok (by decide +kernel), rfl, by decide +kernel⟩⟩

theorem wit_PrefetchAndCacheResult :
    Issues 0x68 (fm 2 0 10 0 0 0 0) demo ∧ Fires 0x68 (gm 1 0 0) (demoG 0x68 (gm 1 0 0) [0x40050000]) (blockOf 0x68 (gm 1 0 0) [0x40050000]) act0 ∧
    (let f := fm 2 0 10 6 0 0 0
     Issues 0x69 f demo ∧ (cenv 0x69 f demo).b ≠ 0 ∧ windowOf ((cenv 0x69 f demo).a + f.simm).toNat = some .w0 ∧
     (backLines demo (curAgent demo) false 0x40050000 1).2 = false) ∧
    (Issues 0x6A (fm 2 0 11 6 0 0 0) demo ∧ windowOf ((cenv 0x6A (fm 2 0 11 6 0 0 0) demo).a + (fm 2 0 11 6 0 0 0).simm).toNat = some .w3) :=
  ⟨goes_issues (by decide +kernel), fires_of (by decide +kernel), ⟨goes_issues (by decide +kernel), by decide +kernel⟩,
   goes_issues (by decide +kernel), by decide +kernel⟩

theorem wit_BlockMemoryResult :
    (let f := gm 1 6 0
     let s := demoG 0x60 f [0x40050000]
     let n := blockOf 0x60 f [0x40050000]
     Fires 0x60 f s n act0 ∧ loadMayFire n s.curNode.2 0 0x40050000 8 = true ∧
     ∃ s1, Reaches (noteStatus s act0 0 (memWarnG true f)).1 ((fireEnv f s n act0).agent.at (ldOrd f.ord f.scope) f.scope) 0x40050000 8 8 .rd s1 0x40050000 ∧ poisoned s1 0x40050000 8 = false) ∧
    (let f := gm 2 6 0
     let s := demoG 0x61 f [0x40050000, 7]
     let n := blockOf 0x61 f [0x40050000, 7]
     Fires 0x61 f s n act0 ∧ recordStore 0x40050000 = false ∧
     ∃ s1, resolve (noteStatus s act0 0 (memWarnG false f)).1 ((fireEnv f s n act0).agent.at (stOrd f.ord f.scope) f.scope) 0x40050000 8 8 .wr = (s1, .ok 0x40050000)) :=
  ⟨⟨fires_of (by decide +kernel), by decide +kernel, _, ⟨eq_ok (by decide +kernel), by decide +kernel⟩, by decide +kernel⟩,
   fires_of (by decide +kernel), by decide +kernel, _, eq_ok (by decide +kernel)⟩

/-- An odd address in `x10`; two active elements there; tokens that hold it. -/
def odd : State := demoT fun t => t.xw 10 0x40050001
def oddF : CForm := fm 2 7 10 0 0 6 0
def oddTwo : State := demoT fun t => (t.mw 1 3).xw 10 0x40050002
def packed8 (opc : Nat) : CForm := { v32 opc with md := 8 }
def oddG (o : BitVec 8) : State := demoG o (gm 3 6 0) [0x40050001, 0, 0]
def inWin (va : Word) (n : Nat) : Bool := match checkWindow va n with | .ok _ => true | .error _ => false
theorem mis_bundles : ∀ x ∈ alignedC oddF odd, Issues x.2.1 oddF odd ∧ noErrors x.2.2.2.2 oddF.scope odd ∧ inWindow x.2.2.1 x.2.2.2.1 ∧ x.2.2.1.toNat % x.2.2.2.1 ≠ 0 := by
  intro x hx
  have h := List.all_eq_true.mp (show (alignedC oddF odd).all (fun x => goes x.2.1 oddF odd && inWin x.2.2.1 x.2.2.2.1 && decide (x.2.2.1.toNat % x.2.2.2.1 ≠ 0)) = true by
    decide +kernel) x hx
  simp only [Bool.and_eq_true, decide_eq_true_eq] at h
  refine ⟨goes_issues h.1.1, fun _ => by decide +kernel, ?_, h.2⟩
  have hw := h.1.2
  unfold inWin at hw
  cases hc : checkWindow x.2.2.1 x.2.2.2.1 with
  | ok u => exact ⟨u, hc⟩
  | error e => rw [hc] at hw; cases hw
theorem mis_blocks : ∀ o ∈ [0x60, 0x61, 0x70, 0x71, 0x74, 0x76, 0x78],
    firing o (gm 3 6 0) (oddG (BitVec.ofNat 8 o)) (blockOf (BitVec.ofNat 8 o) (gm 3 6 0) [0x40050001, 0, 0]) = true ∧
    irrevMayFire (oddG (BitVec.ofNat 8 o)) 2 (blockOf (BitVec.ofNat 8 o) (gm 3 6 0) [0x40050001, 0, 0]) 0 = true ∧
    loadMayFire (blockOf (BitVec.ofNat 8 o) (gm 3 6 0) [0x40050001, 0, 0]) 0 0 0x40050001 16 = true := by decide +kernel
theorem mis_vectors :
    (∀ x ∈ vecLoads, goes x.2.1 (v32 x.2.1) oddTwo = true ∧ isPacked (v32 x.2.1).fmt = false ∧
      (vaccs (cenv x.2.1 (v32 x.2.1) oddTwo) (x.2.2 (cenv x.2.1 (v32 x.2.1) oddTwo))).head? = some { i := 0, ea := 0x40050002, n := 4 }) ∧
    (∀ x ∈ vecStores, goes x.2.1 (v32 x.2.1) oddTwo = true ∧
      (vaccs (cenv x.2.1 (v32 x.2.1) oddTwo) (x.2.2.1 (cenv x.2.1 (v32 x.2.1) oddTwo))).head? = some { i := 0, ea := 0x40050002, n := 4 }) ∧
    (∀ x ∈ vecLoads, goes x.2.1 (packed8 x.2.1) oddTwo = true ∧ isPacked (packed8 x.2.1).fmt = true ∧
      (vaccs (cenv x.2.1 (packed8 x.2.1) oddTwo) (x.2.2 (cenv x.2.1 (packed8 x.2.1) oddTwo))).head? = some { i := 0, ea := 0x40050002, n := 1 }) ∧
    (0x40050002 : Word).toNat % min 4 8 ≠ 0 ∧ (∀ opc ∈ [0x62, 0x63, 0x64, 0x65, 0x66, 0x67], ((cenv opc (packed8 opc) oddTwo).a + (packed8 opc).simm).toNat % 4 ≠ 0) := by decide +kernel

theorem wit_OnTileStoreBytes :
    let k := scratchBase 0 + 0x1040
    Issues 0x61 (st64 11) demo ∧ stOrd (st64 11).ord (st64 11).scope ≠ 3 ∧ (st64 11).fmt ≤ 23 ∧ recordStore k = false ∧
    ∃ s1, Memory.wf s1.mem = true ∧ Reaches demo ((curAgent demo).at (stOrd (st64 11).ord (st64 11).scope) (st64 11).scope) ((cenv 0x61 (st64 11) demo).a + (st64 11).simm) 8 8 .wr s1 k ∧
      ∀ i < 8, isOnTile (k + i) = true ∧ Tbl.find? s1.mapped (lineOf (k + i)) = none :=
  ⟨goes_issues (by decide +kernel), by decide +kernel, by decide +kernel, by decide +kernel, _, by decide +kernel, ⟨eq_ok (by decide +kernel), by decide +kernel⟩, by decide +kernel⟩

/-! ### Atomics, fences, sync words, counters, barriers -/

/-- `amo.add` and `cas` of i64, device scope. -/
def amo64 : CForm := fm 6 7 10 6 0 0x206 0
def amoG : GForm := gm 2 6 0x200000000000
def casG : GForm := gm 3 6 0x200000000000

theorem wit_AtomicResult :
    (Issues 0x70 amo64 demo ∧ Issues 0x71 { amo64 with c := 12 } demo ∧ noErrors amo64.ord amo64.scope demo ∧ (amo64.scope ≠ 3) ∧
      ∃ s1, resolveAt true demo ((curAgent demo).at 1 amo64.scope) ((cenv 0x70 amo64 demo).a + amo64.simm) 8 8 .rw = (s1, .ok 0x40050000) ∧
        errReply s1 0x40050000 = false ∧ poisoned s1 0x40050000 8 = false ∧ recordStore 0x40050000 = false) ∧
    (let s := demoG 0x70 amoG [0x40050000, 3]
     let n := blockOf 0x70 amoG [0x40050000, 3]
     Fires 0x70 amoG s n act0 ∧ mayNow s n ∧ ∃ s1, resolveAt true (noteStatus s act0 0 (rsvG 0x70 amoG)).1 ((fireEnv amoG s n act0).agent.at 1 amoG.scope)
       (fireEnv amoG s n act0).a 8 8 .rw = (s1, .ok 0x40050000) ∧ errReply s1 0x40050000 = false ∧ poisoned s1 0x40050000 8 = false) ∧
    (let s := demoG 0x71 casG [0x40050000, 0, 3]
     let n := blockOf 0x71 casG [0x40050000, 0, 3]
     Fires 0x71 casG s n act0 ∧ mayNow s n) :=
  ⟨⟨goes_issues (by decide +kernel), goes_issues (by decide +kernel), fun _ => by decide +kernel, by decide +kernel, _, eq_ok (by decide +kernel), by decide +kernel⟩,
   ⟨fires_of (by decide +kernel), show _ = _ by decide +kernel, _, eq_ok (by decide +kernel), by decide +kernel⟩,
   fires_of (by decide +kernel), show _ = _ by decide +kernel⟩

/-- Fences: `acq_rel` at device scope; `pub`, release and acquire. -/
def fenceF : CForm := fm 6 0 0 0 0 0x606 0
theorem wit_FenceResult :
    (Issues 0x72 fenceF demo ∧ Settled fenceF.scope demo) ∧
    (let f := gm 0 6 0x600000000000
     let s := demoG 0x72 f []
     let n := blockOf 0x72 f []
     Fires 0x72 f s n act0 ∧ fenceMayFire n s.curNode.2 = true) ∧
    (let f := fm 6 0 10 6 0 0x606 0
     Issues 0x73 f demo ∧ Quiet demo.cur ∧ (cenv 0x73 f demo).b ≠ 0 ∧ ∃ s1, resolve demo (curAgent demo) ((cenv 0x73 f demo).a + f.simm) 1 1 (pubNeed f.ord) = (s1, .ok 0x40050000) ∧
       (pubLines s1 (curAgent demo) (f.ord = 2) ((cenv 0x73 f demo).a + f.simm) (cenv 0x73 f demo).b.toNat).2 = false) ∧
    (Issues 0x73 (fm 6 0 10 3 0 0x606 0) demo ∧ (cenv 0x73 (fm 6 0 10 3 0 0x606 0) demo).b = 0) ∧
    (let f := gm 2 6 0xE00000000000
     let s := demoG 0x73 f [0x40050000, 64]
     let n := blockOf 0x73 f [0x40050000, 64]
     Fires 0x73 f s n act0 ∧ fenceMayFire n s.curNode.2 = true ∧ (fireEnv f s n act0).b ≠ 0 ∧ (f.ord = 2 → False) ∧
     ∃ s1, resolve s (fireEnv f s n act0).agent (fireEnv f s n act0).a 1 1 (pubNeed f.ord) = (s1, .ok 0x40050000)) :=
  ⟨⟨goes_issues (by decide +kernel), by decide +kernel⟩, ⟨fires_of (by decide +kernel), by decide +kernel⟩,
   ⟨goes_issues (by decide +kernel), by decide +kernel, by decide +kernel, _, eq_ok (by decide +kernel), by decide +kernel⟩,
   ⟨goes_issues (by decide +kernel), by decide +kernel⟩,
   fires_of (by decide +kernel), by decide +kernel, by decide +kernel, by decide, _, eq_ok (by decide +kernel)⟩

/-- A post of 3 to a fresh sync word; a read and a wait of its generation. -/
def synF : CForm := fm 6 7 11 5 0 0x606 0
theorem wit_SyncWordResult :
    (Issues 0x74 synF demo ∧ noErrors synF.ord synF.scope demo ∧ ∃ s1 w, synPlace demo (curAgent demo) (cenv 0x74 synF demo).a .rw = (s1, .ok 0xFE00000000001000) ∧
      errReply s1 0xFE00000000001000 = false ∧ poisoned s1 0xFE00000000001000 16 = false ∧
      synPostW (synRead s1 0xFE00000000001000) ((cenv 0x74 synF demo).b + synF.simm).toNat = some w) ∧
    (let f := gm 2 6 0x600000000000
     let s := demoG 0x74 f [0xFF00000000001000, 3]
     let n := blockOf 0x74 f [0xFF00000000001000, 3]
     Fires 0x74 f s n act0 ∧ mayNow s n ∧ ∃ s1 w, synPlace s (fireEnv f s n act0).agent (fireEnv f s n act0).a .rw = (s1, .ok 0xFE00000000001000) ∧
       errReply s1 0xFE00000000001000 = false ∧ poisoned s1 0xFE00000000001000 16 = false ∧
       synPostW (synRead s1 0xFE00000000001000) (fireEnv f s n act0).b.toNat = some w) ∧
    (Issues 0x76 synF demo ∧ ∃ s1, synPlace demo (curAgent demo) ((cenv 0x76 synF demo).a + synF.simm) .rd = (s1, .ok 0xFE00000000001000) ∧
      errReply s1 0xFE00000000001000 = false ∧ poisoned s1 0xFE00000000001000 16 = false) ∧
    (let f := gm 1 6 0
     let s := demoG 0x76 f [0xFF00000000001000]
     let n := blockOf 0x76 f [0xFF00000000001000]
     Fires 0x76 f s n act0 ∧ loadMayFire n s.curNode.2 0 0xFF00000000001000 16 = true ∧
     ∃ s1, synPlace s (fireEnv f s n act0).agent (fireEnv f s n act0).a .rd = (s1, .ok 0xFE00000000001000) ∧ errReply s1 0xFE00000000001000 = false ∧
       poisoned s1 0xFE00000000001000 16 = false) ∧
    (Issues 0x75 synF demo ∧ ∃ s1, synPlace demo (curAgent demo) (cenv 0x75 synF demo).a .rd = (s1, .ok 0xFE00000000001000) ∧
      errReply s1 0xFE00000000001000 = false ∧ poisoned s1 0xFE00000000001000 16 = false) :=
  ⟨⟨goes_issues (by decide +kernel), fun _ => by decide +kernel, _, _, eq_ok (by decide +kernel), by decide +kernel, by decide +kernel, rfl⟩,
   ⟨fires_of (by decide +kernel), show _ = _ by decide +kernel, _, _, eq_ok (by decide +kernel), by decide +kernel, by decide +kernel, rfl⟩,
   ⟨goes_issues (by decide +kernel), _, eq_ok (by decide +kernel), by decide +kernel⟩,
   ⟨fires_of (by decide +kernel), by decide +kernel, _, eq_ok (by decide +kernel), by decide +kernel⟩,
   goes_issues (by decide +kernel), _, eq_ok (by decide +kernel), by decide +kernel⟩

theorem wit_CounterResult :
    (Issues 0x78 synF demo ∧ noErrors synF.ord synF.scope demo ∧ ∃ s1, ctrPlace demo ((curAgent demo).at 1 synF.scope) (cenv 0x78 synF demo).a (synF.imm.getLsbD 43) synF.scope = (s1, .ok 0xFE00000000001000) ∧
      errReply s1 0xFE00000000001000 = false ∧ (synF.scope ≠ 3) ∧ poisoned s1 0xFE00000000001000 8 = false) ∧
    (let f := gm 3 6 0x600000000000
     let s := demoG 0x78 f [0xFF00000000001000, 3, 1]
     let n := blockOf 0x78 f [0xFF00000000001000, 3, 1]
     Fires 0x78 f s n act0 ∧ mayNow s n ∧ ∃ s1, ctrPlace s ((fireEnv f s n act0).agent.at 1 f.scope) (fireEnv f s n act0).a ((fireEnv f s n act0).c.getLsbD 0) f.scope = (s1, .ok 0xFE00000000001000) ∧
       errReply s1 0xFE00000000001000 = false ∧ poisoned s1 0xFE00000000001000 16 = false) ∧
    (Issues 0x77 synF demo ∧ ∃ s1, resolve demo ((curAgent demo).at 1 synF.scope) (cenv 0x77 synF demo).a 8 8 .rd = (s1, .ok 0xFE00000000001000) ∧
      errReply s1 0xFE00000000001000 = false ∧ poisoned s1 0xFE00000000001000 8 = false) :=
  ⟨⟨goes_issues (by decide +kernel), fun _ => by decide +kernel, _, eq_ok (by decide +kernel), by decide +kernel⟩,
   ⟨fires_of (by decide +kernel), show _ = _ by decide +kernel, _, eq_ok (by decide +kernel), by decide +kernel⟩,
   goes_issues (by decide +kernel), _, eq_ok (by decide +kernel), by decide +kernel⟩

/-- Semaphore 5 holds 1. -/
def demoS : State := demo.modTile 0 fun t => { t with sems := Machine.putV t.sems 5 1 }
def semF : CForm := fm 6 0 5 0 0 6 0
theorem wit_SemaphoreAndBarrierRules :
    (Issues 0x79 semF demo ∧ getV (demo.tile 0).sems 0 5 < 2 ^ 20 - 1 ∧ semQueue demo 0 5 true = []) ∧
    (Issues 0x7A semF demoS ∧ 0 < getV (demoS.tile 0).sems 0 5 ∧ semQueue demoS 0 5 false = []) ∧
    (Issues 0x7B semF demo ∧ demo.cur.member = true ∧ demo.curThread ∉ (barOf demo 0 5).arrived) ∧
    (Issues 0x7C semF demo ∧ demo.curThread ∉ (barOf demo 0 5).arrived) ∧
    (Issues 0x7D semF demo ∧ groupOf demo demo.curThread = some (7, 0) ∧ 
      drainHeld demo 0 (fun _ => true) = false ∧ (0 ∉ (gbarOf (settleGbar (releaseDevice demo 0) 7 0 1) 7 1).arrived) ∧ 0 ∉ (gbarOf (settleGbar demo 7 0 1) 7 1).arrived) ∧
    ((barOf demo 0 5).arrived.length + 1 = members demo 0) ∧
    ((barOf (demo.setThr 1 thread0) 0 15).arrived.length + 1 ≠ members (demo.setThr 1 thread0) 0) :=
  ⟨⟨goes_issues (by decide +kernel), by decide +kernel⟩, ⟨goes_issues (by decide +kernel), by decide +kernel⟩,
   ⟨goes_issues (by decide +kernel), by decide +kernel⟩, ⟨goes_issues (by decide +kernel), by decide +kernel⟩,
   ⟨goes_issues (by decide +kernel), rfl, by decide +kernel⟩, by decide +kernel⟩

/-- One region from `x10`, 64 KiB long. -/
def region : State := demoT fun t => t.xw 6 0x10000
theorem wit_CoherenceModeResult :
    (let f := fm 6 0 10 6 0 0x226 0
     Issues 0x7E f region ∧ (cenv 0x7E f region).b ≠ 0 ∧ windowOf (cenv 0x7E f region).a.toNat = some .w0 ∧
     (cenv 0x7E f region).a.toNat + (cenv 0x7E f region).b.toNat ≤ 2 ^ 56 ∧
     ∃ s1, cmodeCheck region (curAgent region) (cenv 0x7E f region).a (regionVas (cenv 0x7E f region).a.toNat (cenv 0x7E f region).b.toNat) = (s1, .ok [0x40050000]) ∧
       cmodeHeld s1 0 f.scope [0x40050000] = false) ∧
    Issues 0x7F (fm 6 0 0 0 0 0 0) demo :=
  ⟨⟨goes_issues (by decide +kernel), by decide +kernel, by decide +kernel, by decide +kernel, _, eq_ok (by decide +kernel), by decide +kernel⟩, goes_issues (by decide +kernel)⟩

/-! ### Control flow and graph-only opcodes -/

theorem wit_TransferResult :
    Issues 0x80 (fm 3 0 0 0 0 0 0x40) demo ∧
    (Issues 0x81 (fm 3 0 2 0 0 0 0) demo ∧ ((cenv 0x81 (fm 3 0 2 0 0 0 0) demo).a + (fm 3 0 2 0 0 0 0).simm).toNat % 16 = 0) ∧
    (Issues 0x81 (fm 3 0 2 0 0 0 8) demo ∧ ((cenv 0x81 (fm 3 0 2 0 0 0 8) demo).a + (fm 3 0 2 0 0 0 8).simm).toNat % 16 ≠ 0) ∧
    (Issues 0x82 (fm 3 0 1 0 0 0 0) demo ∧ ∃ s1, checkPtr demo 0 9 (cenv 0x82 (fm 3 0 1 0 0 0 0) demo).a = (s1, .ok false)) ∧
    (let s := demoT fun t => t.xw 5 0x80000001
     Issues 0x82 (fm 3 0 5 0 0 0 0) s ∧ ∃ s1, checkPtr s 0 9 (cenv 0x82 (fm 3 0 5 0 0 0 0) s).a = (s1, .ok true)) ∧
    Fires 0x80 (gm 0 0 64) (demoG 0x80 (gm 0 0 64) []) (blockOf 0x80 (gm 0 0 64) []) act0 ∧
    Fires 0x81 (gm 1 0 64) (demoG 0x81 (gm 1 0 64) [0x80000000]) (blockOf 0x81 (gm 1 0 64) [0x80000000]) act0 ∧
    (let s := demoG 0x82 (gm 1 0 0) [0x80000001]
     let n := blockOf 0x82 (gm 1 0 0) [0x80000001]
     Fires 0x82 (gm 1 0 0) s n act0 ∧ ∃ s1, checkPtr s act0.tile act0.ctx (fireEnv (gm 1 0 0) s n act0).a = (s1, .ok true)) :=
  ⟨goes_issues (by decide +kernel), ⟨goes_issues (by decide +kernel), by decide +kernel⟩, ⟨goes_issues (by decide +kernel), by decide +kernel⟩,
   ⟨goes_issues (by decide +kernel), _, eq_ok (by decide +kernel)⟩, ⟨goes_issues (by decide +kernel), _, eq_ok (by decide +kernel)⟩,
   fires_of (by decide +kernel), fires_of (by decide +kernel), fires_of (by decide +kernel), _, eq_ok (by decide +kernel)⟩

def ckPtr (s : State) (p : Word) : State := (checkPtr s 0 9 p).1
/-- The argument registers are full and clean. -/
theorem readable_of {s s1 : State} {rs : List Nat}
    (h : rs.all (fun r => (s1.thr s.curThread).isFull r && (Tbl.find? (s1.thr s.curThread).pois r).isNone) = true) : Readable s s1 rs := by
  intro r hr
  have := List.all_eq_true.mp h r hr
  simp only [Bool.and_eq_true] at this
  exact ⟨this.1, Option.isNone_iff_eq_none.mp this.2⟩
/-- The state of a wake that goes on. -/
def woken (w : Woken) : Option State := match w with | .ok s => some s | _ => none
theorem woken_of {w : Woken} (h : (woken w).isSome = true) : ∃ s, w = .ok s := by
  cases w with
  | ok s => exact ⟨s, rfl⟩
  | wait s => cases h
  | bad s x => cases h
  | stop s st a => cases h

/-- A block that calls through its token, before the checks. -/
def callG0 : State := (demoG 0x84 (gm 1 0 0) [0x10040]).modAct 1 fun a => { a with callee := none }
/-- `x5` points to the block. -/
def demoF : State := demoT fun t => t.xw 5 0x80000001
def callrF : CForm := fm 3 0 5 0 0 0 0
/-- The wake of the block that `x5` points to, and of the C function that the block calls. -/
def wakeF : Woken :=
  wakeCallee (ckPtr demoF 0x80000001) (curAgent demoF) ((ckPtr demoF 0x80000001).thr 0).kernel ((ckPtr demoF 0x80000001).thr 0).allot 0x80000001
    (((ckPtr demoF 0x80000001).thr 0).xr 2 - 128) ((ckPtr demoF 0x80000001).thr 0).stackBase (demoF.curPc + 16) (((ckPtr demoF 0x80000001).thr 0).xr 2) false
    (argRegs.map fun r => ((ckPtr demoF 0x80000001).thr 0).xr r)
def wakeG : Woken :=
  wakeCallee (ckPtr callG0 0x10040) cpu 7 0 0x10040 0x40047F00 0x40040000 0x80000021 0x40047F80 true (List.replicate 8 0)
theorem wit_CallResult :
    (Issues 0x83 (fm 3 0 0 0 0 0 0x40) demo ∧ callPtrC 0x83 (fm 3 0 0 0 0 0 0x40) demo = 0x10040 ∧
      ∃ s1, checkPtr demo 0 9 0x10040 = (s1, .ok false) ∧ (s1.thr demo.curThread).isFull 1 = true) ∧
    (Issues 0x84 callrF demoF ∧ callPtrC 0x84 callrF demoF = 0x80000001 ∧ ∃ s1 s2, checkPtr demoF 0 9 0x80000001 = (s1, .ok true) ∧ Readable demoF s1 [2] ∧
      frameBad ((s1.thr 0).xr 2 - 128) (s1.thr 0).stackBase = none ∧ Readable demoF s1 argRegs ∧
      wakeCallee s1 (curAgent demoF) (s1.thr 0).kernel (s1.thr 0).allot 0x80000001 ((s1.thr 0).xr 2 - 128) (s1.thr 0).stackBase (demoF.curPc + 16) ((s1.thr 0).xr 2)
        false (argRegs.map fun r => (s1.thr 0).xr r) = .ok s2) ∧
    (let s := demoG 0x84 (gm 1 0 0) [0x10040]
     let n := blockOf 0x84 (gm 1 0 0) [0x10040]
     let e := fireEnv (gm 1 0 0) s n act0
     let fa := act0.frame - BitVec.ofNat 64 (bLocal n.block.hdr0) - 128
     Fires 0x84 (gm 1 0 0) s n act0 ∧ mayNow s n ∧ callOut s act0 = false ∧ calleeDone s e.agent act0 = (s, true) ∧ frameBad fa act0.base = none ∧
     ∃ s1 s2, checkPtr (s.modAct n.act fun a => { a with callee := none }) act0.tile act0.ctx (callPtrG 0x84 (gm 1 0 0) s n act0) = (s1, .ok false) ∧
       wakeCallee s1 e.agent act0.kernel act0.allot (callPtrG 0x84 (gm 1 0 0) s n act0) fa act0.base (e.pc ||| 1) act0.frame
         true ((List.range 8).map fun j => getV n.fregs 0 j) = .ok s2) := by
  refine ⟨⟨goes_issues (by decide +kernel), by decide +kernel, _, eq_ok (by decide +kernel), by decide +kernel⟩, ⟨goes_issues (by decide +kernel), by decide +kernel, ?_⟩,
    fires_of (by decide +kernel), show _ = _ by decide +kernel, by decide +kernel, rfl, by decide +kernel, ?_⟩
  · obtain ⟨s2, h2⟩ := woken_of (w := wakeF) (by decide +kernel)
    exact ⟨ckPtr demoF 0x80000001, s2, eq_ok (by decide +kernel), readable_of (by decide +kernel), by decide +kernel, readable_of (by decide +kernel), h2⟩
  · obtain ⟨s2, h2⟩ := woken_of (w := wakeG) (by decide +kernel)
    exact ⟨ckPtr callG0 0x10040, s2, eq_ok (by decide +kernel), h2⟩

/-- A thread at the end of a call: `ra` 0, and with the frame of a G caller; the frame that it has finished. -/
def atEnd : State := demoT fun t => t.xw 1 0
def atEndG : State := demoT fun t => { t.xw 1 0 with frame := some 0x40047F80 }
def atEndS : State := (returnReach atEndG (curAgent atEndG) 0x40047F80).1
def doneG : State := finishFrame atEndS (curAgent atEndG) 0x40047F80 ((atEndS.thr 0).xr 10)
/-- The handler of a fault of activation 1. -/
def lastHandler : State := { (demoT fun t => { t with role := .faultHandler 1, tcause := cPAGE_PERM }) with acts := [(1, act0)] }
theorem wit_ReturnResult :
    (Issues 0x85 (fm 3 0 0 0 0 0 0) demo ∧ Readable demo demo [1] ∧ demo.cur.xr 1 ≠ 0 ∧ ∃ s1, checkPtr demo 0 9 (demo.cur.xr 1) = (s1, .ok false)) ∧
    (Issues 0x85 (fm 3 0 0 0 0 0 0) atEnd ∧ Readable atEnd atEnd [1, 10] ∧ atEnd.cur.xr 1 = 0 ∧ atEnd.cur.frame = none ∧ Settled 2 atEnd ∧
      ∀ n, atEnd.cur.role ≠ .faultHandler n) ∧
    (Issues 0x85 (fm 3 0 0 0 0 0 0) atEndG ∧ Readable atEndG atEndG [1, 10] ∧ atEndG.cur.xr 1 = 0 ∧ atEndG.cur.frame = some 0x40047F80 ∧ Settled 2 atEndG ∧
      returnReach atEndG (curAgent atEndG) 0x40047F80 = (atEndS, .ok ()) ∧ Quiet (doneG.thr 0) ∧ drainHeld doneG 0 (fun _ => true) = false ∧
      Readable atEndG doneG [10] ∧ (doneG.thr 0).role = .lead) ∧
    (Fires 0x85 (gm 1 0 0) (demoG 0x85 (gm 1 0 0) [7]) (blockOf 0x85 (gm 1 0 0) [7]) act0 ∧ (blockOf 0x85 (gm 1 0 0) [7]).rets = 0) ∧
    (Issues 0xB5 (fm 7 0 0 0 0 0 0) demo ∧ Readable demo demo [10] ∧ Settled 2 demo ∧ ∀ n, demo.cur.role ≠ .faultHandler n) ∧
    (Issues 0xB5 (fm 7 0 0 0 0 0 0) lastHandler ∧ Readable lastHandler lastHandler [10] ∧ Settled 2 lastHandler ∧ lastHandler.cur.role = .faultHandler 1 ∧
      ∃ a, (endThread lastHandler lastHandler.curThread).act? 1 = some a) :=
  ⟨⟨goes_issues (by decide +kernel), readable_of (by decide +kernel), by decide +kernel, _, eq_ok (by decide +kernel)⟩,
   ⟨goes_issues (by decide +kernel), readable_of (by decide +kernel), by decide +kernel, rfl, by decide +kernel, fun _ h => by cases h⟩,
   ⟨goes_issues (by decide +kernel), readable_of (by decide +kernel), by decide +kernel, rfl, by decide +kernel, eq_ok (by decide +kernel), by decide +kernel, by decide +kernel,
    readable_of (by decide +kernel), by decide +kernel⟩,
   ⟨fires_of (by decide +kernel), rfl⟩, ⟨goes_issues (by decide +kernel), readable_of (by decide +kernel), by decide +kernel, fun _ h => by cases h⟩,
   goes_issues (by decide +kernel), readable_of (by decide +kernel), by decide +kernel, rfl, Option.isSome_iff_exists.mp (by decide +kernel)⟩

/-- A `gate` with data and control, an open one, a join with one arrival, a latch with both tokens. -/
def gateG : GForm := gm 2 0 0
def mergeJ : GForm := gm 2 0 0
def mergeL : GForm := gm 2 0 1
def openGate : State := graph { blockOf 0x8A gateG [5] with gates := [(0, .opened)] }
def joining : State := graph { blockOf 0x8D mergeJ [5, 6] with arrivals := [(0, [1, 0])] }
def self (s : State) : GSelf := { inst := 2, n := (s.inst? 2).getD (inst0 0), ix := 0, hit := true }

theorem wit_GraphOnlyResult :
    (Fires 0x86 (gm 0 0 16) (demoG 0x86 (gm 0 0 16) []) (blockOf 0x86 (gm 0 0 16) []) act0 ∧ (blockOf 0x86 (gm 0 0 16) []).exits = 0) ∧
    Fires 0x87 (gm 2 0 0) (demoG 0x87 (gm 2 0 0) [5, 1]) (blockOf 0x87 (gm 2 0 0) [5, 1]) act0 ∧
    Fires 0x88 (gm 1 0 0) (demoG 0x88 (gm 1 0 0) [5]) (blockOf 0x88 (gm 1 0 0) [5]) act0 ∧
    Fires 0x89 (gm 1 0 0) (demoG 0x89 (gm 1 0 0) [5]) (blockOf 0x89 (gm 1 0 0) [5]) act0 ∧
    Fires 0x8B (gm 1 0 0) (demoG 0x8B (gm 1 0 0) [5]) (blockOf 0x8B (gm 1 0 0) [5]) act0 ∧
    (let s := demoG 0x8A gateG [5, 1]
     selfNode gateG s = some (self s) ∧ Tbl.get (self s).n.gates .closed 0 = .closed ∧ ((self s).n.slot 0 0).head? = some (tok 5) ∧ ((self s).n.slot 0 1).head? = some (tok 1)) ∧
    (selfNode gateG openGate = some (self openGate) ∧ wOpc ((self openGate).n.block.words.getD 0 0) = 0x8A ∧ Tbl.get (self openGate).n.gates .closed 0 ≠ .closed ∧
      ((self openGate).n.slot 0 0).head? = some (tok 5) ∧ MayPass (self openGate) gateG openGate (tok 5) false) ∧
    (selfNode mergeJ joining = some (self joining) ∧ wOpc ((self joining).n.block.words.getD 0 0) = 0x8D ∧ fieldOf mergeJ.imm 0 2 = 0 ∧
      Tbl.get (self joining).n.arrivals [] 0 = [1, 0] ∧ ((self joining).n.slot 0 1).head? = some (tok 6) ∧ MayPass (self joining) mergeJ joining (tok 6) true) ∧
    (let s := demoG 0x8D mergeL [5, 6]
     selfNode mergeL s = some (self s) ∧ fieldOf mergeL.imm 0 2 ≠ 0 ∧ ((self s).n.slot 0 0).head? = some (tok 5) ∧ ((self s).n.slot 0 1).head? = some (tok 6) ∧
     MayPass (self s) mergeL s (tok 5) false) :=
  ⟨⟨fires_of (by decide +kernel), rfl⟩, fires_of (by decide +kernel), fires_of (by decide +kernel), fires_of (by decide +kernel), fires_of (by decide +kernel),
   by decide +kernel,
   ⟨by decide +kernel, by decide +kernel, by decide +kernel, by decide +kernel, ⟨fun h => (nomatch h), rfl, Or.inr (Or.inl rfl)⟩⟩,
   ⟨by decide +kernel, by decide +kernel, by decide +kernel, by decide +kernel, by decide +kernel, ⟨fun h => (nomatch h), rfl, Or.inr (Or.inr rfl)⟩⟩,
   by decide +kernel, by decide +kernel, by decide +kernel, by decide +kernel, ⟨fun h => (nomatch h), rfl, Or.inr (Or.inl rfl)⟩⟩

/-- `acc` of i64 with a single token, and with a stream's element that does not, and does, end dimension 0. -/
def accG : GForm := gm 1 6 0
def streamTok (ends : BitVec 3) : Token := { val := 5, ends := ends, null := false, strm := true, idx := 0 }
def accAt (ends : BitVec 3) : Inst := { inst0 (accG.word 0x8C) with slots := [(0, [streamTok ends])], accs := [(0, 3)] }
theorem wit_AccumulateResult :
    (Fires 0x8C accG (demoG 0x8C accG [5]) (blockOf 0x8C accG [5]) act0 ∧ isStrm (blockOf 0x8C accG [5]) 0 accG = false) ∧
    (∀ e ∈ [(0 : BitVec 3), 1], Fires 0x8C accG (graph (accAt e)) (accAt e) act0 ∧ isStrm (accAt e) 0 accG = true ∧
      (let r := accSum accG (Tbl.find? (accAt e).accs 0) (anyNull (accAt e) 0 accG) (fireEnv accG (graph (accAt e)) (accAt e) act0).a
       r.fl.extractLsb' 0 5 &&& (noteStatus (graph (accAt e)) act0 r.fl (r.warn ||| accWarn accG)).2 = 0)) ∧
    (fireEnv accG (graph (accAt 0)) (accAt 0) act0).ends.getLsbD (fieldOf accG.imm 0 2) = false ∧
    (fireEnv accG (graph (accAt 1)) (accAt 1) act0).ends.getLsbD (fieldOf accG.imm 0 2) = true := by
  refine ⟨⟨fires_of (by decide +kernel), by decide +kernel⟩, fun e he => ?_, by decide +kernel⟩
  simp only [List.mem_cons, List.not_mem_nil, or_false] at he
  obtain rfl | rfl := he <;> exact ⟨firing_fires rfl rfl (by decide +kernel), by decide +kernel⟩

/-! ### Engines and handles -/

/-- Operands of an engine in the own scratchpad; a twin's address in `x14`. -/
def eng : State := demoT fun t => ((t.xw 5 0xFF00000000002000).xw 6 0xFF00000000003000).xw 14 0xC0000000
/-- A bundle of each engine opcode. -/
def engF (opc : Nat) : CForm :=
  if opc = 0x95 then fm 5 7 11 5 6 0x44 0 else if opc = 0x96 then fm 5 7 14 5 6 0x17 0 else if opc = 0x93 then fm 5 7 11 5 12 0x57 0 else fm 5 7 11 5 6 0x57 0
/-- The errand issues. -/
def issues (r : Issued) : Bool := match r with | .ok _ _ => true | _ => false
theorem issues_of {r : Issued} (h : issues r = true) : ∃ s h, r = .ok s h := by
  cases r with
  | ok s w => exact ⟨s, w, rfl⟩
  | _ => cases h
def cpG : GForm := gm 3 23 0x010000000000
theorem wit_EngineResult :
    (∀ x ∈ engines, Issues x.2.1 (engF x.2.1) eng ∧ Readable eng eng ((trailing x.2.1 (engF x.2.1)).map (·.toNat)) ∧
      ∃ s1 h, issueErrand eng (issuerC eng) (askC x.2.1 x.2.2 (engF x.2.1) eng) = .ok s1 h) ∧
    (∀ x ∈ [(0x93, cpG, (16 : Word)), (0x95, { cpG with md := 4 }, 0xFF00000000003000)], let opc : Nat := x.1
      let f : GForm := x.2.1
      let s := demoG (BitVec.ofNat 8 opc) f [0xFF00000000001000, 0xFF00000000002000, x.2.2]
      let n := blockOf (BitVec.ofNat 8 opc) f [0xFF00000000001000, 0xFF00000000002000, x.2.2]
      Fires opc f s n act0 ∧ mayNow s n ∧ ∃ s1 h, issueErrand (noteStatus s act0 0 (rsvG opc f)).1 (issuerG n act0) (askG opc f s n act0) = .ok s1 h) ∧
    (Issues 0x97 (fm 5 0 11 5 0 0 0) demo ∧ drainHeld demo 0 (fun _ => true) = false) ∧
    (let s := demoG 0x97 (gm 2 0 0) [0xFF00000000001000, 1]
     let n := blockOf 0x97 (gm 2 0 0) [0xFF00000000001000, 1]
     Fires 0x97 (gm 2 0 0) s n act0 ∧ mayNow s n ∧ drainHeld s act0.tile (fun _ => true) = false) := by
  refine ⟨fun x hx => ?_, fun x h => ?_, ⟨goes_issues (by decide +kernel), by decide +kernel⟩, fires_of (by decide +kernel), ⟨show _ = _ by decide +kernel, by decide +kernel⟩⟩
  · have h := List.all_eq_true.mp (show engines.all (fun x => goes x.2.1 (engF x.2.1) eng &&
      ((trailing x.2.1 (engF x.2.1)).map (·.toNat)).all (fun r => (eng.thr eng.curThread).isFull r && (Tbl.find? (eng.thr eng.curThread).pois r).isNone) &&
      issues (issueErrand eng (issuerC eng) (askC x.2.1 x.2.2 (engF x.2.1) eng))) = true by decide +kernel) x hx
    simp only [Bool.and_eq_true] at h
    exact ⟨goes_issues h.1.1, readable_of h.1.2, issues_of h.2⟩
  · simp only [List.mem_cons, List.not_mem_nil, or_false] at h
    obtain rfl | rfl := h
    · exact ⟨fires_of (by decide +kernel), show _ = _ by decide +kernel, issues_of (by decide +kernel)⟩
    · exact ⟨fires_of (by decide +kernel), show _ = _ by decide +kernel, issues_of (by decide +kernel)⟩

theorem wit_IssueFillsSlot : ∃ s1 h, issueErrand eng (issuerC eng) (askC 0x93 0xFFF (engF 0x93) eng) = .ok s1 h := issues_of (by decide +kernel)

/-- The tile's errand table with one running errand in slot 2, named by the handle in `x5`; and with none. -/
def errand0 : Errand :=
  { serial := 5, op := 0x93, engine := engineOf 0x93, st := .running, ctx := 9, kernel := 7, rank := 0, allot := 0, prio := 3, owner := .thread 0, issuer := 0, order := 1
    md := 0x57, imm := 0, a := 0xFF00000000001000, b := 0xFF00000000002000, c := 16, ctr := 0, syn := 0, after := 0, dim0 := 0, part0 := 0, regs := [], desc := []
    unit := 0, progress := 0, step := 0, cause := 0, sub := 0, addr := 0, twin := none, tbits := 0, tsize := 0, tva := 0, hidden := [], accs := [], staged := []
    frozen := 0, cancel := none, park := false, stalled := none, stallNs := 0, failAtStart := none, busy := [], finished := false }
def hasErrand (e : Errand) : State := (demo.setErrand 0 2 e).modThr 0 fun t => t.xw 5 (handleOf 0 2 e)
def hF (d a b : BitVec 6) (md : BitVec 12) : CForm := fm 5 d a b 0 md 0

/-- An instance whose node 0 waits, with its status due; and the instance after its status falls due. -/
def lateW : LateWait := { node := 0, handle := 0x99, lead := tok 5, due := none }
def waitingN : Inst := { blockOf 0xA0 (gm 1 0 0) [5] with ewaits := [lateW] }
theorem wit_LateStatus : (graph waitingN).inst? 2 = some waitingN ∧ (graph waitingN).act? 1 = some act0 ∧ waitingN.ewaits.find? (·.node = 0) = some lateW ∧
    ∃ m, (statusDue (graph waitingN) 9 0x99).inst? 2 = some m ∧ m.ewaits.find? (·.node = 0) = some { lateW with due := some 3 } :=
  ⟨by decide +kernel, by decide +kernel, by decide +kernel, { waitingN with ewaits := [{ lateW with due := some 3 }] }, by decide +kernel⟩

theorem wit_WaitAndTestResult :
    Issues 0xA0 (hF 7 5 0 0) (hasErrand errand0) ∧ Issues 0xA1 (hF 7 5 0 0) (hasErrand errand0) ∧
    (Fires 0xA0 (gm 1 0 0) (demoG 0xA0 (gm 1 0 0) [5]) (blockOf 0xA0 (gm 1 0 0) [5]) act0 ∧ ∀ w ∈ (blockOf 0xA0 (gm 1 0 0) [5]).ewaits, w.1 ≠ 0) ∧
    Fires 0xA1 (gm 1 0 0) (demoG 0xA1 (gm 1 0 0) [5]) (blockOf 0xA1 (gm 1 0 0) [5]) act0 :=
  ⟨goes_issues (by decide +kernel), goes_issues (by decide +kernel), ⟨fires_of (by decide +kernel), fun w h => (nomatch h)⟩, fires_of (by decide +kernel)⟩

theorem wit_HandleOperationResult :
    (∀ opc ∈ [0xA2, 0xA3, 0xA4, 0xA5, 0xA6], Issues opc (hF 7 5 6 0) demo ∧ named demo (cenv opc (hF 7 5 6 0) demo).a = none) ∧
    (∀ opc ∈ [0xA2, 0xA3, 0xA4, 0xA5, 0xA6], Issues opc (hF 7 5 6 0) (hasErrand errand0) ∧
      named (hasErrand errand0) (cenv opc (hF 7 5 6 0) (hasErrand errand0)).a = some (0, 2, errand0)) := by
  have h1 : [0xA2, 0xA3, 0xA4, 0xA5, 0xA6].all (fun opc => goes opc (hF 7 5 6 0) demo && decide (named demo (cenv opc (hF 7 5 6 0) demo).a = none)) = true := by
    decide +kernel
  have h2 : [0xA2, 0xA3, 0xA4, 0xA5, 0xA6].all (fun opc => goes opc (hF 7 5 6 0) (hasErrand errand0) &&
      decide (named (hasErrand errand0) (cenv opc (hF 7 5 6 0) (hasErrand errand0)).a = some (0, 2, errand0))) = true := by decide +kernel
  exact ⟨fun opc h => have := List.all_eq_true.mp h1 opc h; by simp only [Bool.and_eq_true, decide_eq_true_eq] at this; exact ⟨goes_issues this.1, this.2⟩,
    fun opc h => have := List.all_eq_true.mp h2 opc h; by simp only [Bool.and_eq_true, decide_eq_true_eq] at this; exact ⟨goes_issues this.1, this.2⟩⟩

/-! ### System instructions -/

theorem wit_ContextResult :
    (let f := fm 7 0 12 1 5 0 0
     Issues 0xB0 f demo ∧ namedContext demo.curThread (cenv 0xB0 f demo).a = .ok 3 ∧ demo.kern? demo.cur.kernel = some kern0 ∧ rolesPermit kern0.hdr 3 = true ∧
     (demo.thr (threadKey 0 3)).stat = .free ∧ ∃ s1, checkPtr demo 0 9 (cenv 0xB0 f demo).b = (s1, .ok false)) ∧
    (let s := demo.setThr 3 { thread0 with stat := .ended }
     let f := fm 7 7 12 0 0 0 0
     Issues 0xB1 f s ∧ namedContext s.curThread (cenv 0xB1 f s).a = .ok 3 ∧ (s.thr (threadKey 0 3)).stat = .ended ∧ beingReaped s (threadKey 0 3) = false) :=
  ⟨⟨goes_issues (by decide +kernel), by rfl, by rfl, by decide +kernel, by decide +kernel, _, eq_ok (by decide +kernel)⟩,
   goes_issues (by decide +kernel), by rfl, by decide +kernel⟩

/-- The bundles that read and write the register of a number. -/
def getF (n : BitVec 44) : CForm := fm 7 7 0 0 0 0 n
def setF (n : BitVec 44) : CForm := fm 7 0 5 0 0 0 n
/-- In a handler; and with warnings that trap. -/
def inHandler : State := demoT fun t => { t with stat := .handler, inh := true, tepc := 0x10080, tcause := cTRAP_INSTR }
def warnTraps : State := demoT fun t => { t with traps := 0x2FFFFFFFF }
theorem wit_StateRegisterResult :
    (∀ n ∈ [(0x50 : BitVec 44), 0x08, 0x41], Issues 0xB2 (getF n) demo) ∧
    (∀ x ∈ srWrites, Issues 0xB3 (setF (BitVec.ofNat 44 x.1)) demo ∧ srOf (setF (BitVec.ofNat 44 x.1)) = x.1) ∧
    (Issues 0xB3 (setF 0x02) demo ∧ srOf (setF 0x02) ∈ srReadOnly) ∧
    (Issues 0xB3 (setF 0x1F) demo ∧ srOf (setF 0x1F) = 0x1F ∧ fieldOf (cenv 0xB3 (setF 0x1F) demo).a 0 5 < 24 ∧ fieldOf (cenv 0xB3 (setF 0x1F) demo).a 15 3 < 6) ∧
    (Issues 0xB3 (setF 0x20) demo ∧ srOf (setF 0x20) = 0x20 ∧ (spmapWrite demo demo.curThread demo.cur.ctx 0 (cenv 0xB3 (setF 0x20) demo).a).2 = true) ∧
    (Issues 0xB3 (setF 0x31) inHandler ∧ srOf (setF 0x31) = 0x31 ∧ inHandler.cur.inh = true) ∧
    (Issues 0xB3 (setF 0x37) demo ∧ srOf (setF 0x37) = 0x37 ∧ demo.cur.inh = false ∧ demo.cur.traps.getLsbD 33 = false) ∧
    (Issues 0xB3 (setF 0x30) warnTraps ∧ srOf (setF 0x30) = 0x30 ∧ warnTraps.cur.inh = false ∧ warnTraps.cur.traps.getLsbD 33 = true) := by
  refine ⟨fun n h => goes_issues (List.all_eq_true.mp (show [(0x50 : BitVec 44), 0x08, 0x41].all (fun n => goes 0xB2 (getF n) demo) = true by decide +kernel) n h), fun x h => ?_,
    ⟨goes_issues (by decide +kernel), by decide +kernel⟩, ⟨goes_issues (by decide +kernel), by decide +kernel⟩,
    ⟨goes_issues (by decide +kernel), by decide +kernel⟩, ⟨goes_issues (by decide +kernel), by decide +kernel, rfl⟩,
    ⟨goes_issues (by decide +kernel), by decide +kernel, rfl, by decide +kernel⟩, goes_issues (by decide +kernel), by decide +kernel, rfl, by decide +kernel⟩
  have := List.all_eq_true.mp (show srWrites.all (fun x => goes 0xB3 (setF (BitVec.ofNat 44 x.1)) demo && decide (srOf (setF (BitVec.ofNat 44 x.1)) = x.1)) = true by
    decide +kernel) x h
  simp only [Bool.and_eq_true, decide_eq_true_eq] at this
  exact ⟨goes_issues this.1, this.2⟩

theorem wit_TurnInstructionResult :
    Issues 0xB4 (fm 7 0 0 0 0 0 100) demo ∧ Issues 0xB6 (fm 7 0 0 0 0 0 0x1234) demo ∧ Issues 0xB7 (fm 7 0 0 0 0 0 0x1234) demo ∧
    (let f := fm 7 7 10 6 0 0x200 0
     let e := cenv 0xBA f demo
     Issues 0xBA f demo ∧ (∃ u, checkWindow e.a e.b.toNat = .ok u) ∧ e.b.toNat ≤ 2 ^ 32 ∧ drainHeld demo 0 (fun _ => true) = false ∧
     ∃ s1 bs, readRange (releaseAt demo (tileOf demo.curThread) f.scope) { curAgent demo with dev := true } e.a e.b.toNat = (s1, .ok bs) ∧
       (appendEvent s1 demo.cur.ctx 5 bs).hubWait = false) :=
  ⟨goes_issues (by decide +kernel), goes_issues (by decide +kernel), goes_issues (by decide +kernel), goes_issues (by decide +kernel), ⟨.w0, by rfl⟩, by decide +kernel,
   by decide +kernel, _, List.replicate 6 0, eq_ok (by decide +kernel), by decide +kernel⟩

theorem wit_TrapEntry :
    ((demo.thr 0).tvec ≠ 0 ∧ (demo.thr 0).traps.getLsbD cBREAK.toNat = true ∧ (demo.thr 0).inh = false) ∧
    ((inHandler.thr 0).inh = true) ∧ ((own demo fun t => { t with tvec := 0 }).thr 0).tvec = 0 ∧ ((own demo fun t => { t with traps := 0 }).thr 0).traps.getLsbD cBREAK.toNat = false :=
  by decide +kernel

def eretF : CForm := fm 7 0 0 0 0 0 0
/-- A handler of a graph fault; a handler of a fatal cause. -/
def graphHandler : State := own inHandler fun t => { t with role := .faultHandler 1 }
def fatalHandler : State := own inHandler fun t => { t with traps := 0xFFFFFFFFFFFFFFFF }
def graphFatal : State := own graphHandler fun t => { t with traps := 0xFFFFFFFFFFFFFFFF }
theorem wit_EretResult :
    (Issues 0xBB eretF inHandler ∧ inHandler.cur.stat = .handler ∧ inHandler.cur.inh = true ∧ inHandler.cur.traps.getLsbD (33 + inHandler.cur.tcause.toNat) = false ∧
      ∀ n, inHandler.cur.role ≠ .faultHandler n) ∧
    (Issues 0xBB eretF graphHandler ∧ graphHandler.cur.stat = .handler ∧ graphHandler.cur.inh = true ∧
      graphHandler.cur.traps.getLsbD (33 + graphHandler.cur.tcause.toNat) = false ∧ graphHandler.cur.role = .faultHandler 1) ∧
    (Issues 0xBB eretF demo ∧ demo.cur.stat ≠ .handler) ∧
    (Issues 0xBB eretF fatalHandler ∧ fatalHandler.cur.stat = .handler ∧ fatalHandler.cur.inh = true ∧
      fatalHandler.cur.traps.getLsbD (33 + fatalHandler.cur.tcause.toNat) = true ∧ ∀ n, fatalHandler.cur.role ≠ .faultHandler n) ∧
    (Issues 0xBB eretF graphFatal ∧ graphFatal.cur.stat = .handler ∧ graphFatal.cur.inh = true ∧
      graphFatal.cur.traps.getLsbD (33 + graphFatal.cur.tcause.toNat) = true ∧ graphFatal.cur.role = .faultHandler 1) :=
  ⟨⟨goes_issues (by decide +kernel), rfl, rfl, by decide +kernel, fun _ h => by cases h⟩, ⟨goes_issues (by decide +kernel), rfl, rfl, by decide +kernel, rfl⟩,
   ⟨goes_issues (by decide +kernel), by decide +kernel⟩, ⟨goes_issues (by decide +kernel), rfl, rfl, by decide +kernel, fun _ h => by cases h⟩,
   goes_issues (by decide +kernel), rfl, rfl, by decide +kernel, rfl⟩

/-- A task queue of two types and 16 slots at a place, one task queued, and a record at `x10` with type 1. -/
def queueHdr : List Byte := natLe 2 2 ++ natLe 1 4 ++ natLe 5 0 ++ natLe 8 0x40062000 ++ natLe 8 0x40063000 ++ natLe 8 0
def task0 : Task := { id := 4, ctx := 9, allot := 0, record := 1, call := none, tile := 0, order := 0 }
def queueS : State :=
  { demo with ctxs := [(9, { ctx9 with allots := [(0, { allot0 with taskq := 0x40061000 })] })], tasks := [task0]
              mem := Memory.writeN (Memory.writeN demo.mem 0x40061000 queueHdr) 0x40050000 [1] }.modThr 0 fun t => t.xw 5 1
def postF : CForm := fm 7 7 10 0 0 0 0
def blkF : CForm := fm 7 0 5 6 0 0 0
def cancelF (a : BitVec 6) : CForm := fm 7 7 a 0 0 0 0
/-- A cancel of id 1 made in this cycle. -/
def cancelled0 : State := { queueS with dev := { queueS.dev with cancels := [{ cycle := 0, id := 1, thread := 0, reg := 7, status := 0 }] } }
theorem wit_TaskResult :
    (Issues 0xB8 postF queueS ∧ drainHeld queueS 0 (fun _ => true) = false ∧ ∃ s1 s2 rec, resolve queueS (curAgent queueS) (cenv 0xB8 postF queueS).a 32 8 .rd = (s1, .ok 0x40050000) ∧
      readRange (releaseDevice s1 0) { curAgent queueS with dev := true } (cenv 0xB8 postF queueS).a 32 = (s2, .ok rec) ∧
      typeBeyond (taskQ s2 queueS.cur.ctx (s2.thr queueS.curThread).allot) (leNat (rec.take 2)) = false) ∧
    (Issues 0xB9 blkF queueS ∧ ∃ q, taskQ queueS queueS.cur.ctx queueS.cur.allot = some q ∧ (cenv 0xB9 blkF queueS).a.toNat < q.ntype) ∧
    (let s := queueS.modThr 0 fun t => t.xw 5 4
     Issues 0xBC (cancelF 5) s ∧ firstCancel s (cenv 0xBC (cancelF 5) s).a ∧ s.tasks.find? (isQueued s (cenv 0xBC (cancelF 5) s).a) = some task0) ∧
    (Issues 0xBC (cancelF 5) queueS ∧ firstCancel queueS (cenv 0xBC (cancelF 5) queueS).a ∧
      queueS.tasks.find? (isQueued queueS (cenv 0xBC (cancelF 5) queueS).a) = none) ∧
    (Issues 0xBC (cancelF 5) cancelled0 ∧
      cancelled0.dev.cancels.find? (fun c => c.cycle = cancelled0.dev.cycles && c.id = (cenv 0xBC (cancelF 5) cancelled0).a && (cancelled0.thr c.thread).ctx = cancelled0.cur.ctx) =
        some { cycle := 0, id := 1, thread := 0, reg := 7, status := 0 }) :=
  ⟨⟨goes_issues (by decide +kernel), by decide +kernel, _, _, 1 :: List.replicate 31 0, eq_ok (by decide +kernel), eq_ok (by decide +kernel), by decide +kernel⟩,
   ⟨goes_issues (by decide +kernel), _, rfl, by decide +kernel⟩, ⟨goes_issues (by decide +kernel), fun _ h => (nomatch h), by decide +kernel⟩,
   ⟨goes_issues (by decide +kernel), fun _ h => (nomatch h), by decide +kernel⟩, goes_issues (by decide +kernel), by decide +kernel⟩

/-- States in which a bundle does not have its own effect: a thread that has ended; 16 registers only; traps on warnings; a counted ticket; an empty and a
poisoned `x5`. -/
def ended0 : State := demoT fun t => { t with stat := .ended }
def few : State := demoT fun t => { t with xregs := 6 }
def counted : State := demoT fun t => { t with tickets := Machine.putV t.tickets 0 1 }
def empty5 : State := demoT fun t => { t with full := ~~~(1#96 <<< 5) }
def bad5 : State := demoT fun t => { t with pois := [(5, { cause := cPOISON, addr := 0x40050000 })] }
def addF : CForm := fm 0 7 5 6 0 6 0
theorem wit_IssueRules :
    ended0.cur.running = false ∧ (few.cur.running = true ∧ beyondAny 0x01 addF few.cur = true) ∧
    (warnTraps.cur.running = true ∧ beyondAny 0x01 { addF with c := 1 } warnTraps.cur = false ∧ workDenied warnTraps 0 0x01 = false ∧
      decodeWarn 0x01 { addF with c := 1 } ≠ 0 ∧ warnTraps.cur.traps.getLsbD 33 = true) ∧
    (counted.cur.running = true ∧ beyondAny 0x01 addF counted.cur = false ∧ workDenied counted 0 0x01 = false ∧ decodeWarn 0x01 addF = 0 ∧
      ({ addF with need := 1 } : CForm).need.getLsbD 0 = true ∧ getV counted.cur.tickets 0 0 ≠ 0) ∧
    (maskedOpc 0x01 { addF with prd := 8 } = false ∧ guardOf demo.cur { addF with prd := 8 } = false) ∧
    (emptyReg empty5.cur (some 5) = true ∧ ∃ y ∈ srcsOf 0x01 addF, emptyReg empty5.cur y.1 = true ∧ y.2.1 = false) ∧
    (emptyReg empty5.cur (regIx (useOf 0x01 addF).d addF.d) = false ∧ (∀ y ∈ srcsOf 0x01 { addF with fem := 1 }, emptyReg empty5.cur y.1 = true → y.2.1 = true) ∧
      (srcsOf 0x01 { addF with fem := 1 }).find? (fun y => emptyReg empty5.cur y.1) = some (some 5, true, 0)) ∧
    ((∀ y ∈ srcsOf 0x01 addF, emptyReg bad5.cur y.1 = false) ∧ firstPoison bad5.cur (readsOf 0x01 addF) = some { cause := cPOISON, addr := 0x40050000 }) ∧
    (ticketOf addF = none ∧ guardOf demo.cur addF = true) := by
  refine by decide +kernel


/-! ### Events of threads, memory and the fabric -/

theorem pair {α β : Type} {r : α × β} {b : β} (h : r.2 = b) : ∃ a, r = (a, b) := ⟨r.1, by rw [← h]⟩
def isOk' {ε α : Type} (r : Except ε α) : Bool := match r with | .ok _ => true | .error _ => false
theorem ok_of {σ ε α : Type} {r : σ × Except ε α} (h : isOk' r.2 = true) : ∃ s b, r = (s, .ok b) := by
  obtain ⟨s, x⟩ := r
  cases x with
  | ok b => exact ⟨s, b, rfl⟩
  | error => cases h
theorem err_of {σ ε α : Type} {r : σ × Except ε α} (h : isOk' r.2 = false) : ∃ s b, r = (s, .error b) := by
  obtain ⟨s, x⟩ := r
  cases x with
  | ok b => cases h
  | error b => exact ⟨s, b, rfl⟩
theorem some_of {σ α : Type} {r : σ × Option α} (h : r.2.isSome = true) : ∃ s b, r = (s, some b) := by
  obtain ⟨s, x⟩ := r
  cases x with
  | some b => exact ⟨s, b, rfl⟩
  | none => cases h

/-- A thread whose pc is not mapped; one with pending fills and stores; an ended thread 3. -/
def lost : State := demoT fun t => { t with pc := 0xF000000000 }
def fill0 (k : FillKind) : Fill := { reg := 7, val := 5, pois := none, ticket := some 1, kind := k, err := false }
def store0 : StoreWait := { ticket := some 2, err := none }
def store1 : StoreWait := { ticket := none, err := some 0x40050000 }
def filling (k : FillKind) : State := (demoT fun t => { t with fills := [fill0 k], stores := [store0, store1] }).setThr 3 { thread0 with stat := .ended }
def failed0 : Errand := { errand0 with st := .failed, cause := cPAGE_PERM }
def h0 : Word := handleOf 0 2 failed0
def waitsFailed (w : Option (Word × Bool)) : State := (filling (.errand h0 w)).setErrand 0 2 failed0
def errFill : State := demoT fun t => { t with fills := [{ fill0 .value with err := true, pois := some { cause := cLINK_ERR, addr := 0x40050000 } }] }
def calling : State :=
  { (filling (.call 0x40047F80)).modThr 0 fun t => { t with wait := .call } with mem := Memory.writeN demo.mem 0x40047F90 (natLe 8 (2 ^ 17)) }
/-- Caches with a line; a pending walk; entries whose lease is over. -/
def cached : State := { demo.modTile 0 fun t => { t with l1 := [(0x40050000, { data := 5, dirty := 1, old := false })] } with l2 := [(0x40050000, 5)] }
def walk0 : Walk := { die := 0, ctx := 9, va := 0x40050000, tiles := [0, 1], lines := [{ tile := 0, addr := 0x40050000, nt := false, allot := none }] }
def lostWalk : Walk := { walk0 with va := 0xF000000000, waiting := [(0, .thread 0)] }
def walking : State := { demo with walks := [walk0] }
/-- A dirty scratchpad line under a mapping. -/
def mapping : State := { demo.modTile 0 fun t => { t with spFilled := 1, spDirty := 1 } with mapped := [(0x40050000, scratchBase 0)] }
def oldEntry : TlbEntry := { ctx := 9, page := 1, bits := 30, leaf := 0xD1, ns := 0, lease := 16 }
def expired : State :=
  { (demo.modTile 0 fun t => { t with tlb := [oldEntry] }) with walkCache := [(0, oldEntry)], dev := { demo.dev with hubNs := 1000000 } }

theorem wit_ThreadAndMemoryEventResult :
    ((lost.thr 0).running = true ∧ residentOk lost 0 = true ∧ runsOn lost (tileOf 0) (lost.thr 0).ctx = true ∧ (lost.thr 0).role ≠ .firmware ∧ (lost.thr 0).wait = .none ∧ (lost.thr 0).hold = 0 ∧
      ∃ s1, fetchC (toSlot lost 0) (tileOf 0) (lost.thr 0).ctx (lost.thr 0).pc = (s1, .trap cPAGE_NOT_PRESENT 0xF000000000 0)) ∧
    (∀ k, ((filling k).thr 0).fills[0]? = some (fill0 k) ∧ (fill0 k).err = false ∧ (fill0 k).kind = k) ∧
    ((filling (.reap 3)).thr 3).stat = .ended ∧
    errandOf (filling (.errand 0x77 none)) 9 0x77 = none ∧
    ((errandOf (waitsFailed none) 9 h0 = some (0, 2, failed0) ∧ ((waitsFailed none).thr 0).fills[0]? = some (fill0 (.errand h0 none))) ∧
      let w := some (0x10000, false)
      errandOf (waitsFailed w) 9 h0 = some (0, 2, failed0) ∧ ((waitsFailed w).thr 0).fills[0]? = some (fill0 (.errand h0 w))) ∧
    (failed0.st.final = true ∧ (statusTrap h0 (statusOf (some failed0))).isSome = true) ∧
    (((filling .value).thr 0).stores[0]? = some store0 ∧ ((filling .value).thr 0).stores[1]? = some store1) ∧
    (∃ f, (errFill.thr 0).fills[0]? = some f ∧ f.err = true) ∧
    ((calling.thr 0).running = true ∧ (calling.thr 0).wait = .call ∧
      (calling.thr 0).fills.findIdx? (fun f => match f.kind with | .call _ => true | _ => false) = some 0 ∧ (calling.thr 0).fills[0]? = some (fill0 (.call 0x40047F80)) ∧
      ∃ s1 v, frameDone calling { tile := tileOf 0, ctx := (calling.thr 0).ctx } 0x40047F80 = (s1, some v)) ∧
    (hbmInstalled 0 128 = true ∧ (l1? cached 0 0x40050000).isSome = true) ∧
    (Tbl.find? mapping.mapped 0x40050000 = some (scratchBase 0) ∧ spHas mapping (scratchBase 0) = true ∧
      (mapping.tile (placeTile (scratchBase 0))).spDirty.getLsbD (scratchBase 0 % 2 ^ 20 / 128) = true) ∧
    (running? walking 0 = some walk0 ∧ ∃ s1 l, walk walking 0 9 0x40050000 = (s1, .ok l) ∧ grants l.word .rd = true) ∧
    (running? { walking with walks := [lostWalk] } 0 = some lostWalk ∧ ∃ s1 f, walk { walking with walks := [lostWalk] } 0 9 0xF000000000 = (s1, .error f)) ∧
    ((expired.tile 0).tlb[0]? = some oldEntry ∧ expired.walkCache[0]? = some (0, oldEntry) ∧ oldEntry.live expired.dev.hubNs = false) :=
  ⟨⟨by decide +kernel, by decide +kernel, by decide +kernel, by decide +kernel, by decide +kernel, by decide +kernel, pair (by decide +kernel)⟩, fun _ => ⟨rfl, rfl, rfl⟩, by decide +kernel, by decide +kernel,
   by decide +kernel, by decide +kernel, by decide +kernel, ⟨_, rfl, by decide +kernel⟩,
   ⟨by decide +kernel, by decide +kernel, by decide +kernel, by decide +kernel, some_of (by decide +kernel)⟩, by decide +kernel,
   by decide +kernel, ⟨rfl, _, { word := 0x400000B1, bits := 30, lease := (0, 16) }, eq_ok (by decide +kernel), by decide +kernel⟩, ⟨rfl, err_of (by decide +kernel)⟩, rfl, rfl, by decide +kernel⟩

/-! Witnesses of FabricEventResult: `fabric_…`. -/

/-- An activation without an instance whose next block no plane holds; with that block in plane 0. -/
def fresh0 : State := { demo with acts := [(1, { act0 with insts := [] })], insts := [], nextId := 5 }
def block0 : Block := { entry := 0x80000000, ctx := 9, hdr0 := 10, hdr1 := 11, words := [GForm.word (gm 0 0 0) 0x86] }
def held0 : State := fresh0.modTile 0 fun t => { t with planes := Machine.putV t.planes 0 (some { block0 with hdr0 := 10 + (1#128 <<< 16) }) }
/-- An instance that is quiescent with one exit or one return; that has neither. -/
def quiet0 : Inst := { inst0 0 with exits := 1, exitTo := 0x80000000, fired := 3, slots := [] }
def quietRet : Inst := { quiet0 with exits := 1, rets := 1, retv := 7 }
def noExit : Inst := { quiet0 with exits := 0 }
/-- Tokens on their way. -/
def sent0 : State :=
  { graph (inst0 (GForm.word (gm 2 0 0) 0x8D)) with transit := [{ inst := 2, node := 0, slot := 0, tok := tok 5 }, { inst := 2, node := 0, slot := 1, tok := tok 6 }] }
/-- An instance that holds a fault, also one held for a port; the frame's handler about to start. -/
def badG : GFault := { cause := cPAGE_PERM, addr := 0x40050000, node := 0, multi := false, strm := false, port := 0, elem := 0 }
def faulty (b : Bool) : Inst := { quiet0 with fault := some badG, held := b }
def faulted0 : State := { demo with acts := [(1, { act0 with stat := .faulted, fault := some badG, insts := [] })], insts := [] }
/-- An instance whose call has returned. -/
def called0 : State := { graph { inst0 0 with call := some (0, 0x40047F80, tok 0) } with mem := Memory.writeN demo.mem 0x40047F90 (natLe 8 (2 ^ 17)) }
/-- A port bound by an errand, whose pattern reads eight bytes of the scratchpad, and a word that consumes it; the same from an unmapped address. -/
def pat0 (a : Word) : List Byte := natLe 8 a.toNat ++ [3, 0, 0, 0] ++ natLe 4 2 ++ natLe 4 1 ++ natLe 4 1 ++ natLe 8 8 ++ List.replicate 32 0
def portErrand (a : Word) : Errand := { errand0 with op := 0x98, engine := engineOf 0x98, desc := pat0 a }
def portWord : IWord := GForm.word (gm 2 0 (2 ^ 39 + 3 * 2 ^ 33)) 0x01
def ported (a : Word) : State :=
  ((graph (inst0 portWord)).setErrand 0 2 (portErrand a)).modTile 0 fun t =>
    { t with ports := Machine.putV t.ports 3 { Port.reset with bound := some 2, pat := BitVec.ofNat 512 (leNat (pat0 a)) } }
def port0 (a : Word) : Port := { Port.reset with bound := some 2, pat := BitVec.ofNat 512 (leNat (pat0 a)) }

theorem fabric_blocks :
    (fresh0.act? 1 = some { act0 with insts := [] } ∧ nextOf fresh0 { act0 with insts := [] } = some (0x80000000, 0) ∧ planeHolding fresh0 0 9 0x80000000 = none ∧
      (loadPlanes fresh0 { act0 with insts := [] }).find? (planeEmpty fresh0 0) = some 0) ∧
    planeHolding held0 0 9 0x80000000 = some 0 := ⟨⟨rfl, by decide +kernel⟩, by decide +kernel⟩
theorem fabric_load : ∃ s1 b, loadBlock fresh0 0 9 0x80000000 = (s1, .ok b) := ok_of (by decide +kernel)
theorem fabric_plane : ∃ b, getV (held0.tile 0).planes none 0 = some b := ⟨_, rfl⟩
theorem fabric_token :
    sent0.transit[1]? = some { inst := 2, node := 0, slot := 1, tok := tok 6 } ∧ ∀ y ∈ sent0.transit.take 1, ¬ (y.inst = 2 ∧ y.node = 0 ∧ y.slot = 1) :=
  ⟨rfl, by decide +kernel⟩
theorem fabric_quiet :
    (∀ n ∈ [quiet0, quietRet, noExit], (graph n).inst? 2 = some n ∧ instLive (graph n) n = true ∧ n.quiet = false ∧ isQuiescent (graph n) 2 n = true) ∧
    (mayCommit noExit = false ∧ mayCommit quietRet = true ∧ 0 < quietRet.rets ∧ mayCommit quiet0 = true ∧ quiet0.rets = 0) := by decide +kernel
theorem fabric_exit : ∃ s1, wakeCheck (graph quiet0) 0 9 quiet0.exitTo = (s1, none) := pair (by decide +kernel)
theorem fabric_exit_bad : ∃ s1 w, wakeCheck (graph quiet0) 0 9 0x40000000 = (s1, some w) := some_of (by decide +kernel)
theorem fabric_ready : ∀ n ∈ [quiet0, quietRet], Ready (graph { n with quiet := true }) 2 { n with quiet := true } act0 := by
  intro n h
  simp only [List.mem_cons, List.not_mem_nil, or_false] at h
  obtain rfl | rfl := h
  · exact ⟨rfl, rfl, by decide +kernel, rfl, by decide +kernel, rfl, by decide +kernel⟩
  · exact ⟨rfl, rfl, by decide +kernel, rfl, by decide +kernel, rfl, by decide +kernel⟩
def committing (n : Inst) : State := (exitHeld (graph { n with quiet := true }) act0 { n with quiet := true }).1
theorem fabric_commit : ∀ n ∈ [quiet0, quietRet], exitHeld (graph { n with quiet := true }) act0 { n with quiet := true } = (committing n, none) ∧
    commitStop (committing n) cpu (sortStores n.stores) = ((commitStop (committing n) cpu (sortStores n.stores)).1, none) := by
  intro n h
  simp only [List.mem_cons, List.not_mem_nil, or_false] at h
  obtain rfl | rfl := h <;> exact ⟨eq_opt (by decide +kernel), eq_opt (by decide +kernel)⟩
/-- A buffered store whose die answers no more. -/
def lostStore : GStore :=
  { lsid := 0, node := 0, elem := 0, op := 0x61, addr := 0x40050000, place := 2 ^ 39 + 0x40050000, data := [1], len := 1, ord := 1, scope := 0, ns := 0 }
def losing : Inst := { quiet0 with quiet := true, stores := [lostStore] }
def losingS : State := { graph losing with dierst := { demo.dierst with lost := 2 } }
theorem fabric_commit_stop : Ready losingS 2 losing act0 ∧ exitHeld losingS act0 losing = ((exitHeld losingS act0 losing).1, none) ∧
    ∃ s1, commitStop (exitHeld losingS act0 losing).1 cpu (sortStores losing.stores) = (s1, some (.trap cLINK_ERR 0, lostStore)) :=
  ⟨⟨rfl, rfl, by decide +kernel, rfl, by decide +kernel, rfl, by decide +kernel⟩, eq_opt (by decide +kernel), _, eq_opt (by decide +kernel)⟩
def lostFrame : Act := { act0 with frame := 0xF000000000 }
theorem fabric_frame : (∃ s1 p, retFrame (commitStop (committing quietRet) cpu (sortStores quietRet.stores)).1 cpu act0 = (s1, .ok p)) ∧
    ∃ s1, retFrame (graph quietRet) cpu lostFrame = (s1, .error (.trap cPAGE_NOT_PRESENT 0, 0xF000000000)) := ⟨ok_of (by decide +kernel), _, eq_err (by decide +kernel)⟩
theorem fabric_faults :
    (instLive (graph (inst0 0)) (inst0 0) = true ∧ planeMayFire (graph (inst0 0)) 0 0 = true ∧ awaitsPlane (graph (inst0 0)) act0 = false ∧ gateClosed (inst0 0) = false ∧
      irrevIdle act0 2 (inst0 0) = false ∧ (inst0 0).call = none ∧ (inst0 0).ewaits = [] ∧ (graph (inst0 0)).kern? act0.kernel = some kern0) ∧
    (∀ b : Bool, (graph (faulty b)).inst? 2 = some (faulty b) ∧ act0.stat = .live ∧ act0.insts.head? = some 2) := by decide +kernel
theorem fabric_taken : ∀ b : Bool, ∃ s0, frameReach (graph (faulty b)) { tile := 0, ctx := 9 } (act0.frame + 24) 8 .rw = (s0, .ok ()) ∧
    ∃ a, (discardInst s0 2).act? 1 = some a := by
  intro b
  have h : ∀ b : Bool, isOk (frameReach (graph (faulty b)) { tile := 0, ctx := 9 } (act0.frame + 24) 8 .rw) () &&
      ((discardInst (frameReach (graph (faulty b)) { tile := 0, ctx := 9 } (act0.frame + 24) 8 .rw).1 2).act? 1).isSome = true := by decide +kernel
  have h := h b
  simp only [Bool.and_eq_true, decide_eq_true_eq] at h
  exact ⟨_, eq_ok h.1, Option.isSome_iff_exists.mp h.2⟩
theorem fabric_handler : faulted0.act? 1 = some { act0 with stat := .faulted, fault := some badG, insts := [] } ∧ faulted0.kern? 7 = some kern0 ∧
    spareContext faulted0 0 = some 4 := ⟨rfl, rfl, by decide +kernel⟩
theorem fabric_call : ∃ s1 v, frameDone called0 { tile := 0, ctx := 9 } 0x40047F80 = (s1, some v) := some_of (by decide +kernel)
theorem any_of {α : Type} {o : Option α} {p : α → Bool} (h : o.any p = true) : ∃ x, o = some x ∧ p x = true := by
  cases o with
  | some x => exact ⟨x, rfl, h⟩
  | none => cases h
/-- An answer is a trap. -/
def isTrap {α : Type} (r : Except (Stop × Word) α) : Bool := match r with | .error (.trap _ _, _) => true | _ => false
theorem trap_of {σ α : Type} {r : σ × Except (Stop × Word) α} (h : isTrap r.2 = true) : ∃ s c sub a, r = (s, .error (.trap c sub, a)) := by
  obtain ⟨s, _ | _⟩ := r
  · rename_i x
    obtain ⟨_ | _, a⟩ := x
    · exact ⟨s, _, _, a, rfl⟩
    · cases h
  · cases h
/-- The port emits, or its fetch fails, as a computation. -/
def emits (s : State) (x : Port × Nat × Inst × Nat × Nat) (good : Bool) : Bool :=
  decide (s.act? x.2.2.1.act = some act0) && hasRoom s x.2.1 x.2.2.1 (x.2.2.2.2, x.2.2.2.1) &&
  (let r := (portElem s { tile := 0, ctx := 9 } (bytesOf 64 x.1.pat) x.1.elem).2
   if good then isOk' r else isTrap r)
theorem fabric_port : ∃ p i n ix sl, portReady (ported 0xFF00000000002000) 0 3 = some (p, i, n, ix, sl) ∧ (ported 0xFF00000000002000).act? n.act = some act0 ∧
    hasRoom (ported 0xFF00000000002000) i n (sl, ix) = true ∧
    ∃ s1 bs, portElem (ported 0xFF00000000002000) { tile := 0, ctx := 9 } (bytesOf 64 p.pat) p.elem = (s1, .ok bs) := by
  obtain ⟨⟨p, i, n, ix, sl⟩, h, hg⟩ := any_of (show (portReady (ported 0xFF00000000002000) 0 3).any (emits (ported 0xFF00000000002000) · true) = true by decide +kernel)
  simp only [emits, Bool.and_eq_true, decide_eq_true_eq, if_true] at hg
  exact ⟨p, i, n, ix, sl, h, hg.1.1, hg.1.2, ok_of hg.2⟩
theorem fabric_fetch : ∃ p i n ix sl, portReady (ported 0xF000000000) 0 3 = some (p, i, n, ix, sl) ∧ (ported 0xF000000000).act? n.act = some act0 ∧
    ∃ s1 c sub ea, portElem (ported 0xF000000000) { tile := 0, ctx := 9 } (bytesOf 64 p.pat) p.elem = (s1, .error (.trap c sub, ea)) := by
  obtain ⟨⟨p, i, n, ix, sl⟩, h, hg⟩ := any_of (show (portReady (ported 0xF000000000) 0 3).any (emits (ported 0xF000000000) · false) = true by decide +kernel)
  simp only [emits, Bool.and_eq_true, decide_eq_true_eq, if_false, Bool.false_eq_true] at hg
  exact ⟨p, i, n, ix, sl, h, hg.1.1, trap_of hg.2⟩


/-! ### Events of errands, dispatchers and residency -/

/-! Witnesses of ErrandEventResult: `errand_…`; of DispatchEventResult: `launch_…`, `task_…`, `kernel_done`. -/

/-- Errands in the states that the events move.  -/
def failedDep : Errand := { errand0 with serial := 4, st := .failed }
def after0 : Errand := { errand0 with st := .waiting, md := 0xD7, after := handleOf 0 1 failedDep }
def afterS : State := (hasErrand after0).setErrand 0 1 failedDep
def wait0 : Errand := { errand0 with st := .waiting }
def stall0 : Errand := { errand0 with b := 0xF000000000 }
def deny0 : Errand := { errand0 with b := 0x0100000000000000 }
def sbind0 : Errand := { errand0 with op := 0x98, engine := engineOf 0x98, a := 0xFF00000000002000, stalled := some 0xFF00000000002000 }
def late0 : Errand := { errand0 with stalled := some 0xF000000000 }
def lateS : State := { hasErrand late0 with dev := { demo.dev with hubNs := 1000000 } }
def did (r : Did) : Nat := match r with | .ok _ _ => 0 | .fail .. => 1 | .stall _ _ _ => 2 | .wait _ _ => 3
theorem did_ok {r : Did} (h : did r = 0) : ∃ s e, r = .ok s e := by
  cases r with
  | ok s e => exact ⟨s, e, rfl⟩
  | _ => cases h
theorem did_fail {r : Did} (h : did r = 1) : ∃ s e c b a, r = .fail s e c b a := by
  cases r with
  | fail s e c b a => exact ⟨s, e, c, b, a, rfl⟩
  | _ => cases h
theorem did_stall {r : Did} (h : did r = 2) : ∃ s e a, r = .stall s e a := by
  cases r with
  | stall s e a => exact ⟨s, e, a, rfl⟩
  | _ => cases h

theorem did_wait {r : Did} (h : did r = 3) : ∃ s e, r = .wait s e := by
  cases r with
  | wait s e => exact ⟨s, e, rfl⟩
  | _ => cases h
/-- The address at which it stalls. -/
def stallsAt (r : Did) (a : Word) : Bool := match r with | .stall _ _ b => decide (b = a) | _ => false
theorem did_stall_at {r : Did} {a : Word} (h : stallsAt r a = true) : ∃ s e, r = .stall s e a := by
  cases r with
  | stall s e b => exact ⟨s, e, congrArg _ (of_decide_eq_true h)⟩
  | _ => cases h

theorem errand_here (e : Errand) : (hasErrand e).errand? 0 2 = some e := rfl
theorem errand_there : afterS.errand? 0 2 = some after0 ∧ lateS.errand? 0 2 = some late0 := by decide +kernel
theorem errand_after : after0.st = .waiting ∧ afterState afterS after0 = some false := by decide +kernel
/-- A waiting errand into a twin object; and one beside another that holds that object. -/
def twin0 : Errand := { wait0 with a := 0xC0000000, md := 0x17 }
def twinS : State := (hasErrand twin0).setErrand 0 1 { errand0 with twin := some (twinObj 0x0C200000C00000B1 0) }
def bad0 : Errand := { wait0 with failAtStart := some (cPAGE_PERM, 0, 0) }
theorem errand_start :
    (∀ e ∈ [wait0, twin0, bad0], mayRun (hasErrand e) 0 2 e = true ∧ portBusy (hasErrand e) 0 2 e = false) ∧
    (twinAt (hasErrand wait0) 0 2 wait0 = (hasErrand wait0, .none) ∧ ¬ outrun (hasErrand wait0) 0 2 wait0) ∧
    (∃ s1 o b z va, twinAt (hasErrand twin0) 0 2 twin0 = (s1, .take o b z va) ∧ ¬ outrun s1 0 2 twin0) ∧
    (mayRun twinS 0 2 twin0 = true ∧ ∃ s1, twinAt twinS 0 2 twin0 = (s1, .held)) := by
  have alone : ∀ s : State, (∀ x ∈ allErrands s, (x.1, x.2.1) = (0, 2)) → ∀ e, ¬ outrun s 0 2 e := fun s h e ⟨x, hx, hn, _⟩ => hn (h x hx)
  refine ⟨by decide +kernel, ⟨rfl, alone _ (by decide +kernel) _⟩, ?_, by decide +kernel, pair (by decide +kernel)⟩
  exact ⟨(twinAt (hasErrand twin0) 0 2 twin0).1, 0xC0000000, 30, 4096, 0xC0000000, Prod.ext rfl (show (twinAt (hasErrand twin0) 0 2 twin0).2 = _ by decide +kernel), alone _ (by decide +kernel) _⟩
theorem errand_unit : Working (hasErrand errand0) errand0 ∧ needsDesc errand0 = false ∧ ∃ s1 e1, doUnit (hasErrand errand0) 0 2 errand0 = .ok s1 e1 :=
  ⟨⟨rfl, by decide +kernel, rfl, ⟨rfl, rfl, rfl⟩, by decide +kernel⟩, by decide +kernel, did_ok (by decide +kernel)⟩
theorem errand_desc : let e := { sbind0 with stalled := none }
    Working (hasErrand e) e ∧ needsDesc e = true := ⟨⟨rfl, by decide +kernel, rfl, ⟨rfl, rfl, rfl⟩, by decide +kernel⟩, by decide +kernel⟩
theorem errand_stall : AtUnit (hasErrand stall0) stall0 ∧ ∃ s1 e1 a, doUnit (hasErrand stall0) 0 2 stall0 = .stall s1 e1 a :=
  ⟨⟨rfl, by decide +kernel⟩, did_stall (by decide +kernel)⟩
theorem errand_fail : AtUnit (hasErrand deny0) deny0 ∧ ∃ s1 e1 c sub a, doUnit (hasErrand deny0) 0 2 deny0 = .fail s1 e1 c sub a :=
  ⟨⟨rfl, by decide +kernel⟩, did_fail (by decide +kernel)⟩
theorem errand_resume :
    (let e := { errand0 with st := .parked }
     errResident (hasErrand e) e = true ∧ errRuns (hasErrand e) e = true ∧ engineFree (hasErrand e) 0 2 e = true) := by decide +kernel
theorem errand_publish :
    (let e := { errand0 with finished := true }
     ordMet (hasErrand e) 0 2 e ∧ errRuns (hasErrand e) e = true ∧ collReady (hasErrand e) 0 2 e = true) := ⟨fun h => (nomatch h), by decide +kernel⟩
theorem errand_replay : AtUnit (hasErrand { errand0 with stalled := some 5 }) { errand0 with stalled := some 5 } ∧
    ({ errand0 with stalled := some 5 } : Errand).stalled ≠ none ∧
    ∃ s1 e1, doUnit (hasErrand { errand0 with stalled := some 5 }) 0 2 errand0 = .ok s1 e1 := ⟨⟨rfl, by decide +kernel⟩, by decide +kernel, did_ok (by decide +kernel)⟩
/-- A replay that meets its fault again; one whose page another walk is about to look up. -/
def again0 : Errand := { stall0 with stalled := some 0xF000000000 }
def joinedAt : State := { hasErrand again0 with walks := [{ walk0 with va := 0xF000000000 }] }
theorem errand_replay_again : AtUnit (hasErrand again0) again0 ∧ again0.stalled = some 0xF000000000 ∧
    ∃ s1 e1, doUnit (hasErrand again0) 0 2 stall0 = .stall s1 e1 0xF000000000 :=
  ⟨⟨rfl, by decide +kernel⟩, rfl, did_stall_at (by decide +kernel)⟩
theorem errand_replay_wait : joinedAt.errand? 0 2 = some again0 ∧ AtUnit joinedAt again0 ∧ ∃ s1 e1, doUnit joinedAt 0 2 stall0 = .wait s1 e1 :=
  ⟨rfl, ⟨rfl, by decide +kernel⟩, did_wait (by decide +kernel)⟩
theorem errand_replay_start : sbind0.st = .running ∧ errRuns (hasErrand sbind0) sbind0 = true ∧ sbind0.stalled ≠ none ∧ needsDesc sbind0 = true := by decide +kernel
theorem errand_timeout : late0.stalled = some 0xF000000000 ∧ late0.stallNs + 1000000 ≤ lateS.dev.hubNs := by decide +kernel

/-- A queued launch of one group while tile 0 is taken; it placed on tile 1; a starving one; a graph kernel placed; one complete, one failed. -/
def launchS (k : Kernel) : State := { demo with kernels := [(7, kern0), (8, k)] }
def queued0 : Kernel := { kern0 with st := .queued, tiles := [], live := [], dies := 0xF }
def placed0 (k : Kernel) : Kernel := { k with st := .placed, tiles := [1], live := [0] }
def graphKern : Kernel := { kern0 with hdr := kern0.hdr ||| (1#512 <<< 40), hdrAddr := 0x80000000 - 64 }
def placedS (k : Kernel) : State := (launchS (placed0 k)).modTile 1 fun t => { t with group := some { group0 with kernel := 8, stat := .reserved }, spOwner := 9 }
def starving : State := { launchS queued0 with dev := { demo.dev with hubNs := 200000 } }
/-- Tasks: a call task, and tasks of a type whose entry is C or G code. -/
def typed (entry : Nat) : State :=
  { queueS with mem := Memory.writeN (Memory.writeN queueS.mem 0x40062000 (natLe 8 entry ++ [64, 32] ++ List.replicate 54 0)) 0x40062040 (natLe 8 entry ++ [64, 32] ++ List.replicate 54 0) }
def callTask : Task := { task0 with call := some (0x40047F80, 0) }
def callS : State := { demo with tasks := [callTask] }

theorem launch_picked : pickLaunch (launchS queued0) (queuedLaunches (launchS queued0)) = some (8, queued0, [1]) := by
  have queue : queuedLaunches (launchS queued0) = [(8, queued0)] := by decide +kernel
  have tiles : (fittingTiles (launchS queued0) queued0).take queued0.groups = [1] := by decide +kernel
  have ready : launchOpen (launchS queued0) queued0 = true := by decide +kernel
  have room : blocksFit (launchS queued0) queued0 = true := blocksFit_one rfl (by decide +kernel)
  rw [queue, pickLaunch, tiles, ready, room]
  rfl
theorem launch_graph : hdrGraph graphKern.hdr = true ∧ hdrGraph kern0.hdr = false ∧
    (buffersIn (placedS graphKern) 9 []).hubWait = false ∧
    ∃ s1, injectRoot ((placed0 graphKern).tiles.foldl (fun s t => resetTile s (placed0 graphKern) t) (buffersIn (placedS graphKern) 9 [])) 8 (placed0 graphKern) = some s1 :=
  ⟨by decide +kernel, by decide +kernel, by decide +kernel, Option.isSome_iff_exists.mp (by decide +kernel)⟩
theorem launch_starves : starving.kern? 8 = some queued0 ∧ queued0.st = .queued ∧ queued0.since + 200000 ≤ starving.dev.hubNs := ⟨rfl, rfl, by decide +kernel⟩
/-- The state that has taken a task, in the cycle after. -/
def takenS (s : State) (t : Task) : State := syncHead { s with tasks := s.tasks.eraseIdx 0, dev := { s.dev with cycles := s.dev.cycles + 1 } } t.ctx t.allot
theorem task_call : ∃ ty, pickTask callS 0 = some (0, callTask, 0, ty) ∧ groupKernel callS 0 = some 7 ∧ spareContext callS 0 = some 4 ∧
    ∃ s1, startCallee { callS with tasks := [], dev := { callS.dev with cycles := callS.dev.cycles + 1 } } 0 4 callTask 0x40047F80 7 kern0 = some s1 :=
  ⟨none, by decide +kernel, by decide +kernel, by decide +kernel, Option.isSome_iff_exists.mp (by decide +kernel)⟩
theorem task_C : ∃ y o, pickTask (typed 0x10000) 0 = some (0, task0, 0, some (y, o)) ∧ y.entry.getLsbD 0 = false ∧ task0.call = none := by
  obtain ⟨⟨i, t, n, ty⟩, h, hg⟩ := any_of (show (pickTask (typed 0x10000) 0).any (fun x => decide (x.1 = 0 ∧ x.2.1 = task0 ∧ x.2.2.1 = 0) && x.2.2.2.any fun z => !z.1.entry.getLsbD 0) = true by decide +kernel)
  simp only [Bool.and_eq_true, decide_eq_true_eq] at hg
  obtain ⟨⟨rfl, rfl, rfl⟩, hg⟩ := hg
  obtain ⟨⟨y, o⟩, rfl, hy⟩ := any_of hg
  exact ⟨y, o, h, by simpa using hy, rfl⟩
/-- A G task whose frame would lie wherever firmware chooses: its entry is no code, so its domain stops. -/
theorem task_G : ∃ y o s1, pickTask (typed 0x40000001) 0 = some (0, task0, 0, some (y, o)) ∧ y.entry.getLsbD 0 = true ∧
    startTaskG (takenS (typed 0x40000001) task0) 0 task0 y o 7 kern0 = some s1 := by
  obtain ⟨⟨i, t, n, ty⟩, h, hg⟩ := any_of (show (pickTask (typed 0x40000001) 0).any (fun x => decide (x.1 = 0 ∧ x.2.1 = task0 ∧ x.2.2.1 = 0) &&
    x.2.2.2.any fun z => z.1.entry.getLsbD 0 && (startTaskG (takenS (typed 0x40000001) task0) 0 task0 z.1 z.2 7 kern0).isSome) = true by decide +kernel)
  simp only [Bool.and_eq_true, decide_eq_true_eq] at hg
  obtain ⟨⟨rfl, rfl, rfl⟩, hg⟩ := hg
  obtain ⟨⟨y, o⟩, rfl, hy⟩ := any_of hg
  simp only [Bool.and_eq_true] at hy
  obtain ⟨s1, h1⟩ := Option.isSome_iff_exists.mp hy.2
  exact ⟨y, o, s1, h, hy.1, h1⟩
theorem kernel_done : ∀ k ∈ [{ kern0 with st := .complete }, { kern0 with st := .failed, cause := cLINK_ERR }],
    (launchS k).kern? 8 = some k ∧ k.written = false ∧ liveErrands (launchS k) 8 = false ∧ ∀ t ∈ ownTiles (launchS k) 8 k, tileHeld (launchS k) t = false := by decide +kernel
theorem wit_DispatchEventResult : (∀ kc ∈ demo.ctxs, kc.2.pending = none) ∧ (placedS kern0).kern? 8 = some (placed0 kern0) ∧ startOpen (placedS kern0) (placed0 kern0) = true ∧
    (buffersIn (placedS kern0) 9 []).hubWait = false ∧
    startOpen { placedS kern0 with dev := { demo.dev with service := 0 } } (placed0 kern0) = false := by decide +kernel
theorem wit_headroom : (∀ d < 4, isolShare demo d = 0) ∧ 1000 + 1000 + 1000 + 1000 ≤ 1000 * demo.dev.plimit ∧ dieHalted demo 0 = false ∧
    demo.dev.thThrottled.getLsbD 0 = false ∧ dieHalted { demo with dev := { demo.dev with thStopped := 1 } } 0 = true := by decide +kernel

/-- A group in each residency, with a thread whose error is to be reported; an eviction area and a tile that fits its group. -/
def residS (r : Resid) : State := setGroup demo 0 { group0 with resid := r }
def deferred0 : State := (residS .preempting).modThr 0 fun t => { t with deferred := [⟨cLINK_ERR, 0x40050000, 0⟩] }
def evicted0 : State :=
  { residS .saved with kernels := [(7, { kern0 with tiles := [evictionArea 7 0], dies := 0xF })] }.modTile (evictionArea 7 0) fun t => { t with group := some { group0 with resid := .saved } }
theorem wit_ResidencyEventResult :
    (∀ r ∈ [Resid.resident, .preempting, .saved, .restoring], At (residS r) 0 { group0 with resid := r }) ∧ group0.stat = .live ∧
    (∃ kt, (runners deferred0 0).find? (fun kt => !kt.2.deferred.isEmpty) = some kt ∧ kt.2.deferred = [⟨cLINK_ERR, 0x40050000, 0⟩]) ∧
    ((∀ kt ∈ runners (residS .preempting) 0, kt.2.deferred = [] ∧ settled kt.2 = true) ∧ drainHeld (residS .preempting) 0 (fun _ => true) = false ∧
      tileErrands (residS .preempting) 0 = []) ∧
    (tileHeld (residS .saved) 0 = false ∧ allErrands (residS .saved) = []) ∧
    (kern0.tiles.getD 0 512 = 0 ∧ runsOn (residS .saved) 0 kern0.ctx = true) ∧
    (At evicted0 (evictionArea 7 0) { group0 with resid := .saved } ∧ tileFits evicted0 { kern0 with tiles := [evictionArea 7 0], dies := 0xF } 1 = true ∧
      roomFor evicted0 (evictionArea 7 0) 1 = true ∧ runsOn evicted0 1 kern0.ctx = true) :=
  ⟨fun _ _ => rfl, rfl, ⟨_, rfl, by decide +kernel⟩, by decide +kernel, by decide +kernel, by decide +kernel, rfl, by decide +kernel⟩

/-! ### Packets -/

/-- Queue 0 enabled, its rings in device memory through `PW2`, with one packet of a KIND for context 9 (0 for none), its body from byte 8. -/
def pktBytes (kind cn : Nat) (body : List Byte) : List Byte :=
  natLe 1 kind ++ natLe 1 1 ++ natLe 2 cn ++ natLe 4 0x77 ++ body ++ List.replicate (120 - body.length) 0
def queue0 : Queue := { Queue.reset with st := .busy, en := true, logn := 4, qtail := 1, cbase := 0x1000, vec := 3, loc := true }
def ctxM : Ctx := { ctx9 with st := .running }
def ringed : State := { demo with funcs := [(0, { Func.reset with pw2ctx := 9, pw2base := 0x40070000 })] }
def pktS (kind cn : Nat) (body : List Byte) : State :=
  { ringed with queues := [(0, queue0)], ctxs := [(9, ctxM)], mem := Memory.writeN demo.mem 0x40070000 (pktBytes kind cn body) }
/-- The packet and the state that has taken it. -/
def tk (s : State) : State × Pkt := (taken s 0).getD (s, ⟨0, 0, 0⟩)
/-- `Accepts`, as a computation. -/
def acc (s : State) (kind : Nat) (sts : List CStat) (named : List (Nat × Nat)) : Bool :=
  let s1 := (tk s).1
  let p := (tk s).2
  (taken s 0).isSome && p.kind = kind && p.ctx ≠ 0 && p.ctx < 4096 && (s1.ctx p.ctx).st ≠ .free && (s1.ctx p.ctx).owner = 0 && sts.contains (s1.ctx p.ctx).st &&
  p.reservedOk named
theorem tk_of {s : State} (h : (taken s 0).isSome = true) : taken s 0 = some ((tk s).1, (tk s).2) := by
  obtain ⟨x, hx⟩ := Option.isSome_iff_exists.mp h
  rw [tk, hx]
  rfl
theorem acc_of {s : State} {kind : Nat} {sts : List CStat} {named : List (Nat × Nat)} (h : acc s kind sts named = true) :
    Accepts s (tk s).1 0 (tk s).2 kind sts named := by
  simp only [acc, Bool.and_eq_true, decide_eq_true_eq, and_assoc] at h
  have ⟨got, kd, pos, small, notFree, own, st, res⟩ := h
  exact ⟨tk_of got, kd, ⟨pos, small⟩, ⟨notFree, own⟩, List.contains_iff_mem.mp st, res⟩

theorem wit_PacketRefusals :
    (∀ x ∈ ctxKinds [], ∃ s1 p, taken (pktS x.2.1 9 []) 0 = some (s1, p) ∧ p.kind = x.2.1) ∧
    (∀ k ∈ [0, 13], ∃ s1 p, taken (pktS k 9 []) 0 = some (s1, p) ∧ (p.kind = 0 ∨ 12 < p.kind)) ∧
    (let s := pktS 2 0 []; (taken s 0).isSome = true ∧ (tk s).2.ctx = 0) ∧
    (let s := pktS 4 9 []; (taken s 0).isSome = true ∧ (s.ctx 9).st = .running) ∧
    (let s := pktS 2 9 [1]; (taken s 0).isSome = true ∧ (tk s).2.reservedOk [] = false) := by
  refine ⟨fun x h => ?_, fun k h => ?_, by decide +kernel⟩
  · have := List.all_eq_true.mp (show (ctxKinds []).all (fun x => (taken (pktS x.2.1 9 []) 0).isSome && decide ((tk (pktS x.2.1 9 [])).2.kind = x.2.1)) = true by
      decide +kernel) x h
    simp only [Bool.and_eq_true, decide_eq_true_eq] at this
    exact ⟨_, _, tk_of this.1, this.2⟩
  · have := List.all_eq_true.mp (show [0, 13].all (fun k => (taken (pktS k 9 []) 0).isSome && decide ((tk (pktS k 9 [])).2.kind = 0 ∨ 12 < (tk (pktS k 9 [])).2.kind)) = true by
      decide +kernel) k h
    simp only [Bool.and_eq_true, decide_eq_true_eq] at this
    exact ⟨_, _, tk_of this.1, this.2⟩

/-! Witnesses of PacketResult: `packet_…`. -/

/-- CREATE with an empty bitmap, a root block of zeros and the page tables at 0x30000; ALLOT of that root. -/
def createS : State := pktS 1 0 (natLe 8 0x40052000 ++ natLe 8 0x30000 ++ natLe 8 0x40060000 ++ natLe 8 4 ++ natLe 8 0x40051000)
def allotS : State := pktS 3 9 (natLe 8 0x40052000)
/-- LOAD of an object without segments; LAUNCH of its kernel, without arguments and buffers. -/
def elf0 : List Byte :=
  natLe 4 0x464C457F ++ [2, 1, 1, 0] ++ natLe 8 0 ++ natLe 2 2 ++ natLe 2 0xCAE0 ++ natLe 4 1 ++ natLe 8 0 ++ natLe 8 64 ++ natLe 8 64 ++ natLe 4 1 ++ natLe 2 64 ++ natLe 10 0
def loadS : State :=
  let s := pktS 4 9 (natLe 8 0x40053000 ++ natLe 8 64)
  { s with mem := Memory.writeN s.mem 0x40053000 elf0 }
def hdrL : BitVec 512 := BitVec.ofNat 512 (0x484B5842 + 2 ^ 32 + 64 * 2 ^ 48 + 32 * 2 ^ 56 + 0x19 * 2 ^ 96 + 4 * 2 ^ 112 + 2 ^ 456)
def obj0 : CodeObj := { base := 0, gp := 0, segs := [(0x10000, 0x10000, false)], kerns := [(0x10000, [])] }
def launchP : State :=
  let s := pktS 5 9 (natLe 8 0x10000 ++ natLe 8 0x40054000 ++ natLe 4 0 ++ natLe 2 0 ++ natLe 2 1 ++ natLe 1 1 ++ natLe 3 0 ++ natLe 4 0 ++ natLe 8 0x40055000 ++ natLe 8 0)
  { s with mem := Memory.writeN s.mem 0x10000 (bytesOf 64 hdrL), ctxs := [(9, { ctxM with objs := [obj0] })] }
def copyS : State := pktS 6 9 (natLe 8 0x40057000 ++ natLe 8 0x40058000 ++ natLe 8 3)
def receiptS : State := pktS 7 9 (natLe 8 5 ++ natLe 8 0 ++ natLe 8 0x40059000)
def signalS : State := pktS 9 9 (natLe 8 0x40059000 ++ natLe 8 5)
def preemptP (b : Nat) : State := pktS 10 9 (natLe 2 0 ++ natLe 1 b)
def groupS : State :=
  let s := pktS 11 9 (natLe 4 3 ++ natLe 2 1 ++ natLe 2 0 ++ natLe 8 0x4005A000)
  { s with mem := Memory.writeN s.mem 0x4005A000 [255, 0, 9, 0] }
def peerS : State := pktS 12 0 (natLe 1 3 ++ natLe 1 1 ++ natLe 2 7 ++ natLe 4 0 ++ natLe 8 0x1234)

theorem packet_create :
    (let s1 := (tk createS).1
     let p := (tk createS).2
     (taken createS 0).isSome = true ∧ p.kind = 1 ∧ p.ctx = 0 ∧ p.reservedOk [(8, 25), (40, 8)] = true ∧ 4 ≤ p.f 32 1 ∧ p.f 32 1 ≤ 20 ∧ rootOk (p.w 16) = true ∧
      ownsOne s1 0 = false ∧ freeContext s1 = some 1) := by decide +kernel
theorem packet_create_check : ∃ s2 x, createCheck ((tk createS).1.setCtx 1 (newCtx (tk createS).1 1 0 (tk createS).2)) 1 (tk createS).2 [] = (s2, .ok x) :=
  ok_of (by decide +kernel)
theorem packet_destroy : Accepts (pktS 2 9 []) (tk (pktS 2 9 [])).1 0 (tk (pktS 2 9 [])).2 2 [.created, .measured, .running, .faulted] [] := acc_of (by decide +kernel)
theorem packet_allot : Accepts allotS (tk allotS).1 0 (tk allotS).2 3 active3 [(8, 8)] ∧
    ∃ s2 t, readTree (tk allotS).1 (tk allotS).2.ctx (fun t => ((tk allotS).1.tile t).vault = (tk allotS).2.ctx) ((tk allotS).2.w 8) [] = (s2, some t) :=
  ⟨acc_of (by decide +kernel), some_of (by decide +kernel)⟩
/-- The states that a LOAD goes through. -/
def load2 : State := (hubCheck (tk loadS).1 9 0x40053000 64 .rd).1
def load3 : State := (hubReadVa load2 9 0x40053000 64).1
theorem packet_load : Accepts loadS (tk loadS).1 0 (tk loadS).2 4 [.measured, .running] [(8, 16)] ∧ (tk loadS).2.ctx = 9 ∧ (tk loadS).2.w 8 = 0x40053000 ∧
    (tk loadS).2.f 16 8 = 64 ∧ hubCheck (tk loadS).1 9 0x40053000 64 .rd = (load2, .ok ()) ∧ hubReadVa load2 9 0x40053000 64 = (load3, .ok elf0) ∧ ∀ base, ∃ o,
      codeObj elf0 base = some o ∧ copySegs load3 9 base elf0 (elfSegs elf0) = (load3, .ok ()) :=
  ⟨acc_of (by decide +kernel), by decide +kernel, by decide +kernel, by decide +kernel, eq_ok (by decide +kernel), eq_ok (by decide +kernel), fun _ => ⟨_, by rfl, by rfl⟩⟩
def launch2 : State := (hubCheck (tk launchP).1 9 0x40054000 0 .rd).1
theorem packet_launch : Accepts launchP (tk launchP).1 0 (tk launchP).2 5 [.measured, .running] [(8, 25), (36, 20)] ∧ launchFieldsOk (tk launchP).2 = true ∧
    (tk launchP).2.f 24 4 = 0 ∧ (tk launchP).2.f 36 4 = 0 ∧ isOk' (launchCheck (tk launchP).1 (tk launchP).2).2 = true :=
  ⟨acc_of (by decide +kernel), by decide +kernel⟩
/-- The states that a COPY goes through. -/
def copy2 : State := (hubCheck (tk copyS).1 9 0x40058000 3 .rd).1
def copy3 : State := (hubCheck copy2 9 0x40057000 3 .wr).1
def copy4 : State := (hubReadVa copy3 9 0x40058000 3).1
theorem packet_copy : Accepts copyS (tk copyS).1 0 (tk copyS).2 6 active3 [(8, 24)] ∧ hubCheck (tk copyS).1 9 0x40058000 3 .rd = (copy2, .ok ()) ∧
    hubCheck copy2 9 0x40057000 3 .wr = (copy3, .ok ()) ∧ hubReadVa copy3 9 0x40058000 3 = (copy4, .ok [0, 0, 0]) ∧ ∃ s5, hubWriteVa copy4 9 0x40057000 [0, 0, 0] = (s5, .ok ()) :=
  ⟨acc_of (by decide +kernel), eq_ok (by decide +kernel), eq_ok (by decide +kernel), eq_ok (by decide +kernel), _, eq_ok (by decide +kernel)⟩
theorem packet_receipt : Accepts receiptS (tk receiptS).1 0 (tk receiptS).2 7 active3 [(8, 9), (24, 8)] ∧ (tk receiptS).2.f 16 1 ≤ 32 ∧
    ∃ s2 u, outCheck (tk receiptS).1 9 ((tk receiptS).2.w 24) (receiptLen ((tk receiptS).2.f 16 1)) .wr = (s2, .ok u) :=
  ⟨acc_of (by decide +kernel), by decide +kernel, ok_of (by decide +kernel)⟩
theorem packet_barrier : Accepts (pktS 8 9 []) (tk (pktS 8 9 [])).1 0 (tk (pktS 8 9 [])).2 8 liveStates [] := acc_of (by decide +kernel)
def signal2 : State := (hubCheck (tk signalS).1 9 0x40059000 8 .wr).1
theorem packet_signal : Accepts signalS (tk signalS).1 0 (tk signalS).2 9 liveStates [(8, 16)] ∧ (tk signalS).2.f 8 8 % 8 = 0 ∧
    hubCheck (tk signalS).1 9 0x40059000 8 .wr = (signal2, .ok ()) ∧ ∃ s3, hubWriteVa signal2 9 0x40059000 (bytesOf 8 ((tk signalS).2.w 16)) = (s3, .ok ()) :=
  ⟨acc_of (by decide +kernel), by decide +kernel, eq_ok (by decide +kernel), _, eq_ok (by decide +kernel)⟩
theorem packet_preempt : ∀ b ∈ [0, 1], Accepts (preemptP b) (tk (preemptP b)).1 0 (tk (preemptP b)).2 10 active3 [(8, 3)] ∧ (tk (preemptP b)).2.f 10 1 = b ∧
    (Tbl.find? ((tk (preemptP b)).1.ctx 9).allots ((tk (preemptP b)).2.f 8 2)).isSome = true ∧ ((tk (preemptP b)).1.ctx 9).st = .running := by
  intro b h
  have := List.all_eq_true.mp (show [0, 1].all (fun b => acc (preemptP b) 10 active3 [(8, 3)] && decide ((tk (preemptP b)).2.f 10 1 = b) &&
    (Tbl.find? ((tk (preemptP b)).1.ctx 9).allots ((tk (preemptP b)).2.f 8 2)).isSome && decide (((tk (preemptP b)).1.ctx 9).st = .running)) = true by
      decide +kernel) b h
  simp only [Bool.and_eq_true, decide_eq_true_eq] at this
  exact ⟨acc_of this.1.1.1, this.1.1.2, this.1.2, this.2⟩
def group2 : State := (hubCheck (tk groupS).1 9 0x4005A000 8 .rd).1
theorem packet_group : Accepts groupS (tk groupS).1 0 (tk groupS).2 11 active3 [(8, 6), (16, 8)] ∧ (tk groupS).2.f 12 2 = 1 ∧
    hubCheck (tk groupS).1 9 0x4005A000 8 .rd = (group2, .ok ()) ∧ (∃ s3, hubReadVa group2 9 0x4005A000 8 = (s3, .ok [255, 0, 9, 0, 0, 0, 0, 0])) ∧
    memberOf group2 [255, 0, 9, 0, 0, 0, 0, 0] ≠ none ∧ (group2.ctx 9).groups.length < 1024 :=
  ⟨acc_of (by decide +kernel), by decide +kernel, eq_ok (by decide +kernel), ⟨_, eq_ok (by decide +kernel)⟩, by decide +kernel⟩
theorem packet_peer :
    (taken peerS 0).isSome = true ∧ (tk peerS).2.kind = 12 ∧ (tk peerS).2.ctx = 0 ∧ (tk peerS).2.reservedOk [(8, 4), (16, 8)] = true ∧ (tk peerS).2.f 8 1 ≤ 254 ∧
    (tk peerS).2.f 9 1 < 2 ∧ (tk peerS).2.f 10 2 < 4096 := by decide +kernel

/-- A queue with a completion to write; a receipt to sign; a context in TEARDOWN. -/
def compl0 : Compl := { tag := 0x77, ctx := 9, status := 0, value := 5, index := 0, notify := true }
def complS : State := { ringed with queues := [(0, { queue0 with qhead := 1, opened := [0], compls := [compl0] })] }
def signing : State :=
  { demo with fw := { Firm.reset with keyEnd := 4, pend := [{ queue := 0, compl := compl0, ctx := 9, nonce := 5, n := 0, out := 0x8000000000000000, seq := 0, chain := 0, digs := [] }] } }
def ending0 : State := { demo with ctxs := [(9, { ctx9 with st := .teardown })], kernels := [], threads := [] }
theorem wit_CompletionResult :
    ((settlePends (measureNew complS 0) 0).queue 0).compls = [compl0] ∧ ((settlePends (measureNew complS 0) 0).queue 0).ringerr = false ∧
    (let x := (settlePends (measureNew complS 0) 0).queue 0; (x.ctail - x.chead).toNat < 2 ^ x.logn.toNat) ∧
    (∃ s1 u, ringWrite (settlePends (measureNew complS 0) 0) 0 0x1000 0 (complBytes compl0 0 4) = (s1, .ok u)) ∧
    (signing.fw.pend ≠ [] ∧ signing.fw.window = false ∧ signing.fw.keyNext < signing.fw.keyEnd ∧ signing.fw.keyNext < 2 ^ 30) ∧
    ((ending0.ctx 9).st = .teardown ∧ mayFree ending0 9 = true) :=
  ⟨by decide +kernel, by decide +kernel, by decide +kernel, ok_of (by decide +kernel), by decide +kernel⟩
theorem receipt_out (bs : List Byte) : ∃ s1, outWrite signing 9 0x8000000000000000 bs = (s1, .ok ()) := ⟨_, rfl⟩

/-! ### The host, links, firmware -/

/-- The running firmware; a context whose function owns `PW2`; links in each state, one with a flit outstanding. -/
def running0 : State := { demo with fw := { Firm.reset with running := true } }
def window0 : State := { demo with funcs := [(0, { Func.reset with pw2ctx := 9, pw2base := 0x40050000 })] }
def linked (l : Link) : State := demo.modLink 8 fun _ => l
def linkOf (st : LStat) : Link := { Link.reset with st := st }
def outstanding (st : LStat) : Link := { linkOf st with retry := [5] }
def late1 (l : Link) : State := { linked l with dev := { demo.dev with hubNs := 2000000 } }
/-- A MAPSEQ value whose leases are over; a request of the host that waits; link 20 down. -/
def req0 : MapReq := { value := 1, ns := 0, lease := 10, gone := [] }
def remapped : State := { late1 (linkOf .up) with ctxs := [(9, { ctx9 with mapq := [req0] })] }
def crowded : State := { demo with posted := [.pw2Read 0 0 8] }
def levelZero : State := { demo with dev := { demo.dev with service := 0 } }
def severed20 : State := demo.modLink 20 fun l => { l with st := .down }
theorem wit_HostEventResult :
    running0.fw.running = true ∧
    ({ Queue.reset with en := true, logn := 4 } : Queue).en = true ∧ ((5 : BitVec 32) - 0).toNat ≤ 2 ^ (4 : BitVec 5).toNat ∧
    2 ^ (4 : BitVec 5).toNat < ((17 : BitVec 32) - 0).toNat ∧
    (∀ s ∈ [running0, demo, window0], (s.link 20).st = .up ∧ s.posted = []) ∧ demo.dev.service ≠ 0 ∧ (∀ q, (demo.queue q).en = false ∧ (demo.queue q).st ≠ .draining) ∧
    ((remapped.ctx 9).mapq = [req0] ∧ req0.ns + 1000 * req0.lease + 1000 ≤ remapped.dev.hubNs ∧ underOld remapped 9 req0 = false) ∧
    (crowded.link 20).st = .up ∧ crowded.posted ≠ [] ∧ (severed20.link 20).st ≠ .up ∧ ownControl (.regWrite 0 (.pw0 0x100) 5) = false ∧
    (∃ s1 s2 r, pw2Check window0 0 0 8 .rd = (s1, .ok ()) ∧ pw2Read s1 0 0 8 = (s2, r)) ∧ (∃ s1 b, pw2Check demo 0 0 8 .rd = (s1, .error b)) ∧
    (∃ s1 s2 r, pw2Check window0 0 0 2 .wr = (s1, .ok ()) ∧ pw2Write s1 0 0 [1, 2] = (s2, r)) ∧ (∃ s1 b, pw2Check demo 0 0 2 .wr = (s1, .error b)) ∧
    ((levelZero.link 20).st = .up ∧ levelZero.posted = [] ∧ levelZero.dev.service = 0) ∧ (∀ kc ∈ demo.ctxs, kc.2.owner ≠ 3) :=
  ⟨rfl, rfl, by decide +kernel, by decide +kernel, by decide +kernel, by decide +kernel, fun _ => ⟨rfl, fun h => (nomatch h)⟩, by decide +kernel, by decide +kernel,
   by decide +kernel, by decide +kernel, by decide +kernel, ⟨_, _, _, eq_ok (by decide +kernel), rfl⟩, err_of (by decide +kernel),
   ⟨_, _, _, eq_ok (by decide +kernel), rfl⟩, err_of (by decide +kernel), by decide +kernel⟩

/-- A level at which registers read zero; firmware that runs and not; an offset of another function. -/
theorem wit_HostReadResult : State.reset.dev.service = 0 ∧ demo.dev.service ≠ 0 ∧ running0.fw.running = true ∧ demo.fw.running = false ∧ (3 : Nat) ≠ 0x20000 / 0x10000 := by
  decide +kernel

/-- A flit with its SEQ, kind and ACK. -/
def flit (seq : BitVec 12) (kind : BitVec 4) : BitVec 2048 := (0#1 ++ (0#3 ++ (0xFFF#12 ++ (kind ++ seq)))).setWidth 2048
theorem wit_LinkEventResult :
    demo.dev.service ≠ 0 ∧ (∀ st : LStat, ((linked (linkOf st)).link 20).st = .up ∧ (linked (linkOf st)).posted = []) ∧ ((demo.modLink 20 fun _ => linkOf .failed).link 20).st = .failed ∧
    linkBusy (linked (linkOf .quiescing)) 8 = false ∧ (∀ st : LStat, ((linked (linkOf st)).link 8).st = st ∧ ((linked (outstanding st)).link 8).retry ≠ []) ∧ (linkOf .quiescing).retry = [] ∧
    (linked (linkOf .retraining)).dev.hubNs ≤ (linkOf .retraining).since + 1000000 ∧ (linkOf .retraining).since + 1000000 ≤ (late1 (linkOf .retraining)).dev.hubNs ∧
    (outstanding .up).ackNs + 20000 ≤ (late1 (outstanding .up)).dev.hubNs ∧
    (let m := (linkOf .up).acked 0 (flitAck (flit 0 3)) (flitNak (flit 0 3))
     flitKind (flit 0 3) ≠ 0 ∧ flitKind (flit 0 3) ≠ 5 ∧ flitSeq (flit 0 3) = m.rxSeq ∧ flitSeq (flit 7 3) ≠ m.rxSeq) ∧ flitKind (flit 0 5) = 5 := by
  refine ⟨by decide +kernel, fun st => by cases st <;> decide +kernel, by decide +kernel, by decide +kernel, fun st => by cases st <;> decide +kernel, rfl, by decide +kernel⟩
theorem link_waiting : (linkOf .up).unsent = [] ∧ (linkOf .down).maySend 3 = false ∧ ({ linkOf .up with unsent := [(3, 0)] } : Link).unsent ≠ [] ∧ 2 ≤ demo.dev.service.toNat := by
  decide +kernel

/-- Die 1 by its own link; by the hub where that link is down; by no path where every link is. -/
theorem wit_route : (route demo 0 1).any (fun p => p.length = 1) = true ∧ (route (demo.modLink ((directLink 0 1).getD 0) fun l => { l with st := .down }) 0 1) = some [4, 5] ∧
    route { demo with links := State.reset.links } 0 1 = none ∧ flitKind (flit 0 1) = 1 := by decide +kernel

/-- A peer behind link 8, and region 5 of this device in each state. -/
def peered (r : RStat) : State := { demo with peers := [(3, { valid := true, links := 1, devser := 5 })], regions := [(5, r)], dev := { demo.dev with hubNs := 2000000 } }
def severed : State := (peered (.remote 3 false)).modLink 8 fun l => { l with st := .failed }
/-- An agent waits for page 5, which has been asked for or not; a page of the peer. -/
def wants (page : Nat) (r : RStat) : State := { peered r with ownReqs := [{ tile := 0, ctx := 9, page := page, who := .thread 0 }] }
def hasAsked (page : Nat) (r : RStat) : State := { wants page r with carried := [{ link := 8, peer := 3, page := page, mine := true }] }
def peerPage : Nat := peerPlace 3 0 / 65536
theorem wit_OwnershipEventResult :
    (peerLink (peered .home) 3 = some 8 ∧ answerLink (peered .home) 3 = some 8 ∧ (peered .home).peerReqs = []) ∧
    (wanted (peered (.remote 3 false)) 5 = false ∧ askedFor (hasAsked 5 (.remote 3 false)) 5 = true) ∧
    ((wants 5 (.remote 3 false)).ownReqs.find? (·.page = 5) = some { tile := 0, ctx := 9, page := 5, who := .thread 0 } ∧ askedFor (wants 5 (.remote 3 false)) 5 = false ∧
      Owns (wants 5 (.remote 3 false)) 5 (.remote 3 false) ∧ holdOver (wants 5 (.remote 3 false)) 5 = true ∧
      holdOver { wants 5 (.remote 3 false) with grants := [(5, 2000000)] } 5 = false) ∧
    (ownRegion peerPage = false ∧ isPeer (peerPage * 65536) = true ∧ peerOf (peerPage * 65536) = 3 ∧ askedFor (wants peerPage .home) peerPage = false ∧
      askedFor (hasAsked peerPage .home) peerPage = true ∧ peerPage ∉ (hasAsked peerPage .home).owned ∧ holdOver (peered .home) peerPage = true ∧
      regionHeld { peered .home with owned := [peerPage] } peerPage = false) ∧
    (∀ r ∈ [RStat.home, .soft, .held 3, .moving 3 false true, .moving 3 false false], Owns (peered r) 5 r ∧ holdOver (peered r) 5 = true) ∧
    (∀ r ∈ [RStat.home, .soft, .held 3, .moving 3 false true], regionHeld (peered r) 5 = false) ∧
    lostFor1ms severed 3 = true ∧ lostFor1ms demo 3 = false := by
  refine ⟨by decide +kernel, by decide +kernel, ⟨by decide +kernel, by decide +kernel, ⟨by decide +kernel, by decide +kernel⟩, by decide +kernel⟩, by decide +kernel, fun r h => ?_, by decide +kernel⟩
  have := (show ∀ r ∈ [RStat.home, .soft, .held 3, .moving 3 false true, .moving 3 false false],
    ownRegion 5 = true ∧ Tbl.get (peered r).regions .home 5 = r ∧ holdOver (peered r) 5 = true by decide +kernel) r h
  exact ⟨⟨this.1, this.2.1⟩, this.2.2⟩

/-- A page held for less than 2 µs; a request that waits for it, of a peer and of this device. -/
def asked (q : Nat) : State := { peered .home with peerReqs := [(q, 5)] }
theorem wit_OwnershipTurns :
    holdOver { peered .home with grants := [(5, 2000000)] } 5 = false ∧ nextFor (asked 3) 5 = some 3 ∧ holdOver (asked 3) 5 = true ∧ regionHeld (asked 3) 5 = false ∧ nextFor (peered .home) 5 = none ∧
    (nextFor (bringPage (answered (peered (.moving 3 false false)) 3 5 true) 5 []) 5 = none ∧
      nextFor (bringPage (answered { peered (.moving 3 false false) with peerReqs := [(4, 5)] } 3 5 true) 5 []) 5 = some 4) := by decide +kernel

/-- A die in reset, its steps taken; its links QUIESCED, FAILED or UP. -/
def resetting (moved zeroed : Bool) (st : LStat) : State :=
  [0, 2, 5].foldl (fun s n => s.modLink n fun l => { l with st := st }) { demo with dierst := { stat := 1, sel := 1, die := 1, active := true, moved := moved, zeroed := zeroed, lost := 2 } }
theorem wit_DieResetResult :
    ((demo.link 20).st = .up ∧ demo.posted = [] ∧ demo.dev.service ≠ 0 ∧ (0x11 : Word).getLsbD 0 = true ∧ demo.dierst.stat = 0 ∧ demo.dierst.active = false ∧ (0x11 : Word).extractLsb' 4 2 ≠ 0) ∧
    ((0x10 : Word).getLsbD 0 = false) ∧ ((0x01 : Word).getLsbD 0 = true ∧ (0x01 : Word).extractLsb' 4 2 = 0) ∧
    ((resetting false false .up).dierst.active = true ∧ (resetting false false .up).dierst.die.toNat = 1 ∧ (resetting false false .up).dierst.moved = false) ∧
    ((resetting true false .quiesced).dierst.moved = true ∧ (resetting true false .quiesced).dierst.zeroed = false ∧ linksDown (resetting true false .quiesced) 1 ∧
      linksDown (resetting true false .failed) 1) ∧
    ((resetting true true .failed).dierst.zeroed = true ∧ (∃ n ∈ dieLinks 1, ((resetting true true .failed).link n).st = .failed) ∧
      ∀ n ∈ dieLinks 1, ((resetting true true .up).link n).st = .up) := by
  refine ⟨by decide +kernel, by decide +kernel, by decide +kernel, by decide +kernel, ⟨by decide +kernel, by decide +kernel, fun n h => ?_, fun n h => ?_⟩, by decide +kernel⟩
  · exact .inl ((show ∀ n ∈ dieLinks 1, ((resetting true false .quiesced).link n).st = .quiesced by decide +kernel) n h)
  · exact .inr ((show ∀ n ∈ dieLinks 1, ((resetting true false .failed).link n).st = .failed by decide +kernel) n h)

/-- An image chosen by the boot ROM; the reeve column at level 1 and at 2; a hand-over staged. -/
def training0 : State := { demo with fw := { Firm.reset with booted := some 3 } }.modLink 4 fun _ => linkOf .training
def booting (ns : Nat) : State := { demo with fw := { Firm.reset with booted := some 3, bootNs := some 5 }, dev := { demo.dev with hubNs := ns } }
def level (n : BitVec 2) : State := { running0 with dev := { demo.dev with service := n } }
def seg0 : Seg := { kind := 1, gen := 4, signedGen := 0, arg := 7, payload := [1], digest := 0, sig := [], commit := Seg.mark }
def staged0 : State := { running0 with fw := { running0.fw with staged := some seg0, checked := true, window := true } }
theorem wit_FirmwareEventResult :
    (training0.fw.booted = some 3 ∧ training0.fw.running = false ∧ training0.fw.bootNs = none ∧ (training0.link 4).st = .training ∧ resetHolds training0 4 = false) ∧
    (∀ ns, (booting ns).fw.booted = some 3 ∧ (booting ns).fw.running = false ∧ (booting ns).fw.bootNs = some 5 ∧ (booting ns).dev.hubNs = ns) ∧
    ((level 1).fw.running = true ∧ (level 1).dev.service = 1 ∧ (level 1).dierst.lost.getLsbD 0 = false) ∧
    (2 ≤ (level 2).dev.service.toNat ∧ (level 2).dierst.lost.getLsbD 1 = false ∧ ∀ n ∈ dieLinks 1, ((level 2).link n).st = .up) ∧
    ((running0.link 20).st = .up ∧ running0.posted = []) ∧ running0.fw.fwstat ≠ sBusy ∧ ({ running0 with fw := { running0.fw with fwstat := sBusy } } : State).fw.fwstat = sBusy ∧
    (staged0.fw.staged = some seg0 ∧ staged0.fw.checked = true) :=
  ⟨by decide +kernel, fun _ => ⟨rfl, rfl, rfl, rfl⟩, by decide +kernel, by decide +kernel, by decide +kernel, by decide +kernel, by decide +kernel, rfl, rfl⟩

/-! ### Decoding, steps, invariants -/

theorem exc_of {ε α : Type} {r : Except ε α} (h : isOk' r = true) : ∃ b, r = .ok b := by
  cases r with
  | ok b => exact ⟨b, rfl⟩
  | error => cases h
/-- Well-formed instructions of each encoding, and the word of one (the worked `add` of chapter 7). -/
def addW : IWord := wordOf [0x10, 0x20, 0x8A, 0x06, 0x60, 0, 0, 0, 0, 0, 0, 0, 0, 0, 0, 0]
theorem wit_EncodeDecode : (Instr.add (.c addF)).wf = true ∧ (Instr.add (.c addF)).parts ≠ none ∧ (Instr.exit (gm 0 0 0)).wf = true ∧ (Instr.exit (gm 0 0 0)).parts ≠ none := by
  decide +kernel
theorem wit_DecodeEncode : (∃ i, decodeWord addW = .ok i) ∧ (15 : IWord).extractLsb' 0 4 = 15 ∧ (8 : IWord).extractLsb' 0 4 ∈ [(8 : BitVec 4), 9, 10, 11, 13, 14] :=
  ⟨exc_of (by decide +kernel), by decide +kernel⟩

/-- A device whose agenda holds the next move. -/
def planned (m : Move) (s : State) : State := { s with agenda := [m] }
/-- The state in which the thread's turn comes, and that after its translation. -/
def turn0 : State := toSlot (moving (planned (.thread 0) (withWord addW))) 0
def turn1 : State := (translateLeaf turn0 0 9 0x10000 .exC).1
theorem wit_StepRunsDecoded :
    ((planned (.thread 0) (withWord addW)).dev.powered = true ∧ (moveOf (planned (.thread 0) (withWord addW))).1 = .thread 0 ∧
      (turn0.thr 0).role ≠ .firmware ∧ dueNow (turn0.thr 0) = none ∧ (turn0.thr 0).hwait = .none ∧ runsOn turn0 (tileOf 0) (turn0.thr 0).ctx = true ∧ fetchWaits turn1 (tileOf 0) 0x10000 = false ∧
      (turn0.thr 0).running = true ∧ residentOk turn0 0 = true ∧ (turn0.thr 0).wait = .none ∧ (turn0.thr 0).hold = 0 ∧ (turn0.thr 0).pc = 0x10000 ∧
      windowOf (turn0.thr 0).pc.toNat = some .w0) ∧
    (translateLeaf turn0 0 9 0x10000 .exC = (turn1, .ok (0xD1, 0x10000)) ∧ icacheLine turn1 (tileOf 0) 0x10000 = none ∧ errReply turn1 0x10000 = false ∧
      poisoned turn1 0x10000 16 = false ∧ BitVec.ofNat 128 (leNat (readHome turn1 0x10000 16)) = addW ∧ ∃ i, decodeC addW = .ok i) ∧
    (let s := moving (planned (.node 2 0) (demoG 0x86 (gm 0 0 0) []))
     s.inst? 2 = some (blockOf 0x86 (gm 0 0 0) []) ∧ s.act? 1 = some act0 ∧ planeMayFire s (dieOf 0) 0 = true ∧ runsOn s act0.tile act0.ctx = true) ∧
    (moveOf (planned (.hostRead 0 (.pw0 0)) demo)).1 = .hostRead 0 (.pw0 0) ∧ ((moving (planned (.hostRead 0 (.pw0 0)) demo)).link 20).st = .up ∧ (moving demo).posted = [] ∧ (moveOf (planned (.hostMem 0x1000 [1]) demo)).1 = .hostMem 0x1000 [1] ∧
    (∃ i, decodeG (GForm.word (gm 0 0 0) 0x86) = .ok i) ∧
    Instr.parts .powerLoss = none ∧ ({ demo with dev := { demo.dev with powered := false } } : State).dev.powered = false :=
  ⟨by decide +kernel,
   ⟨eq_ok (by decide +kernel), by decide +kernel, by decide +kernel, by decide +kernel, by decide +kernel, exc_of (by decide +kernel)⟩,
   by decide +kernel, rfl, by decide +kernel, by decide +kernel, rfl, exc_of (by decide +kernel), rfl, rfl⟩

theorem wit_StepKeepsMemoryForm : demo.Inv ∧ ∃ t, step (planned (.event .powerLoss) demo) = .next t := ⟨show Memory.wf demo.mem = true by decide +kernel, _, rfl⟩

/-! ### Decoding: a word of every constructor and encoding, its bits from Tables 05-2, 05-11 and 05-12 -/

/-- A bundle with PRD 9; a graph word's fields. -/
def cw (cls : BitVec 4) (d a b c : BitVec 6) (md : BitVec 12) (imm : BitVec 44) : CForm := { plainC cls d a b c md imm with prd := 9 }
def gw (nopnd : BitVec 2) (t0 : BitVec 10) (lsid : BitVec 5) (md : BitVec 6) (imm : BitVec 48) : GForm := { gm nopnd md imm with t0 := t0, lsid := lsid }
/-- The word decodes to the instruction. -/
def dec (x : Nat × Instr) : Bool := match decodeWord (BitVec.ofNat 128 x.1) with | .ok i => decide (i = x.2) | .error _ => false
theorem test_decode_integer_bundles_1 :
    [(0x9006103081000, .nop (.c (cw 0 1 2 3 4 0x006 0))), (0x9006103081014, .add (.c (cw 4 1 2 3 4 0x006 0))),
     (0x9006103081021, .sub (.c (cw 1 1 2 3 4 0x006 0))), (0x9006103081030, .mul (.c (cw 0 1 2 3 4 0x006 0))),
     (0x9006103081044, .mulh (.c (cw 4 1 2 3 4 0x006 0))), (0x9006103081051, .div (.c (cw 1 1 2 3 4 0x006 0))),
     (0x9006103081060, .rem (.c (cw 0 1 2 3 4 0x006 0))), (0x9006103081074, .madd (.c (cw 4 1 2 3 4 0x006 0))),
     (0x9006103081081, .and (.c (cw 1 1 2 3 4 0x006 0))), (0x9006103081090, .or (.c (cw 0 1 2 3 4 0x006 0))),
     (0x90061030810A4, .xor (.c (cw 4 1 2 3 4 0x006 0))), (0x90061030810B1, .andn (.c (cw 1 1 2 3 4 0x006 0))),
     (0x90061030810C0, .shl (.c (cw 0 1 2 3 4 0x006 0))), (0x90061030810D4, .shr (.c (cw 4 1 2 3 4 0x006 0))),
     (0x90061030810E1, .rot (.c (cw 1 1 2 3 4 0x006 0))), (0x90061030810F0, .min (.c (cw 0 1 2 3 4 0x006 0))),
     (0x9006103081104, .max (.c (cw 4 1 2 3 4 0x006 0))), (0x9006103081111, .cmp (.c (cw 1 1 2 3 4 0x006 0))),
     (0x9006103081120, .sel (.c (cw 0 1 2 3 4 0x006 0))), (0x9006103081134, .clz (.c (cw 4 1 2 3 4 0x006 0)))].all dec = true := by decide +kernel
theorem test_decode_integer_bundles_2 :
    [(0x9006103081141, .popc (.c (cw 1 1 2 3 4 0x006 0))), (0x9006103081150, .brev (.c (cw 0 1 2 3 4 0x006 0))),
     (0x9006103081164, .bfx (.c (cw 4 1 2 3 4 0x006 0))), (0x9006103081171, .bfi (.c (cw 1 1 2 3 4 0x006 0))),
     (0x9006103081180, .sext (.c (cw 0 1 2 3 4 0x006 0))), (0x9006103081194, .zext (.c (cw 4 1 2 3 4 0x006 0))),
     (0x90061030811A0, .mov (.c (cw 0 1 2 3 4 0x006 0))), (0x90061030811B1, .li (.c (cw 1 1 2 3 4 0x006 0))),
     (0x90061030811C1, .lih (.c (cw 1 1 2 3 4 0x006 0))), (0x90061030811D1, .adr (.c (cw 1 1 2 3 4 0x006 0))),
     (0x90061030811E0, .abs (.c (cw 0 1 2 3 4 0x006 0)))].all dec = true := by decide +kernel
theorem test_decode_integer_blocks_1 :
    [(0x318E0050A000C, .nop (.g (gw 0 0x285 7 6 3))), (0x318E0050A201C, .add (.g (gw 2 0x285 7 6 3))), (0x318E0050A202C, .sub (.g (gw 2 0x285 7 6 3))),
     (0x318E0050A203C, .mul (.g (gw 2 0x285 7 6 3))), (0x318E0050A204C, .mulh (.g (gw 2 0x285 7 6 3))), (0x318E0050A205C, .div (.g (gw 2 0x285 7 6 3))),
     (0x318E0050A206C, .rem (.g (gw 2 0x285 7 6 3))), (0x318E0050A307C, .madd (.g (gw 3 0x285 7 6 3))), (0x318E0050A208C, .and (.g (gw 2 0x285 7 6 3))),
     (0x318E0050A209C, .or (.g (gw 2 0x285 7 6 3))), (0x318E0050A20AC, .xor (.g (gw 2 0x285 7 6 3))), (0x318E0050A20BC, .andn (.g (gw 2 0x285 7 6 3))),
     (0x318E0050A20CC, .shl (.g (gw 2 0x285 7 6 3))), (0x318E0050A20DC, .shr (.g (gw 2 0x285 7 6 3))), (0x318E0050A20EC, .rot (.g (gw 2 0x285 7 6 3))),
     (0x318E0050A20FC, .min (.g (gw 2 0x285 7 6 3))), (0x318E0050A210C, .max (.g (gw 2 0x285 7 6 3))), (0x318E0050A211C, .cmp (.g (gw 2 0x285 7 6 3))),
     (0x318E0050A312C, .sel (.g (gw 3 0x285 7 6 3))), (0x318E0050A113C, .clz (.g (gw 1 0x285 7 6 3)))].all dec = true := by decide +kernel
theorem test_decode_integer_blocks_2 :
    [(0x318E0050A114C, .popc (.g (gw 1 0x285 7 6 3))), (0x318E0050A115C, .brev (.g (gw 1 0x285 7 6 3))), (0x318E0050A216C, .bfx (.g (gw 2 0x285 7 6 3))),
     (0x318E0050A317C, .bfi (.g (gw 3 0x285 7 6 3))), (0x318E0050A218C, .sext (.g (gw 2 0x285 7 6 3))), (0x318E0050A219C, .zext (.g (gw 2 0x285 7 6 3))),
     (0x318E0050A11AC, .mov (.g (gw 1 0x285 7 6 3))), (0x318E0050A11BC, .li (.g (gw 1 0x285 7 6 3))), (0x318E0050A11CC, .lih (.g (gw 1 0x285 7 6 3))),
     (0x318E0050A11DC, .adr (.g (gw 1 0x285 7 6 3))), (0x318E0050A11EC, .abs (.g (gw 1 0x285 7 6 3)))].all dec = true := by decide +kernel
theorem test_decode_float_bundles_1 :
    [(0x900F103081200, .fadd (.c (cw 0 1 2 3 4 0x00F 0))), (0x900F103081210, .fsub (.c (cw 0 1 2 3 4 0x00F 0))),
     (0x900F103081220, .fmul (.c (cw 0 1 2 3 4 0x00F 0))), (0x900F103081230, .fma (.c (cw 0 1 2 3 4 0x00F 0))),
     (0x900F103081240, .fmin (.c (cw 0 1 2 3 4 0x00F 0))), (0x900F103081250, .fmax (.c (cw 0 1 2 3 4 0x00F 0))),
     (0x900F103081260, .fcmp (.c (cw 0 1 2 3 4 0x00F 0))), (0x900F103081270, .fsgn (.c (cw 0 1 2 3 4 0x00F 0))),
     (0x900F103081280, .fcvt (.c (cw 0 1 2 3 4 0x00F 0))), (0x900F103081290, .fcls (.c (cw 0 1 2 3 4 0x00F 0))),
     (0x900F1030812A0, .frnd (.c (cw 0 1 2 3 4 0x00F 0))), (0x900F1030812B0, .fdiv (.c (cw 0 1 2 3 4 0x00F 0))),
     (0x900F1030812C0, .fsqrt (.c (cw 0 1 2 3 4 0x00F 0))), (0x900F103081300, .frcp (.c (cw 0 1 2 3 4 0x00F 0))),
     (0x900F103081310, .frsq (.c (cw 0 1 2 3 4 0x00F 0))), (0x900F103081320, .fex2 (.c (cw 0 1 2 3 4 0x00F 0))),
     (0x900F103081330, .flg2 (.c (cw 0 1 2 3 4 0x00F 0))), (0x900F103081340, .fsin (.c (cw 0 1 2 3 4 0x00F 0))),
     (0x900F103081350, .fcos (.c (cw 0 1 2 3 4 0x00F 0))), (0x900F103081360, .ftanh (.c (cw 0 1 2 3 4 0x00F 0)))].all dec = true := by decide +kernel
theorem test_decode_float_bundles_2 :
    [(0x900F103081370, .fsigm (.c (cw 0 1 2 3 4 0x00F 0))), (0x900F103081380, .fgelu (.c (cw 0 1 2 3 4 0x00F 0))),
     (0x900F103081390, .fsilu (.c (cw 0 1 2 3 4 0x00F 0)))].all dec = true := by decide +kernel
theorem test_decode_float_blocks_1 :
    [(0x318E0050A220C, .fadd (.g (gw 2 0x285 7 6 3))), (0x318E0050A221C, .fsub (.g (gw 2 0x285 7 6 3))), (0x318E0050A222C, .fmul (.g (gw 2 0x285 7 6 3))),
     (0x318E0050A323C, .fma (.g (gw 3 0x285 7 6 3))), (0x318E0050A224C, .fmin (.g (gw 2 0x285 7 6 3))), (0x318E0050A225C, .fmax (.g (gw 2 0x285 7 6 3))),
     (0x318E0050A226C, .fcmp (.g (gw 2 0x285 7 6 3))), (0x318E0050A227C, .fsgn (.g (gw 2 0x285 7 6 3))), (0x318E0050A128C, .fcvt (.g (gw 1 0x285 7 6 3))),
     (0x318E0050A129C, .fcls (.g (gw 1 0x285 7 6 3))), (0x318E0050A12AC, .frnd (.g (gw 1 0x285 7 6 3))), (0x318E0050A22BC, .fdiv (.g (gw 2 0x285 7 6 3))),
     (0x318E0050A12CC, .fsqrt (.g (gw 1 0x285 7 6 3))), (0x318E0050A130C, .frcp (.g (gw 1 0x285 7 6 3))), (0x318E0050A131C, .frsq (.g (gw 1 0x285 7 6 3))),
     (0x318E0050A132C, .fex2 (.g (gw 1 0x285 7 6 3))), (0x318E0050A133C, .flg2 (.g (gw 1 0x285 7 6 3))), (0x318E0050A134C, .fsin (.g (gw 1 0x285 7 6 3))),
     (0x318E0050A135C, .fcos (.g (gw 1 0x285 7 6 3))), (0x318E0050A136C, .ftanh (.g (gw 1 0x285 7 6 3)))].all dec = true := by decide +kernel
theorem test_decode_float_blocks_2 :
    [(0x318E0050A137C, .fsigm (.g (gw 1 0x285 7 6 3))), (0x318E0050A138C, .fgelu (.g (gw 1 0x285 7 6 3))), (0x318E0050A139C, .fsilu (.g (gw 1 0x285 7 6 3)))].all dec = true := by decide +kernel
theorem test_decode_vector_bundles :
    [(0x9006103081404, .vbcast (cw 4 1 2 3 4 0x006 0)), (0x9006103081414, .vperm (cw 4 1 2 3 4 0x006 0)), (0x9006103081424, .vred (cw 4 1 2 3 4 0x006 0)),
     (0x9006103081434, .vscan (cw 4 1 2 3 4 0x006 0)), (0x9006103081444, .vcmp (cw 4 1 2 3 4 0x006 0)), (0x9006103081454, .vmerge (cw 4 1 2 3 4 0x006 0)),
     (0x9006103081464, .vcomp (cw 4 1 2 3 4 0x006 0)), (0x9006103081474, .vspread (cw 4 1 2 3 4 0x006 0)), (0x9006103081484, .vlane (cw 4 1 2 3 4 0x006 0)),
     (0x9006103081494, .vins (cw 4 1 2 3 4 0x006 0)), (0x90061030814A4, .vext (cw 4 1 2 3 4 0x006 0)), (0x90061030814B4, .mlog (cw 4 1 2 3 4 0x006 0)),
     (0x90061030814C4, .mpop (cw 4 1 2 3 4 0x006 0)), (0x90061030814D4, .mfirst (cw 4 1 2 3 4 0x006 0)), (0x690041030814E4, .vnarrow (cw 4 1 2 3 4 0x004 6)),
     (0x90061030814F4, .vwiden (cw 4 1 2 3 4 0x006 0)), (0x9000103081504, .vdot (cw 4 1 2 3 4 0x000 0)), (0x9006103081514, .vrev (cw 4 1 2 3 4 0x006 0)),
     (0x9006103081524, .vrot (cw 4 1 2 3 4 0x006 0))].all dec = true := by decide +kernel
theorem test_decode_memory_bundles :
    [(0x9006103081602, .ld (.c (cw 2 1 2 3 4 0x006 0))), (0x9006103081612, .st (.c (cw 2 1 2 3 4 0x006 0))),
     (0x9006103081682, .prf (.c (cw 2 1 2 3 4 0x006 0))), (0x9006103081622, .vld (cw 2 1 2 3 4 0x006 0)), (0x9006103081632, .vst (cw 2 1 2 3 4 0x006 0)),
     (0x9006103081642, .vgat (cw 2 1 2 3 4 0x006 0)), (0x9006103081652, .vsct (cw 2 1 2 3 4 0x006 0)), (0x9006103081662, .vlds (cw 2 1 2 3 4 0x006 0)),
     (0x9006103081672, .vsts (cw 2 1 2 3 4 0x006 0)), (0x9006103081692, .cwb (cw 2 1 2 3 4 0x006 0)), (0x90061030816A2, .cinv (cw 2 1 2 3 4 0x006 0))].all dec = true := by decide +kernel
theorem test_decode_memory_blocks :
    [(0x318E0050A260C, .ld (.g (gw 2 0x285 7 6 3))), (0x318E00000361C, .st (.g (gw 3 0 7 6 3))), (0x318E0050A268C, .prf (.g (gw 2 0x285 7 6 3)))].all dec = true := by decide +kernel
theorem test_decode_sync_bundles :
    [(0x9006103081706, .amo (.c (cw 6 1 2 3 4 0x006 0))), (0x9006103081716, .cas (.c (cw 6 1 2 3 4 0x006 0))),
     (0x9006103081726, .fence (.c (cw 6 1 2 3 4 0x006 0))), (0x9006103081736, .pub (.c (cw 6 1 2 3 4 0x006 0))),
     (0x9006103081746, .synPost (.c (cw 6 1 2 3 4 0x006 0))), (0x9006103081766, .synRead (.c (cw 6 1 2 3 4 0x006 0))),
     (0x9006103081786, .ctrAdd (.c (cw 6 1 2 3 4 0x006 0))), (0x9006103081756, .synWait (cw 6 1 2 3 4 0x006 0)),
     (0x9006103081776, .ctrWait (cw 6 1 2 3 4 0x006 0)), (0x9006103081796, .semSig (cw 6 1 2 3 4 0x006 0)), (0x90061030817A6, .semWait (cw 6 1 2 3 4 0x006 0)),
     (0x90061030817B6, .barArr (cw 6 1 2 3 4 0x006 0)), (0x90061030817C6, .barWait (cw 6 1 2 3 4 0x006 0)), (0x90001030817D6, .gbarArr (cw 6 1 2 3 4 0x000 0)),
     (0x90201030817D6, .gbarWait (cw 6 1 2 3 4 0x020 0)), (0x90001030817E6, .cmodeCoh (cw 6 1 2 3 4 0x000 0)),
     (0x90201030817E6, .cmodeSoft (cw 6 1 2 3 4 0x020 0)), (0x90061030817F6, .tfence (cw 6 1 2 3 4 0x006 0))].all dec = true := by decide +kernel
theorem test_decode_sync_blocks :
    [(0x318E0050A270C, .amo (.g (gw 2 0x285 7 6 3))), (0x318E0050A371C, .cas (.g (gw 3 0x285 7 6 3))), (0x318E00000172C, .fence (.g (gw 1 0 7 6 3))),
     (0x318E00000273C, .pub (.g (gw 2 0 7 6 3))), (0x318E0050A274C, .synPost (.g (gw 2 0x285 7 6 3))), (0x318E0050A176C, .synRead (.g (gw 1 0x285 7 6 3))),
     (0x318E0050A378C, .ctrAdd (.g (gw 3 0x285 7 6 3)))].all dec = true := by decide +kernel
theorem test_decode_control_bundles :
    [(0x9000103081803, .br (.c (cw 3 1 2 3 4 0x000 0))), (0x9000103081813, .jmp (.c (cw 3 1 2 3 4 0x000 0))),
     (0x9000103081823, .jmpr (.c (cw 3 1 2 3 4 0x000 0))), (0x9000103081833, .call (.c (cw 3 1 2 3 4 0x000 0))),
     (0x9000103081843, .callr (.c (cw 3 1 2 3 4 0x000 0))), (0x9000103081853, .ret (.c (cw 3 1 2 3 4 0x000 0)))].all dec = true := by decide +kernel
theorem test_decode_control_blocks :
    [(0x318E0050A080C, .br (.g (gw 0 0x285 7 6 3))), (0x318E0050A181C, .jmp (.g (gw 1 0x285 7 6 3))), (0x318E0050A182C, .jmpr (.g (gw 1 0x285 7 6 3))),
     (0x318E0050A183C, .call (.g (gw 1 0x285 7 6 3))), (0x318E0050A284C, .callr (.g (gw 2 0x285 7 6 3))), (0x318E0050A185C, .ret (.g (gw 1 0x285 7 6 3))),
     (0x318E00000186C, .exit (gw 1 0 7 6 3)), (0x318E0050A287C, .steer (gw 2 0x285 7 6 3)), (0x318E0050A188C, .fan (gw 1 0x285 7 6 3)),
     (0x318E0050A189C, .null (gw 1 0x285 7 6 3)), (0x318E0050A28AC, .gate (gw 2 0x285 7 6 3)), (0x318E0000018BC, .fwr (gw 1 0 7 6 3)),
     (0x18E0050A18CC, .acc (gw 1 0x285 7 6 0)), (0x18E0050A28DC, .merge (gw 2 0x285 7 6 0))].all dec = true := by decide +kernel
theorem test_decode_engine_bundles :
    [(0x9017103081905, .mm (cw 5 1 2 3 4 0x017 0)), (0x9017103081915, .mmb (cw 5 1 2 3 4 0x017 0)), (0x9017103081925, .rstep (cw 5 1 2 3 4 0x017 0)),
     (0x9006103081935, .cp (.c (cw 5 1 2 3 4 0x006 0))), (0x9006103081955, .gath (.c (cw 5 1 2 3 4 0x006 0))),
     (0x9000103081975, .slotFree (.c (cw 5 1 2 3 4 0x000 0))), (0x9000103081945, .cps (cw 5 1 2 3 4 0x000 0)), (0x9006103081965, .coll (cw 5 1 2 3 4 0x006 0)),
     (0x9000103081985, .sbind (cw 5 1 2 3 4 0x000 0)), (0x9000103081995, .sbar (cw 5 1 2 3 4 0x000 0)), (0x9000103081A05, .eWait (.c (cw 5 1 2 3 4 0x000 0))),
     (0x9000103081A15, .eTest (.c (cw 5 1 2 3 4 0x000 0))), (0x9000103081A25, .eCancel (cw 5 1 2 3 4 0x000 0)),
     (0x9000103081A35, .eDetach (cw 5 1 2 3 4 0x000 0)), (0x9000103081A45, .eAdopt (cw 5 1 2 3 4 0x000 0)), (0x9000103081A55, .ePrio (cw 5 1 2 3 4 0x000 0)),
     (0x9000103081A65, .eFault (cw 5 1 2 3 4 0x000 0))].all dec = true := by decide +kernel
theorem test_decode_engine_blocks :
    [(0x318E0050A393C, .cp (.g (gw 3 0x285 7 6 3))), (0x318E0050A395C, .gath (.g (gw 3 0x285 7 6 3))), (0x318E0050A297C, .slotFree (.g (gw 2 0x285 7 6 3))),
     (0x318E0050A1A0C, .eWait (.g (gw 1 0x285 7 6 3))), (0x318E0050A1A1C, .eTest (.g (gw 1 0x285 7 6 3)))].all dec = true := by decide +kernel
theorem test_decode_system_bundles :
    [(0x9000103081B07, .ctxStart (cw 7 1 2 3 4 0x000 0)), (0x9000103081B17, .ctxReap (cw 7 1 2 3 4 0x000 0)), (0x9000103081B27, .getsr (cw 7 1 2 3 4 0x000 0)),
     (0x9000103081B37, .setsr (cw 7 1 2 3 4 0x000 0)), (0x9000103081B47, .yield (cw 7 1 2 3 4 0x000 0)), (0x9000103081B57, .halt (cw 7 1 2 3 4 0x000 0)),
     (0x9000103081B67, .trap (cw 7 1 2 3 4 0x000 0)), (0x9000103081B77, .brk (cw 7 1 2 3 4 0x000 0)), (0x9000103081B87, .taskPost (cw 7 1 2 3 4 0x000 0)),
     (0x9000103081B97, .chanBlk (cw 7 1 2 3 4 0x000 0)), (0x9000103081BA7, .meas (cw 7 1 2 3 4 0x000 0)), (0x9000103081BB7, .eret (cw 7 1 2 3 4 0x000 0)),
     (0x9000103081BC7, .taskCancel (cw 7 1 2 3 4 0x000 0))].all dec = true := by decide +kernel

/-! ### Ill-formed terms, one for each check, and words that are refused -/

theorem test_wf_class : (Instr.li (.c (fm 0 1 0 0 0 6 5))).wf = false ∧ (Instr.ld (.c (fm 6 1 2 0 0 6 0))).wf = false ∧ (Instr.mov (.c (fm 1 1 2 0 0 6 0))).wf = false := by
  decide +kernel
theorem test_wf_variant : (Instr.cmp (.c (fm 0 1 2 3 0 (6 + 6 * 32) 0))).wf = false ∧ (Instr.mulh (.c (fm 0 1 2 3 0 (6 + 3 * 32) 0))).wf = false := by decide +kernel
theorem test_wf_format : (Instr.add (.c (fm 0 1 2 3 0 24 0))).wf = false ∧ (Instr.amo (.c (fm 6 1 2 3 0 0 0))).wf = false := by decide +kernel
theorem test_wf_vector_register : (Instr.fadd (.c (fm 4 32 2 3 0 14 0))).wf = false ∧ (Instr.fadd (.c (fm 4 31 2 3 0 14 0))).wf = true := by decide +kernel
theorem test_wf_predicate_register : (Instr.cmp (.c (fm 0 8 2 3 0 6 0))).wf = false ∧ (Instr.cmp (.c (fm 0 7 2 3 0 6 0))).wf = true := by decide +kernel
theorem test_wf_state_register : (Instr.getsr (getF 0x50)).wf = true ∧ (Instr.getsr (getF 0x7F)).wf = false := by decide +kernel
theorem test_wf_nopnd : (Instr.steer (gm 0 0 0)).wf = false ∧ (Instr.merge (gm 1 0 0)).wf = false ∧ (Instr.add (.g (gm 3 6 0))).wf = false := by decide +kernel
theorem test_wf_pmode : (Instr.add (.g { gm 2 6 0 with pmode := 3 })).wf = false ∧ (Instr.add (.g { gm 2 6 0 with pmode := 2 })).wf = true := by decide +kernel
theorem test_wf_targets : (Instr.exit { gm 0 0 0 with t0 := 0x200 }).wf = false ∧ (Instr.exit (gm 0 0 0)).wf = true := by decide +kernel
theorem test_wf_acc_format : (Instr.acc (gm 1 0 0)).wf = false ∧ (Instr.acc (gm 1 6 0)).wf = true := by decide +kernel
theorem test_wf_opcode : (Instr.gbarWait (fm 6 1 2 0 0 0 0)).wf = false ∧ (Instr.gbarWait (fm 6 1 2 0 0 32 0)).wf = true := by decide +kernel

/-- How a word is refused. -/
def refused (w : IWord) (e : DecErr) : Bool := match decodeWord w with | .ok _ => false | .error x => decide (x = e)
theorem test_refused_class : refused 10 .illegalCls = true ∧ refused 8 .illegalCls = true ∧ refused 15 .poolExec = true := by decide +kernel
theorem test_refused_opcode : refused 0x1F0 .illegalOpc = true ∧ refused 0xFF7 .illegalOpc = true ∧ refused (0x60 * 16) .illegalOpc = true := by decide +kernel
theorem test_refused_block : refused (12 + 0x90 * 16) .illegalOpc = true ∧ refused (12 + 0x01 * 16 + 2 ^ 14 * 3) .blockEntry = true := by decide +kernel

/-! ### Single steps, their results from the spec's examples -/

/-- One step of the thread of tile 0 whose pc holds the instruction. -/
def ran (i : Instr) (g : Thread → Thread) : State := nxt (step (planned (.thread 0) (own (withWord ((encode i).getD 0)) g)))
/-- `x7` after a class R bundle of an opcode and `MOD` with `x5` and `x6`, and the flags. -/
def intRun (mk : Form → Instr) (md : BitVec 12) (a b : Word) : Word × BitVec 13 :=
  let t := (ran (mk (.c (fm 0 7 5 6 0 md 0))) fun t => (t.xw 5 a).xw 6 b).cur
  (t.xr 7, t.fstat)

/-- Table 07-2. -/
theorem test_add_i8 : intRun .add 0 0x7F 1 = (0xFFFFFFFFFFFFFF80, 0) ∧ intRun .add 0x100 0x7F 1 = (0x7F, 0x080) := by decide +kernel
theorem test_add_n8_t2 : intRun .add 1 200 100 = (0x2C, 0) ∧ intRun .add 11 1 1 = (1, 0x080) := by decide +kernel
theorem test_mul_wraps : intRun .mul 6 (2 ^ 62) 4 = (0, 0) ∧ intRun .mulh (6 + 2 * 32) (-1) 2 = (-1, 0) := by decide +kernel
theorem test_shifts : intRun .shl 0 1 9 = (2, 0) ∧ intRun .shr (2 + 0x200) 0x8000 4 = (0xFFFFFFFFFFFFF800, 0) := by decide +kernel
theorem test_abs_clz : intRun .abs 0 0x80 0 = (0xFFFFFFFFFFFFFF80, 0) ∧ intRun .clz 4 1 0 = (0x1F, 0) := by decide +kernel
/-- Table 07-3. -/
theorem test_div : intRun .div 6 7 2 = (3, 0) ∧ intRun .div 6 (-7) 2 = (-3, 0) ∧ intRun .div 6 7 0 = (-1, 0) ∧ intRun .div (6 + 0x200) 7 0 = (-1, 0) ∧
    intRun .div 4 (-0x80000000) (-1) = (-0x80000000, 0) ∧ intRun .div 0x104 (-0x80000000) (-1) = (0x7FFFFFFF, 0x080) := by decide +kernel
theorem test_rem : intRun .rem 6 7 2 = (1, 0) ∧ intRun .rem 6 (-7) 2 = (-1, 0) ∧ intRun .rem 6 7 0 = (7, 0) ∧ intRun .rem 4 (-0x80000000) (-1) = (0, 0) := by
  decide +kernel
/-- A step runs the bundle at pc, and the pc goes on by 16 (R90). -/
theorem test_pc : (ran (.nop (.c (fm 0 0 0 0 0 0 0))) id).cur.pc = 0x10010 := by decide +kernel
/-- `trap` enters the handler at `SR.TVEC` (R250, Table 10-2). -/
theorem test_trap : (let t := (ran (.trap (fm 7 0 0 0 0 0 5)) id).cur
    t.pc = 0x10100 ∧ t.tepc = 0x10010 ∧ t.tcause = cTRAP_INSTR ∧ t.inh = true ∧ t.stat = .handler) := by decide +kernel
/-- A store and the byte order of memory (R2). -/
theorem test_store_order : (l1? (nxt (exec (.st (.c (fm 2 0 10 5 0 4 0))) (demoT fun t => t.xw 5 0x11223344))) 0 0x40050000).any
    (fun l => lineBytes l 0 4 = [0x44, 0x33, 0x22, 0x11]) = true := by decide +kernel
/-- The first instruction after reset. -/
theorem test_first_step : (step (State.reset.withFetchWord 128 addW.toNat)) = .next (nxt (step (State.reset.withFetchWord 128 addW.toNat))) ∧
    (nxt (step (State.reset.withFetchWord 128 addW.toNat))).cur.pc = 0x10010 := ⟨rfl, by decide +kernel⟩

end Sys2Proof.Tests
end

section
/-!
PROOFS. `div` and `rem` (R138). The integer unit is described first, each shared operation once: how a pattern is read (R135), how a value becomes
a result (R36, R136), how a bundle completes with it. Truncated division then stays in a format's range, but for the one corner.
-/
namespace Sys2Proof.Proofs
open Sys2Proof Sys2Proof.Machine Sys2Proof.Claims
open Host (Outcome)

/-! ### Patterns and their values (R135) -/

theorem fmtBits_pos (k : Nat) : 0 < fmtBits k := by unfold fmtBits; split <;> decide

theorem fmtBits_le (k : Nat) : fmtBits k ≤ 64 := by unfold fmtBits; split <;> decide

theorem two_pow_fmtBits (k : Nat) : (2 : Int) ^ fmtBits k = 2 * 2 ^ (fmtBits k - 1) := by
  have h := Int.pow_succ 2 (fmtBits k - 1)
  rw [show (fmtBits k - 1).succ = fmtBits k from Nat.sub_add_cancel (fmtBits_pos k)] at h
  exact h.trans (Int.mul_comm _ _)

theorem half_lt_full (k : Nat) : 2 ^ (fmtBits k - 1) < 2 ^ fmtBits k :=
  Nat.pow_lt_pow_right (by decide) (Nat.sub_lt (fmtBits_pos k) (by decide))

theorem lowBits_eq_toNat_ofInt (n : Nat) (v : Int) : lowBits n v = (BitVec.ofInt n v).toNat := by
  simp [lowBits, BitVec.toNat_ofInt]

theorem sextInt_eq_toInt {n : Nat} (hn : 0 < n) (p : Nat) : sextInt n p = (BitVec.ofNat n p).toInt := by
  have h2 := Nat.two_pow_pred_mul_two hn
  have htop : (2 ^ (n - 1) ≤ p % 2 ^ n) ↔ ¬ 2 * (p % 2 ^ n) < 2 ^ n := by omega
  simp only [sextInt, BitVec.toInt_eq_toNat_cond, BitVec.toNat_ofNat, hn, htop, decide_true, Bool.true_and, decide_eq_true_eq, ite_not]
  push_cast
  rfl

/-- An i or n format is read by its bits, without a warning. -/
theorem intVal_eq_readInt {k : Nat} (hk : k ≤ 9) (signed : Bool) (v : Word) :
    intVal k signed v.toNat = (readInt (fmtBits k) signed v, 0) := by
  simp [intVal, readInt, sextInt_eq_toInt (fmtBits_pos k), show k ≠ 10 by omega, show k ≠ 11 by omega]

/-- The value of a b1 pattern. -/
def b1Value (bit : Bool) : Int := if bit then 1 else -1

theorem intVal_b1 (signed : Bool) (v : Word) : intVal 10 signed v.toNat = (b1Value (v.getLsbD 0), 0) := by
  simp [intVal, b1Value, BitVec.getLsbD, Nat.testBit_zero]

/-- A t2 pattern with 0b10 replaced by the 0 that it reads as. -/
def t2Code (p : Nat) : Nat := if p % 4 = 2 then 0 else p % 4
/-- The value of such a code. -/
def t2Value (c : Nat) : Int := if c = 3 then -1 else c

theorem intVal_t2 (signed : Bool) (p : Nat) : (intVal 11 signed p).1 = t2Value (t2Code p) := by
  have h : p % 4 = 0 ∨ p % 4 = 1 ∨ p % 4 = 2 ∨ p % 4 = 3 := by omega
  rcases h with h | h | h | h <;> simp [intVal, t2Code, t2Value, h]

theorem t2Code_mem (p : Nat) : t2Code p ∈ [0, 1, 3] := by
  have h : p % 4 < 4 := Nat.mod_lt _ (by decide)
  simp only [t2Code, List.mem_cons, List.not_mem_nil, or_false]
  split <;> omega

/-! ### Ranges and results (R36, R136) -/

/-- The values that an integer format holds. -/
def InRange (k : Nat) (t : Int) : Prop := intMin k ≤ t ∧ t ≤ intMax k

theorem inRange_signed {k : Nat} (hk : k ≤ 9) (hi : isIFmt k = true) (t : Int) :
    InRange k t ↔ -(2 ^ (fmtBits k - 1) : Int) ≤ t ∧ t ≤ 2 ^ (fmtBits k - 1) - 1 := by
  simp [InRange, intMin, intMax, hi, show k ≠ 10 by omega, show k ≠ 11 by omega]

theorem inRange_unsigned {k : Nat} (hk : k ≤ 9) (hi : isIFmt k = false) (t : Int) : InRange k t ↔ 0 ≤ t ∧ t ≤ 2 ^ fmtBits k - 1 := by
  simp [InRange, intMin, intMax, hi, show k ≠ 10 by omega, show k ≠ 11 by omega]

theorem intMax_signed {k : Nat} (hk : k ≤ 9) (hi : isIFmt k = true) : intMax k = ((2 ^ (fmtBits k - 1) - 1 : Nat) : Int) := by
  rw [Int.natCast_sub Nat.one_le_two_pow, Int.natCast_pow]
  simp [intMax, hi, show k ≠ 10 by omega, show k ≠ 11 by omega]

theorem zero_inRange {k : Nat} (hk : k ≤ 9) : InRange k 0 := by
  have hpos : (0 : Int) < 2 ^ (fmtBits k - 1) := Int.pow_pos (by decide)
  have h2 := two_pow_fmtBits k
  cases hi : isIFmt k
  · rw [inRange_unsigned hk hi]; omega
  · rw [inRange_signed hk hi]; omega

/-- Read by its own kind, a pattern has a value of its format. -/
theorem readInt_inRange {k : Nat} (hk : k ≤ 9) (v : Word) : InRange k (readInt (fmtBits k) (isIFmt k) v) := by
  cases hi : isIFmt k
  · have hlt : v.toNat % 2 ^ fmtBits k < 2 ^ fmtBits k := Nat.mod_lt _ (Nat.two_pow_pos _)
    have hlt' : ((v.toNat % 2 ^ fmtBits k : Nat) : Int) < 2 ^ fmtBits k := by exact_mod_cast hlt
    rw [inRange_unsigned hk hi]
    simp only [readInt, Bool.false_eq_true, if_false]
    omega
  · have hlo := BitVec.le_toInt (BitVec.ofNat (fmtBits k) v.toNat)
    have hhi := BitVec.toInt_lt (x := BitVec.ofNat (fmtBits k) v.toNat)
    rw [inRange_signed hk hi]
    simp only [readInt, if_true]
    omega

/-- A value in range is written as it is. -/
theorem intResult_of_inRange {k : Nat} {t : Int} (hk : k ≤ 9) (sat : Bool) (h : InRange k t) : intResult k sat t = { pat := lowBits (fmtBits k) t } := by
  obtain ⟨hlo, hhi⟩ := h
  simp [intResult, hlo, hhi, show k ≠ 10 by omega, show k ≠ 11 by omega]

/-- Without `SAT` a value wraps modulo 2^n. -/
theorem intResult_wraps {k : Nat} (hk : k ≤ 9) (t : Int) : intResult k false t = { pat := lowBits (fmtBits k) t } := by
  simp [intResult, show k ≠ 10 by omega, show k ≠ 11 by omega]

/-- With `SAT` a value above the range is clamped. -/
theorem intResult_clamps {k : Nat} {t : Int} (hk : k ≤ 9) (h : intMax k < t) :
    intResult k true t = { pat := lowBits (fmtBits k) (intMax k), fl := flSATC } := by
  obtain ⟨hlo, hhi⟩ := zero_inRange hk
  have hmin : ¬ t < intMin k := by omega
  simp [intResult, hmin, Int.not_le.mpr h, show k ≠ 10 by omega, show k ≠ 11 by omega]

theorem lowBits_natCast {n m : Nat} (h : m < 2 ^ n) : lowBits n (m : Int) = m := by
  rw [lowBits, Int.emod_eq_of_lt (Int.natCast_nonneg m) (by exact_mod_cast h), Int.toNat_natCast]

/-- A result in a register, as `regOf` writes it. -/
theorem intReg_eq_regOf (k : Nat) (r : Res) : intReg k r = regOf (fmtBits k) (isIFmt k) r.pat := by
  cases hi : isIFmt k
  · exact BitVec.eq_of_toNat_eq (by simp [intReg, extendTo, regOf, hi])
  · simp only [intReg, extendTo, regOf, hi, if_true, sextInt_eq_toInt (fmtBits_pos k), lowBits_eq_toNat_ofInt, BitVec.signExtend,
      BitVec.ofNat_toNat, BitVec.setWidth_eq]

/-- A value in range, cut to its pattern and extended again, is the value. -/
theorem regOf_lowBits {k : Nat} {t : Int} (hk : k ≤ 9) (h : InRange k t) :
    regOf (fmtBits k) (isIFmt k) (lowBits (fmtBits k) t) = BitVec.ofInt 64 t := by
  cases hi : isIFmt k
  · obtain ⟨h0, h1⟩ := (inRange_unsigned hk hi t).mp h
    obtain ⟨m, rfl⟩ := Int.eq_ofNat_of_zero_le h0
    have hm : m < 2 ^ fmtBits k := by
      rw [← Int.ofNat_lt]; push_cast; omega
    rw [lowBits_natCast hm, BitVec.ofInt_natCast, regOf, if_neg (by decide), BitVec.setWidth_ofNat_of_le_of_lt (fmtBits_le k) hm]
  · obtain ⟨h0, h1⟩ := (inRange_signed hk hi t).mp h
    simp only [regOf, if_true, BitVec.signExtend, lowBits_eq_toNat_ofInt, BitVec.ofNat_toNat, BitVec.setWidth_eq]
    rw [BitVec.toInt_ofInt_eq_self (fmtBits_pos k) h0 (by omega)]

/-! ### An integer bundle that completes -/

/-- A bundle in class R or I of an integer opcode whose flags are not those of an exception writes its result (R136). -/
theorem intForm_completes {opc : Nat} {op : IArgs → Res} {f : CForm} {s : State} (h : Issues opc f s) (hcls : f.cls ≠ 4)
    (hfl : (op (regArgs opc f s)).fl.extractLsb' 0 5 = 0) :
    let r := op (regArgs opc f s)
    intForm opc op (.c f) s =
      .next (completed opc f s (own s fun t => (note t r.fl r.warn).xw f.d.toNat (intReg (intFmt f.fmt) r)) false) := by
  refine congrArg Outcome.next (runC_ok h ?_)
  simp only [hcls, if_false]
  change raiseC _ (addWarn s _ (op (regArgs opc f s)).warn) (op (regArgs opc f s)).fl _ = _
  rw [raiseC_go (by rw [hfl]; exact BitVec.zero_and)]
  simp only [retX, addWarn, own, note, cenv_k, cenv_f, State.modThr_modThr]
  rfl

/-- The same for a result without a warning, in the words of `writes`. -/
theorem intForm_writes {opc : Nat} {op : IArgs → Res} {f : CForm} {s : State} {p : Nat} {fl : BitVec 13} (h : Issues opc f s) (hcls : f.cls ≠ 4)
    (hr : op (regArgs opc f s) = { pat := p, fl := fl }) (hfl : fl.extractLsb' 0 5 = 0) :
    intForm opc op (.c f) s = .next (writes opc f s fl (regOf (fmtBits (intFmt f.fmt)) (isIFmt (intFmt f.fmt)) p)) := by
  rw [intForm_completes h hcls (by rw [hr]; exact hfl), hr]
  simp [writes, note, intReg_eq_regOf]

/-- A pattern of a value in range arrives in the register as the value. -/
theorem intForm_writes_value {opc : Nat} {op : IArgs → Res} {f : CForm} {s : State} {t : Int} {fl : BitVec 13} (h : Issues opc f s)
    (hcls : f.cls ≠ 4) (hk : intFmt f.fmt ≤ 9) (hr : op (regArgs opc f s) = { pat := lowBits (fmtBits (intFmt f.fmt)) t, fl := fl })
    (ht : InRange (intFmt f.fmt) t) (hfl : fl.extractLsb' 0 5 = 0) :
    intForm opc op (.c f) s = .next (writes opc f s fl (BitVec.ofInt 64 t)) := by
  rw [intForm_writes h hcls hr hfl, regOf_lowBits hk ht]

/-! ### Truncated division -/

theorem tmod_between {lo hi a : Int} (hlo : lo ≤ 0) (hhi : 0 ≤ hi) (hla : lo ≤ a) (hah : a ≤ hi) (b : Int) : lo ≤ a.tmod b ∧ a.tmod b ≤ hi := by
  have habs : (a.tmod b).natAbs ≤ a.natAbs := by rw [Int.natAbs_tmod]; exact Nat.mod_le _ _
  rcases Int.le_total 0 a with h | h
  · have := Int.tmod_nonneg b h
    omega
  · have := Int.tmod_nonneg b (show 0 ≤ -a by omega)
    rw [Int.neg_tmod] at this
    omega

/-- The quotient of signed values overflows for −m divided by −1 alone. -/
theorem tdiv_between {m a b : Int} (hla : -m ≤ a) (hah : a ≤ m - 1) (hcorner : ¬ (a = -m ∧ b = -1)) :
    -m ≤ a.tdiv b ∧ a.tdiv b ≤ m - 1 := by
  have habs : (a.tdiv b).natAbs = a.natAbs / b.natAbs := Int.natAbs_tdiv a b
  by_cases h1 : b = 1
  · rw [h1, Int.tdiv_one]; omega
  by_cases h2 : b = -1
  · rw [h2, Int.tdiv_neg, Int.tdiv_one]; omega
  by_cases h0 : b = 0
  · rw [h0, Int.tdiv_zero]; omega
  have hhalf : a.natAbs / b.natAbs ≤ a.natAbs / 2 := Nat.div_le_div_left (by omega) (by decide)
  omega

/-- The value that `rem` writes is Lean's truncated remainder, also for a zero divisor. -/
theorem remValue_eq_tmod (a b : Int) : (if b = 0 then a else a - b * a.tdiv b) = a.tmod b := by
  split
  · next h => rw [h, Int.tmod_zero]
  · rw [Int.tmod_def]

/-! ### `div` and `rem` on patterns (R138) -/

/-- A source of `div` or `rem` of an i or n format, as `SGN` has it read. -/
def source (x : IArgs) (v : Word) : Int := readInt (fmtBits x.k) (!x.sgn) v

theorem intResult_warn (k : Nat) (sat : Bool) (t : Int) : (intResult k sat t).warn = 0 := by
  simp only [intResult]
  repeat' split
  all_goals rfl

/-- The dividend −2^(n−1) over −1, read as signed values: the one quotient that may leave the range. -/
def Corner (x : IArgs) : Prop := x.sgn = false ∧ source x x.a = -(2 ^ (fmtBits x.k - 1) : Int) ∧ source x x.b = -1

theorem corner_quotient {x : IArgs} (h : Corner x) : (source x x.a).tdiv (source x x.b) = ((2 ^ (fmtBits x.k - 1) : Nat) : Int) := by
  obtain ⟨-, ha, hb⟩ := h
  rw [ha, hb, Int.tdiv_neg, Int.tdiv_one, Int.neg_neg]
  push_cast
  rfl

theorem corner_divisor_ne_zero {x : IArgs} (h : Corner x) : source x x.b ≠ 0 := by
  obtain ⟨-, -, hb⟩ := h
  rw [hb]
  decide

section
variable {x : IArgs} (hk : x.k ≤ 9)
include hk

theorem val2_eq (g : Int → Int → Int) : x.val2 (!x.sgn) g = intResult x.k x.sat (g (source x x.a) (source x x.b)) := by
  have hwarn := intResult_warn x.k x.sat (g (source x x.a) (source x x.b))
  simp only [source] at hwarn ⊢
  simp only [IArgs.val2, intVal_eq_readInt hk]
  generalize intResult x.k x.sat _ = r at hwarn ⊢
  obtain ⟨pat, fl, warn⟩ := r
  obtain rfl : warn = 0 := hwarn
  simp

theorem opDiv_of_zero (hb : source x x.b = 0) : opDiv x = { pat := 2 ^ fmtBits x.k - 1 } := by
  have hb' : readInt (fmtBits x.k) (!x.sgn) x.b = 0 := hb
  simp [opDiv, intVal_eq_readInt hk, hb']

theorem opDiv_of_ne_zero (hb : source x x.b ≠ 0) : opDiv x = intResult x.k x.sat ((source x x.a).tdiv (source x x.b)) := by
  have hb' : readInt (fmtBits x.k) (!x.sgn) x.b ≠ 0 := hb
  simp [opDiv, intVal_eq_readInt hk, hb', val2_eq hk]

theorem opRem_eq : opRem x = intResult x.k x.sat ((source x x.a).tmod (source x x.b)) := by
  simp only [opRem, val2_eq hk, remValue_eq_tmod]

/-- Sources read by the format's own kind lie in its range. -/
theorem source_inRange (hown : isIFmt x.k = !x.sgn) (v : Word) : InRange x.k (source x v) := by
  unfold source
  rw [← hown]
  exact readInt_inRange hk v

theorem quotient_inRange (hown : isIFmt x.k = !x.sgn) (hcorner : ¬ Corner x) : InRange x.k ((source x x.a).tdiv (source x x.b)) := by
  have ha := source_inRange hk hown x.a
  have hb := source_inRange hk hown x.b
  cases hs : x.sgn
  · have hi : isIFmt x.k = true := by rw [hown, hs]; rfl
    rw [inRange_signed hk hi] at ha ⊢
    exact tdiv_between ha.1 ha.2 fun h => hcorner ⟨hs, h⟩
  · have hi : isIFmt x.k = false := by rw [hown, hs]; rfl
    rw [inRange_unsigned hk hi] at ha hb ⊢
    exact ⟨Int.tdiv_nonneg ha.1 hb.1, Int.le_trans (Int.tdiv_le_self _ ha.1) ha.2⟩

theorem remainder_inRange (hown : isIFmt x.k = !x.sgn) : InRange x.k ((source x x.a).tmod (source x x.b)) :=
  have ha := source_inRange hk hown x.a
  tmod_between (zero_inRange hk).1 (zero_inRange hk).2 ha.1 ha.2 _

/-- The corner's quotient wraps to the pattern of the dividend. -/
theorem opDiv_corner_wraps (h : Corner x) (hsat : x.sat = false) : opDiv x = { pat := 2 ^ (fmtBits x.k - 1) } := by
  rw [opDiv_of_ne_zero hk (corner_divisor_ne_zero h), hsat, intResult_wraps hk, corner_quotient h,
    lowBits_natCast (half_lt_full x.k)]

/-- Under `SAT` it is clamped to the largest value. -/
theorem opDiv_corner_clamps (h : Corner x) (hsat : x.sat = true) (hi : isIFmt x.k = true) :
    opDiv x = { pat := lowBits (fmtBits x.k) (intMax x.k), fl := flSATC } := by
  have hover : intMax x.k < ((2 ^ (fmtBits x.k - 1) : Nat) : Int) := by
    rw [intMax_signed hk hi, Int.ofNat_lt]
    exact Nat.sub_lt (Nat.two_pow_pos _) (by decide)
  rw [opDiv_of_ne_zero hk (corner_divisor_ne_zero h), hsat, corner_quotient h, intResult_clamps hk hover]

theorem opRem_corner (h : Corner x) : opRem x = { pat := 0 } := by
  obtain ⟨-, -, hb⟩ := h
  have hzero : (source x x.a).tmod (source x x.b) = 0 := by rw [hb, Int.tmod_neg, Int.tmod_one]
  rw [opRem_eq hk, hzero, intResult_of_inRange hk _ (zero_inRange hk)]
  simp [lowBits]

end

/-! ### b1 and t2 -/

theorem b1_quotient : ∀ p q sat : Bool, intResult 10 sat ((b1Value p).tdiv (b1Value q)) = { pat := if p = q then 1 else 0 } := by decide
theorem b1_remainder : ∀ p q sat : Bool, intResult 10 sat ((b1Value p).tmod (b1Value q)) = { pat := 1 } := by decide
theorem b1Value_ne_zero : ∀ p : Bool, b1Value p ≠ 0 := by decide

theorem t2Value_eq_zero : ∀ c ∈ [0, 1, 3], t2Value c = 0 ↔ c = 0 := by decide
theorem t2_quotient : ∀ c ∈ [0, 1, 3], ∀ d ∈ [0, 1, 3], d ≠ 0 → ∀ sat : Bool,
    intResult 11 sat ((t2Value c).tdiv (t2Value d)) = { pat := if c = 0 then 0 else if c = d then 1 else 3 } := by decide
theorem t2_remainder : ∀ c ∈ [0, 1, 3], ∀ d ∈ [0, 1, 3], ∀ sat : Bool,
    intResult 11 sat ((t2Value c).tmod (t2Value d)) = { pat := if d = 0 then c else 0 } := by decide

theorem opDiv_b1 {x : IArgs} (hk : x.k = 10) : opDiv x = { pat := if x.a.getLsbD 0 = x.b.getLsbD 0 then 1 else 0 } := by
  simp [opDiv, IArgs.val2, hk, intVal_b1, b1Value_ne_zero, b1_quotient]

theorem opRem_b1 {x : IArgs} (hk : x.k = 10) : opRem x = { pat := 1 } := by
  simp [opRem, IArgs.val2, hk, intVal_b1, remValue_eq_tmod, b1_remainder]

theorem opDiv_t2 {x : IArgs} (hk : x.k = 11) :
    (opDiv x).pat = (if t2Code x.b.toNat = 0 then 3 else if t2Code x.a.toNat = 0 then 0 else if t2Code x.a.toNat = t2Code x.b.toNat then 1 else 3) ∧
    (opDiv x).fl = 0 := by
  have ha := t2Code_mem x.a.toNat
  have hb := t2Code_mem x.b.toNat
  simp only [opDiv, IArgs.val2, hk, intVal_t2, t2Value_eq_zero _ hb]
  split
  · exact ⟨rfl, rfl⟩
  · next hne => simp [t2_quotient _ ha _ hb hne]

theorem opRem_t2 {x : IArgs} (hk : x.k = 11) :
    (opRem x).pat = (if t2Code x.b.toNat = 0 then t2Code x.a.toNat else 0) ∧ (opRem x).fl = 0 := by
  have hr := t2_remainder _ (t2Code_mem x.a.toNat) _ (t2Code_mem x.b.toNat)
  simp [opRem, IArgs.val2, hk, intVal_t2, remValue_eq_tmod, hr]

/-! ### `div` and `rem` as bundles (R138) -/

section
variable {f : CForm} {s : State} (hcls : f.cls ≠ 4) (hk : intFmt f.fmt ≤ 9)
include hcls hk

theorem exec_div_of_zero (h : Issues 0x05 f s) (hb : source (regArgs 0x05 f s) (regArgs 0x05 f s).b = 0) :
    exec (.div (.c f)) s = .next (writes 0x05 f s 0 (regOf (fmtBits (intFmt f.fmt)) (isIFmt (intFmt f.fmt)) (2 ^ fmtBits (intFmt f.fmt) - 1))) :=
  intForm_writes h hcls (opDiv_of_zero hk hb) rfl

theorem exec_div_quotient (h : Issues 0x05 f s) (hb : source (regArgs 0x05 f s) (regArgs 0x05 f s).b ≠ 0)
    (hown : isIFmt (intFmt f.fmt) = !f.sgn) (hcorner : ¬ Corner (regArgs 0x05 f s)) :
    exec (.div (.c f)) s = .next (writes 0x05 f s 0
      (BitVec.ofInt 64 ((source (regArgs 0x05 f s) (regArgs 0x05 f s).a).tdiv (source (regArgs 0x05 f s) (regArgs 0x05 f s).b)))) := by
  have hq := quotient_inRange (x := regArgs 0x05 f s) hk hown hcorner
  exact intForm_writes_value h hcls hk ((opDiv_of_ne_zero hk hb).trans (intResult_of_inRange hk _ hq)) hq rfl

theorem exec_div_corner_wraps (h : Issues 0x05 f s) (hcorner : Corner (regArgs 0x05 f s)) (hsat : f.sat = false) :
    exec (.div (.c f)) s = .next (writes 0x05 f s 0 (regOf (fmtBits (intFmt f.fmt)) (isIFmt (intFmt f.fmt)) (2 ^ (fmtBits (intFmt f.fmt) - 1)))) :=
  intForm_writes h hcls (opDiv_corner_wraps hk hcorner hsat) rfl

theorem exec_div_corner_clamps (h : Issues 0x05 f s) (hcorner : Corner (regArgs 0x05 f s)) (hsat : f.sat = true)
    (hi : isIFmt (intFmt f.fmt) = true) :
    exec (.div (.c f)) s = .next (writes 0x05 f s flSATC (BitVec.ofNat 64 (2 ^ (fmtBits (intFmt f.fmt) - 1) - 1))) := by
  have hmax : InRange (intFmt f.fmt) (intMax (intFmt f.fmt)) := ⟨Int.le_trans (zero_inRange hk).1 (zero_inRange hk).2, Int.le_refl _⟩
  rw [← BitVec.ofInt_natCast, ← intMax_signed hk hi]
  exact intForm_writes_value h hcls hk (opDiv_corner_clamps hk hcorner hsat hi) hmax rfl

theorem exec_rem (h : Issues 0x06 f s) (hown : isIFmt (intFmt f.fmt) = !f.sgn) :
    exec (.rem (.c f)) s = .next (writes 0x06 f s 0
      (BitVec.ofInt 64 ((source (regArgs 0x06 f s) (regArgs 0x06 f s).a).tmod (source (regArgs 0x06 f s) (regArgs 0x06 f s).b)))) := by
  have hr := remainder_inRange (x := regArgs 0x06 f s) hk hown
  exact intForm_writes_value h hcls hk ((opRem_eq hk).trans (intResult_of_inRange hk _ hr)) hr rfl

end

/-! ### The obligation -/

theorem wideInts_formats : ∀ y ∈ wideInts, y.1 ≤ 9 ∧ intFmt y.1 = y.1 ∧ fmtBits y.1 = y.2.1 ∧ isIFmt y.1 = y.2.2 := by decide

theorem divisionRegisters : DivisionRegisters := by
  rintro ⟨k, n, i⟩ hy f s (hfmt : f.fmt = k) hcls
  obtain ⟨hk, hint, hn, hi⟩ : k ≤ 9 ∧ intFmt k = k ∧ fmtBits k = n ∧ isIFmt k = i := wideInts_formats _ hy
  obtain rfl : k = intFmt f.fmt := by rw [hfmt, hint]
  subst hn hi
  refine ⟨fun h => ⟨exec_div_of_zero hcls hk h, exec_div_quotient hcls hk h, exec_div_corner_wraps hcls hk h, exec_div_corner_clamps hcls hk h⟩,
    fun h hown => ⟨fun hb => ?_, fun _ => ?_⟩⟩
  · refine (exec_rem hcls hk h hown).trans ?_
    rw [show source (regArgs 0x06 f s) (regArgs 0x06 f s).b = 0 from hb, Int.tmod_zero]
    rfl
  · refine (exec_rem hcls hk h hown).trans ?_
    rw [Int.tmod_def]
    rfl

theorem divisionPatterns : DivisionPatterns := by
  refine ⟨fun x hk => ⟨fun hb => ?_, fun hb hsat => ?_, fun hsat => ?_, fun hsgn ha hb hsat hi => ?_⟩, fun x hk => ?_, fun x hk => ?_⟩
  · rw [opDiv_of_zero hk hb]; exact ⟨rfl, rfl⟩
  · rw [opDiv_of_ne_zero hk hb, hsat, intResult_wraps hk]; exact ⟨rfl, rfl⟩
  · rw [opRem_eq hk, hsat, intResult_wraps hk, ← remValue_eq_tmod]; exact ⟨rfl, rfl⟩
  · have hc : Corner x := ⟨hsgn, ha, hb⟩
    have hlt : 2 ^ (fmtBits x.k - 1) - 1 < 2 ^ fmtBits x.k := Nat.lt_of_le_of_lt (Nat.sub_le _ _) (half_lt_full x.k)
    rw [opDiv_corner_clamps hk hc hsat hi, opRem_corner hk hc, intMax_signed hk hi, lowBits_natCast hlt]
    exact ⟨rfl, rfl, rfl, rfl⟩
  · rw [opDiv_b1 hk, opRem_b1 hk]; exact ⟨rfl, rfl, rfl, rfl⟩
  · obtain ⟨hdp, hdf⟩ := opDiv_t2 hk
    obtain ⟨hrp, hrf⟩ := opRem_t2 hk
    exact ⟨hdp, hrp, hdf, hrf⟩

/-- Settles O51: a quotient or remainder stays in the range of its format but in the corner, where it wraps or is clamped. -/
theorem divisionResult : Obligations.DivisionResult := ⟨divisionRegisters, divisionPatterns⟩

end Sys2Proof.Proofs
end

section
/-!
PROOFS. Taking an exception (R250, R251). What a header's TRAPS word says bit by bit (R126), what a stop leaves of the threads, and the three
outcomes of `takeTrap`, each as an equation.
-/
namespace Sys2Proof.Proofs
open Sys2Proof Sys2Proof.Machine Sys2Proof.Machine.State

/-! ### TRAPS (R126) -/

theorem testBit_fieldOf {w : Nat} (v : BitVec w) (lo n i : Nat) :
    (fieldOf v lo n).testBit i = (decide (i < n) && v.getLsbD (lo + i)) := by
  simp [fieldOf, Nat.testBit_mod_two_pow, Nat.testBit_shiftRight, BitVec.getLsbD]

/-- The mask that TRAPS keeps without a handler ignores every DELIV bit (Table 06-8). -/
theorem noHandlerMask_getLsbD_deliv {c : Nat} (hc : c < 28) : (0x3F0000000#64).getLsbD c = false :=
  (by decide : ∀ c < 28, (0x3F0000000#64).getLsbD c = false) c hc

theorem hdrTraps_getLsbD_deliv (h : BitVec 512) {c : Nat} (hc : c < 28) :
    (hdrTraps h).getLsbD c = (decide (hdrField h 24 8 ≠ 0) && h.getLsbD (128 + c)) := by
  have hw : c < 64 := by omega
  have hfield : (BitVec.ofNat 64 (hdrField h 16 8)).getLsbD c = h.getLsbD (128 + c) := by
    rw [BitVec.getLsbD_ofNat, hdrField, testBit_fieldOf]
    simp [hw]
  rw [hdrTraps, BitVec.getLsbD_and, hfield]
  by_cases hnone : hdrField h 24 8 = 0
  · rw [if_pos hnone, noHandlerMask_getLsbD_deliv hc]
    simp [hnone]
  · rw [if_neg hnone, BitVec.getLsbD_allOnes]
    simp [hnone, hw]

/-! ### A stop and the threads (R317) -/

@[simp] theorem leaveSems_thr (s : State) (k j : Nat) : (leaveSems s k).thr j = s.thr j := rfl

@[simp] theorem thr_stopThread (s : State) (k : Nat) :
    (stopThread s k).thr k = { s.thr k with stat := .stopped, wait := .none, hwait := .none, owed := [] } := by
  simp [stopThread]

theorem thr_stopThread_ne (s : State) {k j : Nat} (h : j ≠ k) : (stopThread s k).thr j = s.thr j := by
  simp [stopThread, thr_modThr_ne _ _ _ _ h]

/-! ### The outcomes of `takeTrap` -/

section
variable {s : State} {k : Nat} {c : BitVec 6} (pc addr info : Word)

theorem takeTrap_of_delivered (hd : (s.thr k).traps.getLsbD c.toNat = true) (hi : (s.thr k).inh = false) :
    takeTrap s k c pc addr info = s.modThr k fun t =>
      { t with stat := .handler, tcause := c, tepc := pc, taddr := addr, tinfo := info, tframe := 0, inh := true, hold := 0, hwait := t.wait,
               wait := .none, pc := t.tvec } := by
  simp [takeTrap, hd, hi, modThr]

theorem takeTrap_of_undelivered (hd : (s.thr k).traps.getLsbD c.toNat = false) (hi : (s.thr k).inh = false) :
    takeTrap s k c pc addr info = allotStop (stopThread (s.modThr k fun t =>
      { t with tcause := c, tepc := pc, taddr := addr, tinfo := info, tframe := 0 }) k) (s.thr k).ctx (s.thr k).allot c := by
  simp [takeTrap, hd, hi, modThr]

theorem takeTrap_of_inHandler (hi : (s.thr k).inh = true) :
    takeTrap s k c pc addr info = allotStop (stopThread s k) (s.thr k).ctx (s.thr k).allot c := by
  simp [takeTrap, hi]

end

/-- Settles O33: a cause goes to the handler, or the thread stops where it stands and its fault domain with it. -/
theorem trapEntry : Obligations.TrapEntry := by
  refine ⟨fun h c _ hc => hdrTraps_getLsbD_deliv h hc, fun s k c pc addr info => ⟨takeTrap_of_delivered pc addr info, fun hstop => ?_⟩⟩
  cases hi : (s.thr k).inh with
  | true =>
    refine ⟨stopThread s k, takeTrap_of_inHandler pc addr info hi, ?_⟩
    simp +contextual [thr_stopThread_ne]
  | false =>
    have hd : (s.thr k).traps.getLsbD c.toNat = false := hstop.resolve_right (by simp [hi])
    refine ⟨_, takeTrap_of_undelivered pc addr info hd hi, ?_⟩
    simp +contextual [thr_stopThread_ne, thr_modThr_ne]

end Sys2Proof.Proofs
end

section
/-!
PROOFS. Encoding and decoding (Tables 05-2, 05-11, 05-12): a form's word gives back its class, opcode and fields; a word is what its fields put together;
an instruction that an opcode names has that opcode.
-/
namespace Sys2Proof.Proofs
open Sys2Proof BitVec

/-! ### The fields of a word -/

theorem cls_of_cWord (f : CForm) (opc : BitVec 8) : (f.word opc).extractLsb' 0 4 = f.cls := by
  rw [CForm.word, extractLsb'_append_eq_of_add_le (by decide), extractLsb'_eq_self]

theorem opc_of_cWord (f : CForm) (opc : BitVec 8) : (f.word opc).extractLsb' 4 8 = opc := by
  rw [CForm.word, extractLsb'_append_eq_of_le (by decide), extractLsb'_append_eq_of_add_le (by decide), extractLsb'_eq_self]

theorem cls_of_gWord (f : GForm) (opc : BitVec 8) : (f.word opc).extractLsb' 0 4 = 12#4 := by
  rw [GForm.word, extractLsb'_append_eq_of_add_le (by decide), extractLsb'_eq_self]

theorem opc_of_gWord (f : GForm) (opc : BitVec 8) : (f.word opc).extractLsb' 4 8 = opc := by
  rw [GForm.word, extractLsb'_append_eq_of_le (by decide), extractLsb'_append_eq_of_add_le (by decide), extractLsb'_eq_self]

theorem cFields_word (f : CForm) (opc : BitVec 8) : cFields (f.word opc) = f := by
  obtain ⟨cls, d, a, b, c, md, prd, imm, hold, tkn, need, keep, park, fem, rsv⟩ := f
  unfold cFields CForm.word
  congr 1
  all_goals
    repeat rw [extractLsb'_append_eq_of_le (by decide)]
    repeat rw [extractLsb'_append_eq_of_add_le (by decide)]
    exact extractLsb'_eq_self

theorem gFields_word (f : GForm) (opc : BitVec 8) : gFields (f.word opc) = f := by
  obtain ⟨nopnd, pmode, urg, t0, t1, lsid, md, imm, place, rsv⟩ := f
  unfold gFields GForm.word
  congr 1
  all_goals
    repeat rw [extractLsb'_append_eq_of_le (by decide)]
    repeat rw [extractLsb'_append_eq_of_add_le (by decide)]
    exact extractLsb'_eq_self

theorem word_cFields (w : IWord) : (cFields w).word (w.extractLsb' 4 8) = w := by
  unfold cFields CForm.word
  repeat rw [extractLsb'_append_extractLsb'_eq_extractLsb' (by rfl)]
  exact extractLsb'_eq_self

theorem word_gFields {w : IWord} (h : w.extractLsb' 0 4 = 12#4) : (gFields w).word (w.extractLsb' 4 8) = w := by
  unfold gFields GForm.word
  rw [← h]
  repeat rw [extractLsb'_append_extractLsb'_eq_extractLsb' (by rfl)]
  exact extractLsb'_eq_self

/-! ### Opcodes and constructors -/

theorem parts_of_mkC {opc : BitVec 8} {f : CForm} {i : Instr} (h : mkC opc.toNat f = some i) : i.parts = some (opc, .c f) := by
  generalize hn : opc.toNat = n at h
  obtain rfl : opc = BitVec.ofNat 8 n := by rw [← hn]; simp
  unfold mkC at h
  split at h <;> cases h <;> (try split) <;> rfl

theorem parts_of_mkG {opc : BitVec 8} {f : GForm} {i : Instr} (h : mkG opc.toNat f = some i) : i.parts = some (opc, .g f) := by
  generalize hn : opc.toNat = n at h
  obtain rfl : opc = BitVec.ofNat 8 n := by rw [← hn]; simp
  unfold mkG at h
  split at h <;> cases h <;> rfl

/-! ### Legality and the class -/

/-- Table 05-11 accepts no opcode under a class above 7. -/
theorem cls_lt_of_classOk {opc cls : Nat} (h : classOk opc cls = true) : cls < 8 := by
  unfold classOk at h
  split at h
  case h_1 => split at h <;> try split at h
              all_goals (simp at h; omega)
  all_goals (simp at h; try omega)

theorem cls_lt_of_legalC {opc : Nat} {f : CForm} (h : legalC opc f = true) : f.cls.toNat < 8 := by
  simp only [legalC, Bool.and_eq_true] at h
  exact cls_lt_of_classOk h.1.1.1.1.1.1.1

theorem accepted_of_legalG {opc : Nat} {f : GForm} (h : legalG opc f = true) : (gOk opc && gFmtOk opc f && gVarOk opc f) = true := by
  simp only [legalG, Bool.and_eq_true] at h
  grind

/-! ### The two decoders on a word that a form encodes, and what a word that decodes says -/

theorem decodeC_word {opc : BitVec 8} {f : CForm} {i : Instr} (hl : legalC opc.toNat f = true) (hm : mkC opc.toNat f = some i) :
    decodeC (f.word opc) = .ok i := by
  have h8 := cls_lt_of_legalC hl
  have h15 : f.cls.toNat ≠ 15 := by omega
  have h8' : ¬ f.cls.toNat ≥ 8 := by omega
  simp [decodeC, cls_of_cWord, opc_of_cWord, cFields_word, hl, hm, h15, h8']

theorem decodeG_word {opc : BitVec 8} {f : GForm} {i : Instr} (hl : legalG opc.toNat f = true) (hm : mkG opc.toNat f = some i) :
    decodeG (f.word opc) = .ok i := by
  simp [decodeG, cls_of_gWord, opc_of_gWord, gFields_word, hl, hm, accepted_of_legalG hl]

theorem decodeC_ok {w : IWord} {i : Instr} (h : decodeC w = .ok i) :
    legalC (w.extractLsb' 4 8).toNat (cFields w) = true ∧ mkC (w.extractLsb' 4 8).toNat (cFields w) = some i := by
  unfold decodeC at h
  simp only at h
  repeat' split at h
  all_goals cases h
  exact ⟨‹_›, ‹_›⟩

theorem decodeG_ok {w : IWord} {i : Instr} (h : decodeG w = .ok i) :
    legalG (w.extractLsb' 4 8).toNat (gFields w) = true ∧ mkG (w.extractLsb' 4 8).toNat (gFields w) = some i := by
  unfold decodeG at h
  simp only at h
  repeat' split at h
  all_goals cases h
  exact ⟨‹_›, ‹_›⟩

/-! ### The statements -/

theorem decodeWord_cWord {opc : BitVec 8} {f : CForm} {i : Instr} (hl : legalC opc.toNat f = true) (hm : mkC opc.toNat f = some i) :
    decodeWord (f.word opc) = .ok i := by
  have h12 : f.cls ≠ 12#4 := fun h => by have := cls_lt_of_legalC hl; simp [h] at this
  rw [decodeWord, cls_of_cWord, if_neg h12, decodeC_word hl hm]

theorem decodeWord_gWord {opc : BitVec 8} {f : GForm} {i : Instr} (hl : legalG opc.toNat f = true) (hm : mkG opc.toNat f = some i) :
    decodeWord (f.word opc) = .ok i := by
  rw [decodeWord, cls_of_gWord, if_pos rfl, decodeG_word hl hm]

/-- Settles O55: a legal form's word gives back its fields and its opcode, under a class that the decoder accepts. -/
theorem encodeDecode : Obligations.EncodeDecode := by
  intro i hwf hparts
  obtain ⟨hC, hG⟩ := Laws.WfParts.holds i hwf
  match hp : i.parts with
  | none => exact absurd hp hparts
  | some (opc, .c f) =>
    obtain ⟨hl, hm⟩ := hC opc f hp
    exact ⟨f.word opc, by simp [encode, hp, Form.word], decodeWord_cWord hl hm⟩
  | some (opc, .g f) =>
    obtain ⟨hl, hm⟩ := hG opc f hp
    exact ⟨f.word opc, by simp [encode, hp, Form.word], decodeWord_gWord hl hm⟩

theorem decodeC_wf_encode {w : IWord} {i : Instr} (h : decodeC w = .ok i) : i.wf = true ∧ encode i = some w := by
  obtain ⟨hl, hm⟩ := decodeC_ok h
  have hp := parts_of_mkC hm
  exact ⟨by simp only [Instr.wf, hp, hl, hm, decide_true, Bool.and_self], by simp only [encode, hp, Form.word, word_cFields]⟩

theorem decodeG_wf_encode {w : IWord} {i : Instr} (hcls : w.extractLsb' 0 4 = 12#4) (h : decodeG w = .ok i) : i.wf = true ∧ encode i = some w := by
  obtain ⟨hl, hm⟩ := decodeG_ok h
  have hp := parts_of_mkG hm
  exact ⟨by simp only [Instr.wf, hp, hl, hm, decide_true, Bool.and_self], by simp only [encode, hp, Form.word, word_gFields hcls]⟩

/-- Settles O56: the fields of a word that decodes are legal under its opcode, and they put the word together again. -/
theorem decodeEncode : Obligations.DecodeEncode := by
  refine ⟨fun w i h => ?_, fun w h => ?_, fun w h => ?_⟩
  · unfold decodeWord at h
    split at h
    · exact decodeG_wf_encode ‹_› h
    · exact decodeC_wf_encode h
  · unfold decodeWord decodeC
    rw [h]
    rfl
  · unfold decodeWord decodeC
    generalize w.extractLsb' 0 4 = cls at h ⊢
    simp only [List.mem_cons, List.not_mem_nil, or_false] at h
    obtain rfl | rfl | rfl | rfl | rfl | rfl := h <;> rfl

theorem decodeWord_of_toOption {w : IWord} {i : Instr} (h : (decodeWord w).toOption = some i) : decodeWord w = .ok i := by
  cases hd : decodeWord w with
  | error e => rw [hd] at h; cases h
  | ok j => rw [hd] at h; exact congrArg Except.ok (Option.some.inj h)

/-- Settles O54: each word, decoded. -/
theorem decodedWords : Obligations.DecodedWords := by
  unfold Obligations.DecodedWords
  refine ⟨?_, ?_, ?_, ?_, ?_, ?_, ?_, ?_, ?_, ?_⟩ <;> refine decodeWord_of_toOption ?_ <;> decide +kernel

end Sys2Proof.Proofs
end

section
/-!
PROOFS. The outcomes of a bundle and of a firing, each once: flags raised in `SR.FSTAT` or in a frame's status word, and the answer that a meaning then gives
(R40, R41, R100, R155). Results of lanes and of lane masks (R161, R162).
-/
namespace Sys2Proof.Proofs
open Sys2Proof Sys2Proof.Machine Sys2Proof.Machine.State Sys2Proof.Claims

/-! ### The current thread -/

@[simp] theorem own_own (s : State) (g h : Thread → Thread) : own (own s g) h = own s fun t => h (g t) := modThr_modThr _ _ _ _
@[simp] theorem thr_own (s : State) (g : Thread → Thread) : (own s g).thr s.curThread = g s.cur := thr_modThr _ _ _
@[simp] theorem curThread_own (s : State) (g : Thread → Thread) : (own s g).curThread = s.curThread := rfl
@[simp] theorem cur_own (s : State) (g : Thread → Thread) : (own s g).cur = g s.cur := thr_modThr _ _ _

theorem addWarn_eq_own (s : State) (w : BitVec 16) : addWarn s s.curThread w = own s fun t => note t 0 w := by
  simp [addWarn, own, note]

/-- Without a warning and a flag nothing is noted. -/
theorem own_note_zero (s : State) (g : Thread → Thread) : (own s fun t => g (note t 0 0)) = own s g := by simp [note]

/-! ### Flags of a bundle (R41) -/

section
variable {opc : Nat} {f : CForm} {s : State} {w : BitVec 16} {fl : BitVec 13} {go : State → BRes}

/-- The flags alone, without a warning of the meaning. -/
theorem raiseC_unmasked' (h : unmasked s fl) : raiseC (cenv opc f s) s fl go = go (own s fun t => note t fl 0) := by
  rw [raiseC_go (e := cenv opc f s) h]
  exact congrArg go (by simp [own, note])

theorem raiseC_masked' (h : ¬ unmasked s fl) :
    raiseC (cenv opc f s) s fl go = .trap (own s fun t => note t fl 0) cFP_EXC 0 ((fl.extractLsb' 0 5).setWidth 64) := by
  unfold raiseC
  dsimp only
  split
  · simp [own, note]
  · next hn => exact absurd (Classical.not_not.1 hn) h

theorem unmasked_noted : unmasked (own s fun t => note t 0 w) fl ↔ unmasked s fl := by simp [unmasked, note]

theorem note_note (t : Thread) : note (note t 0 w) fl 0 = note t fl w := by simp [note]

theorem raiseC_unmasked (h : unmasked s fl) : raiseC (cenv opc f s) (addWarn s s.curThread w) fl go = go (own s fun t => note t fl w) := by
  rw [addWarn_eq_own]
  refine (raiseC_unmasked' (opc := opc) (f := f) (s := own s fun t => note t 0 w) ?_).trans (congrArg go ?_)
  · rwa [unmasked_noted]
  · simp only [own_own, note_note]

theorem raiseC_masked (h : ¬ unmasked s fl) :
    raiseC (cenv opc f s) (addWarn s s.curThread w) fl go = .trap (own s fun t => note t fl w) cFP_EXC 0 ((fl.extractLsb' 0 5).setWidth 64) := by
  rw [addWarn_eq_own]
  refine (raiseC_masked' (opc := opc) (f := f) (s := own s fun t => note t 0 w) ?_).trans ?_
  · rwa [unmasked_noted]
  · simp only [own_own, note_note]

end

/-! ### What a bundle answers -/

section
variable {opc : Nat} {f : CForm} {s s1 : State} {body : CEnv → State → BRes} (h : Issues opc f s)
include h

theorem runC_trap {c : BitVec 6} {a i : Word} (hb : body (cenv opc f s) s = .trap s1 c a i) :
    runC opc f s body = takeTrap (s1.modThr s.curThread fun t => { t with warn := t.warn ||| decodeWarn opc f, issued := t.issued + 1 }) s.curThread c s.curPc a i := by
  rw [runC_issues h, hb]
  rfl

theorem runC_after {c : BitVec 6} {i : Word} (hb : body (cenv opc f s) s = .after s1 c i) :
    runC opc f s body =
      takeTrap (s1.modThr s.curThread fun t => { t with warn := t.warn ||| decodeWarn opc f, issued := t.issued + 1 }) s.curThread c (s.curPc + 16) 0 i := by
  rw [runC_issues h, hb]
  rfl

theorem runC_wait (hb : body (cenv opc f s) s = .wait s1) : runC opc f s body = s1 := by
  rw [runC_issues h, hb]
  rfl

theorem runC_stop (hb : body (cenv opc f s) s = .stop s1) :
    runC opc f s body = s1.modThr s.curThread fun t => { t with warn := t.warn ||| decodeWarn opc f, issued := t.issued + 1 } := by
  rw [runC_issues h, hb]
  rfl

/-- A bundle that answers with an enabled flag traps `FP_EXC` as `raised` says. -/
theorem runC_raised {fl : BitVec 13} {w : BitVec 16}
    (hb : body (cenv opc f s) s = .trap (own s fun t => note t fl w) cFP_EXC 0 ((fl.extractLsb' 0 5).setWidth 64)) :
    runC opc f s body = raised opc f s fl w := by
  rw [runC_trap h hb, raised]
  simp [own, note, BitVec.or_assoc]

end

/-! ### Flags of a firing (R155) -/

section
variable {opc : Nat} {f : GForm} {s : State} {n : Inst} {a : Act} {fl : BitVec 13} {w : BitVec 16} {go : State → GRes}

theorem fireEnv_a_ : (fireEnv f s n a).a_ = a := rfl

theorem raiseG_unmasked (h : fl.extractLsb' 0 5 &&& (noteStatus s a fl w).2 = 0) : raiseG (fireEnv f s n a) s fl w go = go (noted s a fl w) := by
  unfold raiseG noted
  by_cases h0 : fl = 0 ∧ w = 0
  · simp [h0]
  · have h0' : (decide (fl = 0) && decide (w = 0)) = false := by simpa using h0
    simp only [h0, h0', fireEnv_a_, if_false, h, ne_eq, not_true_eq_false, Bool.false_eq_true]

theorem raiseG_masked (h : maskedG s a fl w) : raiseG (fireEnv f s n a) s fl w go = .fault (noteStatus s a fl w).1 cFP_EXC 0 := by
  have hfl : fl ≠ 0 := fun h0 => h (by simp [h0])
  have h0 : (decide (fl = 0) && decide (w = 0)) = false := by rw [decide_eq_false hfl, Bool.false_and]
  unfold raiseG
  simp only [h0, fireEnv_a_, Bool.false_eq_true, if_false]
  exact if_pos h

/-- Flags that are never exceptions leave the firing to go on. -/
theorem raiseG_quiet (h : fl.extractLsb' 0 5 = 0) : raiseG (fireEnv f s n a) s fl w go = go (noted s a fl w) :=
  raiseG_unmasked (by rw [h]; exact BitVec.zero_and)

theorem runG_fault {s1 : State} {c : BitVec 6} {ad : Word} {body : GEnv → State → GRes} (h : Fires opc f s n a)
    (hb : body (fireEnv f s n a) s = .fault s1 c ad) : runG opc f s body = firingFault f s s1 n c ad := by
  rw [runG_fires h, hb]
  rfl

theorem runG_wait {s1 : State} {body : GEnv → State → GRes} (h : Fires opc f s n a) (hb : body (fireEnv f s n a) s = .wait s1) :
    runG opc f s body = s1 := by
  rw [runG_fires h, hb]
  rfl

theorem runG_emit {s1 : State} {ts : List (Nat × Nat)} {k : Token} {body : GEnv → State → GRes} (h : Fires opc f s n a)
    (hb : body (fireEnv f s n a) s = .emit s1 ts k) : runG opc f s body = emitted opc f s s1 n ts k := by
  rw [runG_fires h, hb]
  rfl

end

/-! ### Results of lanes (R162, R163, R165) -/

section
variable {opc : Nat} {f : CForm} {s : State} {k : Nat}

@[simp] theorem cenv_mask (opc : Nat) (f : CForm) (s : State) : (cenv opc f s).mask = laneMask s.cur f := rfl

theorem readOld_clean {go : BRes} (h : oldClean f s k) : readOld (cenv opc f s) s k go = go := by
  unfold readOld
  cases hk : keepsOld k (laneMask s.cur f) (zeroing f) with
  | false => simp [hk]
  | true =>
    have hp : Tbl.find? (s.thr s.curThread).pois (64 + f.d.toNat) = none := h hk
    simp [hk, hp]

theorem mergeV_eq_lanesOf (u : State) (hv : (u.thr s.curThread).v = s.cur.v) (rs : Nat → Nat) : mergeV (cenv opc f s) u k rs = lanesOf f s k rs := by
  simp only [mergeV, lanesOf, Thread.vr, cenv_k, cenv_f, cenv_mask, hv]

theorem lanesOf_congr {rs rs' : Nat → Nat} (h : ∀ i < elems k, active (laneMask s.cur f) i = true → rs i = rs' i) : lanesOf f s k rs = lanesOf f s k rs' := by
  unfold lanesOf
  refine congrArg (packLanes (stride k)) (List.map_congr_left fun i hi => ?_)
  split
  · rw [h i (List.mem_range.1 hi) ‹_›]
  · rfl

theorem retV_own (u : State) (long : Bool) (v : Vec) : retV (cenv opc f s) u long v = .ok (u.modThr s.curThread (Claims.putV long f v)) long := by
  cases long <;> rfl

theorem retX_own (u : State) (v : Word) : retX (cenv opc f s) u v = .ok (u.modThr s.curThread fun t => t.xw f.d.toNat v) false := rfl

theorem putX_ret (u : State) (long : Bool) (v : Word) :
    (if long then retFill else retX) (cenv opc f s) u v = .ok (u.modThr s.curThread (putX long f v)) long := by
  cases long <;> rfl

/-- The results that a lane-wise bundle gathers, read back at an active element. -/
theorem gathered_getD {m : Word} {op : Nat → Res} {i : Nat} (hi : i < elems k) (ha : active m i = true) :
    (((List.range (elems k)).map fun i => if active m i then op i else ({ pat := 0 } : Res)).getD i { pat := 0 }) = op i := by
  simp [List.getD, hi, ha]

theorem lanewise_unmasked {long : Bool} {op : Nat → Res} (ho : oldClean f s k) (h : unmasked s (laneFlags f s k op).1) :
    lanewise (cenv opc f s) s k long op = .ok (own s fun t =>
      Claims.putV long f (lanesOf f s k fun i => (op i).pat) (note t (laneFlags f s k op).1 (laneFlags f s k op).2)) long := by
  simp only [lanewise]
  rw [readOld_clean ho]
  change raiseC (cenv opc f s) (addWarn s s.curThread (laneFlags f s k op).2) (laneFlags f s k op).1 _ = _
  rw [raiseC_unmasked h, retV_own, mergeV_eq_lanesOf _ (by simp [note])]
  refine congrArg (BRes.ok · long) ((own_own _ _ _).trans ?_)
  refine congrArg (own s) (funext fun t => congrArg (fun v => Claims.putV long f v _) (lanesOf_congr fun i hi ha => ?_))
  exact congrArg Res.pat (gathered_getD hi ha)

theorem lanewise_masked {long : Bool} {op : Nat → Res} (ho : oldClean f s k) (h : ¬ unmasked s (laneFlags f s k op).1) :
    lanewise (cenv opc f s) s k long op =
      .trap (own s fun t => note t (laneFlags f s k op).1 (laneFlags f s k op).2) cFP_EXC 0 (((laneFlags f s k op).1.extractLsb' 0 5).setWidth 64) := by
  simp only [lanewise]
  rw [readOld_clean ho]
  exact raiseC_masked h

end

/-! ### Lane masks (R161, R162) -/

theorem mem_activeList {k i : Nat} {m : Word} : i ∈ activeList k m ↔ i < elems k ∧ active m i = true := by
  simp [activeList]

theorem elems_le (k : Nat) : elems k ≤ 64 := by unfold elems; split <;> decide

theorem getLsbD_shiftOne {i j : Nat} (hj : j < 64) : (1#64 <<< i).getLsbD j = decide (j = i) := by
  by_cases h : j = i <;> simp [BitVec.getLsbD_shiftLeft, hj, h] <;> omega

/-- Clearing the bits of a list. -/
theorem getLsbD_cleared (l : List Nat) (base : Word) {j : Nat} (hj : j < 64) :
    (l.foldl (fun a i => a &&& ~~~(1#64 <<< i)) base).getLsbD j = (base.getLsbD j && !decide (j ∈ l)) := by
  induction l generalizing base with
  | nil => simp
  | cons i l ih =>
    rw [List.foldl_cons, ih, BitVec.getLsbD_and, BitVec.getLsbD_not, getLsbD_shiftOne hj]
    by_cases h : j = i <;> simp [h, hj]

/-- Setting the bits of a list whose results say so. -/
theorem getLsbD_set (l : List Nat) (p : Nat → Bool) (base : Word) {j : Nat} (hj : j < 64) :
    (l.foldl (fun a i => if p i = true then a ||| (1#64 <<< i) else a) base).getLsbD j = (base.getLsbD j || (decide (j ∈ l) && p j)) := by
  induction l generalizing base with
  | nil => simp
  | cons i l ih =>
    rw [List.foldl_cons, ih]
    by_cases h : j = i
    · subst h
      cases hp : p j <;> simp [getLsbD_shiftOne hj]
    · cases hp : p i <;> simp [h, getLsbD_shiftOne hj]

/-- The lane mask that a compare writes. -/
def maskValue (f : CForm) (s : State) (k : Nat) (res : Nat → Bool) : Word :=
  let act := activeList k (laneMask s.cur f)
  act.foldl (fun a i => if res i = true then a ||| (1#64 <<< i) else a)
    (act.foldl (fun a i => a &&& ~~~(1#64 <<< i)) (if zeroing f then 0 else s.cur.mr f.d.toNat))

theorem maskOk_maskValue (f : CForm) (s : State) (k : Nat) (res : Nat → Bool) : maskOk f s k res (maskValue f s k res) := by
  intro i hi
  rw [maskValue, getLsbD_set _ _ _ hi, getLsbD_cleared _ _ hi]
  by_cases h : i < elems k ∧ active (laneMask s.cur f) i = true
  · simp [mem_activeList, h]
  · simp only [mem_activeList, h, if_false, decide_false, Bool.false_and, Bool.or_false, Bool.not_false, Bool.and_true]
    cases zeroing f <;> simp

section
variable {opc : Nat} {f : CForm} {s : State} {k : Nat} {op : Nat → Bool × BitVec 13 × BitVec 16}

theorem laneMaskRes_unmasked (h : unmasked s (maskFlags f s k fun i => (op i).2.1)) :
    laneMaskRes (cenv opc f s) s k op = .ok (own s fun t =>
      (note t (maskFlags f s k fun i => (op i).2.1) (maskWarns f s k fun i => (op i).2.2)).mw f.d.toNat (maskValue f s k fun i => (op i).1)) false := by
  simp only [laneMaskRes, List.foldl_map]
  change raiseC (cenv opc f s) (addWarn s s.curThread (maskWarns f s k fun i => (op i).2.2)) (maskFlags f s k fun i => (op i).2.1) _ = _
  rw [raiseC_unmasked h]
  refine congrArg (BRes.ok · false) ((own_own _ _ _).trans ?_)
  simp only [maskValue, Thread.mr, cenv_k, cenv_f, cenv_mask, thr_own, note]

theorem laneMaskRes_masked (h : ¬ unmasked s (maskFlags f s k fun i => (op i).2.1)) :
    laneMaskRes (cenv opc f s) s k op = .trap (own s fun t => note t (maskFlags f s k fun i => (op i).2.1) (maskWarns f s k fun i => (op i).2.2)) cFP_EXC 0
      (((maskFlags f s k fun i => (op i).2.1).extractLsb' 0 5).setWidth 64) := by
  simp only [laneMaskRes, List.foldl_map]
  exact raiseC_masked h

theorem foldl_unchanged {α β : Type} (b : β) (l : List α) : l.foldl (fun a _ => a) b = b := by
  induction l with
  | nil => rfl
  | cons x l ih => exact ih

/-- Flags that are never raised are never enabled. -/
theorem maskFlags_zero : maskFlags f s k (fun _ => 0) = 0 := by simp [maskFlags, foldl_unchanged]

theorem unmasked_zero : unmasked s 0 := BitVec.zero_and

end

end Sys2Proof.Proofs
end

section
/-!
PROOFS. The integer opcodes, compares, selections and immediates in every form (R135 to R142, R155, R162, R165): one lemma per form of the shared meanings, from
which the statements follow opcode by opcode.
-/
namespace Sys2Proof.Proofs
open Sys2Proof Sys2Proof.Machine Sys2Proof.Machine.State Sys2Proof.Claims
open Host (Outcome)

/-! ### The integer opcodes raise no exception flag -/

theorem flSATC_noException : flSATC.extractLsb' 0 5 = 0 := by decide

/-- The result raises no flag, or `SATC` alone, which is never an exception (Table 02-3). -/
def NoException (r : Res) : Prop := r.fl = 0 ∨ r.fl = flSATC

theorem NoException.low {r : Res} (h : NoException r) : r.fl.extractLsb' 0 5 = 0 := by
  rcases h with h | h <;> rw [h] <;> decide

theorem NoException.unmasked {r : Res} (h : NoException r) (s : State) : unmasked s r.fl := by
  rw [Claims.unmasked, h.low]
  exact BitVec.zero_and

theorem intResult_noException (k : Nat) (sat : Bool) (t : Int) : NoException (intResult k sat t) := by
  unfold intResult
  repeat' split
  all_goals simp [NoException]

theorem val2_noException (x : IArgs) (signed : Bool) (g : Int → Int → Int) : NoException (x.val2 signed g) := intResult_noException _ _ _

theorem pattern_noException (p : Nat) (w : BitVec 16) : NoException { pat := p, warn := w } := .inl rfl

theorem opDiv_noException (x : IArgs) : NoException (opDiv x) := by
  unfold opDiv
  simp only
  split
  · exact pattern_noException _ _
  · exact val2_noException _ _ _

theorem opBfi_noException (x : IArgs) : NoException (opBfi x) := by
  unfold opBfi
  simp only
  split <;> exact pattern_noException _ _

theorem opMadd_noException (x : IArgs) : NoException (opMadd x) := by
  have h := val2_noException x (ownKind x.k) fun a b => a * b + (intVal x.k (ownKind x.k) x.c.toNat).1
  exact h

theorem opAbs_noException (x : IArgs) : NoException (opAbs x) := by
  have h := intResult_noException x.k x.sat ((intVal x.k (ownKind x.k) x.a.toNat).1.natAbs : Int)
  exact h

theorem intOps_noException : ∀ x ∈ intOps, ∀ y : IArgs, NoException (x.2.2 y) := by
  simp only [intOps, List.forall_mem_cons, List.not_mem_nil, false_imp_iff, implies_true, and_true]
  have pattern := @pattern_noException
  exact ⟨fun _ => val2_noException _ _ _, fun _ => val2_noException _ _ _, fun _ => val2_noException _ _ _, fun _ => pattern _ _, opDiv_noException,
    fun _ => val2_noException _ _ _, opMadd_noException, fun _ => pattern _ _, fun _ => pattern _ _, fun _ => pattern _ _, fun _ => pattern _ _,
    fun _ => pattern _ _, fun _ => pattern _ _, fun _ => pattern _ _, fun _ => val2_noException _ _ _, fun _ => val2_noException _ _ _,
    fun _ => intResult_noException _ _ _, fun _ => intResult_noException _ _ _, fun _ => pattern _ _, fun _ => intResult_noException _ _ _,
    opBfi_noException, fun _ => intResult_noException _ _ _, fun _ => intResult_noException _ _ _, fun _ => pattern _ _, opAbs_noException⟩

theorem intOps_exec : ∀ x ∈ intOps, ∀ (f : Form) (s : State), exec (x.1 f) s = intForm x.2.1 x.2.2 f s := by
  simp only [intOps, List.forall_mem_cons, List.not_mem_nil, false_imp_iff, implies_true, and_true]
  refine ⟨?_, ?_, ?_, ?_, ?_, ?_, ?_, ?_, ?_, ?_, ?_, ?_, ?_, ?_, ?_, ?_, ?_, ?_, ?_, ?_, ?_, ?_, ?_, ?_, ?_⟩ <;> exact fun _ _ => rfl

/-! ### The three forms -/

theorem foldRes_noException (l : List Res) (h : ∀ r ∈ l, NoException r) : (foldRes l).1.extractLsb' 0 5 = 0 := by
  unfold foldRes
  suffices ∀ a : BitVec 13 × BitVec 16, a.1.extractLsb' 0 5 = 0 → (l.foldl (fun a r => (a.1 ||| r.fl, a.2 ||| r.warn)) a).1.extractLsb' 0 5 = 0 from this _ (by decide)
  induction l with
  | nil => exact fun a ha => ha
  | cons r l ih =>
    intro a ha
    refine ih (fun r hr => h r (List.mem_cons_of_mem _ hr)) _ ?_
    have hr := (h r List.mem_cons_self).low
    simp [BitVec.extractLsb'_or, ha, hr]

theorem laneFlags_noException {f : CForm} {s : State} {k : Nat} {op : Nat → Res} (h : ∀ i, NoException (op i)) : unmasked s (laneFlags f s k op).1 := by
  rw [Claims.unmasked, laneFlags, foldRes_noException]
  · exact BitVec.zero_and
  · intro r hr
    obtain ⟨i, -, rfl⟩ := List.mem_map.1 hr
    split
    · exact h i
    · exact .inl rfl

theorem intForm_lanes {opc : Nat} {op : IArgs → Res} {f : CForm} {s : State} (h : Issues opc f s) (hcls : f.cls = 4)
    (ho : oldClean f s (intFmt f.fmt)) (hop : ∀ y, NoException (op y)) :
    let k := intFmt f.fmt
    let res := fun i => op (laneArgs (cenv opc f s) k i)
    intForm opc op (.c f) s = .next (completed opc f s
      (own s fun t => (note t (laneFlags f s k res).1 (laneFlags f s k res).2).vw f.d.toNat (lanesOf f s k fun i => (res i).pat)) false) := by
  refine congrArg Outcome.next (runC_ok h ?_)
  simp only [hcls, if_true]
  exact lanewise_unmasked ho (laneFlags_noException fun i => hop _)

theorem intForm_token {opc : Nat} {op : IArgs → Res} {f : GForm} {s : State} {n : Inst} {a : Act} (h : Fires opc f s n a) (hop : ∀ y, NoException (op y)) :
    let r := op (tokArgs f s n a)
    intForm opc op (.g f) s = .next (sent opc f s (noted s a r.fl (r.warn ||| intWarnG opc f)) n (intReg (intFmt f.fmt) r)) :=
  congrArg Outcome.next (runG_send h (raiseG_quiet (hop _).low))

/-- Settles O1: the three forms of an integer opcode, whose results raise no exception. -/
theorem integerResult : Obligations.IntegerResult := by
  refine ⟨fun x hx f s h hcls => ?_, fun x hx f s h hcls ho => ?_, fun x hx f s n a h => ?_⟩
  · exact (intOps_exec x hx _ s).trans (intForm_completes h hcls (intOps_noException x hx _).low)
  · exact (intOps_exec x hx _ s).trans (intForm_lanes h hcls ho (intOps_noException x hx))
  · exact (intOps_exec x hx _ s).trans (intForm_token h (intOps_noException x hx))

/-! ### Compares (R139, R168) -/

theorem opFcmp_ignores_c (f : CForm) (k a b c c' : Nat) : opFcmp (fArgsC f k a b c) = opFcmp (fArgsC f k a b c') := rfl

theorem opFcmp_ignores_c_tok (f : GForm) (k a b c c' : Nat) : opFcmp (fArgsG f k a b c) = opFcmp (fArgsG f k a b c') := rfl

/-- One lane of `fcmp`, as its meaning answers it. -/
def fcmpLane (f : CForm) (s : State) (k i : Nat) : Bool × BitVec 13 × BitVec 16 :=
  ((opFcmp (fltLane 0x26 f s k i)).1, (opFcmp (fltLane 0x26 f s k i)).2, 0)

theorem fcmpLane_eq (f : CForm) (s : State) (k : Nat) :
    (fun i => let r := opFcmp (fArgsC f k (laneOf k (cenv 0x26 f s).va i) (laneOf k (cenv 0x26 f s).vb i) 0); (r.1, r.2, 0)) = fcmpLane f s k :=
  funext fun i => by rw [opFcmp_ignores_c f k _ _ 0 (laneOf k (cenv 0x26 f s).vc i)]; rfl

theorem maskWarns_zero (f : CForm) (s : State) (k : Nat) : maskWarns f s k (fun _ => 0) = 0 := by simp [maskWarns, foldl_unchanged]

theorem exec_fcmp_register {f : CForm} {s : State} (h : Issues 0x26 f s) (hcls : f.cls ≠ 4) (hu : unmasked s (opFcmp (fltReg 0x26 f s)).2) :
    exec (.fcmp (.c f)) s =
      .next (completed 0x26 f s (own s fun t => (note t (opFcmp (fltReg 0x26 f s)).2 0).pw f.d.toNat (opFcmp (fltReg 0x26 f s)).1) false) := by
  refine congrArg Outcome.next (runC_ok h ?_)
  rw [fltReg, opFcmp_ignores_c f _ _ _ _ 0] at hu ⊢
  simp only [hcls, if_false]
  rw [raiseC_unmasked' hu]
  exact congrArg (BRes.ok · false) (own_own _ _ _)

theorem exec_fcmp_lanes {f : CForm} {s : State} (h : Issues 0x26 f s) (hcls : f.cls = 4)
    (hu : unmasked s (maskFlags f s (fltFmt f.fmt) fun i => (fcmpLane f s (fltFmt f.fmt) i).2.1)) :
    exec (.fcmp (.c f)) s = .next (completed 0x26 f s (own s fun t => (note t (maskFlags f s (fltFmt f.fmt) fun i => (fcmpLane f s (fltFmt f.fmt) i).2.1) 0).mw
      f.d.toNat (maskValue f s (fltFmt f.fmt) fun i => (fcmpLane f s (fltFmt f.fmt) i).1)) false) := by
  refine congrArg Outcome.next (runC_ok h ?_)
  rw [if_pos hcls, fcmpLane_eq, laneMaskRes_unmasked hu, show (fun i => (fcmpLane f s (fltFmt f.fmt) i).2.2) = fun _ => 0 from rfl, maskWarns_zero]

theorem exec_fcmp_token {f : GForm} {s : State} {n : Inst} {a : Act} (h : Fires 0x26 f s n a)
    (hu : (opFcmp (fltTok f s n a)).2.extractLsb' 0 5 &&& (noteStatus s a (opFcmp (fltTok f s n a)).2 (fltWarnG 0x26 f)).2 = 0) :
    exec (.fcmp (.g f)) s =
      .next (sent 0x26 f s (noted s a (opFcmp (fltTok f s n a)).2 (fltWarnG 0x26 f)) n (if (opFcmp (fltTok f s n a)).1 then 1 else 0)) := by
  refine congrArg Outcome.next (runG_send h ?_)
  rw [fltTok, opFcmp_ignores_c_tok f _ _ _ _ 0] at hu ⊢
  exact raiseG_unmasked hu

/-- Settles O2: `cmp` sets no flag; `fcmp` goes on where its flags are not enabled. -/
theorem compareResult : Obligations.CompareResult := by
  refine ⟨fun f s h hcls => ?_, fun f s h hcls => ?_, fun f s n a h => ?_, fun f s h hcls hu => ?_, fun f s h hcls hu => ?_, fun f s n a h hu => ?_⟩
  · refine congrArg Outcome.next (runC_ok h ?_)
    simp only [hcls, if_false, cenv_k, addWarn_eq_own]
    exact congrArg (BRes.ok · false) (own_own _ _ _)
  · refine ⟨maskValue f s (intFmt f.fmt) _, maskOk_maskValue _ _ _ _, congrArg Outcome.next (runC_ok h ?_)⟩
    simp only [hcls, if_true]
    rw [laneMaskRes_unmasked (by rw [maskFlags_zero]; exact unmasked_zero), maskFlags_zero]
  · exact congrArg Outcome.next (runG_send h (raiseG_quiet (by decide)))
  · exact exec_fcmp_register h hcls hu
  · exact ⟨_, maskOk_maskValue _ _ _ _, exec_fcmp_lanes h hcls hu⟩
  · exact exec_fcmp_token h hu

/-! ### Selections and immediates (R139, R141, R142) -/

/-- Bare patterns note nothing. -/
theorem laneFlags_patterns (f : CForm) (s : State) (k : Nat) (p : Nat → Nat) : laneFlags f s k (fun i => { pat := p i }) = (0, 0) := by
  unfold laneFlags foldRes
  induction List.range (elems k) with
  | nil => rfl
  | cons i l ih =>
    rw [List.map_cons, List.foldl_cons]
    have hi : (if active (laneMask s.cur f) i = true then ({ pat := p i } : Res) else { pat := 0 }).fl = 0 ∧
        (if active (laneMask s.cur f) i = true then ({ pat := p i } : Res) else { pat := 0 }).warn = 0 := by split <;> exact ⟨rfl, rfl⟩
    rw [hi.1, hi.2]
    exact ih

/-- A lane-wise bundle of bare patterns. -/
theorem lanewise_patterns {opc : Nat} {f : CForm} {s : State} {k : Nat} {long : Bool} {p : Nat → Nat} (ho : oldClean f s k) :
    lanewise (cenv opc f s) s k long (fun i => { pat := p i }) = .ok (own s (Claims.putV long f (lanesOf f s k p))) long := by
  rw [lanewise_unmasked ho (by rw [laneFlags_patterns]; exact unmasked_zero), laneFlags_patterns]
  exact congrArg (BRes.ok · long) (own_note_zero s _)

/-- Settles O3: each meaning is the answer that the statement names. -/
theorem selectAndImmediateResult : Obligations.SelectAndImmediateResult := by
  refine ⟨fun f s h hcls => ?_, fun f s h hcls ho => ?_, fun f s n a h => ?_, fun f s h => ?_, fun f s n a h => ?_, fun f s h => ?_, fun f s n a h => ?_,
    fun f s h => ?_, fun f s n a h => ?_, fun f s h => ?_, fun f s n a h => ?_⟩
  · refine congrArg Outcome.next (runC_ok h ?_)
    simp only [hcls, if_false]
    rfl
  · refine congrArg Outcome.next (runC_ok h ?_)
    simp only [hcls, if_true]
    exact lanewise_patterns ho
  · exact congrArg Outcome.next (runG_send h (raiseG_quiet (by decide)))
  · refine congrArg Outcome.next (runC_ok h ((raiseC_unmasked' ((intResult_noException _ _ _).unmasked s)).trans ?_))
    exact congrArg (BRes.ok · false) (own_own _ _ _)
  · exact congrArg Outcome.next (runG_send h (raiseG_quiet (intResult_noException _ _ _).low))
  · refine congrArg Outcome.next (runC_ok h ?_)
    exact congrArg (BRes.ok · false) rfl
  · exact congrArg Outcome.next (runG_send h (raiseG_quiet (by decide)))
  · exact congrArg Outcome.next (runC_ok h rfl)
  · exact congrArg Outcome.next (runG_send h (raiseG_quiet (by decide)))
  · exact congrArg Outcome.next (runC_ok h rfl)
  · exact congrArg Outcome.next (runG_quiet h rfl)

end Sys2Proof.Proofs
end

section
/-!
PROOFS. The float opcodes, conversions and vector opcodes (R40, R41, R166 to R177): each meaning raises its flags and then writes. Where none is enabled the
bundle completes; where one is, it traps `FP_EXC`, or faults in the fabric. Each meaning is described once, and both outcomes follow.
-/
namespace Sys2Proof.Proofs
open Sys2Proof Sys2Proof.Machine Sys2Proof.Machine.State Sys2Proof.Claims
open Host (Outcome)

/-! ### A meaning that raises its flags and then writes -/

/-- The meaning notes the warnings `w`, raises the flags `fl`, and where none of them is enabled changes its thread by `g`. -/
structure Raises (opc : Nat) (f : CForm) (s : State) (body : CEnv → State → BRes) (fl : BitVec 13) (w : BitVec 16) (g : Thread → Thread) (late : Bool) : Prop where
  completes : unmasked s fl → body (cenv opc f s) s = .ok (own s fun t => g (note t fl w)) late
  traps : ¬ unmasked s fl → body (cenv opc f s) s = .trap (own s fun t => note t fl w) cFP_EXC 0 ((fl.extractLsb' 0 5).setWidth 64)

section
variable {opc : Nat} {f : CForm} {s : State} {body : CEnv → State → BRes} {fl : BitVec 13} {w : BitVec 16} {g : Thread → Thread} {late : Bool}

theorem Raises.runC_completed (hb : Raises opc f s body fl w g late) (h : Issues opc f s) (hu : unmasked s fl) :
    runC opc f s body = completed opc f s (own s fun t => g (note t fl w)) late := runC_ok h (hb.completes hu)

theorem Raises.runC_raised (hb : Raises opc f s body fl w g late) (h : Issues opc f s) (hu : ¬ unmasked s fl) :
    runC opc f s body = raised opc f s fl w := Proofs.runC_raised h (hb.traps hu)

/-- The usual meaning: warnings, flags, then a change of the thread. -/
theorem raises_raiseC {go : State → BRes} (hbody : body (cenv opc f s) s = raiseC (cenv opc f s) (addWarn s s.curThread w) fl go)
    (hgo : ∀ u : State, go u = .ok (u.modThr s.curThread g) late) : Raises opc f s body fl w g late where
  completes hu := by
    rw [hbody, raiseC_unmasked hu, hgo]
    exact congrArg (BRes.ok · late) (own_own _ _ _)
  traps hu := by rw [hbody, raiseC_masked hu]

theorem raises_lanewise {k : Nat} {long : Bool} {op : Nat → Res} (ho : oldClean f s k) (hbody : body (cenv opc f s) s = lanewise (cenv opc f s) s k long op) :
    Raises opc f s body (laneFlags f s k op).1 (laneFlags f s k op).2 (Claims.putV long f (lanesOf f s k fun i => (op i).pat)) long where
  completes hu := by rw [hbody, lanewise_unmasked ho hu]
  traps hu := by rw [hbody, lanewise_masked ho hu]

theorem raises_laneMask {k : Nat} {op : Nat → Bool × BitVec 13 × BitVec 16} (hbody : body (cenv opc f s) s = laneMaskRes (cenv opc f s) s k op) :
    Raises opc f s body (maskFlags f s k fun i => (op i).2.1) (maskWarns f s k fun i => (op i).2.2)
      (fun t => t.mw f.d.toNat (maskValue f s k fun i => (op i).1)) false where
  completes hu := by rw [hbody, laneMaskRes_unmasked hu]
  traps hu := by rw [hbody, laneMaskRes_masked hu]

end

/-- The same of a firing: it raises the flags `fl` with the warnings `w` in the frame's status word, and sends `v`. -/
def RaisesG (f : GForm) (s : State) (n : Inst) (a : Act) (body : GEnv → State → GRes) (fl : BitVec 13) (w : BitVec 16) (v : Word) : Prop :=
  body (fireEnv f s n a) s = raiseG (fireEnv f s n a) s fl w fun s => .send s v

section
variable {opc : Nat} {f : GForm} {s : State} {n : Inst} {a : Act} {body : GEnv → State → GRes} {fl : BitVec 13} {w : BitVec 16} {v : Word}

theorem RaisesG.runG_sent (hb : RaisesG f s n a body fl w v) (h : Fires opc f s n a) (hu : fl.extractLsb' 0 5 &&& (noteStatus s a fl w).2 = 0) :
    runG opc f s body = sent opc f s (noted s a fl w) n v := runG_send h (hb.trans (raiseG_unmasked hu))

theorem RaisesG.runG_raised (hb : RaisesG f s n a body fl w v) (h : Fires opc f s n a) (hm : maskedG s a fl w) :
    runG opc f s body = raisedG f s n a fl w := runG_fault h (hb.trans (raiseG_masked hm))

end

/-! ### The float opcodes -/

theorem fltOps_exec : ∀ x ∈ fltOps, ∀ (f : Form) (s : State), exec (x.1 f) s = fltForm x.2.1 x.2.2.1 x.2.2.2 f s := by
  simp only [fltOps, List.forall_mem_cons, List.not_mem_nil, false_imp_iff, implies_true, and_true]
  refine ⟨?_, ?_, ?_, ?_, ?_, ?_, ?_, ?_, ?_, ?_, ?_, ?_, ?_, ?_, ?_, ?_, ?_, ?_, ?_, ?_, ?_⟩ <;> exact fun _ _ => rfl

section
variable {opc : Nat} {long : Bool} {op : FArgs → Res}

/-- The meaning of a float bundle. -/
def fltBody (long : Bool) (op : FArgs → Res) (f : CForm) (e : CEnv) (s : State) : BRes :=
  let k := fltFmt f.fmt
  if f.cls = 4 then lanewise e s k long fun i => op (fArgsC f k (laneOf k e.va i) (laneOf k e.vb i) (laneOf k e.vc i))
  else
    let r := op (fArgsC f k e.a.toNat e.b.toNat e.c.toNat)
    raiseC e (addWarn s e.k r.warn) r.fl fun s => (if long then retFill else retX) e s (BitVec.ofNat 64 r.pat)

theorem fltForm_c (f : CForm) (s : State) : fltForm opc long op (.c f) s = .next (runC opc f s (fltBody long op f)) := rfl

theorem fltBody_register {f : CForm} {s : State} (hcls : f.cls ≠ 4) :
    Raises opc f s (fltBody long op f) (op (fltReg opc f s)).fl (op (fltReg opc f s)).warn (putX long f (BitVec.ofNat 64 (op (fltReg opc f s)).pat)) long :=
  raises_raiseC (if_neg hcls) fun u => putX_ret u long _

theorem fltBody_lanes {f : CForm} {s : State} (hcls : f.cls = 4) (ho : oldClean f s (fltFmt f.fmt)) :
    let res := fun i => op (fltLane opc f s (fltFmt f.fmt) i)
    Raises opc f s (fltBody long op f) (laneFlags f s (fltFmt f.fmt) res).1 (laneFlags f s (fltFmt f.fmt) res).2
      (Claims.putV long f (lanesOf f s (fltFmt f.fmt) fun i => (res i).pat)) long :=
  raises_lanewise ho (if_pos hcls)

/-- The meaning of a float instruction of a block. -/
def fltBodyG (opc : Nat) (op : FArgs → Res) (f : GForm) (e : GEnv) (s : State) : GRes :=
  let k := fltFmt f.fmt
  let r := op (fArgsG f k e.a.toNat e.b.toNat e.c.toNat)
  raiseG e s r.fl (r.warn ||| fltWarnG opc f) fun s => .send s (BitVec.ofNat 64 r.pat)

theorem fltForm_g (f : GForm) (s : State) : fltForm opc long op (.g f) s = .next (runG opc f s (fltBodyG opc op f)) := rfl

theorem fltBodyG_raises (f : GForm) (s : State) (n : Inst) (a : Act) :
    RaisesG f s n a (fltBodyG opc op f) (op (fltTok f s n a)).fl ((op (fltTok f s n a)).warn ||| fltWarnG opc f) (BitVec.ofNat 64 (op (fltTok f s n a)).pat) := rfl

end

/-- Settles O4: flags that are not enabled let a float opcode write its result. -/
theorem floatResult : Obligations.FloatResult := by
  refine ⟨fun x hx f s h hcls hu => ?_, fun x hx f s h hcls ho hu => ?_, fun x hx f s n a h hu => ?_⟩
  · rw [fltOps_exec x hx, fltForm_c]
    exact congrArg Outcome.next ((fltBody_register hcls).runC_completed h hu)
  · rw [fltOps_exec x hx, fltForm_c]
    exact congrArg Outcome.next ((fltBody_lanes hcls ho).runC_completed h hu)
  · rw [fltOps_exec x hx, fltForm_g]
    exact congrArg Outcome.next ((fltBodyG_raises f s n a).runG_sent h hu)

/-! ### `fcvt` (R170) -/

/-- The arguments of `fcvt` from a bundle's fields and a source pattern. -/
def cvtArg (f : CForm) (p : Nat) : FArgs := cvtArgs f.fmt p (effRnd f.var) f.sgn f.sat f.imm.toNat
def cvtLane (f : CForm) (s : State) (i : Nat) : FArgs := cvtArg f (laneOf f.fmt (cenv 0x28 f s).va i)

/-- The results of a scaled block, in the order of its active elements. -/
def cvtBlockOf (f : CForm) (s : State) : List Res := cvtBlock ((activeList f.fmt (laneMask s.cur f)).map (cvtLane f s))

/-- Lanes of a scaled destination: the block's results at the active elements. -/
def cvtBlockLanes (f : CForm) (s : State) : Vec :=
  packLanes 32 ((List.range 64).map fun i => match (activeList f.fmt (laneMask s.cur f)).idxOf? i with
    | some j => ((cvtBlockOf f s).getD j { pat := 0 }).pat
    | none => if zeroing f then 0 else laneOf f.fmt (s.cur.vr f.d.toNat) i)

/-- The meaning of a `fcvt` bundle. -/
def cvtBody (f : CForm) (e : CEnv) (s : State) : BRes :=
  let k := f.fmt
  let arg := fun a => cvtArgs k a (effRnd f.var) f.sgn f.sat f.imm.toNat
  if f.cls = 4 then
    if cvtScaled (arg 0) then
      let act := activeList k e.mask
      let rs := cvtBlock (act.map fun i => arg (laneOf k e.va i))
      let fw := foldRes rs
      readOld e s k <| raiseC e (addWarn s e.k fw.2) fw.1 fun s =>
        let old := (s.thr e.k).vr f.d.toNat
        retV e s false (packLanes 32 ((List.range 64).map fun i =>
          match act.idxOf? i with
          | some j => (rs.getD j { pat := 0 }).pat
          | none => if zeroing f then 0 else laneOf k old i))
    else lanewise e s k false fun i => opFcvt (arg (laneOf k e.va i))
  else
    let x := arg e.a.toNat
    let r := if cvtScaled x then (cvtBlock [x]).headD { pat := 0 } else opFcvt x
    raiseC e (addWarn s e.k r.warn) r.fl fun s => retX e s (cvtReg x r)

theorem exec_fcvt_c (f : CForm) (s : State) : exec (.fcvt (.c f)) s = .next (runC 0x28 f s (cvtBody f)) := rfl

section
variable {f : CForm} {s : State}

theorem cvtBody_register (hcls : f.cls ≠ 4) :
    let x := cvtArg f (cenv 0x28 f s).a.toNat
    Raises 0x28 f s (cvtBody f) (cvtRes x).fl (cvtRes x).warn (fun t => t.xw f.d.toNat (cvtReg x (cvtRes x))) false :=
  raises_raiseC (if_neg hcls) fun _ => rfl

theorem cvtBody_lanes (hcls : f.cls = 4) (ho : oldClean f s f.fmt) (hsc : cvtScaled (cvtArg f 0) = false) :
    let res := fun i => opFcvt (cvtLane f s i)
    Raises 0x28 f s (cvtBody f) (laneFlags f s f.fmt res).1 (laneFlags f s f.fmt res).2
      (fun t => t.vw f.d.toNat (lanesOf f s f.fmt fun i => (res i).pat)) false :=
  raises_lanewise (long := false) ho ((if_pos hcls).trans (if_neg (ne_true_of_eq_false hsc)))

theorem cvtBody_block (hcls : f.cls = 4) (ho : oldClean f s f.fmt) (hsc : cvtScaled (cvtArg f 0) = true) :
    Raises 0x28 f s (cvtBody f) (foldRes (cvtBlockOf f s)).1 (foldRes (cvtBlockOf f s)).2 (fun t => t.vw f.d.toNat (cvtBlockLanes f s)) false := by
  have hbody := ((if_pos hcls).trans ((if_pos hsc).trans (readOld_clean ho)) : cvtBody f (cenv 0x28 f s) s = _)
  refine ⟨fun hu => hbody.trans ((raiseC_unmasked hu).trans ?_), fun hu => hbody.trans (raiseC_masked hu)⟩
  simp only [retV, Bool.false_eq_true, if_false, cenv_k, cenv_f, thr_own]
  exact congrArg (BRes.ok · false) (own_own _ _ _)

end

/-- The meaning of a `fcvt` of a block. -/
def cvtBodyG (f : GForm) (e : GEnv) (s : State) : GRes :=
  let x := cvtArgs f.fmt e.a.toNat (effRnd f.var) f.sgn f.sat f.imm.toNat
  let r := if cvtScaled x then (cvtBlock [x]).headD { pat := 0 } else opFcvt x
  raiseG e s r.fl (r.warn ||| fltWarnG 0x28 f) fun s => .send s (cvtReg x r)

theorem exec_fcvt_g (f : GForm) (s : State) : exec (.fcvt (.g f)) s = .next (runG 0x28 f s (cvtBodyG f)) := rfl

theorem cvtBodyG_raises (f : GForm) (s : State) (n : Inst) (a : Act) :
    let x := cvtArgs f.fmt (fireEnv f s n a).a.toNat (effRnd f.var) f.sgn f.sat f.imm.toNat
    RaisesG f s n a (cvtBodyG f) (cvtRes x).fl ((cvtRes x).warn ||| fltWarnG 0x28 f) (cvtReg x (cvtRes x)) := rfl

/-- Settles O6: one element, lanes, a scaled block, a token. -/
theorem convertResult : Obligations.ConvertResult := by
  refine ⟨fun f s h hcls hu => ?_, fun f s h hcls ho hsc hu => ?_, fun f s h hcls ho hsc hu => ?_, fun f s n a h hu => ?_⟩
  · exact congrArg Outcome.next ((cvtBody_register hcls).runC_completed h hu)
  · exact congrArg Outcome.next ((cvtBody_lanes hcls ho hsc).runC_completed h hu)
  · exact congrArg Outcome.next ((cvtBody_block hcls ho hsc).runC_completed h hu)
  · exact congrArg Outcome.next ((cvtBodyG_raises f s n a).runG_sent h hu)

end Sys2Proof.Proofs
end

section
/-!
PROOFS. The vector and mask opcodes (R172 to R177, R454), and the bundles and firings that an enabled flag stops (R41, R155).
-/
namespace Sys2Proof.Proofs
open Sys2Proof Sys2Proof.Machine Sys2Proof.Machine.State Sys2Proof.Claims
open Host (Outcome)

/-! ### Lane moves and selections (R172, R175) -/

theorem runC_moveLanes {opc : Nat} {long : Bool} {f : CForm} {s : State} {op : CEnv → State → Nat → Nat} {p : Nat → Nat} (h : Issues opc f s)
    (ho : oldClean f s f.fmt) (hp : op (cenv opc f s) s = p) :
    moveLanes opc long f s op = .next (completed opc f s (own s fun t => Claims.putV long f (lanesOf f s f.fmt p) t) long) := by
  refine congrArg Outcome.next (runC_ok h ?_)
  rw [readOld_clean ho, retV_own, mergeV_eq_lanesOf s rfl, hp]
  rfl

theorem laneMoves_exec : ∀ x ∈ laneMoves, ∀ (f : CForm) (s : State), exec (x.1 f) s = moveLanes x.2.1 x.2.2.1 f s fun e _ i => x.2.2.2 f e i := by
  simp only [laneMoves, List.forall_mem_cons, List.not_mem_nil, false_imp_iff, implies_true, and_true]
  exact ⟨fun _ _ => rfl, fun _ _ => rfl, fun _ _ => rfl, fun _ _ => rfl, fun _ _ => rfl, fun _ _ => rfl⟩

theorem laneMoveResult : LaneMoveResult := fun x hx f s h ho => (laneMoves_exec x hx f s).trans (runC_moveLanes h ho rfl)

theorem setThr_cur (s : State) (g : Thread → Thread) : s.setThr s.curThread (g (s.thr s.curThread)) = own s g := rfl

theorem laneSelectResult : LaneSelectResult := by
  refine ⟨fun f s h => ?_, fun f s h ho => ?_, fun f s h => ?_, fun f s h => ?_, fun f s h => ?_, fun f s h => ?_, fun f s h => ?_⟩
  · exact congrArg Outcome.next (runC_ok h rfl)
  · exact congrArg Outcome.next (runC_ok h ((readOld_clean ho).trans rfl))
  · exact congrArg Outcome.next (runC_ok h rfl)
  · exact congrArg Outcome.next (runC_ok h rfl)
  · exact congrArg Outcome.next (runC_ok h rfl)
  · exact congrArg Outcome.next (runC_ok h rfl)
  · exact congrArg Outcome.next (runC_ok h rfl)

/-- Settles O7: the moves share one meaning; the selections answer at once. -/
theorem laneOperationResult : Obligations.LaneOperationResult := ⟨laneMoveResult, laneSelectResult⟩

/-! ### Compares, reductions, scans, width changes, dot products: what each raises and writes -/

section
variable {f : CForm} {s : State}

def vcmpBody (f : CForm) (e : CEnv) (s : State) : BRes :=
  let k := f.fmt
  laneMaskRes e s k fun i =>
    if isIntFmt k then let r := opCmp (laneArgs e k i); (r.1, 0, r.2)
    else if isIeee k then let r := opFcmp (fArgsC f k (laneOf k e.va i) (laneOf k e.vb i) 0); (r.1, r.2, 0)
    else let r := condNum f.var (valueOf k (laneOf k e.va i)).1 (valueOf k (laneOf k e.vb i)).1; (r.1, r.2, 0)

theorem exec_vcmp (f : CForm) (s : State) : exec (.vcmp f) s = .next (runC 0x44 f s (vcmpBody f)) := rfl

theorem vcmpBody_lanes (f : CForm) (s : State) : vcmpBody f (cenv 0x44 f s) s = laneMaskRes (cenv 0x44 f s) s f.fmt (vcmpElem f s) := by
  refine congrArg (laneMaskRes (cenv 0x44 f s) s f.fmt) (funext fun i => ?_)
  unfold vcmpElem
  simp only
  repeat' split
  · rfl
  · rw [fltLane, opFcmp_ignores_c f _ _ _ 0]
  · rfl

theorem vcmpBody_raises : Raises 0x44 f s (vcmpBody f) (maskFlags f s f.fmt fun i => (vcmpElem f s i).2.1) (maskWarns f s f.fmt fun i => (vcmpElem f s i).2.2)
    (fun t => t.mw f.d.toNat (maskValue f s f.fmt fun i => (vcmpElem f s i).1)) false :=
  raises_laneMask (vcmpBody_lanes f s)

/-- The reduction of a `vred` bundle. -/
def vredPart (f : CForm) (s : State) : Part := (redTree f 6 (redInputs (cenv 0x42 f s) f.fmt)).headD (none, 0, 0)

def vredBody (f : CForm) (e : CEnv) (s : State) : BRes :=
  let k := f.fmt
  let r := (redTree f 6 (redInputs e k)).headD (none, 0, 0)
  raiseC e (addWarn s e.k r.2.2) r.2.1 fun s =>
    retFill e s (match r.1 with | some p => BitVec.ofNat 64 (extendTo 64 k p) | none => 0)

theorem exec_vred (f : CForm) (s : State) : exec (.vred f) s = .next (runC 0x42 f s (vredBody f)) := rfl

theorem vredBody_raises : Raises 0x42 f s (vredBody f) (vredPart f s).2.1 (vredPart f s).2.2
    (putX true f (match (vredPart f s).1 with | some p => BitVec.ofNat 64 (extendTo 64 f.fmt p) | none => 0)) true :=
  raises_raiseC rfl fun _ => rfl

/-- The scan of a `vscan` bundle. -/
def vscanParts (f : CForm) (s : State) : List (Option Nat) × Part :=
  scanGo (cenv 0x43 f s) f (redIdent f.fmt f.var f.sgn, 0, 0) (List.range (elems f.fmt))

def vscanBody (f : CForm) (e : CEnv) (s : State) : BRes :=
  let k := f.fmt
  let r := scanGo e f (redIdent k f.var f.sgn, 0, 0) (List.range (elems k))
  readOld e s k <| raiseC e (addWarn s e.k r.2.2.2) r.2.2.1 fun s => retV e s true (mergeV e s k fun i => (r.1.getD i none).getD 0)

theorem exec_vscan (f : CForm) (s : State) : exec (.vscan f) s = .next (runC 0x43 f s (vscanBody f)) := rfl

theorem vscanBody_raises (ho : oldClean f s f.fmt) : Raises 0x43 f s (vscanBody f) (vscanParts f s).2.2.1 (vscanParts f s).2.2.2
    (Claims.putV true f (lanesOf f s f.fmt fun i => ((vscanParts f s).1.getD i none).getD 0)) true := by
  have hbody := (readOld_clean ho : vscanBody f (cenv 0x43 f s) s = _)
  refine ⟨fun hu => hbody.trans ((raiseC_unmasked hu).trans ?_), fun hu => hbody.trans (raiseC_masked hu)⟩
  rw [retV_own, mergeV_eq_lanesOf _ (by simp [note])]
  exact congrArg (BRes.ok · true) (own_own _ _ _)

theorem crossWidth_raises {opc : Nat} (src : CEnv → Nat → Nat) (ho : oldClean f s f.fmt) :
    let res := fun i => widthElem f (src (cenv opc f s) i)
    Raises opc f s (fun e s => lanewise e s f.fmt false fun i => widthElem f (src e i)) (laneFlags f s f.fmt res).1 (laneFlags f s f.fmt res).2
      (fun t => t.vw f.d.toNat (lanesOf f s f.fmt fun i => (res i).pat)) false :=
  raises_lanewise (long := false) ho rfl

theorem exec_vnarrow (f : CForm) (s : State) : exec (.vnarrow f) s = .next (runC 0x4E f s fun e s => lanewise e s f.fmt false fun i => widthElem f
    (if i < 32 then elemOf (f.imm.toNat % 32) e.va i else elemOf (f.imm.toNat % 32) e.vb (i - 32))) := rfl

theorem exec_vwiden (f : CForm) (s : State) : exec (.vwiden f) s = .next (runC 0x4F f s fun e s => lanewise e s f.fmt false fun i => widthElem f
    (elemOf (f.imm.toNat % 32) e.va (i + (if f.imm.getLsbD 6 then 32 else 0)))) := rfl

def vdotBody (f : CForm) (e : CEnv) (s : State) : BRes :=
  let k := f.fmt
  let out := if isIntFmt k then (if f.sgn then 5 else 4) else 14
  lanewise e s out true fun i =>
    let r := dotLane k f.sgn (laneOf 4 e.va i) (laneOf 4 e.vb i)
    let c := laneOf 4 e.vc i
    if isIntFmt k then intResult out f.sat ((intVal out (!f.sgn) c).1 + r.2.2.2)
    else
      let cv := operand 14 f.sgn c
      let t := numAdd (effRnd f.var) cv r.1
      (roundBin 14 (effRnd f.var) false f.sgn t.1).raise (r.2.2.1 ||| t.2 ||| (if r.2.1 || cv.isSnan then flNV else 0))

theorem exec_vdot (f : CForm) (s : State) : exec (.vdot f) s = .next (runC 0x50 f s (vdotBody f)) := rfl

theorem vdotBody_raises (ho : oldClean f s (dotOut f)) : Raises 0x50 f s (vdotBody f) (laneFlags f s (dotOut f) (dotElem f s)).1
    (laneFlags f s (dotOut f) (dotElem f s)).2 (Claims.putV true f (lanesOf f s (dotOut f) fun i => (dotElem f s i).pat)) true :=
  raises_lanewise ho rfl

end

/-- Settles O8: no flag that these raise is enabled, so each writes. -/
theorem vectorArithmeticResult : Obligations.VectorArithmeticResult := by
  refine ⟨fun f s h hu => ?_, fun f s h hu => ?_, fun f s h ho hu => ?_, fun f s h ho hu => ?_, fun f s h ho hu => ?_, fun f s h ho hu => ?_⟩
  · exact ⟨_, maskOk_maskValue _ _ _ _, (exec_vcmp f s).trans (congrArg Outcome.next (vcmpBody_raises.runC_completed h hu))⟩
  · exact (exec_vred f s).trans (congrArg Outcome.next (vredBody_raises.runC_completed h hu))
  · exact (exec_vscan f s).trans (congrArg Outcome.next ((vscanBody_raises ho).runC_completed h hu))
  · exact (exec_vnarrow f s).trans (congrArg Outcome.next ((crossWidth_raises _ ho).runC_completed h hu))
  · exact (exec_vwiden f s).trans (congrArg Outcome.next ((crossWidth_raises _ ho).runC_completed h hu))
  · exact (exec_vdot f s).trans (congrArg Outcome.next ((vdotBody_raises ho).runC_completed h hu))

/-! ### Flags enabled as exceptions (R41, R155) -/

theorem fcmp_register_raised {f : CForm} {s : State} (h : Issues 0x26 f s) (hcls : f.cls ≠ 4) (hu : ¬ unmasked s (opFcmp (fltReg 0x26 f s)).2) :
    exec (.fcmp (.c f)) s = .next (raised 0x26 f s (opFcmp (fltReg 0x26 f s)).2 0) := by
  refine congrArg Outcome.next (runC_raised h ?_)
  rw [fltReg, opFcmp_ignores_c f _ _ _ _ 0] at hu ⊢
  simp only [hcls, if_false]
  exact raiseC_masked' hu

theorem fcmp_lanes_raised {f : CForm} {s : State} (h : Issues 0x26 f s) (hcls : f.cls = 4)
    (hu : ¬ unmasked s (maskFlags f s (fltFmt f.fmt) fun i => (fcmpLane f s (fltFmt f.fmt) i).2.1)) :
    exec (.fcmp (.c f)) s = .next (raised 0x26 f s (maskFlags f s (fltFmt f.fmt) fun i => (fcmpLane f s (fltFmt f.fmt) i).2.1) 0) := by
  refine congrArg Outcome.next (runC_raised h ?_)
  rw [if_pos hcls, fcmpLane_eq, laneMaskRes_masked hu, show (fun i => (fcmpLane f s (fltFmt f.fmt) i).2.2) = fun _ => 0 from rfl, maskWarns_zero]

theorem fcmp_token_raised {f : GForm} {s : State} {n : Inst} {a : Act} (h : Fires 0x26 f s n a)
    (hm : maskedG s a (opFcmp (fltTok f s n a)).2 (fltWarnG 0x26 f)) :
    exec (.fcmp (.g f)) s = .next (raisedG f s n a (opFcmp (fltTok f s n a)).2 (fltWarnG 0x26 f)) := by
  refine congrArg Outcome.next (runG_fault h ?_)
  rw [fltTok, opFcmp_ignores_c_tok f _ _ _ _ 0] at hm ⊢
  exact raiseG_masked hm

theorem floatBundleTraps : FloatBundleTraps := by
  refine ⟨fun x hx f s h hcls hu => ?_, fun x hx f s h hcls ho hu => ?_, fun f s h hcls hu => fcmp_register_raised h hcls hu,
    fun f s h hcls hu => fcmp_lanes_raised h hcls hu, fun f s h => ⟨fun hcls hu => ?_, fun hcls ho hu => ?_⟩⟩
  · rw [fltOps_exec x hx, fltForm_c]
    exact congrArg Outcome.next ((fltBody_register hcls).runC_raised h hu)
  · rw [fltOps_exec x hx, fltForm_c]
    exact congrArg Outcome.next ((fltBody_lanes hcls ho).runC_raised h hu)
  · exact congrArg Outcome.next ((cvtBody_register hcls).runC_raised h hu)
  · rw [exec_fcvt_c]
    by_cases hsc : cvtScaled (cvtArgs f.fmt 0 (effRnd f.var) f.sgn f.sat f.imm.toNat) = true
    · rw [if_pos hsc] at hu ⊢
      exact congrArg Outcome.next ((cvtBody_block hcls ho hsc).runC_raised h hu)
    · rw [if_neg hsc] at hu ⊢
      exact congrArg Outcome.next ((cvtBody_lanes hcls ho (eq_false_of_ne_true hsc)).runC_raised h hu)

theorem vectorFlagTraps : VectorFlagTraps := by
  refine fun f s => ⟨fun h hu => ?_, fun h hu => ?_, fun h ho hu => ?_, fun h ho hu => ?_, fun h ho hu => ?_, fun h ho hu => ?_⟩
  · exact (exec_vcmp f s).trans (congrArg Outcome.next (vcmpBody_raises.runC_raised h hu))
  · exact (exec_vred f s).trans (congrArg Outcome.next (vredBody_raises.runC_raised h hu))
  · exact (exec_vscan f s).trans (congrArg Outcome.next ((vscanBody_raises ho).runC_raised h hu))
  · exact (exec_vnarrow f s).trans (congrArg Outcome.next ((crossWidth_raises _ ho).runC_raised h hu))
  · exact (exec_vwiden f s).trans (congrArg Outcome.next ((crossWidth_raises _ ho).runC_raised h hu))
  · exact (exec_vdot f s).trans (congrArg Outcome.next ((vdotBody_raises ho).runC_raised h hu))

theorem floatFiringFaults : FloatFiringFaults := by
  refine fun f s n a => ⟨fun x hx h hm => ?_, fun h hm => fcmp_token_raised h hm, fun h hm => ?_⟩
  · rw [fltOps_exec x hx, fltForm_g]
    exact congrArg Outcome.next ((fltBodyG_raises f s n a).runG_raised h hm)
  · exact congrArg Outcome.next ((cvtBodyG_raises f s n a).runG_raised h hm)

/-- Settles O5: an enabled flag stops the bundle or the firing before it writes. -/
theorem floatExceptionTraps : Obligations.FloatExceptionTraps := ⟨floatBundleTraps, vectorFlagTraps, floatFiringFaults⟩

end Sys2Proof.Proofs
end

section
/-!
PROOFS. What a cold reset leaves, and the words of 64 bits (R135 to R137).
-/
namespace Sys2Proof.Proofs
open Sys2Proof Sys2Proof.Machine Sys2Proof.Machine.State Sys2Proof.Claims
open Host (Outcome)

/-- Settles O59: reset memory is empty. -/
theorem resetKeepsForm : Obligations.ResetKeepsForm := Memory.wf_nil

/-- Settles O58: the values of `State.reset`, the frame tables entry by entry. -/
theorem resetValues : Obligations.ResetValues := by
  refine ⟨rfl, rfl, rfl, rfl, rfl, by decide +kernel, fun n => rfl, fun q => ⟨rfl, rfl⟩, by decide +kernel, fun k => rfl, rfl⟩

end Sys2Proof.Proofs
end

section
/-!
PROOFS. What integer and float bundles leave unchanged (R94, R131, R136): their results raise no flag but those of Table 02-3, and a completed bundle changes its
thread's destination, flags, warnings, pc, `HOLD`, count and tickets alone.
-/
namespace Sys2Proof.Proofs
open Sys2Proof Sys2Proof.Machine Sys2Proof.Machine.State Sys2Proof.Claims
open Host (Outcome)

/-! ### Flags that results raise -/

/-- The flags lie within a mask. -/
def Within (m fl : BitVec 13) : Prop := fl &&& ~~~m = 0

@[simp] theorem within_or {m a b : BitVec 13} : Within m (a ||| b) ↔ Within m a ∧ Within m b := by
  unfold Within
  rw [BitVec.and_or_distrib_right]
  exact ⟨fun h => by
    refine ⟨?_, ?_⟩ <;> ext i hi <;> have := congrArg (fun v : BitVec 13 => v.getLsbD i) h <;> simp_all, fun ⟨ha, hb⟩ => by rw [ha, hb]; rfl⟩

@[simp] theorem within_zero (m : BitVec 13) : Within m 0#13 := BitVec.zero_and

/-- Only the IEEE flags, `TMIN` and `SATC`. -/
abbrev FltFlags (fl : BitVec 13) : Prop := Within 0x0FF#13 fl

@[simp] theorem fltFlags_NX : FltFlags flNX := by rfl
@[simp] theorem fltFlags_UF : FltFlags flUF := by rfl
@[simp] theorem fltFlags_OF : FltFlags flOF := by rfl
@[simp] theorem fltFlags_DZ : FltFlags flDZ := by rfl
@[simp] theorem fltFlags_NV : FltFlags flNV := by rfl
@[simp] theorem fltFlags_SATC : FltFlags flSATC := by rfl

theorem numAdd_flags (rm : Nat) (a b : Machine.Num) : FltFlags (numAdd rm a b).2 := by
  unfold numAdd
  repeat' split
  all_goals dsimp only
  all_goals repeat' split
  all_goals simp

theorem numMul_flags (a b : Machine.Num) : FltFlags (numMul a b).2 := by
  unfold numMul
  repeat' split
  all_goals simp

theorem numDiv_flags (a b : Machine.Num) : FltFlags (numDiv a b).2 := by
  unfold numDiv
  repeat' split
  all_goals simp

theorem numSqrt_flags (a : Machine.Num) : FltFlags (numSqrt a).2 := by
  unfold numSqrt
  repeat' split
  all_goals simp

theorem roundBin_flags (k rm : Nat) (sat ftz : Bool) (x : Machine.Num) : FltFlags (roundBin k rm sat ftz x).fl := by
  unfold roundBin
  dsimp only
  repeat' split
  all_goals dsimp only
  all_goals repeat' split
  all_goals simp

theorem raise_flags {r : Res} {fl : BitVec 13} (hr : FltFlags r.fl) (h : FltFlags fl) : FltFlags (r.raise fl).fl := within_or.2 ⟨hr, h⟩

theorem snan_flags (b : Bool) : FltFlags (if b then flNV else 0) := by cases b <;> simp

theorem fin_flags (x : FArgs) (v : Machine.Num) {fl : BitVec 13} (snan : Bool) (h : FltFlags fl) : FltFlags (x.fin v fl snan).fl :=
  raise_flags (roundBin_flags _ _ _ _ _) (within_or.2 ⟨h, snan_flags snan⟩)

theorem opFrnd_flags (x : FArgs) : FltFlags (opFrnd x).fl := by
  unfold opFrnd
  split
  · exact fin_flags _ _ _ (within_zero _)
  · dsimp only
    split
    · exact fin_flags _ _ _ (within_zero _)
    · exact fin_flags _ _ _ (by split <;> simp)
  · exact fin_flags _ _ _ (within_zero _)

theorem specialExact_flags {opc : Nat} {x : Machine.Num} {r : Machine.Num × BitVec 13} (h : specialExact opc x = some r) : FltFlags r.2 := by
  unfold specialExact at h
  split at h
  case h_4 =>
    dsimp only at h
    repeat' split at h
    all_goals cases h
    all_goals simp [numDiv_flags]
  all_goals
    cases h
    repeat' split
    all_goals simp

theorem opSpecial_flags (opc : Nat) (x : FArgs) : FltFlags (opSpecial opc x).fl := by
  have hr : ∀ v : Machine.Num, FltFlags ((roundBin x.k x.rm false x.ftz v).raise flNX).fl := fun v => raise_flags (roundBin_flags _ _ _ _ _) fltFlags_NX
  unfold opSpecial
  split
  · next h => exact raise_flags (roundBin_flags _ _ _ _ _) (specialExact_flags h)
  · split
    · dsimp only
      split
      · exact hr _
      · split
        · exact within_or.2 ⟨hr _, fltFlags_UF⟩
        · exact hr _
    · exact within_zero _

theorem fltOps_flags : ∀ x ∈ fltOps, ∀ y : FArgs, FltFlags (x.2.2.2 y).fl := by
  simp only [fltOps, List.forall_mem_cons, List.not_mem_nil, false_imp_iff, implies_true, and_true]
  exact ⟨fun _ => fin_flags _ _ _ (numAdd_flags _ _ _), fun _ => fin_flags _ _ _ (numAdd_flags _ _ _), fun _ => fin_flags _ _ _ (numMul_flags _ _),
    fun _ => fin_flags _ _ _ (within_or.2 ⟨numMul_flags _ _, numAdd_flags _ _ _⟩), fun _ => fin_flags _ _ _ (within_zero _), fun _ => fin_flags _ _ _ (within_zero _),
    fun _ => within_zero _, fun _ => within_zero _, opFrnd_flags, fun _ => fin_flags _ _ _ (numDiv_flags _ _), fun _ => fin_flags _ _ _ (numSqrt_flags _),
    opSpecial_flags _, opSpecial_flags _, opSpecial_flags _, opSpecial_flags _, opSpecial_flags _, opSpecial_flags _, opSpecial_flags _, opSpecial_flags _,
    opSpecial_flags _, opSpecial_flags _⟩

theorem NoException.within {r : Res} (h : NoException r) : Within 0x080 r.fl := by
  rcases h with h | h <;> rw [h] <;> rfl

theorem foldRes_within {m : BitVec 13} (l : List Res) (h : ∀ r ∈ l, Within m r.fl) : Within m (foldRes l).1 := by
  unfold foldRes
  suffices ∀ a : BitVec 13 × BitVec 16, Within m a.1 → Within m (l.foldl (fun a r => (a.1 ||| r.fl, a.2 ||| r.warn)) a).1 from this _ (within_zero m)
  induction l with
  | nil => exact fun a ha => ha
  | cons r l ih => exact fun a ha => ih (fun r hr => h r (List.mem_cons_of_mem _ hr)) _ (within_or.2 ⟨ha, h r List.mem_cons_self⟩)

theorem laneFlags_within {m : BitVec 13} {f : CForm} {s : State} {k : Nat} {op : Nat → Res} (h : ∀ i, Within m (op i).fl) : Within m (laneFlags f s k op).1 := by
  refine foldRes_within _ fun r hr => ?_
  obtain ⟨i, -, rfl⟩ := List.mem_map.1 hr
  split
  · exact h i
  · exact within_zero m

/-! ### The frame of a completed bundle -/

/-- A change of a thread that writes at most the registers `x`, `v`, and flags within `fl`, and nothing that an access or a trap keeps. -/
structure WritesOnly (t u : Thread) (dx dv : Nat) (fl : BitVec 13) : Prop where
  xs : ∀ n, n ≠ dx → u.xr n = t.xr n
  vs : ∀ n, n ≠ dv → u.vr n = t.vr n
  preds : u.p = t.p ∧ u.m = t.m
  flags : u.fstat &&& ~~~fl = t.fstat &&& ~~~fl
  special : u.tepc = t.tepc ∧ u.tcause = t.tcause ∧ u.taddr = t.taddr ∧ u.tinfo = t.tinfo ∧ u.tvec = t.tvec ∧ u.tframe = t.tframe ∧ u.tsave = t.tsave ∧
    u.inh = t.inh ∧ u.cmconf = t.cmconf ∧ u.deferred = t.deferred ∧ u.stores = t.stores ∧ u.wait = t.wait ∧ u.held = t.held ∧ u.owed = t.owed

theorem note_flags {t : Thread} {m fl : BitVec 13} {w : BitVec 16} (h : Within m fl) : (note t fl w).fstat &&& ~~~m = t.fstat &&& ~~~m := by
  show (t.fstat ||| fl) &&& ~~~m = _
  rw [BitVec.and_or_distrib_right, h]
  exact BitVec.or_zero

section
variable {t : Thread} {m fl : BitVec 13} {w : BitVec 16} (h : Within m fl)
include h

theorem writesOnly_xw (d : Nat) (v : Word) : WritesOnly t ((note t fl w).xw d v) d 32 m where
  xs n hn := Thread.xr_xw_ne _ _ _ _ hn
  vs n _ := Thread.vr_xw _ _ _ _
  preds := by simp [note]
  flags := by rw [Thread.xw_fstat]; exact note_flags h
  special := by simp [note]

theorem writesOnly_vw (d : Nat) (v : Vec) : WritesOnly t ((note t fl w).vw d v) 64 d m where
  xs n _ := Thread.xr_vw _ _ _ _
  vs n hn := Thread.vr_vw_ne _ _ _ _ hn
  preds := by simp [note]
  flags := by rw [Thread.vw_fstat]; exact note_flags h
  special := by simp [note]

theorem writesOnly_await (x : Fill) (dx dv : Nat) : WritesOnly t ((note t fl w).await x) dx dv m where
  xs n _ := Thread.xr_await _ _ _
  vs n _ := by simp [Thread.vr, note]
  preds := by simp [note]
  flags := by rw [Thread.await_fstat]; exact note_flags h
  special := by simp [note]

theorem writesOnly_putX (long : Bool) (f : CForm) (v : Word) : WritesOnly t (putX long f v (note t fl w)) f.d.toNat 32 m := by
  cases long
  · exact writesOnly_xw h _ _
  · exact writesOnly_await h _ _ _

theorem writesOnly_putV (long : Bool) (f : CForm) (v : Vec) : WritesOnly t (Claims.putV long f v (note t fl w)) 64 f.d.toNat m := by
  cases long
  · exact writesOnly_vw h _ _
  · exact writesOnly_await h _ _ _

end

theorem thr_completed_ne (opc : Nat) (f : CForm) (s : State) (g : Thread → Thread) (late : Bool) {j : Nat} (hj : j ≠ s.curThread) :
    (completed opc f s (own s g) late).thr j = s.thr j := by
  rw [completed, finished, thr_modThr_ne _ _ _ _ hj, own, thr_modThr_ne _ _ _ _ hj]

theorem onlyRegister_completed {opc : Nat} {f : CForm} {s t : State} {g : Thread → Thread} {late : Bool} {dx dv : Nat} {fl : BitVec 13}
    (hw : WritesOnly s.cur (g s.cur) dx dv fl) (ht : t = completed opc f s (own s g) late) : OnlyRegister s t dx dv fl := by
  obtain ⟨hx, hv, hp, hf, hs⟩ := hw
  obtain ⟨tk, hcur⟩ : ∃ tk, t.cur = { g s.cur with
      warn := (g s.cur).warn ||| decodeWarn opc f, hold := f.hold.toNat, issued := (g s.cur).issued + 1, pc := s.curPc + 16, tickets := tk } := by
    subst ht
    exact ⟨_, (thr_modThr _ _ _).trans (by rw [thr_own])⟩
  refine ⟨by rw [ht]; rfl, fun j hj => by rw [ht]; exact thr_completed_ne opc f s g late hj, fun n hn => ?_, fun n hn => ?_, ?_, ?_, ?_⟩
  · rw [hcur]; exact hx n hn
  · rw [hcur]; exact hv n hn
  · rw [hcur]; exact hp
  · rw [hcur]; exact hf
  · rw [hcur]; exact hs

/-- Settles O53: the next states of `IntegerResult` and `FloatResult`, field by field. -/
theorem computeFrame : Obligations.ComputeFrame := by
  obtain ⟨hir, hil, -⟩ := integerResult
  obtain ⟨hfr, hfl, -⟩ := floatResult
  refine ⟨fun x hx f s t h ho ht => ?_, fun x hx f s t h hcls hu ht => ?_, fun x hx f s t h hcls ho hu ht => ?_⟩
  · have hop := intOps_noException x hx
    by_cases hcls : f.cls = 4
    · rw [if_pos hcls, if_pos hcls]
      rw [hil x hx f s h hcls (ho hcls), Outcome.next.injEq] at ht
      exact onlyRegister_completed (writesOnly_vw (laneFlags_within fun i => (hop _).within) _ _) ht.symm
    · rw [if_neg hcls, if_neg hcls]
      rw [hir x hx f s h hcls, Outcome.next.injEq] at ht
      exact onlyRegister_completed (writesOnly_xw (hop _).within _ _) ht.symm
  · rw [hfr x hx f s h hcls hu, Outcome.next.injEq] at ht
    exact onlyRegister_completed (writesOnly_putX (fltOps_flags x hx _) _ _ _) ht.symm
  · rw [hfl x hx f s h hcls ho hu, Outcome.next.injEq] at ht
    exact onlyRegister_completed (writesOnly_putV (laneFlags_within fun i => fltOps_flags x hx _) _ _ _) ht.symm

end Sys2Proof.Proofs
end

section
/-!
PROOFS. The 64-bit integer opcodes are arithmetic of 64-bit words (R135 to R137): a pattern of i64 is the word itself, and a result without saturation is the
value modulo 2^64.
-/
namespace Sys2Proof.Proofs
open Sys2Proof Sys2Proof.Machine Sys2Proof.Machine.State Sys2Proof.Claims
open Host (Outcome)

/-! ### Words and their values -/

theorem intReg_i64 (r : Res) : intReg 6 r = BitVec.ofNat 64 r.pat := by
  rw [intReg_eq_regOf]
  exact BitVec.signExtend_eq _

theorem intResult_i64 (t : Int) : intResult 6 false t = { pat := (BitVec.ofInt 64 t).toNat } := by
  rw [intResult_wraps (by decide), lowBits_eq_toNat_ofInt]
  rfl

theorem readInt_i64_signed (v : Word) : readInt 64 true v = v.toInt := by simp [readInt]
theorem readInt_i64_unsigned (v : Word) : readInt 64 false v = v.toNat := by simp [readInt, Nat.mod_eq_of_lt v.isLt]

theorem pattern_i64 (v : Word) : v.toNat % 2 ^ fmtBits 6 = v.toNat := Nat.mod_eq_of_lt v.isLt

/-- A result of two words, as a word. -/
def ofWord (v : Word) : Res := { pat := v.toNat }

@[simp] theorem ofWord_fl (v : Word) : (ofWord v).fl = 0 := rfl
@[simp] theorem intReg_ofWord (v : Word) : intReg 6 (ofWord v) = v := by simp [intReg_i64, ofWord]

section
variable (a b c : Word) (var : Nat) (sgn : Bool)

/-- Arguments of a 64-bit opcode without saturation. -/
def wordArgs : IArgs := { k := 6, a := a, b := b, c := c, var := var, sgn := sgn, sat := false }

theorem val2_i64 (signed : Bool) (g : Int → Int → Int) :
    (wordArgs a b c var sgn).val2 signed g = ofWord (BitVec.ofInt 64 (g (readInt 64 signed a) (readInt 64 signed b))) := by
  simp only [IArgs.val2, wordArgs, intVal_eq_readInt (show 6 ≤ 9 by decide), intResult_i64, ofWord]
  rfl

theorem count_i64 : (wordArgs a b c var sgn).count = b.toNat % 64 := by
  simp only [IArgs.count, IArgs.pb, wordArgs, pattern_i64]
  rfl

/-! ### Sums and products -/

theorem opAdd_i64 : opAdd (wordArgs a b c var sgn) = ofWord (a + b) := by
  refine (val2_i64 a b c var sgn true (· + ·)).trans (congrArg ofWord ?_)
  simp only [readInt_i64_signed, BitVec.ofInt_add, BitVec.ofInt_toInt]

theorem opSub_i64 : opSub (wordArgs a b c var sgn) = ofWord (a - b) := by
  refine (val2_i64 a b c var sgn true (· - ·)).trans (congrArg ofWord ?_)
  simp only [readInt_i64_signed, Int.sub_eq_add_neg, BitVec.ofInt_add, BitVec.ofInt_neg, BitVec.ofInt_toInt, BitVec.sub_eq_add_neg]

theorem opMul_i64 : opMul (wordArgs a b c var sgn) = ofWord (a * b) := by
  refine (val2_i64 a b c var sgn true (· * ·)).trans (congrArg ofWord ?_)
  simp only [readInt_i64_signed, BitVec.ofInt_mul, BitVec.ofInt_toInt]

theorem opMadd_i64 : opMadd (wordArgs a b c var sgn) = ofWord (a * b + c) := by
  have h := val2_i64 a b c var sgn true fun p q => p * q + readInt 64 true c
  simp only [readInt_i64_signed, BitVec.ofInt_add, BitVec.ofInt_mul, BitVec.ofInt_toInt] at h
  unfold opMadd
  simp only [show (wordArgs a b c var sgn).k = 6 from rfl, show (wordArgs a b c var sgn).c = c from rfl, show ownKind 6 = true from rfl,
    intVal_eq_readInt (show 6 ≤ 9 by decide), show fmtBits 6 = 64 from rfl, readInt_i64_signed, h]
  simp [ofWord]

theorem opAbs_i64 : opAbs (wordArgs a b c var sgn) = ofWord a.abs := by
  have h : BitVec.ofInt 64 (a.toInt.natAbs : Int) = a.abs := by
    rw [BitVec.ofInt_natCast, BitVec.abs_eq]
    rcases Int.lt_or_le a.toInt 0 with hlt | hge
    · rw [if_pos (by rwa [BitVec.msb_eq_toInt, decide_eq_true_eq])]
      apply BitVec.eq_of_toInt_eq
      rw [← BitVec.ofInt_natCast, Int.ofNat_natAbs_of_nonpos (by omega), BitVec.ofInt_neg, BitVec.ofInt_toInt]
    · rw [if_neg (by rw [BitVec.msb_eq_toInt, decide_eq_true_eq]; omega), ← BitVec.ofInt_natCast, Int.natAbs_of_nonneg hge, BitVec.ofInt_toInt]
  unfold opAbs IArgs.val1
  simp only [show (wordArgs a b c var sgn).k = 6 from rfl, show (wordArgs a b c var sgn).sat = false from rfl, show ownKind 6 = true from rfl,
    show (wordArgs a b c var sgn).a = a from rfl, intVal_eq_readInt (show 6 ≤ 9 by decide), show fmtBits 6 = 64 from rfl, readInt_i64_signed,
    intResult_i64, h]
  rfl

/-! ### Bit patterns -/

theorem pa_i64 : (wordArgs a b c var sgn).pa = a.toNat := pattern_i64 a
theorem pb_i64 : (wordArgs a b c var sgn).pb = b.toNat := pattern_i64 b

theorem opAnd_i64 : opAnd (wordArgs a b c var sgn) = ofWord (a &&& b) := by simp [opAnd, pa_i64, pb_i64, ofWord]
theorem opOr_i64 : opOr (wordArgs a b c var sgn) = ofWord (a ||| b) := by simp [opOr, pa_i64, pb_i64, ofWord]
theorem opXor_i64 : opXor (wordArgs a b c var sgn) = ofWord (a ^^^ b) := by simp [opXor, pa_i64, pb_i64, ofWord]
theorem opMov_i64 : opMov (wordArgs a b c var sgn) = ofWord a := by simp [opMov, pa_i64, ofWord]

theorem opAndn_i64 : opAndn (wordArgs a b c var sgn) = ofWord (a &&& ~~~b) := by
  exact congrArg (fun p => ({ pat := p } : Res)) (pattern_i64 (a &&& ~~~b))

theorem opShl_i64 : opShl (wordArgs a b c var sgn) = ofWord (a <<< (b.toNat % 64)) := by
  simp only [opShl, pa_i64, count_i64, ofWord, BitVec.toNat_shiftLeft, Nat.shiftLeft_eq]
  rfl

theorem opShr_i64 : opShr (wordArgs a b c var sgn) = ofWord (if sgn then a.sshiftRight (b.toNat % 64) else a >>> (b.toNat % 64)) := by
  simp only [opShr, pa_i64, count_i64, show (wordArgs a b c var sgn).sgn = sgn from rfl, show fmtBits (wordArgs a b c var sgn).k = 64 from rfl, ofWord]
  cases sgn
  · simp [Nat.shiftRight_eq_div_pow]
  · simp [sextInt_eq_toInt, lowBits_eq_toNat_ofInt, BitVec.sshiftRight_eq, Int.shiftRight_eq_div_pow]

theorem opRot_i64 : opRot (wordArgs a b c var sgn) = ofWord (a.rotateLeft (b.toNat % 64)) := by
  have hlow : a.toNat >>> (64 - b.toNat % 64) < 2 ^ (b.toNat % 64) := by
    rw [Nat.shiftRight_eq_div_pow, Nat.div_lt_iff_lt_mul (Nat.two_pow_pos _), ← Nat.pow_add]
    exact Nat.lt_of_lt_of_le a.isLt (Nat.pow_le_pow_right (by decide) (by omega))
  simp only [opRot, pa_i64, count_i64, ofWord, show fmtBits (wordArgs a b c var sgn).k = 64 from rfl, BitVec.toNat_rotateLeft, Nat.mod_mod]
  rw [← Nat.shiftLeft_eq, ← Nat.shiftRight_eq_div_pow, Nat.shiftLeft_add_eq_or_of_lt hlow, Nat.or_mod_two_pow,
    Nat.mod_eq_of_lt (Nat.lt_of_le_of_lt (Nat.shiftRight_le ..) a.isLt)]

/-! ### Minima and maxima -/

theorem ofInt_readInt (signed : Bool) (v : Word) : BitVec.ofInt 64 (readInt 64 signed v) = v := by
  cases signed
  · simp [readInt_i64_unsigned]
  · simp [readInt_i64_signed]

/-- The order of values is that of words, unsigned under `SGN`. -/
theorem readInt_lt : readInt 64 (!sgn) a < readInt 64 (!sgn) b ↔ (if sgn then a.ult b else a.slt b) = true := by
  cases sgn
  · simp [readInt_i64_signed, BitVec.slt_iff_toInt_lt]
  · simp [readInt_i64_unsigned, BitVec.ult_iff_lt, BitVec.lt_def]

theorem opMin_i64 : opMin (wordArgs a b c var sgn) = ofWord (if (if sgn then a.ult b else a.slt b) then a else b) := by
  refine (val2_i64 a b c var sgn (!sgn) min).trans (congrArg ofWord ?_)
  simp only [← readInt_lt a b sgn]
  split
  case isTrue h => rw [Int.min_eq_left (Int.le_of_lt h), ofInt_readInt]
  case isFalse h => rw [Int.min_eq_right (Int.not_lt.mp h), ofInt_readInt]

theorem opMax_i64 : opMax (wordArgs a b c var sgn) = ofWord (if (if sgn then a.ult b else a.slt b) then b else a) := by
  refine (val2_i64 a b c var sgn (!sgn) max).trans (congrArg ofWord ?_)
  simp only [← readInt_lt a b sgn]
  split
  case isTrue h => rw [Int.max_eq_right (Int.le_of_lt h), ofInt_readInt]
  case isFalse h => rw [Int.max_eq_left (Int.not_lt.mp h), ofInt_readInt]

/-! ### Counts and the reversal of bits -/

/-- Bits set one after another: bit `i` of the sum is the `i`-th. -/
theorem testBit_foldl_range (q : Nat → Bool) (n i : Nat) :
    let r := (List.range n).foldl (fun acc i => if q i then acc + 2 ^ i else acc) 0
    r < 2 ^ n ∧ r.testBit i = (decide (i < n) && q i) := by
  induction n with
  | zero => simp
  | succ n ih =>
    obtain ⟨hlt, hbit⟩ := ih
    simp only [List.range_succ, List.foldl_append, List.foldl_cons, List.foldl_nil]
    generalize (List.range n).foldl (fun acc i => if q i then acc + 2 ^ i else acc) 0 = r at hlt hbit ⊢
    have hor : r + 2 ^ n = 2 ^ n ||| r := by simpa [Nat.add_comm] using Nat.two_pow_add_eq_or_of_lt hlt 1
    have hpow : 2 ^ n < 2 ^ (n + 1) := Nat.pow_lt_pow_right (by decide) (Nat.lt_succ_self n)
    by_cases hq : q n = true
    · simp only [hq, if_true, hor, Nat.testBit_or, Nat.testBit_two_pow, hbit]
      refine ⟨Nat.or_lt_two_pow hpow (Nat.lt_trans hlt hpow), ?_⟩
      rcases Nat.lt_trichotomy i n with h | h | h <;> grind
    · simp only [hq]
      refine ⟨Nat.lt_trans hlt hpow, ?_⟩
      rcases Nat.lt_trichotomy i n with h | h | h <;> grind

theorem getLsbD_opBrev_i64 {i : Nat} (hi : i < 64) : (intReg 6 (opBrev (wordArgs a b c var sgn))).getLsbD i = a.getLsbD (63 - i) := by
  have h := (testBit_foldl_range (fun i => a.toNat.testBit (64 - 1 - i)) 64 i).2
  simp only [intReg_i64, opBrev, revBits, pa_i64, show fmtBits (wordArgs a b c var sgn).k = 64 from rfl, BitVec.getLsbD_ofNat, h, hi, decide_true,
    Bool.true_and]
  rfl

theorem leadZeros_of_top {n i p : Nat} (hi : i < n) (htop : p.testBit i = true) (hzero : ∀ j, i < j → p.testBit j = false) :
    leadZeros n p = n - 1 - i := by
  induction n with
  | zero => omega
  | succ n ih =>
    rcases Nat.lt_or_ge i n with h | h
    · rw [leadZeros, hzero n h, ih h]
      simp only [Bool.false_eq_true, if_false]
      omega
    · have : i = n := by omega
      simp [leadZeros, ← this, htop]

theorem leadZeros_zero (n : Nat) : leadZeros n 0 = n := by
  induction n with
  | zero => rfl
  | succ n ih => simp [leadZeros, ih, Nat.add_comm]

theorem onesOf_zero (n : Nat) : onesOf n 0 = 0 := by
  induction n with
  | zero => rfl
  | succ n ih => simp [onesOf, ih]

theorem opClz_i64 : opClz (wordArgs a b c var sgn) = ofWord (BitVec.ofNat 64 (leadZeros 64 a.toNat)) := by
  simp only [opClz, pa_i64, show (wordArgs a b c var sgn).k = 6 from rfl, show (wordArgs a b c var sgn).sat = false from rfl,
    show fmtBits 6 = 64 from rfl, intResult_i64, BitVec.ofInt_natCast, ofWord]

theorem opPopc_i64 : opPopc (wordArgs a b c var sgn) = ofWord (BitVec.ofNat 64 (onesOf 64 a.toNat)) := by
  simp only [opPopc, pa_i64, show (wordArgs a b c var sgn).k = 6 from rfl, show (wordArgs a b c var sgn).sat = false from rfl,
    show fmtBits 6 = 64 from rfl, intResult_i64, BitVec.ofInt_natCast, ofWord]

theorem opBrev_fl (x : IArgs) : (opBrev x).fl = 0 := rfl

end

/-- Settles O52: each opcode's result is a word, by the lemma of its name. -/
theorem wordArithmetic : Obligations.WordArithmetic := by
  unfold Obligations.WordArithmetic
  rintro ⟨k, a, b, c, var, sgn, sat⟩ hk hs
  obtain rfl : k = 6 := hk
  obtain rfl : sat = false := hs
  have hx : ({ k := 6, a := a, b := b, c := c, var := var, sgn := sgn, sat := false } : IArgs) = wordArgs a b c var sgn := rfl
  simp only [hx, opAdd_i64, opSub_i64, opMul_i64, opMadd_i64, opAnd_i64, opOr_i64, opXor_i64, opAndn_i64, opShl_i64, opShr_i64, opRot_i64, opMin_i64,
    opMax_i64, opMov_i64, opAbs_i64, opClz_i64, opPopc_i64, intReg_ofWord, List.forall_mem_cons, ofWord_fl, opBrev_fl, List.not_mem_nil, false_implies,
    implies_true, true_and, and_true]
  refine ⟨fun i hi => getLsbD_opBrev_i64 a b c var sgn hi, fun i hi htop hzero => ?_, fun h0 => ?_⟩
  · exact congrArg (BitVec.ofNat 64) (leadZeros_of_top hi htop hzero)
  · subst h0
    exact ⟨congrArg (BitVec.ofNat 64) (leadZeros_zero 64), congrArg (BitVec.ofNat 64) (onesOf_zero 64)⟩

end Sys2Proof.Proofs
end

section
/-!
PROOFS. A step runs the instruction that its bytes decode to (R90, R364, R189): each kind of move in turn.
-/
namespace Sys2Proof.Proofs
open Sys2Proof Sys2Proof.Machine Sys2Proof.Machine.State Sys2Proof.Claims
open Host (Outcome)

/-- With power, or for a cold reset, a step is the turn of the next move. -/
theorem step_of_move {s : State} {m : Move} (hp : s.dev.powered = true ∨ m = .event .coldReset) (hm : (moveOf s).1 = m) :
    step s = (match turn (moveOf s).2 m with
      | .done s => .next s
      | .run i s => exec i s) := by
  subst hm
  have hp' : (!s.dev.powered && decide ((takeMove (passTime s)).1 ≠ .event .coldReset)) = false := by
    rcases hp with hp | hp
    · simp [hp]
    · simp only [show (takeMove (passTime s)).1 = .event .coldReset from hp, ne_eq, not_true, decide_false, Bool.and_false]
  show (if (!s.dev.powered && decide ((takeMove (passTime s)).1 ≠ .event .coldReset)) = true then _ else _) = _
  rw [hp']
  rfl

/-- A turn begins in the state in which its agent moves. -/
theorem moving_of_move {s : State} {m : Move} (hm : (moveOf s).1 = m) : { (moveOf s).2 with mover := m.mover } = moving s := by
  subst hm; rfl

/-- A move that leaves a state, and one that runs an instruction. -/
theorem step_done {s t : State} {m : Move} (hp : s.dev.powered = true ∨ m = .event .coldReset) (hm : (moveOf s).1 = m)
    (ht : turn (moveOf s).2 m = .done t) : step s = .next t := by rw [step_of_move hp hm, ht]
theorem step_run {s t : State} {m : Move} {i : Instr} (hp : s.dev.powered = true ∨ m = .event .coldReset) (hm : (moveOf s).1 = m)
    (ht : turn (moveOf s).2 m = .run i t) : step s = exec i t := by rw [step_of_move hp hm, ht]

/-- A line that the instruction cache does not serve is read from its home. -/
theorem codeBytes_home {s : State} {tile p : Nat} (n : Nat) (h : icacheLine s tile p = none) : (codeBytes s tile p n).2 = readHome s p n := by
  unfold codeBytes
  dsimp only
  split
  · rfl
  · rw [h]

/-- A fetch whose place is reached gives the word that stands there: decoded, or the cause of its rejection. -/
theorem fetchC_word {u s1 : State} {tile ctx p : Nat} {pc leaf : Word} (hw : windowOf pc.toNat = some .w0)
    (htr : translateLeaf u tile ctx pc .exC = (s1, .ok (leaf, p))) (hf : fetchWaits s1 tile p = false)
    (hc : icacheLine s1 tile p = none → errReply s1 p = false ∧ poisoned s1 p 16 = false) :
    let c := codeBytes s1 tile p 16
    let w := BitVec.ofNat 128 (leNat c.2)
    (∀ i, decodeC w = .ok i → fetchC u tile ctx pc = (c.1, .instr i)) ∧ ∀ e, decodeC w = .error e → fetchC u tile ctx pc = (c.1, decTrap e w) := by
  have hclean : (errReply s1 p && (icacheLine s1 tile p).isNone) = false ∧ (poisoned s1 p 16 && (icacheLine s1 tile p).isNone) = false := by
    cases hi : icacheLine s1 tile p with
    | none => simp [hc hi]
    | some d => simp
  obtain ⟨herr, hpois⟩ := hclean
  unfold fetchC
  simp only [hw, htr, hf, herr, hpois, Bool.false_eq_true, if_false]
  exact ⟨fun i hi => by rw [hi], fun e he => by rw [he]⟩

/-- A running thread whose turn is free for a bundle runs the one that it fetches, or takes its trap. -/
theorem threadTurn_fetches {s s2 : State} {k : Nat} {r : Fetched} (hmay : mayTurn (toSlot s k) k = true) (hwait : ((toSlot s k).thr k).hwait = .none)
    (hdue : dueNow ((toSlot s k).thr k) = none) (hw : ((toSlot s k).thr k).wait = .none) (hh : ((toSlot s k).thr k).hold = 0)
    (hf : fetchC (toSlot s k) (tileOf k) ((toSlot s k).thr k).ctx ((toSlot s k).thr k).pc = (s2, r)) :
    (∀ i, r = .instr i → threadTurn s k = .run i { chargeWork s2 ((toSlot s k).thr k).ctx ((toSlot s k).thr k).allot with curThread := k }) ∧
    ∀ c a i, r = .trap c a i → threadTurn s k = .done (takeFetchTrap s2 k c a i) := by
  have hn : handlerWait (toSlot s k) k = toSlot s k := by unfold handlerWait; rw [hwait]
  unfold threadTurn
  simp only [hmay, hn, if_true, hdue, hw, hh, hf]
  simp only [Bool.not_true, Bool.false_eq_true, ne_eq, not_true_eq_false, Nat.lt_irrefl, if_false]
  exact ⟨fun i hr => by rw [hr], fun c a i hr => by rw [hr]⟩

/-- A thread's step, as the fetch at its pc has it. -/
theorem step_thread {s s1 : State} {k p : Nat} {leaf : Word} (hp : s.dev.powered = true) (hm : (moveOf s).1 = .thread k)
    (hrun : ((toSlot (moving s) k).thr k).running = true) (hrole : ((toSlot (moving s) k).thr k).role ≠ .firmware)
    (hres : residentOk (toSlot (moving s) k) k = true) (hon : runsOn (toSlot (moving s) k) (tileOf k) ((toSlot (moving s) k).thr k).ctx = true)
    (hhw : ((toSlot (moving s) k).thr k).hwait = .none) (hdue : dueNow ((toSlot (moving s) k).thr k) = none)
    (hw : ((toSlot (moving s) k).thr k).wait = .none) (hh : ((toSlot (moving s) k).thr k).hold = 0)
    (hwin : windowOf ((toSlot (moving s) k).thr k).pc.toNat = some .w0)
    (htr : translateLeaf (toSlot (moving s) k) (tileOf k) ((toSlot (moving s) k).thr k).ctx ((toSlot (moving s) k).thr k).pc .exC = (s1, .ok (leaf, p)))
    (hf : fetchWaits s1 (tileOf k) p = false)
    (hc : icacheLine s1 (tileOf k) p = none → errReply s1 p = false ∧ poisoned s1 p 16 = false) :
    let t := (toSlot (moving s) k).thr k
    let c := codeBytes s1 (tileOf k) p 16
    let w := BitVec.ofNat 128 (leNat c.2)
    (∀ i, decodeC w = .ok i → step s = exec i { chargeWork c.1 t.ctx t.allot with curThread := k }) ∧
    (∀ e, decodeC w = .error e → step s = .next (takeFetchTrap c.1 k
      (match e with | .illegalCls => cILLEGAL_CLS | .poolExec => cPOOL_EXEC | _ => cILLEGAL_OPC) 0
      (if e = .poolExec then 0 else w.setWidth 64 &&& 0xFFF))) := by
  have hmay : mayTurn (toSlot (moving s) k) k = true := by simp [mayTurn, hrun, hrole, hres, hon]
  have hmove : turn (moveOf s).2 (.thread k) = threadTurn (moving s) k := congrArg (threadTurn · k) (moving_of_move hm)
  obtain ⟨hok, herr⟩ := fetchC_word hwin htr hf hc
  exact ⟨fun i hi => step_run (.inl hp) hm (hmove.trans ((threadTurn_fetches hmay hhw hdue hw hh (hok i hi)).1 i rfl)),
    fun e he => step_done (.inl hp) hm (hmove.trans ((threadTurn_fetches hmay hhw hdue hw hh (herr e he)).2 _ _ _ rfl))⟩

/-- A firing of a loaded block's instruction runs the decoded word. -/
theorem nodeTurn_runs {u : State} {j ix : Nat} {n : Inst} {a : Act} {w : IWord} {i : Instr} (hn : u.inst? j = some n) (ha : u.act? n.act = some a)
    (hplane : planeMayFire u (dieOf a.tile) n.plane = true) (hon : runsOn u a.tile a.ctx = true) (hw : n.block.words[ix]? = some w)
    (hi : decodeG w = .ok i) : nodeTurn u j ix = .run i { chargeWork u a.ctx a.allot with curNode := (j, ix) } := by
  simp only [nodeTurn, hn, ha, hplane, hon, hw, hi, Bool.not_true, Bool.or_self, Bool.false_eq_true, if_false]

/-- An event runs its own instruction. -/
theorem eventTurn_runs (u : State) {i : Instr} (h : i.parts = none) : eventTurn u i = .run i u := by simp only [eventTurn, h]

/-- Where none waits, a request of the host over an open link is performed at once. -/
theorem fromHost_of_open {s : State} (h : HostOpen s) (r : HostReq) : fromHost r s = hostPerform r s := by
  obtain ⟨hup, hnone⟩ := h
  simp only [fromHost, inOrder, hup, hnone, ne_eq, not_true_eq_false, if_false, List.isEmpty_nil, if_true]

theorem readRegister_replies (s : State) {f : Nat} (hf : f < 64) (r : HostReg) :
    readRegister s f r = replied (regRead s f r).1 f (some (bytesOf 8 (regRead s f r).2)) := by
  simp only [readRegister, Nat.not_le.mpr hf, if_false]
  rfl

/-- Settles O57, move by move. -/
theorem stepRunsDecoded : Obligations.StepRunsDecoded := by
  unfold Obligations.StepRunsDecoded
  refine ⟨?_, ?_, ?_, ?_, ?_, ?_⟩
  · intro s s1 k p leaf u t c w hp hm hrun hrole hres hon hhw hdue hw hh hwin htr hf hc
    exact ⟨codeBytes_home 16, step_thread hp hm hrun hrole hres hon hhw hdue hw hh hwin htr hf hc⟩
  · intro s j ix n a w i u hp hm hn ha hplane hon hw hi
    exact step_run (.inl hp) hm ((congrArg (nodeTurn · j ix) (moving_of_move hm)).trans (nodeTurn_runs hn ha hplane hon hw hi))
  · intro s i hp hm hi
    refine step_run (hp.imp_right (congrArg Move.event)) hm ((congrArg (eventTurn · i) (moving_of_move hm)).trans (eventTurn_runs _ hi))
  · intro s f r hp hm hf hopen x
    refine (step_done (.inl hp) hm (congrArg (fun u => Turn.done (hostReads u f r)) (moving_of_move hm))).trans (congrArg Outcome.next ?_)
    exact (fromHost_of_open hopen _).trans (readRegister_replies _ hf r)
  · intro s at_ bs hp hm hle
    refine (step_done (.inl hp) hm (congrArg (fun u => Turn.done (hostStores u at_ bs)) (moving_of_move hm))).trans (congrArg Outcome.next ?_)
    exact if_pos hle
  · intro s hp hm
    have hm' : decide ((takeMove (passTime s)).1 ≠ .event .coldReset) = true := decide_eq_true hm
    unfold step
    simp only [hp, Bool.not_false, hm', Bool.and_self, if_true]

end Sys2Proof.Proofs
end

section
/-!
PROOFS. Loads, stores, prefetch and cache operations (R144 to R148, R156, R184): what each body makes of the place that its access reaches.
-/
namespace Sys2Proof.Proofs
open Sys2Proof Sys2Proof.Machine Sys2Proof.Machine.State Sys2Proof.Claims
open Host (Outcome)

/-! ### Answers of a meaning -/

/-- A thread that has nothing to report, and whose tile has its way home, goes on (R249, R300). -/
theorem reportDeferred_settled {s : State} {scope : Nat} (h : Settled scope s) (go : State → BRes) :
    reportDeferred s s.curThread scope go = go s := by
  obtain ⟨⟨hdef, hstores⟩, hdrain⟩ := h
  have hd : (s.thr s.curThread).deferred = [] := hdef
  have hs : (s.thr s.curThread).stores.any (·.awaited) = false := hstores
  have hw : (decide (2 ≤ scope) && drainHeld s (tileOf s.curThread) fun _ => true) = false := by
    by_cases h2 : 2 ≤ scope
    · simp [hdrain h2]
    · simp [h2]
  unfold reportDeferred
  rw [hd]
  simp only [hs, hw, Bool.or_self, Bool.false_eq_true, if_false]

/-- A body that reports under a release alone. -/
theorem reportDeferred_noErrors {s : State} {ord scope : Nat} (h : noErrors ord scope s) (go : State → BRes) :
    (if ord = 3 then reportDeferred s s.curThread scope go else go s) = go s := by
  split
  · next ho => exact reportDeferred_settled (h ho) go
  · rfl

/-- A bundle whose request is held has issued: its ticket is taken (R365). -/
theorem runC_held {opc : Nat} {f : CForm} {s s1 : State} {r : HeldReq} {body : CEnv → State → BRes} (h : Issues opc f s)
    (hb : body (cenv opc f s) s = .held s1 r) :
    runC opc f s body = (completed opc f s s1 true).modThr s.curThread fun t => t.holdReq r := by
  rw [runC_issues h, hb, ← settle_ok]
  simp only [settle, if_true, modThr_modThr]

/-- A request is held where nothing but its way to the place stops it. -/
theorem heldOr_hold {ε α : Type} (opc : Nat) (e : CEnv) (s s2 : State) (k : α) (other : BRes) :
    heldOr opc e s .hold (s2, (.ok k : Except ε α)) other = .held s { opc := opc, env := e } := by simp [heldOr]

/-! ### `ld` and `st` of a bundle -/

section
variable {e : CEnv} {s s1 s2 : State} {k : Nat}

theorem ldBody_reads (hr : resolve s (e.agent.at (ldOrd e.f.ord e.f.scope) e.f.scope) (e.a + e.f.simm) (accSize e.f.fmt) (accSize e.f.fmt) .rd = (s1, .ok k))
    (he : errReply s1 k = false) (hp : poisoned s1 k (accSize e.f.fmt) = false) :
    ldBody e s =
      let r := readAt s1 e.tile k (accSize e.f.fmt) (ldOrd e.f.ord e.f.scope) e.f.scope
      .ok (r.1.modThr e.k fun t => t.await (loadFillTo e e.f.d.toNat (BitVec.ofNat 2048 (loadValue e.f.fmt r.2)) (e.a + e.f.simm) (viaOf s1 e.tile k))) true := by
  simp only [ldBody, hr, he, hp, Bool.false_eq_true, if_false]
  rfl

theorem ldBody_held
    (hr : resolve s (e.agent.at (ldOrd e.f.ord e.f.scope) e.f.scope) (e.a + e.f.simm) (accSize e.f.fmt) (accSize e.f.fmt) .rd = (s1, .error .hold))
    (hf : resolve s1 { e.agent.at (ldOrd e.f.ord e.f.scope) e.f.scope with free := true } (e.a + e.f.simm) (accSize e.f.fmt) (accSize e.f.fmt) .rd = (s2, .ok k)) :
    ldBody e s = .held s1 { opc := 0x60, env := e } := by
  simp only [ldBody, hr, hf, heldOr_hold]
  rfl

/-- `st` once it has nothing to report. -/
theorem stBody_go (h : e.f = f) (hk : e.k = s.curThread) (hn : noErrors (stOrd f.ord f.scope) f.scope s)
    (hr : resolve s (e.agent.at (stOrd f.ord f.scope) f.scope) (e.a + f.simm) (accSize f.fmt) (accSize f.fmt) .wr = (s1, .ok k))
    (he : errReply s1 k = false) :
    stBody e s =
      if recordStore k then .ok (noteStore (addWarn s1 e.k wPRIV) e.k e.ticket none) true
      else .ok (noteStoreTo (writeAt s1 e.tile k (natLe (accSize f.fmt) (dataMask f.fmt e.b.toNat)) (stOrd f.ord f.scope) f.scope) e.k e.ticket (e.a + f.simm) k)
        true := by
  subst h
  simp only [stBody, hk, reportDeferred_noErrors hn]
  simp only [hr, he, Bool.false_eq_true, if_false]

end

theorem ld_result : LoadResult := by
  intro f s s1 k h
  dsimp only
  rintro ⟨hr, he⟩ hp
  exact congrArg Outcome.next (runC_ok h (ldBody_reads (e := cenv 0x60 f s) hr he hp))

theorem ld_held : HeldLoad := by
  intro f s s1 s2 k h
  dsimp only
  intro hr hf
  exact congrArg Outcome.next (runC_held h (ldBody_held (e := cenv 0x60 f s) hr hf))

theorem st_result : StoreResult := by
  intro f s s1 k h hn
  dsimp only
  rintro ⟨hr, he⟩
  have hgo := stBody_go (e := cenv 0x61 f s) (s := s) (f := f) rfl rfl hn hr he
  refine ⟨fun hrec => congrArg Outcome.next (runC_ok h ?_), fun hrec => congrArg Outcome.next (runC_ok h ?_)⟩
  · rw [hgo, hrec]; rfl
  · rw [hgo, hrec]; rfl

/-- Settles O9: the bundle's body, at the place that its access reaches. -/
theorem scalarMemoryResult : Obligations.ScalarMemoryResult := ⟨ld_result, ld_held, st_result⟩

/-! ### Prefetch and cache operations -/

section
variable {f : CForm} {s : State} {opc : Nat} {drop : Bool}

/-- Nothing to write back: no byte, or a window other than W0. -/
theorem cacheRange_nothing (h : Issues opc f s) (hw : (cenv opc f s).b = 0 ∨
      windowOf ((cenv opc f s).a + f.simm).toNat ≠ none ∧ windowOf ((cenv opc f s).a + f.simm).toNat ≠ some .w0) :
    cacheRange opc drop f s = .next (completed opc f s (stored s s f) true) := by
  refine congrArg Outcome.next (runC_ok h ?_)
  rcases hw with hb | ⟨hn, h0⟩
  · exact if_pos hb
  · dsimp only
    split
    · rfl
    · split
      · next hw => exact absurd hw hn
      · next hw => exact absurd hw h0
      · rfl

theorem cacheRange_w0 (h : Issues opc f s) (hb : (cenv opc f s).b ≠ 0) (hw : windowOf ((cenv opc f s).a + f.simm).toNat = some .w0) {s1 : State}
    (hr : backLines s (curAgent s) drop (((cenv opc f s).a + f.simm).toNat / 128 * 128)
      ((min (((cenv opc f s).a + f.simm).toNat + (cenv opc f s).b.toNat) (2 ^ 56) + 127) / 128 - ((cenv opc f s).a + f.simm).toNat / 128) = (s1, false)) :
    cacheRange opc drop f s = .next (completed opc f s (stored s s1 f) true) := by
  refine congrArg Outcome.next (runC_ok h ?_)
  dsimp only
  rw [if_neg hb, hw]
  change (match backLines s (curAgent s) drop _ _ with | (s, true) => _ | (s, false) => _) = _
  rw [hr]
  rfl

end

/-- `cwb` and `cinv`, by what their range holds to write back. -/
theorem cacheRange_completes {opc : Nat} {drop : Bool} {f : CForm} {s : State} (h : Issues opc f s) :
    let e := cenv opc f s
    let ea := e.a + f.simm
    let lines := (min (ea.toNat + e.b.toNat) (2 ^ 56) + 127) / 128 - ea.toNat / 128
    let r := backLines s (curAgent s) drop (ea.toNat / 128 * 128) lines
    (e.b ≠ 0 → windowOf ea.toNat = some .w0 → r.2 = false → cacheRange opc drop f s = .next (completed opc f s (stored s r.1 f) true)) ∧
    (e.b = 0 ∨ (windowOf ea.toNat ≠ none ∧ windowOf ea.toNat ≠ some .w0) → cacheRange opc drop f s = .next (completed opc f s (stored s s f) true)) :=
  ⟨fun hb hw hr => cacheRange_w0 h hb hw (Prod.ext rfl hr), cacheRange_nothing h⟩

/-- Settles O12. -/
theorem prefetchAndCacheResult : Obligations.PrefetchAndCacheResult := by
  refine ⟨fun f s h => congrArg Outcome.next (runC_ok h rfl), fun f s n a h => congrArg Outcome.next (runG_quiet h rfl), ?_⟩
  simp only [List.forall_mem_cons, List.not_mem_nil, false_implies, implies_true, and_true]
  exact ⟨fun f s h => cacheRange_completes h, fun f s h => cacheRange_completes h⟩

/-! ### Loads and stores of a block -/

/-- Settles O13. -/
theorem blockMemoryResult : Obligations.BlockMemoryResult := by
  refine ⟨fun f s s1 n a k h => ?_, fun f s s1 n a k h => ?_⟩
  · dsimp only
    rintro hmay ⟨hr, he⟩ hp
    refine congrArg Outcome.next (runG_send h ?_)
    have hi : s.inst? (fireEnv f s n a).inst = some n := h.inst
    have hmay' : loadMayFire n (fireEnv f s n a).ix (fireEnv f s n a).a_.tile ((fireEnv f s n a).a + (fireEnv f s n a).b) (accSize f.fmt) = true := hmay
    have hr' : resolve (noteStatus s (fireEnv f s n a).a_ 0 (memWarnG true f)).1 ((fireEnv f s n a).agent.at (ldOrd f.ord f.scope) f.scope)
      ((fireEnv f s n a).a + (fireEnv f s n a).b) (accSize f.fmt) (accSize f.fmt) .rd = (s1, .ok k) := hr
    simp only [hi, hmay', hr', he, hp, Bool.not_true, Bool.false_eq_true, if_false]
    rfl
  · dsimp only
    intro hr
    refine congrArg Outcome.next (runG_quiet h ?_)
    have hr' : resolve (noteStatus s (fireEnv f s n a).a_ 0 (memWarnG false f)).1 ((fireEnv f s n a).agent.at (stOrd f.ord f.scope) f.scope)
      ((fireEnv f s n a).a + (fireEnv f s n a).c) (accSize f.fmt) (accSize f.fmt) .wr = (s1, .ok k) := hr
    simp only [hr']
    split <;> rfl

end Sys2Proof.Proofs
end

section
/-!
PROOFS. Atomics, fences, sync words, counters, semaphores, barriers and coherence modes (R223 to R238): what each body makes of the place that it reaches.
-/
namespace Sys2Proof.Proofs
open Sys2Proof Sys2Proof.Machine Sys2Proof.Machine.State Sys2Proof.Claims
open Host (Outcome)

@[simp] theorem cenv_agent (opc : Nat) (f : CForm) (s : State) : (cenv opc f s).agent = curAgent s := rfl
@[simp] theorem fireEnv_inst (f : GForm) (s : State) (n : Inst) (a : Act) : (fireEnv f s n a).inst = s.curNode.1 := rfl
@[simp] theorem fireEnv_ix (f : GForm) (s : State) (n : Inst) (a : Act) : (fireEnv f s n a).ix = s.curNode.2 := rfl
@[simp] theorem fireEnv_act (f : GForm) (s : State) (n : Inst) (a : Act) : (fireEnv f s n a).a_ = a := rfl

/-- Of the conditions that keep back an atomic over the host port, none holds. -/
theorem notHeld {p q r : Bool} (hp : p = false) (hq : q = true → r = false) : (p || (q && r)) = false := by
  cases p <;> cases q <;> simp_all

/-! ### Atomics -/

section
variable {opc : Nat} {e : CEnv} {s s1 : State} {k : Nat} {op : CEnv → Nat → Option Nat}

/-- An atomic whose place is here and unpoisoned. -/
theorem atomicBody_here (hk : e.k = s.curThread) (ht : e.tile = tileOf s.curThread) (hn : noErrors e.f.ord e.f.scope s)
    (hr : resolveAt (e.f.scope ≠ 3) s (e.agent.at 1 e.f.scope) (e.a + e.f.simm) (accSize e.f.fmt) (accSize e.f.fmt) .rw = (s1, .ok k))
    (he : errReply s1 k = false) (hown : e.f.scope = 3 → elsewhere s1 k = false) (hfree : atomicFree s s1 k e.f.scope)
    (hp : poisoned s1 k (accSize e.f.fmt) = false) :
    atomicBody opc op e s =
      let s2 := if recordStore k then addWarn s1 e.k wPRIV else s1
      let r := rmw s2 e.tile k (accSize e.f.fmt) e.f.ord e.f.scope (op e)
      .ok (r.1.modThr e.k fun t => t.await (loadFillTo e e.f.d.toNat (BitVec.ofNat 2048 (extendTo 64 e.f.fmt r.2)) (e.a + e.f.simm) (viaOf s2 e.tile k))) true := by
  have hheld := notHeld hfree.1 hfree.2
  have hthere : (decide (e.f.scope = 3) && elsewhere s1 k) = false := by
    by_cases h3 : e.f.scope = 3
    · simp [hown h3]
    · simp [h3]
  simp only [atomicBody, hk, reportDeferred_noErrors hn]
  simp only [hr, he, ht, hheld, hthere, hp, Bool.false_eq_true, if_false]

/-- An atomic on a page that another device owns. -/
theorem atomicBody_there (hk : e.k = s.curThread) (ht : e.tile = tileOf s.curThread) (hn : noErrors e.f.ord e.f.scope s) (h3 : e.f.scope = 3)
    (hr : resolveAt false s (e.agent.at 1 3) (e.a + e.f.simm) (accSize e.f.fmt) (accSize e.f.fmt) .rw = (s1, .ok k))
    (he : errReply s1 k = false) (hown : elsewhere s1 k = true) (hfree : atomicFree s s1 k e.f.scope) :
    atomicBody opc op e s =
      .ok ((peerAtomic s1 e.tile k e.f.ord).modThr e.k fun t => t.await (loadFillTo e e.f.d.toNat
        (BitVec.ofNat 2048 (extendTo 64 e.f.fmt (Config.peerWord s1.tick % 2 ^ (8 * accSize e.f.fmt)))) (e.a + e.f.simm) (viaOf s1 e.tile k))) true := by
  have hheld := notHeld hfree.1 hfree.2
  simp only [atomicBody, hk, reportDeferred_noErrors hn]
  simp only [h3] at hheld ⊢
  simp only [ne_eq, not_true_eq_false, decide_false, hr, he, ht, hheld, hown, decide_true, Bool.and_self, Bool.false_eq_true, if_false, if_true]

end

/-- An atomic of a block whose place is here and unpoisoned. -/
theorem atomicG_here {opc : Nat} {f : GForm} {s s1 : State} {n : Inst} {a : Act} {k : Nat} {op : GEnv → Nat → Option Nat} (h : Fires opc f s n a)
    (hmay : mayNow s n)
    (hr : resolveAt (f.scope ≠ 3) (noteStatus s a 0 (rsvG opc f)).1 ((fireEnv f s n a).agent.at 1 f.scope) (fireEnv f s n a).a (accSize f.fmt)
      (accSize f.fmt) .rw = (s1, .ok k))
    (he : errReply s1 k = false) (hown : f.scope = 3 → elsewhere s1 k = false) (hfree : atomicFreeG a s1 k f.scope)
    (hp : poisoned s1 k (accSize f.fmt) = false) :
    let r := rmw (if recordStore k then (noteStatus s1 a 0 wPRIV).1 else s1) a.tile k (accSize f.fmt) f.ord f.scope (op (fireEnv f s n a))
    atomicG opc f s op = .next (sent opc f s (irrevocably s r.1) n (BitVec.ofNat 64 (extendTo 64 f.fmt r.2))) := by
  refine congrArg Outcome.next (runG_send h ?_)
  have hi : s.inst? s.curNode.1 = some n := h.inst
  have hheld := notHeld hfree.1 hfree.2
  have hmay' : irrevMayFire s s.curNode.1 n s.curNode.2 = true := hmay
  have hthere : (decide (f.scope = 3) && elsewhere s1 k) = false := by
    by_cases h3 : f.scope = 3
    · simp [hown h3]
    · simp [h3]
  simp only [fireEnv_inst, fireEnv_ix, fireEnv_act, hi, hmay', Bool.not_true, Bool.false_eq_true, if_false]
  rw [hr]
  simp only [he, hheld, hthere, hp, Bool.false_eq_true, if_false]
  rfl

/-- Settles O16. -/
theorem atomicResult : Obligations.AtomicResult := by
  refine ⟨?_, ?_, ?_⟩
  · intro f s s1 k
    simp only [List.forall_mem_cons, List.not_mem_nil, false_implies, implies_true, and_true]
    exact ⟨fun h hn hr he hown hfree hp => congrArg Outcome.next (runC_ok h (atomicBody_here (e := cenv 0x70 f s) (op := amoOp) rfl rfl hn hr he hown hfree hp)),
      fun h hn hr he hown hfree hp => congrArg Outcome.next (runC_ok h (atomicBody_here (e := cenv 0x71 f s) (op := casOp) rfl rfl hn hr he hown hfree hp))⟩
  · intro f s s1 k
    simp only [List.forall_mem_cons, List.not_mem_nil, false_implies, implies_true, and_true]
    exact ⟨fun h hn h3 hr he hown hfree => ⟨_, Nat.mod_lt _ (Nat.two_pow_pos _),
        congrArg Outcome.next (runC_ok h (atomicBody_there (e := cenv 0x70 f s) (op := amoOp) rfl rfl hn h3 hr he hown hfree))⟩,
      fun h hn h3 hr he hown hfree => ⟨_, Nat.mod_lt _ (Nat.two_pow_pos _),
        congrArg Outcome.next (runC_ok h (atomicBody_there (e := cenv 0x71 f s) (op := casOp) rfl rfl hn h3 hr he hown hfree))⟩⟩
  · intro f s s1 n a k
    simp only [List.forall_mem_cons, List.not_mem_nil, false_implies, implies_true, and_true]
    exact ⟨fun h hmay hr he hown hfree hp =>
        atomicG_here (op := fun e old => some (amoNew f.fmt f.var old (e.b.toNat % 2 ^ fmtBits f.fmt))) h hmay hr he hown hfree hp,
      fun h hmay hr he hown hfree hp =>
        atomicG_here (op := fun e old => if old = e.b.toNat % 2 ^ fmtBits f.fmt then some (e.c.toNat % 2 ^ fmtBits f.fmt) else none)
          h hmay hr he hown hfree hp⟩

/-! ### Fences and `pub` -/

/-- Settles O17. -/
theorem fenceResult : Obligations.FenceResult := by
  refine ⟨fun f s h hset => ?_, fun f s n a h hmay => ?_, fun f s s1 k h hq => ?_, fun f s s1 n a k h hmay => ?_⟩
  · exact congrArg Outcome.next (runC_ok h (reportDeferred_settled hset _))
  · refine congrArg Outcome.next (runG_quiet h ?_)
    simp only [fireEnv_inst, fireEnv_ix, fireEnv_act, show s.inst? s.curNode.1 = some n from h.inst, hmay, Bool.not_true, Bool.false_eq_true, if_false]
  · have hset : Settled 0 s := ⟨hq, fun h2 => absurd h2 (by decide)⟩
    refine ⟨fun hb => ?_, fun hb hr hw => ?_⟩
    · exact congrArg Outcome.next (runC_ok h ((reportDeferred_settled hset _).trans (if_pos hb)))
    · refine congrArg Outcome.next (runC_ok h ((reportDeferred_settled hset _).trans ?_))
      simp only [hb, if_false, cenv_agent, hr]
      rw [show pubLines s1 (curAgent s) (decide (f.ord = 2)) _ _ = (_, false) from Prod.ext rfl hw]
      rfl
  · have hi : s.inst? s.curNode.1 = some n := h.inst
    refine ⟨fun hb => congrArg Outcome.next (runG_quiet h ?_), fun hb hr hw => congrArg Outcome.next (runG_quiet h ?_)⟩
    · simp only [fireEnv_inst, fireEnv_ix, hi, hmay, Bool.not_true, Bool.false_eq_true, if_false, hb, if_true]
    · simp only [fireEnv_inst, fireEnv_ix, hi, hmay, Bool.not_true, Bool.false_eq_true, if_false, hb, hr]
      by_cases h2 : f.ord = 2
      · simp only [h2, if_true]
        rw [show pubLines s1 _ true _ _ = (_, false) from Prod.ext rfl (hw h2)]
      · simp only [h2, if_false]

/-! ### Sync words -/

section
variable {f : GForm} {s s1 : State} {n : Inst} {a : Act} {k : Nat}

theorem synPost_bundle {f : CForm} {w : BitVec 128} (h : Issues 0x74 f s) (hn : noErrors f.ord f.scope s)
    (hr : synPlace s (curAgent s) (cenv 0x74 f s).a .rw = (s1, .ok k)) (he : errReply s1 k = false) (hp : poisoned s1 k 16 = false)
    (hw : synPostW (synRead s1 k) ((cenv 0x74 f s).b + f.simm).toNat = some w) :
    let s2 := synWrite (released s1 (tileOf s.curThread) f.ord f.scope) k w
    execSynPost (.c f) s = .next (completed 0x74 f s (if f.ord = 2 then acquireAt s2 (tileOf s.curThread) f.scope else s2) false) := by
  refine congrArg Outcome.next (runC_ok h ?_)
  simp only [cenv_k, reportDeferred_noErrors hn]
  simp only [cenv_agent, hr, he, hp, hw, Bool.false_eq_true, if_false]
  rfl

theorem synPost_block {w : BitVec 128} (h : Fires 0x74 f s n a) (hmay : mayNow s n)
    (hr : synPlace s (fireEnv f s n a).agent (fireEnv f s n a).a .rw = (s1, .ok k)) (he : errReply s1 k = false) (hp : poisoned s1 k 16 = false)
    (hw : synPostW (synRead s1 k) (fireEnv f s n a).b.toNat = some w) :
    let s2 := synWrite (released s1 a.tile f.ord f.scope) k w
    execSynPost (.g f) s = .next (sent 0x74 f s (irrevocably s (if f.ord = 2 then acquireAt s2 a.tile f.scope else s2)) n 0) := by
  refine congrArg Outcome.next (runG_send h ?_)
  have hmay' : irrevMayFire s s.curNode.1 n s.curNode.2 = true := hmay
  simp only [fireEnv_inst, fireEnv_ix, fireEnv_act, show s.inst? s.curNode.1 = some n from h.inst, hmay', Bool.not_true, hr, he, hp, hw,
    Bool.false_eq_true, if_false]
  rfl

theorem synRead_block (h : Fires 0x76 f s n a) (hmay : loadMayFire n s.curNode.2 a.tile (fireEnv f s n a).a 16 = true)
    (hr : synPlace s (fireEnv f s n a).agent (fireEnv f s n a).a .rd = (s1, .ok k)) (he : errReply s1 k = false) (hp : poisoned s1 k 16 = false) :
    let bs := overlayStores s1 (visibleStores s1 s.curNode.1 n s.curNode.2) k (Memory.readN s1.mem k 16)
    execSynRead (.g f) s = .next (sent 0x76 f s (if 2 ≤ f.ord then acquireAt s1 a.tile f.scope else s1) n
      ((synGen (BitVec.ofNat 128 (leNat bs))).setWidth 64)) := by
  refine congrArg Outcome.next (runG_send h ?_)
  simp only [fireEnv_inst, fireEnv_ix, fireEnv_act, show s.inst? s.curNode.1 = some n from h.inst, hmay, Bool.not_true, hr, he, hp, Bool.false_eq_true,
    if_false]

theorem synRead_bundle {f : CForm} (h : Issues 0x76 f s) (hr : synPlace s (curAgent s) ((cenv 0x76 f s).a + f.simm) .rd = (s1, .ok k))
    (he : errReply s1 k = false) (hp : poisoned s1 k 16 = false) :
    execSynRead (.c f) s = .next (completed 0x76 f s
      (filled s (if 2 ≤ f.ord then acquireAt s1 (tileOf s.curThread) f.scope else s1) f f.d.toNat (((synGen (synRead s1 k)).setWidth 64).setWidth 2048)) true) := by
  refine congrArg Outcome.next (runC_ok h ?_)
  simp only [synReadBody, cenv_agent, cenv_f, hr, he, hp, Bool.false_eq_true, if_false]
  rfl

/-- A word that a waiting thread can read. -/
theorem waitWord_ok {n : Nat} (he : errReply s1 k = false) (hp : poisoned s1 k n = false) : waitWord s1 k n = .ok () := by simp [waitWord, he, hp]

theorem synWait_bundle {f : CForm} (h : Issues 0x75 f s) (hr : synPlace s (curAgent s) (cenv 0x75 f s).a .rd = (s1, .ok k))
    (he : errReply s1 k = false) (hp : poisoned s1 k 16 = false) :
    let v := ((cenv 0x75 f s).b + f.simm).setWidth 24
    execSynWait f s = .next (completed 0x75 f s
      (if synGen (synRead s1 k) ≠ v then acquireDevice s1 (tileOf s.curThread)
       else s1.modThr s.curThread fun t => { t with wait := .syn (cenv 0x75 f s).a v }) false) := by
  refine congrArg Outcome.next (runC_ok h ?_)
  have ht : synTest s (curAgent s) (cenv 0x75 f s).a (((cenv 0x75 f s).b + f.simm).setWidth 24) =
      (s1, .ok (decide (synGen (synRead s1 k) ≠ ((cenv 0x75 f s).b + f.simm).setWidth 24))) := by
    simp only [synTest, hr, waitWord_ok he hp]; rfl
  simp only [cenv_agent, ht]
  by_cases hg : synGen (synRead s1 k) ≠ ((cenv 0x75 f s).b + f.simm).setWidth 24
  · simp only [decide_eq_true hg, if_pos hg]; rfl
  · simp only [decide_eq_false hg, if_neg hg]; rfl

end

/-- Settles O18. -/
theorem syncWordResult : Obligations.SyncWordResult :=
  ⟨fun _ _ _ _ _ h hn hr he hp hw => synPost_bundle h hn hr he hp hw, fun _ _ _ _ _ _ _ h hmay hr he hp hw => synPost_block h hmay hr he hp hw,
    fun _ _ _ _ h hr he hp => synRead_bundle h hr he hp, fun _ _ _ _ _ _ h hmay hr he hp => synRead_block h hmay hr he hp,
    fun _ _ _ _ h hr he hp => synWait_bundle h hr he hp⟩

end Sys2Proof.Proofs
end

section
/-!
PROOFS. Counters, semaphores, barriers and coherence modes (R232 to R238, R388 to R392).
-/
namespace Sys2Proof.Proofs
open Sys2Proof Sys2Proof.Machine Sys2Proof.Machine.State Sys2Proof.Claims
open Host (Outcome)

/-! ### Counters -/

theorem ctrAddBody_adds {e : CEnv} {s s1 : State} {k : Nat} (hk : e.k = s.curThread) (ht : e.tile = tileOf s.curThread)
    (hn : noErrors e.f.ord e.f.scope s) (hr : ctrPlace s (e.agent.at 1 e.f.scope) e.a (e.f.imm.getLsbD 43) e.f.scope = (s1, .ok k))
    (he : errReply s1 k = false) (hfree : atomicFree s s1 k e.f.scope)
    (hp : (decide (e.f.scope = 3) && elsewhere s1 k) = false → poisoned s1 k (if e.f.imm.getLsbD 43 then 16 else 8) = false) :
    ctrAddBody e s =
      .ok (if decide (e.f.scope = 3) && elsewhere s1 k then peerAtomic s1 e.tile k e.f.ord
        else ctrApply s1 e.tile k (ctrValue e.b e.f.imm) (e.f.imm.getLsbD 43) e.f.ord e.f.scope) false := by
  have hheld := notHeld hfree.1 hfree.2
  simp only [ctrAddBody, hk, reportDeferred_noErrors hn]
  simp only [hr, he, ht, hheld, Bool.false_eq_true, if_false]
  split
  · rfl
  · next hthere => rw [hp (Bool.eq_false_iff.mpr hthere)]; rfl

theorem ctrAdd_block {f : GForm} {s s1 : State} {n : Inst} {a : Act} {k : Nat} (h : Fires 0x78 f s n a) (hmay : mayNow s n)
    (hr : ctrPlace s ((fireEnv f s n a).agent.at 1 f.scope) (fireEnv f s n a).a ((fireEnv f s n a).c.getLsbD 0) f.scope = (s1, .ok k))
    (he : errReply s1 k = false) (hfree : atomicFreeG a s1 k f.scope)
    (hp : (decide (f.scope = 3) && elsewhere s1 k) = false → poisoned s1 k (if (fireEnv f s n a).c.getLsbD 0 then 16 else 8) = false) :
    execCtrAdd (.g f) s = .next (sent 0x78 f s (irrevocably s (if decide (f.scope = 3) && elsewhere s1 k then peerAtomic s1 a.tile k f.ord
      else ctrApply s1 a.tile k (fireEnv f s n a).b ((fireEnv f s n a).c.getLsbD 0) f.ord f.scope)) n 0) := by
  refine congrArg Outcome.next (runG_send h ?_)
  have hheld := notHeld hfree.1 hfree.2
  have hmay' : irrevMayFire s s.curNode.1 n s.curNode.2 = true := hmay
  simp only [fireEnv_inst, fireEnv_ix, fireEnv_act, show s.inst? s.curNode.1 = some n from h.inst, hmay', Bool.not_true, hr, he, hheld,
    Bool.false_eq_true, if_false]
  split
  · rfl
  · next hthere => rw [hp (Bool.eq_false_iff.mpr hthere)]; rfl

theorem ctrWait_bundle {f : CForm} {s s1 : State} {k : Nat} (h : Issues 0x77 f s)
    (hr : resolve s ((curAgent s).at 1 f.scope) (cenv 0x77 f s).a 8 8 .rd = (s1, .ok k)) (he : errReply s1 k = false) (hp : poisoned s1 k 8 = false) :
    let e := cenv 0x77 f s
    let v := e.b + f.simm
    let tile := tileOf s.curThread
    let s2 := if 2 ≤ f.scope ∧ isOnTile k = false then recallHome s1 k else s1
    execCtrWait f s = .next (completed 0x77 f s
      (if v.toNat ≤ leNat (placeView s2 tile k 8 f.scope) then acquireDevice s2 tile
       else s2.modThr s.curThread fun t => { t with wait := .ctr e.a v f.scope (some k) s2.dev.hubNs }) false) := by
  refine congrArg Outcome.next (runC_ok h ?_)
  have hsw : (if (decide (2 ≤ f.scope) && !isOnTile k) = true then recallHome s1 k else s1) =
      if 2 ≤ f.scope ∧ isOnTile k = false then recallHome s1 k else s1 := by simp
  have ht : ctrTest s (curAgent s) (cenv 0x77 f s).a ((cenv 0x77 f s).b + f.simm) f.scope =
      (if 2 ≤ f.scope ∧ isOnTile k = false then recallHome s1 k else s1,
        .ok (k, decide (((cenv 0x77 f s).b + f.simm).toNat ≤
          leNat (placeView (if 2 ≤ f.scope ∧ isOnTile k = false then recallHome s1 k else s1) (tileOf s.curThread) k 8 f.scope)))) := by
    simp only [ctrTest, hr, waitWord_ok he hp, hsw]
    rfl
  simp only [cenv_agent, ht]
  split
  · next hn => cases hn
  · next hle =>
    simp only [Prod.mk.injEq, Except.ok.injEq, decide_eq_true_eq] at hle
    obtain ⟨rfl, -, hle⟩ := hle
    rw [if_pos hle]; rfl
  · next hlt =>
    simp only [Prod.mk.injEq, Except.ok.injEq, decide_eq_false_iff_not] at hlt
    obtain ⟨rfl, rfl, hlt⟩ := hlt
    rw [if_neg hlt]; rfl

/-- Settles O19. -/
theorem counterResult : Obligations.CounterResult := by
  refine ⟨fun f s s1 k h hn hr he hfree hp => ?_, fun f s s1 n a k h hmay hr he hfree hp => ctrAdd_block h hmay hr he hfree hp,
    fun f s s1 k h hr he hp => ctrWait_bundle h hr he hp⟩
  exact congrArg Outcome.next (runC_ok h (ctrAddBody_adds (e := cenv 0x78 f s) rfl rfl hn hr he hfree hp))

/-! ### Semaphores and barriers -/

theorem semaphoreAndBarrier : SemaphoreAndBarrierResult := by
  refine ⟨fun f s h hc hq => ?_, fun f s h hc hq => ?_, fun f s h hm harr => ?_, fun f s h harr => ?_, fun f s kn rank h hm hg hd harr => ?_,
    fun f s kn rank h hm hg harr => ?_⟩
  · refine congrArg Outcome.next (runC_ok h (if_pos ?_))
    have hq' : semQueue s (cenv 0x79 f s).tile (semIx (cenv 0x79 f s)) true = [] := hq
    simp only [hq', List.isEmpty_nil, Bool.and_true]
    exact decide_eq_true hc
  · refine congrArg Outcome.next (runC_ok h (if_pos ?_))
    have hq' : semQueue s (cenv 0x7A f s).tile (semIx (cenv 0x7A f s)) false = [] := hq
    simp only [hq', List.isEmpty_nil, Bool.and_true]
    exact decide_eq_true hc
  · refine congrArg Outcome.next (runC_ok h ?_)
    have hm' : (s.thr s.curThread).member = true := hm
    simp only [cenv_k, cenv_tile, hm', Bool.not_true, Bool.false_eq_true, if_false, List.contains_eq_mem, harr, decide_false]
  · refine congrArg Outcome.next (runC_ok h ?_)
    simp only [cenv_k, cenv_tile, List.contains_eq_mem, harr, decide_false, Bool.and_false, Bool.false_eq_true, if_false]
  · refine congrArg Outcome.next (runC_ok h ?_)
    have hm' : (s.thr s.curThread).member = true := hm
    simp only [cenv_k, cenv_tile, hm', if_true, hg, hd, Bool.false_eq_true, if_false, List.contains_eq_mem, harr, decide_false]
  · refine congrArg Outcome.next (runC_ok h ?_)
    have hm' : (s.thr s.curThread).member = true := hm
    simp only [cenv_k, cenv_tile, hm', if_true, hg, List.contains_eq_mem, harr, decide_false, Bool.false_eq_true, if_false]

theorem getV_putV_self {n : Nat} {α : Type} (v : Vector α n) (d a : α) {i : Nat} (hi : i < n) : getV (Machine.putV v i a) d i = a := by
  simp [getV, Machine.putV, hi]

theorem barOf_barArrive (s : State) (k : Nat) {b : Nat} (hb : b < 16) :
    barOf (barArrive s k b) (tileOf k) b = (barOf s (tileOf k) b).arrive k (members s (tileOf k)) := by
  simp only [barOf, barArrive, setBar, tile_modTile]
  exact getV_putV_self _ _ _ hb

theorem barrierCloses : BarrierCloses := by
  intro s k b hb
  simp only [barOf_barArrive s k hb]
  refine ⟨fun hl => ?_, fun hl => ?_⟩
  all_goals simp [Bar.arrive, hl]

/-- Settles O20. -/
theorem semaphoreAndBarrierRules : Obligations.SemaphoreAndBarrierRules := ⟨semaphoreAndBarrier, barrierCloses⟩

/-! ### Coherence mode and translation fence -/

/-- A mode switch that may go ahead does its regions between a release and an acquire. -/
theorem cmode_completes {opc : Nat} {soft : Bool} {f : CForm} {s s1 : State} {ps : List Nat} (h : Issues opc f s) :
    let e := cenv opc f s
    let tile := tileOf s.curThread
    (e.b = 0 → cmode opc soft f s = .next (completed opc f s s false)) ∧
    (e.b ≠ 0 → windowOf e.a.toNat = some .w0 → e.a.toNat + e.b.toNat ≤ 2 ^ 56 →
      cmodeCheck s (curAgent s) e.a (regionVas e.a.toNat e.b.toNat) = (s1, .ok ps) → cmodeHeld s1 tile f.scope ps = false →
      let s2 := acquireAt (releaseAt s1 tile f.scope) tile f.scope
      let s3 := ps.foldl (fun s' p => switchRegion s' s.curThread soft p) s2
      cmode opc soft f s = .next (completed opc f s (acquireAt (releaseAt s3 tile f.scope) tile f.scope) false)) := by
  refine ⟨fun hb => congrArg Outcome.next (runC_ok h (if_pos hb)), fun hb hw hle hc hheld => congrArg Outcome.next (runC_ok h ?_)⟩
  simp only [hb, if_false, hw, Nat.not_lt.mpr hle, cenv_agent, cenv_tile, cenv_k, hc, hheld, Bool.false_eq_true]

/-- What a translation fence leaves of a tile in a walk of its context. -/
def unjoined (tile ctx : Nat) (w : Walk) : Walk :=
  if w.ctx = ctx then { w with tiles := w.tiles.filter (· ≠ tile), lines := w.lines.filter (·.tile ≠ tile), waiting := w.waiting.filter (·.1 ≠ tile) } else w

theorem unjoined_ctx (tile ctx : Nat) (w : Walk) : (unjoined tile ctx w).ctx = w.ctx := by unfold unjoined; split <;> rfl

theorem unjoined_free {tile ctx : Nat} {w : Walk} (h : w.ctx = ctx) :
    tile ∉ (unjoined tile ctx w).tiles ∧ (∀ l ∈ (unjoined tile ctx w).lines, l.tile ≠ tile) ∧ ∀ x ∈ (unjoined tile ctx w).waiting, x.1 ≠ tile := by
  simp only [unjoined, h, if_true, List.mem_filter, decide_eq_true_eq]
  exact ⟨fun hm => hm.2 rfl, fun _ hm => hm.2, fun _ hm => hm.2⟩

/-- Settles O21. -/
theorem coherenceModeResult : Obligations.CoherenceModeResult := by
  refine ⟨?_, fun f s h => ?_⟩
  · simp only [List.forall_mem_cons, List.not_mem_nil, false_implies, implies_true, and_true]
    exact ⟨fun f s s1 ps h => cmode_completes h, fun f s s1 ps h => cmode_completes h⟩
  · refine ⟨_, congrArg Outcome.next (runC_ok h rfl), ?_, ?_, ?_, ?_⟩
    · show ((s.modTile (tileOf s.curThread) fun t => { t with tlb := t.tlb.filter fun x => x.ctx ≠ s.cur.ctx }).tile (tileOf s.curThread)).tlb = _
      rw [tile_modTile]
    · intro w hw hctx
      obtain ⟨w0, -, rfl⟩ := List.mem_map.1 (List.mem_filter.1 hw).1
      exact unjoined_free ((unjoined_ctx (tileOf s.curThread) s.cur.ctx w0).symm.trans hctx)
    · rfl
    · exact fun n hn => tile_modTile_ne s _ n (fun t => { t with tlb := t.tlb.filter fun x => x.ctx ≠ s.cur.ctx }) hn

end Sys2Proof.Proofs
end

section
/-!
PROOFS. Misaligned accesses trap `MISALIGN` (R65, R178, R223): the check of the address stops an access before anything is read or written.
-/
namespace Sys2Proof.Proofs
open Sys2Proof Sys2Proof.Machine Sys2Proof.Machine.State Sys2Proof.Claims
open Host (Outcome)

/-! ### The check of an address -/

/-- The stop of a misaligned access. -/
abbrev misalign : Stop := .trap cMISALIGN 0

theorem resolveAt_misaligned {own : Bool} {s : State} {ag : Agent} {ea : Word} {n align : Nat} {need : Need} (hw : inWindow ea n)
    (ha : ea.toNat % align ≠ 0) : resolveAt own s ag ea n align need = (s, .error misalign) := by
  obtain ⟨u, hu⟩ := hw
  simp only [resolveAt, hu]
  exact if_pos ha

theorem resolve_misaligned {s : State} {ag : Agent} {ea : Word} {n align : Nat} {need : Need} (hw : inWindow ea n) (ha : ea.toNat % align ≠ 0) :
    resolve s ag ea n align need = (s, .error misalign) := resolveAt_misaligned hw ha

theorem synPlace_misaligned {s : State} {ag : Agent} {ea : Word} {need : Need} (hw : inWindow ea 16) (ha : ea.toNat % 16 ≠ 0) :
    synPlace s ag ea need = (s, .error misalign) := by
  obtain ⟨u, hu⟩ := hw
  simp only [synPlace, hu]
  exact if_pos ha

theorem ctrPlace_misaligned {s : State} {ag : Agent} {ea : Word} {arr : Bool} {scope : Nat} (hw : inWindow ea (if arr then 16 else 8))
    (ha : ea.toNat % (if arr then 16 else 8) ≠ 0) : ctrPlace s ag ea arr scope = (s, .error misalign) := by
  cases arr
  · exact resolveAt_misaligned hw ha
  · exact synPlace_misaligned hw ha

/-! ### What a bundle and a firing make of it -/

@[simp] theorem misalign_isLink : misalign.isLink = false := rfl

theorem stopRes_misalign (s : State) (ea info : Word) : stopRes s misalign ea info = .trap s cMISALIGN ea info := by
  simp only [stopRes]
  exact congrArg (BRes.trap s cMISALIGN ea) BitVec.or_zero

theorem stopStore_misalign (e : CEnv) (s : State) (ea info : Word) : stopStore e s misalign ea info = .trap s cMISALIGN ea info :=
  stopRes_misalign s ea info

theorem heldOr_misalign {ε α : Type} (opc : Nat) (e : CEnv) (s : State) (free : State × Except ε α) (other : BRes) :
    heldOr opc e s misalign free other = other := rfl

/-- A bundle that stops there. -/
theorem runC_misaligned {opc : Nat} {f : CForm} {s s1 : State} {ea info : Word} {body : CEnv → State → BRes} (h : Issues opc f s)
    (hb : body (cenv opc f s) s = .trap s1 cMISALIGN ea info) : runC opc f s body = misaligned opc f s s1 ea info := runC_trap h hb

/-! ### Scalar accesses of a bundle -/

section
variable {f : CForm} {s : State}

theorem ld_misaligned (h : Issues 0x60 f s) (hw : inWindow ((cenv 0x60 f s).a + f.simm) (accSize f.fmt))
    (ha : ((cenv 0x60 f s).a + f.simm).toNat % accSize f.fmt ≠ 0) :
    execLd (.c f) s = .next (misaligned 0x60 f s s ((cenv 0x60 f s).a + f.simm) 0) := by
  refine congrArg Outcome.next (runC_misaligned h ?_)
  simp only [ldBody, cenv_f, resolve_misaligned hw ha]
  simp only [misalign_isLink, Bool.false_eq_true, if_false, heldOr_misalign, stopRes_misalign]

theorem st_misaligned (h : Issues 0x61 f s) (hn : noErrors (stOrd f.ord f.scope) f.scope s)
    (hw : inWindow ((cenv 0x61 f s).a + f.simm) (accSize f.fmt)) (ha : ((cenv 0x61 f s).a + f.simm).toNat % accSize f.fmt ≠ 0) :
    execSt (.c f) s = .next (misaligned 0x61 f s s ((cenv 0x61 f s).a + f.simm) 0) := by
  refine congrArg Outcome.next (runC_misaligned h ?_)
  unfold stBody
  refine (reportDeferred_noErrors hn _).trans ?_
  simp only [cenv_f, resolve_misaligned hw ha, heldOr_misalign, stopStore_misalign]

theorem atomic_misaligned {opc : Nat} {op : CEnv → Nat → Option Nat} (h : Issues opc f s) (hn : noErrors f.ord f.scope s)
    (hw : inWindow ((cenv opc f s).a + f.simm) (accSize f.fmt)) (ha : ((cenv opc f s).a + f.simm).toNat % accSize f.fmt ≠ 0) :
    runC opc f s (atomicBody opc op) = misaligned opc f s s ((cenv opc f s).a + f.simm) 0 := by
  refine runC_misaligned h ?_
  unfold atomicBody
  refine (reportDeferred_noErrors hn _).trans ?_
  simp only [cenv_f, resolveAt_misaligned hw ha, misalign_isLink, Bool.false_eq_true, if_false, heldOr_misalign, stopStore_misalign, stopRes_misalign,
    ite_self]

theorem synPost_misaligned (h : Issues 0x74 f s) (hn : noErrors f.ord f.scope s) (hw : inWindow (cenv 0x74 f s).a 16)
    (ha : (cenv 0x74 f s).a.toNat % 16 ≠ 0) : execSynPost (.c f) s = .next (misaligned 0x74 f s s (cenv 0x74 f s).a 0) := by
  refine congrArg Outcome.next (runC_misaligned h ((reportDeferred_noErrors hn _).trans ?_))
  simp only [synPlace_misaligned hw ha]
  exact stopStore_misalign ..

theorem synWait_misaligned (h : Issues 0x75 f s) (hw : inWindow (cenv 0x75 f s).a 16) (ha : (cenv 0x75 f s).a.toNat % 16 ≠ 0) :
    execSynWait f s = .next (misaligned 0x75 f s s (cenv 0x75 f s).a 0) := by
  refine congrArg Outcome.next (runC_misaligned h ?_)
  simp only [synTest, synPlace_misaligned hw ha]
  exact stopRes_misalign ..

theorem synRead_misaligned (h : Issues 0x76 f s) (hw : inWindow ((cenv 0x76 f s).a + f.simm) 16)
    (ha : ((cenv 0x76 f s).a + f.simm).toNat % 16 ≠ 0) :
    execSynRead (.c f) s = .next (misaligned 0x76 f s s ((cenv 0x76 f s).a + f.simm) 0) := by
  refine congrArg Outcome.next (runC_misaligned h ?_)
  simp only [synReadBody, cenv_f, synPlace_misaligned hw ha, heldOr_misalign, stopRes_misalign]

theorem ctrWait_misaligned (h : Issues 0x77 f s) (hw : inWindow (cenv 0x77 f s).a 8) (ha : (cenv 0x77 f s).a.toNat % 8 ≠ 0) :
    execCtrWait f s = .next (misaligned 0x77 f s s (cenv 0x77 f s).a 0) := by
  refine congrArg Outcome.next (runC_misaligned h ?_)
  simp only [ctrTest, resolve_misaligned hw ha]
  exact stopRes_misalign ..

theorem ctrAdd_misaligned (h : Issues 0x78 f s) (hn : noErrors f.ord f.scope s)
    (hw : inWindow (cenv 0x78 f s).a (if f.imm.getLsbD 43 then 16 else 8)) (ha : (cenv 0x78 f s).a.toNat % (if f.imm.getLsbD 43 then 16 else 8) ≠ 0) :
    execCtrAdd (.c f) s = .next (misaligned 0x78 f s s (cenv 0x78 f s).a 0) := by
  refine congrArg Outcome.next (runC_misaligned h ?_)
  unfold ctrAddBody
  refine (reportDeferred_noErrors hn _).trans ?_
  simp only [cenv_f, ctrPlace_misaligned hw ha, heldOr_misalign, stopStore_misalign]

end

/-! ### Accesses of a block -/

section
variable {f : GForm} {s : State} {n : Inst} {a : Act}

theorem ldG_misaligned (h : Fires 0x60 f s n a)
    (hmay : loadMayFire n s.curNode.2 a.tile ((fireEnv f s n a).a + (fireEnv f s n a).b) (accSize f.fmt) = true)
    (hw : inWindow ((fireEnv f s n a).a + (fireEnv f s n a).b) (accSize f.fmt))
    (ha : ((fireEnv f s n a).a + (fireEnv f s n a).b).toNat % accSize f.fmt ≠ 0) :
    execLd (.g f) s = .next (firingFault f s (noteStatus s a 0 (memWarnG true f)).1 n cMISALIGN ((fireEnv f s n a).a + (fireEnv f s n a).b)) := by
  refine congrArg Outcome.next (runG_fault h ?_)
  simp only [fireEnv_inst, fireEnv_ix, fireEnv_act, show s.inst? s.curNode.1 = some n from h.inst, hmay, Bool.not_true, Bool.false_eq_true, if_false,
    resolve_misaligned hw ha]
  rfl

theorem stG_misaligned (h : Fires 0x61 f s n a) (hw : inWindow ((fireEnv f s n a).a + (fireEnv f s n a).c) (accSize f.fmt))
    (ha : ((fireEnv f s n a).a + (fireEnv f s n a).c).toNat % accSize f.fmt ≠ 0) :
    execSt (.g f) s = .next (firingFault f s (noteStatus s a 0 (memWarnG false f)).1 n cMISALIGN ((fireEnv f s n a).a + (fireEnv f s n a).c)) := by
  refine congrArg Outcome.next (runG_fault h ?_)
  simp only [fireEnv_act, resolve_misaligned hw ha]
  rfl

theorem atomicG_misaligned {opc : Nat} {op : GEnv → Nat → Option Nat} (h : Fires opc f s n a) (hmay : mayNow s n)
    (hw : inWindow (fireEnv f s n a).a (accSize f.fmt)) (ha : (fireEnv f s n a).a.toNat % accSize f.fmt ≠ 0) :
    atomicG opc f s op = .next (firingFault f s (noteStatus s a 0 (rsvG opc f)).1 n cMISALIGN (fireEnv f s n a).a) := by
  refine congrArg Outcome.next (runG_fault h ?_)
  simp only [fireEnv_inst, fireEnv_ix, fireEnv_act, show s.inst? s.curNode.1 = some n from h.inst,
    show irrevMayFire s s.curNode.1 n s.curNode.2 = true from hmay, Bool.not_true, Bool.false_eq_true, if_false, resolveAt_misaligned hw ha]
  rfl

theorem synPostG_misaligned (h : Fires 0x74 f s n a) (hmay : mayNow s n) (hw : inWindow (fireEnv f s n a).a 16)
    (ha : (fireEnv f s n a).a.toNat % 16 ≠ 0) : execSynPost (.g f) s = .next (firingFault f s s n cMISALIGN (fireEnv f s n a).a) := by
  refine congrArg Outcome.next (runG_fault h ?_)
  simp only [fireEnv_inst, fireEnv_ix, show s.inst? s.curNode.1 = some n from h.inst,
    show irrevMayFire s s.curNode.1 n s.curNode.2 = true from hmay, Bool.not_true, Bool.false_eq_true, if_false, synPlace_misaligned hw ha]
  rfl

theorem synReadG_misaligned (h : Fires 0x76 f s n a) (hmay : loadMayFire n s.curNode.2 a.tile (fireEnv f s n a).a 16 = true)
    (hw : inWindow (fireEnv f s n a).a 16) (ha : (fireEnv f s n a).a.toNat % 16 ≠ 0) :
    execSynRead (.g f) s = .next (firingFault f s s n cMISALIGN (fireEnv f s n a).a) := by
  refine congrArg Outcome.next (runG_fault h ?_)
  simp only [fireEnv_inst, fireEnv_ix, fireEnv_act, show s.inst? s.curNode.1 = some n from h.inst, hmay, Bool.not_true, Bool.false_eq_true, if_false,
    synPlace_misaligned hw ha]
  rfl

theorem ctrAddG_misaligned (h : Fires 0x78 f s n a) (hmay : mayNow s n)
    (hw : inWindow (fireEnv f s n a).a (if (fireEnv f s n a).c.getLsbD 0 then 16 else 8))
    (ha : (fireEnv f s n a).a.toNat % (if (fireEnv f s n a).c.getLsbD 0 then 16 else 8) ≠ 0) :
    execCtrAdd (.g f) s = .next (firingFault f s s n cMISALIGN (fireEnv f s n a).a) := by
  refine congrArg Outcome.next (runG_fault h ?_)
  simp only [fireEnv_inst, fireEnv_ix, show s.inst? s.curNode.1 = some n from h.inst,
    show irrevMayFire s s.curNode.1 n s.curNode.2 = true from hmay, Bool.not_true, Bool.false_eq_true, if_false, ctrPlace_misaligned hw ha]
  rfl

end

theorem scalarMisaligned : ScalarMisaligned := by
  refine ⟨fun f s => ?_, fun f s n a => ?_⟩
  · simp only [alignedC, List.forall_mem_cons, List.not_mem_nil, false_implies, implies_true, and_true]
    exact ⟨fun h _ hw ha => ld_misaligned h hw ha, fun h hn hw ha => st_misaligned h hn hw ha,
      fun h hn hw ha => congrArg Outcome.next (atomic_misaligned h hn hw ha), fun h hn hw ha => congrArg Outcome.next (atomic_misaligned h hn hw ha),
      fun h hn hw ha => synPost_misaligned h hn hw ha, fun h _ hw ha => synWait_misaligned h hw ha, fun h _ hw ha => synRead_misaligned h hw ha,
      fun h _ hw ha => ctrWait_misaligned h hw ha, fun h hn hw ha => ctrAdd_misaligned h hn hw ha⟩
  · simp only [alignedG, List.forall_mem_cons, List.not_mem_nil, false_implies, implies_true, and_true]
    exact ⟨fun h hmay hw ha => ldG_misaligned h hmay hw ha, fun h _ hw ha => stG_misaligned h hw ha, fun h hmay hw ha => atomicG_misaligned h hmay hw ha,
      fun h hmay hw ha => atomicG_misaligned h hmay hw ha, fun h hmay hw ha => synPostG_misaligned h hmay hw ha,
      fun h hmay hw ha => synReadG_misaligned h hmay hw ha, fun h hmay hw ha => ctrAddG_misaligned h hmay hw ha⟩

/-! ### Elements of a vector access -/

/-- The first element that is no multiple of its size stops the check, once the elements before it have passed. -/
theorem checkElems_misaligned {ag : Agent} {need : Need} {v : VAcc} (post : List VAcc) (hw : inWindow v.ea v.n) (ha : v.ea.toNat % min v.n 8 ≠ 0)
    {pre : List VAcc} {s s1 : State} {l : List (VAcc × List Nat)} (h : checkElems s ag false need pre = (s1, .ok l)) :
    checkElems s ag false need (pre ++ v :: post) = (s1, .error (misalign, v)) := by
  induction pre generalizing s l with
  | nil =>
    obtain ⟨rfl, -⟩ := Prod.mk.inj h
    have hp : elemPlaces s ag false need v = (s, .error misalign) := by
      unfold elemPlaces
      rw [if_neg (by decide), resolve_misaligned hw ha]
    simp only [List.nil_append, checkElems, hp]
  | cons a pre ih =>
    simp only [List.cons_append, checkElems] at h ⊢
    split at h
    · next => cases h
    · next s2 k he =>
      split at h
      · next s3 l' hc =>
        obtain ⟨rfl, -⟩ := Prod.mk.inj h
        simp only [ih hc]
      · next => cases h

theorem packedBad_unpacked {k : Nat} (ea : Word) (l : List VAcc) (hk : isPacked k = false) : packedBad k ea l = none := by
  cases l <;> simp [packedBad, hk]

/-- A packed base that is no multiple of 4, once the first active element's window has passed. -/
theorem packedBad_misaligned {k : Nat} {ea : Word} {v : VAcc} {post : List VAcc} (hk : isPacked k = true) (hw : inWindow v.ea v.n)
    (ha : ea.toNat % 4 ≠ 0) : packedBad k ea (v :: post) = some (cMISALIGN, ea, 0) := by
  obtain ⟨u, hu⟩ := hw
  simp only [packedBad, hk, ha, hu, Bool.not_true, decide_false, Bool.or_self, Bool.false_eq_true, if_false]

/-- An element that is no multiple of its size is none that a firewall drops. -/
theorem fireElem_misaligned {s : State} {ag : Agent} {v : VAcc} (ha : v.ea.toNat % min v.n 8 ≠ 0) : fireElem s ag false v = false := by
  unfold fireElem
  split
  · rfl
  · rw [if_neg (by decide : ¬ (false : Bool) = true)]
    simp [ha]

section
variable {f : CForm} {s s1 : State} {opc : Nat} {addr : CEnv → Nat → Word} {src : CEnv → Vec} {pre post : List VAcc} {v : VAcc}
  {l : List (VAcc × List Nat)}

theorem vecLoad_misaligned (h : Issues opc f s) (hold : oldClean f s f.fmt) (hv : vaccs (cenv opc f s) (addr (cenv opc f s)) = pre ++ v :: post)
    (hk : isPacked f.fmt = false) (hc : checkElems s ((curAgent s).at (ldOrd f.ord f.scope) f.scope) false .rd pre = (s1, .ok l)) (hw : inWindow v.ea v.n)
    (ha : v.ea.toNat % min v.n 8 ≠ 0) : vecLoad opc f s addr = .next (misaligned opc f s s1 v.ea (BitVec.ofNat 64 (v.i * 2 ^ 16))) := by
  refine congrArg Outcome.next (runC_misaligned h ?_)
  simp only [vecLoadBody, cenv_f, readOld_clean hold, hv, packedBad_unpacked _ _ hk]
  simp only [cenv_agent, hk, checkElems_misaligned post hw ha hc, misalign_isLink, Bool.false_eq_true, if_false, heldOr_misalign, stopElem,
    stopRes_misalign]

theorem vecStore_misaligned (h : Issues opc f s) (hn : noErrors (stOrd f.ord f.scope) f.scope s)
    (hv : vaccs (cenv opc f s) (addr (cenv opc f s)) = pre ++ v :: post) (hk : isPacked f.fmt = false)
    (hc : checkElems s ((curAgent s).at (stOrd f.ord f.scope) f.scope) false .wr (pre.filter fun a => !fireElem s (curAgent s) false a) = (s1, .ok l))
    (hw : inWindow v.ea v.n) (ha : v.ea.toNat % min v.n 8 ≠ 0) :
    vecStore opc f s addr src = .next (misaligned opc f s s1 v.ea (BitVec.ofNat 64 (v.i * 2 ^ 16))) := by
  refine congrArg Outcome.next (runC_misaligned h ?_)
  unfold vecStoreBody
  refine (reportDeferred_noErrors hn _).trans ?_
  have hf : (pre ++ v :: post).filter (fun a => !fireElem s (curAgent s) false a) =
      pre.filter (fun a => !fireElem s (curAgent s) false a) ++ v :: post.filter fun a => !fireElem s (curAgent s) false a := by
    rw [List.filter_append, List.filter_cons_of_pos (by simp [fireElem_misaligned ha])]
  simp only [cenv_f, hv, packedBad_unpacked _ _ hk, cenv_agent, hk, hf, checkElems_misaligned _ hw ha hc, heldOr_misalign, stopStore_misalign]

theorem vecLoad_packed (h : Issues opc f s) (hold : oldClean f s f.fmt) (hv : vaccs (cenv opc f s) (addr (cenv opc f s)) = v :: post)
    (hk : isPacked f.fmt = true) (hw : inWindow v.ea v.n) (ha : ((cenv opc f s).a + f.simm).toNat % 4 ≠ 0) :
    vecLoad opc f s addr = .next (misaligned opc f s s ((cenv opc f s).a + f.simm) 0) := by
  refine congrArg Outcome.next (runC_misaligned h ?_)
  simp only [vecLoadBody, cenv_f, readOld_clean hold, hv, packedBad_misaligned hk hw ha]
  simp

theorem vecStore_packed (h : Issues opc f s) (hn : noErrors (stOrd f.ord f.scope) f.scope s)
    (hv : vaccs (cenv opc f s) (addr (cenv opc f s)) = v :: post) (hk : isPacked f.fmt = true) (hw : inWindow v.ea v.n)
    (ha : ((cenv opc f s).a + f.simm).toNat % 4 ≠ 0) :
    vecStore opc f s addr src = .next (misaligned opc f s s ((cenv opc f s).a + f.simm) 0) := by
  refine congrArg Outcome.next (runC_misaligned h ?_)
  unfold vecStoreBody
  refine (reportDeferred_noErrors hn _).trans ?_
  simp only [cenv_f, hv, packedBad_misaligned hk hw ha]
  simp

end

theorem vectorMisaligned : VectorMisaligned := by
  refine ⟨?_, ?_, fun f s v post hk hw => ⟨?_, ?_⟩⟩
  · simp only [vecLoads, List.forall_mem_cons, List.not_mem_nil, false_implies, implies_true, and_true]
    exact ⟨fun _ _ _ _ _ _ _ h ho hv hk hc hw ha => vecLoad_misaligned h ho hv hk hc hw ha,
      fun _ _ _ _ _ _ _ h ho hv hk hc hw ha => vecLoad_misaligned h ho hv hk hc hw ha,
      fun _ _ _ _ _ _ _ h ho hv hk hc hw ha => vecLoad_misaligned h ho hv hk hc hw ha⟩
  · simp only [vecStores, List.forall_mem_cons, List.not_mem_nil, false_implies, implies_true, and_true]
    exact ⟨fun _ _ _ _ _ _ _ h hn hv hk hc hw ha => vecStore_misaligned h hn hv hk hc hw ha,
      fun _ _ _ _ _ _ _ h hn hv hk hc hw ha => vecStore_misaligned h hn hv hk hc hw ha,
      fun _ _ _ _ _ _ _ h hn hv hk hc hw ha => vecStore_misaligned h hn hv hk hc hw ha⟩
  · simp only [vecLoads, List.forall_mem_cons, List.not_mem_nil, false_implies, implies_true, and_true]
    exact ⟨fun h ho hv ha => vecLoad_packed h ho hv hk hw ha, fun h ho hv ha => vecLoad_packed h ho hv hk hw ha,
      fun h ho hv ha => vecLoad_packed h ho hv hk hw ha⟩
  · simp only [vecStores, List.forall_mem_cons, List.not_mem_nil, false_implies, implies_true, and_true]
    exact ⟨fun h hn hv ha => vecStore_packed h hn hv hk hw ha, fun h hn hv ha => vecStore_packed h hn hv hk hw ha,
      fun h hn hv ha => vecStore_packed h hn hv hk hw ha⟩

/-- Settles O14. -/
theorem misalignedAccessTraps : Obligations.MisalignedAccessTraps := ⟨scalarMisaligned, vectorMisaligned⟩

end Sys2Proof.Proofs
end

section
/-!
PROOFS. What the operations over memory leave unchanged: an access, with its walks, fills, evictions and recalls, changes the bytes and their caches, but no thread,
no frame, no kernel and nothing of the device. One lemma per operation, from the byte at its home up to an access by address.
-/
namespace Sys2Proof.Proofs
open Sys2Proof Sys2Proof.Machine Sys2Proof.Machine.State Sys2Proof.Claims
open Host (Outcome)

/-! ### The relation -/

/-- A tile with its cached lines, its translations and the marks of its mapped lines left out. -/
def bareTile (t : Tile) : Tile := { t with l1 := [], tlb := [], spFilled := 0, spDirty := 0 }

/-- Of `s`, only memory, its caches and translations, and the requests and charges that accesses make have changed in `t`. -/
structure MemOnly (s t : State) : Prop where
  threads : t.threads = s.threads
  tiles   : ∀ n, bareTile (t.tile n) = bareTile (s.tile n)
  ctxs    : ∀ n, unmetered (t.ctx n) = unmetered (s.ctx n)
  device  : (t.dev, t.links, t.dierst, t.funcs, t.peers, t.fw, t.queues) = (s.dev, s.links, s.dierst, s.funcs, s.peers, s.fw, s.queues)
  work    : (t.kernels, t.tasks, t.colls) = (s.kernels, s.tasks, s.colls)
  graph   : (t.acts, t.insts, t.transit) = (s.acts, s.insts, s.transit)
  moves   : (t.tick, t.agenda, t.mover, t.curThread, t.curNode) = (s.tick, s.agenda, s.mover, s.curThread, s.curNode)

@[simp] theorem MemOnly.refl (s : State) : MemOnly s s := ⟨rfl, fun _ => rfl, fun _ => rfl, rfl, rfl, rfl, rfl⟩

theorem MemOnly.trans {s t u : State} (h : MemOnly s t) (g : MemOnly t u) : MemOnly s u :=
  ⟨g.threads.trans h.threads, fun n => (g.tiles n).trans (h.tiles n), fun n => (g.ctxs n).trans (h.ctxs n), g.device.trans h.device, g.work.trans h.work,
    g.graph.trans h.graph, g.moves.trans h.moves⟩

/-- Memory itself, marks, caches outside the tiles, walks and requests may change freely. -/
theorem MemOnly.of_eq {s t u : State} (h : MemOnly s t)
    (e : u = { t with mem := u.mem, poison := u.poison, l2 := u.l2, regions := u.regions, excl := u.excl, mapped := u.mapped, faces := u.faces
                      ownReqs := u.ownReqs, peerReqs := u.peerReqs, hubWait := u.hubWait, walks := u.walks, walkCache := u.walkCache }) : MemOnly s u := by
  rw [e]
  exact ⟨h.threads, h.tiles, h.ctxs, h.device, h.work, h.graph, h.moves⟩

theorem MemOnly.withMem {s t : State} (h : MemOnly s t) (m : List Host.Cell) (p : Tbl (BitVec 128)) : MemOnly s { t with mem := m, poison := p } := h.of_eq rfl

/-- A tile's caches and marks may change freely. -/
theorem MemOnly.modTile {s t : State} (h : MemOnly s t) (n : Nat) {f : Tile → Tile} (hf : ∀ x, bareTile (f x) = bareTile x) : MemOnly s (t.modTile n f) :=
  ⟨h.threads, fun j => by
    by_cases hj : j = n
    · subst hj; rw [tile_modTile, hf]; exact h.tiles j
    · rw [tile_modTile_ne _ _ _ _ hj]; exact h.tiles j, h.ctxs, h.device, h.work, h.graph, h.moves⟩

theorem MemOnly.of_fst {α : Type} {s t : State} {r : State × α} {a : α} (h : MemOnly s r.1) (e : r = (t, a)) : MemOnly s t := by rw [e] at h; exact h

theorem MemOnly.foldl {α : Type} {s t : State} {f : State → α → State} (hf : ∀ t a, MemOnly s t → MemOnly s (f t a)) (l : List α) (h : MemOnly s t) :
    MemOnly s (l.foldl f t) := by
  induction l generalizing t with
  | nil => exact h
  | cons a l ih => exact ih (hf t a h)

theorem MemOnly.ite {s t u : State} {p : Prop} [Decidable p] (ht : MemOnly s t) (hu : MemOnly s u) : MemOnly s (if p then t else u) := by
  split
  · exact ht
  · exact hu

theorem MemOnly.thr {s t : State} (h : MemOnly s t) (k : Nat) : t.thr k = s.thr k := by simp only [State.thr, h.threads]

/-! ### Charges -/

/-- A meter of HBM bytes alone is charged. -/
theorem unmetered_charge (c : Ctx) (p : Nat → Bool) (g : Allot → Nat) :
    unmetered { c with allots := c.allots.map fun ja => if p ja.1 then (ja.1, { ja.2 with mHbm := g ja.2 }) else ja } = unmetered c := by
  simp only [unmetered, List.map_map]
  congr 1
  refine List.map_congr_left fun ja _ => ?_
  simp only [Function.comp]
  split <;> rfl

theorem ctx_modCtx_ne (s : State) (n j : Nat) (f : Ctx → Ctx) (h : j ≠ n) : (s.modCtx n f).ctx j = s.ctx j := ctx_setCtx_ne _ _ _ _ h

theorem MemOnly.charge {s t : State} (h : MemOnly s t) (c i : Nat) (g : Allot → Nat) : MemOnly s (charge t c i fun a => { a with mHbm := g a }) :=
  ⟨h.threads, h.tiles, fun j => by
    by_cases hj : j = c
    · subst hj
      rw [Machine.charge, ctx_modCtx]
      exact (unmetered_charge _ _ g).trans (h.ctxs j)
    · rw [Machine.charge, ctx_modCtx_ne _ _ _ _ hj]; exact h.ctxs j, h.device, h.work, h.graph, h.moves⟩

section
variable {s0 s : State} (h : MemOnly s0 s)
include h

@[simp] theorem memOnly_hbmMoved (line : Nat) : MemOnly s0 (hbmMoved s line) := by
  unfold hbmMoved chargeAgent
  split
  · split
    · exact h.charge _ _ _
    · exact h
  · exact h

/-! ### The home and the caches -/

@[simp] theorem memOnly_poisonWritten (k : Nat) : MemOnly s0 (poisonWritten s k) := by
  unfold poisonWritten
  split
  · exact h
  · exact h.of_eq rfl

@[simp] theorem memOnly_markSpDirty (k : Nat) : MemOnly s0 (markSpDirty s k) := by
  unfold markSpDirty
  split
  · refine h.modTile _ fun t => ?_
    split <;> rfl
  · exact h

@[simp] theorem memOnly_pokeByte (k : Nat) (b : Byte) : MemOnly s0 (pokeByte s k b) :=
  memOnly_poisonWritten ((memOnly_markSpDirty h k).of_eq rfl) k

@[simp] theorem memOnly_homeByte (k : Nat) (b : Byte) : MemOnly s0 (homeByte s k b) := memOnly_pokeByte h _ b

omit h in
@[simp] theorem memOnly_writeHome {s : State} (h : MemOnly s0 s) (k : Nat) (bs : List Byte) : MemOnly s0 (writeHome s k bs) := by
  induction bs generalizing s k with
  | nil => exact h
  | cons b r ih => exact ih (memOnly_homeByte h k b) (k + 1)

@[simp] theorem memOnly_setL1 (t l : Nat) (x : L1Line) : MemOnly s0 (setL1 s t l x) := h.modTile t fun _ => rfl
@[simp] theorem memOnly_dropL1 (t l : Nat) : MemOnly s0 (dropL1 s t l) := h.modTile t fun _ => rfl
@[simp] theorem memOnly_dropIf (t : Nat) (p : Nat → L1Line → Bool) : MemOnly s0 (dropIf s t p) := h.modTile t fun _ => rfl
@[simp] theorem memOnly_dropRead (t : Nat) (p : Nat → L1Line → Bool) : MemOnly s0 (dropRead s t p) := by
  unfold dropRead
  exact h.modTile t (by intro; rfl)
@[simp] theorem memOnly_acquireDevice (t : Nat) : MemOnly s0 (acquireDevice s t) := memOnly_dropRead h t _
@[simp] theorem memOnly_setRegion (r : Nat) (x : RStat) : MemOnly s0 (setRegion s r x) := h.of_eq rfl
@[simp] theorem memOnly_l2Keep (l : Nat) (d : BitVec 1024) : MemOnly s0 (l2Keep s l d) := h.of_eq rfl

@[simp] theorem memOnly_sendDirty (t ln : Nat) : MemOnly s0 (sendDirty s t ln) := by
  simp only [sendDirty]
  split
  · exact h
  · next l _ =>
    split
    · exact h
    · have hd := MemOnly.foldl (f := fun s i => if l.dirty.getLsbD i then writeHome s (ln + i) [l.data.extractLsb' (i * 8) 8] else s)
        (fun t i ht => MemOnly.ite (memOnly_writeHome ht _ _) ht) (List.range 128) (memOnly_hbmMoved h ln)
      exact MemOnly.ite (memOnly_dropL1 hd _ _) (memOnly_setL1 hd _ _ _)

@[simp] theorem memOnly_recallExcl (l : Nat) : MemOnly s0 (recallExcl s l) := by
  unfold recallExcl
  split
  · exact (memOnly_sendDirty h _ _).of_eq rfl
  · exact h

@[simp] theorem memOnly_drainLine (t l : Nat) : MemOnly s0 (drainLine s t l) := by
  simp only [drainLine]
  split
  · exact h
  · exact MemOnly.ite h (MemOnly.ite (memOnly_sendDirty h t l) (memOnly_sendDirty (memOnly_recallExcl h l) t l))

@[simp] theorem memOnly_evictLine (t l : Nat) : MemOnly s0 (evictLine s t l) :=
  memOnly_dropL1 (MemOnly.ite ((memOnly_drainLine h t l).of_eq rfl) (memOnly_drainLine h t l)) t l

@[simp] theorem memOnly_makeRoom (t : Nat) : MemOnly s0 (makeRoom s t) := by
  simp only [makeRoom]
  split
  · exact h
  · split
    · exact memOnly_evictLine h _ _
    · exact h

@[simp] theorem memOnly_fetchLine (t l : Nat) : MemOnly s0 (fetchLine s t l) := by
  have hb := memOnly_hbmMoved h l
  have hm := memOnly_hbmMoved (memOnly_makeRoom h t) l
  simp only [fetchLine]
  split
  · exact MemOnly.ite h (memOnly_setL1 (MemOnly.ite (memOnly_l2Keep hb _ _) hb) _ _ _)
  · have hk := MemOnly.ite (p := isHost l = true) (memOnly_l2Keep hm l (belowL1 (hbmMoved (makeRoom s t) l) l)) hm
    exact MemOnly.ite hk (memOnly_setL1 hk _ _ _)

@[simp] theorem memOnly_drainIf (t : Nat) (p : Nat → Bool) : MemOnly s0 (drainIf s t p) :=
  MemOnly.foldl (fun _ l h => MemOnly.ite (memOnly_drainLine h t l) h) _ h

@[simp] theorem memOnly_dropCopies (q p : Nat → Bool) : MemOnly s0 (dropCopies s q p) :=
  MemOnly.foldl (fun _ t h => MemOnly.ite (memOnly_dropIf h t _) h) _ h

@[simp] theorem memOnly_recallToken (r : Nat) : MemOnly s0 (recallToken s r) := by
  unfold recallToken
  split
  · exact memOnly_setRegion (memOnly_drainIf h _ _) _ _
  · exact h

@[simp] theorem memOnly_recallExcls (r : Nat) : MemOnly s0 (recallExcls s r) :=
  MemOnly.foldl (fun _ lt h => MemOnly.ite (memOnly_recallExcl h lt.1) h) _ h

@[simp] theorem memOnly_recallHome (k : Nat) : MemOnly s0 (recallHome s k) := memOnly_recallExcl (memOnly_recallToken h _) _

@[simp] theorem memOnly_refreshOwn (t k : Nat) : MemOnly s0 (refreshOwn s t k) := by
  unfold refreshOwn
  split
  · exact h
  · exact memOnly_setL1 h _ _ _

@[simp] theorem memOnly_grantToken (t r : Nat) : MemOnly s0 (grantToken s t r) := by
  simp only [grantToken]
  split
  · exact MemOnly.ite h (memOnly_setRegion (memOnly_dropCopies (memOnly_recallExcls (memOnly_recallToken h _) _) _ _) _ _)
  · exact memOnly_setRegion (memOnly_dropCopies (memOnly_recallExcls h _) _ _) _ _
  · exact h

@[simp] theorem memOnly_grantExcl (t k : Nat) : MemOnly s0 (grantExcl s t k) := by
  have hr := memOnly_recallExcl (memOnly_recallToken h (regionOf k)) (lineOf k)
  refine MemOnly.ite h (memOnly_refreshOwn (MemOnly.of_eq (MemOnly.ite hr (memOnly_dropCopies hr _ _)) rfl) t k)

@[simp] theorem memOnly_grantWrite (t k : Nat) : MemOnly s0 (grantWrite s t k) := by
  unfold grantWrite
  split
  · exact h
  · exact h
  · exact memOnly_grantExcl h t k
  · exact MemOnly.ite (memOnly_grantToken h t _) (memOnly_grantExcl h t k)

@[simp] theorem memOnly_releaseDevice (t : Nat) : MemOnly s0 (releaseDevice s t) := (memOnly_drainIf h t _).of_eq rfl

@[simp] theorem memOnly_releaseAt (t scope : Nat) : MemOnly s0 (releaseAt s t scope) := MemOnly.ite (memOnly_releaseDevice h t) h

@[simp] theorem memOnly_acquireAt (t scope : Nat) : MemOnly s0 (acquireAt s t scope) := MemOnly.ite (memOnly_acquireDevice h t) (memOnly_dropRead h t _)

/-! ### Accesses at places -/

@[simp] theorem memOnly_loadPlace (t k n o sc : Nat) : MemOnly s0 (loadPlace s t k n o sc).1 := by
  have hd := memOnly_drainLine (memOnly_hbmMoved (memOnly_recallHome h k) (lineOf k)) t (lineOf k)
  simp only [loadPlace]
  split
  · exact h
  · split
    · exact h
    · split
      · refine memOnly_refreshOwn ?_ t k
        have he := MemOnly.ite (p := (isHost k && decide (sc = 3)) = true) (hd.of_eq (u := { drainLine (hbmMoved (recallHome s k) (lineOf k)) t (lineOf k) with
          l2 := Tbl.erase (drainLine (hbmMoved (recallHome s k) (lineOf k)) t (lineOf k)).l2 (lineOf k) }) rfl) hd
        exact MemOnly.ite (memOnly_l2Keep he _ _) he
      · exact memOnly_fetchLine h t _

@[simp] theorem memOnly_storePlace (t k : Nat) (bs : List Byte) (o sc : Nat) : MemOnly s0 (storePlace s t k bs o sc) := by
  have hw := memOnly_writeHome h k bs
  simp only [storePlace]
  split
  · exact hw
  · split
    · exact hw
    · split
      · have hl : MemOnly s0 (match Tbl.find? (writeHome s k bs).l2 (lineOf k) with
            | some d => { writeHome s k bs with l2 := Tbl.set (writeHome s k bs).l2 (lineOf k) (lineStore { data := d, dirty := 0, old := false } (k % 128) bs).data }
            | none => writeHome s k bs) := by
          split
          · exact hw.of_eq rfl
          · exact hw
        split
        · exact memOnly_setL1 hl _ _ _
        · exact hl
      · split
        · exact memOnly_refreshOwn (memOnly_writeHome (memOnly_drainLine (memOnly_hbmMoved (memOnly_recallHome h k) _) t _) k bs) t k
        · have hg := MemOnly.ite (p := regionStat s k = .soft) h (memOnly_grantWrite h t k)
          have hf := MemOnly.ite (p := (l1? (if regionStat s k = .soft then s else grantWrite s t k) t (lineOf k)).isSome = true) hg (memOnly_fetchLine hg t (lineOf k))
          have hp := MemOnly.foldl (f := fun s i => poisonWritten s (k + i)) (fun _ i h => memOnly_poisonWritten h (k + i)) (List.range bs.length) hf
          split
          · exact memOnly_setL1 hp _ _ _
          · exact memOnly_writeHome (memOnly_recallExcl (memOnly_hbmMoved hp _) _) k bs

@[simp] theorem memOnly_writeAt (t k : Nat) (bs : List Byte) (o sc : Nat) : MemOnly s0 (writeAt s t k bs o sc) :=
  memOnly_storePlace (MemOnly.ite (memOnly_releaseAt h t sc) h) t k bs o sc

@[simp] theorem memOnly_readAt (t k n o sc : Nat) : MemOnly s0 (readAt s t k n o sc).1 :=
  MemOnly.ite (memOnly_acquireAt (memOnly_loadPlace h t k n o sc) t sc) (memOnly_loadPlace h t k n o sc)

@[simp] theorem memOnly_atomicRead (t k n sc : Nat) : MemOnly s0 (atomicRead s t k n sc).1 := by
  simp only [atomicRead]
  split
  · exact h
  · split
    · exact memOnly_refreshOwn (MemOnly.ite (h.of_eq rfl) h) t k
    · split
      · exact memOnly_refreshOwn (memOnly_drainLine (memOnly_hbmMoved (memOnly_recallHome h k) _) _ _) _ _
      · exact memOnly_fetchLine (memOnly_grantWrite h t k) _ _

omit h in
@[simp] theorem memOnly_storeElem {s : State} (h : MemOnly s0 s) (t o sc : Nat) (bs : List Byte) (ks : List Nat) : MemOnly s0 (storeElem s t o sc bs ks) := by
  induction ks generalizing s bs with
  | nil => exact h
  | cons k r ih =>
    cases r with
    | nil => exact memOnly_storePlace h t k bs o sc
    | cons k' r => exact ih (memOnly_storePlace h t k _ o sc) _

@[simp] theorem memOnly_hubRead (k n : Nat) : MemOnly s0 (hubRead s k n).1 :=
  MemOnly.foldl (f := fun s i => if lineOf k + 128 * i < k + n then recallHome s (lineOf k + 128 * i) else s)
    (fun _ _ h => MemOnly.ite (memOnly_recallHome h _) h) _ h

@[simp] theorem memOnly_spLineBack (t l p : Nat) : MemOnly s0 (spLineBack s t l p) := by
  unfold spLineBack
  exact MemOnly.modTile (MemOnly.foldl (fun _ bi h => memOnly_pokeByte h _ _) _ h) t (by intro; rfl)

@[simp] theorem memOnly_spRelease (p k : Nat) : MemOnly s0 (spRelease s p k) := by
  simp only [spRelease]
  exact MemOnly.modTile (MemOnly.of_eq (MemOnly.ite (memOnly_spLineBack h _ _ _) h) rfl) _ fun _ => rfl

@[simp] theorem memOnly_registerLine (l k : Nat) : MemOnly s0 (registerLine s l k) := by
  have hr : ∀ {s : State}, MemOnly s0 s → MemOnly s0 ((knownTiles (recallHome s l)).foldl (fun s t => evictLine s t l) (recallHome s l)) :=
    fun h => MemOnly.foldl (fun _ t h => memOnly_evictLine h t l) _ (memOnly_recallHome h l)
  simp only [registerLine]
  refine MemOnly.of_eq (hr ?_) rfl
  split
  · exact MemOnly.ite h (memOnly_spRelease h _ _)
  · exact h

/-! ### Walks and translation -/

@[simp] theorem memOnly_askPage (t c k : Nat) (m : Mover) : MemOnly s0 (askPage s t c k m) := h.of_eq rfl
@[simp] theorem memOnly_keepEntry (d c l va : Nat) (e : Word) (x : Lease) : MemOnly s0 (keepEntry s d c l va e x) := h.of_eq rfl
@[simp] theorem memOnly_tlbInstall (t : Nat) (e : TlbEntry) : MemOnly s0 (tlbInstall s t e) := h.modTile t fun _ => rfl

@[simp] theorem memOnly_readEntry (d c k : Nat) : MemOnly s0 (readEntry s d c k).1 := by
  simp only [readEntry]
  repeat' split
  all_goals simp [h]

omit h in
/-- A state that a branch has reached, or the one that its entry was read in. -/
@[simp] theorem memOnly_walkFrom (d c va n : Nat) {s : State} (h : MemOnly s0 s) (l tb : Nat) (x : Lease) : MemOnly s0 (walkFrom s d c va l tb x n).1 := by
  induction n generalizing s l tb x with
  | zero => exact h
  | succ n ih =>
    have hr : ∀ r : State × Except Fail Word, (match walkCached s d c l va with
        | some e => (s, .ok e.1)
        | none => readEntry s d c (tb + 8 * lvlIndex l va)) = r → MemOnly s0 r.1 := by
      rintro _ rfl
      split
      · exact h
      · exact memOnly_readEntry h _ _ _
    simp only [walkFrom]
    split
    · next e => exact hr _ e
    · next s1 _ e =>
      have h1 : MemOnly s0 s1 := hr _ e
      repeat' split
      all_goals first | exact h1 | exact ih h1 _ _ _ | exact ih (memOnly_keepEntry h1 _ _ _ _ _ _) _ _ _

@[simp] theorem memOnly_walk (d c va : Nat) : MemOnly s0 (walk s d c va).1 := memOnly_walkFrom d c va 4 h 0 _ _

theorem memOnly_ensureFace {t : State} {c : Nat} {leaf : Word} {b va : Nat} (e : ensureFace s c leaf b va = .ok t) : MemOnly s0 t := by
  simp only [ensureFace] at e
  split at e
  · cases e; exact h
  · split at e
    · cases e; exact h
    · split at e
      · cases e; exact h.of_eq rfl
      · cases e

theorem memOnly_joinWalk {t : State} {tile c : Nat} {va : Word} (e : joinWalk s tile c va = some t) : MemOnly s0 t := by
  simp only [joinWalk] at e
  split at e
  · cases e; exact h.of_eq rfl
  · split at e
    · cases e; exact h.of_eq rfl
    · cases e

@[simp] theorem memOnly_findLeaf (t c : Nat) (va : Word) (n : Need) : MemOnly s0 (findLeaf s t c va n).1 := by
  have hf : ∀ a, MemOnly s0 (findLeaf.fresh s t c n a).1 := fun a => by
    have hw := memOnly_walk h (dieOf t) c a
    unfold findLeaf.fresh
    split
    · next e => exact memOnly_tlbInstall (hw.of_fst e) _ _
    · next e => exact hw.of_fst e
  have hm : ∀ a, MemOnly s0 (findLeaf.miss s t c va n a).1 := fun a => by
    unfold findLeaf.miss
    split
    · exact h
    · split
      · next e => exact memOnly_joinWalk h e
      · exact hf a
  simp only [findLeaf]
  split
  · split
    · exact h
    · exact hm _
  · exact hm _

@[simp] theorem memOnly_translateLeaf (t c : Nat) (va : Word) (n : Need) : MemOnly s0 (translateLeaf s t c va n).1 := by
  have hf := memOnly_findLeaf h t c va n
  simp only [translateLeaf]
  split
  · next e => exact hf.of_fst e
  · next e =>
    split
    · exact hf.of_fst e
    · next e2 => exact memOnly_ensureFace (hf.of_fst e) e2

@[simp] theorem memOnly_translate (t c : Nat) (va : Word) (n : Need) : MemOnly s0 (Machine.translate s t c va n).1 := by
  have hf := memOnly_translateLeaf h t c va n
  unfold Machine.translate
  split
  · next e => exact hf.of_fst e
  · next e => exact hf.of_fst e

@[simp] theorem memOnly_ownCheck (ag : Agent) (k : Nat) : MemOnly s0 (ownCheck s ag k).1 := by
  simp only [ownCheck]
  repeat' split
  all_goals simp [h]

@[simp] theorem memOnly_reached (ag : Agent) (k : Nat) (n : Need) : MemOnly s0 (reached s ag k n).1 := h

@[simp] theorem memOnly_spFill (ag : Agent) (k : Nat) : MemOnly s0 (spFill s ag k).1 := by
  simp only [spFill]
  split
  · exact h
  · split
    · exact h
    · split
      · next e => exact (memOnly_translate h _ _ _ _).of_fst e
      · next s1 p e =>
        have ht := (memOnly_translate h _ _ _ _).of_fst e
        split
        · next e => exact (memOnly_ownCheck ht _ _).of_fst e
        · next s2 e =>
          have ho := (memOnly_ownCheck ht _ _).of_fst e
          have hr := memOnly_registerLine ho p (scratchBase (placeTile k) + k % 2 ^ 20 / 128 * 128)
          generalize registerLine s2 p (scratchBase (placeTile k) + k % 2 ^ 20 / 128 * 128) = s3 at hr ⊢
          split
          · exact ho
          · split
            · exact ho
            · refine (hr.withMem _ _).modTile (placeTile k) (f := fun t => { t with spFilled := t.spFilled ||| (1#8192 <<< (k % 2 ^ 20 / 128)) }) ?_
              exact fun _ => rfl

@[simp] theorem memOnly_refill (ag : Agent) (k : Nat) : MemOnly s0 (refill s ag k) := MemOnly.ite (memOnly_spFill h ag k) h

@[simp] theorem memOnly_resolveAt (own : Bool) (ag : Agent) (ea : Word) (n al : Nat) (nd : Need) : MemOnly s0 (resolveAt own s ag ea n al nd).1 := by
  simp only [resolveAt]
  split
  · exact h
  · split
    · exact h
    · split
      · exact h
      · split
        · exact h
        · split
          · next e => exact (memOnly_spFill h _ _).of_fst e
          · next e => exact (memOnly_spFill h _ _).of_fst e
        · split
          · next e => exact (memOnly_spFill h _ _).of_fst e
          · next e => exact (memOnly_spFill h _ _).of_fst e
        · split
          · next e => exact (memOnly_translate h _ _ _ _).of_fst e
          · next e =>
            have ht := (memOnly_translate h _ _ _ _).of_fst e
            have ho : ∀ (s1 : State) (k : Nat) (r : State × Except Stop Unit), MemOnly s0 s1 → (if own then ownCheck s1 ag k else (s1, .ok ())) = r → MemOnly s0 r.1 := by
              rintro s1 k _ h1 rfl
              split
              · exact memOnly_ownCheck h1 ag k
              · exact h1
            split
            · next e => exact ho _ _ _ ht e
            · next e => exact ho _ _ _ ht e

@[simp] theorem memOnly_resolve (ag : Agent) (ea : Word) (n al : Nat) (nd : Need) : MemOnly s0 (resolve s ag ea n al nd).1 := memOnly_resolveAt h true ag ea n al nd

/-! ### Elements of vector accesses -/

@[simp] theorem memOnly_elemPlaces (ag : Agent) (packed : Bool) (nd : Need) (a : VAcc) : MemOnly s0 (elemPlaces s ag packed nd a).1 := by
  simp only [elemPlaces]
  split
  · next e => exact (memOnly_resolve h _ _ _ _ _).of_fst e
  · next e =>
    have h1 := (memOnly_resolve h _ _ _ _ _).of_fst e
    split
    · exact h1
    · split
      · next e => exact (memOnly_resolve h1 _ _ _ _ _).of_fst e
      · next e => exact (memOnly_resolve h1 _ _ _ _ _).of_fst e

omit h in
@[simp] theorem memOnly_checkElems {s : State} (h : MemOnly s0 s) (ag : Agent) (packed : Bool) (nd : Need) (l : List VAcc) :
    MemOnly s0 (checkElems s ag packed nd l).1 := by
  induction l generalizing s with
  | nil => exact h
  | cons a l ih =>
    simp only [checkElems]
    split
    · next e => exact (memOnly_elemPlaces h _ _ _ _).of_fst e
    · next e =>
      have h1 := (memOnly_elemPlaces h _ _ _ _).of_fst e
      split
      · next e => exact (ih h1).of_fst e
      · next e => exact (ih h1).of_fst e

@[simp] theorem memOnly_loadElem (t o sc : Nat) (a : VAcc) (ks : List Nat) : MemOnly s0 (loadElem s t o sc a ks).1 := by
  suffices ∀ (l : List Nat) (acc : State × List Byte), MemOnly s0 acc.1 →
      MemOnly s0 (l.foldl (fun acc k => let r := loadPlace acc.1 t k (elemLen a ks) o sc; (r.1, acc.2 ++ r.2)) acc).1 from this ks (s, []) h
  intro l
  induction l with
  | nil => exact fun _ ha => ha
  | cons k l ih => exact fun _ ha => ih _ (memOnly_loadPlace ha _ _ _ _ _)

end

end Sys2Proof.Proofs
end

section
/-!
PROOFS. Vector loads and stores (R178 to R183), and the bytes of a store to a scratchpad or a vault (R147).
-/
namespace Sys2Proof.Proofs
open Sys2Proof Sys2Proof.Machine Sys2Proof.Machine.State Sys2Proof.Claims
open Host (Outcome)

/-! ### Assignment of on-tile memory does not move with accesses -/

theorem MemOnly.fw {s t : State} (h : MemOnly s t) : t.fw = s.fw := by
  have hd := h.device
  simp only [Prod.mk.injEq] at hd
  exact hd.2.2.2.2.2.1

/-- What a tile keeps but its caches and marks. -/
theorem MemOnly.tile_eq {s t : State} (h : MemOnly s t) {α : Type} (g : Tile → α) (hg : ∀ x, g x = g (bareTile x)) (n : Nat) : g (t.tile n) = g (s.tile n) := by
  rw [hg (t.tile n), hg (s.tile n), h.tiles n]

theorem MemOnly.isReeve {s t : State} (h : MemOnly s t) (n : Nat) : isReeve t n = isReeve s n := by simp only [Machine.isReeve, h.fw]

theorem MemOnly.checkAssign {s t : State} (h : MemOnly s t) (ag : Agent) (u : Unit_) (ea : Nat) (need : Need) :
    checkAssign t ag u ea need = checkAssign s ag u ea need := by
  have hfw := fun n => h.tile_eq (·.fwall) (fun _ => rfl) n
  have hv := fun n => h.tile_eq (·.vault) (fun _ => rfl) n
  have hg := fun n => h.tile_eq (·.group) (fun _ => rfl) n
  have ho := fun n => h.tile_eq (·.spOwner) (fun _ => rfl) n
  have he := fun n => h.tile_eq (·.errands) (fun _ => rfl) n
  cases u with
  | w0 => rfl
  | w3 => rfl
  | w1 n =>
    unfold Machine.checkAssign fwPasses State.errand?
    dsimp only
    rw [h.isReeve n, h.isReeve ag.tile, hfw, hv, he]
  | w2 n =>
    unfold Machine.checkAssign fwPasses
    dsimp only
    rw [h.isReeve n, h.isReeve ag.tile, hfw, hg, ho]

/-- A tile's assignment does not depend on the order and scope of an access. -/
theorem checkAssign_at (s : State) (ag : Agent) (ord scope : Nat) (u : Unit_) (ea : Nat) (need : Need) :
    checkAssign s (ag.at ord scope) u ea need = checkAssign s ag u ea need := rfl

/-! ### Elements that pass their checks -/

/-- An element whose place is found is none that a firewall drops. -/
theorem fireElem_of_place {s t t' : State} {ag : Agent} {ord scope : Nat} {packed : Bool} {a : VAcc} {ks : List Nat} (h : MemOnly s t)
    (hp : elemPlaces t (ag.at ord scope) packed .wr a = (t', .ok ks)) : fireElem s ag packed a = false := by
  unfold fireElem
  split
  · rfl
  · next u hu =>
    cases hc : Machine.checkAssign s ag u a.ea.toNat .wr with
    | ok _ => simp
    | error st =>
      exfalso
      have hc' : Machine.checkAssign t (ag.at ord scope) u a.ea.toNat .wr = .error st := by rw [checkAssign_at, h.checkAssign, hc]
      have hr : ∃ st, resolve t (ag.at ord scope) a.ea a.n (if packed then 1 else min a.n 8) .wr = (t, .error st) := by
        simp only [resolve, resolveAt, hu, hc']
        by_cases ha : a.ea.toNat % (if packed = true then 1 else min a.n 8) ≠ 0
        · exact ⟨_, if_pos ha⟩
        · exact ⟨_, if_neg ha⟩
      obtain ⟨st', hr⟩ := hr
      simp only [elemPlaces, hr, Prod.mk.injEq, reduceCtorEq, and_false] at hp

/-- So no firewall drops an element of a list that passes. -/
theorem fireElem_of_checked {s : State} {ag : Agent} {ord scope : Nat} {packed : Bool} (l : List VAcc) {t t' : State} {r : List (VAcc × List Nat)}
    (h : MemOnly s t) (hc : checkElems t (ag.at ord scope) packed .wr l = (t', .ok r)) : ∀ a ∈ l, fireElem s ag packed a = false := by
  induction l generalizing t r with
  | nil => exact fun _ ha => absurd ha (List.not_mem_nil)
  | cons b l ih =>
    simp only [checkElems] at hc
    split at hc
    · simp only [Prod.mk.injEq, reduceCtorEq, and_false] at hc
    · next t1 ks hp =>
      split at hc
      · next t2 l' hl =>
        intro a ha
        rcases List.mem_cons.1 ha with rfl | ha
        · exact fireElem_of_place h hp
        · exact ih ((memOnly_elemPlaces h _ _ _ _).of_fst hp) (r := l') (by rw [hl, (Prod.mk.inj hc).1]) a ha
      · simp only [Prod.mk.injEq, reduceCtorEq, and_false] at hc

/-- A packed base that is aligned. -/
theorem packedBad_aligned {f : CForm} {e : CEnv} (l : List VAcc) (h : packedAligned f e) : packedBad f.fmt (e.a + f.simm) l = none := by
  cases l with
  | nil => rfl
  | cons a l =>
    refine if_pos ?_
    cases hk : isPacked f.fmt
    · rfl
    · simp only [h hk, decide_true, Bool.or_true]

theorem find?_none {α : Type} {l : List α} {p : α → Bool} (h : ∀ a ∈ l, p a = false) : l.find? p = none :=
  List.find?_eq_none.2 fun a ha => by simp [h a ha]

/-! ### Vector loads -/

section
variable {f : CForm} {s s1 : State} {l : List (VAcc × List Nat)}

theorem memOnly_readElements (tile : Nat) {s0 : State} (h : MemOnly s0 s) (l : List (VAcc × List Nat)) : MemOnly s0 (readElements f tile s l).1 := by
  suffices ∀ (l : List (VAcc × List Nat)) (acc : State × Tbl Nat), MemOnly s0 acc.1 → MemOnly s0 (l.foldl (fun acc ak =>
      if elemErr acc.1 ak.2 then acc else
      let x := loadElem acc.1 tile (ldOrd f.ord f.scope) f.scope ak.1 ak.2
      (x.1, Tbl.set acc.2 ak.1.i (unpackElem f.fmt ak.1.i x.2))) acc).1 from this l (s, []) h
  intro l
  induction l with
  | nil => exact fun _ ha => ha
  | cons ak l ih =>
    intro acc ha
    refine ih _ ?_
    dsimp only
    split
    · exact ha
    · exact memOnly_loadElem ha _ _ _ _ _

/-- The body of a vector load whose elements are all in reach and clean. -/
theorem vecLoadBody_reads {opc : Nat} {addr : CEnv → Nat → Word} (hold : oldClean f s f.fmt) (hal : packedAligned f (cenv opc f s))
    (hc : checkElems s ((curAgent s).at (ldOrd f.ord f.scope) f.scope) (isPacked f.fmt) .rd (vaccs (cenv opc f s) (addr (cenv opc f s))) = (s1, .ok l))
    (he : ∀ ak ∈ l, elemErr s1 ak.2 = false) (hp : ∀ ak ∈ l, elemPoisoned s1 ak.1 ak.2 = false) :
    let r := readElements f (tileOf s.curThread) s1 l
    let s2 := if ldOrd f.ord f.scope = 2 then acquireAt r.1 (tileOf s.curThread) f.scope else r.1
    vecLoadBody opc addr (cenv opc f s) s = .ok (filled s s2 f (64 + f.d.toNat) (lanesOf f s f.fmt fun i => Tbl.get r.2 0 i) (firstEa l)
      (elemsVia s1 (tileOf s.curThread) l)) true := by
  dsimp only
  have hm : MemOnly s (if ldOrd f.ord f.scope = 2 then acquireAt (readElements f (tileOf s.curThread) s1 l).1 (tileOf s.curThread) f.scope
      else (readElements f (tileOf s.curThread) s1 l).1) := by
    have hr := memOnly_readElements (f := f) (tileOf s.curThread) ((memOnly_checkElems (.refl s) _ _ _ _).of_fst hc) l
    exact MemOnly.ite (memOnly_acquireAt hr _ _) hr
  have hv := congrArg Thread.v (hm.thr s.curThread)
  rw [← mergeV_eq_lanesOf (opc := opc) _ hv]
  simp only [vecLoadBody, cenv_f, readOld_clean hold, packedBad_aligned _ hal, cenv_agent, hc]
  simp only [find?_none (p := fun ak : VAcc × List Nat => elemErr s1 ak.2) he,
    find?_none (p := fun ak : VAcc × List Nat => elemPoisoned s1 ak.1 ak.2) hp]
  rfl

theorem vectorLoad {opc : Nat} {addr : CEnv → Nat → Word} (h : Issues opc f s) (hold : oldClean f s f.fmt) (hal : packedAligned f (cenv opc f s))
    (hc : checkElems s ((curAgent s).at (ldOrd f.ord f.scope) f.scope) (isPacked f.fmt) .rd (vaccs (cenv opc f s) (addr (cenv opc f s))) = (s1, .ok l))
    (he : ∀ ak ∈ l, elemErr s1 ak.2 = false) (hp : ∀ ak ∈ l, elemPoisoned s1 ak.1 ak.2 = false) :
    let r := readElements f (tileOf s.curThread) s1 l
    let s2 := if ldOrd f.ord f.scope = 2 then acquireAt r.1 (tileOf s.curThread) f.scope else r.1
    vecLoad opc f s addr = .next (completed opc f s (filled s s2 f (64 + f.d.toNat) (lanesOf f s f.fmt fun i => Tbl.get r.2 0 i) (firstEa l)
      (elemsVia s1 (tileOf s.curThread) l)) true) :=
  congrArg Outcome.next (runC_ok h (vecLoadBody_reads hold hal hc he hp))

/-! ### Vector stores -/

/-- The body of a vector store whose elements are all in reach. -/
theorem vecStoreBody_writes {opc : Nat} {addr : CEnv → Nat → Word} {src : CEnv → Vec} {e : CEnv} (hk : e.k = s.curThread) (ht : e.tile = tileOf s.curThread)
    (hn : noErrors (stOrd e.f.ord e.f.scope) e.f.scope s) (hal : packedAligned e.f e)
    (hc : checkElems s (e.agent.at (stOrd e.f.ord e.f.scope) e.f.scope) (isPacked e.f.fmt) .wr (vaccs e (addr e)) = (s1, .ok l)) :
    let s2 := if stOrd e.f.ord e.f.scope = 3 ∧ l ≠ [] then releaseAt s1 e.tile e.f.scope else s1
    (∀ ak ∈ l, elemErr s2 ak.2 = false) →
    vecStoreBody opc addr src e s =
      .ok ((writeElements e.f e.agent e.k (src e) s2 l).modThr e.k fun t => { t with stores := t.stores ++
        [{ ticket := e.ticket, err := none, via := elemsVia s2 e.tile l, addr := firstEa l }] }) true := by
  dsimp only
  have hfire := fireElem_of_checked _ (.refl s) hc
  have hin : (vaccs e (addr e)).filter (fun a => !fireElem s e.agent (isPacked e.f.fmt) a) = vaccs e (addr e) :=
    List.filter_eq_self.2 fun a ha => by simp [hfire a ha]
  have hout : (vaccs e (addr e)).filter (fireElem s e.agent (isPacked e.f.fmt)) = [] := List.filter_eq_nil_iff.2 fun a ha => by simp [hfire a ha]
  have hrel : (if (decide (stOrd e.f.ord e.f.scope = 3) && !l.isEmpty) = true then releaseAt s1 e.tile e.f.scope else s1) =
      if stOrd e.f.ord e.f.scope = 3 ∧ l ≠ [] then releaseAt s1 e.tile e.f.scope else s1 := by simp
  intro he
  rw [ht] at he hrel
  unfold vecStoreBody
  rw [hk]
  refine (reportDeferred_noErrors hn _).trans ?_
  simp only [packedBad_aligned _ hal, hin, hout, hc, List.foldl_nil, hrel, find?_none (p := fun ak : VAcc × List Nat => elemErr _ ak.2) he,
    writeElements, hk, ht]
  rfl

theorem vectorStore {opc : Nat} {addr : CEnv → Nat → Word} {src : CEnv → Vec} (h : Issues opc f s) (hn : noErrors (stOrd f.ord f.scope) f.scope s)
    (hal : packedAligned f (cenv opc f s))
    (hc : checkElems s ((curAgent s).at (stOrd f.ord f.scope) f.scope) (isPacked f.fmt) .wr (vaccs (cenv opc f s) (addr (cenv opc f s))) = (s1, .ok l)) :
    let s2 := if stOrd f.ord f.scope = 3 ∧ l ≠ [] then releaseAt s1 (tileOf s.curThread) f.scope else s1
    (∀ ak ∈ l, elemErr s2 ak.2 = false) →
    vecStore opc f s addr src = .next (completed opc f s
      (stored s (writeElements f (curAgent s) s.curThread (src (cenv opc f s)) s2 l) f (firstEa l) (elemsVia s2 (tileOf s.curThread) l)) true) :=
  fun he => congrArg Outcome.next (runC_ok h (vecStoreBody_writes (e := cenv opc f s) rfl rfl hn hal hc he))

end

/-- Settles O11. -/
theorem vectorMemoryResult : Obligations.VectorMemoryResult := by
  refine ⟨?_, ?_⟩
  · unfold VectorLoadResult
    simp only [vecLoads, List.forall_mem_cons, List.not_mem_nil, false_implies, implies_true, and_true]
    exact ⟨fun _ _ _ _ h ho hal hc he hp => vectorLoad h ho hal hc he hp, fun _ _ _ _ h ho hal hc he hp => vectorLoad h ho hal hc he hp,
      fun _ _ _ _ h ho hal hc he hp => vectorLoad h ho hal hc he hp⟩
  · unfold VectorStoreResult
    simp only [vecStores, List.forall_mem_cons, List.not_mem_nil, false_implies, implies_true, and_true]
    exact ⟨fun _ _ _ _ h hn hal hc he => vectorStore (src := (·.vb)) h hn hal hc he, fun _ _ _ _ h hn hal hc he => vectorStore (src := (·.vc)) h hn hal hc he,
      fun _ _ _ _ h hn hal hc he => vectorStore (src := (·.vc)) h hn hal hc he⟩

/-! ### Bytes written to a scratchpad or a vault -/

@[simp] theorem poisonWritten_mem (s : State) (k : Nat) : (poisonWritten s k).mem = s.mem := by unfold poisonWritten; split <;> rfl
@[simp] theorem poisonWritten_mapped (s : State) (k : Nat) : (poisonWritten s k).mapped = s.mapped := by unfold poisonWritten; split <;> rfl
@[simp] theorem markSpDirty_mem (s : State) (k : Nat) : (markSpDirty s k).mem = s.mem := by unfold markSpDirty; split <;> rfl
@[simp] theorem markSpDirty_mapped (s : State) (k : Nat) : (markSpDirty s k).mapped = s.mapped := by unfold markSpDirty; split <;> rfl
@[simp] theorem pokeByte_mem (s : State) (k : Nat) (b : Byte) : (pokeByte s k b).mem = Memory.write s.mem k b := by simp [pokeByte]
@[simp] theorem pokeByte_mapped (s : State) (k : Nat) (b : Byte) : (pokeByte s k b).mapped = s.mapped := by simp [pokeByte]

theorem homePlace_unmapped {s : State} {k : Nat} (h : Tbl.find? s.mapped (lineOf k) = none) : homePlace s k = k := by simp only [homePlace, h]

/-- Where no scratchpad line backs them, bytes are written at their own places. -/
theorem writeHome_mem (bs : List Byte) {s : State} {k : Nat} (h : ∀ i < bs.length, Tbl.find? s.mapped (lineOf (k + i)) = none) :
    (writeHome s k bs).mem = Memory.writeN s.mem k bs := by
  induction bs generalizing s k with
  | nil => rfl
  | cons b r ih =>
    have hk : homePlace s k = k := homePlace_unmapped (h 0 (by simp))
    rw [writeHome, ih (fun i hi => ?_), homeByte, hk, pokeByte_mem, Memory.writeN]
    rw [homeByte, pokeByte_mapped, Nat.add_assoc, Nat.add_comm 1]
    exact h (i + 1) (by simpa using hi)

@[simp] theorem length_natLe (n v : Nat) : (natLe n v).length = n := by
  induction n generalizing v with
  | zero => rfl
  | succ n ih => simp [natLe, ih]

theorem accSize_pos {k : Nat} (h : k ≤ 23) : 0 < accSize k := by
  have : ∀ k < 24, 0 < accSize k := by decide
  exact this k (by omega)

theorem readN_eq_of_getD (bs : List Byte) {m : List Host.Cell} {k : Nat} (h : ∀ i < bs.length, Memory.read m (k + i) = bs.getD i 0) :
    Memory.readN m k bs.length = bs := by
  induction bs generalizing k with
  | nil => rfl
  | cons b r ih =>
    have h0 := h 0 (by simp)
    have hr : ∀ i < r.length, Memory.read m (k + 1 + i) = r.getD i 0 := fun i hi => by
      have := h (i + 1) (by simpa using hi)
      rw [Nat.add_assoc, Nat.add_comm 1]
      simpa using this
    simp only [List.length_cons, Memory.readN, ih hr]
    simpa using h0

/-- Settles O15. -/
theorem onTileStoreBytes : Obligations.OnTileStoreBytes := by
  intro f s s1 t k h h3 hk hwf hreach hrec hon he
  obtain ⟨hr, herr⟩ := hreach
  have hst := (st_result f s s1 k h (fun h => absurd h h3) ⟨hr, herr⟩).1 hrec
  rw [he] at hst
  have hmem : t.mem = Memory.writeN s1.mem k (natLe (accSize f.fmt) (dataMask f.fmt (cenv 0x61 f s).b.toNat)) := by
    rw [Outcome.next.inj hst]
    show (writeAt s1 (tileOf s.curThread) k _ _ _).mem = _
    have h0 := (hon 0 (accSize_pos hk)).1
    simp only [writeAt, h3, if_false, storePlace, show isOnTile k = true from h0, if_true]
    exact writeHome_mem _ fun i hi => (hon i (by simpa using hi)).2
  rw [hmem]
  refine ⟨?_, fun j hj => Memory.read_writeN_out _ _ _ _ (by simpa using hj)⟩
  have := readN_eq_of_getD (natLe (accSize f.fmt) (dataMask f.fmt (cenv 0x61 f s).b.toNat)) (k := k)
    fun i hi => Memory.read_writeN_in _ s1.mem k i hwf hi
  simpa using this

end Sys2Proof.Proofs
end

section
/-!
PROOFS. Control flow (R149 to R159, R241): jumps, calls, returns and the end of a thread.
-/
namespace Sys2Proof.Proofs
open Sys2Proof Sys2Proof.Machine Sys2Proof.Machine.State Sys2Proof.Claims
open Host (Outcome)

/-! ### Reads of registers that a body makes by name -/

theorem needX_readable {s s1 : State} {rs : List Nat} (h : Readable s s1 rs) (go : BRes) : needX s1 s.curThread rs go = go := by
  have hf : (rs.any fun r => !(s1.thr s.curThread).isFull r) = false := by
    simp only [List.any_eq_false, Bool.not_eq_true', Bool.not_eq_false]
    exact fun r hr => (h r hr).1
  have hp : rs.findSome? (fun r => Tbl.find? (s1.thr s.curThread).pois r) = none := List.findSome?_eq_none_iff.mpr fun r hr => (h r hr).2
  simp only [needX, hf, hp, Bool.false_eq_true, if_false]

/-! ### Jumps -/

/-- `IMM[43:4]` times 16, as the hardware forms it: four zeros below the field, then the sign. -/
theorem signExtend_shl4 (x : BitVec 40) : (x ++ 0#4).signExtend 64 = BitVec.ofInt 64 (16 * x.toInt) := by
  apply BitVec.eq_of_toInt_eq
  have h : (x ++ 0#4).toInt = 16 * x.toInt := by
    simp only [BitVec.toInt_eq_toNat_cond, BitVec.toNat_append, BitVec.toNat_ofNat]
    have := x.isLt
    have hs : x.toNat <<< 4 ||| 0 % 2 ^ 4 = x.toNat * 16 := by simp [Nat.shiftLeft_eq]
    rw [hs]
    split <;> split <;> omega
  rw [BitVec.toInt_signExtend_of_le (by decide), h, BitVec.toInt_ofInt]
  have h1 := x.toInt_lt
  have h2 := x.le_toInt
  rw [Int.bmod_eq_of_le] <;> omega

theorem jumpResult : JumpResult := by
  refine ⟨fun f s h => ?_, fun f s h => ⟨fun ha => ?_, fun ha => ?_⟩, fun f s s1 h => ?_, fun f s s1 h => ?_⟩
  · rw [← signExtend_shl4]
    exact congrArg Outcome.next (runC_jump h rfl)
  · exact congrArg Outcome.next (runC_jump h (if_neg (Classical.not_not.mpr ha)))
  · exact congrArg Outcome.next (runC_trap h (if_pos ha))
  · intro e hp
    refine congrArg Outcome.next (runC_jump h ?_)
    simp only [show checkPtr s (cenv 0x82 f s).tile (cenv 0x82 f s).ctx (cenv 0x82 f s).a = (s1, .ok false) from hp]
    rfl
  · intro e hp
    refine congrArg Outcome.next (runC_trap h ?_)
    simp only [show checkPtr s (cenv 0x82 f s).tile (cenv 0x82 f s).ctx (cenv 0x82 f s).a = (s1, .ok true) from hp]
    rfl

theorem addressTokenResult : AddressTokenResult := by
  refine ⟨fun f s n a h => congrArg Outcome.next (runG_send h rfl), fun f s n a h => congrArg Outcome.next (runG_send h rfl), fun f s s1 n a h => ?_⟩
  intro e hp
  refine congrArg Outcome.next (runG_send h ?_)
  simp only [fireEnv_a_, show checkPtr s a.tile a.ctx (fireEnv f s n a).a = (s1, .ok true) from hp]
  rfl

/-- Settles O22. -/
theorem transferResult : Obligations.TransferResult := ⟨jumpResult, addressTokenResult⟩

/-! ### Calls -/

section
variable {opc : Nat} {f : CForm} {s s1 s2 : State} {p : Word} {body : CEnv → State → BRes}

theorem callC_code (h : Issues opc f s) (hb : body (cenv opc f s) s = callC (cenv opc f s) s p)
    (hp : checkPtr s (tileOf s.curThread) s.cur.ctx p = (s1, .ok false)) :
    runC opc f s body = if (s1.thr s.curThread).isFull 1
      then finished opc f s (s1.modThr s.curThread fun t => t.xw 1 (s.curPc + 16)) false p else s1 := by
  by_cases hfull : (s1.thr s.curThread).isFull 1 = true
  · rw [if_pos hfull]
    refine runC_jump h (hb.trans ?_)
    simp only [callC, cenv_tile, cenv_ctx, cenv_k, cenv_pc, hp, hfull, Bool.not_true, Bool.false_eq_true, if_false]
  · rw [if_neg hfull]
    refine runC_wait h (hb.trans ?_)
    simp only [callC, cenv_tile, cenv_ctx, cenv_k, cenv_pc, hp, hfull, Bool.not_false, if_true]

theorem callC_graph (h : Issues opc f s) (hb : body (cenv opc f s) s = callC (cenv opc f s) s p)
    (hp : checkPtr s (tileOf s.curThread) s.cur.ctx p = (s1, .ok true)) (h2 : Readable s s1 [2])
    (hfr : frameBad ((s1.thr s.curThread).xr 2 - 128) (s1.thr s.curThread).stackBase = none) (ha : Readable s s1 argRegs)
    (hw : wakeCallee s1 (curAgent s) (s1.thr s.curThread).kernel (s1.thr s.curThread).allot p ((s1.thr s.curThread).xr 2 - 128)
      (s1.thr s.curThread).stackBase (s.curPc + 16) ((s1.thr s.curThread).xr 2) false (argRegs.map fun r => (s1.thr s.curThread).xr r) = .ok s2) :
    runC opc f s body = completed opc f s (s2.modThr s.curThread fun t =>
      { t.await { reg := 10, val := 0, pois := none, ticket := ticketOf f, kind := .call ((s1.thr s.curThread).xr 2 - 128), err := false }
        with wait := .call }) true := by
  refine runC_ok h (hb.trans ?_)
  have hargs : ((List.range 8).map fun j => (s1.thr s.curThread).xr (10 + j)) = argRegs.map fun r => (s1.thr s.curThread).xr r := rfl
  have hneed : ∀ go, needX s1 s.curThread [10, 11, 12, 13, 14, 15, 16, 17] go = go := needX_readable ha
  simp only [callC, crossCall, cenv_tile, cenv_ctx, cenv_k, cenv_pc, cenv_agent, cenv_ticket, hp, needX_readable h2, hfr, hneed, hargs, hw]

end

theorem callG_wakes {opc : Nat} {f : GForm} {s s0 s1 s2 : State} {n : Inst} {a : Act} {b : Bool} {p : Word} {body : GEnv → State → GRes}
    (h : Fires opc f s n a) (hb : body (fireEnv f s n a) s = callG (fireEnv f s n a) s p)
    (hmay : mayNow s n) (hout : callOut s a = false) (hd : calleeDone s (fireEnv f s n a).agent a = (s0, true))
    (hp : checkPtr (s0.modAct n.act fun a => { a with callee := none }) a.tile a.ctx p = (s1, .ok b))
    (hfr : frameBad (a.frame - BitVec.ofNat 64 (bLocal n.block.hdr0) - 128) a.base = none)
    (hw : wakeCallee s1 (fireEnv f s n a).agent a.kernel a.allot p (a.frame - BitVec.ofNat 64 (bLocal n.block.hdr0) - 128) a.base
      ((fireEnv f s n a).pc ||| 1) a.frame true ((List.range 8).map fun j => getV n.fregs 0 j) = .ok s2) :
    runG opc f s body = silent opc f s (s2.modInst s.curNode.1 fun m =>
      { m with irrev := true, call := some (s.curNode.2, a.frame - BitVec.ofNat 64 (bLocal n.block.hdr0) - 128, (fireEnv f s n a).lead) }) n := by
  refine runG_quiet h (hb.trans ?_)
  have hmay' : irrevMayFire s s.curNode.1 n s.curNode.2 = true := hmay
  simp only [callG, fireEnv_inst, fireEnv_ix, fireEnv_a_, show (fireEnv f s n a).act = n.act from rfl, show s.inst? s.curNode.1 = some n from h.inst,
    hmay', hout, hd, hp, hfr, hw, Bool.not_true, Bool.or_self, Bool.false_eq_true, if_false]

theorem callPtrC_call (f : CForm) (s : State) : callPtrC 0x83 f s = (cenv 0x83 f s).pc + f.simm := rfl
theorem callPtrC_callr (f : CForm) (s : State) : callPtrC 0x84 f s = (cenv 0x84 f s).a := rfl
theorem callPtrG_call (f : GForm) (s : State) (n : Inst) (a : Act) : callPtrG 0x83 f s n a = (fireEnv f s n a).pc + f.imm48 := rfl
theorem callPtrG_callr (f : GForm) (s : State) (n : Inst) (a : Act) : callPtrG 0x84 f s n a = (fireEnv f s n a).a := rfl

/-- Settles O23. -/
theorem callResult : Obligations.CallResult := by
  unfold Obligations.CallResult
  simp only [List.forall_mem_cons, List.not_mem_nil, false_implies, implies_true, and_true]
  refine ⟨⟨fun f s s1 h hp => ?_, fun f s s1 s2 h hp h2 hb ha hw => ?_, fun f s s0 s1 s2 n a b h hmay hout hd hp hb hw => ?_⟩,
    fun f s s1 h hp => ?_, fun f s s1 s2 h hp h2 hb ha hw => ?_, fun f s s0 s1 s2 n a b h hmay hout hd hp hb hw => ?_⟩
  · exact congrArg Outcome.next (callC_code h (by rw [callPtrC_call]) hp)
  · exact congrArg Outcome.next (callC_graph h (by rw [callPtrC_call]) hp h2 hb ha hw)
  · exact congrArg Outcome.next (callG_wakes h (by rw [callPtrG_call]) hmay hout hd hp hb hw)
  · exact congrArg Outcome.next (callC_code h (by rw [callPtrC_callr]) hp)
  · exact congrArg Outcome.next (callC_graph h (by rw [callPtrC_callr]) hp h2 hb ha hw)
  · exact congrArg Outcome.next (callG_wakes h (by rw [callPtrG_callr]) hmay hout hd hp hb hw)

/-! ### Returns and the end of a thread -/

/-- A report of any thread that is quiet, and whose tile has its way home, goes on (R249, R300). -/
theorem reportDeferred_quiet {s : State} {k scope : Nat} (hq : Quiet (s.thr k)) (hd : drainHeld s (tileOf k) (fun _ => true) = false) (go : State → BRes) :
    reportDeferred s k scope go = go s := by
  obtain ⟨hdef, hstores⟩ := hq
  unfold reportDeferred
  rw [hdef]
  simp only [hstores, hd, Bool.and_false, Bool.or_self, Bool.false_eq_true, if_false]

section
variable {opc : Nat} {f : CForm} {s s1 : State}

/-- The end of a thread that is no graph fault's handler, once it has reported and `a0` is there. -/
theorem haltThread_ends (hrep : ∀ go, reportDeferred s1 s.curThread 2 go = go s1) (hr : Readable s s1 [10])
    (hrole : ∀ n, (s1.thr s.curThread).role ≠ .faultHandler n) : haltThread (cenv opc f s) s1 = .stop (endThread s1 s.curThread) := by
  simp only [haltThread, cenv_k, hrep, needX_readable hr]

theorem haltThread_handler {n : Nat} {a : Act} (hrep : ∀ go, reportDeferred s1 s.curThread 2 go = go s1) (hr : Readable s s1 [10])
    (hrole : (s1.thr s.curThread).role = .faultHandler n) (ha : (endThread s1 s.curThread).act? n = some a) :
    haltThread (cenv opc f s) s1 = .stop (allotStop ((endThread s1 s.curThread).modAct n fun a => { a with stat := .stopped }) a.ctx a.allot
      (s1.thr s.curThread).tcause) := by
  simp only [haltThread, cenv_k, hrep, needX_readable hr, hrole, ha]

end

theorem readable_mono {s s1 : State} {rs rs' : List Nat} (h : Readable s s1 rs) (hs : rs' ⊆ rs) : Readable s s1 rs' := fun r hr => h r (hs hr)

theorem ret_jumps {f : CForm} {s s1 : State} (h : Issues 0x85 f s) (hr : Readable s s [1]) (h0 : s.cur.xr 1 ≠ 0)
    (hp : checkPtr s (tileOf s.curThread) s.cur.ctx (s.cur.xr 1) = (s1, .ok false)) :
    execRet (.c f) s = .next (finished 0x85 f s s1 false (s.cur.xr 1)) := by
  refine congrArg Outcome.next (runC_jump h ?_)
  have hx : (s.thr s.curThread).xr 1 ≠ 0 := h0
  have hp' : checkPtr s (tileOf s.curThread) s.cur.ctx ((s.thr s.curThread).xr 1) = (s1, .ok false) := hp
  simp only [cenv_k, cenv_tile, cenv_ctx, needX_readable hr, hx, ne_eq, not_false_eq_true, if_true, hp']
  rfl

theorem ret_ends {f : CForm} {s : State} (h : Issues 0x85 f s) (hr : Readable s s [1, 10]) (h0 : s.cur.xr 1 = 0) (hfr : s.cur.frame = none)
    (hs : Settled 2 s) (hrole : ∀ n, s.cur.role ≠ .faultHandler n) :
    execRet (.c f) s = .next (endedAt 0x85 f s (endThread s s.curThread)) := by
  refine congrArg Outcome.next (runC_stop h ?_)
  have hx : (s.thr s.curThread).xr 1 = 0 := h0
  have hn : (s.thr s.curThread).frame = none := hfr
  simp only [cenv_k, needX_readable (readable_mono hr (rs' := [1]) (by simp)), hx, ne_eq, not_true_eq_false, if_false, hn]
  exact haltThread_ends (reportDeferred_settled hs) (readable_mono hr (by simp)) hrole

theorem ret_returns {f : CForm} {s s1 : State} {fa : Word} (h : Issues 0x85 f s) (hr : Readable s s [1, 10]) (h0 : s.cur.xr 1 = 0)
    (hfr : s.cur.frame = some fa) (hs : Settled 2 s) (hreach : returnReach s (curAgent s) fa = (s1, .ok ()))
    (hq : Quiet ((finishFrame s1 (curAgent s) fa ((s1.thr s.curThread).xr 10)).thr s.curThread))
    (hd : drainHeld (finishFrame s1 (curAgent s) fa ((s1.thr s.curThread).xr 10)) (tileOf s.curThread) (fun _ => true) = false)
    (hr2 : Readable s (finishFrame s1 (curAgent s) fa ((s1.thr s.curThread).xr 10)) [10])
    (hrole : ∀ n, ((finishFrame s1 (curAgent s) fa ((s1.thr s.curThread).xr 10)).thr s.curThread).role ≠ .faultHandler n) :
    execRet (.c f) s = .next (endedAt 0x85 f s (endThread (finishFrame s1 (curAgent s) fa ((s1.thr s.curThread).xr 10)) s.curThread)) := by
  refine congrArg Outcome.next (runC_stop h ?_)
  have hx : (s.thr s.curThread).xr 1 = 0 := h0
  have hn : (s.thr s.curThread).frame = some fa := hfr
  simp only [cenv_k, needX_readable (readable_mono hr (rs' := [1]) (by simp)), hx, ne_eq, not_true_eq_false, if_false, hn, reportDeferred_settled hs,
    needX_readable (readable_mono hr (rs' := [10]) (by simp)), cenv_agent, hreach]
  exact haltThread_ends (reportDeferred_quiet hq hd) hr2 hrole

theorem ret_block {f : GForm} {s : State} {n : Inst} {a : Act} (h : Fires 0x85 f s n a) (h0 : n.rets = 0) :
    execRet (.g f) s = .next (silent 0x85 f s (s.setInst s.curNode.1 { n with rets := 1, retv := (fireEnv f s n a).a }) n) := by
  refine congrArg Outcome.next (runG_quiet h ?_)
  simp only [fireEnv_inst, show s.inst? s.curNode.1 = some n from h.inst, h0, if_true]

/-- Settles O24. -/
theorem returnResult : Obligations.ReturnResult := by
  refine ⟨fun f s s1 h => ret_jumps h, fun f s h => ret_ends h, fun f s s1 fa h hr h0 hfr hs hreach => ret_returns h hr h0 hfr hs hreach,
    fun f s n a h => ret_block h, fun f s h hr hs => ⟨fun hrole => ?_, fun n a hrole ha => ?_⟩⟩
  · exact congrArg Outcome.next (runC_stop h (haltThread_ends (reportDeferred_settled hs) hr hrole))
  · exact congrArg Outcome.next (runC_stop h (haltThread_handler (reportDeferred_settled hs) hr hrole ha))

end Sys2Proof.Proofs
end

section
/-!
PROOFS. The graph-only opcodes (R204 to R212): routing, gates and merges, and the running sum of `acc`.
-/
namespace Sys2Proof.Proofs
open Sys2Proof Sys2Proof.Machine Sys2Proof.Machine.State Sys2Proof.Claims
open Host (Outcome)

/-! ### Routing of tokens -/

/-- What `modInst` changes is what stands at its key. -/
theorem modInst_congr {s : State} {i : Nat} {n : Inst} {f g : Inst → Inst} (h : s.inst? i = some n) (hfg : f n = g n) : s.modInst i f = s.modInst i g := by
  simp only [State.modInst, h, hfg]

theorem graphRoutingResult : GraphRoutingResult := by
  refine ⟨fun f s n a h h0 => ?_, fun f s n a h => ?_, fun f s n a h => ?_, fun f s n a h => ?_, fun f s n a h => ?_⟩
  · refine congrArg Outcome.next (runG_quiet h ?_)
    simp only [fireEnv_inst, show s.inst? s.curNode.1 = some n from h.inst, h0, if_true]
  · have hl (o : Option (Nat × Nat)) : [o].filterMap id = o.toList := by cases o <;> rfl
    refine congrArg Outcome.next (runG_emit h ?_)
    simp only [hl]
    rfl
  · exact congrArg Outcome.next (runG_send h rfl)
  · exact congrArg Outcome.next (runG_emit h rfl)
  · exact congrArg Outcome.next (runG_quiet h (congrArg GRes.quiet (modInst_congr h.inst rfl)))

/-! ### `gate` and `merge` -/

/-- A node that may pass a token sends it. `join` is the opcode's: only a join fires again under a predicate that is no stream. -/
theorem selfSend_passes {g : GSelf} {f : GForm} {s : State} {sl : Nat} {k out : Token} {join : Bool} {upd : Inst → Inst}
    (hj : (decide (wOpc (g.n.block.words.getD g.ix 0) = 0x8D) && decide (fieldOf f.imm 0 2 = 0)) = join) (h : MayPass g f s k join) :
    selfSend g f s sl k out upd = passed g f s sl k out join upd := by
  obtain ⟨hroom, hhit, honce⟩ := h
  have hr : (k.strm && (Machine.targets f).any fun t => !hasRoom s g.inst g.n t) = false := by
    cases hk : k.strm
    · rfl
    · simpa using hroom hk
  have ho : (!k.strm && g.n.fired.getLsbD g.ix && !join) = false := by
    rcases honce with ho | ho | ho <;> simp [ho]
  simp only [selfSend, hj, hr, hhit, ho, Bool.not_true, Bool.false_and, Bool.false_eq_true, if_false, if_true]
  rfl

theorem gate_passes {f : GForm} {s : State} {g : GSelf} {k : Token} (h : selfNode f s = some g)
    (hop : wOpc (g.n.block.words.getD g.ix 0) = 0x8A) (hg : Tbl.get g.n.gates .closed g.ix ≠ .closed) (hk : (g.n.slot g.ix 0).head? = some k)
    (hp : MayPass g f s k false) :
    execGate f s = .next (passed g f s 0 k
      (if Tbl.get g.n.gates .closed g.ix = .opened then k else { k with val := 0, null := true }) false id) := by
  have hj : (decide (wOpc (g.n.block.words.getD g.ix 0) = 0x8D) && decide (fieldOf f.imm 0 2 = 0)) = false := by rw [hop]; rfl
  refine congrArg Outcome.next ?_
  simp only [h, hk]
  cases hst : Tbl.get g.n.gates .closed g.ix with
  | closed => exact absurd hst hg
  | opened => exact selfSend_passes hj hp
  | nulled => exact selfSend_passes hj hp

theorem merge_joins {f : GForm} {s : State} {g : GSelf} {k : Token} {sl : Nat} {rest : List Nat} (h : selfNode f s = some g)
    (hop : wOpc (g.n.block.words.getD g.ix 0) = 0x8D) (hm : fieldOf f.imm 0 2 = 0) (ha : Tbl.get g.n.arrivals [] g.ix = sl :: rest)
    (hk : (g.n.slot g.ix sl).head? = some k) (hp : MayPass g f s k true) :
    execMerge f s = .next (passed g f s sl k k true fun m => { m with arrivals := Tbl.set m.arrivals g.ix rest }) := by
  refine congrArg Outcome.next ?_
  simp only [h, hm, if_true, ha, hk]
  exact selfSend_passes (by rw [hop, hm]; rfl) hp

/-- Settles O25. -/
theorem graphOnlyResult : Obligations.GraphOnlyResult := by
  refine ⟨graphRoutingResult, fun f s g k c h hg hk hc => ?_, fun f s g k h hop hg hk hp => gate_passes h hop hg hk hp,
    fun f s g k sl rest h hop hm ha hk hp => merge_joins h hop hm ha hk hp, fun f s g k b h hm hk hb hp => ?_⟩
  · refine congrArg Outcome.next ?_
    simp only [h, hg, hk, hc]
  · refine congrArg Outcome.next ?_
    have hj : (decide (wOpc (g.n.block.words.getD g.ix 0) = 0x8D) && decide (fieldOf f.imm 0 2 = 0)) = false := by simp [hm]
    simp only [h, hm, if_false, hk]
    cases hl : g.n.latch.find? g.ix with
    | none =>
      simp only [hl] at hb
      simp only [hb]
      exact selfSend_passes hj hp
    | some b0 =>
      obtain rfl : b0 = b := by simpa only [hl, Option.some.injEq] using hb
      exact selfSend_passes hj hp

/-! ### `acc` -/

/-- What an element of a stream leaves once its flags are noted: the sum is sent where its dimension ends, and kept elsewhere. -/
def accSettle (f : GForm) (e : GEnv) (new : Option Word) (s : State) : GRes :=
  if e.ends.getLsbD (fieldOf f.imm 0 2) then
    .emit (s.modInst e.inst fun n => { n with accs := Tbl.erase n.accs e.ix }) (Machine.targets f)
      { e.lead.with (new.getD 0) new.isNone with ends := e.ends &&& ~~~(BitVec.ofNat 3 (2 ^ fieldOf f.imm 0 2 - 1)) }
  else .quiet (match new with
    | some v => s.modInst e.inst fun n => { n with accs := Tbl.set n.accs e.ix v }
    | none => s)

section
variable {f : GForm} {s : State} {n : Inst} {a : Act}

theorem acc_single (h : Fires 0x8C f s n a) (hstrm : isStrm n s.curNode.2 f = false) :
    execAcc f s = .next (emitted 0x8C f s s n (Machine.targets f)
      (sentTok n s.curNode.2 f (if anyNull n s.curNode.2 f then 0 else (fireEnv f s n a).a) (anyNull n s.curNode.2 f))) := by
  refine congrArg Outcome.next (runG_emit h ?_)
  simp only [fireEnv_inst, show s.inst? s.curNode.1 = some n from h.inst, show (fireEnv f s n a).strm = false from hstrm, Bool.not_false, if_true,
    show (fireEnv f s n a).null = anyNull n s.curNode.2 f from rfl]
  cases anyNull n s.curNode.2 f <;> rfl

theorem acc_raises (h : Fires 0x8C f s n a) (hstrm : isStrm n s.curNode.2 f = true) :
    let e := fireEnv f s n a
    let old := Tbl.find? n.accs s.curNode.2
    let r := accSum f old e.null e.a
    execAcc f s = .next (settleG 0x8C f n s.curNode.1 s.curNode.2 s
      (raiseG e s r.fl (r.warn ||| accWarn f) (accSettle f e (if e.null then old else some (BitVec.ofNat 64 r.pat))))) := by
  intro e old r
  refine congrArg Outcome.next ((runG_fires h _).trans (congrArg _ ?_))
  have hs : (fireEnv f s n a).strm = true := hstrm
  simp only [fireEnv_inst, fireEnv_ix, show s.inst? s.curNode.1 = some n from h.inst, hs, Bool.not_true, Bool.false_eq_true, if_false, e, r, old]
  cases Tbl.find? n.accs s.curNode.2 <;> rfl

end

/-- Settles O26. -/
theorem accumulateResult : Obligations.AccumulateResult := by
  refine ⟨fun f s n a h hstrm => acc_single h hstrm, fun f s n a h hstrm => ?_⟩
  intro e d null old r new s1 hfl
  have hex : exec (.acc f) s = .next (settleG 0x8C f n s.curNode.1 s.curNode.2 s (accSettle f e new s1)) :=
    (acc_raises h hstrm).trans (congrArg (fun g => Outcome.next (settleG 0x8C f n s.curNode.1 s.curNode.2 s g)) (raiseG_unmasked hfl))
  refine ⟨fun hend => hex.trans ?_, fun hend => hex.trans ?_⟩
  · rw [show accSettle f e new s1 = _ from if_neg (Bool.eq_false_iff.mp hend)]
    rfl
  · rw [show accSettle f e new s1 = _ from if_pos hend]
    rfl

end Sys2Proof.Proofs
end

section
/-!
PROOFS. Engine instructions and errand handles (R213, R253, R254, R270, R274 to R282).
-/
namespace Sys2Proof.Proofs
open Sys2Proof Sys2Proof.Machine Sys2Proof.Machine.State Sys2Proof.Claims
open Host (Outcome)

/-! ### Engine bundles and words -/

/-- The `MD` bits that an engine bundle keeps. -/
def keptMd (opc : Nat) (md : BitVec 12) : BitVec 12 :=
  if opc = 0x91 then md &&& 0x09F#12 else if opc = 0x94 then md &&& 0xC40#12 else if opc = 0x98 || opc = 0x99 then 0
  else if opc = 0x96 then md &&& 0xCFF#12 else md

/-- What an engine bundle, and an engine word of a block, make of an issue. -/
def issuedC (e : CEnv) : Issued → BRes
  | .hold s => .wait s
  | .ok s h => retX e s h
  | .trap s c a i => .trap s c a (BitVec.ofNat 64 i)
def issuedG (e : GEnv) : Issued → GRes
  | .hold s => .wait s
  | .ok s h => .send (s.modInst e.inst fun n => { n with irrev := true }) h
  | .trap s c a _ => .fault s c a

theorem engineC_issues {opc : Nat} {mask : BitVec 12} {f : CForm} {s s1 : State} {h : Word} (hm : keptMd opc f.md = f.md &&& mask) (hi : Issues opc f s)
    (hr : Readable s s ((trailing opc f).map (·.toNat))) (hq : issueErrand s (issuerC s) (askC opc mask f s) = .ok s1 h) :
    engineC opc f s = .next (completed opc f s (s1.modThr s.curThread fun t => t.xw f.d.toNat h) false) := by
  refine congrArg Outcome.next (runC_ok hi ?_)
  refine (needX_readable hr _).trans ?_
  have hask : askC opc mask f s = { askC opc mask f s with
      ctr := if f.md.getLsbD 10 && decide (opc ≠ 0x91) then (s.thr s.curThread).xr (fieldOf f.imm 0 6) else 0
      syn := if f.md.getLsbD 11 && decide (opc ≠ 0x91) then (s.thr s.curThread).xr (fieldOf f.imm 6 6) else 0
      after := if f.md.getLsbD 7 && !decide (opc = 0x94) then (s.thr s.curThread).xr (fieldOf f.imm 12 6) else 0
      md := keptMd opc f.md } := by
    rw [hm]
    simp only [askC, trailX, State.cur, Bool.and_comm, decide_not, ne_eq]
  rw [hask] at hq
  exact congrArg (issuedC (cenv opc f s)) hq

/-- Each engine bundle keeps the `MD` bits that its class uses. -/
theorem engineIssueResult : EngineIssueResult := by
  unfold EngineIssueResult engines
  simp only [List.forall_mem_cons, List.not_mem_nil, false_implies, implies_true, and_true]
  have hall (md : BitVec 12) : md = md &&& 0xFFF#12 := (BitVec.and_allOnes (x := md)).symm
  have hnone (md : BitVec 12) : 0#12 = md &&& 0 := BitVec.and_zero.symm
  exact ⟨fun f s s1 h => engineC_issues (hall f.md), fun f s s1 h => engineC_issues rfl, fun f s s1 h => engineC_issues (hall f.md),
    fun f s s1 h => engineC_issues (hall f.md), fun f s s1 h => engineC_issues rfl, fun f s s1 h => engineC_issues (hall f.md),
    fun f s s1 h => engineC_issues rfl, fun f s s1 h => engineC_issues (hnone f.md), fun f s s1 h => engineC_issues (hnone f.md)⟩

theorem engineG_issues {opc : Nat} {imm : BitVec 44} {f : GForm} {s s1 : State} {n : Inst} {a : Act} {h : Word}
    (himm : imm = (askG opc f s n a).imm) (hi : Fires opc f s n a)
    (hmay : mayNow s n) (hq : issueErrand (noteStatus s a 0 (rsvG opc f)).1 (issuerG n a) (askG opc f s n a) = .ok s1 h) :
    engineG opc f s imm = .next (sent opc f s (irrevocably s s1) n h) := by
  subst himm
  refine congrArg Outcome.next (runG_send hi ?_)
  have hmay' : irrevMayFire s s.curNode.1 n s.curNode.2 = true := hmay
  simp only [fireEnv_inst, fireEnv_ix, fireEnv_act, show s.inst? s.curNode.1 = some n from hi.inst, hmay', Bool.not_true, Bool.false_eq_true, if_false]
  exact congrArg (issuedG (fireEnv f s n a)) hq

theorem blockEngineResult : BlockEngineResult := by
  unfold BlockEngineResult
  simp only [List.forall_mem_cons, List.not_mem_nil, false_implies, implies_true, and_true]
  exact ⟨fun f s s1 n a h => engineG_issues rfl, fun f s s1 n a h => engineG_issues rfl⟩

theorem slotFreeResult : SlotFreeResult := by
  refine ⟨fun f s h hd => ?_, fun f s n a h hmay hd => ?_⟩
  · refine congrArg Outcome.next (runC_ok h ?_)
    simp only [cenv_tile, hd, Bool.false_eq_true, if_false]
  · refine congrArg Outcome.next (runG_send h ?_)
    have hmay' : irrevMayFire s s.curNode.1 n s.curNode.2 = true := hmay
    simp only [fireEnv_inst, fireEnv_ix, fireEnv_act, show s.inst? s.curNode.1 = some n from h.inst, hmay', hd, Bool.not_true, Bool.or_self,
      Bool.false_eq_true, if_false]
    rfl

/-- Settles O28. -/
theorem engineResult : Obligations.EngineResult := ⟨engineIssueResult, blockEngineResult, slotFreeResult⟩

end Sys2Proof.Proofs
end
section
/-!
PROOFS. An errand issue takes the lowest free slot (R254, R274, R377): what it reads on the way leaves the errand tables as they are.
-/
namespace Sys2Proof.Proofs
open Sys2Proof Sys2Proof.Machine Sys2Proof.Machine.State Sys2Proof.Claims

theorem MemOnly.errand? {s t : State} (h : MemOnly s t) (tile slot : Nat) : t.errand? tile slot = s.errand? tile slot := by
  have he : (bareTile (t.tile tile)).errands = (bareTile (s.tile tile)).errands := by rw [h.tiles tile]
  exact congrArg (fun e => Tbl.find? e slot) he

section
variable {s0 s : State} (h : MemOnly s0 s)
include h

theorem memOnly_padFill (ag : Agent) (a : Word) (n : Nat) : MemOnly s0 (padFill s ag a n).1 := by
  unfold padFill
  have hs : MemOnly s0 ((s, .ok ()) : State × Except Bad Unit).1 := h
  generalize ((s, .ok ()) : State × Except Bad Unit) = acc at hs
  induction List.range ((a.toNat % 128 + n + 127) / 128) generalizing acc with
  | nil => exact hs
  | cons i l ih =>
    refine ih _ ?_
    dsimp only
    split
    · exact hs
    · split
      · next e => exact (memOnly_spFill hs _ _).of_fst e
      · next e => exact (memOnly_spFill hs _ _).of_fst e

theorem memOnly_issueFill (ag : Agent) (q : Ask) : MemOnly s0 (issueFill s ag q).1 := by
  have hf : MemOnly s0 (if q.md.getLsbD 5 && q.op ≠ 0x96 then padFill s ag 0xFF000000000FFFC0 64 else (s, .ok ())).1 := by
    split
    · exact memOnly_padFill h _ _ _
    · exact h
  unfold issueFill
  split
  · next e => exact hf.of_fst e
  · next e =>
    split
    · exact memOnly_padFill (hf.of_fst e) _ _ _
    · exact hf.of_fst e

theorem memOnly_twinOf (tile ctx : Nat) (a : Word) : MemOnly s0 (twinOf s tile ctx a).1 := by
  have hf := memOnly_findLeaf h tile ctx a .wr
  unfold twinOf
  split
  · next e => exact hf.of_fst e
  · next e =>
    split
    · exact hf.of_fst e
    · split
      · exact hf.of_fst e
      · next e' => exact memOnly_ensureFace (hf.of_fst e) e'

theorem memOnly_oneTwin (tile ctx : Nat) (a : Word) (n : Nat) : MemOnly s0 (oneTwin s tile ctx a n).1 := by
  have hf := memOnly_twinOf h tile ctx a
  unfold oneTwin
  split
  · next e => exact hf.of_fst e
  · next e =>
    have h1 := hf.of_fst e
    dsimp only
    split
    · next e' => exact (memOnly_twinOf h1 _ _ _).of_fst e'
    · next e' => exact (memOnly_twinOf h1 _ _ _).of_fst e'

end

/-- The lowest free slot: it is free, and every one below it is not. -/
theorem freeSlot_lowest {s : State} {tile slot : Nat} (h : freeSlot s tile = some slot) :
    slot < 256 ∧ s.errand? tile slot = none ∧ ∀ j < slot, s.errand? tile j ≠ none := by
  obtain ⟨hfree, hmem, hlow⟩ := List.find?_range_eq_some.mp h
  refine ⟨List.mem_range.mp hmem, Option.isNone_iff_eq_none.mp hfree, fun j hj hn => ?_⟩
  have := hlow j hj
  simp [hn] at this

theorem errand?_ownRecord (s : State) (tile slot ctx j : Nat) : (ownRecord s tile slot ctx).errand? tile j = s.errand? tile j := by
  simp only [ownRecord, State.errand?, tile_modTile]
  split <;> rfl

theorem errand?_joinColl (s : State) (ctx tile slot : Nat) (d : List Byte) (j : Nat) : (joinColl s ctx tile slot d).errand? tile j = s.errand? tile j := by
  unfold joinColl
  dsimp only
  split
  · rfl
  · split
    · rfl
    · split <;> rfl

/-- Settles O27: what the issue reads before it takes the slot changes no errand table, and what it does behind the slot's write changes none either. -/
theorem issueFillsSlot : Obligations.IssueFillsSlot := by
  intro s s1 i q h hq
  unfold issueErrand at hq
  extract_lets ag rank direct ctrs syns k at hq
  split at hq
  · cases hq
  · cases hq
  next s2 hfill =>
  have h2 : MemOnly s s2 := (memOnly_issueFill (MemOnly.refl s) _ q).of_fst hfill
  extract_lets rs all tw at hq
  split at hq
  · cases hq
  split at hq
  · cases hq
  split at hq
  · cases hq
  have htw : MemOnly s tw.1 := by
    simp only [tw]
    split
    · exact h2
    · split
      · exact h2
      · split
        · exact h2
        · split
          all_goals next e => exact (memOnly_oneTwin h2 _ _ _ _).of_fst e
  clear_value tw
  split at hq
  · cases hq
  next s3 fail =>
  have h3 : MemOnly s s3 := htw
  split at hq
  · cases hq
  split at hq
  · cases hq
  split at hq
  · cases hq
  next slot hslot =>
  split at hq
  · cases hq
  extract_lets serial at hq
  split at hq
  · cases hq
  next hserial =>
  obtain ⟨hlt, hfree, hlow⟩ := freeSlot_lowest hslot
  simp only [h3.errand?] at hfree hlow
  cases hq
  refine ⟨slot, hlt, hfree, hlow, _, ?_, rfl, rfl, Nat.lt_of_not_le hserial, rfl, rfl, rfl, rfl, rfl, rfl, rfl, rfl, rfl⟩
  split
  · exact (errand?_joinColl ..).trans ((errand?_ownRecord ..).trans (errand?_setErrand ..))
  · exact (errand?_ownRecord ..).trans (errand?_setErrand ..)

end Sys2Proof.Proofs
end

section
/-!
PROOFS. Waits, tests and the other handle operations (R213, R276 to R281).
-/
namespace Sys2Proof.Proofs
open Sys2Proof Sys2Proof.Machine Sys2Proof.Machine.State Sys2Proof.Claims
open Host (Outcome)

/-! ### `e.wait` and `e.test` -/

theorem eWait_fires {f : GForm} {s : State} {n : Inst} {a : Act} (h : Fires 0xA0 f s n a) (hw : ∀ w ∈ n.ewaits, w.node ≠ s.curNode.2) :
    execEWait (.g f) s = .next (fireNode 0xA0 f n s.curNode.1 s.curNode.2 (s.modInst s.curNode.1 fun m =>
      { m with ewaits := m.ewaits ++ [{ node := s.curNode.2, handle := (fireEnv f s n a).a, lead := leadTok n s.curNode.2 f, due := none }] }) false) := by
  have hnone : (s.inst? s.curNode.1).bind (fun n => (n.ewaits.find? (·.node = s.curNode.2)).map fun w => (n, w)) = none := by
    simp only [h.inst, Option.bind_some, Option.map_eq_none_iff, List.find?_eq_none, decide_eq_true_eq]
    exact hw
  simp only [execEWait, hnone]
  exact congrArg Outcome.next (runG_fires h _)

theorem eWait_waits {f : GForm} {s : State} {n : Inst} {a : Act} {w : LateWait} (hi : s.inst? s.curNode.1 = some n) (ha : s.act? n.act = some a)
    (hw : n.ewaits.find? (·.node = s.curNode.2) = some w) :
    execEWait (.g f) s = .next (lateStatus (statusDue s a.ctx w.handle) a.tile s.curNode.1 w) := by
  simp only [execEWait, hi, Option.bind_some, hw, Option.map_some, ha]

theorem lateStatus_due {s : State} {tile inst : Nat} {w x : LateWait} {m : Inst} {st : Word} (hi : s.inst? inst = some m)
    (hx : m.ewaits.find? (·.node = w.node) = some x) (hd : x.due = some st) :
    lateStatus s tile inst w = sendLate (acquireDevice s tile) inst w.node x.lead st fun n => { n with ewaits := n.ewaits.filter (· ≠ x) } := by
  simp only [lateStatus, hi, Option.bind_some, hx, hd, Option.map_some]

/-- Settles O29. -/
theorem waitAndTestResult : Obligations.WaitAndTestResult := by
  refine ⟨fun f s h => congrArg Outcome.next (runC_ok h rfl), fun f s n a h hw => eWait_fires h hw,
    fun f s n a w hi ha hw => ⟨eWait_waits hi ha hw, fun m x st hm hx hd => lateStatus_due hm hx hd⟩,
    fun f s h => congrArg Outcome.next (runC_ok h rfl), fun f s n a h => congrArg Outcome.next (runG_send h rfl)⟩

/-! ### Operations on a handle -/

section
variable {opc : Nat} {f : CForm} {s : State} {body : CEnv → State → BRes}

/-- An operation on a handle that names no errand writes its code to `D`. -/
theorem runC_gone {v : Word} {op : CEnv → State → Nat × Nat × Errand → BRes} (h : Issues opc f s)
    (hb : body = fun e s => match errandOf s e.ctx e.a with | none => retX e s v | some x => op e s x) (hn : named s (cenv opc f s).a = none) :
    runC opc f s body = completed opc f s (own s fun t => t.xw f.d.toNat v) false := by
  refine runC_ok h ?_
  have hn' : errandOf s (cenv opc f s).ctx (cenv opc f s).a = none := hn
  simp only [hb, hn']
  rfl

/-- On one that names an errand it acts on that. -/
theorem runC_named {s1 : State} {v r : Word} {op : CEnv → State → Nat × Nat × Errand → BRes} {x : Nat × Nat × Errand} (h : Issues opc f s)
    (hb : body = fun e s => match errandOf s e.ctx e.a with | none => retX e s v | some x => op e s x) (hn : named s (cenv opc f s).a = some x)
    (ho : op (cenv opc f s) s x = retX (cenv opc f s) s1 r) :
    runC opc f s body = completed opc f s (s1.modThr s.curThread fun t => t.xw f.d.toNat r) false := by
  refine runC_ok h ?_
  have hn' : errandOf s (cenv opc f s).ctx (cenv opc f s).a = some x := hn
  simp only [hb, hn', ho]
  rfl

end

/-- Settles O30. -/
theorem handleOperationResult : Obligations.HandleOperationResult := by
  refine ⟨?_, fun f s tile slot e h hn => ?_, fun f s tile slot e h hn => ?_, fun f s tile slot e h hn => ?_, fun f s tile slot e h hn => ?_,
    fun f s tile slot e h hn => ?_⟩
  · simp only [List.forall_mem_cons, List.not_mem_nil, false_implies, implies_true, and_true]
    refine ⟨fun f s h hn => ?_, fun f s h hn => ?_, fun f s h hn => ?_, fun f s h hn => ?_, fun f s h hn => ?_⟩
    all_goals exact congrArg Outcome.next (runC_gone h rfl hn)
  · exact congrArg Outcome.next (runC_named h rfl hn rfl)
  · by_cases ho : e.owner = .thread s.curThread
    · rw [if_pos ho]
      exact congrArg Outcome.next (runC_named h rfl hn (if_neg (Classical.not_not.mpr ho)))
    · rw [if_neg ho]
      exact congrArg Outcome.next (runC_named h rfl hn (if_pos ho))
  · exact congrArg Outcome.next (runC_named h rfl hn rfl)
  · exact congrArg Outcome.next (runC_named h rfl hn rfl)
  · exact congrArg Outcome.next (runC_named h rfl hn rfl)

end Sys2Proof.Proofs
end

section
/-!
PROOFS. Contexts, state registers, `yield`, `trap` and `brk` (R239, R240, R242 to R244).
-/
namespace Sys2Proof.Proofs
open Sys2Proof Sys2Proof.Machine Sys2Proof.Machine.State Sys2Proof.Claims
open Host (Outcome)

/-! ### Contexts -/

/-- Settles O31. -/
theorem contextResult : Obligations.ContextResult := by
  refine ⟨fun f s s1 tp k h => ?_, fun f s tp h => ?_⟩
  · intro e key hn hk hp hfree hptr
    refine congrArg Outcome.next (runC_ok h ?_)
    have hn' : namedContext s.curThread (cenv 0xB0 f s).a = .ok tp := hn
    have hk' : s.kern? (s.thr s.curThread).kernel = some k := hk
    have hfree' : (s.thr (threadKey (tileOf s.curThread) tp)).stat = .free := hfree
    have hptr' : checkPtr s (tileOf s.curThread) s.cur.ctx (cenv 0xB0 f s).b = (s1, .ok false) := hptr
    simp only [cenv_k, cenv_tile, cenv_ctx, hn', hk', hp, hfree', hptr', Bool.not_true, Bool.false_eq_true, if_false, ne_eq, not_true_eq_false]
    rfl
  · intro n hn hrun hfree
    refine congrArg Outcome.next (runC_ok h ?_)
    have hn' : namedContext s.curThread (cenv 0xB1 f s).a = .ok tp := hn
    have hgo : ¬ (!((s.thr (threadKey (tileOf s.curThread) tp)).running || (s.thr (threadKey (tileOf s.curThread) tp)).stat = .ended) ||
        beingReaped s (threadKey (tileOf s.curThread) tp)) = true := by
      have hfree' : beingReaped s (threadKey (tileOf s.curThread) tp) = false := hfree
      have hrun' : (s.thr (threadKey (tileOf s.curThread) tp)).running = true ∨ (s.thr (threadKey (tileOf s.curThread) tp)).stat = .ended := hrun
      rcases hrun' with hr | hr <;> simp [hfree', hr]
    simp only [cenv_k, cenv_tile, hn']
    exact if_neg hgo

/-! ### State registers -/

theorem getsrResult : GetsrResult := by
  refine fun f s h => ⟨fun hn => ?_, fun hlt hne => ?_, fun h41 => ?_⟩
  · refine congrArg Outcome.next (runC_ok h ?_)
    have h41 : fieldOf f.imm 0 12 ≠ 0x41 := by unfold srOf at hn; omega
    have h50 : 0x50 ≤ fieldOf f.imm 0 12 := hn
    simp only [h41, if_false, h50, if_true]
    rfl
  · refine congrArg Outcome.next (runC_ok h ?_)
    have h41 : fieldOf f.imm 0 12 ≠ 0x41 := hne
    have h50 : ¬ 0x50 ≤ fieldOf f.imm 0 12 := Nat.not_le.mpr hlt
    simp only [h41, if_false, h50]
    rfl
  · refine congrArg Outcome.next (runC_ok h ?_)
    have h41' : fieldOf f.imm 0 12 = 0x41 := h41
    have h50 : ¬ 0x50 ≤ fieldOf f.imm 0 12 := by rw [h41']; decide
    simp only [h41', if_true, show ¬ 0x50 ≤ 0x41 by decide, if_false, retX_own, cenv_k, modThr_modThr]
    simp only [srOf, h41']
    rfl

/-- A change of a thread that leaves the thread as it is does not show in a bundle that completes. -/
theorem completed_unchanged {opc : Nat} {f : CForm} {s s1 : State} {late : Bool} {g : Thread → Thread} (hg : g (s1.thr s.curThread) = s1.thr s.curThread) :
    completed opc f s (s1.modThr s.curThread g) late = completed opc f s s1 late := by
  simp only [completed, finished, modThr_modThr]
  simp only [State.modThr, hg]

theorem bfmtWrite_reserved {s : State} {k i : Nat} {v : Word} (h : 24 ≤ fieldOf v 0 5) :
    bfmtWrite s k i v = s.modThr k fun t => { t with warn := t.warn ||| 4 } := by
  simp only [bfmtWrite, h, if_true]

/-- A write of a bank's format register warns of a reserved rounding code. -/
def roundWarned (s : State) (k : Nat) (v : Word) : State := if 6 ≤ fieldOf v 15 3 then s.modThr k fun t => { t with warn := t.warn ||| 4 } else s

theorem tiles_roundWarned (s : State) (k : Nat) (v : Word) : (roundWarned s k v).tiles = s.tiles := by unfold roundWarned; split <;> rfl
theorem dev_roundWarned (s : State) (k : Nat) (v : Word) : (roundWarned s k v).dev = s.dev := by unfold roundWarned; split <;> rfl
theorem tile_roundWarned (s : State) (k : Nat) (v : Word) (n : Nat) : (roundWarned s k v).tile n = s.tile n := by
  simp only [State.tile, tiles_roundWarned]

theorem bfmtWrite_accepted {s : State} {k i : Nat} {v : Word} (h : fieldOf v 0 5 < 24) :
    bfmtWrite s k i v = if isStage k && Tbl.get (s.tile (tileOf k)).bfmtAt 0 i = s.dev.cycles + 1 then roundWarned s k v else
      (roundWarned s k v).modTile (tileOf k) fun t => { t with
        bfmt := Machine.putV t.bfmt i (v &&& 0xFFFFF01F#64)
        bfmtAt := if isStage k then t.bfmtAt else Tbl.set t.bfmtAt i (s.dev.cycles + 1) } := by
  have hr : (if 6 ≤ fieldOf v 15 3 then s.modThr k fun t => { t with warn := t.warn ||| 4 } else s) = roundWarned s k v := rfl
  simp only [bfmtWrite, Nat.not_le.mpr h, if_false, hr, tile_roundWarned, dev_roundWarned]

/-- The warning of a write, as a change of the thread that may change nothing. -/
def roundNote (v : Word) (t : Thread) : Thread := { t with warn := t.warn ||| if decide (6 ≤ fieldOf v 15 3) then wFMT else 0 }

theorem roundNote_of_lt {v : Word} (h : ¬ 6 ≤ fieldOf v 15 3) (t : Thread) : roundNote v t = t := by simp [roundNote, h]

theorem roundWarned_of_le {s : State} {k : Nat} {v : Word} (h : 6 ≤ fieldOf v 15 3) : roundWarned s k v = s.modThr k (roundNote v) := by
  have hg : roundNote v = fun t => { t with warn := t.warn ||| 4 } := by funext t; simp only [roundNote, h, decide_true, if_true]; rfl
  rw [hg]
  exact if_pos h

theorem completed_roundWarned (opc : Nat) (f : CForm) (s : State) (late : Bool) (v : Word) :
    completed opc f s (roundWarned s s.curThread v) late = completed opc f s (own s (roundNote v)) late := by
  by_cases h : 6 ≤ fieldOf v 15 3
  · rw [roundWarned_of_le h, own]
  · rw [own, completed_unchanged (roundNote_of_lt h _)]
    simp only [roundWarned, h, if_false]

theorem completed_roundWarned_modTile (opc : Nat) (f : CForm) (s : State) (late : Bool) (v : Word) (j : Nat) (g : Tile → Tile) :
    completed opc f s ((roundWarned s s.curThread v).modTile j g) late = completed opc f s ((own s (roundNote v)).modTile j g) late := by
  by_cases h : 6 ≤ fieldOf v 15 3
  · rw [roundWarned_of_le h, own]
  · rw [show (own s (roundNote v)).modTile j g = (s.modTile j g).modThr s.curThread (roundNote v) from rfl, completed_unchanged (roundNote_of_lt h _)]
    simp only [roundWarned, h, if_false]

/-- A write of a trap register: denied outside a handler; in one, only `SR.TEPC` takes it. -/
def trapRegWrite (e : CEnv) (s : State) (n : Nat) : BRes :=
  if !(s.thr e.k).inh then denyWrite e s
  else if n = 0x31 then .ok (s.modThr e.k fun t => { t with tepc := e.a }) false
  else .ok s false

section
variable {f : CForm} {s : State}

theorem setsr_bank (h : Issues 0xB3 f s) (hlo : 0x10 ≤ srOf f) (hhi : srOf f < 0x20) :
    execSetsr f s = .next (completed 0xB3 f s (bfmtWrite s s.curThread (srOf f - 0x10) (cenv 0xB3 f s).a) false) :=
  congrArg Outcome.next (runC_ok h (if_pos (by simpa using ⟨hlo, hhi⟩)))

theorem setsr_mapping (h : Issues 0xB3 f s) (hlo : 0x20 ≤ srOf f) (hhi : srOf f < 0x30)
    (hr : (spmapWrite s s.curThread s.cur.ctx (srOf f - 0x20) (cenv 0xB3 f s).a).2 = true) :
    execSetsr f s = .next (completed 0xB3 f s (spmapWrite s s.curThread s.cur.ctx (srOf f - 0x20) (cenv 0xB3 f s).a).1 false) := by
  have h1 : ¬ (decide (0x10 ≤ fieldOf f.imm 0 12) && decide (fieldOf f.imm 0 12 < 0x20)) = true := by
    simp only [Bool.and_eq_true, decide_eq_true_eq]; unfold srOf at hlo; omega
  have h2 : (decide (0x20 ≤ fieldOf f.imm 0 12) && decide (fieldOf f.imm 0 12 < 0x30)) = true := by simpa using ⟨hlo, hhi⟩
  exact congrArg Outcome.next (runC_ok h ((if_neg h1).trans ((if_pos h2).trans (if_pos hr))))

theorem setsr_trapRegister (h : Issues 0xB3 f s) (hlo : 0x30 ≤ srOf f) (hhi : srOf f ≤ 0x37) :
    execSetsr f s = .next (runC 0xB3 f s fun e s => trapRegWrite e s (srOf f)) := by
  unfold execSetsr
  rw [runC_issues h, runC_issues h]
  refine congrArg (fun r => Outcome.next (settle s.curThread f (decodeWarn 0xB3 f) s.curPc (ticketOf f) r)) ?_
  have hlo' : 0x30 ≤ fieldOf f.imm 0 12 := hlo
  have hhi' : fieldOf f.imm 0 12 ≤ 0x37 := hhi
  have h1 : ¬ (decide (0x10 ≤ fieldOf f.imm 0 12) && decide (fieldOf f.imm 0 12 < 0x20)) = true := by
    simp only [Bool.and_eq_true, decide_eq_true_eq]; omega
  have h2 : ¬ (decide (0x20 ≤ fieldOf f.imm 0 12) && decide (fieldOf f.imm 0 12 < 0x30)) = true := by
    simp only [Bool.and_eq_true, decide_eq_true_eq]; omega
  have h3 : ¬ (decide (0x38 ≤ fieldOf f.imm 0 12) && decide (fieldOf f.imm 0 12 ≤ 0x3B)) = true := by
    simp only [Bool.and_eq_true, decide_eq_true_eq]; omega
  have h4 : (decide (0x30 ≤ fieldOf f.imm 0 12) && decide (fieldOf f.imm 0 12 ≤ 0x37)) = true := by simpa using ⟨hlo', hhi'⟩
  exact (if_neg h1).trans ((if_neg h2).trans ((if_neg h3).trans ((if_neg (by omega)).trans ((if_neg (by omega)).trans ((if_neg (by omega)).trans
    (if_pos h4))))))

end

theorem setsrResult : SetsrResult := by
  refine ⟨?_, fun f s h hn => ?_, fun f s h hlo hhi => ?_, fun f s h hlo hhi => ?_, fun f s h hlo hhi => ?_⟩
  · unfold srWrites
    simp only [List.forall_mem_cons, List.not_mem_nil, false_implies, implies_true, and_true]
    refine ⟨fun f s h hn => ?_, fun f s h hn => ?_, fun f s h hn => ?_, fun f s h hn => ?_, fun f s h hn => ?_, fun f s h hn => ?_, fun f s h hn => ?_⟩
    all_goals
      have hn' : fieldOf f.imm 0 12 = _ := hn
      refine congrArg Outcome.next (runC_ok h ?_)
      simp only [hn']
      rfl
  · refine congrArg Outcome.next (runC_ok h ?_)
    simp only [srReadOnly, List.mem_cons, List.not_mem_nil, or_false] at hn
    rcases hn with hn | hn | hn | hn | hn | hn | hn | hn | hn | hn
    all_goals
      have hn' : fieldOf f.imm 0 12 = _ := hn
      simp only [hn']
      rfl
  · refine ⟨fun hk => ?_, fun hk hs => ?_, fun hk hs => ?_⟩
    · exact (setsr_bank h hlo hhi).trans (by rw [bfmtWrite_reserved hk]; rfl)
    · obtain ⟨hst, hat⟩ := hs
      refine (setsr_bank h hlo hhi).trans (congrArg Outcome.next ?_)
      rw [bfmtWrite_accepted hk, if_pos (by simpa using ⟨hst, hat⟩)]
      exact completed_roundWarned ..
    · refine (setsr_bank h hlo hhi).trans (congrArg Outcome.next ?_)
      rw [bfmtWrite_accepted hk, if_neg (by simpa using fun hst hat => hs ⟨hst, hat⟩)]
      exact completed_roundWarned_modTile ..
  · exact setsr_mapping h hlo hhi
  · refine ⟨fun hinh => (setsr_trapRegister h hlo hhi).trans (congrArg Outcome.next (runC_ok h ?_)),
      fun hinh htr => (setsr_trapRegister h hlo hhi).trans (congrArg Outcome.next (runC_ok h ?_)),
      fun hinh htr => (setsr_trapRegister h hlo hhi).trans (congrArg Outcome.next (runC_trap h ?_))⟩
    all_goals
      have hinh' : (s.thr s.curThread).inh = _ := hinh
      simp only [trapRegWrite, cenv_k, hinh', Bool.not_true, Bool.not_false, Bool.false_eq_true, if_false, if_true, denyWrite]
    · split <;> rfl
    · have htr' : ¬ (s.thr s.curThread).traps.getLsbD 33 = true := Bool.eq_false_iff.mp htr
      exact if_neg htr'
    · exact if_pos htr

/-- Settles O32. -/
theorem stateRegisterResult : Obligations.StateRegisterResult := ⟨getsrResult, setsrResult⟩

end Sys2Proof.Proofs
end

section
/-!
PROOFS. `eret`, undelivered causes, `yield`, `trap`, `brk`, `meas` and the task instructions (R243 to R248, R252, R347).
-/
namespace Sys2Proof.Proofs
open Sys2Proof Sys2Proof.Machine Sys2Proof.Machine.State Sys2Proof.Claims
open Host (Outcome)

/-! ### `eret` -/

section
variable {f : CForm} {s : State} {n : Nat}

theorem eret_returns (h : Issues 0xBB f s) (hst : s.cur.stat = .handler) (hinh : s.cur.inh = true)
    (hfat : s.cur.traps.getLsbD (33 + s.cur.tcause.toNat) = false) (hrole : ∀ n, s.cur.role ≠ .faultHandler n) :
    execEret f s = .next (finished 0xBB f s (own s fun t => { t with stat := .live, inh := false, wait := t.hwait, hwait := .none }) false s.cur.tepc) := by
  refine congrArg Outcome.next (runC_jump h ?_)
  simp only [State.cur] at hst hinh hfat hrole
  simp only [cenv_k, hst, hinh, hfat, ne_eq, not_true_eq_false, decide_false, Bool.not_true, Bool.or_self, Bool.false_eq_true, if_false]
  rfl

theorem eret_resumes (h : Issues 0xBB f s) (hst : s.cur.stat = .handler) (hinh : s.cur.inh = true)
    (hfat : s.cur.traps.getLsbD (33 + s.cur.tcause.toNat) = false) (hrole : s.cur.role = .faultHandler n) :
    execEret f s = .next (endedAt 0xBB f s (resumeFrame (endThread s s.curThread) n)) := by
  refine congrArg Outcome.next (runC_stop h ?_)
  simp only [State.cur] at hst hinh hfat hrole
  simp only [cenv_k, hst, hinh, hfat, hrole, ne_eq, not_true_eq_false, decide_false, Bool.not_true, Bool.or_self, Bool.false_eq_true, if_false]

theorem eret_outside (h : Issues 0xBB f s) (hout : s.cur.stat ≠ .handler ∨ s.cur.inh = false) :
    execEret f s = .next (endedAt 0xBB f s (allotStop (stopThread s s.curThread) s.cur.ctx s.cur.allot cPRIV)) := by
  refine congrArg Outcome.next (runC_stop h (if_pos ?_))
  simp only [State.cur] at hout
  rcases hout with ho | ho <;> simp [ho]

theorem eret_fatal (h : Issues 0xBB f s) (hst : s.cur.stat = .handler) (hinh : s.cur.inh = true)
    (hfat : s.cur.traps.getLsbD (33 + s.cur.tcause.toNat) = true) (hrole : ∀ n, s.cur.role ≠ .faultHandler n) :
    execEret f s = .next (endedAt 0xBB f s (allotStop (stopThread s s.curThread) s.cur.ctx s.cur.allot s.cur.tcause)) := by
  refine congrArg Outcome.next (runC_stop h ?_)
  simp only [State.cur] at hst hinh hfat hrole
  simp only [cenv_k, hst, hinh, hfat, ne_eq, not_true_eq_false, decide_false, Bool.not_true, Bool.or_self, Bool.false_eq_true, if_false, if_true]
  rfl

theorem eret_fatalFrame (h : Issues 0xBB f s) (hst : s.cur.stat = .handler) (hinh : s.cur.inh = true)
    (hfat : s.cur.traps.getLsbD (33 + s.cur.tcause.toNat) = true) (hrole : s.cur.role = .faultHandler n) :
    execEret f s = .next (endedAt 0xBB f s
      (allotStop (stopThread (s.modAct n fun a => { a with stat := .stopped }) s.curThread) s.cur.ctx s.cur.allot s.cur.tcause)) := by
  refine congrArg Outcome.next (runC_stop h ?_)
  simp only [State.cur] at hst hinh hfat hrole
  simp only [cenv_k, hst, hinh, hfat, hrole, ne_eq, not_true_eq_false, decide_false, Bool.not_true, Bool.or_self, Bool.false_eq_true, if_false, if_true]
  rfl

end

/-- Settles O34. -/
theorem eretResult : Obligations.EretResult :=
  ⟨fun _ _ _ pc addr info => ⟨takeTrap_of_undelivered pc addr info, takeTrap_of_inHandler pc addr info⟩,
    fun _ _ h hst hinh hfat hrole => eret_returns h hst hinh hfat hrole, fun _ _ _ h hst hinh hfat hrole => eret_resumes h hst hinh hfat hrole,
    fun _ _ h hout => eret_outside h hout, fun _ _ h hst hinh hfat hrole => eret_fatal h hst hinh hfat hrole,
    fun _ _ _ h hst hinh hfat hrole => eret_fatalFrame h hst hinh hfat hrole⟩

/-! ### `yield`, `trap`, `brk` and `meas` -/

theorem yieldResult : YieldResult := by
  intro f s h n
  refine congrArg Outcome.next (runC_ok h ?_)
  show (if n = 0 then BRes.ok s false else _) = _
  by_cases hn : n = 0
  · simp only [hn, if_true]
  · simp only [hn, if_false]; rfl

theorem trapInstructionResult : TrapInstructionResult := by
  unfold TrapInstructionResult
  simp only [List.forall_mem_cons, List.not_mem_nil, false_implies, implies_true, and_true]
  have hinfo (f : CForm) : BitVec.ofNat 64 (fieldOf f.imm 0 16) = (f.imm.extractLsb' 0 16).setWidth 64 := by
    apply BitVec.eq_of_toNat_eq
    simp [fieldOf, BitVec.extractLsb'_toNat]
  exact ⟨fun f s h => hinfo f ▸ congrArg Outcome.next (runC_after h rfl), fun f s h => hinfo f ▸ congrArg Outcome.next (runC_after h rfl)⟩

theorem measureResult : MeasureResult := by
  intro f s s1 bs h e hw hlen hd hread s2 hhub
  obtain ⟨u, hw⟩ := hw
  refine congrArg Outcome.next (runC_ok h ?_)
  have hdrain : (decide (2 ≤ f.scope) && drainHeld s (tileOf s.curThread) fun _ => true) = false := by
    by_cases h2 : 2 ≤ f.scope
    · simp [hd h2]
    · simp [h2]
  have hw' : checkWindow (cenv 0xBA f s).a (cenv 0xBA f s).b.toNat = .ok u := hw
  have hlen' : ¬ 2 ^ 32 < (cenv 0xBA f s).b.toNat := Nat.not_lt.mpr hlen
  have hread' : readRange (releaseAt s (tileOf s.curThread) f.scope) { curAgent s with dev := true } (cenv 0xBA f s).a (cenv 0xBA f s).b.toNat =
    (s1, .ok bs) := hread
  have hhub' : (appendEvent s1 s.cur.ctx 5 bs).hubWait = false := hhub
  simp only [hw', hlen', if_false, cenv_tile, hdrain, Bool.false_eq_true, cenv_agent, hread', cenv_ctx, hhub']
  rfl

/-- Settles O36. -/
theorem turnInstructionResult : Obligations.TurnInstructionResult := ⟨yieldResult, trapInstructionResult, measureResult⟩

end Sys2Proof.Proofs
end

section
/-!
PROOFS. The task instructions (R245 to R247, R347), and what a bundle that does not have its own effect does (R92 to R100, R254, R365).
-/
namespace Sys2Proof.Proofs
open Sys2Proof Sys2Proof.Machine Sys2Proof.Machine.State Sys2Proof.Claims
open Host (Outcome)

/-! ### `task.post`, `chan.blk` and `task.cancel` -/

section
variable {f : CForm} {s : State}

theorem taskPost_reads {s1 s2 : State} {k : Nat} {rec : List Byte} (h : Issues 0xB8 f s) (hd : drainHeld s (tileOf s.curThread) (fun _ => true) = false)
    (hr : resolve s (curAgent s) (cenv 0xB8 f s).a 32 8 .rd = (s1, .ok k))
    (hread : readRange (releaseDevice s1 (tileOf s.curThread)) { curAgent s with dev := true } (cenv 0xB8 f s).a 32 = (s2, .ok rec))
    (ht : typeBeyond (taskQ s2 s.cur.ctx (s2.thr s.curThread).allot) (leNat (rec.take 2)) = false) :
    (taskQ s2 s.cur.ctx (s2.thr s.curThread).allot = none →
      execTaskPost f s = .next (completed 0xB8 f s (s2.modThr s.curThread fun t => t.xw f.d.toNat 0) false)) ∧
    (∀ q, taskQ s2 s.cur.ctx (s2.thr s.curThread).allot = some q →
      let r := if 2 ^ q.logq ≤ (q.tail + 2 ^ 32 - q.head) % 2 ^ 32 then (s2, 0) else postTask s2 s.cur.ctx (s2.thr s.curThread).allot q rec
      execTaskPost f s = .next (completed 0xB8 f s (r.1.modThr s.curThread fun t => t.xw f.d.toNat r.2) false)) := by
  refine ⟨fun hq => congrArg Outcome.next (runC_ok h ?_), fun q hq => congrArg Outcome.next (runC_ok h ?_)⟩
  all_goals
    rw [hq] at ht
    simp only [cenv_tile, cenv_k, cenv_ctx, cenv_agent, hd, Bool.false_eq_true, if_false, hr, hread, hq, ht]
  · rfl
  · split <;> rfl

theorem chanBlk_writes {q : TaskQ} (h : Issues 0xB9 f s) (hq : taskQ s s.cur.ctx s.cur.allot = some q) (hn : (cenv 0xB9 f s).a.toNat < q.ntype) :
    execChanBlk f s = .next (completed 0xB9 f s (writeHome s (q.ttbase + 64 * (cenv 0xB9 f s).a.toNat + 17)
      [(Memory.read s.mem (q.ttbase + 64 * (cenv 0xB9 f s).a.toNat + 17) &&& 0xFE) ||| (if (cenv 0xB9 f s).b.getLsbD 0 then 1 else 0)]) false) := by
  refine congrArg Outcome.next (runC_ok h ?_)
  have hq' : taskQ s s.cur.ctx (s.thr s.curThread).allot = some q := hq
  simp only [cenv_ctx, cenv_k, hq', Nat.not_le.mpr hn, if_false]

theorem taskCancel_first (h : Issues 0xBC f s) (hf : firstCancel s (cenv 0xBC f s).a) :
    let r := cancelTask s s.cur.ctx (cenv 0xBC f s).a
    execTaskCancel f s = .next (completed 0xBC f s ((noteCancel r.1 (cancelOf s f r.2)).modThr s.curThread fun t => t.xw f.d.toNat r.2) false) := by
  intro r
  refine congrArg Outcome.next (runC_ok h ?_)
  have hnone : s.dev.cancels.find? (fun c => c.cycle = s.dev.cycles && c.id = (cenv 0xBC f s).a && (s.thr c.thread).ctx = (cenv 0xBC f s).ctx) = none := by
    simp only [List.find?_eq_none, Bool.and_eq_true, decide_eq_true_eq, not_and, and_imp]
    exact fun c hc hcy hid => hf c hc hcy hid
  simp only [hnone]
  rfl

theorem taskCancel_second {c : Cancel} (h : Issues 0xBC f s)
    (hc : s.dev.cancels.find? (fun c => c.cycle = s.dev.cycles && c.id = (cenv 0xBC f s).a && (s.thr c.thread).ctx = s.cur.ctx) = some c) :
    execTaskCancel f s = .next (completed 0xBC f s (if tileOf c.thread ≤ tileOf s.curThread then own s fun t => t.xw f.d.toNat 2
      else (noteCancel (s.modThr c.thread fun t => t.xw c.reg 2) (cancelOf s f c.status)).modThr s.curThread fun t => t.xw f.d.toNat c.status) false) := by
  refine congrArg Outcome.next (runC_ok h ?_)
  have hc' : s.dev.cancels.find? (fun c => c.cycle = s.dev.cycles && c.id = (cenv 0xBC f s).a && (s.thr c.thread).ctx = (cenv 0xBC f s).ctx) = some c := hc
  simp only [hc']
  by_cases ht : tileOf c.thread ≤ tileOf s.curThread
  · exact (if_pos ht).trans (by rw [if_pos ht]; rfl)
  · exact (if_neg ht).trans (by rw [if_neg ht]; rfl)

theorem cancelTask_queued {id : Word} {t : Task} (h : s.tasks.find? (isQueued s id) = some t) :
    cancelTask s s.cur.ctx id = (syncHead { s with tasks := s.tasks.filter fun u => !isQueued s id u } s.cur.ctx t.allot, 0) := by
  have h' : s.tasks.find? (fun t => t.ctx = s.cur.ctx && t.call.isNone && t.id = id) = some t := h
  simp only [cancelTask, h']
  rfl

theorem cancelTask_gone {id : Word} (h : s.tasks.find? (isQueued s id) = none) :
    (∀ kt, List.find? (fun kt : Nat × Thread => justSent s id kt.2) s.threads = some kt →
      cancelTask s s.cur.ctx id = (s.setThr kt.1 { kt.2 with cancelq := true }, 1)) ∧
    (List.find? (fun kt : Nat × Thread => justSent s id kt.2) s.threads = none →
      cancelTask s s.cur.ctx id = (s, if s.acts.any fun ka => ka.2.ctx = s.cur.ctx && ka.2.task = some (id, s.dev.cycles) then 1 else 2)) := by
  have h' : s.tasks.find? (fun t => t.ctx = s.cur.ctx && t.call.isNone && t.id = id) = none := h
  refine ⟨fun kt hk => ?_, fun hk => ?_⟩
  all_goals
    simp only [justSent] at hk
    simp only [cancelTask, h', hk]

end

/-- Settles O35. -/
theorem taskResult : Obligations.TaskResult := by
  refine ⟨fun f s s1 s2 k rec h hd hr hread => ?_, fun f s q h hq hn => chanBlk_writes h hq hn, fun f s t h hf ht => ?_, fun f s h hf ht => ?_,
    fun f s c h => taskCancel_second h⟩
  · intro allot q fill ht
    obtain ⟨hnone, hsome⟩ := taskPost_reads h hd hr hread ht
    have hq : taskQ s2 s.cur.ctx (s2.thr s.curThread).allot = q := rfl
    cases hc : q with
    | none => exact hnone (hq.trans hc)
    | some q' =>
      refine (hsome q' (hq.trans hc)).trans ?_
      dsimp only
      split <;> rfl
  · have hc := taskCancel_first h hf
    rw [cancelTask_queued ht] at hc
    exact hc
  · have hc := taskCancel_first h hf
    obtain ⟨hsome, hnone⟩ := cancelTask_gone ht
    dsimp only
    cases hk : List.find? (fun kt : Nat × Thread => justSent s (cenv 0xBC f s).a kt.2) s.threads with
    | some kt => rw [hsome kt hk] at hc; exact hc
    | none => rw [hnone hk] at hc; exact hc

/-! ### When a bundle does not issue, or has no effect -/

section
variable {opc : Nat} {f : CForm} {s : State} {body : CEnv → State → BRes}

/-- A bundle that is not stopped before its tickets are asked for. -/
structure ReadyBundle (opc : Nat) (f : CForm) (s : State) : Prop where
  running : s.cur.running = true
  counts  : beyondAny opc f s.cur = false
  unit    : workDenied s s.curThread opc = false
  warn    : decodeWarn opc f = 0 ∨ s.cur.traps.getLsbD 33 = false

/-- The tickets that a bundle awaits are zero, and its own is below its limit. -/
def TicketsFree (f : CForm) (t : Thread) : Prop :=
  (∀ n < 8, f.need.getLsbD n = true → getV t.tickets 0 n = 0) ∧ ∀ n, ticketOf f = some n → getV t.tickets 0 n < 63

/-- The tickets that a bundle awaits are not zero. -/
def awaits (f : CForm) (t : Thread) : Bool := (List.range 8).any fun n => f.need.getLsbD n && getV t.tickets 0 n ≠ 0

/-- What the issue makes of the operands: it waits for an empty one, traps for one that may be empty or is poisoned, or has the bundle's meaning. -/
def sourced (opc : Nat) (f : CForm) (s : State) (body : CEnv → State → BRes) : State :=
  if emptyReg s.cur (regIx (useOf opc f).d f.d) || (srcsOf opc f).any (fun x => emptyReg s.cur x.1 && !x.2.1) then s
  else match (srcsOf opc f).find? (fun x => emptyReg s.cur x.1) with
    | some x => settle s.curThread f (decodeWarn opc f) s.curPc (ticketOf f) (.trap s cEMPTY_READ 0 (BitVec.ofNat 64 x.2.2))
    | none =>
      match firstPoison s.cur (readsOf opc f) with
      | some p => settle s.curThread f (decodeWarn opc f) s.curPc (ticketOf f) (poisTrap s p)
      | none => settle s.curThread f (decodeWarn opc f) s.curPc (ticketOf f) (body (cenv opc f s) s)

theorem ticketsFree_iff {t : Thread} : TicketsFree f t ↔ awaits f t = false ∧ ticketFull t f = false := by
  refine and_congr ?_ ?_
  · simp [awaits, List.any_eq_false]
  · unfold ticketFull
    cases ticketOf f <;> simp

/-- The facts of a bundle that is ready, as the issue asks for them. -/
theorem ReadyBundle.asked (h : ReadyBundle opc f s) : (s.thr s.curThread).running = true ∧ beyondAny opc f (s.thr s.curThread) = false ∧
    (decide (decodeWarn opc f ≠ 0) && (s.thr s.curThread).traps.getLsbD 33) = false := by
  refine ⟨h.running, h.counts, ?_⟩
  rcases h.warn with hw | hw
  · simp [hw]
  · rw [show (s.thr s.curThread).traps.getLsbD 33 = false from hw, Bool.and_false]

/-- A bundle that waits for a ticket leaves the state as it is. -/
theorem runC_awaits (h : ReadyBundle opc f s) (ht : ¬ TicketsFree f s.cur) : runC opc f s body = s := by
  obtain ⟨hrun, hcnt, hwarn⟩ := h.asked
  have hor : awaits f s.cur = true ∨ ticketFull s.cur f = true := by
    refine Classical.byContradiction fun hno => ht (ticketsFree_iff.mpr ?_)
    simpa using hno
  unfold runC
  simp only [hrun, hcnt, h.unit, hwarn, Bool.not_true, Bool.false_eq_true, if_false]
  rcases hor with ha | hf
  · exact if_pos ha
  · by_cases ha : awaits f s.cur = true
    · exact if_pos ha
    · exact (if_neg ha).trans (if_pos hf)

/-- What follows once no ticket is awaited. -/
theorem runC_ticketed (h : ReadyBundle opc f s) (ht : TicketsFree f s.cur) : runC opc f s body =
    if !maskedOpc opc f && !guardOf s.cur f then issued s s.curThread f (decodeWarn opc f) (s.curPc + 16)
    else if behindHeld s.cur opc then s else sourced opc f s body := by
  obtain ⟨hrun, hcnt, hwarn⟩ := h.asked
  obtain ⟨ha, hf⟩ := ticketsFree_iff.mp ht
  unfold runC
  simp only [hrun, hcnt, h.unit, hwarn, Bool.not_true, Bool.false_eq_true, if_false]
  exact (if_neg (Bool.eq_false_iff.mp ha)).trans (if_neg (Bool.eq_false_iff.mp hf))

theorem runC_masked (h : ReadyBundle opc f s) (ht : TicketsFree f s.cur) (hg : ¬ (maskedOpc opc f = true ∨ guardOf s.cur f = true)) :
    runC opc f s body = completed opc f s s false := by
  rw [runC_ticketed h ht, if_pos (by simpa using hg), ← settle_ok]
  rfl

theorem runC_behind (h : ReadyBundle opc f s) (ht : TicketsFree f s.cur) (hg : maskedOpc opc f = true ∨ guardOf s.cur f = true)
    (hb : ¬ behindHeld s.cur opc = false) : runC opc f s body = s := by
  rw [runC_ticketed h ht, if_neg (by simpa [Decidable.imp_iff_not_or] using hg), if_pos (by simpa using hb)]

theorem runC_sourced (h : ReadyBundle opc f s) (ht : TicketsFree f s.cur) (hg : maskedOpc opc f = true ∨ guardOf s.cur f = true)
    (hb : behindHeld s.cur opc = false) : runC opc f s body = sourced opc f s body := by
  rw [runC_ticketed h ht, if_neg (by simpa [Decidable.imp_iff_not_or] using hg), if_neg (by simpa using hb)]

theorem sourced_waits (h : emptyReg s.cur (regIx (useOf opc f).d f.d) = true ∨ ∃ y ∈ srcsOf opc f, emptyReg s.cur y.1 = true ∧ y.2.1 = false) :
    sourced opc f s body = s := by
  refine if_pos ?_
  rcases h with hd | ⟨y, hy, he, hm⟩
  · rw [hd, Bool.true_or]
  · have hany : (srcsOf opc f).any (fun x => emptyReg s.cur x.1 && !x.2.1) = true := List.any_eq_true.mpr ⟨y, hy, by simp [he, hm]⟩
    rw [hany, Bool.or_true]

/-- Where no register makes it wait, a source that its `FEM` bit lets be empty traps, or else the first poison mark that it reads. -/
theorem sourced_reads (hd : emptyReg s.cur (regIx (useOf opc f).d f.d) = false) (hs : ∀ y ∈ srcsOf opc f, emptyReg s.cur y.1 = true → y.2.1 = true) :
    (∀ y, (srcsOf opc f).find? (fun y => emptyReg s.cur y.1) = some y →
      sourced opc f s body = takeTrap (endedAt opc f s s) s.curThread cEMPTY_READ s.curPc 0 (BitVec.ofNat 64 y.2.2)) ∧
    (∀ p, (∀ y ∈ srcsOf opc f, emptyReg s.cur y.1 = false) → firstPoison s.cur (readsOf opc f) = some p →
      sourced opc f s body = takeTrap (endedAt opc f s s) s.curThread p.cause s.curPc p.addr (if p.cause = cPOISON then 1 else 0)) := by
  have hany : ¬ (emptyReg s.cur (regIx (useOf opc f).d f.d) || (srcsOf opc f).any (fun x => emptyReg s.cur x.1 && !x.2.1)) = true := by
    rw [hd, Bool.false_or, Bool.not_eq_true]
    refine List.any_eq_false.mpr fun y hy => ?_
    cases he : emptyReg s.cur y.1
    · simp
    · simp [hs y hy he]
  unfold sourced
  rw [if_neg hany]
  refine ⟨fun y hy => ?_, fun p hfull hp => ?_⟩
  · simp only [hy]; rfl
  · have hnone : (srcsOf opc f).find? (fun y => emptyReg s.cur y.1) = none := List.find?_eq_none.mpr fun y hy => by simp [hfull y hy]
    simp only [hnone, hp]; rfl

theorem runC_stopped (h : s.cur.running = false) : runC opc f s body = s := by
  have h' : (s.thr s.curThread).running = false := h
  unfold runC
  simp only [h', Bool.not_false, if_true]

/-- A bundle that runs traps for a register beyond the counts, for a unit that is not its group's, and for a decode warning that traps, in this order. -/
theorem runC_traps (hrun : s.cur.running = true) :
    (beyondAny opc f s.cur = true → runC opc f s body = takeFetchTrap s s.curThread cILLEGAL_OPC 0 (BitVec.ofNat 64 (opc * 16 + f.cls.toNat) ||| 0x1000#64)) ∧
    (beyondAny opc f s.cur = false → workDenied s s.curThread opc = true → runC opc f s body = takeFetchTrap s s.curThread cPRIV 0 2) ∧
    (beyondAny opc f s.cur = false → workDenied s s.curThread opc = false → decodeWarn opc f ≠ 0 → s.cur.traps.getLsbD 33 = true →
      runC opc f s body = takeFetchTrap s s.curThread cILLEGAL_OPC 0 (0x8000000000000000#64 ||| (decodeWarn opc f).setWidth 64)) := by
  have hrun' : (s.thr s.curThread).running = true := hrun
  unfold runC
  refine ⟨fun hc => ?_, fun hc hu => ?_, fun hc hu hw ht => ?_⟩
  all_goals
    have hc' : beyondAny opc f (s.thr s.curThread) = _ := hc
    simp only [hrun', hc', Bool.not_true, Bool.false_eq_true, if_false, if_true]
  · exact if_pos hu
  · simp only [hu, Bool.false_eq_true, if_false]
    exact if_pos (by rw [show (s.thr s.curThread).traps.getLsbD 33 = true from ht]; simpa using hw)

/-- A trap of the fetch is taken at the pc, after the bundle has counted as issued. -/
theorem takeFetchTrap_cur (s : State) (c : BitVec 6) (a i : Word) :
    takeFetchTrap s s.curThread c a i = takeTrap (own s fun t => { t with issued := t.issued + 1 }) s.curThread c s.curPc a i := by
  simp only [takeFetchTrap, own, thr_modThr]
  rfl

end

theorem plainBundles_runC : ∀ x ∈ plainBundles, ∀ (f : CForm) (s : State), ∃ body, exec (x.1 f) s = .next (runC x.2 f s body) := by
  unfold plainBundles
  simp only [List.forall_mem_cons, List.not_mem_nil, false_implies, implies_true, and_true]
  exact ⟨fun _ _ => ⟨_, rfl⟩, fun _ _ => ⟨_, rfl⟩, fun _ _ => ⟨_, rfl⟩, fun _ _ => ⟨_, rfl⟩, fun _ _ => ⟨_, rfl⟩, fun _ _ => ⟨_, rfl⟩, fun _ _ => ⟨_, rfl⟩,
    fun _ _ => ⟨_, rfl⟩, fun _ _ => ⟨_, rfl⟩, fun _ _ => ⟨_, rfl⟩, fun _ _ => ⟨_, rfl⟩, fun _ _ => ⟨_, rfl⟩, fun _ _ => ⟨_, rfl⟩, fun _ _ => ⟨_, rfl⟩⟩

/-- Settles O37. -/
theorem issueRules : Obligations.IssueRules := by
  intro x hx f s opc t dest ready tickets guard clear
  obtain ⟨body, hi⟩ := plainBundles_runC x hx f s
  have hready : ready → ReadyBundle opc f s := fun ⟨hr, hc, hu, hw⟩ => ⟨hr, hc, hu, hw⟩
  simp only [hi, Outcome.next.injEq]
  refine ⟨runC_stopped, fun hr hc => ?_, fun hr hc hu => ?_, fun hr hc hu hw ht => ?_, fun h ht => runC_awaits (hready h) ht,
    fun h ht hg => runC_masked (hready h) ht hg, fun h ht hg hb => runC_behind (hready h) ht hg hb, fun h ht hg hb hw => ?_,
    fun h ht hg hb hd hs y hy => ?_, fun h ht hg hb hd hs p hp => ?_⟩
  · exact ((runC_traps hr).1 hc).trans (takeFetchTrap_cur ..)
  · exact ((runC_traps hr).2.1 hc hu).trans (takeFetchTrap_cur ..)
  · exact ((runC_traps hr).2.2 hc hu hw ht).trans (takeFetchTrap_cur ..)
  · exact (runC_sourced (hready h) ht hg hb).trans (sourced_waits hw)
  · exact (runC_sourced (hready h) ht hg hb).trans ((sourced_reads hd hs).1 y hy)
  · exact (runC_sourced (hready h) ht hg hb).trans ((sourced_reads hd fun y hy he => absurd he (Bool.eq_false_iff.mp (hs y hy))).2 p hs hp)

end Sys2Proof.Proofs
end

section
/-!
PROOFS. Events of threads, memory and translation (R17, R90, R94, R96, R152, R240, R276, R285, R401, R402, R421).
-/
namespace Sys2Proof.Proofs
open Sys2Proof Sys2Proof.Machine Sys2Proof.Machine.State Sys2Proof.Claims
open Host (Outcome)

/-! ### Fills -/

theorem modThr_congr {s : State} {k : Nat} {f g : Thread → Thread} (h : f (s.thr k) = g (s.thr k)) : s.modThr k f = s.modThr k g := by
  simp only [State.modThr, h]

theorem modTile_congr {s : State} {k : Nat} {f g : Tile → Tile} (h : f (s.tile k) = g (s.tile k)) : s.modTile k f = s.modTile k g := by
  simp only [State.modTile, h]

/-- A status is owed as a trap where an `e.wait.t` waits and the status traps. -/
theorem owe_isEmpty (w : Option (Word × Bool)) (h st : Word) : (owe w h st).isEmpty = !(w.isSome && (statusTrap h st).isSome) := by
  unfold owe
  cases w <;> cases statusTrap h st <;> rfl

theorem filledStatus_owes (s : State) (k i : Nat) (f : Fill) (w : Option (Word × Bool)) (h st : Word) :
    filledStatus s k i f w h st = acquireDevice ((arrives s k i f f.reg (st.setWidth 2048) none).modThr k fun t =>
      { t with owed := t.owed ++ owe w h st }) (tileOf k) := rfl

theorem fillStatus_fills {s : State} {k i : Nat} {f : Fill} (hf : (s.thr k).fills[i]? = some f) (w : Option (Word × Bool)) (h st : Word) :
    fillStatus s k i w h st = filledStatus s k i f w h st := by
  rw [filledStatus_owes, arrives, modThr_modThr]
  simp only [fillStatus, hf]
  rfl

section
variable {s : State} {k i : Nat} {f : Fill} (hf : (s.thr k).fills[i]? = some f) (herr : f.err = false)
include hf herr

theorem fill_value (hk : f.kind = .value) : execLongLatencyFill k i s = .next (arrives s k i f f.reg f.val f.pois) := by
  simp only [execLongLatencyFill, hf, herr, Bool.false_eq_true, if_false, hk]
  rfl

theorem fill_reap {n : Nat} (hk : f.kind = .reap n) (hn : (s.thr n).stat = .ended) :
    execLongLatencyFill k i s = .next (arrives (s.setThr n { s.thr n with stat := .free }) k i f f.reg (((s.thr n).xr 10).setWidth 2048) none) := by
  simp only [execLongLatencyFill, hf, herr, Bool.false_eq_true, if_false, hk, hn, if_true]
  rfl

theorem fill_gone {h : Word} {w : Option (Word × Bool)} (hk : f.kind = .errand h w) (hn : errandOf s (s.thr k).ctx h = none) :
    execLongLatencyFill k i s = .next (filledStatus s k i f w h 3) := by
  simp only [execLongLatencyFill, hf, herr, Bool.false_eq_true, if_false, hk, hn, fillStatus_fills hf]

theorem fill_final {h : Word} {w : Option (Word × Bool)} {x : Nat × Nat × Errand} (hk : f.kind = .errand h w) (hx : errandOf s (s.thr k).ctx h = some x)
    (hfin : x.2.2.st.final = true) :
    execLongLatencyFill k i s = .next (if (owe w h (statusOf (some x.2.2))).isEmpty then reap (filledStatus s k i f w h (statusOf (some x.2.2))) x.1 x.2.1
      else filledStatus s k i f w h (statusOf (some x.2.2))) := by
  simp only [execLongLatencyFill, hf, herr, Bool.false_eq_true, if_false, hk, hx, hfin, Bool.not_true, fillStatus_fills hf]

theorem fill_status {h st : Word} {w : Option (Word × Bool)} (hk : f.kind = .status h st w) :
    execLongLatencyFill k i s = .next (filledStatus s k i f w h st) := by
  simp only [execLongLatencyFill, hf, herr, Bool.false_eq_true, if_false, hk, fillStatus_fills hf]

end

/-! ### Events of a thread -/

theorem fetchTrap_takes {s s1 : State} {k : Nat} {c : BitVec 6} {a i : Word} (hrun : (s.thr k).running = true) (hres : residentOk s k = true)
    (hon : runsOn s (tileOf k) (s.thr k).ctx = true) (hrole : (s.thr k).role ≠ .firmware) (hw : (s.thr k).wait = .none) (hh : (s.thr k).hold = 0)
    (hf : fetchC (toSlot s k) (tileOf k) (s.thr k).ctx (s.thr k).pc = (s1, .trap c a i)) : execFetchTrap k s = .next (takeFetchTrap s1 k c a i) := by
  unfold residentOk at hres
  refine congrArg Outcome.next ((if_neg ?_).trans ?_)
  · cases hg : (s.tile (tileOf k)).group with
    | none => simp [hrun, hw, hh, hon, hrole]
    | some g =>
      have hr : g.resid = .resident := by simpa [hg] using hres
      simp [hrun, hw, hh, hon, hrole, hr]
  · simp only [hf]

theorem crossCallReturn_fills {s s1 : State} {k i : Nat} {f : Fill} {fa v : Word} (hrun : (s.thr k).running = true)
    (hw : (s.thr k).wait = .call ∨ (s.thr k).hwait = .call)
    (hi : (s.thr k).fills.findIdx? (fun f => match f.kind with | .call _ => true | _ => false) = some i) (hf : (s.thr k).fills[i]? = some f)
    (hk : f.kind = .call fa) (hd : frameDone s { tile := tileOf k, ctx := (s.thr k).ctx } fa = (s1, some v)) :
    execCrossCallReturn k s = .next (s1.modThr k fun t =>
      { ({ t with fills := t.fills.eraseIdx i }.arrive 10 (v.setWidth 2048) none).dropTicket f.ticket with
        wait := if t.wait = .call then .none else t.wait, hwait := if t.hwait = .call then .none else t.hwait }) := by
  refine congrArg Outcome.next ((if_neg ?_).trans ?_)
  · rcases hw with h | h <;> simp [hrun, h]
  · split
    · next e => exact absurd (e.symm.trans hi) (by simp)
    · next j e =>
      obtain rfl : j = i := Option.some.inj (e.symm.trans hi)
      simp only [hf, hk, hd]

theorem threadEventResult : ThreadEventResult := by
  refine ⟨fun s s1 k c a i hrun hres hon hrole hw hh hf => fetchTrap_takes hrun hres hon hrole hw hh hf,
    fun s k i f hf herr => ⟨fill_value hf herr, fun n => fill_reap hf herr, fun h w => fill_gone hf herr, fun h w x hk hx hfin => ⟨fun ht => ?_, fun ht => ?_⟩,
      fun h st w => fill_status hf herr⟩,
    fun s k i w hw => ⟨fun he => ?_, fun a he => ?_⟩, fun s k i f hf herr => ?_,
    fun s s1 k i f fa v hrun hw hi hf hk hd => crossCallReturn_fills hrun hw hi hf hk hd⟩
  · exact (fill_final hf herr hk hx hfin).trans (congrArg Outcome.next (if_neg (by rw [owe_isEmpty, ht.1, ht.2]; decide)))
  · exact (fill_final hf herr hk hx hfin).trans (congrArg Outcome.next (if_pos (by
      rw [owe_isEmpty, Bool.not_eq_true', Bool.and_eq_false_iff]
      refine Classical.byContradiction fun hno => ht ?_
      rwa [not_or, Bool.not_eq_false, Bool.not_eq_false] at hno)))
  · refine congrArg Outcome.next ?_
    simp only [hw, he, Option.isSome_none, Bool.false_eq_true, if_false]
    rfl
  · refine congrArg Outcome.next ?_
    simp only [hw, he, if_true]
    rfl
  · refine congrArg Outcome.next ?_
    simp only [hf, herr, Bool.false_eq_true, if_false, Bool.not_true]
    rfl

/-! ### Events of memory and translation -/

section
variable {s s1 : State} {i : Nat} {w : Walk}

theorem walkComplete_ends {l : Leaf} (hw : running? s i = some w) (hr : walk s w.die w.ctx w.va.toNat = (s1, .ok l)) :
    let s2 := (w.tiles ++ w.waiting.map (·.1)).foldl (fun s t => tlbInstall s t
      { ctx := w.ctx, page := w.va.toNat >>> l.bits, bits := l.bits, leaf := l.word, ns := l.lease.1, lease := l.lease.2 })
      { s1 with walks := s1.walks.eraseIdx i }
    let r := bringLines s2 w.ctx l.word l.bits w.lines
    execWalkComplete i s = .next (if !grants l.word .rd then s2 else if r.2.isEmpty then r.1
      else { r.1 with walks := r.1.walks ++ [{ w with tiles := [], waiting := [], lines := r.2 }] }) := by
  refine congrArg Outcome.next ?_
  simp only [hw, hr]
  rfl

theorem walkComplete_fails {f : Fail} (hw : running? s i = some w) (hr : walk s w.die w.ctx w.va.toNat = (s1, .error f)) :
    execWalkComplete i s = .next (if f = notYet then s1 else walkFailed s1 i w f) := by
  refine congrArg Outcome.next ?_
  simp only [hw, hr]

end

theorem lineEviction_scratchpad {s : State} {ln sk : Nat} (hm : Tbl.find? s.mapped ln = some sk) (hh : spHas s sk = true)
    (hd : (s.tile (placeTile sk)).spDirty.getLsbD (sk % 2 ^ 20 / 128) = true) :
    execLineEviction 512 ln s = .next (if (route s (dieOf (placeTile sk)) (homeDie ln)).isSome
      then spLineBack s (placeTile sk) (sk % 2 ^ 20 / 128) ln else s) := by
  have hdirty : spIsDirty s sk = true := by simp only [spIsDirty, hh, hd, Bool.and_self]
  simp only [execLineEviction, if_true, hm, hdirty, Bool.true_and]

theorem leaseExpiry_tlb {s : State} {u i : Nat} {e : TlbEntry} (hu : u < 512) (he : (s.tile u).tlb[i]? = some e) (hl : e.live s.dev.hubNs = false) :
    execLeaseExpiry u i s = .next (s.modTile u fun t => { t with tlb := t.tlb.eraseIdx i }) := by
  refine congrArg Outcome.next ((if_pos hu).trans (modTile_congr ?_))
  simp only [dropExpired, he, hl, Bool.false_eq_true, if_false]

theorem memoryEventResult : MemoryEventResult := by
  refine ⟨fun s ln ha hi => ?_, fun s c hc => congrArg Outcome.next (if_pos hc), fun s t ln l ht hl => ?_, fun s t ln ht => ?_,
    fun s ln sk hm hh hd => lineEviction_scratchpad hm hh hd, fun s s1 i w l hw hr => ⟨fun hg => ?_, fun hg => ?_⟩,
    fun s s1 i w f hw hr => walkComplete_fails hw hr, fun s i w hw => ?_, fun s u i e hu he hl => leaseExpiry_tlb hu he hl, fun s u i e hu he hl => ?_⟩
  · exact congrArg Outcome.next (if_neg (by simp [ha, hi]))
  · refine congrArg Outcome.next ?_
    simp only [show t ≠ 512 by omega, if_false, show ¬ 512 < t by omega, hl]
  · exact congrArg Outcome.next ((if_neg (by omega)).trans (if_pos ht))
  · exact (walkComplete_ends hw hr).trans (congrArg Outcome.next (if_pos (by rw [hg]; rfl)))
  · exact (walkComplete_ends hw hr).trans (congrArg Outcome.next (if_neg (by rw [hg]; decide)))
  · refine congrArg Outcome.next ?_
    simp only [hw]
  · refine congrArg Outcome.next ((if_neg (Nat.not_lt.mpr hu)).trans ?_)
    simp only [he, hl, Bool.false_eq_true, if_false]

/-- Settles O38. -/
theorem threadAndMemoryEventResult : Obligations.ThreadAndMemoryEventResult := ⟨threadEventResult, memoryEventResult⟩

end Sys2Proof.Proofs
end

section
/-!
PROOFS. Events of the fabric (R158, R189 to R193, R202, R203, R214, R219 to R222): loading, starting, arrival, quiescence, commit, timeout, faults and ports.
-/
namespace Sys2Proof.Proofs
open Sys2Proof Sys2Proof.Machine Sys2Proof.Machine.State Sys2Proof.Claims
open Host (Outcome)

/-! ### Blocks, instances and tokens -/

section
variable {s s1 : State} {an p : Nat} {a : Act} {x : Word × BitVec 32} {b : Block}

theorem blockLoad_loads (ha : s.act? an = some a) (hn : nextOf s a = some x) (hh : planeHolding s a.tile a.ctx x.1 = none)
    (hp : (loadPlanes s a).find? (planeEmpty s a.tile) = some p) (hl : loadBlock s a.tile a.ctx x.1 = (s1, .ok b)) :
    execBlockLoad an s = .next (s1.modTile a.tile fun t => { t with planes := Machine.putV t.planes p (some b) }) := by
  refine congrArg Outcome.next ?_
  simp only [ha, hn, hh, Option.isSome_none, Bool.false_eq_true, if_false, hp, hl]

/-- The state in which a block stands started, with the tokens of its read entries. -/
def startedAt (s : State) (an p : Nat) (a : Act) (seq : BitVec 32) (b : Block) : State :=
  (readEntries b.hdr0 b.hdr1).foldl (fun t r => sendTo t s.fresh.1 [(r.2.2, r.2.1)] (token (getV (nextRegs s a) 0 r.1)))
    ((s.fresh.2.setInst s.fresh.1 (freshInst an seq b p (nextRegs s a))).setAct an { a with insts := a.insts ++ [s.fresh.1], plane := p })

theorem instanceStart_starts (ha : s.act? an = some a) (hn : nextOf s a = some x) (hh : planeHolding s a.tile a.ctx x.1 = some p)
    (hb : getV (s.tile a.tile).planes none p = some b) :
    execInstanceStart an s = .next (if barnRoom s.fresh.2 (startedAt s an p a x.2 b) a.tile then startedAt s an p a x.2 b else s.fresh.2) := by
  refine congrArg Outcome.next ?_
  simp only [ha, hn, hh, hb]
  rfl

end

theorem tokenArrival_arrives {s : State} {idx : Nat} {x : Transit} (hx : s.transit[idx]? = some x)
    (hfirst : ∀ y ∈ s.transit.take idx, ¬ (y.inst = x.inst ∧ y.node = x.node ∧ y.slot = x.slot)) :
    execTokenArrival idx s = .next ({ s with transit := s.transit.eraseIdx idx }.modInst x.inst fun n =>
      let n := n.setSlot x.node x.slot (n.slot x.node x.slot ++ [x.tok])
      if isJoin (n.block.words.getD x.node 0) && x.slot ≠ 3
        then { n with arrivals := Tbl.set n.arrivals x.node (Tbl.get n.arrivals [] x.node ++ [x.slot]) } else n) := by
  have hany : ((s.transit.take idx).any fun y => y.inst = x.inst && y.node = x.node && y.slot = x.slot) = false := by
    simp only [List.any_eq_false, Bool.and_eq_true, decide_eq_true_eq, and_assoc]
    exact hfirst
  refine congrArg Outcome.next ?_
  simp only [hx, hany, Bool.false_eq_true, if_false]

/-! ### Quiescence, commit and timeout -/

section
variable {s : State} {i : Nat} {n : Inst}

theorem instanceQuiescent_settles {a : Act} (hi : s.inst? i = some n) (ha : s.act? n.act = some a) (hl : instLive s n = true) (hq : n.quiet = false)
    (hqs : isQuiescent s i n = true) :
    (mayCommit n = false → execInstanceQuiescent i s = .next (faultInst s i (plainFault cNO_EXIT 0))) ∧
    (mayCommit n = true → 0 < n.rets → execInstanceQuiescent i s = .next (s.setInst i { n with quiet := true })) ∧
    (mayCommit n = true → n.rets = 0 → ∀ s1, wakeCheck s a.tile a.ctx n.exitTo = (s1, none) →
      execInstanceQuiescent i s = .next (s1.modInst i fun n => { n with quiet := true })) ∧
    (mayCommit n = true → n.rets = 0 → ∀ s1 w, wakeCheck s a.tile a.ctx n.exitTo = (s1, some w) →
      execInstanceQuiescent i s = .next (if w = fetchHeld then s1 else faultInst s1 i (plainFault w.1 w.2.1))) := by
  refine ⟨fun hm => ?_, fun hm hr => ?_, fun hm hr s1 hw => ?_, fun hm hr s1 w hw => ?_⟩
  all_goals
    refine congrArg Outcome.next ?_
    simp only [hi, hl, hq, hqs, hm, Bool.not_true, Bool.not_false, Bool.or_self, Bool.false_eq_true, if_false, if_true]
  · simp only [hr, if_true]
  · simp only [hr, Nat.lt_irrefl, if_false, ha, hw]
  · simp only [hr, Nat.lt_irrefl, if_false, ha, hw]

/-- A block that may commit and leaves the frame: what its buffered effects come to. -/
theorem instanceCommit_commits {a : Act} {s0 s0' : State} (h : Claims.Ready s i n a) (he : exitHeld s a n = (s0, none)) :
    let ag : Agent := { tile := a.tile, ctx := a.ctx, allot := some a.allot }
    let performed := fun (s : State) => (sortStores n.stores).foldl (fun s st => performStore s ag st) s
    (∀ c sub st, commitStop s0 ag (sortStores n.stores) = (s0', some (.trap c sub, st)) →
      execInstanceCommit i s = .next (faultInst s0' i { plainFault c st.addr with node := st.node })) ∧
    (commitStop s0 ag (sortStores n.stores) = (s0', none) → n.rets = 0 →
      execInstanceCommit i s = .next (dropInst ((performed s0').modAct n.act fun x =>
        { x with f := nextRegs.applyFwr n a.f, seq := x.seq + 1, next := n.exitTo }) i)) ∧
    (commitStop s0 ag (sortStores n.stores) = (s0', none) → 0 < n.rets → ∀ s2 p, retFrame s0' ag a = (s2, .ok p) →
      execInstanceCommit i s = .next (endAct (if p = 0 then performed s2 else finishFrame (performed s2) ag a.frame n.retv) n.act a)) ∧
    (commitStop s0 ag (sortStores n.stores) = (s0', none) → 0 < n.rets → ∀ s2 c sub ad, retFrame s0' ag a = (s2, .error (.trap c sub, ad)) →
      execInstanceCommit i s = .next (faultInst s2 i (plainFault c ad))) := by
  obtain ⟨hi, ha, hl, hq, ht, hh, hm⟩ := h
  refine ⟨fun c sub st hc => ?_, fun hc hr => ?_, fun hc hr s2 p hf => ?_, fun hc hr s2 c sub ad hf => ?_⟩
  all_goals
    refine congrArg Outcome.next ?_
    simp only [hi, ha, hl, hq, ht, hh, hm, he, hc, ne_eq, not_true_eq_false, decide_false, Bool.not_true, Bool.or_self, Bool.false_eq_true, if_false]
  · simp only [hr, Nat.lt_irrefl, if_false]
  · simp only [hr, if_true, hf]
  · simp only [hr, if_true, hf]

theorem instanceTimeout_faults {a : Act} {k : Kernel} (hi : s.inst? i = some n) (ha : s.act? n.act = some a) (hk : s.kern? a.kernel = some k)
    (hl : instLive s n = true) :
    execInstanceTimeout i s =
      .next (if 2 ^ bTimeout n.block.hdr0 (hdrField k.hdr 32 1) ≤ n.ran then faultInst s i (plainFault cNO_EXIT 0) else s) := by
  have ht : timedOut s n = decide (2 ^ bTimeout n.block.hdr0 (hdrField k.hdr 32 1) ≤ n.ran) := by
    simp only [timedOut, ha, Option.bind_some, hk]
  refine congrArg Outcome.next ?_
  simp only [hi, hl, ht, Bool.true_and, decide_eq_true_eq]

/-- A map of a table that keeps its keys is a map of what each key finds. -/
theorem find?_map_keys {α : Type} {g : Nat × α → Nat × α} (hg : ∀ x, (g x).1 = x.1) (t : Tbl α) (k : Nat) :
    Tbl.find? (t.map g) k = (Tbl.find? t k).map fun a => (g (k, a)).2 := by
  induction t with
  | nil => rfl
  | cons x t ih =>
    obtain ⟨j, a⟩ := x
    have hj : (g (j, a)).1 = j := hg (j, a)
    rw [List.map_cons, show g (j, a) = (j, (g (j, a)).2) from Prod.ext hj rfl]
    by_cases h : j = k
    · subst h; simp [Tbl.find?]
    · simp [Tbl.find?, h, ih]

theorem timeouts_count (hi : s.inst? i = some n) (hr : timeRuns s i n = true) :
    (timeoutsNow s).inst? i = some { n with ran := n.ran + (s.dev.cycles - s.dev.counted) } := by
  have hkeys : ∀ ki : Nat × Inst, (if timeRuns s ki.1 ki.2 then (ki.1, { ki.2 with ran := ki.2.ran + (s.dev.cycles - s.dev.counted) }) else ki).1 = ki.1 := by
    intro ki
    split <;> rfl
  have hfind : Tbl.find? s.insts i = some n := hi
  simp only [State.inst?, timeoutsNow, find?_map_keys hkeys, hfind, Option.map_some, hr, if_true]

end

/-! ### Faults, handlers, calls and ports -/

theorem graphFaultTaken_faults {s s0 : State} {i : Nat} {n : Inst} {a a1 : Act} {fl : GFault} {r : Except (Stop × Word) Unit} (hi : s.inst? i = some n)
    (ha : s.act? n.act = some a) (hf : n.fault = some fl) (hst : a.stat = .live) (hon : runsOn s a.tile a.ctx = true) (hh : a.insts.head? = some i)
    (hr : frameReach s { tile := a.tile, ctx := a.ctx } (a.frame + 24) 8 .rw = (s0, r)) (hhold : ∀ ad, r ≠ .error (.hold, ad))
    (h1 : (if n.held then (a.insts.filter (· ≠ i)).foldl discardInst s0
      else discardInst ((a.insts.filter (· ≠ i)).foldl discardInst s0) i).act? n.act = some a1) :
    execGraphFaultTaken i s = .next (frameFault (if n.held then (a.insts.filter (· ≠ i)).foldl discardInst s0
      else discardInst ((a.insts.filter (· ≠ i)).foldl discardInst s0) i) n.act a1 fl n.seq n.plane n.irrev (if n.held then some i else none)) := by
  refine congrArg Outcome.next ?_
  simp only [hi, ha, hf, hst, hon, hh, hr, ne_eq, not_true_eq_false, decide_false, Bool.not_true, Bool.or_self, Bool.false_eq_true, if_false]
  split
  · next e => obtain rfl := Option.some.inj (e.symm.trans h1); rfl
  · next e => cases e.symm.trans h1

theorem graphHandlerStart_starts {s : State} {an n : Nat} {a : Act} {fl : GFault} {k : Kernel} (ha : s.act? an = some a) (hf : a.fault = some fl)
    (hk : s.kern? a.kernel = some k) (hn : spareContext s a.tile = some n) (hst : a.stat = .faulted) :
    execGraphHandlerStart an s = .next ((s.setThr (threadKey a.tile n)
      { (bornThread s a.tile n a.kernel k (.faultHandler an) a.allot (hdrHandler k.hdrAddr k.hdr)).xw 10 a.frame with
        stat := .handler, inh := true, tcause := fl.cause, tepc := a.next, taddr := fl.addr, tinfo := a.tinfo, tframe := a.frame
        telem := if fl.strm then fl.elem.setWidth 64 else 0 }).setAct an { a with stat := .handling }) := by
  refine congrArg Outcome.next ?_
  simp only [ha, hf, hk, hn, hst, ne_eq, not_true_eq_false, if_false]

theorem graphCallReturn_sends {s s1 : State} {i ix : Nat} {n : Inst} {a : Act} {fa v : Word} {lead : Token} (hi : s.inst? i = some n)
    (hc : n.call = some (ix, fa, lead)) (ha : s.act? n.act = some a) (hd : frameDone s { tile := a.tile, ctx := a.ctx } fa = (s1, some v)) :
    execGraphCallReturn i s = .next (sendLate s1 i ix lead v fun n => { n with call := none }) := by
  refine congrArg Outcome.next ?_
  simp only [hi, hc, ha, hd]

section
variable {s s1 : State} {tile port i ix sl : Nat} {p : Port} {n : Inst} {a : Act}

theorem streamPortEmit_emits {v : Word} (hp : portReady s tile port = some (p, i, n, ix, sl)) (ha : s.act? n.act = some a)
    (hroom : hasRoom s i n (sl, ix) = true) (he : portElem s { tile := tile, ctx := a.ctx } (bytesOf 64 p.pat) p.elem = (s1, .ok v)) :
    let start := if p.inst.isNone then p.elem else p.start
    let s2 := s1.modTile tile fun t => { t with ports := Machine.putV t.ports port { p with elem := p.elem + 1, start := start, inst := some i } }
    let s3 := if p.elem + 1 = patTotal (bytesOf 64 p.pat) then s2.modInst i fun n => { n with ports := n.ports ||| (1#16 <<< port) } else s2
    execStreamPortEmit tile port s = .next (sendFit s1 i (sendTo s3 i [(sl, ix)]
      { val := v, ends := endFlags (bytesOf 64 p.pat) p.elem, null := false, strm := true, idx := BitVec.ofNat 32 (p.elem - start), port := port })) := by
  refine congrArg Outcome.next ?_
  simp only [hp, hroom, Bool.not_true, Bool.false_eq_true, if_false, ha, he]

theorem portFetchFault_holds {sub : Nat} {c : BitVec 6} {ea : Word} (hp : portReady s tile port = some (p, i, n, ix, sl)) (ha : s.act? n.act = some a)
    (he : portElem s { tile := tile, ctx := a.ctx } (bytesOf 64 p.pat) p.elem = (s1, .error (.trap c sub, ea))) :
    let start := if p.inst.isNone then p.elem else p.start
    execPortFetchFault tile port s = .next ((s1.modTile tile fun t =>
      { t with ports := Machine.putV t.ports port { p with start := start, inst := some i } }).modInst i fun n =>
        { n with held := true, fault := some (n.fault.getD
          { cause := c, addr := ea, node := ix, multi := false, strm := true, port := port, elem := BitVec.ofNat 32 (p.elem - start) }) }) := by
  refine congrArg Outcome.next ?_
  simp only [hp, ha, he]

end

/-- Settles O39. -/
theorem fabricEventResult : Obligations.FabricEventResult := by
  refine ⟨fun s s1 an p a x b ha hn hh hp hl => blockLoad_loads ha hn hh hp hl, fun s an p a x b ha hn hh hb => instanceStart_starts ha hn hh hb,
    fun s idx x hx hfirst => tokenArrival_arrives hx hfirst, fun s i n a hi ha hl hq hqs => instanceQuiescent_settles hi ha hl hq hqs,
    fun s s0 s0' i n a h he => ?_, fun s i n a k hi ha hk hl => instanceTimeout_faults hi ha hk hl, fun s i n a hi ha hl hc hw hp hpl hg hirr => ?_,
    fun s s0 i n a a1 fl r hi ha hf hst hon hh hr hhold h1 => graphFaultTaken_faults hi ha hf hst hon hh hr hhold h1,
    fun s an n a fl k ha hf hk hn hst => graphHandlerStart_starts ha hf hk hn hst, fun s s1 i ix n a fa v lead hi hc ha hd => graphCallReturn_sends hi hc ha hd,
    fun s s1 tile port i ix sl p n a v hp ha hroom he => streamPortEmit_emits hp ha hroom he,
    fun s s1 tile port i ix sl sub p n a c ea hp ha he => portFetchFault_holds hp ha he⟩
  · obtain ⟨hstop, hexit, hret, herr⟩ := instanceCommit_commits (s0' := s0') h he
    exact ⟨hstop, fun hc => ⟨hexit hc, hret hc, herr hc⟩⟩
  · refine timeouts_count hi ?_
    simp only [timeRuns, ha, hl, hp, hpl, hc, hw, hg, hirr, Option.isNone_none, List.isEmpty_nil, Bool.not_false, Bool.and_self]

end Sys2Proof.Proofs
end

section
/-!
PROOFS. Events of an errand from its queue to its publishing (R257, R258, R380 to R387).
-/
namespace Sys2Proof.Proofs
open Sys2Proof Sys2Proof.Machine Sys2Proof.Machine.State Sys2Proof.Claims
open Host (Outcome)

/-- An errand that may run has not lost what it waits for. -/
theorem afterState_of_mayRun {s : State} {tile slot : Nat} {e : Errand} (hm : mayRun s tile slot e = true) : ¬ (decide (e.st = .waiting) && decide (afterState s e = some false)) = true := by
  simp only [mayRun, Bool.and_eq_true, decide_eq_true_eq] at hm
  simp [hm]

/-- No errand that is ready goes before one that is not outrun. -/
theorem not_outrun {s1 : State} {tile slot : Nat} {e : Errand} (h : ¬ outrun s1 tile slot e) :
    ((allErrands s1).any fun x => (x.1, x.2.1) ≠ (tile, slot) && x.2.2.at_ = e.at_ && engineGroup x.2.2.engine = engineGroup e.engine &&
      goesFirst x.2.2 e && errReady s1 x.1 x.2.1 x.2.2) = false := by
  rw [List.any_eq_false]
  intro x hx hall
  simp only [Bool.and_eq_true, decide_eq_true_eq, and_assoc] at hall
  exact h ⟨x, hx, hall⟩

/-- What a running errand comes to at its pre-emption point: a pending cancel, then a pending park. -/
def preempted (s : State) (tile slot : Nat) (e : Errand) : State :=
  match e.cancel with
  | some c => endErrand s tile slot e .cancelled c 0 0
  | none => if e.park then s.setErrand tile slot { e with st := .parked, park := false } else s

theorem counted_cancel (s : State) (tile slot : Nat) (e : Errand) : (counted s tile slot e).cancel = e.cancel := by unfold counted; split <;> rfl
theorem counted_park (s : State) (tile slot : Nat) (e : Errand) : (counted s tile slot e).park = e.park := by unfold counted; split <;> rfl

section
variable {s : State} {tile slot : Nat} {e : Errand} (he : s.errand? tile slot = some e)
include he

/-! ### Start -/

theorem errandQueued_waits (hst : e.st = .issued) : execErrandQueued tile slot s = .next (s.setErrand tile slot { e with st := .waiting }) := by
  refine congrArg Outcome.next ?_
  rw [modErrand_of _ _ _ _ _ he]
  simp only [hst, if_true]

theorem errandStart_cancels (hst : e.st = .waiting) (ha : afterState s e = some false) :
    execErrandStart tile slot s = .next (endErrand s tile slot e .cancelled cDEP_FAILED 0 0) := by
  refine congrArg Outcome.next ?_
  simp only [he]
  exact if_pos (by simp [hst, ha])

theorem errandStart_fails {x : BitVec 6 × Nat × Word} (hm : mayRun s tile slot e = true) (hp : portBusy s tile slot e = false)
    (hx : e.failAtStart = some x) : execErrandStart tile slot s = .next (endErrand s tile slot e .failed x.1 x.2.1 x.2.2) := by
  refine congrArg Outcome.next ?_
  simp only [he]
  refine (if_neg (afterState_of_mayRun hm)).trans ?_
  simp only [hm, hp, Bool.not_true, Bool.or_self, Bool.false_eq_true, if_false, hx]

theorem errandStart_twin {s1 : State} {t : TwinAt} (hm : mayRun s tile slot e = true) (hp : portBusy s tile slot e = false) (hf : e.failAtStart = none)
    (ht : twinAt s tile slot e = (s1, t)) :
    (t = .wait → execErrandStart tile slot s = .next s1) ∧
    (t = .held → execErrandStart tile slot s = .next (s1.setErrand tile slot { e with stalled := none })) ∧
    ((t = .none ∨ ∃ o bits size va, t = .take o bits size va) → ¬ outrun s1 tile slot e →
      execErrandStart tile slot s = .next (startErrand s1 tile slot e t)) := by
  refine ⟨fun h => ?_, fun h => ?_, fun h ho => ?_⟩
  all_goals
    refine congrArg Outcome.next ?_
    simp only [he]
    refine (if_neg (afterState_of_mayRun hm)).trans ?_
    simp only [hm, hp, Bool.not_true, Bool.or_self, Bool.false_eq_true, if_false, hf, ht]
  · subst h; rfl
  · subst h; rfl
  · rcases h with rfl | ⟨o, bits, size, va, rfl⟩
    all_goals exact if_neg (Bool.eq_false_iff.mp (not_outrun ho))

/-! ### Units of work, pre-emption points and resumption -/

theorem errandChunkDone_works (h : Working s e) :
    (needsDesc e = true → execErrandChunkDone tile slot s = .next (goStart s tile slot e)) ∧
    (needsDesc e = false → ∀ s1 e1, doUnit s tile slot e = .ok s1 e1 →
      execErrandChunkDone tile slot s = .next (chargeUnit (s1.setErrand tile slot { e1 with got := [] }) e1)) := by
  obtain ⟨hrun, hruns, hmore, ⟨hc, hp, hs⟩, hec, hen⟩ := h
  refine ⟨fun hd => ?_, fun hd s1 e1 hu => ?_⟩
  all_goals
    refine congrArg Outcome.next ?_
    simp only [he, hrun, hruns, hmore, hc, hp, hs, hec, hen, hd, ne_eq, not_true_eq_false, decide_false, Option.isSome_none, Bool.not_true, Bool.or_self,
      Bool.false_eq_true, if_false, if_true]
  simp only [hu]

theorem errandPreemptionPoint_preempts (hst : e.st = .running) :
    execErrandPreemptionPoint tile slot s = .next (preempted s tile slot (counted s tile slot e)) := by
  refine congrArg Outcome.next ?_
  simp only [he]
  exact if_neg (Classical.not_not.mpr hst)

theorem errandPreemptionPoint_cancels (hst : e.st = .running) {c : BitVec 6} (hc : e.cancel = some c) :
    execErrandPreemptionPoint tile slot s = .next (endErrand s tile slot (counted s tile slot e) .cancelled c 0 0) := by
  rw [errandPreemptionPoint_preempts he hst]
  simp only [preempted, counted_cancel, hc]

theorem errandPreemptionPoint_parks (hst : e.st = .running) (hc : e.cancel = none) (hp : e.park = true) :
    execErrandPreemptionPoint tile slot s = .next (s.setErrand tile slot { counted s tile slot e with st := .parked, park := false }) := by
  rw [errandPreemptionPoint_preempts he hst]
  simp only [preempted, counted_cancel, hc, counted_park, hp, if_true]

theorem errandResume_runs (hst : e.st = .parked) (hres : errResident s e = true) (hruns : errRuns s e = true) (hfree : engineFree s tile slot e = true) :
    execErrandResume tile slot s = .next (s.setErrand tile slot { e with st := .running }) := by
  refine congrArg Outcome.next ?_
  simp only [he, hst, hres, hruns, hfree, decide_true, Bool.and_self, if_true]

/-! ### Publishing -/

theorem errandPublish_enters (hst : e.st = .running) (hruns : errRuns s e = true) (hfin : e.finished = true) (hc : e.cancel = none) (ho : ordMet s tile slot e)
    (hcoll : collReady s tile slot e = true) :
    execErrandPublish tile slot s = .next (publish (enterPublish s tile slot e) tile slot { e with st := .publishing }) := by
  have hord : (e.ordb && (otherErrands s tile slot).any fun x => x.issuer = e.issuer && x.engine = e.engine && x.order < e.order && !x.st.final) = false := by
    cases hb : e.ordb
    · rfl
    · rw [Bool.true_and, List.any_eq_false]
      intro x hx hall
      simp only [Bool.and_eq_true, decide_eq_true_eq, Bool.not_eq_true', and_assoc] at hall
      obtain ⟨hi, hen, hlt, hnf⟩ := hall
      exact absurd (ho hb x hx hi hen hlt) (by simp [hnf])
  refine congrArg Outcome.next ?_
  simp only [he, hst, hruns, hfin, hc, hord, hcoll, Bool.not_true, Bool.false_and, Bool.false_eq_true, if_false, ne_eq, not_true_eq_false, decide_false,
    Option.isSome_none, Bool.or_self, reduceCtorEq]

theorem errandPublish_publishes (hst : e.st = .publishing) (hruns : errRuns s e = true) : execErrandPublish tile slot s = .next (publish s tile slot e) := by
  refine congrArg Outcome.next ?_
  simp only [he, hst, hruns, Bool.not_true, Bool.false_and, Bool.false_eq_true, if_false, if_true]

/-! ### Faults and replays -/

theorem operandFetchFault_meets (h : AtUnit s e) (hfin : e.finished = false) (hs : e.stalled = none) :
    (∀ s1 e1 a, doUnit s tile slot e = .stall s1 e1 a →
      execOperandFetchFault tile slot s = .next (s1.setErrand tile slot { withGot s1 tile slot e1 with stalled := some a, stallNs := s1.dev.hubNs })) ∧
    (∀ s1 e1 c sub a, doUnit s tile slot e = .fail s1 e1 c sub a →
      execOperandFetchFault tile slot s = .next (endErrand s1 tile slot e1 .failed c sub a)) := by
  obtain ⟨hst, hruns, hd⟩ := h
  refine ⟨fun s1 e1 a hu => ?_, fun s1 e1 c sub a hu => ?_⟩
  all_goals
    refine congrArg Outcome.next ?_
    simp only [he, hst, hruns, hfin, hs, hd, hu, ne_eq, not_true_eq_false, decide_false, Bool.not_true, Option.isSome_none, Bool.or_self, Bool.false_eq_true,
      if_false]

theorem fetchReplay_replays (h : AtUnit s e) {a : Word} (hs : e.stalled = some a) :
    (∀ s1 e1, doUnit s tile slot { e with stalled := none } = .ok s1 e1 →
      execFetchReplay tile slot s = .next (s.setErrand tile slot { e with stalled := none })) ∧
    (∀ s1 e1, doUnit s tile slot { e with stalled := none } = .wait s1 e1 →
      execFetchReplay tile slot s = .next (s1.setErrand tile slot { withGot s1 tile slot e1 with stalled := some a })) ∧
    (∀ s1 e1, doUnit s tile slot { e with stalled := none } = .stall s1 e1 a →
      execFetchReplay tile slot s = .next (s1.setErrand tile slot { withGot s1 tile slot e1 with stalled := some a, stallNs := e1.stallNs })) := by
  obtain ⟨hst, hruns, hd⟩ := h
  refine ⟨fun s1 e1 hu => ?_, fun s1 e1 hu => ?_, fun s1 e1 hu => ?_⟩
  all_goals
    refine congrArg Outcome.next ?_
    simp only [he, hs]
    refine (if_neg (by simp [hst, hruns])).trans ((if_neg (by simp [hd])).trans ?_)
    simp only [hu, if_true]

theorem fetchReplay_reads (hst : e.st = .running) (hruns : errRuns s e = true) (hs : e.stalled ≠ none) (hd : needsDesc e = true) :
    execFetchReplay tile slot s = .next (goStart s tile slot e) := by
  obtain ⟨a, ha⟩ := Option.ne_none_iff_exists'.mp hs
  refine congrArg Outcome.next ?_
  simp only [he, ha]
  exact (if_neg (by simp [hst, hruns])).trans (if_pos hd)

theorem replayTimeout_fails (hst : e.st = .running ∨ e.st = .waiting) {a : Word} (hs : e.stalled = some a) (ht : e.stallNs + 1000000 ≤ s.dev.hubNs) :
    execReplayTimeout tile slot s = .next (endErrand s tile slot e .failed cPAGE_NOT_PRESENT 0 a) := by
  refine congrArg Outcome.next ?_
  simp only [he, hs]
  exact if_pos (by simpa [ht] using hst)

end

/-- Settles O40. -/
theorem errandEventResult : Obligations.ErrandEventResult := by
  intro s tile slot e he
  refine ⟨errandQueued_waits he, errandStart_cancels he, fun hm hp => ⟨fun x => errandStart_fails he hm hp, fun hf s1 t ht => errandStart_twin he hm hp hf ht⟩,
    errandChunkDone_works he, fun hst c => errandPreemptionPoint_cancels he hst, errandPreemptionPoint_parks he, errandResume_runs he, errandPublish_enters he,
    errandPublish_publishes he, fun h hfin hs => (operandFetchFault_meets he h hfin hs).1, fun h hfin hs => (operandFetchFault_meets he h hfin hs).2,
    fun h hs s1 e1 => ?_, fun h a hs => (fetchReplay_replays he h hs).2.1, fun h a hs s1 e1 => (fetchReplay_replays he h hs).2.2 s1 e1,
    fetchReplay_reads he, fun hst a => replayTimeout_fails he hst⟩
  obtain ⟨a, ha⟩ := Option.ne_none_iff_exists'.mp hs
  exact (fetchReplay_replays he h ha).1 s1 e1

end Sys2Proof.Proofs
end

section
/-!
PROOFS. Events of the dispatchers: placement, start, tasks, completions and periods (R28 to R30, R345, R346, R352 to R356, R359, R367, R371, R372).
-/
namespace Sys2Proof.Proofs
open Sys2Proof Sys2Proof.Machine Sys2Proof.Machine.State Sys2Proof.Claims
open Host (Outcome)

/-! ### What the hub does as a whole -/

/-- An action that the hub holds back is `waited` on what it comes to. -/
theorem heldBack_waited {f : State → State} {s t : State} (h : f s = t) : heldBack id f s = waited s t := by
  subst h; rfl

theorem waited_self (s : State) : waited s s = s := by unfold waited asks; split <;> rfl
theorem waited_asks {s t : State} (h : t.hubWait = true) : waited s t = asks s t := if_pos h

/-! ### Placement and start -/

theorem groupPlacement_reserves {s : State} {n : Nat} {k : Kernel} {ts : List Nat} (h : pickLaunch s (queuedLaunches s) = some (n, k, ts)) :
    execGroupPlacement s = .next ((ts.zipIdx.foldl (fun s tr => reserveTile s n k.ctx tr) s).setKern n
      { k with st := .placed, tiles := ts, live := List.range k.groups, stackAt := kernelBlocks s k }) := by
  unfold execGroupPlacement
  rw [h]

theorem launchStarvation_marks {s : State} {n : Nat} {k : Kernel} (hk : s.kern? n = some k) (hst : k.st = .queued)
    (hsince : k.since + 200000 ≤ s.dev.hubNs) : execLaunchStarvation n s = .next (s.setKern n { k with starve := true }) := by
  refine congrArg Outcome.next ?_
  rw [modKern_of _ _ _ _ hk]
  exact congrArg (s.setKern n) (if_pos (by simp [hst, hsince]))

/-- What the start of a placed kernel's groups comes to, before the hub waits. -/
def groupsStarted (s : State) (kn : Nat) (k : Kernel) : State :=
  let r0 := buffersIn s k.ctx k.bufs
  let r := k.tiles.foldl (fun s t => resetTile s k t) r0
  if r0.hubWait then r0
  else if hdrGraph k.hdr then (injectRoot r kn k).getD s
  else k.tiles.foldl (fun s t => startLead s kn k t) (r.setKern kn { k with st := .running })

theorem groupStart_starts {s : State} {kn : Nat} {k : Kernel} (hk : s.kern? kn = some k) (hst : k.st = .placed) (ho : startOpen s k = true) :
    execGroupStart kn s = .next (waited s (groupsStarted s kn k)) := by
  refine congrArg Outcome.next (heldBack_waited ?_)
  simp only [hk]
  exact if_neg (by simp [hst, ho])

theorem groupStart_closed {s : State} {kn : Nat} {k : Kernel} (hk : s.kern? kn = some k) (ho : startOpen s k = false) :
    execGroupStart kn s = .next s := by
  refine congrArg Outcome.next ((heldBack_waited ?_).trans (waited_self s))
  simp only [hk]
  exact if_pos (by simp [ho])

/-! ### Tasks -/

/-- The task at `ix` has left its queue for the next cycle. -/
def unqueued (s : State) (ix : Nat) : State := { s with tasks := s.tasks.eraseIdx ix, dev := { s.dev with cycles := s.dev.cycles + 1 } }

theorem groupKernel_unqueued (s : State) (ix tile : Nat) : groupKernel (unqueued s ix) tile = groupKernel s tile := rfl
theorem spareContext_unqueued (s : State) (ix tile : Nat) : spareContext (unqueued s ix) tile = spareContext s tile := rfl
theorem kern?_unqueued (s : State) (ix n : Nat) : (unqueued s ix).kern? n = s.kern? n := rfl

theorem taskDispatch_dispatches {s r : State} {die ix tile : Nat} {t : Task} {ty : Option (TaskType × Nat)} (hp : pickTask s die = some (ix, t, tile, ty))
    (hr : dispatch (if t.call.isSome then unqueued s ix else syncHead (unqueued s ix) t.ctx t.allot) (ix, t, tile, ty) = some r) :
    execTaskDispatch die s = .next r := by
  unfold execTaskDispatch
  rw [hp]
  refine congrArg Outcome.next ?_
  dsimp only
  rw [← unqueued, hr]

section
variable {s : State} {ix tile n i : Nat}

theorem groupKernel_left {kn : Nat} (h : groupKernel s tile = some kn) : groupKernel (syncHead (unqueued s ix) n i) tile = some kn := by
  unfold syncHead; dsimp only; split <;> exact h

theorem spareContext_left {tp : Nat} (h : spareContext s tile = some tp) : spareContext (syncHead (unqueued s ix) n i) tile = some tp := by
  unfold syncHead; dsimp only; split <;> exact h

theorem kern?_left {kn : Nat} {k : Kernel} (h : s.kern? kn = some k) : (syncHead (unqueued s ix) n i).kern? kn = some k := by
  unfold syncHead; dsimp only; split <;> exact h

end

section
variable {u : State} {ix tile kn tp : Nat} {t : Task} {ty : Option (TaskType × Nat)} {k : Kernel}
  (hg : groupKernel u tile = some kn) (hsp : spareContext u tile = some tp) (hk : u.kern? kn = some k)
include hg hsp hk

theorem dispatch_callee {fa : Word} {c : Nat} (hc : t.call = some (fa, c)) : dispatch u (ix, t, tile, ty) = startCallee u tile tp t fa kn k := by
  simp only [dispatch, hg, hsp, hk, hc]

theorem dispatch_typeC {y : TaskType} {o : Nat} (hc : t.call = none) (hty : ty = some (y, o)) (hy : y.entry.getLsbD 0 = false) :
    dispatch u (ix, t, tile, ty) = some (startTaskC u tile tp t y o kn k) := by
  simp only [dispatch, hg, hsp, hk, hc, hty, hy, Bool.false_eq_true, if_false]

theorem dispatch_typeG {y : TaskType} {o : Nat} (hc : t.call = none) (hty : ty = some (y, o)) (hy : y.entry.getLsbD 0 = true) :
    dispatch u (ix, t, tile, ty) = startTaskG u tile t y o kn k := by
  simp only [dispatch, hg, hsp, hk, hc, hty, hy, if_true]

end

/-! ### Completion -/

theorem kernelCompletion_completes {s : State} {kn : Nat} {k : Kernel} (hk : s.kern? kn = some k) (hst : k.st = .complete ∨ k.st = .failed)
    (hw : k.written = false) (hl : liveErrands s kn = false) (hh : ∀ t ∈ ownTiles s kn k, tileHeld s t = false) :
    execKernelCompletion kn s = .next (waited s (complete (afterKernel s kn k).1 k.queue
      { tag := k.tag, ctx := k.ctx, status := (afterKernel s kn k).2.1, value := (afterKernel s kn k).2.2, index := k.pkt, notify := k.notify })) := by
  refine congrArg Outcome.next (heldBack_waited ?_)
  have hheld : (ownTiles s kn k).any (tileHeld s) = false := by
    rw [List.any_eq_false]; intro t ht; simp [hh t ht]
  simp only [hk]
  refine (if_neg (by rcases hst with h | h <;> simp [h, hw, hl])).trans ?_
  refine (if_neg (by rw [← ownTiles, hheld]; exact Bool.false_ne_true)).trans ?_
  unfold afterKernel
  rcases hst with h | h
  · simp only [h, if_true, ownTiles] <;> rfl
  · simp only [h, reduceCtorEq, if_false, ownTiles] <;> rfl

/-! ### What an ending errand or thread leaves of the device, the queues and firmware -/

/-- The device's registers, the host queues and firmware. -/
def hubSide (s : State) : Device × Tbl Queue × Firm := (s.dev, s.queues, s.fw)

theorem hubSide_foldl {α : Type} {f : State → α → State} (hf : ∀ s a, hubSide (f s a) = hubSide s) (l : List α) (s : State) : hubSide (l.foldl f s) = hubSide s := by
  induction l generalizing s with
  | nil => rfl
  | cons a l ih => exact (ih (f s a)).trans (hf s a)

theorem hubSide_reap (s : State) (tile slot : Nat) : hubSide (reap s tile slot) = hubSide s := by unfold reap; split <;> rfl

theorem hubSide_finalize1 (s : State) (tile slot : Nat) (st : EState) (c : BitVec 6) (sub : BitVec 8) (a : Word) : hubSide (finalize1 s tile slot st c sub a) = hubSide s := by
  unfold finalize1
  split
  · rfl
  · next e _ =>
    dsimp only
    split
    · rfl
    · split
      · rw [hubSide_reap]; split <;> rfl
      · split <;> rfl

theorem hubSide_failColl (s : State) (tile slot : Nat) : hubSide (failColl s tile slot) = hubSide s := by
  unfold failColl
  split
  · split <;> rfl
  · rfl

theorem hubSide_finalizeF (n : Nat) (s : State) (tile slot : Nat) (st : EState) (c : BitVec 6) (sub : BitVec 8) (a : Word) :
    hubSide (finalizeF s tile slot st c sub a n) = hubSide s := by
  induction n generalizing s tile slot st c sub a with
  | zero => exact hubSide_finalize1 ..
  | succ n ih =>
    unfold finalizeF
    split
    · rfl
    · dsimp only
      split
      · rfl
      · refine (hubSide_foldl (fun s d => ?_) _ _).trans ((hubSide_finalize1 ..).trans ?_)
        · split <;> exact ih ..
        · split
          · rfl
          · exact hubSide_failColl ..

theorem hubSide_checkTileFree (s : State) (tile : Nat) : hubSide (checkTileFree s tile) = hubSide s := by
  unfold checkTileFree
  split
  · split <;> rfl
  · rfl

theorem hubSide_checkKernel (s : State) (n : Nat) : hubSide (checkKernel s n) = hubSide s := by
  unfold checkKernel
  split
  · rfl
  · split
    · rfl
    · split <;> rfl

theorem hubSide_settleAll (s : State) : hubSide (settleAll s) = hubSide s :=
  (hubSide_foldl (fun s (kk : Nat × Kernel) => hubSide_checkKernel s kk.1) _ _).trans (hubSide_foldl (fun s (kt : Nat × Tile) => hubSide_checkTileFree s kt.1) _ _)

theorem hubSide_cancelErrand (s : State) (tile slot : Nat) (c : BitVec 6) : hubSide (cancelErrand s tile slot c).1 = hubSide s := by
  unfold cancelErrand
  split
  · rfl
  · split
    iterate 3 exact (hubSide_settleAll _).trans (hubSide_finalizeF ..)
    · unfold modErrand; split <;> rfl
    · rfl

theorem hubSide_dropAttached (s : State) (k : Nat) : hubSide (dropAttached s k) = hubSide s := by
  refine hubSide_foldl (fun s x => ?_) _ _
  split
  · rfl
  · split
    · rfl
    · split
      · exact hubSide_reap ..
      · exact hubSide_cancelErrand ..

theorem hubSide_rearm (s : State) (cn : Nat) (old : Ctx) (i : Nat) : hubSide (rearm s cn old i) = hubSide s := by
  refine hubSide_foldl (fun s kt => ?_) _ _
  split
  · exact hubSide_dropAttached ..
  · rfl

theorem hubSide_installTree (s : State) (cn : Nat) (c : Ctx) (tree : Tbl Allot) : hubSide (installTree s cn c tree) = hubSide s :=
  hubSide_foldl (fun s i => hubSide_rearm s cn c i) _ _

/-! ### Budget periods -/

/-- The trees that wait for the period take effect. -/
def treesInstalled (s : State) : State :=
  s.ctxs.foldl (fun s kc => match kc.2.pending with | some t => installTree s kc.1 kc.2 t | none => s) s

theorem hubSide_treesInstalled (s : State) : hubSide (treesInstalled s) = hubSide s := by
  refine hubSide_foldl (fun s kc => ?_) _ _
  split
  · exact hubSide_installTree ..
  · rfl

theorem dev_treesInstalled (s : State) : (treesInstalled s).dev = s.dev := congrArg Prod.fst (hubSide_treesInstalled s)

theorem treesInstalled_none {s : State} (h : ∀ kc ∈ s.ctxs, kc.2.pending = none) : treesInstalled s = s := by
  unfold treesInstalled
  generalize hs : s.ctxs = l at h
  clear hs
  induction l with
  | nil => rfl
  | cons kc l ih =>
    rw [List.foldl_cons, h kc List.mem_cons_self]
    exact ih fun x hx => h x (List.mem_cons_of_mem _ hx)

/-- The meters of every allotment start again (R371). -/
def metersNext (s : State) : State :=
  { s with ctxs := s.ctxs.map fun kc => (kc.1, { kc.2 with allots := kc.2.allots.map fun ja => (ja.1, ja.2.nextPeriod) }) }

theorem budgetPeriod_eq (s : State) : execBudgetPeriod s = .next
    { treesInstalled (metersNext s) with dev := { (treesInstalled (metersNext s)).dev with slot := Vector.replicate 4 0 } } := rfl

theorem metersNext_pending {s : State} (h : ∀ kc ∈ s.ctxs, kc.2.pending = none) : ∀ kc ∈ (metersNext s).ctxs, kc.2.pending = none := by
  intro kc hkc
  obtain ⟨x, hx, rfl⟩ := List.mem_map.mp hkc
  exact h x hx

/-! ### Headroom -/

theorem boundHeads_length (left : Nat) (l : List (BitVec 24)) : (boundHeads left l).length = l.length := by
  induction l generalizing left with
  | nil => rfl
  | cons h l ih => simp only [boundHeads, List.length_cons, ih]

theorem min_head_lt (h : BitVec 24) (left : Nat) : min h.toNat left < 2 ^ 24 := Nat.lt_of_le_of_lt (Nat.min_le_left _ _) h.isLt

theorem boundHeads_sum (left : Nat) (l : List (BitVec 24)) : ((boundHeads left l).map (·.toNat)).sum ≤ left := by
  induction l generalizing left with
  | nil => exact Nat.zero_le _
  | cons h l ih =>
    simp only [boundHeads, List.map_cons, List.sum_cons, BitVec.toNat_ofNat, Nat.mod_eq_of_lt (min_head_lt h left)]
    have := ih (left - min h.toNat left)
    omega

theorem boundHeads_le (left : Nat) (l : List (BitVec 24)) (i : Nat) : ((boundHeads left l).getD i 0).toNat ≤ (l.getD i 0).toNat := by
  induction l generalizing left i with
  | nil => exact Nat.le_refl _
  | cons h l ih =>
    cases i with
    | zero =>
      simp only [boundHeads, List.getD_cons_zero, BitVec.toNat_ofNat, Nat.mod_eq_of_lt (min_head_lt h left)]
      exact Nat.min_le_left _ _
    | succ i => simpa only [boundHeads, List.getD_cons_succ] using ih _ i

theorem boundHeads_fits (left : Nat) (l : List (BitVec 24)) (h : (l.map (·.toNat)).sum ≤ left) : boundHeads left l = l := by
  induction l generalizing left with
  | nil => rfl
  | cons x l ih =>
    rw [List.map_cons, List.sum_cons] at h
    have hx : min x.toNat left = x.toNat := by omega
    simp only [boundHeads, hx, BitVec.ofNat_toNat, BitVec.setWidth_eq]
    rw [ih _ (by omega)]

theorem loweredHead_le (s : State) (d : Nat) (h : BitVec 24) : (loweredHead s d h).toNat ≤ h.toNat := by
  unfold loweredHead
  split
  · exact Nat.zero_le _
  · split
    · next hc =>
      simp only [Bool.and_eq_true, decide_eq_true_eq] at hc
      exact Nat.le_of_lt hc.2
    · exact Nat.le_refl _

theorem loweredHead_halted {s : State} {d : Nat} (hd : dieHalted s d = true) (h : BitVec 24) : loweredHead s d h = 0 := if_pos hd

theorem loweredHead_same {s : State} {d : Nat} (hd : dieHalted s d = false) (ht : s.dev.thThrottled.getLsbD d = false) (h : BitVec 24) :
    loweredHead s d h = h := by
  unfold loweredHead
  rw [if_neg (by simp [hd]), if_neg (by simp [ht])]

/-- What a die's headroom is raised to by what isolated contexts have reserved from it (R318). -/
def sharedHead (s : State) (d : Nat) (h : BitVec 24) : BitVec 24 :=
  if h.toNat < isolShare s d then BitVec.ofNat 24 (min (isolShare s d) (2 ^ 24 - 1)) else h

theorem sharedHead_none {s : State} {d : Nat} (hd : isolShare s d = 0) (h : BitVec 24) : sharedHead s d h = h := by
  unfold sharedHead; rw [if_neg (by omega)]

/-- The four dies' headrooms within the power limit. -/
def heads (s : State) (h0 h1 h2 h3 : BitVec 24) : List (BitVec 24) :=
  boundHeads (1000 * s.dev.plimit) [sharedHead s 0 h0, sharedHead s 1 h1, sharedHead s 2 h2, sharedHead s 3 h3]

/-- A die's next headroom register. -/
def nextHead (s : State) (hs : List (BitVec 24)) (i : Nat) (h : Headroom) : Headroom :=
  { head := loweredHead s i (hs.getD i 0), epoch := h.epoch + 1, thr := (loweredHead s i (hs.getD i 0)).toNat < 150000 }

theorem headroomUpdate_eq (s : State) (h0 h1 h2 h3 : BitVec 24) : execHeadroomUpdate h0 h1 h2 h3 s =
    .next { s with dev := { s.dev with active := s.dev.plimit, headroom := s.dev.headroom.mapIdx (nextHead s (heads s h0 h1 h2 h3)) } } := rfl

theorem getV_mapIdx {n : Nat} {α β : Type} (v : Vector α n) (f : Nat → α → β) (d : α) (e : β) {i : Nat} (hi : i < n) :
    getV (v.mapIdx f) e i = f i (getV v d i) := by
  simp only [getV, List.getD_eq_getElem?_getD, Vector.getElem?_toList, hi, getElem?_pos, Vector.getElem_mapIdx, Option.getD_some]

theorem getV_nextHead (s : State) (hs : List (BitVec 24)) (d : Headroom) {i : Nat} (hi : i < 4) :
    getV (s.dev.headroom.mapIdx (nextHead s hs)) d i = nextHead s hs i (getV s.dev.headroom d i) := getV_mapIdx _ _ _ _ hi

theorem headroomUpdate_sum (s : State) (h0 h1 h2 h3 : BitVec 24) :
    ((List.range 4).map fun i => (loweredHead s i ((heads s h0 h1 h2 h3).getD i 0)).toNat).sum ≤ 1000 * s.dev.plimit := by
  refine Nat.le_trans ?_ (boundHeads_sum (1000 * s.dev.plimit) [sharedHead s 0 h0, sharedHead s 1 h1, sharedHead s 2 h2, sharedHead s 3 h3])
  rw [← heads]
  have hl : (heads s h0 h1 h2 h3).length = 4 := boundHeads_length ..
  obtain ⟨a, b, c, d, he⟩ : ∃ a b c d, heads s h0 h1 h2 h3 = [a, b, c, d] := by
    match heads s h0 h1 h2 h3, hl with
    | [a, b, c, d], _ => exact ⟨a, b, c, d, rfl⟩
  rw [he]
  have ha := loweredHead_le s 0 a
  have hb := loweredHead_le s 1 b
  have hc := loweredHead_le s 2 c
  have hd := loweredHead_le s 3 d
  change (loweredHead s 0 a).toNat + ((loweredHead s 1 b).toNat + ((loweredHead s 2 c).toNat + ((loweredHead s 3 d).toNat + 0))) ≤
    a.toNat + (b.toNat + (c.toNat + (d.toNat + 0)))
  omega

theorem heads_le {s : State} {h0 h1 h2 h3 : BitVec 24} {i : Nat} (hi : i < 4) (hs : isolShare s i = 0) :
    ((heads s h0 h1 h2 h3).getD i 0).toNat ≤ ([h0, h1, h2, h3].getD i 0).toNat := by
  refine Nat.le_trans (boundHeads_le _ _ i) (Nat.le_of_eq ?_)
  have : i = 0 ∨ i = 1 ∨ i = 2 ∨ i = 3 := by omega
  rcases this with rfl | rfl | rfl | rfl
  all_goals simp only [List.getD_cons_zero, List.getD_cons_succ, sharedHead_none hs]

theorem heads_fit {s : State} {h0 h1 h2 h3 : BitVec 24} (hs : ∀ d < 4, isolShare s d = 0)
    (h : h0.toNat + h1.toNat + h2.toNat + h3.toNat ≤ 1000 * s.dev.plimit) : heads s h0 h1 h2 h3 = [h0, h1, h2, h3] := by
  unfold heads
  rw [sharedHead_none (hs 0 (by omega)), sharedHead_none (hs 1 (by omega)), sharedHead_none (hs 2 (by omega)), sharedHead_none (hs 3 (by omega))]
  exact boundHeads_fits _ _ (by simp only [List.map_cons, List.map_nil, List.sum_cons, List.sum_nil]; omega)

/-! ### The bell sequencer -/

/-- A die's sequencer goes on to its next slot. -/
def nextSlot (die i n : Nat) : Nat := if i = die then (n + 1) % 64 else n

theorem bellSlot_eq (die : Nat) (s : State) :
    execBellSlot die s = .next { s with dev := { s.dev with slot := s.dev.slot.mapIdx (nextSlot die) } } := rfl

/-- Settles O41, event by event: what the hub does as a whole is `waited` on what it comes to; the headrooms are bounded one after the other. -/
theorem dispatchEventResult : Obligations.DispatchEventResult := by
  unfold Obligations.DispatchEventResult
  refine ⟨fun s n k ts => groupPlacement_reserves, fun s kn k hk hst ho => ⟨fun hw => ?_, fun hw hg => ?_, fun hw hg s1 hi => ?_, fun hw hg hi => ?_⟩,
    fun s kn k => groupStart_closed, fun s n k => launchStarvation_marks, fun s die ix tile kn tp t ty k hp hg hsp hk => ⟨fun fa c s1 hc h => ?_,
    fun y o hc hty hy => ?_, fun y o s1 hc hty hy h => ?_⟩, fun s kn k => kernelCompletion_completes, fun s => ?_, fun s h0 h1 h2 h3 => ?_,
    fun s die hd => ⟨_, bellSlot_eq die s, rfl, ?_, fun i hi hne => ?_⟩⟩
  · refine (groupStart_starts hk hst ho).trans ?_
    rw [← waited_asks hw]
    simp only [groupsStarted, hw, if_true]
  · refine (groupStart_starts hk hst ho).trans ?_
    simp only [groupsStarted, hw, hg, Bool.false_eq_true, if_false]
  · refine (groupStart_starts hk hst ho).trans ?_
    simp only [groupsStarted, hw, hg, Bool.false_eq_true, if_false, if_true, hi, Option.getD_some]
  · refine (groupStart_starts hk hst ho).trans ?_
    simp only [groupsStarted, hw, hg, Bool.false_eq_true, if_false, if_true, hi, Option.getD_none, waited_self]
  · refine taskDispatch_dispatches hp ?_
    rw [if_pos (by simp [hc]), dispatch_callee ((groupKernel_unqueued s ix tile).trans hg) ((spareContext_unqueued s ix tile).trans hsp)
      ((kern?_unqueued s ix kn).trans hk) hc]
    exact h
  · refine taskDispatch_dispatches hp ?_
    rw [if_neg (by simp [hc]), dispatch_typeC (groupKernel_left hg) (spareContext_left hsp) (kern?_left hk) hc hty hy]
    rfl
  · refine taskDispatch_dispatches hp ?_
    rw [if_neg (by simp [hc]), dispatch_typeG (groupKernel_left hg) (spareContext_left hsp) (kern?_left hk) hc hty hy]
    exact h
  · refine ⟨_, budgetPeriod_eq s, ?_, fun hn => ?_⟩
    · dsimp only
      rw [dev_treesInstalled]
      rfl
    · rw [treesInstalled_none (metersNext_pending hn)]
      exact ⟨rfl, rfl⟩
  · refine ⟨_, headroomUpdate_eq s h0 h1 h2 h3, rfl, ?_⟩
    intro was now
    have hnow : ∀ i < 4, now i = nextHead s (heads s h0 h1 h2 h3) i (was i) := fun i hi => getV_nextHead _ _ _ hi
    refine ⟨?_, fun i hi => ?_, fun hs hsum i hi hh ht => ?_⟩
    · refine Nat.le_trans (Nat.le_of_eq (congrArg List.sum (List.map_congr_left fun i hi => ?_))) (headroomUpdate_sum s h0 h1 h2 h3)
      rw [hnow i (List.mem_range.mp hi)]
      rfl
    · rw [hnow i hi]
      exact ⟨rfl, decide_eq_true_iff, fun h => loweredHead_halted h _, fun h => Nat.le_trans (loweredHead_le _ _ _) (heads_le hi h)⟩
    · rw [hnow i hi]
      exact (loweredHead_same hh ht _).trans (by rw [heads_fit hs hsum])
  · exact (getV_mapIdx _ _ _ _ hd).trans (if_pos rfl)
  · exact (getV_mapIdx _ _ _ _ hi).trans (if_neg hne)

end Sys2Proof.Proofs
end

section
/-!
PROOFS. Pre-emption, eviction and restore of a live group (R312, R319 to R322, Tables 14-3, 14-4).
-/
namespace Sys2Proof.Proofs
open Sys2Proof Sys2Proof.Machine Sys2Proof.Machine.State Sys2Proof.Claims
open Host (Outcome)

section
variable {s : State} {tile : Nat} {g : Group} (hg : At s tile g)
include hg

/-! ### Pre-emption and save -/

/-- A pre-empt request by the state of the group's residence (Table 14-3). -/
theorem preemptRequest_takes (ht : tile < 512) (hl : g.stat = .live) : execPreemptRequest tile s = .next (match g.resid with
    | .resident => beginPreempt s tile g
    | .restoring => setGroup s tile { g with preemptReq := true }
    | .preempting => setGroup s tile { g with restoreReq := false }
    | .saved => s) := by
  unfold At at hg
  refine congrArg Outcome.next ?_
  rw [if_pos ht]
  unfold requestPreempt
  simp only [hg]
  refine (if_neg (by simp [hl])).trans ?_
  cases g.resid <;> rfl

theorem saveComplete_reports (hr : g.resid = .preempting) {kt : Nat × Thread} {d : Deferred} {r : List Deferred}
    (hf : (runners s tile).find? (fun kt => !kt.2.deferred.isEmpty) = some kt) (hd : kt.2.deferred = d :: r) :
    execSaveComplete tile s = .next (takeTrap (s.setThr kt.1 { kt.2 with deferred := r }) kt.1 d.cause kt.2.pc d.addr d.info) := by
  unfold At at hg
  unfold runners at hf
  refine congrArg Outcome.next ?_
  simp only [hg]
  refine (if_neg (by simp [hr])).trans ?_
  rw [hf]
  dsimp only
  rw [hd]

theorem saveComplete_saves (hr : g.resid = .preempting) (hts : ∀ kt ∈ runners s tile, kt.2.deferred = [] ∧ settled kt.2 = true)
    (hd : drainHeld s tile (fun _ => true) = false)
    (he : ∀ x ∈ tileErrands s tile, parks s x.2.2 = true → x.2.2.st ≠ .running ∧ x.2.2.st ≠ .publishing) :
    execSaveComplete tile s = .next (setGroup (unplaceWaits (releaseDevice s tile) tile) tile
      { g with resid := if g.restoreReq && ((unplaceWaits (releaseDevice s tile) tile).kern? g.kernel).any fun k =>
          runsOn (unplaceWaits (releaseDevice s tile) tile) tile k.ctx then .restoring else .saved, restoreReq := false }) := by
  have hfind : ((tileThreads s tile).filter fun kt => kt.2.running).find? (fun kt => !kt.2.deferred.isEmpty) = none :=
    List.find?_eq_none.mpr fun kt hkt => by simp [(hts kt hkt).1]
  have hall : ((tileThreads s tile).filter fun kt => kt.2.running).all (fun kt => settled kt.2) = true :=
    List.all_eq_true.mpr fun kt hkt => (hts kt hkt).2
  have hany : (tileErrands s tile).any (fun x => parks s x.2.2 && (decide (x.2.2.st = .running) || decide (x.2.2.st = .publishing))) = false := by
    rw [List.any_eq_false]
    intro x hx hp
    simp only [Bool.and_eq_true, Bool.or_eq_true, decide_eq_true_eq] at hp
    obtain ⟨hn, hn'⟩ := he x hx hp.1
    exact hp.2.elim hn hn'
  unfold At at hg
  refine congrArg Outcome.next ?_
  simp only [hg]
  refine (if_neg (by simp [hr])).trans ?_
  rw [hfind]
  exact if_neg (by simp [hall, hd, hany])

/-! ### Eviction and restore -/

theorem groupEviction_moves (ht : tile < 512) (hr : g.resid = .saved) (hh : tileHeld s tile = false)
    (he : ∀ x ∈ allErrands s, goesAlong tile g x.2.2 = true → x.2.2.st ≠ .running ∧ x.2.2.st ≠ .publishing) :
    execGroupEviction tile s = .next (moveGroup
      ((s.tile tile).spmap.toList.foldl (fun s' e => if e.getLsbD 63 then spWriteBack s' tile e else s') s) tile (evictionArea g.kernel g.rank) g) := by
  have hany : (allErrands s).any (fun x => goesAlong tile g x.2.2 && (decide (x.2.2.st = .running) || decide (x.2.2.st = .publishing))) = false := by
    rw [List.any_eq_false]
    intro x hx hp
    simp only [Bool.and_eq_true, Bool.or_eq_true, decide_eq_true_eq] at hp
    obtain ⟨hn, hn'⟩ := he x hx hp.1
    exact hp.2.elim hn hn'
  unfold At at hg
  refine congrArg Outcome.next ?_
  simp only [hg]
  exact if_neg (by simp [hr, hh, hany, ht])

theorem restoreRequest_restores {kn rank : Nat} {k : Kernel} (hk : s.kern? kn = some k) (ha : k.tiles.getD rank 512 = tile) (ht : tile < 512)
    (ho : runsOn s tile k.ctx = true) (hr : g.resid = .saved) :
    execRestoreRequest kn rank tile s = .next (setGroup s tile { g with resid := .restoring }) := by
  unfold At at hg
  refine congrArg Outcome.next ?_
  simp only [hk]
  refine (if_pos ha).trans ((if_pos (by simp [ht, ho])).trans ?_)
  simp only [requestRestore, hg, hr]
  rfl

theorem restoreComplete_completes (hr : g.resid = .restoring) :
    execRestoreComplete tile s = .next (if g.preemptReq then beginPreempt (acquireDevice s tile) tile { g with resid := .resident }
      else setGroup (acquireDevice s tile) tile { g with resid := .resident }) := by
  unfold At at hg
  refine congrArg Outcome.next ?_
  simp only [hg]
  exact if_neg (by simp [hr])

end

theorem restoreRequest_returns {s : State} {kn rank tile : Nat} {k : Kernel} {g : Group} (hk : s.kern? kn = some k)
    (ha : k.tiles.getD rank 512 = evictionArea kn rank) (hne : tile ≠ evictionArea kn rank) (hg : At s (evictionArea kn rank) g) (hr : g.resid = .saved)
    (hf : tileFits s k tile = true) (hroom : roomFor s (evictionArea kn rank) tile = true) (ho : runsOn s tile k.ctx = true) :
    execRestoreRequest kn rank tile s = .next (
      let s1 := moveGroup (handTile s tile k.ctx) (evictionArea kn rank) tile { g with resid := .restoring }
      registerAll (zeroRange { s1 with tiles := Tbl.erase s1.tiles (evictionArea kn rank) } (scratchBase (evictionArea kn rank))
        (scratchBase (evictionArea kn rank) + 2 ^ 20)) tile k.ctx) := by
  unfold At at hg
  refine congrArg Outcome.next ?_
  simp only [hk, ha]
  refine (if_neg hne.symm).trans ?_
  simp only [hg]
  exact if_neg (by simp [hr, hf, hroom, ho])

/-- Settles O42, transition by transition of Tables 14-3 and 14-4. -/
theorem residencyEventResult : Obligations.ResidencyEventResult := by
  unfold Obligations.ResidencyEventResult
  refine ⟨fun s tile g ht hg hl => ?_, fun s tile g hg hr => ⟨fun kt d r => saveComplete_reports hg hr, saveComplete_saves hg hr⟩,
    fun s tile g ht hg => groupEviction_moves hg ht, fun s kn rank tile k g hk ha ht ho hg => restoreRequest_restores hg hk ha ht ho,
    fun s kn rank tile k g => restoreRequest_returns, fun s tile g hg => restoreComplete_completes hg⟩
  refine ⟨fun hr => ?_, fun hr => ?_, fun hr => ?_, fun hr => ?_⟩
  all_goals
    refine (preemptRequest_takes hg ht hl).trans ?_
    simp only [hr]

end Sys2Proof.Proofs
end

section
/-!
PROOFS. Packets of host queues: refusals and effects (R313, R315, R325, R329, R333 to R339, R351).
-/
namespace Sys2Proof.Proofs
open Sys2Proof Sys2Proof.Machine Sys2Proof.Machine.State Sys2Proof.Claims
open Host (Outcome)

/-! ### Taking a packet (R333) -/

section
variable {s s1 : State} {q : Nat} {p : Pkt} {want : Pkt → Bool} {go : State → Pkt → State}

/-- A packet that is taken is handled as `turned` says. -/
theorem takePacket_taken (ht : taken s q = some (s1, p)) (hw : want p = true) : takePacket s q want go = turned s q (go s1 p) := by
  unfold taken at ht
  unfold takePacket
  split at ht
  · cases ht
  · next hm =>
    rw [if_neg hm]
    dsimp only at ht
    split at ht
    · cases ht
    · next bs hr =>
      cases ht
      unfold heldBack turned
      simp only [hr, hw, Bool.not_true, Bool.false_eq_true, if_false]

variable {sts : List CStat} {named : List (Nat × Nat)}

/-- The packet names a context of its queue's function. -/
def OwnsCtx (s : State) (q : Nat) (p : Pkt) : Prop := p.ctx ≠ 0 ∧ p.ctx < 4096 ∧ (s.ctx p.ctx).st ≠ .free ∧ (s.ctx p.ctx).owner = q / 16

theorem foreign_iff (s : State) (q : Nat) (p : Pkt) :
    (decide (p.ctx = 0) || decide (4096 ≤ p.ctx) || decide ((s.ctx p.ctx).st = .free) || decide ((s.ctx p.ctx).owner ≠ q / 16)) = true ↔ ¬ OwnsCtx s q p := by
  simp only [OwnsCtx, Bool.or_eq_true, decide_eq_true_eq, Classical.not_and_iff_not_or_not, Classical.not_not, Nat.not_lt, ne_eq, or_assoc]

theorem ctxPacket_notOwner (ht : taken s q = some (s1, p)) (hw : want p = true) (ho : ¬ OwnsCtx s1 q p) :
    ctxPacket s q want sts named go = turned s q (finish s1 p sNOTOWNER 0) :=
  (takePacket_taken ht hw).trans (congrArg (turned s q) (if_pos ((foreign_iff s1 q p).mpr ho)))

theorem ctxPacket_badState (ht : taken s q = some (s1, p)) (hw : want p = true) (ho : OwnsCtx s1 q p) (hs : (s1.ctx p.ctx).st ∉ sts) :
    ctxPacket s q want sts named go = turned s q (finish s1 p sBADSTATE 0) :=
  (takePacket_taken ht hw).trans (congrArg (turned s q)
    ((if_neg (mt (foreign_iff s1 q p).mp (Classical.not_not.mpr ho))).trans (if_pos (by simp [hs]))))

theorem ctxPacket_badField (ht : taken s q = some (s1, p)) (hw : want p = true) (ho : OwnsCtx s1 q p) (hs : (s1.ctx p.ctx).st ∈ sts)
    (hb : p.reservedOk named = false) : ctxPacket s q want sts named go = turned s q (finish s1 p sBADFIELD 0) :=
  (takePacket_taken ht hw).trans (congrArg (turned s q)
    ((if_neg (mt (foreign_iff s1 q p).mp (Classical.not_not.mpr ho))).trans ((if_neg (by simp [hs])).trans (if_pos (by simp [hb])))))

theorem ctxPacket_accepts {kind : Nat} (h : Accepts s s1 q p kind sts named) (hw : want p = true) :
    ctxPacket s q want sts named go = turned s q (go s1 p) := by
  obtain ⟨ht, -, ⟨hn, hlt⟩, ⟨hf, ho⟩, hs, hb⟩ := h
  exact (takePacket_taken ht hw).trans (congrArg (turned s q)
    ((if_neg (mt (foreign_iff s1 q p).mp (Classical.not_not.mpr ⟨hn, hlt, hf, ho⟩))).trans ((if_neg (by simp [hs])).trans (if_neg (by simp [hb])))))

end

/-! ### Refusals -/

/-- Each packet that names a context is taken for its KIND, in its states, with its fields. -/
theorem ctxKinds_packet {bl : List Word} {x : (Nat → Instr) × Nat × List CStat × List (Nat × Nat)} (hx : x ∈ ctxKinds bl) (s : State) (q : Nat) :
    ∃ go, exec (x.1 q) s = .next (ctxPacket s q (fun p => p.kind = x.2.1) x.2.2.1 x.2.2.2 go) := by
  simp only [ctxKinds, List.mem_cons, List.not_mem_nil, or_false] at hx
  rcases hx with rfl | rfl | rfl | rfl | rfl | rfl | rfl | rfl | rfl
  all_goals exact ⟨_, rfl⟩

/-- Settles O43: the checks of `ctxPacket` come in the order NOTOWNER, BADSTATE, BADFIELD. -/
theorem packetRefusals : Obligations.PacketRefusals := by
  unfold Obligations.PacketRefusals
  refine ⟨fun bl x hx s s1 q p ht hk => ?_, fun s s1 q p ht hk => ?_⟩
  · obtain ⟨go, he⟩ := ctxKinds_packet hx s q
    have hw : decide (p.kind = x.2.1) = true := decide_eq_true hk
    exact ⟨fun ho => he.trans (congrArg Outcome.next (ctxPacket_notOwner ht hw ho)),
      fun ho hs => he.trans (congrArg Outcome.next (ctxPacket_badState ht hw ho hs)),
      fun ho hs hb => he.trans (congrArg Outcome.next (ctxPacket_badField ht hw ho hs hb))⟩
  · exact congrArg Outcome.next (takePacket_taken ht (by simpa using hk))

/-! ### Effects -/

section
variable {s s1 s2 s3 : State} {q : Nat} {p : Pkt}

theorem create_creates {cn : Nat} {ts : List Nat} {tree : Tbl Allot} {bl : List Word} (ht : taken s q = some (s1, p)) (hk : p.kind = 1) (hc : p.ctx = 0)
    (hb : p.reservedOk [(8, 25), (40, 8)] = true) (hlo : 4 ≤ p.f 32 1) (hhi : p.f 32 1 ≤ 20) (hr : rootOk (p.w 16) = true)
    (ho : ownsOne s1 (q / 16) = false) (hf : freeContext s1 = some cn)
    (hcc : createCheck (s1.setCtx cn (newCtx s1 cn q p)) cn p bl = (s2, .ok (ts, tree))) :
    execCreate q bl s = .next (turned s q (pend (ts.foldl (fun t k => t.modTile k fun x => { x with vault := cn })
      (s2.setCtx cn { newCtx s1 cn q p with allots := tree })) q (.measure cn) { p.compl sOK (BitVec.ofNat 64 cn) with ctx := cn })) := by
  refine congrArg Outcome.next ((takePacket_taken ht (decide_eq_true hk)).trans (congrArg (turned s q) ?_))
  refine (if_neg (by simp [hc, hb, hr, hlo, hhi])).trans ((if_neg (by simp [ho])).trans ?_)
  rw [hf]
  unfold newCtx at hcc
  dsimp only at hcc ⊢
  rw [hcc]
  rfl

theorem allot_pends {t : Tbl Allot} {bl : List Word} (h : Accepts s s1 q p 3 active3 [(8, 8)])
    (ht : readTree s1 p.ctx (fun t => (s1.tile t).vault = p.ctx) (p.w 8) bl = (s2, some t)) :
    execAllot q bl s = .next (turned s q (finish (s2.modCtx p.ctx fun c => { c with pending := some t }) p sOK 0)) := by
  refine congrArg Outcome.next ((ctxPacket_accepts h (decide_eq_true h.kind)).trans (congrArg (turned s q) ?_))
  rw [ht]

theorem load_loads {s4 : State} {bs : List Byte} {o : CodeObj} (h : Accepts s s1 q p 4 [.measured, .running] [(8, 16)]) (hn : p.f 16 8 ≤ 2 ^ 30)
    (hc : hubCheck s1 p.ctx (p.w 8) (p.f 16 8) .rd = (s2, .ok ())) (hr : hubReadVa s2 p.ctx (p.w 8) (p.f 16 8) = (s3, .ok bs))
    (ho : codeObj bs (baseFor s3 p.ctx bs) = some o) (hcopy : copySegs s3 p.ctx (baseFor s3 p.ctx bs) bs (elfSegs bs) = (s4, .ok ())) :
    execLoad q s = .next (turned s q
      (finish (appendEvent (s4.modCtx p.ctx fun c => { c with objs := c.objs ++ [o] }) p.ctx 2 bs) p sOK (baseFor s3 p.ctx bs))) := by
  refine congrArg Outcome.next ((ctxPacket_accepts h (decide_eq_true h.kind)).trans (congrArg (turned s q) ?_))
  rw [if_neg (Nat.not_lt.mpr hn), hc]
  dsimp only
  rw [hr]
  dsimp only
  rw [ho, hcopy]

theorem launch_accepts {s4 s5 s6 s7 : State} {bs args : List Byte} {bufs : List Buf} {x : CodeObj × List Placement × BitVec 512 × BitVec 512}
    (h : Accepts s s1 q p 5 [.measured, .running] [(8, 25), (36, 20)]) (hf : launchFieldsOk p = true)
    (hc : hubCheck s1 p.ctx (p.w 16) (p.f 24 4) .rd = (s2, .ok ())) (hc' : hubCheck s2 p.ctx (p.w 40) (32 * p.f 36 4) .rd = (s3, .ok ()))
    (hr : hubReadVa s3 p.ctx (p.w 40) (32 * p.f 36 4) = (s4, .ok bs))
    (hb : bufsOk s4 p.ctx ((List.range (p.f 36 4)).map (bufAt bs)) = (s5, some bufs)) (hl : launchCheck s5 p = (s6, .ok x))
    (ha : hubReadVa s6 p.ctx (p.w 16) (p.f 24 4) = (s7, .ok args)) :
    execLaunch q s = .next (turned s q (acceptLaunch s7 p bufs args x)) := by
  refine congrArg Outcome.next ((ctxPacket_accepts h (decide_eq_true h.kind)).trans (congrArg (turned s q) ?_))
  rw [hf, hc]
  dsimp only
  rw [hc']
  dsimp only
  rw [hr]
  dsimp only
  rw [hb]
  dsimp only
  rw [hl]
  dsimp only
  rw [ha]
  rfl

theorem copy_copies {s4 s5 : State} {bs : List Byte} (h : Accepts s s1 q p 6 active3 [(8, 24)])
    (hc : hubCheck s1 p.ctx (p.w 16) (p.f 24 8) .rd = (s2, .ok ())) (hc' : hubCheck s2 p.ctx (p.w 8) (p.f 24 8) .wr = (s3, .ok ()))
    (hr : hubReadVa s3 p.ctx (p.w 16) (p.f 24 8) = (s4, .ok bs)) (hw : hubWriteVa s4 p.ctx (p.w 8) bs = (s5, .ok ())) :
    execCopy q s = .next (turned s q (finish s5 p sOK 0)) := by
  refine congrArg Outcome.next ((ctxPacket_accepts h (decide_eq_true h.kind)).trans (congrArg (turned s q) ?_))
  rw [hc]
  dsimp only
  rw [hc']
  dsimp only
  rw [hr]
  dsimp only
  rw [hw]

theorem receipt_asks (h : Accepts s s1 q p 7 active3 [(8, 9), (24, 8)]) (hn : p.f 16 1 ≤ 32)
    (hc : outCheck s1 p.ctx (p.w 24) (receiptLen (p.f 16 1)) .wr = (s2, .ok ())) :
    execReceipt q s = .next (turned s q (if s2.fw.window then { s2 with fw := { s2.fw with held := s2.fw.held ++ [receiptOf q p] } }
      else { s2 with fw := { s2.fw with pend := s2.fw.pend ++ [fixReceipt s2 (receiptOf q p)] } })) := by
  refine congrArg Outcome.next ((ctxPacket_accepts h (decide_eq_true h.kind)).trans (congrArg (turned s q) ?_))
  rw [if_neg (Nat.not_lt.mpr hn), hc]
  rfl

theorem signal_writes (h : Accepts s s1 q p 9 liveStates [(8, 16)]) (ha : p.f 8 8 % 8 = 0) (hc : hubCheck s1 p.ctx (p.w 8) 8 .wr = (s2, .ok ()))
    (hw : hubWriteVa s2 p.ctx (p.w 8) (bytesOf 8 (p.w 16)) = (s3, .ok ())) :
    execSignal q s = .next (turned s q (finish s3 p sOK 0)) := by
  refine congrArg Outcome.next ((ctxPacket_accepts h (decide_eq_true h.kind)).trans (congrArg (turned s q) ?_))
  rw [if_neg (Classical.not_not.mpr ha), hc]
  dsimp only
  rw [hw]

/-- The groups that a PREEMPT packet moves are asked to. -/
def askMoves (s : State) (p : Pkt) (restore : Bool) : State :=
  (subtreeGroups s p.ctx (p.f 8 2)).foldl (fun s g => if 512 ≤ g.2.2 then s
    else if restore then (if runsOn s g.2.2 p.ctx then requestRestore s g.2.2 else s) else requestPreempt s g.2.2) s

theorem preemptPacket_moves (restore : Bool) (h : Accepts s s1 q p 10 active3 [(8, 3)]) (hr : p.f 10 1 = if restore then 1 else 0)
    (ha : (Tbl.find? (s1.ctx p.ctx).allots (p.f 8 2)).isSome = true) (hrun : (s1.ctx p.ctx).st = .running) :
    preemptPacket q restore s = turned s q (pend (askMoves s1 p restore) q
      (.move ((subtreeGroups s1 p.ctx (p.f 8 2)).map fun g => (g.1, g.2.1)) restore) (p.compl sOK 0)) := by
  have hw : (decide (p.kind = 10) && decide ((p.f 10 1 % 2 = 1) = (restore = true))) = true := by
    rw [h.kind, hr]; cases restore <;> simp
  refine (ctxPacket_accepts h hw).trans (congrArg (turned s q) ?_)
  refine (if_neg ?_).trans ((if_neg (Classical.not_not.mpr hrun)).trans ?_)
  · have : ¬ 2 ≤ p.f 10 1 := by rw [hr]; cases restore <;> decide
    simp [this, Option.isSome_iff_ne_none.mp ha]
  · cases restore <;> rfl

theorem grouptab_writes {bs : List Byte} (h : Accepts s s1 q p 11 active3 [(8, 6), (16, 8)]) (hn : 0 < p.f 12 2)
    (hc : hubCheck s1 p.ctx (p.w 16) (8 * p.f 12 2) .rd = (s2, .ok ())) (hr : hubReadVa s2 p.ctx (p.w 16) (8 * p.f 12 2) = (s3, .ok bs))
    (hm : ∀ m ∈ (List.range (p.f 12 2)).map fun i => memberOf s3 ((bs.drop (8 * i)).take 8), m ≠ none)
    (hfull : (Tbl.find? (s3.ctx p.ctx).groups (p.f 8 4)).isSome = true ∨ (s3.ctx p.ctx).groups.length < 1024) :
    let ms := (List.range (p.f 12 2)).map fun i => memberOf s3 ((bs.drop (8 * i)).take 8)
    execGrouptab q s = .next (turned s q
      (finish (s3.modCtx p.ctx fun c => { c with groups := Tbl.set c.groups (p.f 8 4) (ms.filterMap id) }) p sOK 0)) := by
  refine congrArg Outcome.next ((ctxPacket_accepts h (decide_eq_true h.kind)).trans (congrArg (turned s q) ?_))
  refine (if_neg (Nat.pos_iff_ne_zero.mp hn)).trans ?_
  rw [hc]
  dsimp only
  rw [hr]
  have hnone : ((List.range (p.f 12 2)).map fun i => memberOf s3 ((bs.drop (8 * i)).take 8)).any (·.isNone) = false := by
    rw [List.any_eq_false]
    intro m hmem
    simpa using hm m hmem
  have hroom : ((Tbl.find? (s3.ctx p.ctx).groups (p.f 8 4)).isNone && decide (1024 ≤ (s3.ctx p.ctx).groups.length)) = false := by
    rcases hfull with hf | hf
    · rw [← Option.not_isSome, hf]; rfl
    · rw [decide_eq_false (Nat.not_le.mpr hf), Bool.and_false]
  exact if_neg (by rw [hnone, hroom]; exact Bool.false_ne_true)

theorem grouptab_erases (h : Accepts s s1 q p 11 active3 [(8, 6), (16, 8)]) (hn : p.f 12 2 = 0) :
    execGrouptab q s = .next (turned s q (finish (s1.modCtx p.ctx fun c => { c with groups := Tbl.erase c.groups (p.f 8 4) }) p sOK 0)) :=
  congrArg Outcome.next ((ctxPacket_accepts h (decide_eq_true h.kind)).trans (congrArg (turned s q) (if_pos hn)))

theorem peertab_writes (ht : taken s q = some (s1, p)) (hk : p.kind = 12) (hq : q < 16) (hc : p.ctx = 0) (hb : p.reservedOk [(8, 4), (16, 8)] = true)
    (hp : p.f 8 1 ≤ 254) (hv : p.f 9 1 < 2) (hl : p.f 10 2 < 4096) :
    let e : Peer := { valid := p.f 9 1 = 1, links := BitVec.ofNat 12 (p.f 10 2), devser := p.w 16 }
    execPeertab q s = .next (turned s q (finish { s1 with peers := Tbl.set s1.peers (p.f 8 1) e } p sOK 0)) := by
  refine congrArg Outcome.next ((takePacket_taken ht (decide_eq_true hk)).trans (congrArg (turned s q) ?_))
  exact (if_neg (Classical.not_not.mpr (Nat.div_eq_of_lt hq))).trans (if_neg (by simp [hc, hb, hp, hv, hl]))

end

/-- Settles O44, packet by packet: each passes the common checks (`ctxPacket_accepts`), then its own. -/
theorem packetResult : Obligations.PacketResult := by
  unfold Obligations.PacketResult
  refine ⟨fun s s1 s2 q cn p ts tree bl => create_creates, fun s s1 q p h => ?_, fun s s1 s2 q p t bl => allot_pends,
    fun s s1 s2 s3 s4 q p bs o => load_loads, fun s s1 s2 s3 s4 s5 s6 s7 q p bs args bufs x => launch_accepts,
    fun s s1 s2 s3 s4 s5 q p bs => copy_copies, fun s s1 s2 q p => receipt_asks, fun s s1 q p h => ?_, fun s s1 s2 s3 q p => signal_writes,
    fun x hx s s1 q p h hr ha hrun => ?_, fun s s1 s2 s3 q p bs h hn hc hr => grouptab_writes h hn hc hr, fun s s1 q p => grouptab_erases,
    fun s s1 q p => peertab_writes⟩
  · exact congrArg Outcome.next (ctxPacket_accepts h (decide_eq_true h.kind))
  · exact congrArg Outcome.next (ctxPacket_accepts h (decide_eq_true h.kind))
  · simp only [List.mem_cons, List.not_mem_nil, or_false] at hx
    rcases hx with rfl | rfl
    · exact congrArg Outcome.next (preemptPacket_moves false h hr ha hrun)
    · exact congrArg Outcome.next (preemptPacket_moves true h hr ha hrun)

end Sys2Proof.Proofs
end

section
/-!
PROOFS. Completion entries, receipts and the end of a teardown (R326, R327, R329, R340).
-/
namespace Sys2Proof.Proofs
open Sys2Proof Sys2Proof.Machine Sys2Proof.Machine.State Sys2Proof.Claims
open Host (Outcome)

/-! ### Completion entries (R340) -/

/-- A queue whose oldest completion stands in its ring. -/
def entered (q : Nat) (c : Compl) (r : List Compl) (vec : BitVec 8) (s : State) : State :=
  let s := s.modQueue q fun x => { x with compls := r, opened := x.opened.filter (· ≠ c.index), ctail := x.ctail + 1 }
  if c.notify then { s with dev := { s.dev with msix := s.dev.msix ++ [(q / 16, vec.toNat)] } } else s

theorem completionEntryWrite_enters {s s1 : State} {q : Nat} {c : Compl} {r : List Compl} {x : Queue} (hx : (settlePends (measureNew s q) q).queue q = x)
    (hc : x.compls = c :: r) (hr : x.ringerr = false) (hroom : (x.ctail - x.chead).toNat < 2 ^ x.logn.toNat)
    (hw : ringWrite (settlePends (measureNew s q) q) q x.cbase (x.ctail.toNat % 2 ^ x.logn.toNat * 32) (complBytes c x.ctail.toNat x.logn.toNat) = (s1, .ok ())) :
    execCompletionEntryWrite q s = .next (waited s ((settlePends (entered q c r x.vec s1) q).modQueue q Queue.after)) := by
  subst hx
  refine congrArg Outcome.next (heldBack_waited ?_)
  simp only [hc, hr, Bool.false_eq_true, if_false]
  rw [if_neg (Nat.not_le.mpr hroom), hw]
  rfl

/-! ### Receipts (R326, R327) -/

/-- A receipt request completes with what became of the write of its `n` bytes. -/
def written (r : ReceiptReq) (n : Nat) : State × Except Fail Unit → State
  | (s, .error f) => complete s r.queue { r.compl with status := sFAILED, value := BitVec.ofNat 64 f.1.toNat }
  | (s, .ok ()) => complete s r.queue { r.compl with status := sOK, value := BitVec.ofNat 64 n }

theorem receiptSigned_signs {s s1 : State} {r : ReceiptReq} {rest : List ReceiptReq} (hp : s.fw.pend = r :: rest) (hw : s.fw.window = false)
    (hk : s.fw.keyNext < s.fw.keyEnd) (hlim : s.fw.keyNext < 2 ^ 30) :
    let s0 := { s with fw := { s.fw with pend := rest, keyNext := s.fw.keyNext + 1 } }
    let bs := receiptBody s0 r ++ hssSignature s.fw.keyNext (receiptBody s0 r)
    outWrite s0 r.ctx r.out bs = (s1, .ok ()) →
    execReceiptSigned s = .next (waited s (complete s1 r.queue { r.compl with status := sOK, value := BitVec.ofNat 64 bs.length })) := by
  intro s0 bs ho
  refine congrArg Outcome.next (heldBack_waited ?_)
  simp only [hp]
  refine (if_neg (by simp [hw])).trans ?_
  rw [if_pos hk]
  refine (if_neg (Nat.not_le.mpr hlim)).trans ?_
  change written r bs.length (outWrite s0 r.ctx r.out bs) = _
  rw [ho]
  rfl

/-! ### The end of a teardown (R329) -/

/-- Nothing of the context is left in its tables, translations and queues. -/
structure NoTrace (cn : Nat) (t : State) : Prop where
  free    : (t.ctx cn).st = .free
  kernels : ∀ kk ∈ t.kernels, kk.2.ctx ≠ cn
  tasks   : ∀ x ∈ t.tasks, x.ctx ≠ cn
  tlb     : ∀ kt ∈ t.tiles, ∀ e ∈ kt.2.tlb, e.ctx ≠ cn
  walks   : ∀ e ∈ t.walkCache, e.2.ctx ≠ cn
  threads : ∀ kt ∈ t.threads, kt.2.ctx ≠ cn

theorem teardownComplete_noTrace {s : State} {cn : Nat} (hst : (s.ctx cn).st = .teardown) (hm : mayFree s cn = true) :
    ∃ t, execTeardownComplete cn s = .next t ∧ NoTrace cn t := by
  refine ⟨_, congrArg Outcome.next (if_neg (by simp [hst, hm])), ?_⟩
  refine { free := ?_, kernels := fun kk hk => ?_, tasks := fun x hx => ?_, tlb := fun kt hkt e he => ?_, walks := fun e he => ?_, threads := fun kt hk => ?_ }
  · simp only [State.ctx, Tbl.get, Tbl.find?_set_self]
    rfl
  · simpa using (List.mem_filter.mp hk).2
  · simpa using (List.mem_filter.mp hx).2
  · obtain ⟨x, -, rfl⟩ := List.mem_map.mp hkt
    simpa using (List.mem_filter.mp he).2
  · simpa using (List.mem_filter.mp he).2
  · simpa using (List.mem_filter.mp hk).2

/-- Settles O45. -/
theorem completionResult : Obligations.CompletionResult := by
  unfold Obligations.CompletionResult
  refine ⟨fun s s1 q c r hc hr hroom hw => completionEntryWrite_enters rfl hc hr hroom hw, fun s s1 r rest hp hw hk hlim => receiptSigned_signs hp hw hk hlim,
    fun s cn hst hm => ?_⟩
  obtain ⟨t, he, hfree, hk, ht, htlb, hw, hth⟩ := teardownComplete_noTrace hst hm
  exact ⟨t, he, hfree, hk, ht, htlb, hw, hth⟩

end Sys2Proof.Proofs
end

section
/-!
PROOFS. The host's accesses: queue registers, `PW0` registers, reads, `PW2` and a function-level reset (R8, R29, R31, R304, R330 to R332, R340, R341, R403, R416, R417).
-/
namespace Sys2Proof.Proofs
open Sys2Proof Sys2Proof.Machine Sys2Proof.Machine.State Sys2Proof.Claims
open Host (Outcome)

/-! ### Requests in their order (R304, R411) -/

section
variable {s : State} (h : HostOpen s)
include h

theorem inOrder_open (r : HostReq) (f : State → State) : inOrder r f s = f s := by
  obtain ⟨hup, hp⟩ := h
  unfold inOrder
  rw [if_neg (Classical.not_not.mpr hup), hp]
  rfl

theorem fromHost_open (r : HostReq) : fromHost r s = hostPerform r s := inOrder_open h r _

end

theorem orPosted_queued {r : HostReq} {f : State → State} {s t : State} (h : f s = t) : orPosted r f s = queued r s t := by
  subst h; rfl

/-! ### Queue registers -/

theorem modQueue_congr {s : State} {q : Nat} {f g : Queue → Queue} (h : f (s.queue q) = g (s.queue q)) : s.modQueue q f = s.modQueue q g := by
  unfold modQueue; rw [h]

/-- A write at a queue's own offset reaches that queue once service level 1 has been entered. -/
theorem registerWrite_queue {s : State} {q off : Nat} (v : Word) (hq : q < 1024) (ho : off < 0x1000) :
    registerWrite s (q / 16) (.pw4 (q * 0x1000 + off)) v = pw4Write s q off v := by
  have hf : ¬ 64 ≤ q / 16 := by omega
  have hown : (q * 0x1000 + off) / 0x10000 = q / 16 := by omega
  have hdiv : (q * 0x1000 + off) / 0x1000 = q := by omega
  have hmod : (q * 0x1000 + off) % 0x1000 = off := by omega
  unfold registerWrite
  rw [if_neg hf]
  dsimp only
  rw [if_pos hown, hdiv, hmod]

theorem onQueue_running {s : State} {q : Nat} (hr : s.fw.running = true) (hq : q < 1024) (f : Queue → Queue) : onQueue s q f = s.modQueue q f :=
  if_pos (by simp [pw4Open, hr, hq])

theorem queueRegisterResult : QueueRegisterResult := by
  unfold QueueRegisterResult
  refine ⟨fun s q v h hr hq => ?_, fun x t he hh ht => ?_, fun x t hn => ?_⟩
  · have hw : ∀ off < 0x1000, fromHost (queueReq q off v) s = pw4Write s q off v :=
      fun off ho => (fromHost_open h _).trans (registerWrite_queue v hq ho)
    refine ⟨?_, ?_, ?_, ?_, ?_, ?_, fun he hd => ?_⟩
    · exact congrArg Outcome.next ((hw 0x08 (by omega)).trans (onQueue_running hr hq _))
    · exact congrArg Outcome.next ((hw 0x10 (by omega)).trans (onQueue_running hr hq _))
    · exact congrArg Outcome.next ((hw 0x30 (by omega)).trans (onQueue_running hr hq _))
    · exact congrArg Outcome.next ((hw 0x38 (by omega)).trans (onQueue_running hr hq _))
    · exact congrArg Outcome.next ((hw 0x08 (by omega)).trans (onQueue_running hr hq _))
    · exact congrArg Outcome.next ((hw 0x10 (by omega)).trans (onQueue_running hr hq _))
    · have h0 := hw 0 (by omega)
      rw [queueReq, Nat.add_zero] at h0
      exact congrArg Outcome.next (h0.trans ((onQueue_running hr hq _).trans (modQueue_congr (if_pos (by simp [he, hd])))))
  · unfold Queue.writeTail
    rw [if_pos (by simp only [he, hh, ht, decide_true, Bool.and_self])]
    exact ⟨rfl, rfl⟩
  · unfold Queue.writeTail
    rw [if_neg (by rcases hn with h | h <;> simp only [h, Bool.false_and, Bool.and_false, Bool.false_eq_true, not_false_eq_true, Nat.not_le.mpr, decide_false])]
    exact ⟨rfl, rfl⟩

/-! ### Registers of `PW0` -/

section
variable {s : State} (h : HostOpen s)
include h

theorem pw0_write (hs : s.dev.service ≠ 0) {f : Nat} (hf : f < 64) (off : Nat) (v : Word) :
    fromHost (.regWrite f (.pw0 off) v) s = if f = 0 then pfWrite s off v else vfWrite s f off v := by
  rw [fromHost_open h]
  exact (if_neg (Nat.not_le.mpr hf)).trans (if_neg hs)

/-- A translation register of a context, by its offset. -/
theorem transReq_writes (hs : s.dev.service ≠ 0) {cn off : Nat} (hc : cn < 4096) (ho : off < 0x20) (v : Word) :
    fromHost (transReq cn off v) s = transWrite s cn off v := by
  have hdiv : (0x1000000 + 0x20 * cn + off - 0x1000000) / 0x20 = cn := by omega
  have hmod : (0x1000000 + 0x20 * cn + off) % 0x20 = off := by omega
  have hin : (decide (0x1000000 ≤ 0x1000000 + 0x20 * cn + off) && decide (0x1000000 + 0x20 * cn + off < 0x1000000 + 0x20 * 4096)) = true := by
    simp only [Bool.and_eq_true, decide_eq_true_eq]; omega
  unfold transReq
  rw [pw0_write h hs (by omega), if_pos rfl]
  unfold pfWrite
  rw [if_neg (by omega), if_neg (by omega), if_neg (by simp only [Bool.and_eq_true, decide_eq_true_eq]; omega),
    if_neg (by simp only [Bool.and_eq_true, decide_eq_true_eq]; omega), if_pos hin, hdiv, hmod]

theorem pw0_read (hs : s.dev.service ≠ 0) {f off : Nat} (hf : f < 64) (ho : off ≠ 0) :
    fromHost (.regRead f (.pw0 off)) s =
      reply (if f = 0 then pfRead s off else vfRead s f off).1 f (if f = 0 then pfRead s off else vfRead s f off).2 := by
  rw [fromHost_open h]
  refine (if_neg (Nat.not_le.mpr hf)).trans ?_
  dsimp only [regRead, pw0Read]
  rw [if_neg ho, if_neg hs]

theorem lerr_reads (hs : s.dev.service ≠ 0) {n : Nat} (hn : n < 21) :
    execLerr n s = .next (replied (s.modLink n fun l => { l with retrain := 0, replay := 0, crcErr := 0 }) 0
      (some (bytesOf 8 ((s.link n).retrain ++ ((s.link n).replay ++ (s.link n).crcErr) : Word)))) := by
  have hr : pfRead s (0x10010 + 0x40 * n) = readLerr s n := by
    unfold pfRead
    rw [if_neg (by omega), if_neg (by omega), if_pos (by simp only [Bool.and_eq_true, decide_eq_true_eq]; omega),
      show (0x10010 + 0x40 * n - 0x10000) / 0x40 = n by omega, show (0x10010 + 0x40 * n) % 0x40 = 16 by omega]
    rfl
  refine congrArg Outcome.next ((pw0_read h hs (by omega) (by omega)).trans ?_)
  rw [if_pos rfl, hr]
  rfl

theorem pw2err_reads (hs : s.dev.service ≠ 0) {f : Nat} (hf : f < 64) :
    execPw2err f s = .next (replied (s.modFunc f fun x => { x with pw2err := 0 }) f (some (bytesOf 8 ((s.func f).pw2err.setWidth 64)))) := by
  by_cases h0 : f = 0
  · subst h0
    exact congrArg Outcome.next (pw0_read (f := 0) (off := 0x200010) h hs (by omega) (by omega))
  · unfold execPw2err
    rw [if_neg h0]
    refine congrArg Outcome.next ((pw0_read (off := 0x210) h hs hf (by omega)).trans ?_)
    rw [if_neg h0]
    rfl

end

/-- The value that a write of MAPSEQ adds to the context's queue. -/
def mapReq (s : State) (cn : Nat) (v : Word) : MapReq :=
  { value := v, ns := s.dev.hubNs, lease := longestLease s cn, gone := ((facesNow s).faces.filter fun f => f.2.ctx = cn && f.2.gone).map (·.1) }

theorem mapseqWrite_ctx (s : State) {cn : Nat} (v : Word) (hc : cn < 4096) :
    (mapseqWrite s cn v).ctx cn = { s.ctx cn with mapseq := v, mapq := (s.ctx cn).mapq ++ [mapReq s cn v] } := by
  unfold mapseqWrite
  rw [if_neg (Nat.not_le.mpr hc)]
  exact ctx_modCtx s cn fun c => { c with mapseq := v, mapq := c.mapq ++ [mapReq s cn v] }

/-- A write of MAPSEQ asks for a replay of each stalled errand of its context. -/
theorem mapseqWrite_agenda (s : State) {cn : Nat} (v : Word) (hc : cn < 4096) {i : Instr}
    (hi : ∃ x ∈ allErrands s, x.2.2.ctx = cn ∧ x.2.2.stalled ≠ none ∧ i = Instr.fetchReplay x.1 x.2.1) : Move.event i ∈ (mapseqWrite s cn v).agenda := by
  obtain ⟨x, hx, hctx, hst, rfl⟩ := hi
  unfold mapseqWrite
  rw [if_neg (Nat.not_le.mpr hc)]
  refine List.mem_append_right _ (List.mem_map.mpr ⟨x, List.mem_filter.mpr ⟨hx, ?_⟩, rfl⟩)
  simp [hctx, Option.isSome_iff_ne_none, hst]

theorem mapseqWrite_frame (s : State) {cn : Nat} (v : Word) (hc : cn < 4096) :
    mapseqWrite s cn v = { s with ctxs := (mapseqWrite s cn v).ctxs, agenda := (mapseqWrite s cn v).agenda } := by
  unfold mapseqWrite
  rw [if_neg (Nat.not_le.mpr hc)]
  rfl

theorem mapdoneAdvance_takes {s : State} {cn : Nat} {r : MapReq} {rest : List MapReq} (hm : (s.ctx cn).mapq = r :: rest)
    (hd : r.ns + 1000 * r.lease + 1000 ≤ s.dev.hubNs) (ho : underOld s cn r = false) :
    execMapdoneAdvance cn s = .next { s.modCtx cn (fun c => { c with mapdone := r.value, mapq := rest }) with
      faces := s.faces.filter fun f => !r.gone.contains f.1 } := by
  refine congrArg Outcome.next ?_
  simp only [hm]
  exact if_neg (by simp only [MapReq.due, ho, Nat.not_lt.mpr hd, decide_false, Bool.or_self, Bool.false_eq_true, not_false_eq_true])

theorem hostRegisterResult : HostRegisterResult := by
  unfold HostRegisterResult
  refine ⟨fun s v h hs => ⟨?_, rfl⟩, fun s v h => ⟨?_, ?_⟩, fun s f v h hs hf hlt => ?_, fun s cn v h hs hc => ⟨?_, ?_⟩, fun s cn r rest => mapdoneAdvance_takes,
    fun s n h hs => lerr_reads h hs, fun s f h hs => pw2err_reads h hs⟩
  · exact congrArg Outcome.next (pw0_write h hs (by omega) 0x100 v)
  · exact congrArg Outcome.next (fromHost_open h _)
  · exact congrArg Outcome.next (fromHost_open h _)
  · exact congrArg Outcome.next ((pw0_write h hs hlt 0x200 v).trans (if_neg (by omega)))
  · exact congrArg Outcome.next ((transReq_writes h hs hc (by omega) v).trans (if_pos hc))
  · have hctx := mapseqWrite_ctx s v hc
    exact ⟨congrArg Outcome.next (transReq_writes h hs hc (by omega) v), congrArg Ctx.mapseq hctx, ⟨mapReq s cn v, congrArg Ctx.mapq hctx, rfl, rfl, rfl⟩,
      fun i => mapseqWrite_agenda s v hc, mapseqWrite_frame s v hc⟩

theorem hostOrderResult : HostOrderResult := by
  unfold HostOrderResult
  refine fun s f r v => ⟨fun hup hp => ?_, fun hup ho => ?_⟩
  · refine congrArg Outcome.next ((if_neg (Classical.not_not.mpr hup)).trans (if_neg ?_))
    rwa [List.isEmpty_iff]
  · exact congrArg Outcome.next ((if_pos hup).trans (if_neg (by rw [ho]; exact Bool.false_ne_true)))

end Sys2Proof.Proofs
end

section
/-!
PROOFS. The host's accesses, continued: reads of registers, `PW2`, and a function-level reset (R8, R31, R314, R330, R341, R403, R416, R417, R428).
-/
namespace Sys2Proof.Proofs
open Sys2Proof Sys2Proof.Machine Sys2Proof.Machine.State Sys2Proof.Claims
open Host (Outcome)

/-! ### Reads of registers -/

/-- The low field of a register that holds two. -/
theorem extractLsb'_low_append {m n : Nat} (a : BitVec m) (b : BitVec n) (w : Nat) (hw : m + n ≤ w) :
    ((a ++ b).setWidth w).extractLsb' 0 n = b := by
  refine BitVec.eq_of_getLsbD_eq fun i hi => ?_
  have hlt : i < w := by omega
  simp [BitVec.getLsbD_append, hi, hlt]

theorem dvsec_vendor (s : State) : (regRead s 0 (.dvsec 4)).2.extractLsb' 0 16 = Config.vendorId := by
  have h : (regRead s 0 (.dvsec 4)).2 = (Config.dvsecRest 4 ++ Config.vendorId).setWidth 64 := rfl
  rw [h, extractLsb'_low_append (Config.dvsecRest 4) Config.vendorId 64 (by omega)]

theorem dvsec_id (s : State) : (regRead s 0 (.dvsec 8)).2.extractLsb' 0 16 = 0x0001#16 := by
  have h : (regRead s 0 (.dvsec 8)).2 = (Config.dvsecRest 8 ++ 0x0001#16).setWidth 64 := rfl
  rw [h, extractLsb'_low_append (Config.dvsecRest 8) 0x0001#16 64 (by omega)]

/-- The busy and RINGERR bits of QSTAT. -/
theorem qstat_bits (x : Queue) : (x.read 0x38).getLsbD 0 = !x.opened.isEmpty ∧ (x.read 0x38).getLsbD 3 = x.ringerr := by
  simp only [Queue.read]
  cases x.ringerr <;> cases x.dberr <;> cases x.cfgerr <;> cases x.opened.isEmpty <;> decide

/-- The enable bit of QCFG. -/
theorem qcfg_en (x : Queue) : (x.read 0x08).getLsbD 8 = x.en := by
  have hl := x.logn.isLt
  have hv := x.vec.isLt
  simp only [Queue.read, BitVec.getLsbD_ofNat, Nat.testBit_eq_decide_div_mod_eq]
  cases x.loc <;> cases x.en
  all_goals
    simp only [if_true, if_false, Bool.false_eq_true, decide_eq_false_iff_not, decide_eq_true_eq, Bool.and_eq_true, Bool.and_eq_false_imp]
    omega

/-- A read at a queue's own offset. -/
theorem regRead_queue (s : State) {q off : Nat} (ho : off < 0x1000) :
    (regRead s (q / 16) (.pw4 (q * 0x1000 + off))).2 = if pw4Open s q then (s.queue q).read off else 0 := by
  have hown : (q * 0x1000 + off) / 0x10000 = q / 16 := by omega
  have hdiv : (q * 0x1000 + off) / 0x1000 = q := by omega
  have hmod : (q * 0x1000 + off) % 0x1000 = off := by omega
  simp only [regRead, hown, hdiv, hmod, decide_true, Bool.true_and]

theorem regRead_foreign (s : State) {f off : Nat} (h : f ≠ off / 0x10000) : (regRead s f (.pw4 off)).2 = 0 :=
  if_neg (by simp [Ne.symm h])

section
variable {s : State} (hs : s.dev.service ≠ 0)
include hs

theorem regRead_pf {off : Nat} (ho : off ≠ 0) : regRead s 0 (.pw0 off) = pfRead s off :=
  (if_neg ho).trans ((if_neg hs).trans (if_pos rfl))

theorem regRead_trans {c off : Nat} (hc : c < 4096) (ho : off < 0x20) : (regRead s 0 (.pw0 (0x1000000 + 0x20 * c + off))).2 = transRead s c off := by
  rw [regRead_pf hs (by omega)]
  unfold pfRead
  rw [if_neg (by omega), if_neg (by omega), if_neg (by simp only [Bool.and_eq_true, decide_eq_true_eq]; omega),
    if_neg (by simp only [Bool.and_eq_true, decide_eq_true_eq]; omega), if_neg (by simp only [Bool.and_eq_true, decide_eq_true_eq]; omega),
    if_pos (by simp only [Bool.and_eq_true, decide_eq_true_eq]; omega), show (0x1000000 + 0x20 * c + off - 0x1000000) / 0x20 = c by omega,
    show (0x1000000 + 0x20 * c + off) % 0x20 = off by omega]

end

/-- DIERST as it reads: GO is write-only, and SEL stands in bits [5:4]. -/
theorem dierst_bits (stat : BitVec 8) (sel : BitVec 2) :
    (BitVec.ofNat 64 (stat.toNat * 2 ^ 8 + sel.toNat * 2 ^ 4)).getLsbD 0 = false ∧
    (BitVec.ofNat 64 (stat.toNat * 2 ^ 8 + sel.toNat * 2 ^ 4)).extractLsb' 4 2 = sel := by
  have h1 := stat.isLt
  have h2 := sel.isLt
  refine ⟨?_, BitVec.eq_of_toNat_eq ?_⟩
  · simp only [BitVec.getLsbD_ofNat, Nat.testBit_eq_decide_div_mod_eq, Bool.and_eq_false_imp, decide_eq_true_eq, decide_eq_false_iff_not]
    omega
  · simp only [BitVec.extractLsb'_toNat, BitVec.toNat_ofNat, Nat.shiftRight_eq_div_pow]
    omega

theorem hostReadResult : HostReadResult := by
  unfold HostReadResult
  refine ⟨fun s f => rfl, fun s f off hs ho => (if_neg ho).trans (if_pos hs), fun s f off n v => ⟨rfl, fun hn => ⟨if_neg hn, fun h hf => ?_⟩⟩,
    fun s => ⟨dvsec_vendor s, dvsec_id s⟩, fun s q hq => ?_, fun s hs => ⟨?_, ?_, ?_, fun c hc => ⟨?_, ?_, ?_⟩⟩⟩
  · exact congrArg Outcome.next ((fromHost_open h _).trans ((if_neg (Nat.not_le.mpr hf)).trans (if_neg hn)))
  · intro rd x
    have hopen : ∀ off < 0x1000, rd off = if pw4Open s q then x.read off else 0 := fun off ho => regRead_queue s ho
    refine ⟨fun hr => ?_, fun hr off ho => ?_, fun f off => regRead_foreign s⟩
    · have hrd : ∀ off < 0x1000, rd off = x.read off := fun off ho => (hopen off ho).trans (if_pos (by simp [pw4Open, hr, hq]))
      rw [hrd 0x00 (by omega), hrd 0x10 (by omega), hrd 0x18 (by omega), hrd 0x20 (by omega), hrd 0x28 (by omega), hrd 0x30 (by omega), hrd 0x38 (by omega),
        hrd 0x08 (by omega)]
      exact ⟨rfl, rfl, rfl, rfl, rfl, rfl, (qstat_bits x).1, (qstat_bits x).2, qcfg_en x⟩
    · exact (hopen off ho).trans (if_neg (by simp [pw4Open, hr]))
  · rw [regRead_pf hs (by omega)]; rfl
  · rw [regRead_pf hs (by omega)]; exact (dierst_bits _ _).1
  · rw [regRead_pf hs (by omega)]; exact (dierst_bits _ _).2
  · exact regRead_trans (off := 0) hs hc (by omega)
  · exact regRead_trans (off := 8) hs hc (by omega)
  · exact regRead_trans (off := 16) hs hc (by omega)

/-! ### `PW2` (R417) -/

theorem pw2In_iff {f off n : Nat} (hf : f < 64) (hn : off + n ≤ 2 ^ 38) : pw2In f off n = true := by
  simp only [pw2In, hf, hn, decide_true, Bool.and_self]

section
variable {s s1 s2 : State} {f off : Nat} (hf : f < 64) (hs : s.dev.service ≠ 0)
include hf hs

theorem pw2ReadNow_reads {n : Nat} {r : Except Fail (List Byte)} (hn : off + n ≤ 2 ^ 38) (hc : pw2Check s f off n .rd = (s1, .ok ()))
    (hr : pw2Read s1 f off n = (s2, r)) : pw2ReadNow f off n s = queued (.pw2Read f off n) s (replied s2 f r.toOption) := by
  unfold pw2ReadNow
  rw [if_neg (by rw [pw2In_iff hf hn]; decide), if_neg hs]
  refine orPosted_queued ?_
  rw [hc]
  dsimp only
  rw [hr]
  cases r <;> rfl

theorem pw2ReadNow_fails {n : Nat} {x : Fail} (hn : off + n ≤ 2 ^ 38) (hc : pw2Check s f off n .rd = (s1, .error x)) :
    pw2ReadNow f off n s = queued (.pw2Read f off n) s (replied (pw2Failed s1 f) f none) := by
  unfold pw2ReadNow
  rw [if_neg (by rw [pw2In_iff hf hn]; decide), if_neg hs]
  refine orPosted_queued ?_
  rw [hc]
  rfl

theorem pw2WriteNow_writes {bs : List Byte} {r : Except Fail Unit} (hn : off + bs.length ≤ 2 ^ 38) (hc : pw2Check s f off bs.length .wr = (s1, .ok ()))
    (hw : pw2Write s1 f off bs = (s2, r)) : pw2WriteNow f off bs s = queued (.pw2Write f off bs) s s2 := by
  unfold pw2WriteNow
  rw [if_neg (by rw [pw2In_iff hf hn]; simpa using hs)]
  refine orPosted_queued ?_
  rw [hc]
  dsimp only
  rw [hw]

theorem pw2WriteNow_fails {bs : List Byte} {x : Fail} (hn : off + bs.length ≤ 2 ^ 38) (hc : pw2Check s f off bs.length .wr = (s1, .error x)) :
    pw2WriteNow f off bs s = queued (.pw2Write f off bs) s (pw2Failed s1 f) := by
  unfold pw2WriteNow
  rw [if_neg (by rw [pw2In_iff hf hn]; simpa using hs)]
  refine orPosted_queued ?_
  rw [hc]
  rfl

end

/-! ### What a stop leaves of the host queues -/

theorem hubSide_syncHead (s : State) (cn i : Nat) : hubSide (syncHead s cn i) = hubSide s := by
  unfold syncHead
  dsimp only
  split <;> rfl

theorem hubSide_modAct (s : State) (n : Nat) (f : Act → Act) : hubSide (s.modAct n f) = hubSide s := by
  unfold modAct; split <;> rfl

theorem hubSide_modKern (s : State) (n : Nat) (f : Kernel → Kernel) : hubSide (s.modKern n f) = hubSide s := by
  unfold modKern; split <;> rfl

theorem hubSide_modErrand (s : State) (n i : Nat) (f : Errand → Errand) : hubSide (s.modErrand n i f) = hubSide s := by
  unfold modErrand; split <;> rfl

theorem hubSide_dropInst (s : State) (i : Nat) : hubSide (dropInst s i) = hubSide s := by
  unfold dropInst
  split
  · rfl
  · dsimp only
    split
    · exact hubSide_modAct ..
    · exact hubSide_modAct ..

theorem hubSide_dropAct (s : State) (n : Nat) : hubSide (dropAct s n) = hubSide s := by
  unfold dropAct
  split
  · rfl
  · exact hubSide_foldl (fun s i => hubSide_dropInst s i) _ _

theorem hubSide_orphanErrands (s : State) (kn tile : Nat) : hubSide (orphanErrands s kn tile) = hubSide s := by
  refine hubSide_foldl (fun s x => ?_) _ _
  split
  · split
    · exact hubSide_reap ..
    · exact hubSide_modErrand ..
  · rfl

theorem hubSide_freeEnded (s : State) (tile : Nat) : hubSide (freeEnded s tile) = hubSide s := by
  refine hubSide_foldl (fun s kt => ?_) _ _
  split <;> rfl

theorem hubSide_endGroup (s : State) (tile : Nat) : hubSide (endGroup s tile) = hubSide s := by
  unfold endGroup
  split
  · rfl
  · dsimp only
    split
    · rfl
    · exact (hubSide_checkKernel ..).trans ((hubSide_checkTileFree ..).trans ((hubSide_modKern ..).trans
        ((hubSide_orphanErrands ..).trans (hubSide_freeEnded ..))))

theorem hubSide_checkGroupEnd (s : State) (tile : Nat) : hubSide (checkGroupEnd s tile) = hubSide s := by
  unfold checkGroupEnd
  split
  · rfl
  · split
    · rfl
    · split
      · rfl
      · dsimp only
        generalize (if hdrGraph _ = true then _ else _ : Bool) = busy
        cases busy
        · exact hubSide_endGroup ..
        · rfl

theorem hubSide_failKernel (s : State) (kn : Nat) (c : BitVec 6) : hubSide (failKernel s kn c) = hubSide s := by
  unfold failKernel
  split
  · rfl
  · split
    · rfl
    · refine hubSide_foldl (fun s tile => ?_) _ _
      split
      · split
        · exact (hubSide_checkTileFree ..).trans ((hubSide_orphanErrands ..).trans (hubSide_freeEnded ..))
        · rfl
      · rfl

theorem stopSubtree_host (s : State) (cn i : Nat) (c : BitVec 6) : (stopSubtree s cn i c).queues = s.queues ∧ (stopSubtree s cn i c).fw = s.fw := by
  unfold stopSubtree
  lift_lets
  intro ctx within s1 gone s2 s3 s4 s5 errs s6 s7 s8 s9 s10
  have h3 : hubSide s3 = hubSide s2 := hubSide_foldl (fun s a => hubSide_syncHead s cn a) gone s2
  have h4 : hubSide s4 = hubSide s3 := hubSide_foldl (fun s kt => by split <;> rfl) _ s3
  have h5 : hubSide s5 = hubSide s4 := hubSide_foldl (fun s ka => by split; exact hubSide_dropAct ..; rfl) _ s4
  have h6 : hubSide s6 = hubSide s5 := hubSide_foldl (fun s x => hubSide_modErrand ..) errs s5
  have h7 : hubSide s7 = hubSide s6 := hubSide_foldl (fun s x => hubSide_cancelErrand ..) errs s6
  have h8 : hubSide s8 = hubSide s7 := hubSide_foldl (fun s kk => by split; exact hubSide_failKernel ..; rfl) _ s7
  have h9 : hubSide s9 = hubSide s8 := by
    simp only [s9]
    generalize (_ && decide ((s8.ctx cn).st = CStat.running)) = b
    cases b <;> rfl
  have h10 : hubSide s10 = hubSide s9 := hubSide_foldl (fun s (kt : Nat × Tile) => hubSide_checkGroupEnd s kt.1) _ s9
  have h : hubSide (settleAll s10) = hubSide s2 :=
    (hubSide_settleAll s10).trans (h10.trans (h9.trans (h8.trans (h7.trans (h6.trans (h5.trans (h4.trans h3)))))))
  exact ⟨congrArg (·.2.1) h, congrArg (·.2.2) h⟩

/-! ### A function-level reset (R314, R341) -/

/-- No queue of function `f` is open, and no receipt request that the hand-over window holds would complete in one. -/
structure Disabled (f : Nat) (s : State) : Prop where
  queues : ∀ kq ∈ s.queues, kq.1 / 16 ≠ f
  held   : ∀ r ∈ s.fw.held, r.queue < noQueue → r.queue / 16 ≠ f

theorem dropQueues_disabled (s : State) (f : Nat) : Disabled f (dropQueues s f) := by
  refine ⟨fun kq hkq => by simpa using (List.mem_filter.mp hkq).2, fun r hr hq => ?_⟩
  obtain ⟨r0, -, rfl⟩ := List.mem_map.mp hr
  dsimp only at hq ⊢
  split at hq
  · exact absurd hq (Nat.lt_irrefl _)
  · next hne => rw [if_neg hne]; exact hne

theorem mem_keys_set {α : Type} {t : Tbl α} {k : Nat} {a : α} {x : Nat × α} (h : x ∈ Tbl.set t k a) : x.1 = k ∨ x ∈ t := by
  induction t with
  | nil =>
    rw [Tbl.set, List.mem_singleton] at h
    exact .inl (congrArg Prod.fst h)
  | cons y t ih =>
    obtain ⟨j, b⟩ := y
    rw [Tbl.set] at h
    split at h
    · rcases List.mem_cons.mp h with rfl | h
      · exact .inl rfl
      · exact .inr (List.mem_cons_of_mem _ h)
    · split at h
      · rcases List.mem_cons.mp h with rfl | h
        · exact .inl rfl
        · exact .inr h
      · rcases List.mem_cons.mp h with rfl | h
        · exact .inr List.mem_cons_self
        · exact (ih h).imp_right (List.mem_cons_of_mem _)

theorem complete_disabled {f : Nat} {s : State} (h : Disabled f s) {q : Nat} (hq : q < noQueue → q / 16 ≠ f) (c : Compl) : Disabled f (complete s q c) := by
  unfold complete
  split
  · exact h
  · next hn =>
    refine ⟨fun kq hkq => ?_, h.held⟩
    rcases mem_keys_set hkq with hk | hk
    · rw [hk]; exact hq (Nat.not_le.mp hn)
    · exact h.queues kq hk

theorem disabled_foldl {α : Type} {f : Nat} {g : State → α → State} (l : List α) (hg : ∀ s, ∀ a ∈ l, Disabled f s → Disabled f (g s a)) {s : State}
    (h : Disabled f s) : Disabled f (l.foldl g s) := by
  induction l generalizing s with
  | nil => exact h
  | cons a l ih => exact ih (fun s x hx => hg s x (List.mem_cons_of_mem _ hx)) (hg s a List.mem_cons_self h)

theorem refuseHeld_disabled {f : Nat} {s : State} (h : Disabled f s) (cn : Nat) : Disabled f (refuseHeld s cn) := by
  refine disabled_foldl _ (fun s' r hr hs' => complete_disabled hs' ?_ _) ⟨h.queues, fun r hr => h.held r (List.mem_filter.mp hr).1⟩
  exact h.held r (List.mem_filter.mp hr).1

theorem beginTeardown_disabled {f : Nat} {s : State} (h : Disabled f s) (cn : Nat) : Disabled f (beginTeardown s cn) := by
  have hstop : Disabled f ((s.ctx cn).allots.foldl (fun s ja => if ja.2.parent.isNone then stopSubtree s cn ja.1 0 else s) (refuseHeld s cn)) := by
    refine disabled_foldl _ (fun s' ja _ hs' => ?_) (refuseHeld_disabled h cn)
    split
    · obtain ⟨hq, hfw⟩ := stopSubtree_host s' cn ja.1 0
      exact ⟨by rw [hq]; exact hs'.queues, by rw [hfw]; exact hs'.held⟩
    · exact hs'
  exact ⟨hstop.queues, hstop.held⟩

theorem functionLevelReset_disables (s : State) (f : Nat) : ∃ t, execFunctionLevelReset f s = .next t ∧ Disabled f t ∧
    ((∀ kc ∈ s.ctxs, kc.2.owner ≠ f) → t = dropQueues s f) := by
  refine ⟨_, rfl, disabled_foldl _ (fun s kc _ h => beginTeardown_disabled h kc.1) (dropQueues_disabled s f), fun hn => ?_⟩
  dsimp only
  rw [List.filter_eq_nil_iff.mpr fun kc hkc => by simp [hn kc hkc]]
  rfl

theorem hostAccessResult : HostAccessResult := by
  unfold HostAccessResult
  refine ⟨fun s s1 s2 f off n r h hf hn hs hc hr => ?_, fun s s1 f off n x h hf hn hs hc => ?_, fun s s1 s2 f off bs r h hf hn hs hc hw => ?_,
    fun s s1 f off bs x h hf hn hs hc => ?_, fun s f off n bs h hf hn hs => ⟨?_, ?_⟩, fun s f => ?_⟩
  · exact congrArg Outcome.next ((fromHost_open h _).trans (pw2ReadNow_reads hf hs hn hc hr))
  · exact congrArg Outcome.next ((fromHost_open h _).trans (pw2ReadNow_fails hf hs hn hc))
  · exact congrArg Outcome.next ((fromHost_open h _).trans (pw2WriteNow_writes hf hs hn hc hw))
  · exact congrArg Outcome.next ((fromHost_open h _).trans (pw2WriteNow_fails hf hs hn hc))
  · exact congrArg Outcome.next ((fromHost_open h _).trans ((if_neg (by rw [pw2In_iff hf hn]; decide)).trans (if_pos hs)))
  · exact congrArg Outcome.next ((fromHost_open h _).trans (if_pos (by simp [hs])))
  · obtain ⟨t, ht, hd, he⟩ := functionLevelReset_disables s f
    exact ⟨t, ht, hd.queues, he⟩

/-- Settles O46: the queue registers, the `PW0` registers, the order of requests, reads, and `PW2` with the function-level reset. -/
theorem hostEventResult : Obligations.HostEventResult :=
  ⟨queueRegisterResult, hostRegisterResult, hostOrderResult, hostReadResult, hostAccessResult⟩

end Sys2Proof.Proofs
end

section
/-!
PROOFS. The life of a link, its flits, and the path of a request (R15, R411 to R414, Table 21-2).
-/
namespace Sys2Proof.Proofs
open Sys2Proof Sys2Proof.Machine Sys2Proof.Machine.State Sys2Proof.Claims
open Host (Outcome)

/-! ### One link of the device -/

theorem link_modLink {s : State} {n : Nat} (hn : n < 21) (f : Link → Link) : (s.modLink n f).link n = f (s.link n) :=
  (getV_mapIdx s.links (fun i l => if i = n then f l else l) Link.reset Link.reset hn).trans (if_pos rfl)

theorem link_modLink_ne {s : State} {n m : Nat} (h : m ≠ n) (f : Link → Link) : (s.modLink n f).link m = s.link m := by
  by_cases hm : m < 21
  · exact (getV_mapIdx s.links (fun i l => if i = n then f l else l) Link.reset Link.reset hm).trans (if_neg h)
  · simp only [State.link, modLink, List.getD_eq_getElem?_getD, Vector.getElem?_toList, Vector.getElem?_eq_none (Nat.not_lt.mp hm)]

/-- A change of a link is what it makes of that link. -/
theorem modLink_congr {s : State} {n : Nat} {f g : Link → Link} (h : f (s.link n) = g (s.link n)) : s.modLink n f = s.modLink n g := by
  have hl : s.links.mapIdx (fun i l => if i = n then f l else l) = s.links.mapIdx fun i l => if i = n then g l else l := by
    refine Vector.ext fun i hi => ?_
    rw [Vector.getElem_mapIdx, Vector.getElem_mapIdx]
    split
    · next hin =>
      have hlink : s.links[i] = s.link n := by
        subst hin
        simp [State.link, hi]
      rw [hlink]
      exact h
    · rfl
  unfold modLink
  rw [hl]

/-! ### Requests of the host -/

section
variable {s : State} {n : Nat} (h8 : 8 ≤ n) (h20 : n ≤ 20) (hs : s.dev.service ≠ 0) (hp : (s.link 20).st = .up → s.posted = [])
  (hup : n ≠ 20 → (s.link 20).st = .up)
include h8 h20 hs hp hup

/-- A write of LCTL reaches its link: over link 20, or that link itself. -/
theorem lctl_reaches (v : Word) (req : Nat) :
    inOrder (lctlReq n v) (linkControl · n req) s = s.modLink n fun l => l.control s.dev.hubNs req := by
  have hc : linkControl s n req = s.modLink n fun l => l.control s.dev.hubNs req := if_pos (by simpa [hostLink, h8, h20] using hs)
  unfold inOrder
  by_cases h : (s.link 20).st = .up
  · rw [if_neg (Classical.not_not.mpr h), hp h]
    exact hc
  · have hn : n = 20 := Classical.byContradiction fun hne => h (hup hne)
    subst hn
    rw [if_pos h]
    exact (if_pos rfl).trans hc

theorem link_controlled (v : Word) (req : Nat) {f : Link → Link} (hf : (s.link n).control s.dev.hubNs req = f (s.link n)) :
    inOrder (lctlReq n v) (linkControl · n req) s = s.modLink n f := by
  rw [lctl_reaches h8 h20 hs hp hup v req, modLink_congr hf]

end

/-! ### Received flits -/

theorem inbox_flush (l : Link) (now : Nat) (w : List (Nat × BitVec 1920)) : (l.flush now w).inbox = l.inbox := by
  induction w generalizing l with
  | nil => rfl
  | cons x w ih =>
    unfold Link.flush
    split
    · exact ih _
    · rfl

theorem inbox_acked (l : Link) (now : Nat) (ack : BitVec 12) (nak : Bool) : (l.acked now ack nak).inbox = l.inbox := by
  unfold Link.acked
  dsimp only
  split
  · exact inbox_flush ..
  · generalize (if (_ : BitVec 12) = ack then _ else _ : Nat) = n
    split <;> rfl

section
variable {s : State} {n : Nat} {f : BitVec 2048} (h8 : 8 ≤ n) (h19 : n ≤ 19) (hs : 2 ≤ s.dev.service.toNat)
include h8 h19 hs

/-- A flit whose receipt leaves the inbox as it is serves no request. -/
theorem flitReceive_quiet {good : Bool} {g : Link → Link} (hg : (s.link n).receive s.dev.hubNs f good = g (s.link n))
    (hi : (g (s.link n)).inbox.length = (s.link n).inbox.length) : execFlitReceive n f good s = .next (s.modLink n g) := by
  have ht : (s.modLink n fun l => l.receive s.dev.hubNs f good) = s.modLink n g := modLink_congr hg
  refine congrArg Outcome.next ((if_neg (by simp [h8, h19, Nat.not_lt.mpr hs])).trans ?_)
  dsimp only
  rw [ht]
  refine if_neg ?_
  rw [link_modLink (by omega), hi]
  simp

/-- A flit that joins the inbox serves its request. -/
theorem flitReceive_serves {good : Bool} {g : Link → Link} (hg : (s.link n).receive s.dev.hubNs f good = g (s.link n))
    (hi : (s.link n).inbox.length < (g (s.link n)).inbox.length) :
    execFlitReceive n f good s = .next (if flitKind f = 1 then
      (if requestHeld s (f.extractLsb' 32 1920) then s else peerRequest (s.modLink n g) n (f.extractLsb' 32 1920)) else s.modLink n g) := by
  have ht : (s.modLink n fun l => l.receive s.dev.hubNs f good) = s.modLink n g := modLink_congr hg
  refine congrArg Outcome.next ((if_neg (by simp [h8, h19, Nat.not_lt.mpr hs])).trans ?_)
  dsimp only
  rw [ht, link_modLink (by omega), decide_eq_true hi, Bool.and_true]
  simp only [decide_eq_true_eq]

end

section
variable {l : Link} {now : Nat} {f : BitVec 2048} (hu : l.st = .up ∨ l.st = .quiescing)
include hu

theorem receive_bad : l.receive now f false = ({ l with crcErr := satAdd l.crcErr 1 } : Link).answer true := by
  unfold Link.receive
  rw [if_neg (by rcases hu with h | h <;> simp [h]), if_pos (by decide)]

theorem receive_good : l.receive now f true =
    if flitKind f = 0 ∨ flitKind f = 5 then l.acked now (flitAck f) (flitNak f)
    else if flitSeq f = (l.acked now (flitAck f) (flitNak f)).rxSeq then
      ({ l.acked now (flitAck f) (flitNak f) with rxSeq := (l.acked now (flitAck f) (flitNak f)).rxSeq + 1
                                                  inbox := (l.acked now (flitAck f) (flitNak f)).inbox ++ [f] } : Link).answer false
    else (l.acked now (flitAck f) (flitNak f)).answer true := by
  unfold Link.receive
  rw [if_neg (by rcases hu with h | h <;> simp [h]), if_neg (by decide)]
  simp only [Bool.or_eq_true, decide_eq_true_eq]

end

/-! ### Paths (R15, R412) -/

theorem route_some {s : State} {a b : Nat} {p : List Nat} (h : route s a b = some p) :
    (∀ l ∈ p, (s.link l).st = .up) ∧ ∃ before rest, paths a b = before ++ p :: rest ∧ ∀ q ∈ before, ∃ l ∈ q, (s.link l).st ≠ .up := by
  unfold route at h
  obtain ⟨hp, before, rest, he, hb⟩ := List.find?_eq_some_iff_append.mp h
  refine ⟨fun l hl => ?_, before, rest, he, fun q hq => ?_⟩
  · exact of_decide_eq_true (List.all_eq_true.mp hp l hl)
  · have := hb q hq
    simpa [linkUp] using this

theorem route_none {s : State} {a b : Nat} (h : route s a b = none) : ∀ q ∈ paths a b, ∃ l ∈ q, (s.link l).st ≠ .up := by
  intro q hq
  have := List.find?_eq_none.mp h q hq
  simpa [linkUp] using this

/-- Settles O47: the host's requests, the events of a link, flits, and the choice of a path. -/
theorem linkEventResult : Obligations.LinkEventResult := by
  unfold Obligations.LinkEventResult
  refine ⟨fun s n h8 h20 hs hp hup => ⟨fun h => ?_, fun h => ?_, fun h => ?_, fun h => ?_, fun h => ?_, fun h => ?_⟩, fun s n => ⟨fun lanes rate h => ?_,
    fun h => ?_, fun h hr hb => ?_, fun h hn => ?_, fun now hu => ?_, fun now kind payload h => ?_, fun h hn => ?_, fun h => ?_, fun h hr hn => ?_⟩,
    fun s n f h8 h19 hs hu => ⟨?_, fun h0 h5 hq => ?_, fun h0 h5 hq => ?_, fun hk => ?_⟩, fun s a b => ⟨fun p => route_some, route_none⟩⟩
  · exact congrArg Outcome.next (link_controlled h8 h20 hs hp hup 1 1 (by simp only [Link.control, h]))
  · exact congrArg Outcome.next (link_controlled h8 h20 hs hp hup 1 1 (by simp only [Link.control, h]))
  · exact congrArg Outcome.next (link_controlled h8 h20 hs hp hup 2 2 (by simp only [Link.control, h]))
  · refine congrArg Outcome.next (link_controlled h8 h20 hs hp hup 3 3 ?_)
    rcases h with h | h <;> simp only [Link.control, h, Link.retrainNow]
  · exact congrArg Outcome.next (link_controlled h8 h20 hs hp hup 3 3 (by simp only [Link.control, h]))
  · exact congrArg Outcome.next (link_controlled h8 h20 hs hp hup 3 3 (by simp only [Link.control, h]))
  · exact congrArg (Outcome.next ∘ bootLoad ∘ raiseLevel) (modLink_congr (if_pos h))
  · exact congrArg (fun s => Outcome.next (raiseLevel (failInFlight s n))) (modLink_congr (if_pos h))
  · exact congrArg Outcome.next (modLink_congr (if_pos (by simp [h, hr, hb])))
  · exact congrArg (Outcome.next ∘ raiseLevel) (modLink_congr (if_pos (by simp [h, hn])))
  · unfold Link.again; rw [hu]; unfold Link.flush; rw [← hu]
  · unfold Link.send; exact if_neg (by rcases h with h | h <;> simp [h])
  · exact congrArg (fun s => Outcome.next (raiseLevel (failInFlight s n))) (modLink_congr (if_pos (by simp [h, hn])))
  · exact congrArg Outcome.next (modLink_congr (if_pos (by simpa using h)))
  · exact congrArg Outcome.next (modLink_congr (if_pos (by rcases h with h | h <;> simp [h, hr, hn])))
  · exact flitReceive_quiet h8 h19 hs (receive_bad hu) rfl
  · refine flitReceive_serves (g := fun _ => _) h8 h19 hs ((receive_good hu).trans ((if_neg (by simp [h0, h5])).trans (if_pos hq))) ?_
    simp [Link.answer, inbox_acked]
  · refine flitReceive_quiet (g := fun _ => _) h8 h19 hs ((receive_good hu).trans ((if_neg (by simp [h0, h5])).trans (if_neg hq))) ?_
    exact congrArg List.length (inbox_acked ..)
  · refine flitReceive_quiet (g := fun _ => _) h8 h19 hs ((receive_good hu).trans (if_pos hk)) ?_
    exact congrArg List.length (inbox_acked ..)

end Sys2Proof.Proofs
end

section
/-!
PROOFS. Page ownership between devices (R302, R407, R408).
-/
namespace Sys2Proof.Proofs
open Sys2Proof Sys2Proof.Machine Sys2Proof.Machine.State Sys2Proof.Claims
open Host (Outcome)

/-! ### Requests of this device -/

/-- A waiting agent's request for a page over link `n`. -/
def asked (s : State) (who : Mover) (p page n : Nat) : State :=
  { sendFlit s who n 3 (Config.flitPayload page) with carried := s.carried ++ [{ link := n, peer := p, page := page, mine := true }] }

section
variable {s : State} {p page n : Nat}

theorem askOwner_idle (h : wanted s page = false ∨ askedFor s page = true) : askOwner s p page n = s :=
  if_pos (by rcases h with h | h <;> simp [h])

section
variable {r : PageReq} (hr : s.ownReqs.find? (·.page = page) = some r) (ha : askedFor s page = false)
include hr ha

/-- A page that some agent waits for, and that has not been asked for. -/
theorem asks_once : ¬ (!wanted s page || askedFor s page) = true := by
  have hw : wanted s page = true := by
    unfold wanted
    rw [Bool.or_eq_true, List.any_eq_true]
    exact .inl ⟨r, List.mem_of_find?_eq_some hr, by simpa using List.find?_some hr⟩
  simp [hw, ha]

theorem askOwner_own {soft : Bool} (ho : Owns s page (.remote p soft)) :
    askOwner s p page n = if holdOver s page then setRegion (asked s r.who p page n) page (.moving p soft false) else s := by
  obtain ⟨hown, hreg⟩ := ho
  refine (if_neg (asks_once hr ha)).trans ((if_pos hown).trans ?_)
  rw [hreg]
  simp only [decide_true, Bool.true_and, hr]
  rfl

theorem askOwner_peer (ho : ownRegion page = false) (hp : isPeer (page * 65536) = true) (hq : peerOf (page * 65536) = p) :
    askOwner s p page n = asked s r.who p page n := by
  refine (if_neg (asks_once hr ha)).trans ((if_neg (by simp [ho])).trans ((if_pos (by simp [hp, hq])).trans ?_))
  simp only [hr]
  rfl

end

theorem ownershipRequest_mine (hl : peerLink s p = some n) : execOwnershipRequest p page true s = .next (askOwner s p page n) := by
  refine congrArg Outcome.next ?_
  simp only [if_true, hl]

end

theorem askOwnerResult : AskOwnerResult := by
  unfold AskOwnerResult
  intro s p page n hl
  have he : exec (.ownershipRequest p page true) s = .next (askOwner s p page n) := ownershipRequest_mine hl
  refine ⟨fun h => ?_, fun r hr ha => ⟨fun soft ho hh => ?_, fun soft ho hh => ?_, fun ho hp hq => ?_⟩⟩
  · rw [he, askOwner_idle h]
  · rw [he, askOwner_own hr ha ho, if_pos hh]; rfl
  · rw [he, askOwner_own hr ha ho, if_neg (by simp [hh])]
  · rw [he, askOwner_peer hr ha ho hp hq]; rfl

/-! ### Regions of this device -/

section
variable {s : State} {p page : Nat}

/-- What a request of a peer does to a region that this device serves. -/
theorem ownershipRequest_here {n : Nat} (hl : answerLink s p = some n) (hh : Here s page) {s1 : State}
    (h1 : s1 = { s with carried := s.carried ++ [{ link := n, peer := p, page := page, mine := false }] }) :
    execOwnershipRequest p page false s = .next (if s1.peerReqs.all (·.2 ≠ page) && holdOver s1 page && !regionHeld s1 page then moveOut s1 p page
      else { s1 with peerReqs := s1.peerReqs ++ [(p, page)] }) := by
  subst h1
  refine congrArg Outcome.next ?_
  simp only [Bool.false_eq_true, if_false, hl]
  rcases hh with ⟨ho, hr⟩ | ⟨ho, hr⟩ | ⟨t, ho, hr⟩
  all_goals
    rw [ho, hr]
    rfl

/-- A transfer to a peer of a region that this device serves. -/
theorem ownershipTransfer_here {data : List Host.Cell} (hl : answerLink s p ≠ none) (hh : Here s page) (hn : nextFor s page = some p)
    (ho : holdOver s page = true) (hd : regionHeld s page = false) :
    execOwnershipTransfer p page false data s = .next (moveOut { s with peerReqs := s.peerReqs.erase (p, page) } p page) := by
  refine congrArg Outcome.next ?_
  refine (if_neg (by simpa using hl)).trans ?_
  have hc : (!false && decide (nextFor s page = some p) && holdOver s page && !regionHeld s page) = true := by simp [hn, ho, hd]
  rcases hh with ⟨hown, hr⟩ | ⟨hown, hr⟩ | ⟨t, hown, hr⟩
  all_goals
    rw [if_pos hown, hr]
    exact if_pos hc

theorem ownershipTransfer_out {data : List Host.Cell} {soft : Bool} (hl : answerLink s p ≠ none) (hm : Owns s page (.moving p soft true))
    (ho : holdOver s page = true) (hd : regionHeld s page = false) :
    execOwnershipTransfer p page false data s = .next (grantedTo (setRegion (yieldRegion s page) page (.remote p soft)) p page false) := by
  obtain ⟨hown, hr⟩ := hm
  refine congrArg Outcome.next ((if_neg (by simpa using hl)).trans ?_)
  rw [if_pos hown, hr]
  exact (if_neg (by simp)).trans ((if_neg (by simp)).trans (if_neg (by simp [ho, hd])))

theorem ownershipTransfer_back {data : List Host.Cell} {soft : Bool} (hl : answerLink s p ≠ none) (hm : Owns s page (.moving p soft false)) :
    execOwnershipTransfer p page true data s = .next (comeHome (bringPage (answered s p page true) page data) page soft) := by
  obtain ⟨hown, hr⟩ := hm
  refine congrArg Outcome.next ((if_neg (by simpa using hl)).trans ?_)
  rw [if_pos hown, hr]
  exact (if_neg (by simp)).trans (if_pos rfl)

theorem comeHome_stays {soft : Bool} (hn : nextFor s page = none) : comeHome s page soft = comeHome.grantHere s page soft := by
  unfold comeHome; rw [hn]

theorem comeHome_goesOn {soft : Bool} {q : Nat} (hn : nextFor s page = some q) (hq : q ≠ 256) :
    comeHome s page soft = setRegion { s with peerReqs := s.peerReqs.erase (q, page) } page (.moving q soft true) := by
  unfold comeHome; rw [hn]; exact if_neg hq

end

theorem ownRegionResult : OwnRegionResult := by
  unfold OwnRegionResult
  refine ⟨fun s p page n hl hh => ?_, fun s p page data hl => ⟨ownershipTransfer_here hl, fun soft => ownershipTransfer_out hl,
    fun soft hm => ⟨fun hn => ?_, fun q hn hq => ?_⟩⟩⟩
  · intro s1 free
    have he : exec (.ownershipRequest p page false) s = _ := ownershipRequest_here hl hh (s1 := s1) rfl
    have hiff : (s1.peerReqs.all (·.2 ≠ page) && holdOver s1 page && !regionHeld s1 page) = true ↔ free := by
      simp only [free, Bool.and_eq_true, List.all_eq_true, decide_eq_true_eq, Bool.not_eq_true', and_assoc]
    exact ⟨fun hf => by rw [he, if_pos (hiff.mpr hf)], fun hf => by rw [he, if_neg (mt hiff.mp hf)]⟩
  · exact (ownershipTransfer_back hl hm).trans (congrArg Outcome.next (comeHome_stays hn))
  · exact (ownershipTransfer_back hl hm).trans (congrArg Outcome.next (comeHome_goesOn hn hq))

/-! ### Pages of a peer -/

/-- The bytes of a page in a transfer's data. -/
def pageCells (page : Nat) (data : List Host.Cell) : List Host.Cell := data.filter fun c => page * 65536 ≤ c.1 && c.1 < page * 65536 + 65536

theorem bringPage_peer {s : State} {page : Nat} {data : List Host.Cell} (h : ownRegion page = false) :
    bringPage s page data =
      { s with mem := (pageCells page data).foldl (fun m c => Memory.write m c.1 c.2) (Memory.zero s.mem (page * 65536) (page * 65536 + 65536)) } := by
  unfold bringPage
  have hc : ¬ ownRegion page = true := by rw [h]; exact Bool.false_ne_true
  exact if_neg hc

theorem bringPage_ownReqs {s : State} {page : Nat} {data : List Host.Cell} (h : ownRegion page = false) : (bringPage s page data).ownReqs = s.ownReqs := by
  rw [bringPage_peer h]

theorem peerPageResult : PeerPageResult := by
  unfold PeerPageResult
  refine fun s p page data hl ho hp hq => ⟨fun ha hn => ?_, fun hm hh hd => ?_⟩
  · refine congrArg Outcome.next ((if_neg (by simpa using hl)).trans ((if_neg (by simp [ho])).trans ((if_neg (by simp [hp, hq])).trans ((if_pos rfl).trans ?_))))
    rw [bringPage_ownReqs ho]
    exact if_neg (by rw [ha]; simpa using hn)
  · refine congrArg Outcome.next ((if_neg (by simpa using hl)).trans ((if_neg (by simp [ho])).trans ((if_neg (by simp [hp, hq])).trans
      ((if_neg (by decide)).trans ?_))))
    exact if_neg (by simp [hm, hh, hd])

/-! ### A lost owner (R408, R415) -/

theorem ownerLostResult : OwnerLostResult := by
  unfold OwnerLostResult
  refine ⟨fun s p h => ?_, fun s p h => congrArg Outcome.next (if_pos (by simp [h]))⟩
  intro rs s1 lost s2
  refine congrArg Outcome.next ((if_neg (by simp [h])).trans ?_)
  have h2 : loseReqs s1 rs = s2 := by
    simp only [s2, lost, loseReqs, List.filter_filter, Bool.and_comm]
  exact congrArg (fun t => rs.foldl (fun s r => setRegion (refusePeers (poisonRegion s r) r) r .home) t) h2

/-- Settles O48. -/
theorem ownershipEventResult : Obligations.OwnershipEventResult := ⟨askOwnerResult, ownRegionResult, peerPageResult, ownerLostResult⟩

end Sys2Proof.Proofs
end

section
/-!
PROOFS. The warm reset of a compute die (R420 to R422).
-/
namespace Sys2Proof.Proofs
open Sys2Proof Sys2Proof.Machine Sys2Proof.Machine.State Sys2Proof.Claims
open Host (Outcome)

/-! ### Its start -/

theorem dierst_runs {s : State} {v : Word} {t : State} (h : HostOpen s) (ht : dierstWrite s v = t) : execDierst v s = .next t :=
  congrArg Outcome.next ((inOrder_open h _ _).trans ht)

theorem dierstWrite_go {s : State} {v : Word} (hs : s.dev.service ≠ 0) (hg : v.getLsbD 0 = true) (hst : s.dierst.stat = 0 ∨ s.dierst.stat = 2)
    (ha : s.dierst.active = false) (hd : v.extractLsb' 4 2 ≠ 0) :
    dierstWrite s v = startDieReset { s with dierst := { s.dierst with sel := v.extractLsb' 4 2 } } (v.extractLsb' 4 2).toNat := by
  unfold dierstWrite
  dsimp only
  rw [if_neg hs, if_neg (by simp [hg]), if_pos]
  simp only [ha, hd, ne_eq, not_false_eq_true, decide_true, Bool.not_false, Bool.and_true, Bool.or_eq_true, decide_eq_true_eq]
  exact hst

theorem dierstWrite_select {s : State} {v : Word} (hs : s.dev.service ≠ 0) (hg : v.getLsbD 0 = false) :
    dierstWrite s v = { s with dierst := { s.dierst with sel := v.extractLsb' 4 2 } } :=
  (if_neg hs).trans (if_pos (by rw [hg]; rfl))

theorem dierstWrite_refused {s : State} {v : Word} (hs : s.dev.service ≠ 0) (hg : v.getLsbD 0 = true) (hd : v.extractLsb' 4 2 = 0) :
    dierstWrite s v = { s with dierst := { s.dierst with stat := 3 } } :=
  (if_neg hs).trans ((if_neg (by simp [hg])).trans (if_neg (by simp [hd])))

theorem dieFatalError_starts {s : State} {d : Nat} (h0 : 0 < d) (h3 : d ≤ 3) (ha : s.dierst.active = false) (hs : s.dev.service ≠ 0) :
    execDieFatalError d s = .next (startDieReset s d) := by
  have hs' : ¬ s.dev.service = 0 := hs
  refine congrArg Outcome.next (if_neg ?_)
  simp only [ha, Nat.pos_iff_ne_zero.mp h0, Nat.not_lt.mpr h3, hs', decide_false, Bool.or_self, Bool.false_eq_true, not_false_eq_true]

/-! ### Its steps -/

section
variable {s : State} {d : Nat} (ha : s.dierst.active = true) (hd : s.dierst.die.toNat = d)
include ha hd

/-- A tile's dirty lines before its die is reset: all that have a way home go there. -/
def sentHome (d : Nat) (s : State) (t : Nat) : State :=
  drainIf (if (s.link (4 + d)).st = .failed ∧ tileHeld s t = true then s else spReset s t) t fun ln => homeDie ln = d || !decide ((s.link (4 + d)).st = .failed)

theorem homeMove_moves (hm : s.dierst.moved = false) :
    execHomeMove d s = .next { (dieTiles s d).foldl (sentHome d) s with
      dierst := { ((dieTiles s d).foldl (sentHome d) s).dierst with moved := true } } := by
  refine congrArg Outcome.next ((if_neg (by simp [ha, hd, hm])).trans ?_)
  have hf : (fun (s : State) t => drainIf (if (decide ((s.link (4 + d)).st = .failed) && tileHeld s t) = true then s else spReset s t) t
      fun ln => homeDie ln = d || decide ((s.link (4 + d)).st ≠ .failed)) = sentHome d := by
    funext s t
    simp only [sentHome, Bool.and_eq_true, decide_eq_true_eq, ne_eq, decide_not]
  rw [hf]

theorem dieReadmit_lost (hz : s.dierst.zeroed = true) (hf : ∃ n ∈ dieLinks d, (s.link n).st = .failed) :
    execDieReadmit d s = .next { s with dierst := { s.dierst with stat := 2, active := false } } := by
  refine congrArg Outcome.next ((if_neg (by simp [ha, hd, hz])).trans (if_pos ?_))
  rw [List.any_eq_true]
  obtain ⟨n, hn, h⟩ := hf
  exact ⟨n, hn, decide_eq_true h⟩

theorem dieReadmit_admits (hz : s.dierst.zeroed = true) (hu : ∀ n ∈ dieLinks d, (s.link n).st = .up) :
    execDieReadmit d s = .next (raiseLevel (writeRanks
      { s with dierst := { s.dierst with stat := 2, active := false, lost := s.dierst.lost &&& ~~~(1#4 <<< d) }
               dev := { s.dev with dieup := s.dev.dieup ||| (1#4 <<< d) } } d false)) := by
  refine congrArg Outcome.next ((if_neg (by simp [ha, hd, hz])).trans ((if_neg ?_).trans (if_pos ?_)))
  · rw [List.any_eq_true]
    rintro ⟨n, hn, h⟩
    rw [hu n hn] at h
    exact absurd h (by decide)
  · exact List.all_eq_true.mpr fun n hn => decide_eq_true (hu n hn)

end

/-! ### What the activations of the die leave of its tiles and links -/

theorem keys_set {α : Type} {t : Tbl α} {k n : Nat} {a : α} (h : n ∈ t.map (·.1)) : n ∈ (Tbl.set t k a).map (·.1) := by
  induction t with
  | nil => exact absurd h List.not_mem_nil
  | cons y t ih =>
    obtain ⟨j, b⟩ := y
    rw [List.map_cons, List.mem_cons] at h
    rw [Tbl.set]
    split
    · next hjk => rw [List.map_cons, List.mem_cons, ← hjk]; exact h
    · split
      · rw [List.map_cons, List.mem_cons, List.map_cons, List.mem_cons]; exact .inr h
      · rw [List.map_cons, List.mem_cons]; exact h.imp_right ih

/-- Of `s`, the links, the reset's own register, the numbers of the tiles and their vaults are as they were in `t`. -/
structure SameDie (s t : State) : Prop where
  links  : t.links = s.links
  dierst : t.dierst = s.dierst
  known  : ∀ n ∈ knownTiles s, n ∈ knownTiles t
  vault  : ∀ n, (t.tile n).vault = (s.tile n).vault

theorem SameDie.refl (s : State) : SameDie s s := ⟨rfl, rfl, fun _ h => h, fun _ => rfl⟩

theorem SameDie.trans {s t u : State} (h : SameDie s t) (g : SameDie t u) : SameDie s u :=
  ⟨g.links.trans h.links, g.dierst.trans h.dierst, fun n hn => g.known n (h.known n hn), fun n => (g.vault n).trans (h.vault n)⟩

theorem SameDie.foldl {α : Type} {f : State → α → State} (hf : ∀ s a, SameDie s (f s a)) (l : List α) (s : State) : SameDie s (l.foldl f s) := by
  induction l generalizing s with
  | nil => exact .refl s
  | cons a l ih => exact (hf s a).trans (ih (f s a))

theorem SameDie.modTile (s : State) (n : Nat) {f : Tile → Tile} (hf : ∀ t, (f t).vault = t.vault) : SameDie s (s.modTile n f) := by
  refine ⟨rfl, rfl, fun m hm => keys_set hm, fun m => ?_⟩
  by_cases hm : m = n
  · rw [hm, tile_modTile, hf]
  · rw [tile_modTile_ne _ _ _ _ hm]

theorem SameDie.modAct (s : State) (n : Nat) (f : Act → Act) : SameDie s (s.modAct n f) := by
  unfold State.modAct
  split
  · exact ⟨rfl, rfl, fun _ h => h, fun _ => rfl⟩
  · exact .refl s

theorem sameDie_dropInst (s : State) (i : Nat) : SameDie s (dropInst s i) := by
  unfold dropInst
  split
  · exact .refl s
  · next n _ =>
    have h1 : SameDie s { s with insts := Tbl.erase s.insts i, transit := s.transit.filter (·.inst ≠ i) } := ⟨rfl, rfl, fun _ h => h, fun _ => rfl⟩
    have h2 := h1.trans (SameDie.modAct _ n.act fun a => { a with insts := a.insts.filter (· ≠ i) })
    dsimp only
    split
    · exact h2.trans (SameDie.modTile _ _ fun _ => rfl)
    · exact h2

theorem sameDie_dropAct (s : State) (n : Nat) : SameDie s (dropAct s n) := by
  unfold dropAct
  split
  · exact .refl s
  · next a _ =>
    obtain ⟨hl, hd, hk, hv⟩ := SameDie.foldl (fun s i => sameDie_dropInst s i) a.insts s
    exact ⟨hl, hd, hk, hv⟩

/-! ### A tile that is zeroed -/

/-- A fold that marks lines poisoned changes the marks alone. -/
theorem foldl_poison {α : Type} {f : State → α → State} (hf : ∀ s a, ∃ p, f s a = { s with poison := p }) (l : List α) (s : State) :
    ∃ p, l.foldl f s = { s with poison := p } := by
  induction l generalizing s with
  | nil => exact ⟨s.poison, rfl⟩
  | cons a l ih =>
    obtain ⟨p, hp⟩ := hf s a
    obtain ⟨q, hq⟩ := ih (f s a)
    exact ⟨q, by rw [List.foldl_cons, hq, hp]⟩

theorem poisonDirty_poison (s : State) (t : Nat) : ∃ p, poisonDirty s t = { s with poison := p } := by
  unfold poisonDirty
  obtain ⟨p, hp⟩ := foldl_poison (f := fun (s : State) (km : Nat × Nat) => { s with poison := Tbl.set s.poison km.1 0 }) (fun s km => ⟨_, rfl⟩)
    (s.mapped.filter fun km => placeTile km.2 = t && spIsDirty s km.2) s
  dsimp only
  rw [hp]
  obtain ⟨q, hq⟩ := foldl_poison (f := fun (s : State) (l : Nat × L1Line) => if l.2.dirty = 0 then s else { s with poison := Tbl.set s.poison l.1 0 })
    (fun s l => by split; exact ⟨s.poison, rfl⟩; exact ⟨_, rfl⟩) ({ s with poison := p }.tile t).l1 { s with poison := p }
  exact ⟨q, hq⟩

/-- A tile after its reset keeps its vault's owner and its firewall. -/
def zeroed (t : Tile) : Tile := { Tile.reset with vault := t.vault, fwall := t.fwall }

theorem zeroTile_self (s : State) (n : Nat) : (zeroTile s n).tile n = zeroed (s.tile n) := by
  obtain ⟨p, hp⟩ := poisonDirty_poison s n
  unfold zeroTile
  dsimp only
  rw [hp]
  exact Tbl.get_set_self _ _ _ _

theorem zeroTile_ne (s : State) {n m : Nat} (h : m ≠ n) : (zeroTile s n).tile m = s.tile m := by
  obtain ⟨p, hp⟩ := poisonDirty_poison s n
  unfold zeroTile
  dsimp only
  rw [hp]
  exact Tbl.get_set_ne _ _ _ _ _ h

theorem zeroTile_links (s : State) (n : Nat) : (zeroTile s n).links = s.links := by
  obtain ⟨p, hp⟩ := poisonDirty_poison s n
  unfold zeroTile
  dsimp only
  rw [hp]
  rfl

theorem zeroed_zeroed (t : Tile) : zeroed (zeroed t) = zeroed t := rfl

theorem zeroTiles_notMem {l : List Nat} {n : Nat} (s : State) (h : n ∉ l) : (l.foldl zeroTile s).tile n = s.tile n := by
  induction l generalizing s with
  | nil => rfl
  | cons a l ih =>
    rw [List.mem_cons, not_or] at h
    rw [List.foldl_cons, ih _ h.2, zeroTile_ne s h.1]

theorem zeroTiles_mem {l : List Nat} {n : Nat} (s : State) (h : n ∈ l) : (l.foldl zeroTile s).tile n = zeroed (s.tile n) := by
  induction l generalizing s with
  | nil => exact absurd h List.not_mem_nil
  | cons a l ih =>
    rw [List.foldl_cons]
    by_cases hl : n ∈ l
    · rw [ih _ hl]
      by_cases ha : n = a
      · rw [ha, zeroTile_self, zeroed_zeroed]
      · rw [zeroTile_ne s ha]
    · have ha : n = a := (List.mem_cons.mp h).resolve_right hl
      rw [zeroTiles_notMem _ hl, ha, zeroTile_self]

theorem zeroTiles_links (l : List Nat) (s : State) : (l.foldl zeroTile s).links = s.links := by
  induction l generalizing s with
  | nil => rfl
  | cons a l ih => rw [List.foldl_cons, ih, zeroTile_links]

/-! ### The links of the die -/

/-- The die's links after its tiles are zeroed. -/
def linksReset (l : List Nat) (s : State) : State := l.foldl (fun s n => s.modLink n fun l => l.afterReset s.dev.hubNs) s

theorem linksReset_links (l : List Nat) (s : State) : ∃ v, linksReset l s = { s with links := v } := by
  unfold linksReset
  induction l generalizing s with
  | nil => exact ⟨s.links, rfl⟩
  | cons a l ih =>
    obtain ⟨v, hv⟩ := ih (s.modLink a fun l => l.afterReset s.dev.hubNs)
    exact ⟨v, by rw [List.foldl_cons, hv]; rfl⟩

theorem linksReset_notMem {l : List Nat} {n : Nat} (s : State) (h : n ∉ l) : (linksReset l s).link n = s.link n := by
  unfold linksReset
  induction l generalizing s with
  | nil => rfl
  | cons a l ih =>
    rw [List.mem_cons, not_or] at h
    rw [List.foldl_cons, ih _ h.2, link_modLink_ne h.1]

theorem linksReset_mem {l : List Nat} {n : Nat} (s : State) (hd : l.Nodup) (hn : n < 21) (h : n ∈ l) :
    (linksReset l s).link n = (s.link n).afterReset s.dev.hubNs := by
  unfold linksReset
  induction l generalizing s with
  | nil => exact absurd h List.not_mem_nil
  | cons a l ih =>
    rw [List.nodup_cons] at hd
    rw [List.foldl_cons]
    rcases List.mem_cons.mp h with rfl | h
    · rw [← linksReset, linksReset_notMem _ hd.1, link_modLink hn]
    · have ha : n ≠ a := fun he => hd.1 (he ▸ h)
      rw [ih _ hd.2 h, link_modLink_ne ha]
      rfl

theorem dieLinks_nodup {d : Nat} (h : d ≤ 3) : (dieLinks d).Nodup ∧ ∀ n ∈ dieLinks d, n < 21 := by
  have : d = 0 ∨ d = 1 ∨ d = 2 ∨ d = 3 := by omega
  rcases this with rfl | rfl | rfl | rfl <;> decide

/-! ### The reset -/

/-- The die without its activations. -/
def withoutActs (s : State) (d : Nat) : State := ((s.acts.filter fun ka => ka.2.tile < 512 && dieOf ka.2.tile = d).map (·.1)).foldl dropAct s

/-- The die with its tiles zeroed. -/
def tilesZeroed (s : State) (d : Nat) : State := (dieTiles (withoutActs s d) d).foldl zeroTile (withoutActs s d)

theorem sameDie_withoutActs (s : State) (d : Nat) : SameDie s (withoutActs s d) := SameDie.foldl (fun s n => sameDie_dropAct s n) _ s

theorem tilesZeroed_tile {s : State} {d n : Nat} (h : n ∈ dieTiles s d) : (tilesZeroed s d).tile n = zeroed ((withoutActs s d).tile n) := by
  refine zeroTiles_mem _ ?_
  obtain ⟨hk, hc⟩ := List.mem_filter.mp h
  exact List.mem_filter.mpr ⟨(sameDie_withoutActs s d).known n hk, hc⟩

theorem tilesZeroed_link (s : State) (d n : Nat) : (tilesZeroed s d).link n = s.link n := by
  unfold State.link
  rw [tilesZeroed, zeroTiles_links, (sameDie_withoutActs s d).links]

theorem dieReset_resets {s : State} {d : Nat} (ha : s.dierst.active = true) (hd : s.dierst.die.toNat = d) (hm : s.dierst.moved = true)
    (hz : s.dierst.zeroed = false) (hl : linksDown s d) :
    ∃ t, execDieReset d s = .next (linksReset (dieLinks d) t) ∧ t.dierst.zeroed = true ∧ t.tiles = (tilesZeroed s d).tiles ∧ t.links = (tilesZeroed s d).links := by
  have hready : ((dieLinks d).all fun n => decide ((s.link n).st = .quiesced) || decide ((s.link n).st = .failed)) = true :=
    List.all_eq_true.mpr fun n hn => by simpa using hl n hn
  refine ⟨_, congrArg Outcome.next (if_neg ?_), rfl, rfl, rfl⟩
  rw [ha, hd, hm, hz, hready]
  simp

theorem dieReset_result {s : State} {d : Nat} (ha : s.dierst.active = true) (hd : s.dierst.die.toNat = d) (hm : s.dierst.moved = true)
    (hz : s.dierst.zeroed = false) (hl : linksDown s d) : ∃ t, execDieReset d s = .next t ∧ t.dierst.zeroed = true ∧
      (∀ n ∈ dieTiles s d, (t.tile n).vault = (s.tile n).vault ∧ (t.tile n).errands = [] ∧ (t.tile n).l1 = [] ∧ (t.tile n).group = none) ∧
      (∀ n ∈ dieLinks d, (s.link n).st = .quiesced → (t.link n).st = .retraining) ∧ (∀ n ∈ dieLinks d, (s.link n).st = .failed → (t.link n).st = .training) := by
  obtain ⟨t, he, hzero, htiles, hlinks⟩ := dieReset_resets ha hd hm hz hl
  obtain ⟨v, hv⟩ := linksReset_links (dieLinks d) t
  obtain ⟨hnd, hlt⟩ := dieLinks_nodup (d := d) (by have := s.dierst.die.isLt; omega)
  have hlink : ∀ n ∈ dieLinks d, (linksReset (dieLinks d) t).link n = (s.link n).afterReset t.dev.hubNs := fun n hn => by
    rw [linksReset_mem t hnd (hlt n hn) hn, ← tilesZeroed_link s d n, State.link, State.link, hlinks]
  refine ⟨_, he, by rw [hv]; exact hzero, fun n hn => ?_, fun n hn hq => ?_, fun n hn hq => ?_⟩
  · have ht : (linksReset (dieLinks d) t).tile n = zeroed ((withoutActs s d).tile n) := by
      rw [hv, ← tilesZeroed_tile hn, State.tile, State.tile, htiles]
    rw [ht]
    exact ⟨(sameDie_withoutActs s d).vault n, rfl, rfl, rfl⟩
  · rw [hlink n hn]; simp only [Link.afterReset, hq]; rfl
  · rw [hlink n hn]; simp only [Link.afterReset, hq]

/-- Settles O49, step by step of R420. -/
theorem dieResetResult : Obligations.DieResetResult := by
  unfold Obligations.DieResetResult
  exact ⟨fun s v h hs hg hst ha hd => dierst_runs h (dierstWrite_go hs hg hst ha hd), fun s v h hs hg => dierst_runs h (dierstWrite_select hs hg),
    fun s v h hs hg hd => dierst_runs h (dierstWrite_refused hs hg hd), fun s d h0 h3 ha hs => dieFatalError_starts h0 h3 ha hs,
    fun s d ha hd => ⟨homeMove_moves ha hd, dieReset_result ha hd, fun hz => ⟨dieReadmit_lost ha hd hz, dieReadmit_admits ha hd hz⟩⟩⟩

end Sys2Proof.Proofs
end

section
/-!
PROOFS. Bring-up, the mailbox, live hand-over, and limits of temperature and power (R30, R423 to R430).
-/
namespace Sys2Proof.Proofs
open Sys2Proof Sys2Proof.Machine Sys2Proof.Machine.State Sys2Proof.Claims
open Host (Outcome)

/-! ### Cold reset and boot (R423) -/

theorem chooseImage_store (fw : Firm) : (chooseImage fw).segs = fw.segs ∧ (chooseImage fw).fwmin = fw.fwmin ∧ (chooseImage fw).devser = fw.devser ∧
    (chooseImage fw).running = fw.running := by
  unfold chooseImage
  split <;> exact ⟨rfl, rfl, rfl, rfl⟩

theorem chooseImage_booted (fw : Firm) : (chooseImage fw).booted = (bootImage fw).map (·.gen) := by
  unfold chooseImage
  split
  · next g hg => rw [hg]; rfl
  · next hg => rw [hg]; rfl

/-- Which image boots depends on the segment store, on FWMIN and on the images that have failed. -/
theorem bootImage_congr {fw fw' : Firm} (hs : fw.segs = fw'.segs) (hm : fw.fwmin = fw'.fwmin) (hf : fw.failedGens = fw'.failedGens) : bootImage fw = bootImage fw' := by
  unfold bootImage qualifies rejected
  rw [hs, hm, hf]

/-- Firmware's state at a cold reset, before the image is chosen. -/
def resetFirm (s : State) : Firm :=
  let fw := { Firm.reset with segs := s.fw.segs, fwmin := s.fw.fwmin, devser := s.fw.devser }
  { fw with column := (configTable fw).1, width := (configTable fw).2.1, roles := (configTable fw).2.2 }

theorem coldReset_resets (s : State) : ∃ t, execColdReset s = .next t ∧ t.fw = chooseImage (resetFirm s) ∧ t.dev = State.reset.dev ∧
    t.threads = State.reset.threads ∧ t.ctxs = State.reset.ctxs ∧ t.links = State.reset.links.map (fun l => { l with st := .training }) ∧
    t.mem = s.mem.filter fun c => 2 ^ 64 ≤ c.1 := ⟨_, rfl, rfl, rfl, rfl, rfl, rfl, rfl⟩

/-! ### Loading the image -/

/-- A tile that the image `g` has been loaded into, and whose context 0 runs it. -/
structure Loaded (g n : Nat) (s : State) : Prop where
  image : (s.tile n).image = g
  lock  : (s.tile n).fwall.getLsbD 8 = true
  stat  : (s.thr (threadKey n 0)).stat = .live
  role  : (s.thr (threadKey n 0)).role = .firmware
  pc    : (s.thr (threadKey n 0)).pc = Config.imageEntry g

/-- One reeve tile at boot. -/
def loadTile (g : Nat) (s : State) (n : Nat) : State :=
  startFirmware (fwallWrite (s.modTile n fun x => { x with image := g }) n (0x100#9 ||| (Config.fwallBits n).setWidth 9)) g n

/-- A tile whose firewall is written and locked, unless it is locked already. -/
def walled (n : Nat) (x : Tile) : Tile := if x.fwall.getLsbD 8 then x else { x with fwall := (0x100#9 ||| (Config.fwallBits n).setWidth 9) &&& 0x10F }

theorem walled_locked (n : Nat) (x : Tile) : (walled n x).fwall.getLsbD 8 = true := by
  unfold walled
  split
  · next h => exact h
  · simp

theorem walled_image (n : Nat) (x : Tile) : (walled n x).image = x.image := by
  unfold walled; split <;> rfl

theorem loadTile_tile (g : Nat) (s : State) (n : Nat) : (loadTile g s n).tile n = walled n { s.tile n with image := g } :=
  (tile_modTile (s.modTile n fun x => { x with image := g }) n (walled n)).trans (congrArg (walled n) (tile_modTile s n _))

theorem loadTile_tile_ne (g : Nat) (s : State) {n m : Nat} (h : n ≠ m) : (loadTile g s m).tile n = s.tile n :=
  (tile_modTile_ne (s.modTile m fun x => { x with image := g }) m n (walled m) h).trans (tile_modTile_ne s m n _ h)

theorem loadTile_loads (g : Nat) (s : State) (n : Nat) : Loaded g n (loadTile g s n) := by
  have ht : (loadTile g s n).thr (threadKey n 0) = { Thread.reset with stat := .live, role := .firmware, pc := Config.imageEntry g } := thr_setThr ..
  exact ⟨by rw [loadTile_tile, walled_image], by rw [loadTile_tile, walled_locked], by rw [ht], by rw [ht], by rw [ht]⟩

theorem loadTile_others {g n m : Nat} {s : State} (h : Loaded g n s) (hm : n ≠ m) : Loaded g n (loadTile g s m) := by
  have ht := loadTile_tile_ne g s hm
  have hk : (loadTile g s m).thr (threadKey n 0) = s.thr (threadKey n 0) := thr_setThr_ne _ _ _ _ (by simp only [threadKey]; omega)
  exact ⟨by rw [ht]; exact h.image, by rw [ht]; exact h.lock, by rw [hk]; exact h.stat, by rw [hk]; exact h.role, by rw [hk]; exact h.pc⟩

theorem loadTiles_keep {g n : Nat} (l : List Nat) {s : State} (h : Loaded g n s) : Loaded g n (l.foldl (loadTile g) s) := by
  induction l generalizing s with
  | nil => exact h
  | cons a l ih =>
    refine ih ?_
    by_cases ha : n = a
    · rw [← ha]; exact loadTile_loads g s n
    · exact loadTile_others h ha

theorem loadTiles_load {g n : Nat} {l : List Nat} (s : State) (h : n ∈ l) : Loaded g n (l.foldl (loadTile g) s) := by
  induction l generalizing s with
  | nil => exact absurd h List.not_mem_nil
  | cons a l ih =>
    rcases List.mem_cons.mp h with rfl | h
    · exact loadTiles_keep l (loadTile_loads g s n)
    · exact ih _ h

theorem loadTiles_host (g : Nat) (l : List Nat) (s : State) : hubSide (l.foldl (loadTile g) s) = hubSide s := hubSide_foldl (f := loadTile g) (fun _ _ => rfl) l s

theorem bootLoad_loads {s : State} {g : Nat} (hb : s.fw.booted = some g) (hl : (s.link 4).st = .up) (hr : s.fw.running = false) (hn : s.fw.bootNs = none) :
    bootLoad s = { (reeveTiles s).foldl (loadTile g) s with
      fw := { ((reeveTiles s).foldl (loadTile g) s).fw with bootNs := some ((reeveTiles s).foldl (loadTile g) s).dev.hubNs } } := by
  unfold bootLoad
  rw [hb]
  exact if_neg (by simp [hl, hr, hn])

theorem flush_st (l : Link) (now : Nat) (w : List (Nat × BitVec 1920)) : (l.flush now w).st = l.st := by
  induction w generalizing l with
  | nil => rfl
  | cons x w ih =>
    unfold Link.flush
    split
    · exact ih _
    · rfl

/-- Entering level 3 changes the service level alone. -/
theorem raiseLevel_service (s : State) : ∃ v, raiseLevel s = { s with dev := { s.dev with service := v } } := by
  unfold raiseLevel
  split
  · exact ⟨3, rfl⟩
  · exact ⟨s.dev.service, rfl⟩

theorem bootLoad_raised {u : State} {g : Nat} (hb : u.fw.booted = some g) (hl : (u.link 4).st = .up) (hr : u.fw.running = false) (hn : u.fw.bootNs = none) :
    (bootLoad (raiseLevel u)).fw.bootNs = some u.dev.hubNs ∧ ∀ n ∈ reeveTiles u, Loaded g n (bootLoad (raiseLevel u)) := by
  obtain ⟨v, hv⟩ := raiseLevel_service u
  rw [hv, bootLoad_loads (s := { u with dev := { u.dev with service := v } }) (g := g) hb hl hr hn]
  refine ⟨congrArg some (congrArg (·.1.hubNs) (loadTiles_host g _ _)), fun n hm => ?_⟩
  obtain ⟨hi, hk, hst, hro, hpc⟩ := loadTiles_load (g := g) { u with dev := { u.dev with service := v } } hm
  exact ⟨hi, hk, hst, hro, hpc⟩

theorem linkTrained_boots {s : State} {lanes : BitVec 8} {rate : BitVec 12} {g : Nat} (hb : s.fw.booted = some g) (hr : s.fw.running = false)
    (hn : s.fw.bootNs = none) (hl : (s.link 4).st = .training) (hh : resetHolds s 4 = false) :
    ∃ t, execLinkTrained 4 lanes rate s = .next t ∧ t.fw.bootNs = some s.dev.hubNs ∧ ∀ n ∈ reeveTiles s, Loaded g n t := by
  refine ⟨_, rfl, bootLoad_raised hb ?_ hr hn⟩
  rw [link_modLink (by omega), if_pos hl, hh]
  exact flush_st _ _ _

/-! ### The self-check at boot (R425) -/

theorem bootAge_some {s : State} {b : Nat} (h : s.fw.bootNs = some b) : bootAge s = s.dev.hubNs - b := by
  unfold bootAge; rw [h]

theorem selfCheckTimeout_next {s : State} {g b : Nat} (hb : s.fw.booted = some g) (hr : s.fw.running = false) (hn : s.fw.bootNs = some b)
    (ht : b + 50000000 ≤ s.dev.hubNs) :
    execSelfCheckTimeout s = .next (bootLoad { s with fw := chooseImage { s.fw with bootNs := none, failedGens := s.fw.failedGens ++ [g] } }) := by
  refine congrArg Outcome.next ?_
  simp only [hb]
  refine if_neg ?_
  have ha : ¬ bootAge s < 50000000 := by rw [bootAge_some hn]; omega
  simp only [hr, hn, ha, decide_false, Option.isNone_some, Bool.or_self, Bool.false_eq_true, not_false_eq_true]

theorem selfCheckTimeout_early {s : State} {b : Nat} (hn : s.fw.bootNs = some b) (ht : s.dev.hubNs < b + 50000000) : execSelfCheckTimeout s = .next s := by
  refine congrArg Outcome.next ?_
  split
  · rfl
  · refine if_pos ?_
    have ha : bootAge s < 50000000 := by rw [bootAge_some hn]; omega
    simp only [ha, decide_true, Bool.or_true]

theorem imageReady_late {s : State} {b : Nat} (hn : s.fw.bootNs = some b) (ht : b + 50000000 < s.dev.hubNs) : execImageReady s = .next s := by
  refine congrArg Outcome.next (if_pos ?_)
  have ha : 50000000 < bootAge s := by rw [bootAge_some hn]; omega
  simp only [ha, decide_true, Bool.or_true]

theorem imageReady_runs {s : State} {b : Nat} (hb : s.fw.booted ≠ none) (hr : s.fw.running = false) (hn : s.fw.bootNs = some b)
    (ht : s.dev.hubNs ≤ b + 50000000) : ∃ t, execImageReady s = .next t ∧ t.fw.running = true ∧ t.dev.service = 1 ∧ t.dev.dieup = 1 := by
  have ha : ¬ 50000000 < bootAge s := by rw [bootAge_some hn]; omega
  have hb' : s.fw.booted.isNone = false := by rw [← Option.not_isSome, Option.isSome_iff_ne_none.mpr hb]; rfl
  refine ⟨_, congrArg Outcome.next (if_neg ?_), rfl, rfl, rfl⟩
  simp only [hb', hr, hn, ha, decide_false, Option.isNone_some, Bool.or_self, Bool.false_eq_true, not_false_eq_true]

/-! ### Service levels and dies (R428) -/

theorem dieAdmit_hub {s : State} (hr : s.fw.running = true) (hs : s.dev.service = 1) (hl : s.dierst.lost.getLsbD 0 = false) :
    execDieAdmit 0 s = .next (raiseLevel { s with dev := { s.dev with service := 2 } }) := by
  refine congrArg Outcome.next ((if_neg ?_).trans ((if_pos rfl).trans (congrArg raiseLevel (if_pos hs))))
  rw [hr, hs, hl]
  decide

theorem dieAdmit_die {s : State} {d : Nat} (hr : s.fw.running = true) (hs : 2 ≤ s.dev.service.toNat) (h0 : 0 < d) (h3 : d ≤ 3)
    (hl : s.dierst.lost.getLsbD d = false) (hu : ∀ n ∈ dieLinks d, (s.link n).st = .up) :
    execDieAdmit d s = .next (raiseLevel (writeRanks { s with dev := { s.dev with dieup := s.dev.dieup ||| (1#4 <<< d) } } d false)) := by
  have hz : ¬ s.dev.service = 0 := by
    intro h
    rw [h] at hs
    exact absurd hs (by decide)
  refine congrArg Outcome.next ((if_neg ?_).trans ((if_neg (by omega)).trans (if_pos ?_)))
  · simp only [hr, hl, hz, Nat.not_lt.mpr h3, decide_false, Bool.not_true, Bool.or_self, Bool.false_eq_true, not_false_eq_true]
  · rw [Bool.and_eq_true, decide_eq_true_eq]
    exact ⟨hs, List.all_eq_true.mpr fun n hn => decide_eq_true (hu n hn)⟩

/-! ### The mailbox (R429) -/

theorem mailbox_busy {s : State} (h : s.fw.fwstat = sBusy) (store handover : Bool) : mailbox s store handover = setStat s sRefused := if_pos h

theorem mailbox_store {s : State} (h : s.fw.fwstat ≠ sBusy) : mailbox s true false = (storeSeg s).1 := if_neg h

theorem mailbox_handover {s : State} (h : s.fw.fwstat ≠ sBusy) (hr : s.fw.running = true) : mailbox s false true = startHandover s :=
  (if_neg h).trans ((if_pos rfl).trans (if_pos hr))

theorem mailbox_both {s : State} (h : s.fw.fwstat ≠ sBusy) : mailbox s true true =
    if (storeSeg s).2 then (if (storeSeg s).1.fw.running then startHandover (storeSeg s).1 else setStat (storeSeg s).1 sRefused) else (storeSeg s).1 := by
  refine (if_neg h).trans ?_
  simp only [Bool.true_and, if_true]

theorem fwcmd_unknown {s : State} {v : Word} (h : v ∉ [1#64, 2#64, 3#64]) (hb : s.fw.fwstat = sBusy) : fwcmd v s = setStat s sRefused := by
  simp only [List.mem_cons, List.not_mem_nil, or_false, not_or] at h
  obtain ⟨h1, h2, h3⟩ := h
  unfold fwcmd
  split
  · exact absurd rfl h1
  · exact absurd rfl h2
  · exact absurd rfl h3
  · exact if_pos hb

/-! ### Live hand-over (R430) -/

section
variable {s : State} {g : Seg} (hg : s.fw.staged = some g)
include hg

theorem selfCheckComplete_runs (pass : Bool) : execSelfCheckComplete pass s = .next (if pass then { s with fw := { s.fw with checked := true } }
    else takeHeld (modReeve
      { s with fw := { appendMark s.fw 4 g.gen with staged := none, checked := false, window := false, fwstat := sRefused } } fun x => { x with spare := 0 })) := by
  refine congrArg Outcome.next ?_
  simp only [hg]

/-- The state in which every reeve tile runs the staged image. -/
def switched (s : State) (g : Seg) : State :=
  modReeve { s with fw := { s.fw with booted := some g.gen, version := g.arg, meas := sha256 g.payload, staged := none, checked := false, window := false, fwstat := sDone } }
    fun x => { x with image := x.spare, spare := 0 }

theorem handoverCommit_switches (hc : s.fw.checked = true) : execHandoverCommit s = .next (waited s (takeHeld
    ((s.ctxs.filter fun kc => kc.2.st = .measured || kc.2.st = .running || kc.2.st = .faulted).foldl
      (fun s' kc => appendEvent s' kc.1 6 (handoverBytes s.fw.meas s.fw.version (sha256 g.payload) g.arg)) (switched s g)))) := by
  refine congrArg Outcome.next (heldBack_waited ?_)
  simp only [hg]
  exact if_neg (by simp [hc])

end

/-! ### Temperature (R30) -/

theorem bitsFrom_bit {n i : Nat} (f : Nat → Bool) (hi : i < n) : (BitVec.ofNat n (bitsFrom n f)).getLsbD i = f i := by
  have h := (testBit_foldl_range f n i).2
  rw [BitVec.getLsbD_ofNat, decide_eq_true hi, Bool.true_and]
  exact h.trans (by rw [decide_eq_true hi, Bool.true_and])

theorem marked_stop {old : Bool} {t throttle stop : Nat} (h : stop ≤ t) : marked old t throttle stop = true := if_pos h

theorem marked_clear {old : Bool} {t throttle stop : Nat} (h : t < throttle) (hs : throttle ≤ stop) : marked old t throttle stop = false :=
  (if_neg (by omega)).trans (if_pos h)

theorem hubSide_beginPreempt (s : State) (tile : Nat) (g : Group) : hubSide (beginPreempt s tile g) = hubSide s := by
  refine (hubSide_foldl (fun s x => ?_) _ _).trans rfl
  split <;> rfl

theorem hubSide_requestPreempt (s : State) (tile : Nat) : hubSide (requestPreempt s tile) = hubSide s := by
  unfold requestPreempt
  split
  · rfl
  · split
    · rfl
    · split
      · exact hubSide_beginPreempt ..
      · rfl
      · rfl
      · rfl

theorem hubSide_preemptTiles (s : State) (p : Nat → Bool) : hubSide (preemptTiles s p) = hubSide s := hubSide_foldl hubSide_requestPreempt _ _

theorem dev_serviceZero (s : State) : (serviceZero s).dev = { s.dev with service := 0 } := by
  have h : hubSide (serviceZero s) = hubSide { s with dev := { s.dev with service := 0 } } := by
    refine hubSide_foldl (fun s kk => ?_) _ _
    split <;> rfl
  exact congrArg (·.1) h

/-- The marks of a thermal sample. -/
def sampled (s : State) (dies stackTemps : List Nat) (hub : Nat) : Device :=
  { s.dev with
    thStopped := BitVec.ofNat 4 (bitsFrom 4 fun d => marked (s.dev.thStopped.getLsbD d) (dies.getD d 0) 100 110)
    thThrottled := BitVec.ofNat 4 (bitsFrom 4 fun d => 100 < dies.getD d 0)
    stackHalf := BitVec.ofNat 16 (bitsFrom 16 fun i => 95 < stackTemps.getD i 0)
    stackStop := BitVec.ofNat 16 (bitsFrom 16 fun i => marked (s.dev.stackStop.getLsbD i) (stackTemps.getD i 0) 95 105)
    hubHalf := 100 < hub, hubStop := marked s.dev.hubStop hub 100 110 }

/-- Two devices with the same marks. -/
structure SameMarks (d e : Device) : Prop where
  stopped   : e.thStopped = d.thStopped
  throttled : e.thThrottled = d.thThrottled
  hub       : e.hubStop = d.hubStop

theorem thermalSample_marks (s : State) (dies stackTemps : List Nat) (hub : Nat) :
    ∃ t, execThermalSample dies stackTemps hub s = .next t ∧ SameMarks (sampled s dies stackTemps hub) t.dev := by
  refine ⟨_, rfl, ?_⟩
  lift_lets
  intro was d0 dev hubWas s1 lower d1 s2 s3 s4 d2
  have h3 : s3.dev = s2.dev := congrArg (·.1) (hubSide_preemptTiles s2 _)
  have hm : SameMarks (sampled s dies stackTemps hub) s3.dev := by rw [h3]; exact ⟨rfl, rfl, rfl⟩
  have h4 : s4.dev = { s3.dev with service := 0 } :=
    (dev_serviceZero _).trans (congrArg (fun d : Device => { d with service := 0 }) (congrArg (·.1) (hubSide_preemptTiles s3 _)))
  obtain ⟨hs, ht, hh⟩ := hm
  split
  · exact ⟨(congrArg Device.thStopped h4).trans hs, (congrArg Device.thThrottled h4).trans ht, (congrArg Device.hubStop h4).trans hh⟩
  · split
    · exact ⟨hs, ht, hh⟩
    · exact ⟨hs, ht, hh⟩

theorem thermalSample_result (s : State) (dies temps : List Nat) (hub : Nat) : ∃ t, execThermalSample dies temps hub s = .next t ∧
    (∀ d < 4, (110 ≤ dies.getD d 0 → t.dev.thStopped.getLsbD d = true) ∧ (dies.getD d 0 < 100 → t.dev.thStopped.getLsbD d = false) ∧
      (100 < dies.getD d 0 → t.dev.thThrottled.getLsbD d = true)) ∧ (110 ≤ hub → t.dev.hubStop = true) ∧ (hub < 100 → t.dev.hubStop = false) := by
  obtain ⟨t, he, hs, ht, hh⟩ := thermalSample_marks s dies temps hub
  refine ⟨t, he, fun d hd => ⟨fun h => ?_, fun h => ?_, fun h => ?_⟩, fun h => ?_, fun h => ?_⟩
  · rw [hs]; exact (bitsFrom_bit _ hd).trans (marked_stop h)
  · rw [hs]; exact (bitsFrom_bit _ hd).trans (marked_clear h (by omega))
  · rw [ht]; exact (bitsFrom_bit _ hd).trans (decide_eq_true h)
  · rw [hh]; exact marked_stop h
  · rw [hh]; exact marked_clear h (by omega)

/-- Settles O50, event by event. -/
theorem firmwareEventResult : Obligations.FirmwareEventResult := by
  unfold Obligations.FirmwareEventResult
  refine ⟨fun s => ?_, fun s lanes rate g hb hr hn hl hh => ?_, fun s g b => selfCheckTimeout_next, fun s b _ => selfCheckTimeout_early, fun s b => imageReady_late,
    fun s b => imageReady_runs, fun s => dieAdmit_hub, fun s d => dieAdmit_die, fun s h hb => ⟨?_, ?_, ?_, fun v hv => ?_⟩,
    fun s h hb => ⟨?_, fun hr => ?_, fun _ => ?_⟩, fun s g hg => ⟨?_, ?_, handoverCommit_switches hg⟩, thermalSample_result, fun s => rfl, fun s d hd => ?_⟩
  · obtain ⟨t, he, hfw, hdev, hth, hctx, hl, hmem⟩ := coldReset_resets s
    obtain ⟨hsegs, hmin, hser, hrun⟩ := chooseImage_store (resetFirm s)
    refine ⟨t, he, by rw [hfw, hsegs]; rfl, by rw [hfw, hmin]; rfl, by rw [hfw, hser]; rfl, by rw [hfw, hrun]; rfl, hdev, hth, hctx, fun kl hkl => ?_, ?_, fun a ha => ?_⟩
    · rw [hl] at hkl
      obtain ⟨l, -, rfl⟩ := Vector.mem_map.mp hkl
      rfl
    · rw [hfw, chooseImage_booted]
      exact congrArg _ (bootImage_congr hsegs.symm hmin.symm rfl)
    · rw [hmem]
      exact (Memory.read_filter (fun k => decide (2 ^ 64 ≤ k)) s.mem a).trans (if_pos (decide_eq_true ha))
  · obtain ⟨t, he, hn, hload⟩ := linkTrained_boots (lanes := lanes) (rate := rate) hb hr hn hl hh
    exact ⟨t, he, hn, fun n hm => ⟨(hload n hm).image, (hload n hm).lock, (hload n hm).stat, (hload n hm).role, (hload n hm).pc⟩⟩
  · exact congrArg Outcome.next ((inOrder_open h _ _).trans (orPosted_queued (mailbox_busy hb true false)))
  · exact congrArg Outcome.next ((inOrder_open h _ _).trans (mailbox_busy hb false true))
  · exact congrArg Outcome.next ((inOrder_open h _ _).trans (orPosted_queued (mailbox_busy hb true true)))
  · exact congrArg Outcome.next ((fromHost_open h _).trans (fwcmd_unknown hv hb))
  · exact congrArg Outcome.next ((inOrder_open h _ _).trans (orPosted_queued (mailbox_store hb)))
  · exact congrArg Outcome.next ((inOrder_open h _ _).trans (mailbox_handover hb hr))
  · exact congrArg Outcome.next ((inOrder_open h _ _).trans (orPosted_queued (mailbox_both hb)))
  · exact selfCheckComplete_runs hg true
  · exact selfCheckComplete_runs hg false
  · exact congrArg Outcome.next (if_pos hd)

end Sys2Proof.Proofs
end

section
/-!
PROOFS. The frame of `st` (R147): its last clause needs the canonical form of memory (log 2), which no premise gives.
-/
namespace Sys2Proof.Proofs
open Sys2Proof Sys2Proof.Machine Sys2Proof.Machine.State Sys2Proof.Claims
open Host (Outcome)

/-- A line whose first byte is stored to and holds 0. -/
def zeroedByte : L1Line := { data := 0, dirty := 1, old := false }

/-- A kernel header (Table 06-6): 64 `x` registers. -/
def storeHeader : BitVec 512 := BitVec.ofNat 512 (64 * 2 ^ 48)

/-- A running launch of one group on tile 0. -/
def storeKernel : Kernel :=
  { st := .running, ctx := 9, hdrAddr := 0x10000, hdr := storeHeader, argAddr := 0, argLen := 0, allot := 0, groups := 1, dies := 1, bufs := [], shape := 0,
    gp := 0, places := [], queue := 0, pkt := 0, tag := 5, notify := true, tiles := [0], live := [0], since := 0, starve := false, cause := 0,
    gbars := Vector.replicate 4 { gen := 0, arrived := [] }, root := none, written := false }

/-- The lead of that group: `x10` is the line's address, `x6` what it stores. -/
def storeThread : Thread :=
  { Thread.reset with
    stat := .live, ctx := 9, kernel := 7, pc := 0x10000, stackBase := 0x40040000
    x := (Thread.reset.x.set 6 6).set 10 0x40050000 }

/-- A tile whose L1 holds that line. -/
def storeTile : Tile :=
  { Tile.reset with
    group := some { kernel := 7, rank := 0, stat := .live, resid := .resident, restoreReq := false, preemptReq := false }
    l1 := [(0x40050000, zeroedByte)] }

/-- A device in service whose context 9 maps its second GiB; out of order in the memory list stands the byte 1 at the line's first place. -/
def outOfForm : State :=
  { State.reset with
    dev := { State.reset.dev with powered := true, service := 3, dieup := 0xF, headroom := Vector.replicate 4 { head := 400000, epoch := 0 } }
    ctxs := [(9, { Ctx.reset with st := .running, ptRoot := 0x30000 })], kernels := [(7, storeKernel)]
    mem := [(0x20008, 0xB1), (0x2000B, 0x40), (0x30000, 1), (0x30002, 2), (0x80000000, 10), (0x40050000, 1)]
    tiles := [(0, storeTile)], threads := [(0, storeThread)] }

/-- A store of eight bytes at device scope to 0x40050040, in the same line. -/
def storeBeside : CForm := plainC 2 0 10 6 0 0x206 0x40

/-- An answer is what its second part shows. -/
theorem answers_of_toOption {α β ε : Type} {r : α × Except ε β} {b : β} (h : r.2.toOption = some b) : r = (r.1, .ok b) := by
  obtain ⟨a, x⟩ := r
  cases x with
  | ok x => exact congrArg (fun y => (a, Except.ok y)) (Option.some.inj h)
  | error e => cases h

/-- The state in which the store finds its place. -/
def outOfFormReached : State :=
  (resolve outOfForm ((curAgent outOfForm).at 1 2) ((cenv 0x61 storeBeside outOfForm).a + storeBeside.simm) 8 8 .wr).1

theorem outOfForm_reaches : Reaches outOfForm ((curAgent outOfForm).at 1 2) ((cenv 0x61 storeBeside outOfForm).a + storeBeside.simm) 8 8 .wr
    outOfFormReached 0x40050040 := ⟨answers_of_toOption (by decide +kernel), by decide +kernel⟩

theorem outOfForm_homes : ∀ i < 8, homePlace outOfFormReached 0x40050000 ≠ homePlace outOfFormReached (0x40050040 + i) := by decide +kernel

theorem outOfForm_tiles : outOfFormReached.tiles.map (fun a => (a.1, a.2.l1)) = [(0, [(0x40050000, zeroedByte)])] := by decide +kernel

theorem outOfForm_before : newest outOfFormReached 0x40050000 = 0 := by decide +kernel

/-- The state that the store leaves. -/
def outOfFormStored : State :=
  match exec (.st (.c storeBeside)) outOfForm with
  | .next s => s
  | _ => outOfForm

theorem outOfForm_stores : exec (.st (.c storeBeside)) outOfForm = .next outOfFormStored := rfl

theorem outOfForm_after : newest outOfFormStored 0x40050000 = 1 := by decide +kernel

theorem outOfForm_issues : Issues 0x61 storeBeside outOfForm where
  running := by decide +kernel
  counts := by decide +kernel
  unit := by decide +kernel
  warn := .inr (by decide +kernel)
  need := by decide +kernel
  guard := .inr (by decide +kernel)
  ticket n hn := by
    have hnone : ticketOf storeBeside = none := by decide +kernel
    rw [hnone] at hn
    cases hn
  dest := by decide +kernel
  full := by decide +kernel
  free := by decide +kernel
  clean _ _ := rfl

/-- The device has one tile, whose L1 holds that line alone. -/
theorem outOfForm_tile {a : Nat × Tile} (ha : a ∈ outOfFormReached.tiles) : a.1 = 0 ∧ a.2.l1 = [(0x40050000, zeroedByte)] := by
  have hm := List.mem_map_of_mem (f := fun a : Nat × Tile => (a.1, a.2.l1)) ha
  rw [outOfForm_tiles, List.mem_singleton] at hm
  exact Prod.mk.inj hm

/-- Only the first byte of the line is dirty. -/
theorem outOfForm_dirty {a : Nat × Tile} (ha : a ∈ outOfFormReached.tiles) {d : Nat} (hd : dirtyAt a.2 (lineOf d) (d % 128) = true) : d = 0x40050000 := by
  rw [dirtyAt, (outOfForm_tile ha).2] at hd
  have hline : 0x40050000 = lineOf d := by
    refine Classical.byContradiction fun hne => ?_
    simp [Tbl.find?, hne] at hd
  have hfirst : d % 128 = 0 := by
    refine Classical.byContradiction fun hne => ?_
    simp [Tbl.find?, hline, zeroedByte, BitVec.getLsbD_one, hne] at hd
  unfold lineOf at hline
  omega

theorem outOfForm_cachesOk : CachesOk outOfFormReached 0x40050000 where
  tiles := by
    have hk : (outOfFormReached.tiles.map (·.1)).Pairwise (· < ·) := by decide +kernel
    exact List.pairwise_map.mp hk
  lines a ha := by
    rw [(outOfForm_tile ha).2]
    exact ⟨List.pairwise_singleton _ _, by simp⟩
  sole a ha b hb _ _ := (outOfForm_tile ha).1.trans (outOfForm_tile hb).1.symm
  homes a ha d hd hne := absurd (outOfForm_dirty ha hd) hne

/-- Refutes O10 in its last clause, which has no premise that memory is in canonical form (log 2). In `outOfForm` the byte at 0x40050000 is dirty in the
L1 with value 0, and the memory list names that place behind a higher one. The device-scope store to 0x40050040, in the same line, first sends the dirty
byte home; `Memory.write` stops at the higher place and leaves the entry, so the newest value there changes from 0 to 1. -/
theorem not_storeFrame : ¬ Obligations.StoreFrame := by
  unfold Obligations.StoreFrame
  intro h
  obtain ⟨-, -, -, -, -, -, -, hbytes⟩ := h storeBeside outOfForm outOfFormReached outOfFormStored 0x40050040 outOfForm_issues (fun hrel => absurd hrel (by decide))
    outOfForm_reaches (by decide) outOfForm_stores
  have hkept := hbytes 0x40050000 outOfForm_homes outOfForm_cachesOk
  rw [outOfForm_after, outOfForm_before] at hkept
  exact absurd hkept (by decide)

end Sys2Proof.Proofs
end

section
/-!
PROOFS. The canonical form of memory (log 2) through the accessors, accesses of memory and what instructions share.
-/
namespace Sys2Proof.Machine
open Sys2Proof

/-- The state that a turn leaves. -/
def Turn.state : Turn → State
  | .done s | .run _ s => s

/-- The state that a unit of an errand's work leaves. -/
def Did.state : Did → State
  | .ok s _ | .fail s _ _ _ _ | .stall s _ _ | .wait s _ => s

/-- The state that the issue of an errand leaves. -/
def Issued.state : Issued → State
  | .hold s | .ok s _ | .trap s _ _ _ => s

/-- The state that the waking of a callee leaves. -/
def Woken.state : Woken → State
  | .wait s | .bad s _ | .stop s _ _ | .ok s => s

end Sys2Proof.Machine

namespace Sys2Proof.Proofs
open Sys2Proof Sys2Proof.Machine Sys2Proof.Machine.State Sys2Proof.Claims
open Host (Outcome)

/-- A next state that an answer gives has its memory in canonical form. -/
def KeepsForm (o : Outcome State Fault Refusal) : Prop := ∀ t, o = .next t → t.Inv

theorem keepsForm_next {s : State} (h : s.Inv) : KeepsForm (.next s) := by
  intro t e
  cases e
  exact h

/-- A fold whose accumulator carries the state keeps the form where each of its steps does. -/
theorem inv_foldlFst {α β : Type} {f : State × β → α → State × β} (hf : ∀ p a, p.1.Inv → (f p a).1.Inv) (l : List α) {p : State × β} (h : p.1.Inv) :
    (l.foldl f p).1.Inv := by
  induction l generalizing p with
  | nil => exact h
  | cons a l ih => exact ih (hf p a h)

/-- The state of a pair keeps the form where the pair's does. -/
theorem inv_of_eq {α : Type} {p : State × α} {s : State} {x : α} (h : p.1.Inv) (e : p = (s, x)) : s.Inv := by
  rw [e] at h
  exact h

theorem inv_ite {c : Prop} [Decidable c] {s t : State} (hs : s.Inv) (ht : t.Inv) : (if c then s else t).Inv := by
  split
  · exact hs
  · exact ht

/-! ### The state -/

theorem inv_reset : State.reset.Inv := rfl

/-! ### Writes to the state's tables -/

theorem inv_setTile {s : State} (h : s.Inv) (n : Nat) (t : Tile) : (s.setTile n t).Inv := h

theorem inv_setCtx {s : State} (h : s.Inv) (n : Nat) (c : Ctx) : (s.setCtx n c).Inv := h

theorem inv_setKern {s : State} (h : s.Inv) (n : Nat) (k : Kernel) : (s.setKern n k).Inv := h

theorem inv_setAct {s : State} (h : s.Inv) (n : Nat) (a : Act) : (s.setAct n a).Inv := h

theorem inv_setInst {s : State} (h : s.Inv) (n : Nat) (a : Inst) : (s.setInst n a).Inv := h

theorem inv_setQueue {s : State} (h : s.Inv) (q : Nat) (v : Queue) : (s.setQueue q v).Inv := h

theorem inv_modQueue {s : State} (h : s.Inv) (q : Nat) (f : Queue → Queue) : (s.modQueue q f).Inv := h

theorem inv_modFunc {s : State} (h : s.Inv) (f : Nat) (g : Func → Func) : (s.modFunc f g).Inv := h

theorem inv_modLink {s : State} (h : s.Inv) (n : Nat) (f : Link → Link) : (s.modLink n f).Inv := h

theorem inv_fresh {s : State} (h : s.Inv) : (s.fresh).2.Inv := h

theorem inv_chargeWork {s : State} (h : s.Inv) (ctx i : Nat) : (chargeWork s ctx i).Inv := h

theorem inv_spReleaseIf {s : State} (h : s.Inv) (p : Nat → Bool) : (spReleaseIf s p).Inv := by
  unfold spReleaseIf
  grind [inv_spRelease, inv_foldl]

theorem inv_dropTaken {s : State} (h : s.Inv) (m : Mover) : (dropTaken s m).Inv := h

/-! ### Charges, flits and lines -/

theorem inv_sendFlit {s : State} (h : s.Inv) (m : Mover) (n kind : Nat) (payload : BitVec 1920) : (sendFlit s m n kind payload).Inv := by
  unfold sendFlit
  grind [inv_chargeAgent, inv_modLink]

/-! ### Translation -/

theorem inv_peersNow {s : State} (h : s.Inv) : (peersNow s).Inv := h

theorem inv_tlbInstall {s : State} (h : s.Inv) (tile : Nat) (e : TlbEntry) : (tlbInstall s tile e).Inv := h

theorem inv_joinWalk {s : State} (h : s.Inv) (tile ctx : Nat) (va : Word) : ∀ u ∈ joinWalk s tile ctx va, u.Inv := by
  unfold joinWalk
  grind [State.Inv]

theorem inv_findLeaf_fresh {s : State} (h : s.Inv) (tile ctx : Nat) (need : Need) (a : Nat) : (findLeaf.fresh s tile ctx need a).1.Inv := by
  unfold findLeaf.fresh
  split
  · grind [inv_tlbInstall, inv_walk]
  · grind [inv_walk]

theorem inv_findLeaf_miss {s : State} (h : s.Inv) (tile ctx : Nat) (va : Word) (need : Need) (a : Nat) :
    (findLeaf.miss s tile ctx va need a).1.Inv := by
  unfold findLeaf.miss
  split
  · exact h
  · grind [inv_joinWalk, inv_findLeaf_fresh]

theorem inv_translateAny {s : State} (h : s.Inv) (tile ctx : Nat) (va : Word) : (translateAny s tile ctx va).1.Inv := by
  unfold translateAny
  split <;> grind [inv_translate]

theorem inv_bringLine {s : State} (h : s.Inv) (ctx : Nat) (leaf : Word) (bits : Nat) (l : Prefetch) : (bringLine s ctx leaf bits l).1.Inv := by
  unfold bringLine
  split
  · exact h
  · grind [inv_askPage, inv_l2Keep, inv_hbmMoved, inv_fetchLine, inv_ensureFace]

theorem inv_bringLines {s : State} (h : s.Inv) (ctx : Nat) (leaf : Word) (bits : Nat) (l : List Prefetch) : (bringLines s ctx leaf bits l).1.Inv := by
  induction l generalizing s ctx leaf bits with
  | nil => exact h
  | cons x l ih =>
    unfold bringLines
    grind [inv_bringLine]

/-! ### Accesses from the hub and the host -/

theorem inv_refill {s : State} (h : s.Inv) (ag : Agent) (k : Nat) : (refill s ag k).Inv := by
  unfold refill
  split
  · grind [inv_spFill]
  · exact h

theorem inv_enqueue {s : State} (h : s.Inv) (r : HostReq) : (enqueue r s).Inv := h

theorem inv_inOrder {s : State} (h : s.Inv) (r : HostReq) {f : State → State} (hf : (f s).Inv) : (inOrder r f s).Inv := by
  unfold inOrder
  grind [inv_enqueue]

theorem inv_orPosted {s : State} (h : s.Inv) (r : HostReq) {f : State → State} (hf : (f s).Inv) : (orPosted r f s).Inv :=
  inv_heldBack (fun _ => h) hf

theorem inv_hubReach_go {s : State} (h : s.Inv) (ctx : Nat) (need : Need) (va : Word) (n fuel : Nat) : (hubReach.go ctx need s va n fuel).1.Inv := by
  induction fuel generalizing s ctx need va n with
  | zero => exact h
  | succ fuel ih =>
    unfold hubReach.go
    split
    · exact h
    · grind [inv_hubLine]

theorem inv_hubReach {s : State} (h : s.Inv) (ctx : Nat) (va : Word) (n : Nat) (need : Need) : (hubReach s ctx va n need).1.Inv := by
  unfold hubReach
  grind [inv_hubReach_go]

theorem inv_hubWriteWhole {s : State} (h : s.Inv) (ctx : Nat) (va : Word) (bs : List Byte) : (hubWriteWhole s ctx va bs).1.Inv := by
  unfold hubWriteWhole
  split
  · grind [inv_hubReach]
  · grind [inv_hubWriteVa, inv_hubReach]

theorem inv_hubCheck_go {s : State} (h : s.Inv) (ctx : Nat) (need : Need) (p n : Nat) : (hubCheck.go ctx need s p n).1.Inv := by
  induction n generalizing s p with
  | zero => exact h
  | succ n ih =>
    unfold hubCheck.go
    grind [inv_translateHub]

theorem inv_hubCheck {s : State} (h : s.Inv) (ctx : Nat) (va : Word) (n : Nat) (need : Need) : (hubCheck s ctx va n need).1.Inv := by
  unfold hubCheck
  split
  · exact h
  · grind [inv_hubCheck_go]

/-! ### The errand table -/

theorem inv_freeTile {s : State} (h : s.Inv) (tile : Nat) : (freeTile s tile).Inv := h

theorem inv_endPort {s : State} (h : s.Inv) (tile slot : Nat) : (endPort s tile slot).Inv := h

theorem inv_dueTokens {s : State} (h : s.Inv) (ctx : Nat) (h st : Word) : (dueTokens s ctx h st).Inv := by
  unfold dueTokens
  grind [State.Inv]

theorem inv_shareStatus {s : State} (h : s.Inv) (ctx : Nat) (h st : Word) : (shareStatus s ctx h st).Inv := by
  unfold shareStatus
  grind [State.Inv, inv_dueTokens]

/-! ### What bundles share -/

theorem inv_toSlot {s : State} (h : s.Inv) (k : Nat) : (toSlot s k).Inv := h

theorem inv_needX {s : State} (h : s.Inv) (k : Nat) (rs : List Nat) {go : BRes} (hg : go.state.Inv) : (needX s k rs go).state.Inv := by
  unfold needX
  grind [BRes.state, inv_poisTrap]

theorem inv_retX {s : State} (h : s.Inv) (e : CEnv) (v : Word) : (retX e s v).state.Inv := h

theorem inv_retFill {s : State} (h : s.Inv) (e : CEnv) (v : Word) : (retFill e s v).state.Inv := h

theorem inv_addWarn {s : State} (h : s.Inv) (k : Nat) (w : BitVec 16) : (addWarn s k w).Inv := h

theorem inv_raiseC {s : State} (h : s.Inv) (e : CEnv) (fl : BitVec 13) {go : State → BRes} (hg : ∀ s, s.Inv → (go s).state.Inv) :
    (raiseC e s fl go).state.Inv := by
  unfold raiseC
  grind [BRes.state, inv_modThr]

theorem inv_reportDeferred {s : State} (h : s.Inv) (k scope : Nat) {go : State → BRes} (hg : (go s).state.Inv) : (reportDeferred s k scope go).state.Inv := by
  unfold reportDeferred
  grind [State.Inv, inv_modThr, BRes.state]

theorem inv_stopRes {s : State} (h : s.Inv) (st : Stop) (ea info : Word) : (stopRes s st ea info).state.Inv := by
  unfold stopRes
  split <;> exact h

/-! ### What blocks share -/

theorem inv_sendLate {s : State} (h : s.Inv) (inst ix : Nat) (lead : Token) (v : Word) (upd : Inst → Inst) :
    (sendLate s inst ix lead v upd).Inv := by
  unfold sendLate
  split
  · exact h
  · grind [inv_modInst, inv_sendFit, inv_sendTo]

theorem inv_raiseG {s : State} (h : s.Inv) (e : GEnv) (fl : BitVec 13) (w : BitVec 16) {go : State → GRes} (hg : ∀ s, s.Inv → (go s).state.Inv) :
    (raiseG e s fl w go).state.Inv := by
  unfold raiseG
  grind [GRes.state, inv_noteStatus]

theorem inv_stopG {s : State} (h : s.Inv) (st : Stop) (ea : Word) : (stopG s st ea).state.Inv := by
  unfold stopG
  split <;> exact h

/-! ### Operands and results -/

theorem inv_readOld {s : State} (h : s.Inv) (e : CEnv) (k : Nat) {go : BRes} (hg : go.state.Inv) : (readOld e s k go).state.Inv := by
  unfold readOld
  split
  · exact inv_poisTrap h _
  · exact hg

theorem inv_retV {s : State} (h : s.Inv) (e : CEnv) (long : Bool) (v : Vec) : (retV e s long v).state.Inv := by
  unfold retV
  split <;> exact h

theorem inv_lanewise {s : State} (h : s.Inv) (e : CEnv) (k : Nat) (long : Bool) (op : Nat → Res) : (lanewise e s k long op).state.Inv := by
  unfold lanewise
  grind [BRes.state, inv_readOld, inv_raiseC, inv_addWarn, inv_retV]

theorem inv_laneMaskRes {s : State} (h : s.Inv) (e : CEnv) (k : Nat) (op : Nat → Bool × BitVec 13 × BitVec 16) :
    (laneMaskRes e s k op).state.Inv := by
  unfold laneMaskRes
  split <;> grind [BRes.state, inv_raiseC, inv_addWarn, inv_modThr, inv_foldl]

end Sys2Proof.Proofs
end

section
/-!
PROOFS. The canonical form of memory through loads, stores and synchronization.
-/
namespace Sys2Proof.Proofs
open Sys2Proof Sys2Proof.Machine Sys2Proof.Machine.State Sys2Proof.Claims
open Host (Outcome)

/-! ### Loads and stores -/

theorem inv_releaseAt {s : State} (h : s.Inv) (tile scope : Nat) : (releaseAt s tile scope).Inv := by
  unfold releaseAt
  split
  · grind [inv_releaseDevice]
  · exact h

theorem inv_acquireAt {s : State} (h : s.Inv) (tile scope : Nat) : (acquireAt s tile scope).Inv := by
  unfold acquireAt
  split <;> exact h

theorem inv_readAt {s : State} (h : s.Inv) (tile k n ord scope : Nat) : (readAt s tile k n ord scope).1.Inv := by
  unfold readAt
  split
  · grind [inv_loadPlace, inv_acquireAt]
  · grind [inv_loadPlace]

theorem inv_writeAt {s : State} (h : s.Inv) (tile k : Nat) (bs : List Byte) (ord scope : Nat) : (writeAt s tile k bs ord scope).Inv := by
  unfold writeAt
  split
  · grind [inv_storePlace, inv_releaseAt]
  · grind [inv_storePlace]

theorem inv_noteStore {s : State} (h : s.Inv) (k : Nat) (ticket : Option Nat) (err : Option Word) : (noteStore s k ticket err).Inv := h

theorem inv_noteStoreTo {s : State} (h : s.Inv) (k : Nat) (ticket : Option Nat) (ea : Word) (place : Nat) :
    (noteStoreTo s k ticket ea place).Inv := h

theorem inv_deferFirewall {s : State} (h : s.Inv) (k : Nat) (ea : Word) : (deferFirewall s k ea).Inv := h

theorem inv_stopStore {s : State} (h : s.Inv) (e : CEnv) (st : Stop) (ea info : Word) : (stopStore e s st ea info).state.Inv := by
  unfold stopStore
  split
  · exact h
  · grind [BRes.state, inv_noteStore, inv_deferFirewall, inv_stopRes]

theorem inv_heldOr {ε α : Type} {s : State} (h : s.Inv) (opc : Nat) (e : CEnv) (st : Stop) (free : State × Except ε α) {other : BRes} (ho : other.state.Inv) :
    (heldOr opc e s st free other).state.Inv := by
  unfold heldOr
  generalize (decide (st = .hold) && _) = held
  cases held
  · exact ho
  · exact h

theorem inv_ldBody {s : State} (h : s.Inv) (e : CEnv) : (ldBody e s).state.Inv := by
  unfold ldBody
  grind [BRes.state, inv_modThr, inv_resolve, inv_heldOr, inv_stopRes, inv_readAt]

theorem keeps_execLd {s : State} (h : s.Inv) (f : Form) : KeepsForm (execLd f s) := by
  unfold execLd
  split
  · refine keepsForm_next (inv_runC h _ _ ?_)
    grind [BRes.state, inv_ldBody]
  · refine keepsForm_next (inv_runG h _ _ fun e => ?_)
    dsimp only
    grind [GRes.state, inv_resolve, inv_noteStatus, inv_stopG, inv_readAt]

theorem inv_bufferStore {s : State} (h : s.Inv) (e : GEnv) (opc : Nat) (ea : Word) (k : Nat) (data : List Byte) (len ord scope : Nat) :
    (bufferStore e s opc ea k data len ord scope).Inv := by
  unfold bufferStore
  grind [inv_modInst]

theorem inv_stBody {s : State} (h : s.Inv) (e : CEnv) : (stBody e s).state.Inv := by
  unfold stBody
  grind [BRes.state, inv_resolve, inv_heldOr, inv_stopStore, inv_noteStore, inv_addWarn, inv_noteStoreTo, inv_writeAt, inv_reportDeferred]

theorem keeps_execSt {s : State} (h : s.Inv) (f : Form) : KeepsForm (execSt f s) := by
  unfold execSt
  split
  · refine keepsForm_next (inv_runC h _ _ ?_)
    grind [BRes.state, inv_stBody]
  · refine keepsForm_next (inv_runG h _ _ fun e => ?_)
    dsimp only
    grind [GRes.state, inv_resolve, inv_noteStatus, inv_stopG, inv_bufferStore]

theorem inv_prefetchWalk {s : State} (h : s.Inv) (ctx : Nat) (l : Prefetch) : (prefetchWalk s ctx l).Inv := by
  unfold prefetchWalk
  grind [State.Inv]

theorem inv_prefetch {s : State} (h : s.Inv) (ag : Agent) (ea : Word) (nt : Bool) : (prefetch s ag ea nt).Inv := by
  unfold prefetch
  split
  · exact h
  · grind [inv_prefetchWalk, inv_bringLine]

theorem keeps_execPrf {s : State} (h : s.Inv) (f : Form) : KeepsForm (execPrf f s) := by
  unfold execPrf
  split
  · refine keepsForm_next (inv_runC h _ _ ?_)
    grind [BRes.state, inv_prefetch]
  · refine keepsForm_next (inv_runG h _ _ fun e => ?_)
    dsimp only
    grind [GRes.state, inv_prefetch, inv_noteStatus]

theorem inv_elemPlaces {s : State} (h : s.Inv) (ag : Agent) (packed : Bool) (need : Need) (a : VAcc) :
    (elemPlaces s ag packed need a).1.Inv := by
  unfold elemPlaces
  split <;> grind [inv_resolve]

theorem inv_checkElems {s : State} (h : s.Inv) (ag : Agent) (packed : Bool) (need : Need) (l : List VAcc) : (checkElems s ag packed need l).1.Inv := by
  induction l generalizing s ag packed need with
  | nil => exact h
  | cons x l ih =>
    unfold checkElems
    split <;> grind [inv_elemPlaces]

theorem inv_loadElem {s : State} (h : s.Inv) (tile ord scope : Nat) (a : VAcc) (ks : List Nat) : (loadElem s tile ord scope a ks).1.Inv := by
  refine inv_foldlFst ?_ ks h
  exact fun _ k h => inv_loadPlace h tile k _ ord scope

theorem inv_oldElem {s : State} (h : s.Inv) (tile scope : Nat) (a : VAcc) (ks : List Nat) : (oldElem s tile scope a ks).1.Inv := by
  refine inv_foldlFst ?_ ks h
  exact fun _ k h => inv_atomicRead h tile k _ scope

theorem inv_storeElem {s : State} (h : s.Inv) (tile ord scope : Nat) (bs : List Byte) (ks : List Nat) : (storeElem s tile ord scope bs ks).Inv := by
  induction ks generalizing s bs with
  | nil => exact h
  | cons k r ih =>
    cases r with
    | nil => exact inv_storePlace h _ _ _ _ _
    | cons k2 r => exact ih (inv_storePlace h _ _ _ _ _) _

theorem inv_stopElem {s : State} (h : s.Inv) (x : Stop × VAcc) : (stopElem s x).state.Inv := by
  unfold stopElem
  grind [BRes.state, inv_stopRes]

/-- The elements that a vector load reads keep the form. -/
theorem inv_readElements {s : State} (h : s.Inv) (f : CForm) (tile : Nat) (l : List (VAcc × List Nat)) : (readElements f tile s l).1.Inv := by
  refine inv_foldlFst ?_ l h
  grind [inv_loadElem]

theorem inv_vecLoadBody {s : State} (h : s.Inv) (opc : Nat) (addr : CEnv → Nat → Word) (e : CEnv) : (vecLoadBody opc addr e s).state.Inv := by
  unfold vecLoadBody
  refine inv_readOld h _ _ ?_
  have hc := inv_checkElems h (e.agent.at (ldOrd e.f.ord e.f.scope) e.f.scope) (isPacked e.f.fmt) .rd (vaccs e (addr e))
  split
  · exact h
  split
  · grind [BRes.state, inv_heldOr, inv_stopElem, inv_modThr]
  next s1 l hl =>
    rw [hl] at hc
    have hr := inv_readElements (s := s1) hc e.f e.tile l
    show State.Inv (if _ then acquireAt (readElements e.f e.tile s1 l).1 e.tile e.f.scope else (readElements e.f e.tile s1 l).1)
    split
    · exact inv_acquireAt hr _ _
    · exact hr

theorem keeps_vecLoad {s : State} (h : s.Inv) (opc : Nat) (f : CForm) (addr : CEnv → Nat → Word) : KeepsForm (vecLoad opc f s addr) := by
  unfold vecLoad
  refine keepsForm_next (inv_runC h _ _ ?_)
  grind [BRes.state, inv_vecLoadBody]

theorem inv_vecStoreBody {s : State} (h : s.Inv) (opc : Nat) (addr : CEnv → Nat → Word) (src : CEnv → Vec) (e : CEnv) :
    (vecStoreBody opc addr src e s).state.Inv := by
  unfold vecStoreBody
  grind [BRes.state, inv_checkElems, inv_heldOr, inv_stopStore, inv_deferFirewall, inv_releaseAt, inv_addWarn, inv_refill, inv_oldElem, inv_storeElem,
    inv_modThr, inv_reportDeferred, inv_foldl]

theorem keeps_vecStore {s : State} (h : s.Inv) (opc : Nat) (f : CForm) (addr : CEnv → Nat → Word) (src : CEnv → Vec) :
    KeepsForm (vecStore opc f s addr src) := by
  unfold vecStore
  refine keepsForm_next (inv_runC h _ _ ?_)
  grind [BRes.state, inv_vecStoreBody]

theorem inv_backLine {s : State} (h : s.Inv) (ag : Agent) (drop : Bool) (va : Word) : (backLine s ag drop va).1.Inv := by
  unfold backLine
  split
  · grind [inv_translateAny]
  · grind [inv_spLineBack, inv_evictLine, inv_drainLine, inv_translateAny]

theorem inv_backLines {s : State} (h : s.Inv) (ag : Agent) (drop : Bool) (line n : Nat) : (backLines s ag drop line n).1.Inv := by
  induction n generalizing s ag drop line with
  | zero => exact h
  | succ n ih =>
    unfold backLines
    split <;> grind [inv_backLine]

theorem inv_cacheRange {s : State} (h : s.Inv) (opc : Nat) (drop : Bool) (f : CForm) : KeepsForm (cacheRange opc drop f s) := by
  unfold cacheRange
  refine keepsForm_next (inv_runC h _ _ ?_)
  dsimp only
  split
  · exact h
  · grind [BRes.state, inv_backLines, inv_noteStore]

theorem keeps_execCwb {s : State} (h : s.Inv) (f : CForm) : KeepsForm (execCwb f s) := by
  unfold execCwb
  grind [inv_cacheRange]

theorem keeps_execCinv {s : State} (h : s.Inv) (f : CForm) : KeepsForm (execCinv f s) := by
  unfold execCinv
  grind [inv_cacheRange]

/-! ### Atomics, fences, sync words, counters, barriers -/

theorem inv_rmw {s : State} (h : s.Inv) (tile k n ord scope : Nat) (f : Nat → Option Nat) : (rmw s tile k n ord scope f).1.Inv := by
  unfold rmw
  split
  · grind [inv_releaseAt, inv_atomicRead, inv_atomicWrite, inv_acquireAt]
  · grind [inv_atomicRead, inv_atomicWrite, inv_acquireAt]

theorem inv_peerAtomic {s : State} (h : s.Inv) (tile k ord : Nat) : (peerAtomic s tile k ord).Inv := by
  unfold peerAtomic
  split
  · grind [inv_releaseDevice, inv_sendFlit, inv_acquireDevice]
  · grind [inv_sendFlit, inv_acquireDevice]

theorem inv_atomicBody {s : State} (h : s.Inv) (opc : Nat) (op : CEnv → Nat → Option Nat) (e : CEnv) : (atomicBody opc op e s).state.Inv := by
  unfold atomicBody
  grind [BRes.state, inv_modThr, inv_noteStore, inv_resolveAt, inv_heldOr, inv_stopStore, inv_stopRes, inv_peerAtomic, inv_readAt, inv_addWarn, inv_rmw,
    inv_reportDeferred]

theorem keeps_atomicG {s : State} (h : s.Inv) (opc : Nat) (f : GForm) (op : GEnv → Nat → Option Nat) : KeepsForm (atomicG opc f s op) := by
  unfold atomicG
  refine keepsForm_next (inv_runG h _ _ fun e => ?_)
  dsimp only
  split
  · exact h
  · grind [GRes.state, inv_resolveAt, inv_noteStatus, inv_stopG, inv_modInst, inv_peerAtomic, inv_rmw]

theorem keeps_execAmo {s : State} (h : s.Inv) (f : Form) : KeepsForm (execAmo f s) := by
  unfold execAmo
  split
  · refine keepsForm_next (inv_runC h _ _ ?_)
    grind [BRes.state, inv_atomicBody]
  · grind [keeps_atomicG]

theorem keeps_execCas {s : State} (h : s.Inv) (f : Form) : KeepsForm (execCas f s) := by
  unfold execCas
  split
  · refine keepsForm_next (inv_runC h _ _ ?_)
    grind [BRes.state, inv_atomicBody]
  · grind [keeps_atomicG]

theorem keeps_execFence {s : State} (h : s.Inv) (f : Form) : KeepsForm (execFence f s) := by
  unfold execFence
  split
  · refine keepsForm_next (inv_runC h _ _ ?_)
    dsimp only
    grind [BRes.state, inv_reportDeferred, inv_acquireAt, inv_releaseAt]
  · refine keepsForm_next (inv_runG h _ _ fun e => ?_)
    dsimp only
    grind [GRes.state, inv_bufferStore, inv_acquireAt]

theorem inv_pubLine {s : State} (h : s.Inv) (ag : Agent) (acq : Bool) (line : Nat) : (pubLine s ag acq line).1.Inv := by
  unfold pubLine
  split
  · grind [inv_translateAny]
  · grind [inv_dropRead, inv_drainLine, inv_translateAny]

theorem inv_pubRun {s : State} (h : s.Inv) (ag : Agent) (acq : Bool) (line n : Nat) : (pubRun s ag acq line n).1.Inv := by
  induction n generalizing s ag acq line with
  | zero => exact h
  | succ n ih =>
    unfold pubRun
    split <;> grind [inv_pubLine]

theorem inv_pubLines {s : State} (h : s.Inv) (ag : Agent) (acq : Bool) (ea : Word) (len : Nat) : (pubLines s ag acq ea len).1.Inv := by
  unfold pubLines
  split
  · exact h
  · grind [inv_pubRun]

theorem keeps_execPub {s : State} (h : s.Inv) (f : Form) : KeepsForm (execPub f s) := by
  unfold execPub
  split
  · refine keepsForm_next (inv_runC h _ _ ?_)
    dsimp only
    grind [BRes.state, inv_reportDeferred, inv_noteStore, inv_resolve, inv_stopRes, inv_pubLines]
  · refine keepsForm_next (inv_runG h _ _ fun e => ?_)
    grind [GRes.state, inv_resolve, inv_stopG, inv_pubLines, inv_bufferStore]

theorem inv_synPlace {s : State} (h : s.Inv) (ag : Agent) (ea : Word) (need : Need) : (synPlace s ag ea need).1.Inv := by
  unfold synPlace
  split
  · exact h
  · grind [inv_resolve]

theorem inv_synWrite {s : State} (h : s.Inv) (k : Nat) (w : BitVec 128) : (synWrite s k w).Inv := inv_writeHome _ h k

theorem inv_deferPoison {s : State} (h : s.Inv) (k : Nat) (ea : Word) : (deferPoison s k ea).Inv := h

theorem keeps_execSynPost {s : State} (h : s.Inv) (f : Form) : KeepsForm (execSynPost f s) := by
  unfold execSynPost
  split
  · refine keepsForm_next (inv_runC h _ _ ?_)
    dsimp only
    grind [BRes.state, inv_reportDeferred, inv_synPlace, inv_stopStore, inv_noteStore, inv_deferPoison, inv_acquireAt, inv_synWrite, inv_releaseAt]
  · refine keepsForm_next (inv_runG h _ _ fun e => ?_)
    dsimp only
    grind [GRes.state, inv_synPlace, inv_stopG, inv_modInst, inv_acquireAt, inv_synWrite, inv_releaseAt]

theorem inv_synReadBody {s : State} (h : s.Inv) (e : CEnv) : (synReadBody e s).state.Inv := by
  unfold synReadBody
  grind [BRes.state, inv_synPlace, inv_heldOr, inv_stopRes, inv_modThr, inv_retFill, inv_acquireAt]

theorem keeps_execSynRead {s : State} (h : s.Inv) (f : Form) : KeepsForm (execSynRead f s) := by
  unfold execSynRead
  split
  · refine keepsForm_next (inv_runC h _ _ ?_)
    grind [BRes.state, inv_synReadBody]
  · refine keepsForm_next (inv_runG h _ _ fun e => ?_)
    dsimp only
    grind [GRes.state, inv_synPlace, inv_stopG, inv_acquireAt]

theorem inv_holdThr {s : State} (h : s.Inv) (k : Nat) (w : Wait) : (holdThr s k w).Inv := h

theorem inv_synTest {s : State} (h : s.Inv) (ag : Agent) (ea : Word) (gen : BitVec 24) : (synTest s ag ea gen).1.Inv := by
  unfold synTest
  split <;> grind [inv_synPlace]

theorem keeps_execSynWait {s : State} (h : s.Inv) (f : CForm) : KeepsForm (execSynWait f s) := by
  unfold execSynWait
  refine keepsForm_next (inv_runC h _ _ ?_)
  dsimp only
  split
  · grind [BRes.state, inv_stopRes, inv_synTest]
  · grind [BRes.state, inv_acquireDevice, inv_synTest]
  · grind [BRes.state, inv_holdThr, inv_synTest]

theorem inv_ctrApply {s : State} (h : s.Inv) (tile k : Nat) (v : Word) (arr : Bool) (ord scope : Nat) :
    (ctrApply s tile k v arr ord scope).Inv := by
  unfold ctrApply
  split
  · grind [inv_releaseAt, inv_synWrite, inv_acquireAt]
  · grind [inv_rmw]

theorem inv_ctrPlace {s : State} (h : s.Inv) (ag : Agent) (ea : Word) (arr : Bool) (scope : Nat) : (ctrPlace s ag ea arr scope).1.Inv := by
  unfold ctrPlace
  split
  · grind [inv_synPlace]
  · grind [inv_resolveAt]

theorem inv_ctrAddBody {s : State} (h : s.Inv) (e : CEnv) : (ctrAddBody e s).state.Inv := by
  unfold ctrAddBody
  grind [BRes.state, inv_ctrPlace, inv_heldOr, inv_stopStore, inv_noteStore, inv_peerAtomic, inv_deferPoison, inv_ctrApply, inv_reportDeferred]

theorem keeps_execCtrAdd {s : State} (h : s.Inv) (f : Form) : KeepsForm (execCtrAdd f s) := by
  unfold execCtrAdd
  split
  · refine keepsForm_next (inv_runC h _ _ ?_)
    grind [BRes.state, inv_ctrAddBody]
  · refine keepsForm_next (inv_runG h _ _ fun e => ?_)
    dsimp only
    grind [GRes.state, inv_ctrPlace, inv_stopG, inv_modInst, inv_peerAtomic, inv_ctrApply]

theorem inv_ctrTest {s : State} (h : s.Inv) (ag : Agent) (ea v : Word) (scope : Nat) : (ctrTest s ag ea v scope).1.Inv := by
  unfold ctrTest
  split
  · grind [inv_resolve]
  · grind [inv_recallHome, inv_resolve]

theorem keeps_execCtrWait {s : State} (h : s.Inv) (f : CForm) : KeepsForm (execCtrWait f s) := by
  unfold execCtrWait
  refine keepsForm_next (inv_runC h _ _ ?_)
  dsimp only
  split
  · grind [BRes.state, inv_stopRes, inv_ctrTest]
  · grind [BRes.state, inv_acquireDevice, inv_ctrTest]
  · grind [BRes.state, inv_holdThr, inv_ctrTest]

theorem inv_setSem {s : State} (h : s.Inv) (tile j c : Nat) : (setSem s tile j c).Inv := h

theorem keeps_execSemSig {s : State} (h : s.Inv) (f : CForm) : KeepsForm (execSemSig f s) := by
  unfold execSemSig
  refine keepsForm_next (inv_runC h _ _ ?_)
  dsimp only
  split <;> exact h

theorem keeps_execSemWait {s : State} (h : s.Inv) (f : CForm) : KeepsForm (execSemWait f s) := by
  unfold execSemWait
  refine keepsForm_next (inv_runC h _ _ ?_)
  dsimp only
  split <;> exact h

theorem inv_setBar {s : State} (h : s.Inv) (tile b : Nat) (x : Bar) : (setBar s tile b x).Inv := h

theorem inv_barArrive {s : State} (h : s.Inv) (k b : Nat) : (barArrive s k b).Inv := h

theorem keeps_execBarArr {s : State} (h : s.Inv) (f : CForm) : KeepsForm (execBarArr f s) := by
  unfold execBarArr
  refine keepsForm_next (inv_runC h _ _ ?_)
  dsimp only
  split
  · exact h
  · grind [BRes.state, inv_holdThr, inv_barArrive]

theorem keeps_execBarWait {s : State} (h : s.Inv) (f : CForm) : KeepsForm (execBarWait f s) := by
  unfold execBarWait
  refine keepsForm_next (inv_runC h _ _ ?_)
  dsimp only
  split <;> exact h

theorem inv_gbarArrive {s : State} (h : s.Inv) (kn rank g : Nat) : (gbarArrive s kn rank g).Inv := by
  unfold gbarArrive
  grind [inv_modKern]

theorem inv_settleGbar {s : State} (h : s.Inv) (kn rank g : Nat) : (settleGbar s kn rank g).Inv := by
  unfold settleGbar
  split
  · exact h
  · grind [inv_gbarArrive, inv_modThr]

theorem keeps_execGbarArr {s : State} (h : s.Inv) (f : CForm) : KeepsForm (execGbarArr f s) := by
  unfold execGbarArr
  refine keepsForm_next (inv_runC h _ _ ?_)
  dsimp only
  split
  · exact h
  · grind [BRes.state, inv_settleGbar, inv_releaseDevice, inv_holdThr, inv_gbarArrive]

theorem keeps_execGbarWait {s : State} (h : s.Inv) (f : CForm) : KeepsForm (execGbarWait f s) := by
  unfold execGbarWait
  refine keepsForm_next (inv_runC h _ _ ?_)
  dsimp only
  split
  · exact h
  · grind [BRes.state, inv_settleGbar, inv_holdThr, inv_acquireDevice]

theorem inv_mergeRegion {s : State} (h : s.Inv) (r : Nat) : (mergeRegion s r).1.Inv := by
  unfold mergeRegion
  grind [inv_sendDirty, inv_foldl]

theorem inv_switchRegion {s : State} (h : s.Inv) (k : Nat) (soft : Bool) (p : Nat) : (switchRegion s k soft p).Inv := by
  unfold switchRegion
  split
  · grind [State.Inv, inv_mergeRegion, inv_dropIf, inv_setRegion, inv_modThr, inv_foldl]
  · grind [State.Inv, inv_setRegion, inv_recallExcls, inv_recallToken]

theorem inv_cmodeCheck {s : State} (h : s.Inv) (ag : Agent) (ea : Word) (l : List Nat) : (cmodeCheck s ag ea l).1.Inv := by
  induction l generalizing s ag ea with
  | nil => exact h
  | cons x l ih =>
    unfold cmodeCheck
    grind [inv_findLeaf]

theorem keeps_cmode {s : State} (h : s.Inv) (opc : Nat) (soft : Bool) (f : CForm) : KeepsForm (cmode opc soft f s) := by
  unfold cmode
  refine keepsForm_next (inv_runC h _ _ ?_)
  dsimp only
  split
  · exact h
  · grind [BRes.state, inv_cmodeCheck, inv_stopRes, inv_acquireAt, inv_releaseAt, inv_switchRegion, inv_foldl]

theorem keeps_execTfence {s : State} (h : s.Inv) (f : CForm) : KeepsForm (execTfence f s) := by
  unfold execTfence
  refine keepsForm_next (inv_runC h _ _ ?_)
  dsimp only
  exact h

theorem inv_testAll {s : State} (h : s.Inv) : (testAll s).Inv := h

theorem inv_lookAgain {s : State} (h : s.Inv) (k : Nat) (w : Wait) : (lookAgain s k w).1.Inv := by
  unfold lookAgain
  split
  · grind [inv_synTest]
  · grind [inv_ctrTest]
  · exact h

theorem inv_trapWait {s : State} (h : s.Inv) (k : Nat) (c : BitVec 6) (sub : Nat) (ea : Word) : (trapWait s k c sub ea).Inv := by
  unfold trapWait
  grind [inv_takeTrap, inv_modThr]

theorem inv_leaveSem {s : State} (h : s.Inv) (k j : Nat) (sig : Bool) : (leaveSem s k j sig).Inv := h

theorem inv_waitEnds {s : State} (h : s.Inv) (k : Nat) (w : Wait) : (waitEnds s k w).1.Inv := by
  unfold waitEnds
  grind [inv_leaveSem, inv_setSem, inv_barArrive, inv_settleGbar, inv_acquireDevice, inv_modThr]

end Sys2Proof.Proofs
end

section
/-!
PROOFS. The canonical form of memory through frames, scalar, float, vector, control and graph instructions.
-/
namespace Sys2Proof.Proofs
open Sys2Proof Sys2Proof.Machine Sys2Proof.Machine.State Sys2Proof.Claims
open Host (Outcome)

/-! ### Frames and code -/

theorem inv_codeLeaf {s : State} (h : s.Inv) (tile ctx : Nat) (a : Word) (need : Need) : (codeLeaf s tile ctx a need).1.Inv := by
  unfold codeLeaf
  split
  · exact h
  · grind [inv_findLeaf]
  · exact h

theorem inv_checkPtr {s : State} (h : s.Inv) (tile ctx : Nat) (p : Word) : (checkPtr s tile ctx p).1.Inv := by
  unfold checkPtr
  split
  · exact h
  · grind [inv_codeLeaf]

theorem inv_frameReach {s : State} (h : s.Inv) (ag : Agent) (a : Word) (n : Nat) (need : Need) : (frameReach s ag a n need).1.Inv := by
  unfold frameReach
  grind [inv_resolve]

theorem inv_writeFrame {s : State} (h : s.Inv) (ag : Agent) (fa : Word) (bs : List Byte) : (writeFrame s ag fa bs).Inv := by
  unfold writeFrame
  grind [inv_writeRange, inv_releaseDevice]

theorem inv_readFrame {s : State} (h : s.Inv) (ag : Agent) (a : Word) : (readFrame s ag a).1.Inv := by
  unfold readFrame
  split
  · grind [inv_resolve]
  · grind [inv_loadPlace, inv_resolve]

theorem inv_returnReach {s : State} (h : s.Inv) (ag : Agent) (fa : Word) : (returnReach s ag fa).1.Inv := by
  unfold returnReach
  split
  · grind [inv_frameReach]
  · grind [inv_frameReach, inv_readFrame]

theorem inv_finishFrame {s : State} (h : s.Inv) (ag : Agent) (fa v : Word) : (finishFrame s ag fa v).Inv := by
  unfold finishFrame
  grind [inv_writeRange, inv_releaseDevice, inv_readFrame]

theorem inv_frameDone {s : State} (h : s.Inv) (ag : Agent) (fa : Word) : (frameDone s ag fa).1.Inv := by
  unfold frameDone
  split
  · grind [inv_readFrame, inv_acquireDevice]
  · grind [inv_readFrame]

theorem inv_fetchG {s : State} (h : s.Inv) (tile ctx : Nat) (a : Word) : (fetchG s tile ctx a).1.Inv := by
  unfold fetchG
  split
  · grind [inv_codeLeaf]
  · grind [inv_codeBytes, inv_codeLeaf]

theorem inv_fetchWords {s : State} (h : s.Inv) (tile ctx : Nat) (a : Word) (n : Nat) : (fetchWords s tile ctx a n).1.Inv := by
  induction n generalizing s tile ctx a with
  | zero => exact h
  | succ n ih =>
    unfold fetchWords
    split <;> grind [inv_fetchG]

theorem inv_loadBlock {s : State} (h : s.Inv) (tile ctx : Nat) (entry : Word) : (loadBlock s tile ctx entry).1.Inv := by
  unfold loadBlock
  split
  · exact h
  · grind [inv_fetchG, inv_fetchWords]

theorem inv_newAct {s : State} (h : s.Inv) (ctx kn allot tile plane tag : Nat) (mask : BitVec 4) (frame entry base : Word) (args : List Word) (root : Bool) :
    (newAct s ctx kn allot tile plane tag mask frame entry base args root).2.Inv := h

theorem inv_wakeCheck {s : State} (h : s.Inv) (tile ctx : Nat) (entry : Word) : (wakeCheck s tile ctx entry).1.Inv := by
  unfold wakeCheck
  split
  · exact h
  · grind [inv_loadBlock]

theorem inv_wakeCallee {s : State} (h : s.Inv) (ag : Agent) (kn allot : Nat) (p fa base retptr caller : Word) (ckind : Bool) (args : List Word) :
    (wakeCallee s ag kn allot p fa base retptr caller ckind args).state.Inv := by
  unfold wakeCallee
  split
  · grind [Woken.state, inv_frameReach]
  · grind [Woken.state, inv_frameReach]
  · grind [State.Inv, Woken.state, inv_wakeCheck, inv_writeFrame, inv_newAct, inv_frameReach]

/-! ### Scalar instructions -/

theorem inv_intC {s : State} (h : s.Inv) (opc : Nat) (op : IArgs → Res) (f : CForm) : (intC opc op f s).Inv := by
  unfold intC
  split
  · grind [inv_runC, inv_lanewise]
  · grind [inv_runC, inv_raiseC, inv_addWarn, inv_retX]

theorem inv_intG {s : State} (h : s.Inv) (opc : Nat) (op : IArgs → Res) (f : GForm) : (intG opc op f s).Inv :=
  inv_runG h _ _ fun _ => inv_raiseG h _ _ _ fun _ h => h

theorem keeps_intForm {s : State} (h : s.Inv) (opc : Nat) (op : IArgs → Res) (f : Form) : KeepsForm (intForm opc op f s) := by
  unfold intForm
  split
  · refine keepsForm_next ?_
    grind [inv_intC]
  · refine keepsForm_next ?_
    grind [inv_intG]

theorem keeps_execNop {s : State} (h : s.Inv) (f : Form) : KeepsForm (execNop f s) := by
  unfold execNop
  split
  · refine keepsForm_next (inv_runC h _ _ ?_)
    exact h
  · refine keepsForm_next (inv_runG h _ _ fun e => ?_)
    exact h

theorem keeps_execCmp {s : State} (h : s.Inv) (f : Form) : KeepsForm (execCmp f s) := by
  unfold execCmp
  split
  · refine keepsForm_next (inv_runC h _ _ ?_)
    dsimp only
    grind [BRes.state, inv_laneMaskRes, inv_modThr, inv_addWarn]
  · refine keepsForm_next (inv_runG h _ _ fun e => ?_)
    dsimp only
    grind [GRes.state, inv_raiseG]

theorem keeps_execSel {s : State} (h : s.Inv) (f : Form) : KeepsForm (execSel f s) := by
  unfold execSel
  split
  · refine keepsForm_next (inv_runC h _ _ ?_)
    dsimp only
    grind [BRes.state, inv_lanewise, inv_retX]
  · refine keepsForm_next (inv_runG h _ _ fun e => ?_)
    dsimp only
    grind [GRes.state, inv_raiseG]

theorem keeps_execLi {s : State} (h : s.Inv) (f : Form) : KeepsForm (execLi f s) := by
  unfold execLi
  split
  · refine keepsForm_next (inv_runC h _ _ ?_)
    dsimp only
    grind [BRes.state, inv_raiseC, inv_retX]
  · refine keepsForm_next (inv_runG h _ _ fun e => ?_)
    dsimp only
    grind [GRes.state, inv_raiseG]

theorem keeps_execLih {s : State} (h : s.Inv) (f : Form) : KeepsForm (execLih f s) := by
  unfold execLih
  split
  · refine keepsForm_next (inv_runC h _ _ ?_)
    exact h
  · refine keepsForm_next (inv_runG h _ _ fun e => ?_)
    grind [GRes.state, inv_raiseG]

theorem keeps_execAdr {s : State} (h : s.Inv) (f : Form) : KeepsForm (execAdr f s) := by
  unfold execAdr
  split
  · refine keepsForm_next (inv_runC h _ _ ?_)
    exact h
  · refine keepsForm_next (inv_runG h _ _ fun e => ?_)
    grind [GRes.state, inv_raiseG]

/-! ### Float instructions -/

theorem keeps_fltForm {s : State} (h : s.Inv) (opc : Nat) (long : Bool) (op : FArgs → Res) (f : Form) : KeepsForm (fltForm opc long op f s) := by
  unfold fltForm
  split
  · refine keepsForm_next (inv_runC h _ _ ?_)
    dsimp only
    grind [BRes.state, inv_lanewise, inv_raiseC, inv_addWarn, inv_retFill, inv_retX]
  · refine keepsForm_next (inv_runG h _ _ fun e => ?_)
    dsimp only
    grind [GRes.state, inv_raiseG]

theorem keeps_execFcmp {s : State} (h : s.Inv) (f : Form) : KeepsForm (execFcmp f s) := by
  unfold execFcmp
  split
  · refine keepsForm_next (inv_runC h _ _ ?_)
    dsimp only
    grind [BRes.state, inv_laneMaskRes, inv_raiseC, inv_modThr]
  · refine keepsForm_next (inv_runG h _ _ fun e => ?_)
    dsimp only
    grind [GRes.state, inv_raiseG]

theorem keeps_execFcvt {s : State} (h : s.Inv) (f : Form) : KeepsForm (execFcvt f s) := by
  unfold execFcvt
  split
  · refine keepsForm_next (inv_runC h _ _ ?_)
    dsimp only
    grind [BRes.state, inv_readOld, inv_raiseC, inv_addWarn, inv_retV, inv_lanewise, inv_retX]
  · refine keepsForm_next (inv_runG h _ _ fun e => ?_)
    dsimp only
    grind [GRes.state, inv_raiseG]

/-! ### Vector instructions -/

theorem keeps_moveLanes {s : State} (h : s.Inv) (opc : Nat) (long : Bool) (f : CForm) (op : CEnv → State → Nat → Nat) : KeepsForm (moveLanes opc long f s op) :=
  keepsForm_next (inv_runC h _ _ (inv_readOld h _ _ (inv_retV h _ _ _)))

theorem keeps_execVmerge {s : State} (h : s.Inv) (f : CForm) : KeepsForm (execVmerge f s) := keepsForm_next (inv_runC h _ _ (inv_retV h _ _ _))

theorem keeps_execVcomp {s : State} (h : s.Inv) (f : CForm) : KeepsForm (execVcomp f s) := by
  unfold execVcomp
  refine keepsForm_next (inv_runC h _ _ ?_)
  dsimp only
  split <;> grind [BRes.state, inv_readOld, inv_retV]

theorem keeps_execVcmp {s : State} (h : s.Inv) (f : CForm) : KeepsForm (execVcmp f s) := by
  unfold execVcmp
  refine keepsForm_next (inv_runC h _ _ ?_)
  dsimp only
  split <;> grind [BRes.state, inv_laneMaskRes]

theorem keeps_execVins {s : State} (h : s.Inv) (f : CForm) : KeepsForm (execVins f s) := by
  unfold execVins
  refine keepsForm_next (inv_runC h _ _ ?_)
  dsimp only
  exact h

theorem keeps_execVext {s : State} (h : s.Inv) (f : CForm) : KeepsForm (execVext f s) := by
  unfold execVext
  refine keepsForm_next (inv_runC h _ _ ?_)
  split <;> exact h

theorem keeps_execMlog {s : State} (h : s.Inv) (f : CForm) : KeepsForm (execMlog f s) := by
  unfold execMlog
  refine keepsForm_next (inv_runC h _ _ ?_)
  dsimp only
  split <;> exact h

theorem keeps_execMpop {s : State} (h : s.Inv) (f : CForm) : KeepsForm (execMpop f s) := by
  unfold execMpop
  refine keepsForm_next (inv_runC h _ _ ?_)
  exact h

theorem keeps_execMfirst {s : State} (h : s.Inv) (f : CForm) : KeepsForm (execMfirst f s) := by
  unfold execMfirst
  refine keepsForm_next (inv_runC h _ _ ?_)
  exact h

theorem keeps_execVred {s : State} (h : s.Inv) (f : CForm) : KeepsForm (execVred f s) := by
  unfold execVred
  refine keepsForm_next (inv_runC h _ _ ?_)
  dsimp only
  split <;> grind [BRes.state, inv_raiseC, inv_addWarn, inv_retFill]

theorem keeps_execVscan {s : State} (h : s.Inv) (f : CForm) : KeepsForm (execVscan f s) := by
  unfold execVscan
  refine keepsForm_next (inv_runC h _ _ ?_)
  dsimp only
  grind [BRes.state, inv_readOld, inv_raiseC, inv_addWarn, inv_retV]

theorem keeps_crossWidth {s : State} (h : s.Inv) (opc : Nat) (f : CForm) (src : CEnv → Nat → Nat) : KeepsForm (crossWidth opc f s src) := by
  unfold crossWidth
  refine keepsForm_next (inv_runC h _ _ ?_)
  grind [BRes.state, inv_lanewise]

theorem keeps_execVdot {s : State} (h : s.Inv) (f : CForm) : KeepsForm (execVdot f s) := by
  unfold execVdot
  refine keepsForm_next (inv_runC h _ _ ?_)
  dsimp only
  split <;> grind [BRes.state, inv_lanewise]

/-! ### Transfers of control -/

theorem inv_whyC {s : State} (h : s.Inv) (w : Why) : (whyC s w).state.Inv := by
  unfold whyC
  split <;> exact h

theorem inv_whyG {s : State} (h : s.Inv) (w : Why) : (whyG s w).state.Inv := by
  unfold whyG
  split <;> exact h

theorem keeps_execBr {s : State} (h : s.Inv) (f : Form) : KeepsForm (execBr f s) := by
  unfold execBr
  split
  · refine keepsForm_next (inv_runC h _ _ ?_)
    exact h
  · refine keepsForm_next (inv_runG h _ _ fun e => ?_)
    exact h

theorem keeps_execJmp {s : State} (h : s.Inv) (f : Form) : KeepsForm (execJmp f s) := by
  unfold execJmp
  split
  · refine keepsForm_next (inv_runC h _ _ ?_)
    dsimp only
    grind [BRes.state]
  · refine keepsForm_next (inv_runG h _ _ fun e => ?_)
    exact h

theorem keeps_execJmpr {s : State} (h : s.Inv) (f : Form) : KeepsForm (execJmpr f s) := by
  unfold execJmpr
  split
  · refine keepsForm_next (inv_runC h _ _ ?_)
    grind [BRes.state, inv_checkPtr, inv_whyC]
  · refine keepsForm_next (inv_runG h _ _ fun e => ?_)
    grind [GRes.state, inv_checkPtr, inv_whyG]

theorem inv_crossCall {s : State} (h : s.Inv) (e : CEnv) (p : Word) : (crossCall e s p).state.Inv := by
  unfold crossCall
  refine inv_needX h _ _ ?_
  split
  · exact h
  · refine inv_needX h _ _ ?_
    grind [Woken.state, BRes.state, inv_wakeCallee, inv_whyC, inv_stopRes, inv_modThr]

theorem inv_callC {s : State} (h : s.Inv) (e : CEnv) (p : Word) : (callC e s p).state.Inv := by
  unfold callC
  split
  · grind [BRes.state, inv_whyC, inv_checkPtr]
  · grind [BRes.state, inv_modThr, inv_checkPtr]
  · grind [BRes.state, inv_crossCall, inv_checkPtr]

theorem inv_calleeDone {s : State} (h : s.Inv) (ag : Agent) (a : Act) : (calleeDone s ag a).1.Inv := by
  unfold calleeDone
  split
  · exact h
  · grind [inv_frameDone]

theorem inv_callG {s : State} (h : s.Inv) (e : GEnv) (p : Word) : (callG e s p).state.Inv := by
  unfold callG
  split
  · exact h
  split
  · exact h
  · grind [GRes.state, Woken.state, inv_calleeDone, inv_modAct, inv_checkPtr, inv_whyG, inv_stopG, inv_wakeCallee, inv_modInst]

theorem keeps_execCall {s : State} (h : s.Inv) (f : Form) : KeepsForm (execCall f s) := by
  unfold execCall
  split
  · refine keepsForm_next (inv_runC h _ _ ?_)
    grind [BRes.state, inv_callC]
  · refine keepsForm_next (inv_runG h _ _ fun e => ?_)
    grind [GRes.state, inv_callG]

theorem keeps_execCallr {s : State} (h : s.Inv) (f : Form) : KeepsForm (execCallr f s) := by
  unfold execCallr
  split
  · refine keepsForm_next (inv_runC h _ _ ?_)
    grind [BRes.state, inv_callC]
  · refine keepsForm_next (inv_runG h _ _ fun e => ?_)
    grind [GRes.state, inv_callG]

theorem inv_haltThread {s : State} (h : s.Inv) (e : CEnv) : (haltThread e s).state.Inv := by
  unfold haltThread
  grind [BRes.state, inv_reportDeferred, inv_needX, inv_endThread, inv_allotStop, inv_modAct]

theorem keeps_execRet {s : State} (h : s.Inv) (f : Form) : KeepsForm (execRet f s) := by
  unfold execRet
  split
  · refine keepsForm_next (inv_runC h _ _ ?_)
    dsimp only
    grind [BRes.state, inv_needX, inv_checkPtr, inv_whyC, inv_haltThread, inv_reportDeferred, inv_returnReach, inv_stopRes, inv_finishFrame]
  · refine keepsForm_next (inv_runG h _ _ fun e => ?_)
    grind [GRes.state, inv_setInst, inv_faultInst]

theorem keeps_execHalt {s : State} (h : s.Inv) (f : CForm) : KeepsForm (execHalt f s) := by
  unfold execHalt
  refine keepsForm_next (inv_runC h _ _ ?_)
  grind [BRes.state, inv_haltThread]

/-! ### Graph-only instructions -/

theorem inv_secondExit {s : State} (h : s.Inv) (e : GEnv) : (secondExit e s).state.Inv := by
  unfold secondExit
  grind [GRes.state, inv_faultInst]

theorem keeps_execExit {s : State} (h : s.Inv) (f : GForm) : KeepsForm (execExit f s) := by
  unfold execExit
  refine keepsForm_next (inv_runG h _ _ fun e => ?_)
  split
  · exact h
  · grind [GRes.state, inv_setInst, inv_secondExit]

theorem keeps_execSteer {s : State} (h : s.Inv) (f : GForm) : KeepsForm (execSteer f s) := by
  unfold execSteer
  refine keepsForm_next (inv_runG h _ _ fun e => ?_)
  dsimp only
  split <;> exact h

theorem keeps_execFan {s : State} (h : s.Inv) (f : GForm) : KeepsForm (execFan f s) := by
  unfold execFan
  refine keepsForm_next (inv_runG h _ _ fun e => ?_)
  exact h

theorem keeps_execNull {s : State} (h : s.Inv) (f : GForm) : KeepsForm (execNull f s) := by
  unfold execNull
  refine keepsForm_next (inv_runG h _ _ fun e => ?_)
  exact h

theorem keeps_execFwr {s : State} (h : s.Inv) (f : GForm) : KeepsForm (execFwr f s) := by
  unfold execFwr
  refine keepsForm_next (inv_runG h _ _ fun e => ?_)
  split <;> grind [GRes.state, inv_modInst]

theorem keeps_execAcc {s : State} (h : s.Inv) (f : GForm) : KeepsForm (execAcc f s) := by
  unfold execAcc
  split
  · refine keepsForm_next (inv_runG h _ _ fun e => ?_)
    dsimp only
    grind [GRes.state, inv_raiseG, inv_modInst]
  · refine keepsForm_next (inv_runG h _ _ fun e => ?_)
    dsimp only
    grind [GRes.state, inv_raiseG, inv_modInst]

theorem inv_selfSend {s : State} (h : s.Inv) (g : GSelf) (f : GForm) (sl : Nat) (k out : Token) (upd : Inst → Inst) :
    (selfSend g f s sl k out upd).Inv := by
  unfold selfSend
  split
  · exact h
  · grind [inv_modInst, inv_sendFit, inv_sendTo]

theorem keeps_execGate {s : State} (h : s.Inv) (f : GForm) : KeepsForm (execGate f s) := by
  unfold execGate
  refine keepsForm_next ?_
  dsimp only
  split
  · exact h
  · grind [inv_modInst, inv_selfSend]

theorem keeps_execMerge {s : State} (h : s.Inv) (f : GForm) : KeepsForm (execMerge f s) := by
  unfold execMerge
  refine keepsForm_next ?_
  dsimp only
  split
  · exact h
  · grind [inv_selfSend]

end Sys2Proof.Proofs
end

section
/-!
PROOFS. The canonical form of memory through the engines: issue, units of work and the events of an errand.
-/
namespace Sys2Proof.Proofs
open Sys2Proof Sys2Proof.Machine Sys2Proof.Machine.State Sys2Proof.Claims
open Host (Outcome)

/-! ### Elements that an engine reads and writes -/

theorem inv_warnFmt {s : State} (h : s.Inv) (ag : Agent) : (warnFmt s ag).Inv := by
  unfold warnFmt
  split <;> exact h

theorem inv_readCode {s : State} (h : s.Inv) (ag : Agent) (d : Side) (i : Nat) : (readCode s ag d i).1.Inv := by
  unfold readCode
  split <;> grind [inv_readRange, inv_warnFmt]

theorem inv_readVals {s : State} (h : s.Inv) (ag : Agent) (d : Side) (l : List Nat) : (readVals s ag d l).1.Inv := by
  induction l generalizing s ag d with
  | nil => exact h
  | cons x l ih =>
    unfold readVals
    split <;> grind [inv_readCode]

theorem inv_readElems {s : State} (h : s.Inv) (ag : Agent) (d : Side) (l : List Nat) : (readElems s ag d l).1.Inv := by
  unfold readElems
  split <;> grind [inv_readVals]

theorem inv_getByte {s : State} (h : s.Inv) (ag : Agent) (e : Errand) (pend : List (Nat × Byte)) (va : Word) :
    (getByte s ag e pend va).1.Inv := by
  unfold getByte
  split
  · exact h
  · grind [inv_readRange]

theorem inv_putBits {s : State} (h : s.Inv) (ag : Agent) (e : Errand) (pend : List (Nat × Byte)) (va : Word) (off bits val n : Nat) :
    (putBits s ag e pend va off bits val n).1.Inv := by
  induction n generalizing s ag e pend va off bits val with
  | zero => exact h
  | succ n ih =>
    unfold putBits
    split
    · exact h
    · grind [inv_getByte]

theorem inv_putCode {s : State} (h : s.Inv) (ag : Agent) (e : Errand) (pend : List (Nat × Byte)) (d : Side) (i code : Nat) :
    (putCode s ag e pend d i code).1.Inv := by
  unfold putCode
  grind [inv_putBits]

theorem inv_putPlain {s : State} (h : s.Inv) (ag : Agent) (e : Errand) (pend : List (Nat × Byte)) (d : Side) (l : List (Nat × Machine.Num)) :
    (putPlain s ag e pend d l).1.Inv := by
  induction l generalizing s pend with
  | nil => exact h
  | cons x l ih =>
    unfold putPlain
    grind [inv_putCode]

theorem inv_gatherBlock {s : State} (h : s.Inv) (ag : Agent) (d : Side) (items : List (Nat × Machine.Num)) (l : List Nat) :
    (gatherBlock s ag d items l).1.Inv := by
  induction l generalizing s with
  | nil => exact h
  | cons i l ih =>
    unfold gatherBlock
    grind [inv_readCode]

theorem inv_putBlock {s : State} (h : s.Inv) (ag : Agent) (e : Errand) (pend : List (Nat × Byte)) (d : Side) (items : List (Nat × Machine.Num)) (b : Nat) :
    (putBlock s ag e pend d items b).1.Inv := by
  unfold putBlock
  dsimp only
  split
  · next hx => exact inv_of_eq (inv_gatherBlock h _ _ _ _) hx
  next hx =>
    have h1 := inv_of_eq (inv_gatherBlock h _ _ _ _) hx
    refine inv_foldlFst ?_ _ ?_
    · grind [inv_putCode]
    · split
      · exact h1
      · exact inv_putBits h1 _ _ _ _ _ _ _ _

theorem inv_putElems {s : State} (h : s.Inv) (ag : Agent) (e : Errand) (pend : List (Nat × Byte)) (d : Side) (items : List (Nat × Machine.Num)) :
    (putElems s ag e pend d items).1.Inv := by
  unfold putElems
  split
  · exact inv_putPlain h _ _ _ _ _
  · refine inv_foldlFst ?_ _ h
    grind [inv_putBlock]

theorem inv_putPad {s : State} (h : s.Inv) (ag : Agent) (e : Errand) (pend : List (Nat × Byte)) (d : Side) (last : Nat) :
    (putPad s ag e pend d last).1.Inv := by
  unfold putPad
  grind [inv_putBits]

theorem inv_flush {s : State} (h : s.Inv) (ag : Agent) (e : Errand) (pend : List (Nat × Byte)) : (flush s ag e pend).1.Inv := by
  unfold flush
  split
  · exact h
  · refine inv_foldlFst ?_ pend h
    grind [inv_writeRange]

theorem inv_mayFlush {s : State} (h : s.Inv) (ag : Agent) (e : Errand) (pend : List (Nat × Byte)) : (mayFlush s ag e pend).1.Inv := by
  unfold mayFlush
  split
  · exact h
  · refine inv_foldlFst ?_ pend h
    grind [inv_resolve]

theorem inv_twinOf {s : State} (h : s.Inv) (tile ctx : Nat) (a : Word) : (twinOf s tile ctx a).1.Inv := by
  unfold twinOf
  split
  · grind [inv_findLeaf]
  · grind [inv_ensureFace, inv_findLeaf]

theorem inv_oneTwin {s : State} (h : s.Inv) (tile ctx : Nat) (a : Word) (n : Nat) : (oneTwin s tile ctx a n).1.Inv := by
  unfold oneTwin
  split <;> grind [inv_twinOf]

theorem inv_twinReach {s : State} (h : s.Inv) (ag : Agent) (e : Errand) : (twinReach s ag e).1.Inv := by
  unfold twinReach
  split
  · exact h
  · refine inv_foldlFst ?_ _ h
    grind [inv_askPage]

theorem inv_publishTwin {s : State} (h : s.Inv) (e : Errand) : (publishTwin s e).Inv := by
  unfold publishTwin
  split
  · exact h
  split
  next vis hid _ =>
    lift_lets
    intro inVis inHid s1 s2 s3 s4 s5 s6 s7 s8 s9
    have h1 : s1.Inv := inv_foldl (fun _ _ h => inv_recallToken h _) _ s h
    have h2 : s2.Inv := inv_drainAll (inv_drainAll h1 vis e.tsize) hid e.tsize
    have h3 : s3.Inv := inv_spReleaseIf (s := s2) h2 fun k => inVis k || inHid k
    have h4 : s4.Inv := Memory.wf_copy s3.mem vis hid e.tsize h3
    have h5 : s5.Inv := by
      refine inv_foldl ?_ _ s4 h4
      exact fun _ _ h => h
    have h6 : s6.Inv := inv_foldl (fun _ _ h => inv_hbmMoved h _) _ s5 h5
    have h7 : s7.Inv := inv_foldl (fun _ _ h => inv_pokeByte h _ _) _ s6 h6
    have h8 : s8.Inv := inv_dropCopies h7 _ _
    split
    · exact h8
    · exact h8

theorem inv_arrivalAt {s : State} (h : s.Inv) (ag : Agent) (syn : Word) : (arrivalAt s ag syn).1.Inv := by
  unfold arrivalAt
  split <;> grind [inv_synPlace]

theorem inv_engArrive {s : State} (h : s.Inv) (ag : Agent) (syn : Word) (n : Nat) : (engArrive s ag syn n).1.Inv := by
  unfold engArrive
  grind [inv_arrivalAt, inv_synWrite]

theorem inv_engArrives {s : State} (h : s.Inv) (ag : Agent) (syn : Word) (n fuel : Nat) : (engArrives s ag syn n fuel).1.Inv := by
  induction fuel generalizing s ag syn n with
  | zero => exact h
  | succ fuel ih =>
    unfold engArrives
    split
    · exact h
    · grind [inv_engArrive]

/-! ### Issue of an errand -/

theorem inv_padFill {s : State} (h : s.Inv) (ag : Agent) (a : Word) (n : Nat) : (padFill s ag a n).1.Inv := by
  refine inv_foldlFst ?_ _ h
  grind [inv_spFill]

theorem inv_issueFill {s : State} (h : s.Inv) (ag : Agent) (q : Ask) : (issueFill s ag q).1.Inv := by
  unfold issueFill
  split <;> grind [inv_padFill]

theorem inv_joinColl {s : State} (h : s.Inv) (ctx tile slot : Nat) (d : List Byte) : (joinColl s ctx tile slot d).Inv := by
  unfold joinColl
  split
  · grind [State.Inv, inv_fresh]

theorem inv_ownRecord {s : State} (h : s.Inv) (tile slot ctx : Nat) : (ownRecord s tile slot ctx).Inv := by
  unfold ownRecord
  split
  · exact h
  · grind [inv_zeroRange, inv_modTile]

theorem inv_issueErrand {s : State} (h : s.Inv) (i : Issuer) (q : Ask) : (issueErrand s i q).state.Inv := by
  unfold issueErrand
  lift_lets
  intro ag rank direct ctrs syns k
  split
  · next hx => exact inv_of_eq (inv_issueFill h ag q) hx
  · next hx => exact inv_of_eq (inv_issueFill h ag q) hx
  next s1 hx =>
    have h1 : s1.Inv := inv_of_eq (inv_issueFill h ag q) hx
    lift_lets
    intro rs all tw
    have htw : tw.1.Inv := by
      dsimp only [tw]
      split
      · exact h1
      next d n _ =>
        have ho := inv_oneTwin h1 i.tile i.ctx d (max n 1)
        split
        · exact h1
        split
        · exact h1
        split
        · next hx => exact inv_of_eq ho hx
        · next hx => exact inv_of_eq ho hx
        · next hx => exact inv_of_eq ho hx
    clear_value tw syns all
    split
    · exact h1
    split
    · exact h1
    split
    · exact h1
    split
    · exact htw
    next s2 fail =>
      have h2 : s2.Inv := htw
      dsimp only
      split
      · exact h2
      split
      · exact h2
      split
      · exact h2
      split
      · exact h2
      split
      · exact h2
      next slot _ _ _ =>
        have hj : ∀ {t : State}, t.Inv → ∀ d, (if q.op = 0x96 then joinColl t i.ctx i.tile slot d else t).Inv := fun ht d => by
          split
          · exact inv_joinColl ht _ _ _ _
          · exact ht
        refine hj ?_ _
        refine inv_ownRecord (inv_setErrand ?_ _ _ _) _ _ _
        exact inv_fresh (inv_releaseDevice (inv_modCtx (inv_charge h2 _ _ _) _ _) _)

theorem keeps_engineC {s : State} (h : s.Inv) (opc : Nat) (f : CForm) : KeepsForm (engineC opc f s) := by
  refine keepsForm_next (inv_runC h _ _ (inv_needX h _ _ ?_))
  grind [Issued.state, BRes.state, inv_issueErrand, inv_retX]

theorem keeps_engineG {s : State} (h : s.Inv) (opc : Nat) (f : GForm) (imm : BitVec 44) : KeepsForm (engineG opc f s imm) := by
  refine keepsForm_next (inv_runG h _ _ fun e => ?_)
  grind [Issued.state, GRes.state, inv_issueErrand, inv_noteStatus, inv_modInst]

theorem keeps_execCp {s : State} (h : s.Inv) (f : Form) : KeepsForm (execCp f s) := by
  unfold execCp
  split
  · exact keeps_engineC h _ _
  · exact keeps_engineG h _ _ _

theorem keeps_execGath {s : State} (h : s.Inv) (f : Form) : KeepsForm (execGath f s) := by
  unfold execGath
  split
  · exact keeps_engineC h _ _
  · exact keeps_engineG h _ _ _

theorem inv_freeNotice {s : State} (h : s.Inv) (tile : Nat) (a b : Word) (ring : Nat) : (freeNotice s tile a b ring).Inv := by
  unfold freeNotice
  split
  · exact h
  · grind [inv_modErrand]

theorem keeps_execSlotFree {s : State} (h : s.Inv) (f : Form) : KeepsForm (execSlotFree f s) := by
  unfold execSlotFree
  split
  · refine keepsForm_next (inv_runC h _ _ ?_)
    grind [BRes.state, inv_freeNotice, inv_releaseDevice]
  · refine keepsForm_next (inv_runG h _ _ fun e => ?_)
    dsimp only
    grind [GRes.state, inv_modInst, inv_freeNotice, inv_releaseDevice]

/-! ### Units of an errand's work -/

theorem inv_ofBad {s : State} (h : s.Inv) (e : Errand) (b : Bad) : (ofBad s e b).state.Inv := by
  unfold ofBad
  split
  · grind [Did.state]
  · exact h

theorem inv_dropGot {s : State} (h : s.Inv) (ag : Agent) : (dropGot s ag).Inv := by
  unfold dropGot
  split
  · grind [inv_modErrand]
  · exact h

theorem inv_deliver {s : State} (h : s.Inv) (ag : Agent) (e : Errand) (pend : List (Nat × Byte))
    {go : State → Errand → Did} (hg : ∀ s e, s.Inv → (go s e).state.Inv) :
    (deliver s ag e pend go).state.Inv := by
  unfold deliver
  grind [inv_mayFlush, inv_ofBad, inv_arrivalAt, inv_flush, inv_dropGot]

theorem inv_matGroup {s : State} (h : s.Inv) (ag : Agent) (ra : Side) (set : ResSet) (wa m g : Nat) (accs : List (BitVec 42)) :
    (matGroup s ag ra set wa m g accs).1.Inv := by
  unfold matGroup
  grind [inv_readElems]

theorem inv_putResult {s : State} (h : s.Inv) (ag : Agent) (e : Errand) (dst : Word) (rows cols : Nat) (vals : List (Nat × Nat × Machine.Num)) :
    (putResult s ag e dst rows cols vals).1.Inv := by
  unfold putResult
  grind [inv_putElems, inv_putPad]

theorem inv_unitMm {s : State} (h : s.Inv) (ag : Agent) (e : Errand) : (unitMm s ag e).state.Inv := by
  unfold unitMm
  split
  · exact h
  dsimp only
  split
  · next hx => exact inv_ofBad (inv_of_eq (inv_matGroup h _ _ _ _ _ _ _) hx) _ _
  next s1 accs hx =>
    have h1 : s1.Inv := inv_of_eq (inv_matGroup h _ _ _ _ _ _ _) hx
    have hc : ∀ (old : Bool) d l, (if old then readElems s1 ag d l else (s1, .ok [])).1.Inv := fun old d l => by
      cases old
      · exact h1
      · exact inv_readElems h1 ag d l
    split
    · exact h1
    split
    · next hx => exact inv_ofBad (inv_of_eq (hc _ _ _) hx) _ _
    next s2 cv hx =>
      have h2 : s2.Inv := inv_of_eq (hc _ _ _) hx
      split
      · next hx => exact inv_ofBad (inv_of_eq (inv_putResult h2 _ _ _ _ _ _) hx) _ _
      · next hx => exact inv_deliver (inv_of_eq (inv_putResult h2 _ _ _ _ _ _) hx) _ _ _ fun _ _ h => h

theorem inv_unitMmb {s : State} (h : s.Inv) (ag : Agent) (e : Errand) : (unitMmb s ag e).state.Inv := by
  unfold unitMmb
  grind [Did.state, inv_ofBad, inv_readElems]

theorem inv_matAll {s : State} (h : s.Inv) (ag : Agent) (ra : Side) (set : ResSet) (wa m g : Nat) (accs : List (BitVec 42)) (n : Nat) :
    (matAll s ag ra set wa m g accs n).1.Inv := by
  induction n generalizing s ag ra set wa m g accs with
  | zero => exact h
  | succ n ih =>
    unfold matAll
    split <;> grind [inv_matGroup]

theorem inv_unitRstep {s : State} (h : s.Inv) (ag : Agent) (e : Errand) : (unitRstep s ag e).state.Inv := by
  unfold unitRstep
  split <;> grind [Did.state, inv_matAll, inv_ofBad, inv_putResult, inv_deliver, inv_foldl]

theorem inv_readLin {s : State} (h : s.Inv) (ag : Agent) (e : Errand) (a : Word) (row t n : Nat) : (readLin s ag e a row t n).1.Inv := by
  induction n generalizing s ag e a row t with
  | zero => exact h
  | succ n ih =>
    unfold readLin
    split <;> grind [inv_readRange]

theorem inv_unitArrive {s : State} (h : s.Inv) (ag : Agent) (e : Errand) (n : Nat) {go : State → Did} (hg : ∀ s, s.Inv → (go s).state.Inv) :
    (unitArrive s ag e n go).state.Inv := by
  unfold unitArrive
  grind [inv_engArrives, inv_ofBad]

theorem inv_putSame {s : State} (h : s.Inv) (ag : Agent) (e : Errand) (src dst : Side) (pend : List (Nat × Byte)) (l : List (Nat × Nat)) :
    (putSame s ag e src dst pend l).1.Inv := by
  induction l generalizing s ag e src dst pend with
  | nil => exact h
  | cons x l ih =>
    unfold putSame
    split
    · grind [inv_readCode]
    · grind [inv_putCode, inv_putBits, inv_readCode]

theorem inv_unitCp {s : State} (h : s.Inv) (ag : Agent) (e : Errand) : (unitCp s ag e).state.Inv := by
  unfold unitCp
  dsimp only
  split
  · exact h
  split
  · split
    · exact h
    split
    · next hx => exact inv_ofBad (inv_of_eq (inv_readLin h _ _ _ _ _ _) hx) _ _
    · next hx => exact inv_deliver (inv_of_eq (inv_readLin h _ _ _ _ _ _) hx) _ _ _ fun _ _ h => inv_unitArrive h _ _ _ fun _ h => h
  · split
    · exact h
    split
    · next hx => exact inv_ofBad (inv_of_eq (inv_readVals h _ _ _) hx) _ _
    next hx =>
      have h1 := inv_of_eq (inv_readVals h _ _ _) hx
      split
      · next hx => exact inv_ofBad (inv_of_eq (inv_putSame h1 _ _ _ _ _ _) hx) _ _
      next hx =>
        have h2 := inv_of_eq (inv_putSame h1 _ _ _ _ _ _) hx
        split
        · next hx => exact inv_ofBad (inv_of_eq (inv_putElems h2 _ _ _ _ _) hx) _ _
        · next hx => exact inv_deliver (inv_of_eq (inv_putElems h2 _ _ _ _ _) hx) _ _ _ fun _ _ h => inv_unitArrive h _ _ _ fun _ h => h

theorem inv_gathElem {s : State} (h : s.Inv) (ag : Agent) (e : Errand) (j : Nat) : (gathElem s ag e j).1.Inv := by
  unfold gathElem
  split <;> grind [inv_readRange, inv_resolve]

theorem inv_gathFrom {s : State} (h : s.Inv) (ag : Agent) (e : Errand) (j n : Nat) : (gathFrom s ag e j n).state.Inv := by
  induction n generalizing s ag e j with
  | zero => exact h
  | succ n ih =>
    unfold gathFrom
    split
    · grind [Did.state, inv_ofBad, inv_gathElem]
    · grind [Did.state, inv_deliver, inv_gathElem, inv_foldl]

theorem inv_unitGath {s : State} (h : s.Inv) (ag : Agent) (e : Errand) : (unitGath s ag e).state.Inv := by
  unfold unitGath
  split <;> grind [Did.state, inv_gathFrom, inv_unitArrive]

theorem inv_patElem {s : State} (h : s.Inv) (ag : Agent) (d : List Byte) (n : Nat) : (patElem s ag d n).1.Inv := by
  unfold patElem
  split
  · exact h
  · grind [inv_resolve, inv_readRange]

theorem inv_patElems {s : State} (h : s.Inv) (ag : Agent) (d : List Byte) (i n : Nat) : (patElems s ag d i n).1.Inv := by
  induction n generalizing s ag d i with
  | zero => exact h
  | succ n ih =>
    unfold patElems
    split <;> grind [inv_patElem]

theorem inv_eachRing {s : State} (h : s.Inv) (rs : List Nat) {f : State → Nat → State × Except Bad Unit} (hf : ∀ s n, s.Inv → (f s n).1.Inv) :
    (eachRing rs s f).1.Inv := by
  refine inv_foldlFst ?_ rs h
  rintro ⟨s, _ | _⟩ n h
  · exact h
  · exact hf s n h

/-- The three passes over the rings of a copy to several: every ring is written, every sync word found, then every arrival made. -/
theorem inv_ringPasses {s : State} (h : s.Inv) (rs told : List Nat) {f g k : State → Nat → State × Except Bad Unit} (hf : ∀ s n, s.Inv → (f s n).1.Inv)
    (hg : ∀ s n, s.Inv → (g s n).1.Inv) (hk : ∀ s n, s.Inv → (k s n).1.Inv) :
    (match eachRing rs s f with
      | (s, .error b) => (s, Except.error b)
      | (s, .ok ()) => match eachRing told s g with
        | (s, .error b) => (s, Except.error b)
        | (s, .ok ()) => eachRing told s k).1.Inv := by
  have hr := inv_eachRing h rs hf
  split
  · next hx => exact inv_of_eq hr hx
  next hx =>
    have h1 := inv_of_eq hr hx
    have ht := inv_eachRing h1 told hg
    split
    · next hx => exact inv_of_eq ht hx
    · next hx => exact inv_eachRing (inv_of_eq ht hx) told hk

/-- The arrival's place is found, and what it holds left aside. -/
theorem inv_arrivalFound {s : State} (h : s.Inv) (ag : Agent) (syn : Word) :
    (match arrivalAt s ag syn with | (s, .error b) => (s, Except.error b) | (s, .ok _) => (s, .ok ()) : State × Except Bad Unit).1.Inv := by
  have ha := inv_arrivalAt h ag syn
  split
  · next hx => exact inv_of_eq ha hx
  · next hx => exact inv_of_eq ha hx

theorem inv_unitCps {s : State} (h : s.Inv) (ag : Agent) (e : Errand) : (unitCps s ag e).state.Inv := by
  unfold unitCps
  dsimp only
  split
  · exact h
  split
  · next hx => exact inv_ofBad (inv_of_eq (inv_patElems h _ _ _ _) hx) _ _
  next hx =>
    have h1 := inv_of_eq (inv_patElems h _ _ _ _) hx
    split
    · next hx =>
      exact inv_ofBad (inv_of_eq (inv_ringPasses h1 _ _ (fun _ _ h => inv_writeRange _ _ h _) (fun _ _ h => inv_arrivalFound h ag _)
        fun _ _ h => inv_engArrive h ag _ _) hx) _ _
    · next hx =>
      exact inv_dropGot (inv_of_eq (inv_ringPasses h1 _ _ (fun _ _ h => inv_writeRange _ _ h _) (fun _ _ h => inv_arrivalFound h ag _)
        fun _ _ h => inv_engArrive h ag _ _) hx) _

theorem inv_unitSbind {s : State} (h : s.Inv) (ag : Agent) (home slot : Nat) (e : Errand) : (unitSbind s ag home slot e).state.Inv := by
  unfold unitSbind
  split <;> exact h

theorem inv_unitSbar {s : State} (h : s.Inv) (e : Errand) : (unitSbar s e).state.Inv := by
  unfold unitSbar
  split <;> exact h

theorem inv_contribute {s : State} (h : s.Inv) (ag : Agent) (e : Errand) (id : Nat) (c : Coll) : (contribute s ag e id c).state.Inv := by
  unfold contribute
  split
  · grind [Did.state, inv_ofBad, inv_readRange]
  · grind [State.Inv, Did.state, inv_warnFmt, inv_readRange]

theorem inv_collResult {s : State} (h : s.Inv) (ag : Agent) (e : Errand) (parts : List (List Byte)) : (collResult s ag e parts).1.Inv := by
  unfold collResult
  grind [inv_putElems, inv_foldl]

theorem inv_passOn {s t : State} (h : s.Inv) (id : Nat) (ms : List Member) (rank step : Nat) (e : passOn s id ms rank step = some t) : t.Inv := by
  unfold passOn at e
  grind [inv_sendFlit, Option.map_eq_some_iff]

theorem inv_unitColl {s : State} (h : s.Inv) (ag : Agent) (e : Errand) (id : Nat) (c : Coll) (ms : List Member) : (unitColl s ag e id c ms).state.Inv := by
  unfold unitColl
  dsimp only
  split
  · exact inv_contribute h _ _ _ _
  split
  · exact h
  split
  · exact h
  split
  · split
    · exact h
    · next hs => exact inv_passOn h _ _ _ _ hs
  split
  · exact h
  split
  · next hx => exact inv_ofBad (inv_of_eq (inv_collResult h _ _ _) hx) _ _
  · next hx => exact inv_deliver (inv_of_eq (inv_collResult h _ _ _) hx) _ _ _ fun _ _ h => h

/-! ### Events of an errand -/

theorem inv_endErrand {s : State} (h : s.Inv) (tile slot : Nat) (e : Errand) (st : EState) (cause : BitVec 6) (sub : Nat) (addr : Word) :
    (endErrand s tile slot e st cause sub addr).Inv := by
  unfold endErrand
  grind [inv_finalize, inv_setErrand]

theorem inv_twinAt {s : State} (h : s.Inv) (tile slot : Nat) (e : Errand) : (twinAt s tile slot e).1.Inv := by
  unfold twinAt
  split
  · exact h
  · grind [inv_twinOf]

theorem inv_readDesc {s : State} (h : s.Inv) (ag : Agent) (l : List (Word × Nat)) : (readDesc s ag l).1.Inv := by
  induction l generalizing s ag with
  | nil => exact h
  | cons x l ih =>
    unfold readDesc
    split <;> grind [inv_readRange]

theorem inv_beginRun {s : State} (h : s.Inv) (home slot : Nat) (e : Errand) : (beginRun s home slot e).1.Inv := by
  unfold beginRun
  split <;> exact h

theorem inv_warnClass {s : State} (h : s.Inv) (e : Errand) : (warnClass s e).Inv := by
  unfold warnClass
  split
  · grind [inv_modThr]
  · exact h

theorem inv_goStart {s : State} (h : s.Inv) (tile slot : Nat) (e : Errand) : (goStart s tile slot e).Inv := by
  unfold goStart
  split
  · exact h
  · grind [inv_endErrand, inv_readDesc, inv_setErrand, inv_beginRun, inv_warnClass]

theorem inv_startErrand {s : State} (h : s.Inv) (tile slot : Nat) (e : Errand) (t : TwinAt) : (startErrand s tile slot e t).Inv := by
  unfold startErrand
  split <;> grind [inv_endErrand, inv_goStart, inv_setErrand]

theorem keeps_execErrandQueued {s : State} (h : s.Inv) (tile slot : Nat) : KeepsForm (execErrandQueued tile slot s) := by
  unfold execErrandQueued
  refine keepsForm_next ?_
  grind [inv_modErrand]

theorem keeps_execErrandStart {s : State} (h : s.Inv) (tile slot : Nat) : KeepsForm (execErrandStart tile slot s) := by
  unfold execErrandStart
  refine keepsForm_next ?_
  dsimp only
  split
  · exact h
  · grind [inv_endErrand, inv_twinAt, inv_setErrand, inv_startErrand]

theorem inv_doUnit {s : State} (h : s.Inv) (tile slot : Nat) (e : Errand) : (doUnit s tile slot e).state.Inv := by
  unfold doUnit
  split
  · exact h
  · grind [Did.state, inv_unitMm, inv_unitMmb, inv_unitRstep, inv_unitCp, inv_unitCps, inv_unitGath, inv_unitColl, inv_unitSbind, inv_unitSbar]

theorem inv_chargeUnit {s : State} (h : s.Inv) (e : Errand) : (chargeUnit s e).Inv := h

theorem keeps_execErrandChunkDone {s : State} (h : s.Inv) (tile slot : Nat) : KeepsForm (execErrandChunkDone tile slot s) := by
  refine keepsForm_next ?_
  split
  · exact h
  split
  · exact h
  split
  · exact inv_goStart h _ _ _
  next e _ _ _ =>
    have hd := inv_doUnit h tile slot e
    split
    · next hx =>
      rw [hx] at hd
      exact inv_chargeUnit (inv_setErrand hd _ _ _) _
    · next hx =>
      rw [hx] at hd
      exact inv_setErrand hd _ _ _
    · exact h

theorem keeps_execErrandPreemptionPoint {s : State} (h : s.Inv) (tile slot : Nat) : KeepsForm (execErrandPreemptionPoint tile slot s) := by
  unfold execErrandPreemptionPoint
  refine keepsForm_next ?_
  dsimp only
  split
  · exact h
  · grind [inv_endErrand, inv_setErrand]

theorem keeps_execErrandResume {s : State} (h : s.Inv) (tile slot : Nat) : KeepsForm (execErrandResume tile slot s) := by
  unfold execErrandResume
  refine keepsForm_next ?_
  split
  · exact h
  · grind [inv_setErrand]

theorem inv_publishTile {s : State} (h : s.Inv) (home slot : Nat) (e : Errand) : (publishTile s home slot e).Inv := by
  unfold publishTile
  split
  · exact h
  · grind [inv_modTile, inv_endPort, inv_foldl]

theorem inv_enterPublish {s : State} (h : s.Inv) (tile slot : Nat) (e : Errand) : (enterPublish s tile slot e).Inv := by
  unfold enterPublish
  split
  · exact h
  · grind [State.Inv, inv_modErrand, inv_foldl]

theorem inv_dropColls {s : State} (h : s.Inv) : (dropColls s).Inv := h

theorem inv_counterAt {s : State} (h : s.Inv) (ag : Agent) (ea : Word) : (counterAt s ag ea).1.Inv := by
  unfold counterAt
  split
  · grind [inv_resolveAt]
  · grind [inv_ownCheck, inv_resolveAt]

theorem inv_counterAdd {s : State} (h : s.Inv) (tile k : Nat) : (counterAdd s tile k).Inv := by
  unfold counterAdd
  split
  · grind [inv_peerAtomic]
  · grind [inv_ctrApply]

theorem inv_publish {s : State} (h : s.Inv) (tile slot : Nat) (e : Errand) : (publish s tile slot e).Inv := by
  unfold publish
  split
  · grind [inv_dropColls, inv_endErrand, inv_counterAt, inv_arrivalAt, inv_twinReach, inv_publishTile, inv_publishTwin, inv_counterAdd, inv_engArrive]
  · grind [inv_dropColls, inv_endErrand, inv_arrivalAt, inv_twinReach, inv_publishTile, inv_publishTwin, inv_counterAdd, inv_engArrive]

theorem keeps_execErrandPublish {s : State} (h : s.Inv) (tile slot : Nat) : KeepsForm (execErrandPublish tile slot s) := by
  unfold execErrandPublish
  refine keepsForm_next ?_
  dsimp only
  split
  · exact h
  · grind [inv_publish, inv_enterPublish]

theorem keeps_execOperandFetchFault {s : State} (h : s.Inv) (tile slot : Nat) : KeepsForm (execOperandFetchFault tile slot s) := by
  refine keepsForm_next ?_
  split
  · exact h
  split
  · exact h
  next e _ _ =>
    have hd := inv_doUnit h tile slot e
    split
    · next hx =>
      rw [hx] at hd
      exact inv_setErrand hd _ _ _
    · next hx =>
      rw [hx] at hd
      exact inv_endErrand hd _ _ _ _ _ _ _
    · exact h

theorem keeps_execFetchReplay {s : State} (h : s.Inv) (tile slot : Nat) : KeepsForm (execFetchReplay tile slot s) := by
  refine keepsForm_next ?_
  split
  · exact h
  next e _ =>
    have hd := inv_doUnit h tile slot { e with stalled := none }
    split
    · exact h
    split
    · exact h
    split
    · exact inv_goStart h _ _ _
    split
    · next hx =>
      rw [hx] at hd
      exact inv_setErrand hd _ _ _
    · next hx =>
      rw [hx] at hd
      exact inv_endErrand hd _ _ _ _ _ _ _
    · exact h
    · next hx =>
      rw [hx] at hd
      exact inv_setErrand hd _ _ _

theorem keeps_execReplayTimeout {s : State} (h : s.Inv) (tile slot : Nat) : KeepsForm (execReplayTimeout tile slot s) := by
  unfold execReplayTimeout
  refine keepsForm_next ?_
  split
  · exact h
  · grind [inv_endErrand]

end Sys2Proof.Proofs
end

section
/-!
PROOFS. The canonical form of memory through the fabric's and the dispatchers' events, system instructions and residency.
-/
namespace Sys2Proof.Proofs
open Sys2Proof Sys2Proof.Machine Sys2Proof.Machine.State Sys2Proof.Claims
open Host (Outcome)

/-! ### Measurement and the log -/

theorem inv_busRead {s : State} (h : s.Inv) (a n : Nat) : (busRead s a n).1.Inv := by
  unfold busRead
  split
  · grind [inv_hubOwn]
  · grind [inv_hubRead, inv_hubOwn]

theorem inv_busWrite {s : State} (h : s.Inv) (a : Nat) (bs : List Byte) : (busWrite s a bs).1.Inv := by
  unfold busWrite
  split
  · grind [inv_hubOwn]
  · grind [inv_hubWrite, inv_hubOwn]

theorem inv_outWrite {s : State} (h : s.Inv) (ctx : Nat) (a : Word) (bs : List Byte) : (outWrite s ctx a bs).1.Inv := by
  unfold outWrite
  split
  · grind [inv_busWrite]
  · grind [inv_hubWriteVa]

theorem inv_inRead {s : State} (h : s.Inv) (ctx : Nat) (a : Word) (n : Nat) : (inRead s ctx a n).1.Inv := by
  unfold inRead
  split
  · grind [inv_busRead]
  · grind [inv_hubReadVa]

theorem inv_appendEvent {s : State} (h : s.Inv) (cn type : Nat) (content : List Byte) : (appendEvent s cn type content).Inv := by
  unfold appendEvent
  grind [inv_setCtx, inv_outWrite]

theorem inv_appendResult {s : State} (h : s.Inv) (cn : Nat) (addr : Word) (content : List Byte) : (appendResult s cn addr content).Inv := by
  unfold appendResult
  grind [inv_appendEvent, inv_modCtx]

/-! ### Buffers of a kernel -/

theorem inv_eachLine_go {s : State} (h : s.Inv) (ctx : Nat) (need : Need) {f : State → Nat → Nat → State}
    (hf : ∀ s a k, s.Inv → (f s a k).Inv) (a stop n : Nat) :
    (eachLine.go ctx need f s a stop n).Inv := by
  induction n generalizing s a with
  | zero => exact h
  | succ n ih =>
    unfold eachLine.go
    grind [inv_translateHub, inv_hubOwn, inv_hubLine]

theorem inv_eachLine {s : State} (h : s.Inv) (ctx va n : Nat) (need : Need) {f : State → Nat → Nat → State} (hf : ∀ s a k, s.Inv → (f s a k).Inv) :
    (eachLine s ctx va n need f).Inv := inv_eachLine_go h ctx need hf _ _ _

theorem inv_dropRange {s : State} (h : s.Inv) (k n : Nat) : (dropRange s k n).Inv := by
  unfold dropRange
  split
  · exact h
  · grind [State.Inv, inv_drainIf, inv_dropIf, inv_foldl]

theorem inv_backRange {s : State} (h : s.Inv) (k n : Nat) : (backRange s k n).Inv := by
  unfold backRange
  split
  · exact h
  · grind [inv_drainAll]

theorem inv_buffersIn {s : State} (h : s.Inv) (ctx : Nat) (bufs : List Buf) : (buffersIn s ctx bufs).Inv := by
  unfold buffersIn
  grind [inv_eachLine, inv_dropRange, inv_foldl]

theorem inv_buffersOut {s : State} (h : s.Inv) (ctx : Nat) (bufs : List Buf) : (buffersOut s ctx bufs).Inv := by
  unfold buffersOut
  grind [inv_eachLine, inv_backRange, inv_foldl]

theorem inv_measured {s : State} (h : s.Inv) (ctx : Nat) (l : List Buf) : (measured s ctx l).1.Inv := by
  induction l generalizing s ctx with
  | nil => exact h
  | cons x l ih =>
    unfold measured
    split
    · grind
    · grind [inv_hubReadVa]

theorem inv_complete {s : State} (h : s.Inv) (q : Nat) (c : Compl) : (complete s q c).Inv := by
  unfold complete
  split <;> exact h

theorem inv_serviceZero {s : State} (h : s.Inv) : (serviceZero s).Inv := by
  unfold serviceZero
  grind [State.Inv, inv_setKern, inv_foldl]

/-! ### Events of the fabric -/

theorem inv_frameFault {s : State} (h : s.Inv) (an : Nat) (a : Act) (fl : GFault) (seq : BitVec 32) (plane : Nat) (irrev : Bool) (held : Option Nat) :
    (frameFault s an a fl seq plane irrev held).Inv := by
  unfold frameFault
  split <;> grind [inv_readStatus, inv_writeStatus, inv_modAct, inv_allotStop]

theorem inv_transferFault {s : State} (h : s.Inv) (an : Nat) (a : Act) (w : Why) : (transferFault s an a w).Inv := by
  unfold transferFault
  split
  · grind [inv_faultInst]
  · grind [inv_frameFault]

theorem keeps_execBlockLoad {s : State} (h : s.Inv) (an : Nat) : KeepsForm (execBlockLoad an s) := by
  unfold execBlockLoad
  refine keepsForm_next ?_
  split
  · exact h
  · grind [inv_loadBlock, inv_transferFault, inv_modTile]

theorem keeps_execInstanceStart {s : State} (h : s.Inv) (an : Nat) : KeepsForm (execInstanceStart an s) := by
  unfold execInstanceStart
  refine keepsForm_next ?_
  dsimp only
  split
  · exact h
  · grind [inv_fresh, inv_sendTo, inv_setAct, inv_setInst, inv_foldl]

theorem keeps_execTokenArrival {s : State} (h : s.Inv) (idx : Nat) : KeepsForm (execTokenArrival idx s) := by
  unfold execTokenArrival
  refine keepsForm_next ?_
  dsimp only
  split
  · exact h
  · grind [State.Inv, inv_modInst]

theorem keeps_execInstanceQuiescent {s : State} (h : s.Inv) (i : Nat) : KeepsForm (execInstanceQuiescent i s) := by
  unfold execInstanceQuiescent
  refine keepsForm_next ?_
  split
  · exact h
  · grind [inv_faultInst, inv_setInst, inv_wakeCheck, inv_modInst]

theorem inv_timeoutsNow {s : State} (h : s.Inv) : (timeoutsNow s).Inv := h

theorem inv_performStore {s : State} (h : s.Inv) (ag : Agent) (st : GStore) : (performStore s ag st).Inv := by
  unfold performStore
  split
  · grind [inv_releaseAt]
  · grind [inv_pubLines, inv_writeAt, inv_refill]

theorem inv_endAct {s : State} (h : s.Inv) (an : Nat) (a : Act) : (endAct s an a).Inv := by
  unfold endAct
  grind [inv_dropAct, inv_checkGroupEnd, inv_checkKernel, inv_foldl]

theorem inv_effectStop {s : State} (h : s.Inv) (ag : Agent) (st : GStore) : (effectStop s ag st).1.Inv := by
  unfold effectStop
  split
  · grind [inv_pubLines]
  · grind [inv_ownCheck, inv_spFill]

theorem inv_commitStop {s : State} (h : s.Inv) (ag : Agent) (l : List GStore) : (commitStop s ag l).1.Inv := by
  induction l generalizing s ag with
  | nil => exact h
  | cons x l ih =>
    unfold commitStop
    split <;> grind [inv_effectStop]

theorem inv_retFrame {s : State} (h : s.Inv) (ag : Agent) (a : Act) : (retFrame s ag a).1.Inv := by
  unfold retFrame
  split
  · grind [inv_readFrame]
  · grind [inv_returnReach, inv_readFrame]

theorem inv_exitHeld {s : State} (h : s.Inv) (a : Act) (n : Inst) : (exitHeld s a n).1.Inv := by
  unfold exitHeld
  split
  · exact h
  · grind [inv_wakeCheck]

theorem keeps_execInstanceCommit {s : State} (h : s.Inv) (i : Nat) : KeepsForm (execInstanceCommit i s) := by
  unfold execInstanceCommit
  refine keepsForm_next ?_
  dsimp only
  split
  · exact h
  · grind [inv_exitHeld, inv_faultInst, inv_commitStop, inv_retFrame, inv_endAct, inv_performStore, inv_finishFrame, inv_dropInst, inv_modAct, inv_foldl]

theorem keeps_execInstanceTimeout {s : State} (h : s.Inv) (i : Nat) : KeepsForm (execInstanceTimeout i s) := by
  unfold execInstanceTimeout
  refine keepsForm_next ?_
  split
  · exact h
  · grind [inv_faultInst]

theorem inv_discardInst {s : State} (h : s.Inv) (i : Nat) : (discardInst s i).Inv := by
  unfold discardInst
  split
  · grind [inv_dropInst]
  · grind [inv_modTile, inv_modAct, inv_dropInst]

theorem keeps_execGraphFaultTaken {s : State} (h : s.Inv) (i : Nat) : KeepsForm (execGraphFaultTaken i s) := by
  unfold execGraphFaultTaken
  refine keepsForm_next ?_
  dsimp only
  split
  · exact h
  · grind [inv_frameReach, inv_discardInst, inv_frameFault, inv_foldl]

theorem keeps_execGraphHandlerStart {s : State} (h : s.Inv) (an : Nat) : KeepsForm (execGraphHandlerStart an s) := by
  unfold execGraphHandlerStart
  refine keepsForm_next ?_
  dsimp only
  split
  · exact h
  · grind [inv_setAct, inv_setThr]

theorem inv_resumeFrame {s : State} (h : s.Inv) (an : Nat) : (resumeFrame s an).Inv := by
  unfold resumeFrame
  split
  · exact h
  · grind [inv_modInst, inv_setAct]

theorem keeps_execGraphCallReturn {s : State} (h : s.Inv) (i : Nat) : KeepsForm (execGraphCallReturn i s) := by
  unfold execGraphCallReturn
  refine keepsForm_next ?_
  split
  · exact h
  · grind [inv_frameDone, inv_sendLate]

theorem inv_portElem {s : State} (h : s.Inv) (ag : Agent) (d : List Byte) (n : Nat) : (portElem s ag d n).1.Inv := by
  unfold portElem
  split
  · exact h
  · grind [inv_patElem]

theorem keeps_execStreamPortEmit {s : State} (h : s.Inv) (tile port : Nat) : KeepsForm (execStreamPortEmit tile port s) := by
  unfold execStreamPortEmit
  refine keepsForm_next ?_
  dsimp only
  split
  · exact h
  · grind [inv_portElem, inv_sendFit, inv_sendTo, inv_modInst, inv_modTile]

theorem keeps_execPortFetchFault {s : State} (h : s.Inv) (tile port : Nat) : KeepsForm (execPortFetchFault tile port s) := by
  unfold execPortFetchFault
  refine keepsForm_next ?_
  dsimp only
  split
  · exact h
  · grind [inv_portElem, inv_modInst, inv_modTile]

/-! ### Events of the dispatchers -/

theorem inv_writeRanks {s : State} (h : s.Inv) (die : Nat) (strict : Bool) : (writeRanks s die strict).Inv := h

theorem inv_zeroScratch {s : State} (h : s.Inv) (tile : Nat) (keep : List (Nat × Nat)) : (zeroScratch s tile keep).Inv := Memory.wf_filter s.mem _ h

theorem inv_handTile {s : State} (h : s.Inv) (tile ctx : Nat) : (handTile s tile ctx).Inv := by
  unfold handTile
  grind [inv_spReset, inv_zeroScratch, inv_modTile, inv_writeRanks]

theorem inv_reserveTile {s : State} (h : s.Inv) (kn ctx : Nat) (tr : Nat × Nat) : (reserveTile s kn ctx tr).Inv := by
  unfold reserveTile
  grind [inv_modTile, inv_handTile]

theorem keeps_execGroupPlacement {s : State} (h : s.Inv) : KeepsForm (execGroupPlacement s) := by
  unfold execGroupPlacement
  refine keepsForm_next ?_
  dsimp only
  split
  · exact h
  · grind [inv_setKern, inv_reserveTile, inv_foldl]

theorem keeps_execLaunchStarvation {s : State} (h : s.Inv) (n : Nat) : KeepsForm (execLaunchStarvation n s) := by
  unfold execLaunchStarvation
  refine keepsForm_next ?_
  grind [inv_modKern]

theorem inv_resetTile {s : State} (h : s.Inv) (k : Kernel) (tile : Nat) : (resetTile s k tile).Inv := inv_writeMem (inv_modTile h tile _) _ _

theorem inv_startLead {s : State} (h : s.Inv) (kn : Nat) (k : Kernel) (tile : Nat) : (startLead s kn k tile).Inv := h

theorem inv_injectRoot {s : State} (h : s.Inv) (kn : Nat) (k : Kernel) : ∀ u ∈ injectRoot s kn k, u.Inv := by
  unfold injectRoot
  split <;> grind [inv_allotStop, inv_setKern, inv_wakeCheck, inv_frameReach, inv_writeFrame, inv_newAct]

theorem keeps_execGroupStart {s : State} (h : s.Inv) (kn : Nat) : KeepsForm (execGroupStart kn s) := by
  refine keepsForm_next (inv_heldBack (fun _ => h) ?_)
  dsimp only
  split
  · exact h
  next k _ =>
  split
  · exact h
  have hb := inv_buffersIn h k.ctx k.bufs
  split
  · exact hb
  have hr := inv_foldl (fun _ t h => inv_resetTile h k t) k.tiles _ hb
  split
  · cases hi : injectRoot (k.tiles.foldl (fun s t => resetTile s k t) (buffersIn s k.ctx k.bufs)) kn k with
    | none => exact h
    | some u => exact inv_injectRoot hr _ _ _ hi
  · exact inv_foldl (fun _ t h => inv_startLead h kn k t) _ _ (inv_setKern hr _ _)

theorem inv_startCallee {s u : State} (h : s.Inv) (tile tp : Nat) (t : Task) (fa : Word) (kn : Nat) (k : Kernel) (e : startCallee s tile tp t fa kn k = some u) :
    u.Inv := by
  unfold startCallee at e
  grind [State.Inv, inv_readRange, inv_acquireDevice, inv_takeTrap, inv_setThr]

theorem inv_startTaskC {s : State} (h : s.Inv) (tile tp : Nat) (t : Task) (ty : TaskType) (o kn : Nat) (k : Kernel) :
    (startTaskC s tile tp t ty o kn k).Inv := h

theorem inv_startTaskG {s u : State} (h : s.Inv) (tile : Nat) (t : Task) (ty : TaskType) (o kn : Nat) (k : Kernel) (e : startTaskG s tile t ty o kn k = some u) :
    u.Inv := by
  unfold startTaskG at e
  grind [State.Inv, inv_wakeCheck, inv_allotStop, inv_frameReach, inv_writeFrame, inv_newAct, inv_modAct]

theorem inv_dispatch {s u : State} (h : s.Inv) (x : Cand) (e : dispatch s x = some u) : u.Inv := by
  unfold dispatch at e
  dsimp only at e
  split at e
  · split at e
    · cases e
    split at e
    · exact inv_startCallee h _ _ _ _ _ _ e
    · split at e
      · exact inv_startTaskG h _ _ _ _ _ _ e
      · cases e
        exact inv_startTaskC h _ _ _ _ _ _ _
    · cases e
  · cases e

theorem keeps_execTaskDispatch {s : State} (h : s.Inv) (die : Nat) : KeepsForm (execTaskDispatch die s) := by
  refine keepsForm_next ?_
  split
  · exact h
  next x _ =>
  dsimp only
  split
  · next u hu =>
    refine inv_dispatch ?_ _ hu
    split
    · exact h
    · refine inv_syncHead ?_ _ _
      exact h
  · exact h

theorem inv_freeKernelErrands {s : State} (h : s.Inv) (kn : Nat) : (freeKernelErrands s kn).Inv := by
  unfold freeKernelErrands
  grind [inv_freeErrand, inv_foldl]

theorem keeps_execKernelCompletion {s : State} (h : s.Inv) (kn : Nat) : KeepsForm (execKernelCompletion kn s) := by
  refine keepsForm_next (inv_heldBack (fun _ => h) ?_)
  split
  · exact h
  next k _ =>
  split
  · exact h
  lift_lets
  intro mine s1 s2 r out s3 s4 s5
  have h1 : s1.Inv := inv_foldl (fun _ t h => inv_spReset h t) mine s h
  have h2 : s2.Inv := inv_buffersOut h1 k.ctx k.bufs
  have hr : r.1.Inv := by
    dsimp only [r]
    split
    · exact inv_measured h2 _ _
    · exact h2
  clear_value r
  have ho : out.1.Inv := by
    dsimp only [out]
    split
    · exact inv_foldl (fun _ x h => inv_appendResult h k.ctx x.1 x.2) _ _ hr
    · exact hr
  have h3 : s3.Inv := inv_freeKernelErrands ho kn
  have h4 : s4.Inv := inv_setKern h3 kn _
  have h5 : s5.Inv := by
    dsimp only [s5]
    split
    · exact inv_modCtx h4 _ _
    · exact h4
  split
  · exact h
  · exact inv_complete h5 _ _

theorem inv_discardThread {s : State} (h : s.Inv) (k : Nat) : (discardThread s k).Inv := by
  unfold discardThread
  grind [inv_modThr, inv_dropWarnTo, inv_dropAttached]

theorem inv_rearm {s : State} (h : s.Inv) (cn : Nat) (old : Ctx) (i : Nat) : (rearm s cn old i).Inv := by
  unfold rearm
  grind [inv_discardThread, inv_foldl]

theorem inv_installTree {s : State} (h : s.Inv) (cn : Nat) (c : Ctx) (tree : Tbl Allot) : (installTree s cn c tree).Inv := by
  unfold installTree
  grind [inv_rearm, inv_modCtx, inv_foldl]

theorem keeps_execBudgetPeriod {s : State} (h : s.Inv) : KeepsForm (execBudgetPeriod s) := by
  unfold execBudgetPeriod
  refine keepsForm_next ?_
  dsimp only
  grind [State.Inv, inv_installTree, inv_foldl]

theorem keeps_execHeadroomUpdate {s : State} (h : s.Inv) (h0 h1 h2 h3 : BitVec 24) : KeepsForm (execHeadroomUpdate h0 h1 h2 h3 s) := by
  unfold execHeadroomUpdate
  refine keepsForm_next ?_
  dsimp only
  split <;> exact h

theorem keeps_execBellSlot {s : State} (h : s.Inv) (die : Nat) : KeepsForm (execBellSlot die s) := by
  unfold execBellSlot
  refine keepsForm_next ?_
  dsimp only
  exact h

/-! ### System instructions -/

theorem inv_privTrap {s : State} (h : s.Inv) (code : Nat) : (privTrap s code).state.Inv := h

theorem keeps_execCtxStart {s : State} (h : s.Inv) (f : CForm) : KeepsForm (execCtxStart f s) := by
  unfold execCtxStart
  refine keepsForm_next (inv_runC h _ _ ?_)
  dsimp only
  split
  · exact h
  · grind [BRes.state, inv_privTrap, inv_checkPtr, inv_whyC, inv_setThr]

theorem keeps_execCtxReap {s : State} (h : s.Inv) (f : CForm) : KeepsForm (execCtxReap f s) := by
  unfold execCtxReap
  refine keepsForm_next (inv_runC h _ _ ?_)
  dsimp only
  split
  · exact h
  · grind [BRes.state, inv_privTrap, inv_modThr]

theorem keeps_execGetsr {s : State} (h : s.Inv) (f : CForm) : KeepsForm (execGetsr f s) := by
  unfold execGetsr
  refine keepsForm_next (inv_runC h _ _ ?_)
  dsimp only
  split
  · grind [BRes.state, inv_retFill, inv_modThr]
  · grind [BRes.state, inv_retX, inv_modThr]

theorem inv_denyWrite {s : State} (h : s.Inv) (e : CEnv) : (denyWrite e s).state.Inv := by
  unfold denyWrite
  split <;> exact h

theorem inv_bfmtWrite {s : State} (h : s.Inv) (k i : Nat) (v : Word) : (bfmtWrite s k i v).Inv := by
  unfold bfmtWrite
  split
  · exact h
  · grind [inv_modThr, inv_modTile]

theorem inv_rangePlaces {s : State} (h : s.Inv) (tile ctx va sk n : Nat) : (rangePlaces s tile ctx va sk n).1.Inv := by
  induction n generalizing s tile ctx va sk with
  | zero => exact h
  | succ n ih =>
    unfold rangePlaces
    grind [inv_translate]

theorem inv_registerLines {s : State} (h : s.Inv) (ps : List (Nat × Nat)) : (registerLines s ps).Inv := by
  unfold registerLines
  grind [inv_registerLine, inv_foldl]

theorem inv_spmapWrite {s : State} (h : s.Inv) (k ctx i : Nat) (v : Word) : (spmapWrite s k ctx i v).1.Inv := by
  unfold spmapWrite
  split
  · grind [inv_modTile, inv_modThr, inv_spWriteBack]
  · grind [inv_modTile, inv_modThr, inv_spWriteBack, inv_rangePlaces, inv_registerLines]

theorem keeps_execSetsr {s : State} (h : s.Inv) (f : CForm) : KeepsForm (execSetsr f s) := by
  unfold execSetsr
  refine keepsForm_next (inv_runC h _ _ ?_)
  dsimp only
  split
  · grind [BRes.state, inv_bfmtWrite]
  · grind [BRes.state, inv_spmapWrite, inv_modThr, inv_denyWrite]

theorem keeps_execYield {s : State} (h : s.Inv) (f : CForm) : KeepsForm (execYield f s) := by
  unfold execYield
  refine keepsForm_next (inv_runC h _ _ ?_)
  dsimp only
  split <;> exact h

theorem keeps_execTrap {s : State} (h : s.Inv) (f : CForm) : KeepsForm (execTrap f s) := by
  unfold execTrap
  refine keepsForm_next (inv_runC h _ _ ?_)
  exact h

theorem keeps_execBrk {s : State} (h : s.Inv) (f : CForm) : KeepsForm (execBrk f s) := by
  unfold execBrk
  refine keepsForm_next (inv_runC h _ _ ?_)
  exact h

theorem keeps_execEret {s : State} (h : s.Inv) (f : CForm) : KeepsForm (execEret f s) := by
  unfold execEret
  refine keepsForm_next (inv_runC h _ _ ?_)
  dsimp only
  split
  · grind [BRes.state, inv_allotStop, inv_stopThread]
  · grind [BRes.state, inv_allotStop, inv_stopThread, inv_modAct, inv_resumeFrame, inv_endThread, inv_setThr]

theorem inv_postTask {s : State} (h : s.Inv) (ctx allot : Nat) (q : TaskQ) (rec : List Byte) : (postTask s ctx allot q rec).1.Inv := by
  unfold postTask
  dsimp only
  refine inv_syncHead ?_ _ _
  generalize hw : writeHome (writeHome _ _ _) _ _ = s1
  have h1 : s1.Inv := by
    subst hw
    exact inv_writeHome _ (inv_writeHome _ (inv_modCtx h _ _) _) _
  exact h1

theorem keeps_execTaskPost {s : State} (h : s.Inv) (f : CForm) : KeepsForm (execTaskPost f s) := by
  unfold execTaskPost
  refine keepsForm_next (inv_runC h _ _ ?_)
  dsimp only
  split
  · exact h
  · grind [BRes.state, inv_resolve, inv_stopRes, inv_readRange, inv_releaseDevice, inv_privTrap, inv_retX, inv_postTask]

theorem keeps_execChanBlk {s : State} (h : s.Inv) (f : CForm) : KeepsForm (execChanBlk f s) := by
  unfold execChanBlk
  refine keepsForm_next (inv_runC h _ _ ?_)
  dsimp only
  split
  · exact h
  · grind [BRes.state, inv_privTrap, inv_writeHome]

theorem inv_cancelTask {s : State} (h : s.Inv) (ctx : Nat) (id : Word) : (cancelTask s ctx id).1.Inv := by
  unfold cancelTask
  split
  · grind [State.Inv, inv_syncHead]
  · grind [inv_setThr]

theorem inv_noteCancel {s : State} (h : s.Inv) (c : Cancel) : (noteCancel s c).Inv := h

theorem keeps_execTaskCancel {s : State} (h : s.Inv) (f : CForm) : KeepsForm (execTaskCancel f s) := by
  unfold execTaskCancel
  refine keepsForm_next (inv_runC h _ _ ?_)
  dsimp only
  split
  · grind [BRes.state, inv_retX, inv_noteCancel, inv_modThr]
  · grind [BRes.state, inv_retX, inv_noteCancel, inv_cancelTask]

theorem keeps_execMeas {s : State} (h : s.Inv) (f : CForm) : KeepsForm (execMeas f s) := by
  unfold execMeas
  refine keepsForm_next (inv_runC h _ _ ?_)
  dsimp only
  split
  · exact h
  · grind [BRes.state, inv_readRange, inv_releaseAt, inv_stopRes, inv_appendEvent, inv_asks, inv_retX]

/-! ### Residency -/

theorem inv_beginPreempt {s : State} (h : s.Inv) (tile : Nat) (g : Group) : (beginPreempt s tile g).Inv := by
  unfold beginPreempt
  grind [inv_modTile, inv_setErrand, inv_foldl]

theorem inv_requestPreempt {s : State} (h : s.Inv) (tile : Nat) : (requestPreempt s tile).Inv := by
  unfold requestPreempt
  split
  · exact h
  · grind [inv_beginPreempt, inv_modTile]

theorem inv_requestRestore {s : State} (h : s.Inv) (tile : Nat) : (requestRestore s tile).Inv := by
  unfold requestRestore
  split
  · exact h
  · grind [inv_modTile]

theorem keeps_execPreemptRequest {s : State} (h : s.Inv) (tile : Nat) : KeepsForm (execPreemptRequest tile s) := by
  unfold execPreemptRequest
  refine keepsForm_next ?_
  split
  · grind [inv_requestPreempt]
  · exact h

theorem inv_unplaceWaits {s : State} (h : s.Inv) (tile : Nat) : (unplaceWaits s tile).Inv := h

theorem keeps_execSaveComplete {s : State} (h : s.Inv) (tile : Nat) : KeepsForm (execSaveComplete tile s) := by
  unfold execSaveComplete
  refine keepsForm_next ?_
  dsimp only
  split
  · exact h
  · grind [inv_takeTrap, inv_setThr, inv_modTile, inv_unplaceWaits, inv_releaseDevice]

theorem inv_copyScratch {s : State} (h : s.Inv) (src dst : Nat) : (copyScratch s src dst).Inv :=
  Memory.wf_foldWrite _ _ _ (inv_zeroScratch h dst (keptAreas s dst))

theorem inv_moveGroup {s : State} (h : s.Inv) (src dst : Nat) (g : Group) : (moveGroup s src dst g).Inv := by
  unfold moveGroup
  grind [State.Inv, inv_copyScratch, inv_setTile, inv_setThr, inv_modKern, inv_foldl]

theorem keeps_execGroupEviction {s : State} (h : s.Inv) (tile : Nat) : KeepsForm (execGroupEviction tile s) := by
  unfold execGroupEviction
  refine keepsForm_next ?_
  dsimp only
  split
  · exact h
  · grind [inv_moveGroup, inv_spWriteBack, inv_foldl]

theorem inv_registerAll {s : State} (h : s.Inv) (tile ctx : Nat) : (registerAll s tile ctx).Inv := by
  unfold registerAll
  grind [inv_rangePlaces, inv_registerLines, inv_foldl]

theorem keeps_execRestoreRequest {s : State} (h : s.Inv) (kn rank tile : Nat) : KeepsForm (execRestoreRequest kn rank tile s) := by
  unfold execRestoreRequest
  refine keepsForm_next ?_
  dsimp only
  split
  · exact h
  · grind [State.Inv, inv_requestRestore, inv_registerAll, inv_zeroRange, inv_moveGroup, inv_handTile]

theorem keeps_execRestoreComplete {s : State} (h : s.Inv) (tile : Nat) : KeepsForm (execRestoreComplete tile s) := by
  unfold execRestoreComplete
  refine keepsForm_next ?_
  dsimp only
  split
  · exact h
  · grind [inv_beginPreempt, inv_acquireDevice, inv_modTile]

end Sys2Proof.Proofs
end

section
/-!
PROOFS. The canonical form of memory through rings, packets, contexts, links and page ownership.
-/
namespace Sys2Proof.Proofs
open Sys2Proof Sys2Proof.Machine Sys2Proof.Machine.State Sys2Proof.Claims
open Host (Outcome)

/-! ### Rings, packets and completions -/

theorem inv_pw2Check {s : State} (h : s.Inv) (f off n : Nat) (need : Need) : (pw2Check s f off n need).1.Inv := by
  unfold pw2Check
  split
  · exact h
  · grind [inv_hubCheck]

theorem inv_pw2Read {s : State} (h : s.Inv) (f off n : Nat) : (pw2Read s f off n).1.Inv := by
  unfold pw2Read
  split
  · exact h
  · grind [inv_hubReadVa]

theorem inv_pw2Write {s : State} (h : s.Inv) (f off : Nat) (bs : List Byte) : (pw2Write s f off bs).1.Inv := by
  unfold pw2Write
  split
  · exact h
  · grind [inv_hubWriteWhole]

theorem inv_ringRead {s : State} (h : s.Inv) (q : Nat) (base : Word) (off n : Nat) : (ringRead s q base off n).1.Inv := by
  unfold ringRead
  split
  · grind [inv_pw2Read]
  · grind [inv_busRead]

theorem inv_ringWrite {s : State} (h : s.Inv) (q : Nat) (base : Word) (off : Nat) (bs : List Byte) : (ringWrite s q base off bs).1.Inv := by
  unfold ringWrite
  split
  · grind [inv_pw2Write]
  · grind [inv_busWrite]

theorem inv_servedQ {s : State} (h : s.Inv) (q : Nat) : (servedQ q s).Inv := h

theorem inv_ringFail {s : State} (h : s.Inv) (q : Nat) : (ringFail s q).Inv := h

theorem inv_takePacket {s : State} (h : s.Inv) (q : Nat) (want : Pkt → Bool) {go : State → Pkt → State} (hg : ∀ s p, s.Inv → (go s p).Inv) :
    (takePacket s q want go).Inv := by
  unfold takePacket
  split
  · exact h
  · refine inv_heldBack (fun t => inv_servedQ (s := asks s t) h q) ?_
    grind [State.Inv, inv_ringRead, inv_ringFail, inv_servedQ, inv_modQueue]

theorem inv_finish {s : State} (h : s.Inv) (p : Pkt) (status : Nat) (value : Word) : (finish s p status value).Inv := by
  unfold finish
  grind [inv_complete]

theorem inv_failPkt {s : State} (h : s.Inv) (p : Pkt) (f : Fail) : (failPkt s p f).Inv := by
  unfold failPkt
  grind [inv_finish]

theorem inv_ctxPacket {s : State} (h : s.Inv) (q : Nat) (want : Pkt → Bool) (sts : List CStat) (named : List (Nat × Nat)) {go : State → Pkt → State}
    (hg : ∀ s p, s.Inv → (go s p).Inv) : (ctxPacket s q want sts named go).Inv := by
  unfold ctxPacket
  grind [inv_takePacket, inv_finish]

theorem inv_measureNew {s : State} (h : s.Inv) (q : Nat) : (measureNew s q).Inv := by
  unfold measureNew
  grind [inv_appendEvent, inv_modCtx, inv_foldl]

theorem inv_settlePends {s : State} (h : s.Inv) (q : Nat) : (settlePends s q).Inv := h

theorem inv_pendsNow {s : State} (h : s.Inv) : (pendsNow s).Inv := by
  unfold pendsNow
  grind [inv_settlePends, inv_foldl]

theorem keeps_execCompletionEntryWrite {s : State} (h : s.Inv) (q : Nat) : KeepsForm (execCompletionEntryWrite q s) := by
  refine keepsForm_next (inv_heldBack (fun _ => h) ?_)
  lift_lets
  intro s1 x
  have h1 : s1.Inv := inv_settlePends (inv_measureNew h q) q
  split
  · exact inv_modQueue h1 _ _
  next c r _ =>
  lift_lets
  intro k gone
  split
  · split
    · exact inv_modQueue h1 _ _
    · exact h1
  split
  · exact inv_modQueue h1 _ _
  have hw := inv_ringWrite h1 q x.cbase (k % 2 ^ x.logn.toNat * 32) (complBytes c k x.logn.toNat)
  split
  · next s2 _ hx =>
    have h2 : s2.Inv := inv_of_eq hw hx
    split
    · exact inv_modQueue h2 _ _
    · exact inv_ringFail h2 _
  · next s2 hx =>
    have h2 : s2.Inv := inv_of_eq hw hx
    refine inv_modQueue (inv_settlePends ?_ _) _ _
    split
    · exact h2
    · exact h2

/-! ### Contexts -/

theorem inv_readBlocks {s : State} (h : s.Inv) (cn : Nat) (l : List Word) : (readBlocks s cn l).1.Inv := by
  induction l generalizing s cn with
  | nil => exact h
  | cons x l ih =>
    unfold readBlocks
    split
    · grind [inv_hubCheck]
    · grind [inv_hubReadVa, inv_hubCheck]

theorem inv_readTree {s : State} (h : s.Inv) (cn : Nat) (own : Nat → Bool) (root : Word) (blocks : List Word) :
    (readTree s cn own root blocks).1.Inv := by
  unfold readTree
  split <;> grind [inv_readBlocks]

theorem inv_outCheck {s : State} (h : s.Inv) (cn : Nat) (a : Word) (n : Nat) (need : Need) : (outCheck s cn a n need).1.Inv := by
  unfold outCheck
  split
  · exact h
  · grind [inv_hubCheck]

theorem inv_createCheck {s : State} (h : s.Inv) (cn : Nat) (p : Pkt) (blocks : List Word) : (createCheck s cn p blocks).1.Inv := by
  unfold createCheck
  split
  · grind [inv_outCheck]
  · grind [inv_outCheck, inv_inRead, inv_readTree]

theorem inv_heldOf {s : State} (h : s.Inv) (t : State) : (heldOf s t).Inv := h

theorem keeps_execCreate {s : State} (h : s.Inv) (q : Nat) (blocks : List Word) : KeepsForm (execCreate q blocks s) := by
  unfold execCreate
  refine keepsForm_next (inv_takePacket h _ _ fun s p h => ?_)
  dsimp only
  split
  · grind [inv_finish]
  · grind [inv_finish, inv_createCheck, inv_setCtx, inv_heldOf, inv_modQueue, inv_modTile, inv_foldl]

theorem keeps_execAllot {s : State} (h : s.Inv) (q : Nat) (blocks : List Word) : KeepsForm (execAllot q blocks s) := by
  unfold execAllot
  refine keepsForm_next (inv_ctxPacket h _ _ _ _ fun s p h => ?_)
  split
  · grind [inv_finish, inv_heldOf, inv_readTree]
  · grind [inv_finish, inv_modCtx, inv_readTree]

theorem inv_refuseHeld {s : State} (h : s.Inv) (cn : Nat) : (refuseHeld s cn).Inv := by
  unfold refuseHeld
  grind [State.Inv, inv_complete, inv_foldl]

theorem inv_beginTeardown {s : State} (h : s.Inv) (cn : Nat) : (beginTeardown s cn).Inv := by
  unfold beginTeardown
  grind [State.Inv, inv_refuseHeld, inv_stopSubtree, inv_modCtx, inv_foldl]

theorem keeps_execDestroy {s : State} (h : s.Inv) (q : Nat) : KeepsForm (execDestroy q s) := by
  unfold execDestroy
  refine keepsForm_next (inv_ctxPacket h _ _ _ _ fun s p h => ?_)
  grind [inv_modQueue, inv_beginTeardown]

theorem inv_scrubTile {s : State} (h : s.Inv) (cn : Nat) (kt : Nat × Tile) : (scrubTile s cn kt).Inv := by
  unfold scrubTile
  split <;> grind [inv_freeErrand, inv_zeroRange, inv_modTile, inv_foldl]

theorem inv_scrubFace {s : State} (h : s.Inv) (f : Nat × Face) : (scrubFace s f).Inv := by
  unfold scrubFace
  split <;> grind [State.Inv, inv_zeroRange]

theorem inv_regionHome {s : State} (h : s.Inv) (r : Nat) : (regionHome s r).Inv := by
  unfold regionHome
  grind [State.Inv, inv_recallExcls, inv_recallToken]

theorem keeps_execTeardownComplete {s : State} (h : s.Inv) (cn : Nat) : KeepsForm (execTeardownComplete cn s) := by
  refine keepsForm_next ?_
  split
  · exact h
  lift_lets
  intro s1 s2 s3 s4 s5 c tl
  have h1 : s1.Inv := inv_foldl (fun _ t h => inv_drainIf h t _) _ s h
  have h2 : s2.Inv := inv_foldl (fun _ t h => inv_spReset h t) _ s1 h1
  have h3 : s3.Inv := inv_foldl (fun _ r h => inv_regionHome h r) _ s2 h2
  have h4 : s4.Inv := inv_foldl (fun _ kt h => inv_scrubTile h cn kt) _ s3 h3
  have h5 : s5.Inv := inv_foldl (fun _ f h => inv_scrubFace h f) _ s4 h4
  exact h5

/-! ### Links, page ownership, resets of a die -/

theorem inv_raiseLevel {s : State} (h : s.Inv) : (raiseLevel s).Inv := by
  unfold raiseLevel
  split <;> exact h

theorem inv_linkControl {s : State} (h : s.Inv) (n req : Nat) : (linkControl s n req).Inv := by
  unfold linkControl
  split <;> exact h

theorem keeps_execQuiesce {s : State} (h : s.Inv) (n : Nat) : KeepsForm (execQuiesce n s) := by
  unfold execQuiesce
  refine keepsForm_next ?_
  grind [inv_inOrder, inv_linkControl]

theorem keeps_execResume {s : State} (h : s.Inv) (n : Nat) : KeepsForm (execResume n s) := by
  unfold execResume
  refine keepsForm_next ?_
  grind [inv_inOrder, inv_linkControl]

theorem keeps_execRetrain {s : State} (h : s.Inv) (n : Nat) : KeepsForm (execRetrain n s) := by
  unfold execRetrain
  refine keepsForm_next ?_
  grind [inv_inOrder, inv_linkControl]

theorem keeps_execLinkQuiesced {s : State} (h : s.Inv) (n : Nat) : KeepsForm (execLinkQuiesced n s) := by
  unfold execLinkQuiesced
  refine keepsForm_next ?_
  exact h

theorem keeps_execRetrainComplete {s : State} (h : s.Inv) (n : Nat) : KeepsForm (execRetrainComplete n s) := by
  unfold execRetrainComplete
  refine keepsForm_next ?_
  grind [inv_raiseLevel, inv_modLink]

theorem keeps_execLaneLockLoss {s : State} (h : s.Inv) (n : Nat) : KeepsForm (execLaneLockLoss n s) := by
  unfold execLaneLockLoss
  refine keepsForm_next ?_
  exact h

theorem inv_peerRequest {s : State} (h : s.Inv) (n : Nat) (payload : BitVec 1920) : (peerRequest s n payload).Inv := by
  unfold peerRequest
  dsimp only
  split
  · exact h
  refine inv_modLink ?_ _ _
  have hr := inv_hubRead h (Config.peerAtomicAt payload / 8 * 8) 8
  split
  · exact hr
  · exact inv_hubWrite hr _ _

theorem keeps_execFlitReceive {s : State} (h : s.Inv) (n : Nat) (f : BitVec 2048) (good : Bool) : KeepsForm (execFlitReceive n f good s) := by
  refine keepsForm_next ?_
  split
  · exact h
  lift_lets
  intro t
  have ht : t.Inv := inv_modLink h _ _
  split
  · split
    · exact h
    · exact inv_peerRequest ht _ _
  · exact ht

theorem keeps_execAckTimeout {s : State} (h : s.Inv) (n : Nat) : KeepsForm (execAckTimeout n s) := by
  unfold execAckTimeout
  refine keepsForm_next ?_
  exact h

theorem inv_yieldRegion {s : State} (h : s.Inv) (r : Nat) : (yieldRegion s r).Inv := by
  unfold yieldRegion
  lift_lets
  intro s1 s2 s3
  have h1 : s1.Inv := inv_spReleaseIf (inv_recallExcls (inv_recallToken h r) r) _
  have h2 : s2.Inv := inv_foldl (fun _ t h => inv_drainIf h t _) _ s1 h1
  have h3 : s3.Inv := inv_foldl (fun _ t h => inv_dropIf h t _) _ s2 h2
  exact h3

theorem inv_moveOut {s : State} (h : s.Inv) (p r : Nat) : (moveOut s p r).Inv := by
  unfold moveOut
  grind [inv_setRegion, inv_recallExcls, inv_recallToken]

theorem inv_askOwner {s : State} (h : s.Inv) (p page n : Nat) : (askOwner s p page n).Inv := by
  unfold askOwner
  lift_lets
  intro who sent
  have hs : (sent s).Inv := inv_sendFlit h _ _ _ _
  split
  · exact h
  split
  · split
    · split
      · exact inv_setRegion hs _ _
      · exact h
    · exact h
  · split
    · exact hs
    · exact h

theorem keeps_execOwnershipRequest {s : State} (h : s.Inv) (p page : Nat) (mine : Bool) : KeepsForm (execOwnershipRequest p page mine s) := by
  refine keepsForm_next ?_
  split
  · split
    · exact h
    · exact inv_askOwner h _ _ _
  split
  · exact h
  next n _ =>
  split
  · exact h
  lift_lets
  intro s1
  have h1 : s1.Inv := h
  have hq : ∀ free : Bool, (if free then moveOut s1 p page else { s1 with peerReqs := s1.peerReqs ++ [(p, page)] }).Inv := fun _ => inv_ite (inv_moveOut h1 p page) h1
  split
  · exact hq _
  · exact hq _
  · exact hq _
  · exact h1

theorem inv_comeHome_grantHere {s : State} (h : s.Inv) (r : Nat) (soft : Bool) : (comeHome.grantHere s r soft).Inv := h

theorem inv_comeHome {s : State} (h : s.Inv) (r : Nat) (soft : Bool) : (comeHome s r soft).Inv := by
  unfold comeHome
  split
  · grind [State.Inv, inv_comeHome_grantHere, inv_setRegion]
  · exact h

theorem inv_bringPage {s : State} (h : s.Inv) (page : Nat) (data : List Host.Cell) : (bringPage s page data).Inv := by
  unfold bringPage
  split
  · exact inv_foldl (fun _ c h => inv_pokeByte h _ _) _ s h
  · exact Memory.wf_foldWrite _ _ _ (Memory.wf_zero _ _ _ h)

theorem inv_answered {s : State} (h : s.Inv) (p page : Nat) (mine : Bool) : (answered s p page mine).Inv := h

/-- The tables of page ownership are not memory. -/
theorem inv_setPeerReqs {s : State} (h : s.Inv) (l : List (Nat × Nat)) : State.Inv { s with peerReqs := l } := h
theorem inv_setGrants {s : State} (h : s.Inv) (g : Tbl Nat) : State.Inv { s with grants := g } := h
theorem inv_setOwned {s : State} (h : s.Inv) (l : List Nat) : State.Inv { s with owned := l } := h
theorem inv_setOwnReqs {s : State} (h : s.Inv) (l : List PageReq) : State.Inv { s with ownReqs := l } := h
theorem inv_disown {s : State} (h : s.Inv) (l : List Nat) (r : Tbl RStat) : State.Inv { s with owned := l, regions := r } := h
theorem keeps_execOwnershipTransfer {s : State} (h : s.Inv) (p page : Nat) (mine : Bool) (data : List Host.Cell) :
    KeepsForm (execOwnershipTransfer p page mine data s) := by
  have hb := inv_bringPage h page data
  have hy := inv_yieldRegion h page
  refine keepsForm_next (inv_ite h (inv_ite ?_ (inv_ite h (inv_ite (inv_ite h ?_) (inv_ite h ?_)))))
  · have hm := inv_ite (c := (!mine && nextFor s page = some p && holdOver s page && !regionHeld s page) = true)
      (inv_moveOut (inv_setPeerReqs h (s.peerReqs.erase (p, page))) p page) h
    cases Tbl.get s.regions .home page with
    | moving q soft out =>
      exact inv_ite h (inv_ite (inv_comeHome (inv_bringPage (inv_answered h _ _ _) _ _) _ _)
        (inv_ite h (inv_answered (inv_setGrants (inv_setRegion hy _ _) _) _ _ _)))
    | remote q soft => exact h
    | home => exact hm
    | held t => exact hm
    | soft => exact hm
    | switching => exact hm
  · exact inv_answered (inv_setGrants (inv_setRegion (inv_setOwned (inv_setOwnReqs hb _) _) _ _) _) _ _ _
  · exact inv_answered (inv_disown hy _ _) _ _ _

theorem inv_poisonRegion {s : State} (h : s.Inv) (r : Nat) : (poisonRegion s r).Inv := by
  refine inv_foldl ?_ _ s h
  exact fun _ _ h => h

theorem inv_refusePeers {s : State} (h : s.Inv) (r : Nat) : (refusePeers s r).Inv := by
  unfold refusePeers
  grind [State.Inv, inv_modLink, inv_foldl]

theorem inv_stayHome {s : State} (h : s.Inv) (p : Nat) : (stayHome s p).Inv := by
  unfold stayHome
  grind [inv_comeHome, inv_foldl]

theorem inv_loseReqs {s : State} (h : s.Inv) (rs : List Nat) : (loseReqs s rs).Inv := h

theorem keeps_execOwnerUnreachable {s : State} (h : s.Inv) (p : Nat) : KeepsForm (execOwnerUnreachable p s) := by
  refine keepsForm_next ?_
  split
  · exact h
  lift_lets
  intro rs s1
  have h1 : s1.Inv := by
    refine inv_stayHome ?_ p
    exact h
  exact inv_foldl (fun _ r h => inv_setRegion (inv_refusePeers (inv_poisonRegion h r) r) r .home) rs _ (inv_loseReqs h1 rs)

theorem inv_failCarried {s : State} (h : s.Inv) (n : Nat) : (failCarried s n).Inv := by
  unfold failCarried
  grind [State.Inv, inv_loseReqs, inv_setRegion, inv_comeHome, inv_foldl]

theorem inv_failInFlight {s : State} (h : s.Inv) (n : Nat) : (failInFlight s n).Inv := by
  unfold failInFlight
  split
  · exact h
  · grind [State.Inv, inv_failCarried]

theorem keeps_execTrainingFailure {s : State} (h : s.Inv) (n : Nat) : KeepsForm (execTrainingFailure n s) := by
  unfold execTrainingFailure
  refine keepsForm_next ?_
  dsimp only
  grind [inv_raiseLevel, inv_failInFlight, inv_modLink]

theorem keeps_execRetrainTimeout {s : State} (h : s.Inv) (n : Nat) : KeepsForm (execRetrainTimeout n s) := by
  unfold execRetrainTimeout
  refine keepsForm_next ?_
  dsimp only
  grind [inv_raiseLevel, inv_failInFlight, inv_modLink]

theorem inv_startDieReset {s : State} (h : s.Inv) (d : Nat) : (startDieReset s d).Inv := by
  unfold startDieReset
  grind [State.Inv, inv_allotStop, inv_modLink, inv_foldl]

theorem inv_dierstWrite {s : State} (h : s.Inv) (v : Word) : (dierstWrite s v).Inv := by
  unfold dierstWrite
  split
  · exact h
  · grind [State.Inv, inv_startDieReset]

theorem keeps_execDierst {s : State} (h : s.Inv) (v : Word) : KeepsForm (execDierst v s) := by
  unfold execDierst
  refine keepsForm_next ?_
  grind [inv_inOrder, inv_dierstWrite]

theorem keeps_execDieFatalError {s : State} (h : s.Inv) (d : Nat) : KeepsForm (execDieFatalError d s) := by
  unfold execDieFatalError
  refine keepsForm_next ?_
  split
  · exact h
  · grind [inv_startDieReset]

theorem keeps_execHomeMove {s : State} (h : s.Inv) (d : Nat) : KeepsForm (execHomeMove d s) := by
  unfold execHomeMove
  refine keepsForm_next ?_
  dsimp only
  split
  · exact h
  · grind [State.Inv, inv_drainIf, inv_spReset, inv_foldl]

theorem inv_poisonDirty {s : State} (h : s.Inv) (t : Nat) : (poisonDirty s t).Inv := by
  unfold poisonDirty
  grind [State.Inv, inv_foldl]

theorem inv_zeroTile {s : State} (h : s.Inv) (t : Nat) : (zeroTile s t).Inv := by
  unfold zeroTile
  grind [State.Inv, inv_poisonDirty, inv_zeroRange]

theorem keeps_execDieReset {s : State} (h : s.Inv) (d : Nat) : KeepsForm (execDieReset d s) := by
  unfold execDieReset
  refine keepsForm_next ?_
  dsimp only
  split
  · exact h
  · grind [State.Inv, inv_modLink, inv_zeroTile, inv_dropAct, inv_foldl]

theorem keeps_execDieReadmit {s : State} (h : s.Inv) (d : Nat) : KeepsForm (execDieReadmit d s) := by
  unfold execDieReadmit
  refine keepsForm_next ?_
  dsimp only
  grind [State.Inv, inv_raiseLevel, inv_writeRanks]

/-! ### The loader -/

theorem inv_loaderWrite {s : State} (h : s.Inv) (cn : Nat) (va : Word) (l : List Byte) : (loaderWrite s cn va l).1.Inv := by
  induction l generalizing s cn va with
  | nil => exact h
  | cons x l ih =>
    unfold loaderWrite
    split
    · grind [inv_translateHub]
    · grind [inv_hubOwn, inv_hubWrite, inv_translateHub]

theorem inv_setKinds {s : State} (h : s.Inv) (cn va n : Nat) (kind : Bool) : (setKinds s cn va n kind).Inv := by
  unfold setKinds
  split <;> grind [inv_hubRead, inv_hubWrite, inv_foldl]

theorem inv_copySegs {s : State} (h : s.Inv) (cn : Nat) (base : Word) (bs : List Byte) (l : List ElfSeg) : (copySegs s cn base bs l).1.Inv := by
  induction l generalizing s with
  | nil => exact h
  | cons g l ih =>
    unfold copySegs
    dsimp only
    split
    · exact ih h
    have hw := inv_loaderWrite h cn (base + BitVec.ofNat 64 g.va) (segBytes bs base g ++ List.replicate (g.memsz - g.filesz) 0)
    split
    · next hx => exact inv_of_eq hw hx
    · next hx =>
      have h1 := inv_of_eq hw hx
      refine ih ?_
      split
      · exact inv_setKinds h1 _ _ _ _
      · exact h1

theorem keeps_execLoad {s : State} (h : s.Inv) (q : Nat) : KeepsForm (execLoad q s) := by
  refine keepsForm_next (inv_ctxPacket h _ _ _ _ fun s p h => ?_)
  split
  · exact inv_finish h _ _ _
  split
  · next hx => exact inv_finish (inv_of_eq (inv_hubCheck h _ _ _ _) hx) _ _ _
  next hx =>
  have h1 := inv_of_eq (inv_hubCheck h _ _ _ _) hx
  split
  · next hx => exact inv_failPkt (inv_of_eq (inv_hubReadVa _ _ h1 _) hx) _ _
  next hx =>
  have h2 := inv_of_eq (inv_hubReadVa _ _ h1 _) hx
  dsimp only
  split
  · exact inv_finish h2 _ _ _
  split
  · next hx => exact inv_failPkt (inv_of_eq (inv_copySegs h2 _ _ _ _) hx) _ _
  · next hx => exact inv_finish (inv_appendEvent (inv_modCtx (inv_of_eq (inv_copySegs h2 _ _ _ _) hx) _ _) _ _ _) _ _ _

/-! ### Launches -/

theorem inv_bufsOk {s : State} (h : s.Inv) (cn : Nat) (l : List (BitVec 256)) : (bufsOk s cn l).1.Inv := by
  induction l generalizing s cn with
  | nil => exact h
  | cons x l ih =>
    unfold bufsOk
    split
    · exact h
    · grind [inv_hubCheck]

theorem inv_pageKind {s : State} (h : s.Inv) (cn : Nat) (a : Word) : (pageKind s cn a).1.Inv := by
  unfold pageKind
  split
  · grind [inv_walk]
  · grind [State.Inv, inv_walk]

theorem inv_handlerOk {s : State} (h : s.Inv) (cn : Nat) (o : CodeObj) (at_ : Word) (h : BitVec 512) : (handlerOk s cn o at_ h).1.Inv := by
  unfold handlerOk
  split
  · grind
  · grind [inv_pageKind]

theorem inv_launchShape {s : State} (h : s.Inv) (cn : Nat) (pkt hdrAt : Word) (h : BitVec 512) : (launchShape s cn pkt hdrAt h).1.Inv := by
  unfold launchShape
  split <;> grind [inv_hubCheck, inv_hubReadVa]

theorem inv_launchCheck {s : State} (h : s.Inv) (p : Pkt) : (launchCheck s p).1.Inv := by
  unfold launchCheck
  grind [inv_hubReadVa, inv_pageKind, inv_handlerOk, inv_launchShape]

theorem inv_acceptLaunch {s : State} (h : s.Inv) (p : Pkt) (bufs : List Buf) (args : List Byte) (x : CodeObj × List Placement × BitVec 512 × BitVec 512) :
    (acceptLaunch s p bufs args x).Inv := by
  unfold acceptLaunch
  split
  · grind [inv_hubCheck, inv_failPkt, inv_finish, inv_hubWriteVa, inv_appendEvent, inv_modCtx, inv_setKern, inv_fresh]

theorem keeps_execLaunch {s : State} (h : s.Inv) (q : Nat) : KeepsForm (execLaunch q s) := by
  refine keepsForm_next (inv_ctxPacket h _ _ _ _ fun s p h => ?_)
  split
  · exact inv_finish h _ _ _
  split
  · next hx => exact inv_finish (inv_of_eq (inv_hubCheck h _ _ _ _) hx) _ _ _
  next hx =>
  have h1 := inv_of_eq (inv_hubCheck h _ _ _ _) hx
  split
  · next hx => exact inv_finish (inv_of_eq (inv_hubCheck h1 _ _ _ _) hx) _ _ _
  next hx =>
  have h2 := inv_of_eq (inv_hubCheck h1 _ _ _ _) hx
  split
  · next hx => exact inv_failPkt (inv_of_eq (inv_hubReadVa _ _ h2 _) hx) _ _
  next hx =>
  have h3 := inv_of_eq (inv_hubReadVa _ _ h2 _) hx
  split
  · next hx => exact inv_finish (inv_of_eq (inv_bufsOk h3 _ _) hx) _ _ _
  next hx =>
  have h4 := inv_of_eq (inv_bufsOk h3 _ _) hx
  split
  · next hx => exact inv_finish (inv_of_eq (inv_launchCheck h4 _) hx) _ _ _
  next hx =>
  have h5 := inv_of_eq (inv_launchCheck h4 _) hx
  split
  · next hx => exact inv_failPkt (inv_of_eq (inv_hubReadVa _ _ h5 _) hx) _ _
  · next hx => exact inv_acceptLaunch (inv_of_eq (inv_hubReadVa _ _ h5 _) hx) _ _ _ _

/-! ### The other packets -/

theorem keeps_execCopy {s : State} (h : s.Inv) (q : Nat) : KeepsForm (execCopy q s) := by
  unfold execCopy
  refine keepsForm_next (inv_ctxPacket h _ _ _ _ fun s p h => ?_)
  split
  · grind [inv_finish, inv_hubCheck]
  · grind [inv_hubCheck, inv_finish, inv_hubReadVa, inv_failPkt, inv_hubWriteVa]

theorem keeps_execReceipt {s : State} (h : s.Inv) (q : Nat) : KeepsForm (execReceipt q s) := by
  unfold execReceipt
  refine keepsForm_next (inv_ctxPacket h _ _ _ _ fun s p h => ?_)
  dsimp only
  split
  · grind [inv_finish]
  · grind [State.Inv, inv_outCheck, inv_finish]

theorem keeps_execBarrier {s : State} (h : s.Inv) (q : Nat) : KeepsForm (execBarrier q s) := by
  unfold execBarrier
  refine keepsForm_next (inv_ctxPacket h _ _ _ _ fun s p h => ?_)
  exact h

theorem keeps_execSignal {s : State} (h : s.Inv) (q : Nat) : KeepsForm (execSignal q s) := by
  unfold execSignal
  refine keepsForm_next (inv_ctxPacket h _ _ _ _ fun s p h => ?_)
  split
  · grind [inv_finish]
  · grind [inv_hubCheck, inv_finish, inv_hubWriteVa, inv_failPkt]

theorem inv_preemptPacket {s : State} (h : s.Inv) (q : Nat) (restore : Bool) : (preemptPacket q restore s).Inv := by
  unfold preemptPacket
  split
  · grind [inv_ctxPacket, inv_finish, inv_requestPreempt, inv_modQueue, inv_foldl]
  · grind [inv_ctxPacket, inv_finish, inv_requestRestore, inv_modQueue, inv_foldl]

theorem keeps_execPreempt {s : State} (h : s.Inv) (q : Nat) : KeepsForm (execPreempt q s) := by
  unfold execPreempt
  refine keepsForm_next ?_
  grind [inv_preemptPacket]

theorem keeps_execRestore {s : State} (h : s.Inv) (q : Nat) : KeepsForm (execRestore q s) := by
  unfold execRestore
  refine keepsForm_next ?_
  grind [inv_preemptPacket]

theorem keeps_execGrouptab {s : State} (h : s.Inv) (q : Nat) : KeepsForm (execGrouptab q s) := by
  unfold execGrouptab
  refine keepsForm_next (inv_ctxPacket h _ _ _ _ fun s p h => ?_)
  dsimp only
  split
  · grind [inv_finish, inv_modCtx]
  · grind [inv_hubCheck, inv_finish, inv_hubReadVa, inv_failPkt, inv_modCtx]

theorem keeps_execPeertab {s : State} (h : s.Inv) (q : Nat) : KeepsForm (execPeertab q s) := by
  unfold execPeertab
  refine keepsForm_next (inv_takePacket h _ _ fun s p h => ?_)
  dsimp only
  split
  · grind [inv_finish]
  · grind [State.Inv, inv_finish]

theorem keeps_execBadkind {s : State} (h : s.Inv) (q : Nat) : KeepsForm (execBadkind q s) := by
  unfold execBadkind
  refine keepsForm_next (inv_takePacket h _ _ fun s p h => ?_)
  grind [inv_finish]

end Sys2Proof.Proofs
end

section
/-!
PROOFS. The canonical form of memory through firmware, handles, the host's registers and pages.
-/
namespace Sys2Proof.Proofs
open Sys2Proof Sys2Proof.Machine Sys2Proof.Machine.State Sys2Proof.Claims
open Host (Outcome)

/-! ### Firmware, bring-up and limits -/

theorem inv_fwallWrite {s : State} (h : s.Inv) (t : Nat) (v : BitVec 9) : (fwallWrite s t v).Inv := h

theorem inv_startFirmware {s : State} (h : s.Inv) (gen t : Nat) : (startFirmware s gen t).Inv := h

theorem inv_bootLoad {s : State} (h : s.Inv) : (bootLoad s).Inv := by
  unfold bootLoad
  split
  · exact h
  · grind [State.Inv, inv_fwallWrite, inv_modTile, inv_startFirmware, inv_foldl]

theorem keeps_execLinkTrained {s : State} (h : s.Inv) (n : Nat) (lanes : BitVec 8) (rate : BitVec 12) :
    KeepsForm (execLinkTrained n lanes rate s) := by
  unfold execLinkTrained
  refine keepsForm_next ?_
  split <;> grind [inv_bootLoad, inv_raiseLevel, inv_modLink]

theorem keeps_execColdReset {s : State} (h : s.Inv) : KeepsForm (execColdReset s) := keepsForm_next (Memory.wf_filter s.mem _ h)

theorem keeps_execSelfCheckTimeout {s : State} (h : s.Inv) : KeepsForm (execSelfCheckTimeout s) := by
  unfold execSelfCheckTimeout
  refine keepsForm_next ?_
  dsimp only
  split
  · exact h
  · grind [State.Inv, inv_bootLoad]

theorem inv_levelOne {s : State} (h : s.Inv) : (levelOne s).Inv := h

theorem keeps_execImageReady {s : State} (h : s.Inv) : KeepsForm (execImageReady s) := by
  unfold execImageReady
  refine keepsForm_next ?_
  dsimp only
  split <;> exact h

theorem keeps_execDieAdmit {s : State} (h : s.Inv) (d : Nat) : KeepsForm (execDieAdmit d s) := by
  unfold execDieAdmit
  refine keepsForm_next ?_
  dsimp only
  split
  · exact h
  · grind [State.Inv, inv_raiseLevel, inv_writeRanks]

theorem inv_setStat {s : State} (h : s.Inv) (v : BitVec 8) : (setStat s v).Inv := h

theorem inv_storeSeg {s : State} (h : s.Inv) : (storeSeg s).1.Inv := by
  unfold storeSeg
  split
  · exact h
  · grind [State.Inv, inv_busRead, inv_setStat]

theorem inv_modReeve {s : State} (h : s.Inv) (f : Tile → Tile) : (modReeve s f).Inv := by
  unfold modReeve
  grind [inv_modTile, inv_foldl]

theorem inv_startHandover {s : State} (h : s.Inv) : (startHandover s).Inv := by
  unfold startHandover
  split
  · exact h
  · grind [State.Inv, inv_modReeve]

theorem inv_mailbox {s : State} (h : s.Inv) (store handover : Bool) : (mailbox s store handover).Inv := by
  unfold mailbox
  split
  · exact h
  · grind [inv_storeSeg, inv_startHandover, inv_setStat]

theorem inv_fwcmd {s : State} (h : s.Inv) (n : Word) : (fwcmd n s).Inv := by
  unfold fwcmd
  split
  · exact inv_orPosted h _ (inv_mailbox h _ _)
  · exact inv_mailbox h _ _
  · exact inv_orPosted h _ (inv_mailbox h _ _)
  · split
    · exact h
    · exact h

theorem keeps_execFwcmdStore {s : State} (h : s.Inv) : KeepsForm (execFwcmdStore s) := by
  unfold execFwcmdStore
  refine keepsForm_next ?_
  grind [inv_inOrder, inv_fwcmd]

theorem keeps_execFwcmdHandover {s : State} (h : s.Inv) : KeepsForm (execFwcmdHandover s) := by
  unfold execFwcmdHandover
  refine keepsForm_next ?_
  grind [inv_inOrder, inv_fwcmd]

theorem keeps_execFwcmdStoreHandover {s : State} (h : s.Inv) : KeepsForm (execFwcmdStoreHandover s) := by
  unfold execFwcmdStoreHandover
  refine keepsForm_next ?_
  grind [inv_inOrder, inv_fwcmd]

theorem inv_takeHeld {s : State} (h : s.Inv) : (takeHeld s).Inv := by
  unfold takeHeld
  grind [State.Inv, inv_complete, inv_foldl]

theorem keeps_execSelfCheckComplete {s : State} (h : s.Inv) (pass : Bool) : KeepsForm (execSelfCheckComplete pass s) := by
  unfold execSelfCheckComplete
  refine keepsForm_next ?_
  dsimp only
  split
  · exact h
  · grind [State.Inv, inv_takeHeld, inv_modReeve]

theorem keeps_execHandoverCommit {s : State} (h : s.Inv) : KeepsForm (execHandoverCommit s) := by
  refine keepsForm_next (inv_heldBack (fun _ => h) ?_)
  split
  · exact h
  split
  · exact h
  dsimp only
  refine inv_takeHeld (inv_foldl (fun _ kc h => inv_appendEvent h kc.1 6 _) _ _ (inv_modReeve ?_ _))
  exact h

theorem keeps_execReceiptSigned {s : State} (h : s.Inv) : KeepsForm (execReceiptSigned s) := by
  refine keepsForm_next (inv_heldBack (fun _ => h) ?_)
  split
  · exact h
  next r rest _ =>
  split
  · exact h
  lift_lets
  intro fw s1 compl fw1 s2 body bs
  have h1 : s1.Inv := h
  have h2 : s2.Inv := h
  have hw := inv_outWrite h2 r.ctx r.out bs
  split
  · exact inv_complete h1 _ _
  split
  · next hx => exact inv_complete (inv_of_eq hw hx) _ _
  · next hx => exact inv_complete (inv_of_eq hw hx) _ _

theorem inv_preemptTiles {s : State} (h : s.Inv) (p : Nat → Bool) : (preemptTiles s p).Inv := by
  unfold preemptTiles
  grind [inv_requestPreempt, inv_foldl]

theorem keeps_execThermalSample {s : State} (h : s.Inv) (dies stackTemps : List Nat) (hub : Nat) :
    KeepsForm (execThermalSample dies stackTemps hub s) := by
  unfold execThermalSample
  refine keepsForm_next ?_
  dsimp only
  split
  · grind [State.Inv, inv_serviceZero, inv_preemptTiles]
  · grind [State.Inv, inv_preemptTiles, inv_levelOne]

theorem keeps_execThermalTrip {s : State} (h : s.Inv) (d : Nat) : KeepsForm (execThermalTrip d s) := by
  unfold execThermalTrip
  refine keepsForm_next ?_
  dsimp only
  split <;> exact h

theorem keeps_execPowerLoss {s : State} (h : s.Inv) : KeepsForm (execPowerLoss s) := by
  unfold execPowerLoss
  refine keepsForm_next ?_
  dsimp only
  exact h

/-! ### Handles and the events of threads -/

theorem inv_fillStatus {s : State} (h : s.Inv) (k i : Nat) (from_ : Option (Word × Bool)) (h st : Word) :
    (fillStatus s k i from_ h st).Inv := by
  unfold fillStatus
  grind [inv_acquireDevice, inv_setThr]

theorem inv_statusDue {s : State} (h : s.Inv) (ctx : Nat) (h : Word) : (statusDue s ctx h).Inv := by
  unfold statusDue
  split
  · grind [inv_reap]
  · grind [inv_shareStatus]

theorem inv_lateStatus {s : State} (h : s.Inv) (tile inst : Nat) (w : LateWait) : (lateStatus s tile inst w).Inv := by
  unfold lateStatus
  split
  · grind [inv_sendLate, inv_acquireDevice]
  · exact h

theorem keeps_execEWait {s : State} (h : s.Inv) (f : Form) : KeepsForm (execEWait f s) := by
  unfold execEWait
  split
  · refine keepsForm_next (inv_runC h _ _ ?_)
    exact h
  dsimp only
  split
  · refine keepsForm_next ?_
    split
    · exact h
    · exact inv_lateStatus (inv_statusDue h _ _) _ _ _
  · refine keepsForm_next (inv_runG h _ _ fun e => ?_)
    exact inv_modInst h _ _

theorem keeps_execETest {s : State} (h : s.Inv) (f : Form) : KeepsForm (execETest f s) := by
  unfold execETest
  split
  · refine keepsForm_next (inv_runC h _ _ ?_)
    exact h
  · refine keepsForm_next (inv_runG h _ _ fun e => ?_)
    exact h

theorem keeps_execECancel {s : State} (h : s.Inv) (f : CForm) : KeepsForm (execECancel f s) := by
  unfold execECancel
  refine keepsForm_next (inv_runC h _ _ ?_)
  dsimp only
  split
  · exact h
  · grind [BRes.state, inv_retX, inv_cancelErrand]

theorem keeps_execEDetach {s : State} (h : s.Inv) (f : CForm) : KeepsForm (execEDetach f s) := by
  unfold execEDetach
  refine keepsForm_next (inv_runC h _ _ ?_)
  dsimp only
  split
  · exact h
  · grind [BRes.state, inv_retX, inv_settleAll, inv_setErrand]

theorem keeps_execEAdopt {s : State} (h : s.Inv) (f : CForm) : KeepsForm (execEAdopt f s) := by
  unfold execEAdopt
  refine keepsForm_next (inv_runC h _ _ ?_)
  dsimp only
  split
  · exact h
  · grind [BRes.state, inv_retX, inv_settleAll, inv_setErrand]

theorem keeps_execEPrio {s : State} (h : s.Inv) (f : CForm) : KeepsForm (execEPrio f s) := by
  unfold execEPrio
  refine keepsForm_next (inv_runC h _ _ ?_)
  dsimp only
  split <;> exact h

theorem keeps_execEFault {s : State} (h : s.Inv) (f : CForm) : KeepsForm (execEFault f s) := by
  unfold execEFault
  refine keepsForm_next (inv_runC h _ _ ?_)
  split <;> exact h

theorem keeps_execFetchTrap {s : State} (h : s.Inv) (k : Nat) : KeepsForm (execFetchTrap k s) := by
  unfold execFetchTrap
  refine keepsForm_next ?_
  dsimp only
  split <;> grind [inv_fetchC, inv_toSlot, inv_takeFetchTrap]

theorem keeps_execLongLatencyFill {s : State} (h : s.Inv) (k i : Nat) : KeepsForm (execLongLatencyFill k i s) := by
  unfold execLongLatencyFill
  refine keepsForm_next ?_
  dsimp only
  split
  · exact h
  · grind [inv_modThr, inv_fillStatus, inv_reap, inv_setThr]

theorem keeps_execStoreAccept {s : State} (h : s.Inv) (k i : Nat) : KeepsForm (execStoreAccept k i s) := by
  unfold execStoreAccept
  refine keepsForm_next ?_
  dsimp only
  split
  · exact h
  · grind [inv_setThr]

theorem keeps_execErrorReply {s : State} (h : s.Inv) (k : Nat) (store : Bool) (i : Nat) : KeepsForm (execErrorReply k store i s) := by
  unfold execErrorReply
  refine keepsForm_next ?_
  dsimp only
  split <;> grind [inv_setThr]

theorem keeps_execCrossCallReturn {s : State} (h : s.Inv) (k : Nat) : KeepsForm (execCrossCallReturn k s) := by
  refine keepsForm_next ?_
  refine inv_ite h ?_
  cases (s.thr k).fills.findIdx? fun f => match f.kind with | .call _ => true | _ => false with
  | none => exact h
  | some i =>
    dsimp only
    cases (s.thr k).fills[i]? with
    | none => exact h
    | some f =>
      dsimp only
      split
      · next fa _ =>
        have hf := inv_frameDone h { tile := tileOf k, ctx := (s.thr k).ctx } fa
        split
        · next hx => exact inv_of_eq hf hx
        · next hx => exact inv_modThr (inv_of_eq hf hx) _ _
      · exact h

theorem keeps_execLinePoisoning {s : State} (h : s.Inv) (line : Nat) : KeepsForm (execLinePoisoning line s) := by
  unfold execLinePoisoning
  refine keepsForm_next ?_
  split <;> exact h

theorem keeps_execCorrectedError {s : State} (h : s.Inv) (channel : Nat) : KeepsForm (execCorrectedError channel s) := by
  unfold execCorrectedError
  refine keepsForm_next ?_
  split <;> exact h

/-! ### The host's side -/

theorem inv_onQueue {s : State} (h : s.Inv) (q : Nat) (f : Queue → Queue) : (onQueue s q f).Inv := by
  unfold onQueue
  split <;> exact h

theorem inv_pw4Write {s : State} (h : s.Inv) (q off : Nat) (v : Word) : (pw4Write s q off v).Inv := by
  unfold pw4Write
  grind [inv_onQueue]

theorem inv_limitWrite {s : State} (h : s.Inv) (v : Word) : (limitWrite s v).Inv := h

theorem inv_lmaxWrite {s : State} (h : s.Inv) (cn : Nat) (v : Word) : (lmaxWrite s cn v).Inv := by
  unfold lmaxWrite
  split <;> exact h

theorem inv_facesNow {s : State} (h : s.Inv) : (facesNow s).Inv := h

theorem inv_mapseqWrite {s : State} (h : s.Inv) (cn : Nat) (v : Word) : (mapseqWrite s cn v).Inv := by
  unfold mapseqWrite
  split <;> exact h

theorem inv_transWrite {s : State} (h : s.Inv) (cn off : Nat) (v : Word) : (transWrite s cn off v).Inv := by
  unfold transWrite
  split
  · grind [inv_lmaxWrite]
  · grind [inv_mapseqWrite]
  · exact h

theorem keeps_execMapdoneAdvance {s : State} (h : s.Inv) (cn : Nat) : KeepsForm (execMapdoneAdvance cn s) := by
  unfold execMapdoneAdvance
  refine keepsForm_next ?_
  dsimp only
  split
  · exact h
  · grind [State.Inv, inv_modCtx]

theorem inv_reply {s : State} (h : s.Inv) (f : Nat) (v : Word) : (reply s f v).Inv := h

theorem inv_readLerr {s : State} (h : s.Inv) (n : Nat) : (readLerr s n).1.Inv := h

theorem inv_readPw2err {s : State} (h : s.Inv) (f : Nat) : (readPw2err s f).1.Inv := h

theorem inv_writePw2 {s : State} (h : s.Inv) (f : Nat) (base : Bool) (v : Word) : (writePw2 s f base v).Inv := h

theorem inv_countPw2 {s : State} (h : s.Inv) (f : Nat) : (countPw2 s f).Inv := h

theorem inv_pw2Reply {s : State} (h : s.Inv) (f : Nat) (r : Option (List Byte)) : (pw2Reply s f r).Inv := h

theorem inv_pw2ReadNow {s : State} (h : s.Inv) (f off n : Nat) : (pw2ReadNow f off n s).Inv := by
  unfold pw2ReadNow
  split
  · exact h
  · grind [inv_pw2Reply, inv_orPosted, inv_pw2Check, inv_countPw2, inv_pw2Read]

theorem inv_pw2WriteNow {s : State} (h : s.Inv) (f off : Nat) (bs : List Byte) : (pw2WriteNow f off bs s).Inv := by
  unfold pw2WriteNow
  split
  · exact h
  · grind [inv_orPosted, inv_pw2Check, inv_countPw2, inv_pw2Write]

theorem inv_hostStores {s : State} (h : s.Inv) (a : Nat) (bs : List Byte) : (hostStores s a bs).Inv := by
  unfold hostStores
  split
  · exact inv_writeMem h _ _
  · exact h

theorem inv_dropQueues {s : State} (h : s.Inv) (f : Nat) : (dropQueues s f).Inv := h

theorem keeps_execFunctionLevelReset {s : State} (h : s.Inv) (f : Nat) : KeepsForm (execFunctionLevelReset f s) := by
  unfold execFunctionLevelReset
  refine keepsForm_next ?_
  dsimp only
  grind [inv_beginTeardown, inv_dropQueues, inv_foldl]

/-! ### Walks and leases -/

theorem inv_walkDone {s : State} (h : s.Inv) (i : Nat) (w : Walk) (l : Leaf) : (walkDone s i w l).Inv := by
  unfold walkDone
  split
  · grind [State.Inv, inv_tlbInstall, inv_foldl]
  · grind [State.Inv, inv_tlbInstall, inv_bringLines, inv_foldl]

theorem inv_walkFailed {s : State} (h : s.Inv) (i : Nat) (w : Walk) (f : Fail) : (walkFailed s i w f).Inv := h

theorem keeps_execWalkComplete {s : State} (h : s.Inv) (i : Nat) : KeepsForm (execWalkComplete i s) := by
  unfold execWalkComplete
  refine keepsForm_next ?_
  split
  · exact h
  · grind [inv_walk, inv_walkFailed, inv_walkDone]

theorem keeps_execWalkInstallTimeout {s : State} (h : s.Inv) (i : Nat) : KeepsForm (execWalkInstallTimeout i s) := by
  unfold execWalkInstallTimeout
  refine keepsForm_next ?_
  split
  · exact h
  · grind [inv_walk]

theorem keeps_execLeaseExpiry {s : State} (h : s.Inv) (unit i : Nat) : KeepsForm (execLeaseExpiry unit i s) := by
  unfold execLeaseExpiry
  refine keepsForm_next ?_
  split
  · exact h
  · grind [State.Inv]

theorem keeps_execLineEviction {s : State} (h : s.Inv) (tile ln : Nat) : KeepsForm (execLineEviction tile ln s) := by
  unfold execLineEviction
  refine keepsForm_next ?_
  split
  · grind [inv_spLineBack]
  · grind [State.Inv, inv_evictLine]

/-! ### Register accesses -/

theorem inv_pfWrite {s : State} (h : s.Inv) (off : Nat) (v : Word) : (pfWrite s off v).Inv := by
  unfold pfWrite
  split
  · exact h
  · grind [inv_dierstWrite, inv_linkControl, inv_writePw2, inv_transWrite]

theorem inv_vfWrite {s : State} (h : s.Inv) (f off : Nat) (v : Word) : (vfWrite s f off v).Inv := by
  unfold vfWrite
  split
  · grind [inv_transWrite]
  · grind [inv_writePw2]

theorem inv_mailboxWrite {s : State} (h : s.Inv) (off : Nat) (v : Word) : (mailboxWrite s off v).Inv := by
  unfold mailboxWrite
  split
  · exact h
  · exact h
  · grind [inv_fwcmd]
  · exact h

theorem inv_pw0Write {s : State} (h : s.Inv) (f off : Nat) (v : Word) : (pw0Write s f off v).Inv := by
  unfold pw0Write
  split
  · exact h
  · grind [inv_pfWrite, inv_vfWrite]

theorem inv_registerWrite {s : State} (h : s.Inv) (f : Nat) (r : HostReg) (v : Word) : (registerWrite s f r v).Inv := by
  unfold registerWrite
  split
  · exact h
  · grind [inv_mailboxWrite, inv_pw4Write, inv_pw0Write]

theorem inv_apertureRead {s : State} (h : s.Inv) (f off : Nat) : (apertureRead s f off).1.Inv := by
  unfold apertureRead
  split <;> exact h

theorem inv_linkRead {s : State} (h : s.Inv) (n off : Nat) : (linkRead s n off).1.Inv := by
  unfold linkRead
  split <;> exact h

theorem inv_pfRead {s : State} (h : s.Inv) (off : Nat) : (pfRead s off).1.Inv := by
  unfold pfRead
  split
  · exact h
  · grind [inv_linkRead, inv_apertureRead]

theorem inv_vfRead {s : State} (h : s.Inv) (f off : Nat) : (vfRead s f off).1.Inv := by
  unfold vfRead
  split
  · exact h
  · grind [inv_apertureRead]

theorem inv_pw0Read {s : State} (h : s.Inv) (f off : Nat) : (pw0Read s f off).1.Inv := by
  unfold pw0Read
  split
  · exact h
  · grind [inv_pfRead, inv_vfRead]

theorem inv_regRead {s : State} (h : s.Inv) (f : Nat) (r : HostReg) : (regRead s f r).1.Inv := by
  unfold regRead
  split
  · exact h
  · exact h
  · grind [inv_pw0Read]
  · grind [inv_pw0Read]
  · exact h

theorem inv_readRegister {s : State} (h : s.Inv) (f : Nat) (r : HostReg) : (readRegister s f r).Inv := by
  unfold readRegister
  split
  · exact h
  · grind [inv_regRead, inv_reply]

theorem inv_hostPerform {s : State} (h : s.Inv) (r : HostReq) : (hostPerform r s).Inv := by
  unfold hostPerform
  split
  · grind [inv_pw2WriteNow]
  · grind [inv_pw2ReadNow]
  · grind [inv_registerWrite]
  · grind [inv_readRegister]

theorem inv_postedNow {s : State} (h : s.Inv) : (postedNow s).Inv := by
  unfold postedNow
  split
  · exact h
  · grind [State.Inv, inv_hostPerform]

theorem inv_fromHost {s : State} (h : s.Inv) (r : HostReq) : (fromHost r s).Inv := by
  unfold fromHost
  grind [inv_inOrder, inv_hostPerform]

theorem inv_hostReads {s : State} (h : s.Inv) (f : Nat) (r : HostReg) : (hostReads s f r).Inv := by
  unfold hostReads
  grind [inv_fromHost]

theorem keeps_execRegisterWrite {s : State} (h : s.Inv) (f : Nat) (r : HostReg) (v : Word) : KeepsForm (execRegisterWrite f r v s) := by
  unfold execRegisterWrite
  refine keepsForm_next ?_
  grind [inv_fromHost]

theorem keeps_execHostPw2Read {s : State} (h : s.Inv) (f off n : Nat) : KeepsForm (execHostPw2Read f off n s) := by
  unfold execHostPw2Read
  refine keepsForm_next ?_
  grind [inv_fromHost]

theorem keeps_execHostPw2Write {s : State} (h : s.Inv) (f off : Nat) (bs : List Byte) : KeepsForm (execHostPw2Write f off bs s) := by
  unfold execHostPw2Write
  refine keepsForm_next ?_
  grind [inv_fromHost]

theorem keeps_execQcfg {s : State} (h : s.Inv) (q : Nat) (v : Word) : KeepsForm (execQcfg q v s) := by
  unfold execQcfg
  refine keepsForm_next ?_
  grind [inv_fromHost]

theorem keeps_execQtail {s : State} (h : s.Inv) (q : Nat) (v : Word) : KeepsForm (execQtail q v s) := by
  unfold execQtail
  refine keepsForm_next ?_
  grind [inv_fromHost]

theorem keeps_execChead {s : State} (h : s.Inv) (q : Nat) (v : Word) : KeepsForm (execChead q v s) := by
  unfold execChead
  refine keepsForm_next ?_
  grind [inv_fromHost]

theorem keeps_execRingerr {s : State} (h : s.Inv) (q : Nat) (v : Word) : KeepsForm (execRingerr q v s) := by
  unfold execRingerr
  refine keepsForm_next ?_
  grind [inv_fromHost]

theorem keeps_execPlimit {s : State} (h : s.Inv) (v : Word) : KeepsForm (execPlimit v s) := by
  unfold execPlimit
  refine keepsForm_next ?_
  grind [inv_fromHost]

theorem keeps_execLmax {s : State} (h : s.Inv) (cn : Nat) (v : Word) : KeepsForm (execLmax cn v s) := by
  unfold execLmax
  refine keepsForm_next ?_
  grind [inv_fromHost]

theorem keeps_execMapseq {s : State} (h : s.Inv) (cn : Nat) (v : Word) : KeepsForm (execMapseq cn v s) := by
  unfold execMapseq
  refine keepsForm_next ?_
  grind [inv_fromHost]

theorem keeps_execLerr {s : State} (h : s.Inv) (n : Nat) : KeepsForm (execLerr n s) := by
  unfold execLerr
  refine keepsForm_next ?_
  grind [inv_fromHost]

theorem keeps_execPw2err {s : State} (h : s.Inv) (f : Nat) : KeepsForm (execPw2err f s) := by
  unfold execPw2err
  refine keepsForm_next ?_
  split <;> grind [inv_fromHost]

end Sys2Proof.Proofs
end

section
/-!
PROOFS. Every step keeps memory in canonical form (log 2).
-/
namespace Sys2Proof.Proofs
open Sys2Proof Sys2Proof.Machine Sys2Proof.Machine.State Sys2Proof.Claims
open Host (Outcome)

/-! ### Turns and the passing of time -/

theorem inv_handlerWait {s : State} (h : s.Inv) (k : Nat) : (handlerWait s k).Inv := by
  unfold handlerWait
  split
  · exact h
  · exact h
  · grind [inv_lookAgain, inv_waitEnds, inv_modThr]

theorem inv_takeOwed {s : State} (h : s.Inv) (k : Nat) : (takeOwed s k).Inv := by
  unfold takeOwed
  split
  · grind [inv_takeTrap, inv_modThr]
  · exact h

theorem inv_heldBody {s : State} (h : s.Inv) (r : HeldReq) : (heldBody r s).state.Inv := by
  unfold heldBody
  grind [BRes.state, inv_ldBody, inv_stBody, inv_vecLoadBody, inv_vecStoreBody, inv_atomicBody, inv_synReadBody, inv_ctrAddBody]

theorem inv_heldFails {s : State} (h : s.Inv) (k : Nat) (r : HeldReq) (c : BitVec 6) (a i : Word) : (heldFails s k r c a i).Inv := by
  unfold heldFails
  split <;> exact h

theorem inv_heldTurn {s : State} (h : s.Inv) (k : Nat) (r : HeldReq) : (heldTurn s k r).Inv := by
  have hm : State.Inv { s with mover := .thread k } := h
  have hb := inv_heldBody (inv_modThr hm k fun t => { t with held := none }) r
  unfold heldTurn
  dsimp only
  generalize heldBody r _ = b at hb ⊢
  cases b with
  | ok s1 late =>
    cases late
    · exact inv_modThr hb _ _
    · exact hb
  | trap s1 c a i => exact inv_heldFails hb _ _ _ _ _
  | held s1 _ => exact inv_modThr hb _ _
  | wait s1 => exact inv_modThr hb _ _
  | jump s1 _ => exact hb
  | after s1 _ _ => exact hb
  | stop s1 => exact hb

theorem inv_heldsNow {s : State} (h : s.Inv) : (heldsNow s).Inv := by
  unfold heldsNow
  grind [inv_heldTurn, inv_foldl]

theorem inv_threadTurn {s : State} (h : s.Inv) (k : Nat) : (threadTurn s k).state.Inv := by
  unfold threadTurn
  grind [State.Inv, Turn.state, inv_toSlot, inv_handlerWait, inv_takeOwed, inv_lookAgain, inv_trapWait, inv_waitEnds, inv_modThr, inv_setThr, inv_fetchC,
    inv_chargeWork, inv_takeFetchTrap]

theorem inv_nodeTurn {s : State} (h : s.Inv) (inst ix : Nat) : (nodeTurn s inst ix).state.Inv := by
  unfold nodeTurn
  split
  · exact h
  · grind [State.Inv, Turn.state, inv_chargeWork]

theorem inv_eventTurn {s : State} (h : s.Inv) (i : Instr) : (eventTurn s i).state.Inv := by
  unfold eventTurn
  split <;> exact h

theorem inv_turn {s : State} (h : s.Inv) (m : Move) : (turn s m).state.Inv := by
  have hm : State.Inv { s with mover := m.mover } := h
  unfold turn
  cases m with
  | thread k => exact inv_threadTurn hm k
  | node i ix => exact inv_nodeTurn hm i ix
  | event i => exact inv_eventTurn hm i
  | hostRead f r => exact inv_hostReads hm f r
  | hostMem a bs => exact inv_hostStores hm a bs

theorem inv_hostNow {s : State} (h : s.Inv) : (hostNow s).Inv := by
  unfold hostNow
  grind [State.Inv, inv_dropTaken, inv_postedNow]

theorem inv_passTime {s : State} (h : s.Inv) : (passTime s).Inv := by
  unfold passTime
  grind [State.Inv, inv_timeoutsNow, inv_hostNow, inv_heldsNow, inv_pendsNow, inv_testAll, inv_facesNow, inv_peersNow, inv_dropTaken]

theorem inv_takeMove {s : State} (h : s.Inv) : (takeMove s).2.Inv := by
  unfold takeMove
  split <;> exact h

/-! ### Instructions and events -/

/-- Every instruction and every event keeps the form. -/
theorem keeps_exec {s : State} (h : s.Inv) (i : Instr) : KeepsForm (exec i s) := by
  cases i with
  | nop f => exact keeps_execNop h f
  | add f => exact keeps_intForm h _ _ _
  | sub f => exact keeps_intForm h _ _ _
  | mul f => exact keeps_intForm h _ _ _
  | mulh f => exact keeps_intForm h _ _ _
  | div f => exact keeps_intForm h _ _ _
  | rem f => exact keeps_intForm h _ _ _
  | madd f => exact keeps_intForm h _ _ _
  | and f => exact keeps_intForm h _ _ _
  | or f => exact keeps_intForm h _ _ _
  | xor f => exact keeps_intForm h _ _ _
  | andn f => exact keeps_intForm h _ _ _
  | shl f => exact keeps_intForm h _ _ _
  | shr f => exact keeps_intForm h _ _ _
  | rot f => exact keeps_intForm h _ _ _
  | min f => exact keeps_intForm h _ _ _
  | max f => exact keeps_intForm h _ _ _
  | cmp f => exact keeps_execCmp h f
  | sel f => exact keeps_execSel h f
  | clz f => exact keeps_intForm h _ _ _
  | popc f => exact keeps_intForm h _ _ _
  | brev f => exact keeps_intForm h _ _ _
  | bfx f => exact keeps_intForm h _ _ _
  | bfi f => exact keeps_intForm h _ _ _
  | sext f => exact keeps_intForm h _ _ _
  | zext f => exact keeps_intForm h _ _ _
  | mov f => exact keeps_intForm h _ _ _
  | li f => exact keeps_execLi h f
  | lih f => exact keeps_execLih h f
  | adr f => exact keeps_execAdr h f
  | abs f => exact keeps_intForm h _ _ _
  | fadd f => exact keeps_fltForm h _ _ _ _
  | fsub f => exact keeps_fltForm h _ _ _ _
  | fmul f => exact keeps_fltForm h _ _ _ _
  | fma f => exact keeps_fltForm h _ _ _ _
  | fmin f => exact keeps_fltForm h _ _ _ _
  | fmax f => exact keeps_fltForm h _ _ _ _
  | fcmp f => exact keeps_execFcmp h f
  | fsgn f => exact keeps_fltForm h _ _ _ _
  | fcvt f => exact keeps_execFcvt h f
  | fcls f => exact keeps_fltForm h _ _ _ _
  | frnd f => exact keeps_fltForm h _ _ _ _
  | fdiv f => exact keeps_fltForm h _ _ _ _
  | fsqrt f => exact keeps_fltForm h _ _ _ _
  | frcp f => exact keeps_fltForm h _ _ _ _
  | frsq f => exact keeps_fltForm h _ _ _ _
  | fex2 f => exact keeps_fltForm h _ _ _ _
  | flg2 f => exact keeps_fltForm h _ _ _ _
  | fsin f => exact keeps_fltForm h _ _ _ _
  | fcos f => exact keeps_fltForm h _ _ _ _
  | ftanh f => exact keeps_fltForm h _ _ _ _
  | fsigm f => exact keeps_fltForm h _ _ _ _
  | fgelu f => exact keeps_fltForm h _ _ _ _
  | fsilu f => exact keeps_fltForm h _ _ _ _
  | vbcast f => exact keeps_moveLanes h _ _ _ _
  | vperm f => exact keeps_moveLanes h _ _ _ _
  | vred f => exact keeps_execVred h f
  | vscan f => exact keeps_execVscan h f
  | vcmp f => exact keeps_execVcmp h f
  | vmerge f => exact keeps_execVmerge h f
  | vcomp f => exact keeps_execVcomp h f
  | vspread f => exact keeps_moveLanes h _ _ _ _
  | vlane f => exact keeps_moveLanes h _ _ _ _
  | vins f => exact keeps_execVins h f
  | vext f => exact keeps_execVext h f
  | mlog f => exact keeps_execMlog h f
  | mpop f => exact keeps_execMpop h f
  | mfirst f => exact keeps_execMfirst h f
  | vnarrow f => exact keeps_crossWidth h _ _ _
  | vwiden f => exact keeps_crossWidth h _ _ _
  | vdot f => exact keeps_execVdot h f
  | vrev f => exact keeps_moveLanes h _ _ _ _
  | vrot f => exact keeps_moveLanes h _ _ _ _
  | ld f => exact keeps_execLd h f
  | st f => exact keeps_execSt h f
  | prf f => exact keeps_execPrf h f
  | vld f => exact keeps_vecLoad h _ _ _
  | vst f => exact keeps_vecStore h _ _ _ _
  | vgat f => exact keeps_vecLoad h _ _ _
  | vsct f => exact keeps_vecStore h _ _ _ _
  | vlds f => exact keeps_vecLoad h _ _ _
  | vsts f => exact keeps_vecStore h _ _ _ _
  | cwb f => exact keeps_execCwb h f
  | cinv f => exact keeps_execCinv h f
  | amo f => exact keeps_execAmo h f
  | cas f => exact keeps_execCas h f
  | fence f => exact keeps_execFence h f
  | pub f => exact keeps_execPub h f
  | synPost f => exact keeps_execSynPost h f
  | synRead f => exact keeps_execSynRead h f
  | synWait f => exact keeps_execSynWait h f
  | ctrAdd f => exact keeps_execCtrAdd h f
  | ctrWait f => exact keeps_execCtrWait h f
  | semSig f => exact keeps_execSemSig h f
  | semWait f => exact keeps_execSemWait h f
  | barArr f => exact keeps_execBarArr h f
  | barWait f => exact keeps_execBarWait h f
  | gbarArr f => exact keeps_execGbarArr h f
  | gbarWait f => exact keeps_execGbarWait h f
  | cmodeCoh f => exact keeps_cmode h _ _ _
  | cmodeSoft f => exact keeps_cmode h _ _ _
  | tfence f => exact keeps_execTfence h f
  | br f => exact keeps_execBr h f
  | jmp f => exact keeps_execJmp h f
  | jmpr f => exact keeps_execJmpr h f
  | call f => exact keeps_execCall h f
  | callr f => exact keeps_execCallr h f
  | ret f => exact keeps_execRet h f
  | exit f => exact keeps_execExit h f
  | steer f => exact keeps_execSteer h f
  | fan f => exact keeps_execFan h f
  | null f => exact keeps_execNull h f
  | gate f => exact keeps_execGate h f
  | fwr f => exact keeps_execFwr h f
  | acc f => exact keeps_execAcc h f
  | merge f => exact keeps_execMerge h f
  | mm f => exact keeps_engineC h _ _
  | mmb f => exact keeps_engineC h _ _
  | rstep f => exact keeps_engineC h _ _
  | cp f => exact keeps_execCp h f
  | gath f => exact keeps_execGath h f
  | cps f => exact keeps_engineC h _ _
  | slotFree f => exact keeps_execSlotFree h f
  | coll f => exact keeps_engineC h _ _
  | sbind f => exact keeps_engineC h _ _
  | sbar f => exact keeps_engineC h _ _
  | eWait f => exact keeps_execEWait h f
  | eTest f => exact keeps_execETest h f
  | eCancel f => exact keeps_execECancel h f
  | eDetach f => exact keeps_execEDetach h f
  | eAdopt f => exact keeps_execEAdopt h f
  | ePrio f => exact keeps_execEPrio h f
  | eFault f => exact keeps_execEFault h f
  | ctxStart f => exact keeps_execCtxStart h f
  | ctxReap f => exact keeps_execCtxReap h f
  | getsr f => exact keeps_execGetsr h f
  | setsr f => exact keeps_execSetsr h f
  | yield f => exact keeps_execYield h f
  | halt f => exact keeps_execHalt h f
  | trap f => exact keeps_execTrap h f
  | brk f => exact keeps_execBrk h f
  | taskPost f => exact keeps_execTaskPost h f
  | chanBlk f => exact keeps_execChanBlk h f
  | meas f => exact keeps_execMeas h f
  | eret f => exact keeps_execEret h f
  | taskCancel f => exact keeps_execTaskCancel h f
  | fetchTrap thread => exact keeps_execFetchTrap h thread
  | longLatencyFill thread idx => exact keeps_execLongLatencyFill h thread idx
  | storeAccept thread idx => exact keeps_execStoreAccept h thread idx
  | errorReply thread store idx => exact keeps_execErrorReply h thread store idx
  | crossCallReturn thread => exact keeps_execCrossCallReturn h thread
  | linePoisoning line => exact keeps_execLinePoisoning h line
  | blockLoad act => exact keeps_execBlockLoad h act
  | instanceStart act => exact keeps_execInstanceStart h act
  | tokenArrival idx => exact keeps_execTokenArrival h idx
  | instanceQuiescent inst => exact keeps_execInstanceQuiescent h inst
  | instanceCommit inst => exact keeps_execInstanceCommit h inst
  | instanceTimeout inst => exact keeps_execInstanceTimeout h inst
  | graphFaultTaken inst => exact keeps_execGraphFaultTaken h inst
  | graphHandlerStart act => exact keeps_execGraphHandlerStart h act
  | graphCallReturn inst => exact keeps_execGraphCallReturn h inst
  | streamPortEmit tile port => exact keeps_execStreamPortEmit h tile port
  | portFetchFault tile port => exact keeps_execPortFetchFault h tile port
  | errandQueued tile slot => exact keeps_execErrandQueued h tile slot
  | errandStart tile slot => exact keeps_execErrandStart h tile slot
  | errandPreemptionPoint tile slot => exact keeps_execErrandPreemptionPoint h tile slot
  | errandResume tile slot => exact keeps_execErrandResume h tile slot
  | errandChunkDone tile slot => exact keeps_execErrandChunkDone h tile slot
  | errandPublish tile slot => exact keeps_execErrandPublish h tile slot
  | operandFetchFault tile slot => exact keeps_execOperandFetchFault h tile slot
  | fetchReplay tile slot => exact keeps_execFetchReplay h tile slot
  | replayTimeout tile slot => exact keeps_execReplayTimeout h tile slot
  | groupPlacement => exact keeps_execGroupPlacement h
  | groupStart kernel => exact keeps_execGroupStart h kernel
  | launchStarvation kernel => exact keeps_execLaunchStarvation h kernel
  | taskDispatch die => exact keeps_execTaskDispatch h die
  | kernelCompletion kernel => exact keeps_execKernelCompletion h kernel
  | preemptRequest tile => exact keeps_execPreemptRequest h tile
  | saveComplete tile => exact keeps_execSaveComplete h tile
  | groupEviction tile => exact keeps_execGroupEviction h tile
  | restoreRequest kernel rank tile => exact keeps_execRestoreRequest h kernel rank tile
  | restoreComplete tile => exact keeps_execRestoreComplete h tile
  | budgetPeriod => exact keeps_execBudgetPeriod h
  | headroomUpdate h0 h1 h2 h3 => exact keeps_execHeadroomUpdate h h0 h1 h2 h3
  | bellSlot die => exact keeps_execBellSlot h die
  | thermalSample dies stackTemps hub => exact keeps_execThermalSample h dies stackTemps hub
  | thermalTrip die => exact keeps_execThermalTrip h die
  | coldReset => exact keeps_execColdReset h
  | selfCheckTimeout => exact keeps_execSelfCheckTimeout h
  | imageReady => exact keeps_execImageReady h
  | dieAdmit die => exact keeps_execDieAdmit h die
  | fwcmdStore => exact keeps_execFwcmdStore h
  | fwcmdHandover => exact keeps_execFwcmdHandover h
  | fwcmdStoreHandover => exact keeps_execFwcmdStoreHandover h
  | handoverCommit => exact keeps_execHandoverCommit h
  | receiptSigned => exact keeps_execReceiptSigned h
  | create queue blocks => exact keeps_execCreate h queue blocks
  | destroy queue => exact keeps_execDestroy h queue
  | teardownComplete ctx => exact keeps_execTeardownComplete h ctx
  | allot queue blocks => exact keeps_execAllot h queue blocks
  | load queue => exact keeps_execLoad h queue
  | launch queue => exact keeps_execLaunch h queue
  | copy queue => exact keeps_execCopy h queue
  | receipt queue => exact keeps_execReceipt h queue
  | barrier queue => exact keeps_execBarrier h queue
  | signal queue => exact keeps_execSignal h queue
  | preempt queue => exact keeps_execPreempt h queue
  | restore queue => exact keeps_execRestore h queue
  | grouptab queue => exact keeps_execGrouptab h queue
  | peertab queue => exact keeps_execPeertab h queue
  | badkind queue => exact keeps_execBadkind h queue
  | completionEntryWrite queue => exact keeps_execCompletionEntryWrite h queue
  | qcfg queue value => exact keeps_execQcfg h queue value
  | qtail queue value => exact keeps_execQtail h queue value
  | chead queue value => exact keeps_execChead h queue value
  | ringerr queue value => exact keeps_execRingerr h queue value
  | plimit value => exact keeps_execPlimit h value
  | dierst value => exact keeps_execDierst h value
  | dieReset die => exact keeps_execDieReset h die
  | dieReadmit die => exact keeps_execDieReadmit h die
  | quiesce link => exact keeps_execQuiesce h link
  | resume link => exact keeps_execResume h link
  | retrain link => exact keeps_execRetrain h link
  | lerr link => exact keeps_execLerr h link
  | pw2err func => exact keeps_execPw2err h func
  | lmax ctx value => exact keeps_execLmax h ctx value
  | mapseq ctx value => exact keeps_execMapseq h ctx value
  | mapdoneAdvance ctx => exact keeps_execMapdoneAdvance h ctx
  | registerWrite func reg value => exact keeps_execRegisterWrite h func reg value
  | hostPw2Read func offset bytes => exact keeps_execHostPw2Read h func offset bytes
  | hostPw2Write func offset data => exact keeps_execHostPw2Write h func offset data
  | functionLevelReset func => exact keeps_execFunctionLevelReset h func
  | linkTrained link lanes rate => exact keeps_execLinkTrained h link lanes rate
  | trainingFailure link => exact keeps_execTrainingFailure h link
  | linkQuiesced link => exact keeps_execLinkQuiesced h link
  | retrainComplete link => exact keeps_execRetrainComplete h link
  | retrainTimeout link => exact keeps_execRetrainTimeout h link
  | flitReceive link flit good => exact keeps_execFlitReceive h link flit good
  | ackTimeout link => exact keeps_execAckTimeout h link
  | laneLockLoss link => exact keeps_execLaneLockLoss h link
  | ownershipRequest peer page mine => exact keeps_execOwnershipRequest h peer page mine
  | ownershipTransfer peer page mine data => exact keeps_execOwnershipTransfer h peer page mine data
  | ownerUnreachable peer => exact keeps_execOwnerUnreachable h peer
  | walkComplete idx => exact keeps_execWalkComplete h idx
  | walkInstallTimeout idx => exact keeps_execWalkInstallTimeout h idx
  | leaseExpiry unit idx => exact keeps_execLeaseExpiry h unit idx
  | powerLoss => exact keeps_execPowerLoss h
  | lineEviction tile line => exact keeps_execLineEviction h tile line
  | correctedError channel => exact keeps_execCorrectedError h channel
  | dieFatalError die => exact keeps_execDieFatalError h die
  | homeMove die => exact keeps_execHomeMove h die
  | selfCheckComplete pass => exact keeps_execSelfCheckComplete h pass

/-! ### The step -/

/-- Settles O60: time that passes, the agent that moves and the instruction or event that it runs each keep the form. -/
theorem stepKeepsMemoryForm : Obligations.StepKeepsMemoryForm := by
  unfold Obligations.StepKeepsMemoryForm
  intro s t h hs
  have ht := inv_turn (inv_takeMove (inv_passTime h)) (takeMove (passTime s)).1
  unfold step at hs
  dsimp only at hs
  split at hs
  · cases hs
  split at hs
  · next hx =>
    rw [hx] at ht
    cases hs
    exact ht
  · next hx =>
    rw [hx] at ht
    exact keeps_exec ht _ _ hs

end Sys2Proof.Proofs
end
